-- ==== Sys2Proof/Word.lean ====
section
/-! DEFINITION. The word types of the machine and their plainest arithmetic.

The MY7 is little-endian (R1); a vector or uniform register holds 32 bits, an address 64 bits, a memory cell one byte. -/

namespace Sys2Proof

/-- A 32-bit register value. -/
abbrev Word := BitVec 32

/-- A 64-bit value: an address, or a register pair read as one value. -/
abbrev DWord := BitVec 64

/-- One byte of memory. -/
abbrev Byte := BitVec 8

/-- A set of lanes of one group: bit l set means that lane l belongs to it (W = 32 on the MY7). -/
abbrev Lanes := BitVec 32

end Sys2Proof
end

