-- ==== Sys2Proof/Machine/Tab.lean ====
section
/-! DEFINITION. Finite tables by number: a list of pairs with strictly rising keys. Every sparse part of the state is one of
these; memory is one whose values are bytes and whose unlisted keys read as zero. -/

namespace Sys2Proof.Machine

/-- The entry of a key, if there is one. -/
def tabFind {α : Type} : List (Nat × α) → Nat → Option α
  | [], _ => none
  | (k, v) :: t, a => if a = k then some v else tabFind t a

/-- The entry of a key, or what an unlisted key stands for. -/
def tabGet {α : Type} (d : α) (t : List (Nat × α)) (a : Nat) : α := (tabFind t a).getD d

/-- Insert or replace, keeping the keys rising. -/
def tabPut {α : Type} : List (Nat × α) → Nat → α → List (Nat × α)
  | [], a, w => [(a, w)]
  | (k, v) :: t, a, w =>
    if a < k then (a, w) :: (k, v) :: t
    else if a = k then (a, w) :: t
    else (k, v) :: tabPut t a w

/-- Remove the entry of a key. -/
def tabErase {α : Type} : List (Nat × α) → Nat → List (Nat × α)
  | [], _ => []
  | (k, v) :: t, a => if a = k then tabErase t a else (k, v) :: tabErase t a

/-- What an unlisted byte of memory reads as (log entry 1). -/
def memDefault : Byte := 0#8

/-- Read one byte. -/
def memRead (m : List (Nat × Byte)) (a : Nat) : Byte := tabGet memDefault m a

/-- Write one byte; writing what an unlisted address reads as removes the entry. -/
def memWrite (m : List (Nat × Byte)) (a : Nat) (b : Byte) : List (Nat × Byte) :=
  if b = memDefault then tabErase m a else tabPut m a b

/-- Keys strictly rising, all above `lo`. -/
def keysAbove {α : Type} : Option Nat → List (Nat × α) → Bool
  | _, [] => true
  | none, (k, _) :: t => keysAbove (some k) t
  | some lo, (k, _) :: t => decide (lo < k) && keysAbove (some k) t

/-- The canonical form of a memory: addresses strictly rising, and no entry equal to what an unlisted address reads as. -/
def memWf (m : List (Nat × Byte)) : Bool :=
  keysAbove none m && m.all fun e => decide (e.2 ≠ memDefault)

/-- Write consecutive bytes from an address. -/
def memWriteList (m : List (Nat × Byte)) (a : Nat) : List Byte → List (Nat × Byte)
  | [] => m
  | b :: bs => memWriteList (memWrite m a b) (a + 1) bs

/-- Read `n` consecutive bytes from an address. -/
def memReadList (m : List (Nat × Byte)) (a n : Nat) : List Byte :=
  (List.range n).map fun i => memRead m (a + i)

/-- The unsigned value of bytes, the first the least significant (R1). -/
def leNat : List Byte → Nat
  | [] => 0
  | b :: bs => b.toNat + 256 * leNat bs

/-- The `n` low bytes of a number, the least significant first (R1). -/
def leBytes : Nat → Nat → List Byte
  | 0, _ => []
  | n + 1, x => BitVec.ofNat 8 x :: leBytes n (x / 256)

/-- Bits m down to l of a number (R6). -/
def bitsOf (x m l : Nat) : Nat := x / 2 ^ l % 2 ^ (m + 1 - l)

/-- Apply a function to the entry of a key. -/
def tabUpd {α : Type} (d : α) (t : List (Nat × α)) (a : Nat) (f : α → α) : List (Nat × α) :=
  tabPut t a (f (tabGet d t a))

/-- The members of a lane set in ascending order. -/
def lanesOf (m : Lanes) : List Nat := (List.range 32).filter fun l => m.getLsbD l

/-- The set of the listed lanes. -/
def lanesMask (ls : List Nat) : Lanes := ls.foldl (fun m l => m ||| BitVec.ofNat 32 (2 ^ l)) 0#32

end Sys2Proof.Machine
end

