-- ==== Sys2Proof/Machine/Digest.lean ====
section
/-! DEFINITION. The running CRC-32C of R278, the CRC-64 of R305, and the SHA-256 that R412, R413 and R428 name (its definition is that of FIPS 180-4,
log entry 12). -/

namespace Sys2Proof.Machine

/-- One bit of the reflected polynomial. -/
def crcBit (x : Word) : Word := if x.getLsbD 0 then (x >>> 1) ^^^ 0x82F63B78#32 else x >>> 1

/-- The running state after one byte (R278). -/
def crcByte (x : Word) (b : Byte) : Word :=
  (List.range 8).foldl (fun y _ => crcBit y) (x ^^^ b.zeroExtend 32)

def crcBytes (x : Word) (bs : List Byte) : Word := bs.foldl crcByte x

/-- The starting state and the value of a state. -/
def crcInit : Word := 0xFFFFFFFF#32
def crcValue (x : Word) : Word := x ^^^ 0xFFFFFFFF#32

/-! ## The CRC of a flit, R305 -/

/-- One bit of CRC-64/ECMA-182, most significant bit first. -/
def crc64Bit (x : Nat) : Nat := let y := x * 2 % 2 ^ 64; if x.testBit 63 then y ^^^ 0x42F0E1EBA9EA3693 else y

def crc64Byte (x : Nat) (b : Byte) : Nat := (List.range 8).foldl (fun y _ => crc64Bit y) (x ^^^ (b.toNat * 2 ^ 56))

/-- The value over bytes, from 0 (log entry 104). -/
def crc64 (bs : List Byte) : Nat := bs.foldl crc64Byte 0

/-! ## SHA-256 -/

def rotr (x : Word) (n : Nat) : Word := (x >>> n) ||| (x <<< (32 - n))

def shaK : List Word :=
  [0x428a2f98#32, 0x71374491#32, 0xb5c0fbcf#32, 0xe9b5dba5#32, 0x3956c25b#32, 0x59f111f1#32, 0x923f82a4#32, 0xab1c5ed5#32,
   0xd807aa98#32, 0x12835b01#32, 0x243185be#32, 0x550c7dc3#32, 0x72be5d74#32, 0x80deb1fe#32, 0x9bdc06a7#32, 0xc19bf174#32] ++
  [0xe49b69c1#32, 0xefbe4786#32, 0x0fc19dc6#32, 0x240ca1cc#32, 0x2de92c6f#32, 0x4a7484aa#32, 0x5cb0a9dc#32, 0x76f988da#32,
   0x983e5152#32, 0xa831c66d#32, 0xb00327c8#32, 0xbf597fc7#32, 0xc6e00bf3#32, 0xd5a79147#32, 0x06ca6351#32, 0x14292967#32] ++
  [0x27b70a85#32, 0x2e1b2138#32, 0x4d2c6dfc#32, 0x53380d13#32, 0x650a7354#32, 0x766a0abb#32, 0x81c2c92e#32, 0x92722c85#32,
   0xa2bfe8a1#32, 0xa81a664b#32, 0xc24b8b70#32, 0xc76c51a3#32, 0xd192e819#32, 0xd6990624#32, 0xf40e3585#32, 0x106aa070#32] ++
  [0x19a4c116#32, 0x1e376c08#32, 0x2748774c#32, 0x34b0bcb5#32, 0x391c0cb3#32, 0x4ed8aa4a#32, 0x5b9cca4f#32, 0x682e6ff3#32,
   0x748f82ee#32, 0x78a5636f#32, 0x84c87814#32, 0x8cc70208#32, 0x90befffa#32, 0xa4506ceb#32, 0xbef9a3f7#32, 0xc67178f2#32]

def shaInit : List Word :=
  [0x6a09e667#32, 0xbb67ae85#32, 0x3c6ef372#32, 0xa54ff53a#32, 0x510e527f#32, 0x9b05688c#32, 0x1f83d9ab#32, 0x5be0cd19#32]

/-- The word of four bytes, the first the most significant. -/
def beWord (bs : List Byte) : Word := bs.foldl (fun w b => (w <<< 8) ||| b.zeroExtend 32) 0#32

def beBytes (w : Word) : List Byte :=
  [w.extractLsb' 24 8, w.extractLsb' 16 8, w.extractLsb' 8 8, w.extractLsb' 0 8]

/-- The message schedule of one block, extended to 64 words. -/
def shaSchedule (blk : List Byte) : List Word :=
  (List.range 48).foldl (fun w t =>
    let a := w.getD (t + 14) 0
    let b := w.getD (t + 1) 0
    let s1 := rotr a 17 ^^^ rotr a 19 ^^^ (a >>> 10)
    let s0 := rotr b 7 ^^^ rotr b 18 ^^^ (b >>> 3)
    w ++ [s1 + w.getD (t + 9) 0 + s0 + w.getD t 0]) ((List.range 16).map fun i => beWord ((blk.drop (4 * i)).take 4))

/-- One round on the eight working words. -/
def shaRound (v : List Word) (k w : Word) : List Word :=
  let g := fun i => v.getD i 0#32
  let t1 := g 7 + (rotr (g 4) 6 ^^^ rotr (g 4) 11 ^^^ rotr (g 4) 25) + ((g 4 &&& g 5) ^^^ (~~~(g 4) &&& g 6)) + k + w
  let t2 := (rotr (g 0) 2 ^^^ rotr (g 0) 13 ^^^ rotr (g 0) 22) + ((g 0 &&& g 1) ^^^ (g 0 &&& g 2) ^^^ (g 1 &&& g 2))
  [t1 + t2, g 0, g 1, g 2, g 3 + t1, g 4, g 5, g 6]

def shaBlock (h : List Word) (blk : List Byte) : List Word :=
  let w := shaSchedule blk
  let v := (List.range 64).foldl (fun v t => shaRound v (shaK.getD t 0) (w.getD t 0)) h
  (List.range 8).map fun i => h.getD i 0 + v.getD i 0

/-- The message with its padding. -/
def shaPad (m : List Byte) : List Byte :=
  m ++ [0x80#8] ++ List.replicate ((119 - m.length % 64) % 64) 0#8 ++ (leBytes 8 (8 * m.length)).reverse

def shaGo : Nat → List Word → List Byte → List Word
  | 0, h, _ => h
  | n + 1, h, m => shaGo n (shaBlock h (m.take 64)) (m.drop 64)

/-- SHA-256: 32 bytes. -/
def sha256 (m : List Byte) : List Byte :=
  let p := shaPad m
  (shaGo (p.length / 64) shaInit p).flatMap beBytes

/-! ## SLH-DSA-SHA2-128s, FIPS 205 (log entry 7)

Parameters: n = 16, h = 63, d = 7, h' = 9, a = 12, k = 14, w = 16, len = 35. Numbers are big-endian. -/

def beNat (bs : List Byte) : Nat := leNat bs.reverse
def beNum (k n : Nat) : List Byte := (leBytes k n).reverse

/-- The compressed 22-byte address: layer, tree, type and three words. -/
def slhAdrs (layer tree type a b c : Nat) : List Byte :=
  beNum 1 layer ++ beNum 8 tree ++ beNum 1 type ++ beNum 4 a ++ beNum 4 b ++ beNum 4 c

/-- F, H and T of category 1: the first 16 bytes of SHA-256 over the seed in a block of its own, the address and the message. -/
def slhHash (seed adrs msg : List Byte) : List Byte := (sha256 (seed ++ List.replicate 48 0#8 ++ adrs ++ msg)).take 16

/-- H_msg: MGF1-SHA-256 to 30 bytes. -/
def slhMsg (r seed root msg : List Byte) : List Byte :=
  (sha256 (r ++ seed ++ sha256 (r ++ seed ++ root ++ msg) ++ beNum 4 0)).take 30

/-- The digits of `b` bits of a byte string, the most significant first. -/
def baseDigits (bs : List Byte) (b count : Nat) : List Nat :=
  let x := beNat bs
  (List.range count).map fun i => x / 2 ^ (8 * bs.length - b * (i + 1)) % 2 ^ b

/-- Node i of n 16-byte strings. -/
def nodeOf (bs : List Byte) (i : Nat) : List Byte := (bs.drop (16 * i)).take 16

/-- From a node up a Merkle tree along its authentication path; `adrs` takes height and index. -/
def climb (seed : List Byte) (adrs : Nat → Nat → List Byte) (auth : List Byte) (height index : Nat) (node : List Byte) : List Byte :=
  (List.range height).foldl (fun x j =>
    let y := nodeOf auth j
    slhHash seed (adrs (j + 1) (index / 2 ^ (j + 1))) (if index / 2 ^ j % 2 = 0 then x ++ y else y ++ x)) node

/-- The FORS public key that a signature gives for a digest. -/
def forsKey (sig md seed : List Byte) (tree leaf : Nat) : List Byte :=
  let ix := baseDigits md 12 14
  slhHash seed (slhAdrs 0 tree 4 leaf 0 0) ((List.range 14).flatMap fun i =>
    let part := sig.drop (208 * i)
    let at' := i * 2 ^ 12 + ix.getD i 0
    let adrs := fun (h x : Nat) => slhAdrs 0 tree 3 leaf h x
    climb seed adrs ((part.drop 16).take 192) 12 at' (slhHash seed (adrs 0 at') (part.take 16)))

/-- The WOTS+ public key that a signature gives for a 16-byte message. -/
def wotsKey (sig msg seed : List Byte) (layer tree leaf : Nat) : List Byte :=
  let ds := baseDigits msg 4 32
  let sum := ds.foldl (fun n x => n + (15 - x)) 0
  let ds := ds ++ baseDigits (beNum 2 (sum * 16)) 4 3
  slhHash seed (slhAdrs layer tree 1 leaf 0 0) ((List.range 35).flatMap fun i =>
    (List.range (15 - ds.getD i 0)).foldl (fun x j => slhHash seed (slhAdrs layer tree 0 leaf i (ds.getD i 0 + j)) x) (nodeOf sig i))

/-- The root of an XMSS tree that a signature gives for a 16-byte message. -/
def xmssRoot (sig msg seed : List Byte) (layer tree leaf : Nat) : List Byte :=
  climb seed (fun h x => slhAdrs layer tree 2 0 h x) ((sig.drop 560).take 144) 9 leaf (wotsKey (sig.take 560) msg seed layer tree leaf)

/-- The signature verifies under a 32-byte key, in the pure form with an empty context. -/
def slhVerify (key msg sig : List Byte) : Bool :=
  let seed := key.take 16
  let root := (key.drop 16).take 16
  let dg := slhMsg (sig.take 16) seed root ([0#8, 0#8] ++ msg)
  let tree := beNat ((dg.drop 21).take 7) % 2 ^ 54
  let leaf := beNat (dg.drop 28) % 2 ^ 9
  let fors := forsKey ((sig.drop 16).take 2912) (dg.take 21) seed tree leaf
  let ht := sig.drop 2928
  let top := (List.range 7).foldl (fun x j =>
    xmssRoot ((ht.drop (704 * j)).take 704) x seed j (tree / 2 ^ (9 * j)) (if j = 0 then leaf else tree / 2 ^ (9 * (j - 1)) % 2 ^ 9)) fors
  decide (sig.length = 7856) && decide (key.length = 32) && top == root

end Sys2Proof.Machine
end

