-- ==== Sys2Proof/Syntax.lean ====
section
/-! DEFINITION. The instructions and events of the MY7: one constructor for each row of spec/opcode_table.json.

The first part of `Instr` holds the instruction words (R95 to R136), in decoded form; the second part holds the steps that
no instruction word encodes (queue packets, register writes, completions, power and link events), with what the outside
world or the unit concerned supplies as their arguments. -/

namespace Sys2Proof

/-- Operand specifier, R97. -/
inductive Spec where
  | v (n : BitVec 8)                                        -- vector register
  | s (n : BitVec 8)                                        -- uniform register
  | x (post : Bool) (i : BitVec 3) (k : BitVec 4)           -- indexed vector register
  | imm (n : BitVec 7)                                      -- small signed immediate
  | con (c : BitVec 7)                                      -- constant entry
  deriving DecidableEq, Repr

/-- The guard fields of a word: the F form's single predicate, or the X form's combined pair (R102, R106, R111). -/
inductive Guard where
  | f (p : BitVec 4) (neg : Bool)
  | x (p1 : BitVec 4) (n1 : Bool) (p2 : BitVec 4) (n2 : Bool) (gc : BitVec 2)
  deriving DecidableEq, Repr

/-- What every F or X word carries besides its operands: switch marker, guard, and the X form's cache hint, yield hint and
issue-spacing hint (R95, R106, R109, R133). -/
structure Hdr where
  mark  : Bool
  guard : Guard
  ch    : BitVec 4
  yld   : Bool
  spc   : BitVec 2
  deriving DecidableEq, Repr

/-- The four types of the integer instructions, R158. -/
inductive IntTy where
  | i32 | n32 | i64 | n64
  deriving DecidableEq, Repr

/-- The types of the floating-point instructions, R208. -/
inductive FTy where
  | f32 | f64 | f16 | bf16 | q32
  deriving DecidableEq, Repr

/-- Every type of the TYPE field, R132. -/
inductive Ty where
  | i32 | n32 | i64 | n64 | i16 | n16 | i8 | n8 | f32 | f64 | f16 | bf16 | e4m3 | e5m2 | t8 | t6 | q32
  deriving DecidableEq, Repr

/-- Rounding modes, R132. -/
inductive Rnd where
  | rn | rz | rd | ru | rm | sr
  deriving DecidableEq, Repr

/-- Scopes, R132. -/
inductive Scope where
  | core | nbhd | dev | sys
  deriving DecidableEq, Repr

/-- Comparisons, R132. -/
inductive Cmp where
  | eq | ne | lt | le | gt | ge
  deriving DecidableEq, Repr

/-- SHFL modes, R172. -/
inductive ShflMode where
  | up | down | xor | idx
  deriving DecidableEq, Repr

/-- VOTE modes, R173. -/
inductive VoteMode where
  | any | all | ballot
  deriving DecidableEq, Repr

/-- Reduction and scan operators, R174. -/
inductive RedOp where
  | add | min | max
  deriving DecidableEq, Repr

/-- Atomic operators, R265. -/
inductive AtomOp where
  | add | min | max | and | or | xor | xch
  deriving DecidableEq, Repr

/-- Special functions, R228. -/
inductive SfqFn where
  | rcp | rsq | ex2 | lg2 | sin | cos | tanh
  deriving DecidableEq, Repr

/-- Element counts of LD, ST and LDSC, R259. -/
inductive Count where
  | x1 | x2 | x4
  deriving DecidableEq, Repr

/-- What TOLLRD reads, R82. -/
inductive TollSel where
  | b | e | l
  deriving DecidableEq, Repr

/-- The field group that TMSET changes, R338. -/
inductive TmField where
  | base | stride | sptr | shape | fmt | addb | adds
  deriving DecidableEq, Repr

/-- One half of a P word, R103. -/
structure Half where
  pop : BitVec 7
  pg  : BitVec 3
  d   : BitVec 8
  a   : Spec
  deriving DecidableEq, Repr

/-- The kind of an access that a walk serves (R250 KIND). -/
inductive AccKind where
  | read | write | fetch | atomic
  deriving DecidableEq, Repr

/-- How a host completion ends, R269. -/
inductive HostStatus where
  | success | unsupported | abort
  deriving DecidableEq, Repr

/-- Who waits for a host completion: a lane access of a group, an engine command, a FREEZE or THAW (R269), or a function's request for
the translation of a page (R301). -/
inductive HostWaiter where
  | lane (at' : Nat) (seq : Nat)
  | engine (cmd : Nat)
  | freezer
  | ats (func page : Nat)
  deriving DecidableEq, Repr

/-- A configuration request of the host (R296, R297): a read of a function's header, or what the host may program: the number of virtual
functions, the size of BAR4 as a power of two, and a function's ATS and PRI enables (R300, R301). -/
inductive CfgReq where
  | read (func : Nat)
  | numVfs (n : Nat)
  | bar4 (lg : Nat)
  | ats (func : Nat) (on : Bool)
  | pri (func : Nat) (on : Bool)
  deriving DecidableEq, Repr

/-- A configuration request as it arrives at a PCIe port. -/
structure CfgAsk where
  port : Nat
  req  : CfgReq
  deriving DecidableEq, Repr

/-- An inbound Vyulo Link request, R305. A compare-and-swap compares with `cmp` (R266). `copy` is a part of a peer's XCOPY.CRC or XCOPY.CHK,
numbered `cmd` by its source: the bytes for `off` of a command that writes `len` bytes at `base`, its CRC starting from `start` (R278,
R307, R310). -/
inductive PeerReq where
  | write (off : Nat) (bytes : List Byte)
  | read (off : Nat) (len : Nat)
  | atom (off : Nat) (op : AtomOp) (cas : Bool) (ty : Ty) (b cmp : DWord)
  | copy (cmd base len : Nat) (start : Word) (off : Nat) (bytes : List Byte)
  deriving DecidableEq, Repr

/-- What a flit carries: a request with its source NODEID and transaction identifier, a NAK that names the expected SEQ, or neither (R305,
R306). -/
inductive FlitBody where
  | req (src xid : Nat) (r : PeerReq)
  | nak (seq : BitVec 12)
  | other
  deriving DecidableEq, Repr

/-- A received flit, R305. The spec gives no inner layout of HDR and PAYLOAD: `body` is what they carry (log entry 104). -/
structure Flit where
  hdr     : BitVec 40
  seq     : BitVec 12
  ack     : BitVec 12
  payload : BitVec 1920
  crc     : BitVec 64
  body    : FlitBody
  deriving DecidableEq, Repr

/-- The processors that the anchor watches, R434. -/
inductive Proc where
  | management | frontEnd (n : Nat) | link (n : Nat) | compute (n : Nat)
  deriving DecidableEq, Repr

/-- One constructor for each row of spec/opcode_table.json. -/
inductive Instr where
  -- integer and logic, R159 to R167
  | iadd (h : Hdr) (ty : IntTy) (sat : Bool) (d a b : Spec)
  | isub (h : Hdr) (ty : IntTy) (sat : Bool) (d a b : Spec)
  | imul (h : Hdr) (ty : IntTy) (sat : Bool) (d a b : Spec)
  | imulh (h : Hdr) (ty : IntTy) (d a b : Spec)
  | imac (h : Hdr) (ty : IntTy) (sat : Bool) (d a b c : Spec)
  | imin (h : Hdr) (ty : IntTy) (d a b : Spec)
  | imax (h : Hdr) (ty : IntTy) (d a b : Spec)
  | iabs (h : Hdr) (ty : IntTy) (sat : Bool) (d a : Spec)
  | ineg (h : Hdr) (ty : IntTy) (sat : Bool) (d a : Spec)
  | and (h : Hdr) (ty : IntTy) (d a b : Spec)
  | or (h : Hdr) (ty : IntTy) (d a b : Spec)
  | xor (h : Hdr) (ty : IntTy) (d a b : Spec)
  | andn (h : Hdr) (ty : IntTy) (d a b : Spec)
  | not (h : Hdr) (ty : IntTy) (d a : Spec)
  | shl (h : Hdr) (ty : IntTy) (d a b : Spec)
  | shr (h : Hdr) (ty : IntTy) (d a b : Spec)
  | sar (h : Hdr) (ty : IntTy) (d a b : Spec)
  | bfe (h : Hdr) (ty : IntTy) (d a b : Spec)
  | bfi (h : Hdr) (ty : IntTy) (d a b : Spec)
  | popc (h : Hdr) (ty : IntTy) (d a : Spec)
  | clz (h : Hdr) (ty : IntTy) (d a : Spec)
  | brev (h : Hdr) (ty : IntTy) (d a : Spec)
  | lea (h : Hdr) (signed : Bool) (sh : BitVec 3) (d a b : Spec)
  | icmp (h : Hdr) (cmp : Cmp) (ty : IntTy) (pd : BitVec 4) (a b : Spec)
  | isel (h : Hdr) (ty : IntTy) (psel : BitVec 4) (d a b : Spec)
  | igcd (h : Hdr) (ty : IntTy) (d a b : Spec)
  | mov (h : Hdr) (ty : IntTy) (d a : Spec)
  | movi (h : Hdr) (ty : IntTy) (d : Spec) (val : Word)
  | moviHi (h : Hdr) (d : Spec) (val : Word)
  -- predicates, R168
  | pand (h : Hdr) (na nb : Bool) (pd pa pb : BitVec 4)
  | por (h : Hdr) (na nb : Bool) (pd pa pb : BitVec 4)
  | pxor (h : Hdr) (na nb : Bool) (pd pa pb : BitVec 4)
  | pnot (h : Hdr) (pd pa : BitVec 4)
  | pmov (h : Hdr) (pd pa : BitVec 4)
  -- index registers, R169
  | xset (h : Hdr) (xd : BitVec 3) (a : Spec)
  | xget (h : Hdr) (d : Spec) (xa : BitVec 3)
  | xstep (h : Hdr) (xd : BitVec 3) (a : Spec)
  | xmov (h : Hdr) (xd xa : BitVec 3)
  -- cross-lane, R172 to R176
  | shfl (h : Hdr) (mode : ShflMode) (ty : IntTy) (wrel : Bool) (d a b : Spec)
  | bcast (h : Hdr) (ty : IntTy) (d a : Spec)
  | vote (h : Hdr) (mode : VoteMode) (d : Spec) (pa : BitVec 4)
  | redx (h : Hdr) (op : RedOp) (ty : Ty) (rnd : Rnd) (d a : Spec)
  | scanx (h : Hdr) (op : RedOp) (ty : Ty) (rnd : Rnd) (d a : Spec)
  | lanerd (h : Hdr) (ty : IntTy) (d a b : Spec)
  -- control, R178 to R185
  | bra (h : Hdr) (ofs : BitVec 24)
  | brx (h : Hdr) (a : Spec)
  | call (h : Hdr) (d : Spec) (ofs : BitVec 24)
  | ret (h : Hdr) (a : Spec)
  | enrol (h : Hdr) (j : BitVec 3) (ofs : BitVec 24)
  | rejoin (h : Hdr) (j : BitVec 3)
  | loop (h : Hdr) (c : Spec) (ofs : BitVec 24)
  | exit (h : Hdr)
  | yield (h : Hdr)
  | nop (h : Hdr)
  | trap (h : Hdr) (code : BitVec 8)
  | bkpt (h : Hdr) (code : BitVec 8)
  -- floating point, R209 to R214
  | fadd (h : Hdr) (ty : FTy) (rnd : Rnd) (sat : Bool) (d a b : Spec)
  | fsub (h : Hdr) (ty : FTy) (rnd : Rnd) (sat : Bool) (d a b : Spec)
  | fmul (h : Hdr) (ty : FTy) (rnd : Rnd) (sat : Bool) (d a b : Spec)
  | fmac (h : Hdr) (ty : FTy) (rnd : Rnd) (sat : Bool) (d a b c : Spec)
  | fmin (h : Hdr) (ty : FTy) (d a b : Spec)
  | fmax (h : Hdr) (ty : FTy) (d a b : Spec)
  | fabs (h : Hdr) (ty : FTy) (d a : Spec)
  | fneg (h : Hdr) (ty : FTy) (d a : Spec)
  | fcmp (h : Hdr) (cmp : Cmp) (ty : FTy) (un : Bool) (pd : BitVec 4) (a b : Spec)
  | frnd (h : Hdr) (ty : FTy) (rnd : Rnd) (d a : Spec)
  | fclass (h : Hdr) (ty : FTy) (d a : Spec)
  | fdiv (h : Hdr) (ty : FTy) (rnd : Rnd) (sat : Bool) (d a b : Spec)
  | fsqrt (h : Hdr) (ty : FTy) (rnd : Rnd) (d a : Spec)
  -- conversion and Q32, R220 to R226
  | cvt (h : Hdr) (dty sty : Ty) (rnd : Rnd) (sat : Bool) (del sel : BitVec 3) (d a : Spec)
  | qmake (h : Hdr) (ty : IntTy) (rnd : Rnd) (d a b : Spec)
  | qnum (h : Hdr) (w64 : Bool) (d a : Spec)
  | qden (h : Hdr) (w64 : Bool) (d a : Spec)
  | qmed (h : Hdr) (rnd : Rnd) (d a b : Spec)
  -- special function queue, R228 to R230
  | sfq (h : Hdr) (fn : SfqFn) (ty : FTy) (d a sk : Spec)
  | sfw (h : Hdr) (m : Spec)
  | sft (h : Hdr) (d m : Spec)
  -- memory, R256 to R271 (imm is the X form's byte offset, 0 in F form)
  | ld (h : Hdr) (ty : Ty) (scope : Scope) (count : Count) (d a b : Spec) (imm : BitVec 24)
  | st (h : Hdr) (ty : Ty) (scope : Scope) (count : Count) (d a b : Spec) (imm : BitVec 24)
  | ldk (h : Hdr) (ty : Ty) (count : Count) (d a b : Spec) (imm : BitVec 24)
  | ldsc (h : Hdr) (ty : Ty) (scope : Scope) (count : Count) (d a b : Spec) (imm : BitVec 24)
  | pfx (h : Hdr) (scope : Scope) (a b : Spec) (imm : BitVec 24)
  | atom (h : Hdr) (op : AtomOp) (ty : Ty) (scope : Scope) (d a b : Spec) (imm : BitVec 24)
  | atomCas (h : Hdr) (ty : Ty) (scope : Scope) (d a b c : Spec) (imm : BitVec 24)
  | atoma (h : Hdr) (op : AtomOp) (ty : Ty) (scope : Scope) (d a b : Spec) (imm : BitVec 24)
  | red (h : Hdr) (op : AtomOp) (ty : Ty) (scope : Scope) (a b : Spec) (imm : BitVec 24)
  -- asynchronous engines, R276 to R286
  | xcopy (h : Hdr) (lay : BitVec 3) (d a len tag : Spec)
  | xcopyCrc (h : Hdr) (lay : BitVec 3) (d a len tag out : Spec) (cont : Bool) (ptag : BitVec 6)
  | xcopyChk (h : Hdr) (lay : BitVec 3) (d a len tag exp : Spec) (cont : Bool) (ptag : BitVec 6)
  | xwaita (h : Hdr) (m : Spec)
  | xwaitl (h : Hdr) (m : Spec)
  | xfind (h : Hdr) (d m : Spec)
  | xform (h : Hdr) (d a r bo : Spec)
  | xformDec (h : Hdr) (d a r bo : Spec)
  | fenceOpnd (h : Hdr)
  -- tiles and matrix, R337 to R350
  | tmap (h : Hdr) (fmt : Ty) (swz : BitVec 3) (smode src : BitVec 2) (td : BitVec 4) (base shape stride sptr : Spec)
  | tmset (h : Hdr) (fld : TmField) (td : BitVec 4) (a : Spec)
  | accz (h : Hdr) (ad : BitVec 6)
  | accld (h : Hdr) (ad : BitVec 6) (tm : BitVec 4) (org : Spec)
  | accst (h : Hdr) (rnd : Rnd) (sat : Bool) (tm : BitVec 4) (ad : BitVec 6) (org : Spec)
  | accrd (h : Hdr) (ty : Ty) (rnd : Rnd) (sat : Bool) (d : Spec) (ad : BitVec 6) (e : Spec)
  | accwr (h : Hdr) (ty : Ty) (ad : BitVec 6) (a e : Spec)
  | mmaQuad (h : Hdr) (flt : Bool) (ad : BitVec 6) (ta tb : BitVec 4) (org : Spec) (klen : BitVec 13)
  | mmaWide (h : Hdr) (flt : Bool) (ad : BitVec 6) (ta tb : BitVec 4) (kc : BitVec 3) (org : Spec) (klen : BitVec 13)
  | mmaSquare (h : Hdr) (flt : Bool) (ad : BitVec 6) (ta tb : BitVec 4) (kc : BitVec 3) (org : Spec) (klen : BitVec 13)
  | mmaTall (h : Hdr) (flt : Bool) (ad : BitVec 6) (ta tb : BitVec 4) (kc : BitVec 3) (org : Spec) (klen : BitVec 13)
  | cdecl (h : Hdr) (kd : BitVec 3) (grp slices : Spec)
  | job (h : Hdr) (card bo : Spec)
  -- synchronisation and launch, R371 to R384
  | bar (h : Hdr) (n : Spec)
  | boinit (h : Hdr) (bo count : Spec)
  | boarr (h : Hdr) (d bo k : Spec)
  | bowait (h : Hdr) (bo g : Spec)
  | botest (h : Hdr) (pd : BitVec 4) (bo g : Spec)
  | fence (h : Hdr) (scope : Scope)
  | phrel (h : Hdr) (scope : Scope)
  | phacq (h : Hdr) (scope : Scope)
  | phsync (h : Hdr) (scope : Scope)
  | launch (h : Hdr) (a : Spec)
  | graphrun (h : Hdr) (g n : Spec)
  | ldone (h : Hdr)
  -- toll, R82, R83
  | tollrd (h : Hdr) (sel : TollSel) (d : Spec)
  | tollset (h : Hdr) (abs : Bool) (a : Spec)
  | tollrel (h : Hdr)
  -- system and debug, R397 to R400, R418
  | srd (h : Hdr) (srn : BitVec 10) (d : Spec)
  | swr (h : Hdr) (srn : BitVec 10) (a : Spec)
  | cclr (h : Hdr) (m : Spec)
  | tret (h : Hdr)
  | pmark (h : Hdr) (a : Spec)
  | cntrd (h : Hdr) (d n : Spec)
  | smpl (h : Hdr) (a : Spec)
  -- hint words (two words long when `wide`), R96, R120; pair words, R103 to R105
  | hintWord (mark wide : Bool)
  | pairWord (mark : Bool) (h0 h1 : Half)
  -- events of a core: `at'` is the group (96 * team + group index), `seq` an outstanding item of it
  | longResultWrite (at' seq : Nat)
  | groupSwap (core slice : Nat)
  | pendingPromote (core slice : Nat)
  | sfqEntryComplete (at' seq : Nat)
  -- front end: `func` is the function whose access it is, `v` the value written
  | qtailWrite (func q : Nat) (v : BitVec 32)
  | queueReset (func q : Nat) (v : BitVec 32)
  | queueEnable (func q : Nat) (v : BitVec 32)
  | ownershipWrite (func : Nat) (xing : Bool) (n : Nat) (v : BitVec 32)
  | crossingBind (func x : Nat) (v : BitVec 32)
  | packetNop (q : Nat)
  | packetLaunch (q : Nat)
  | packetSignal (q : Nat)
  | packetWait (q : Nat)
  | waitSatisfied (q : Nat)
  | packetGraph (q : Nat)
  | packetGload (q : Nat)
  | packetMark (q : Nat)
  | launchAccept
  | gridRetire (grid : Nat)
  | roundaboutPlace
  | teamRelease (team : Nat)
  | coreDark (core : Nat)
  | gtrigStore (func g : Nat) (v : DWord)
  | graphConfigWrite (func g : Nat) (pasid : Bool) (v : DWord)
  | graphRunStart (g : Nat)
  | graphNodeNop (g n : Nat)
  | graphNodeLaunch (g n : Nat)
  | graphNodeMark (g n : Nat)
  | graphNodeCond (g n : Nat)
  | graphNodeLoop (g n : Nat)
  -- toll and power: measured watts over the tick; measured milliamperes and millivolts of a sample
  | tollTick (watts : Nat)
  | kerbSample (ma mv : Nat)
  | tollModeLoop (func : Nat) (v : BitVec 32)
  | tollModePinned (func : Nat) (v : BitVec 32)
  | tollModeScripted (func : Nat) (v : BitVec 32)
  | sensorFault (region sensor mv : Nat)
  | feedLoss (feed : Nat)
  | phaseFail (region phase : Nat)
  | regionGate (func region : Nat)
  | regionWake (func region : Nat)
  | wakeGrant (segment : Nat)
  | gateStage (region : Nat)
  -- translation and page requests: `block` is the function whose register block is written
  | prrepWrite (func block : Nat) (v : BitVec 32)
  | prrepxWrite (func : Nat) (v : BitVec 32)
  | tinvStage1All (func block : Nat) (v : BitVec 32)
  | tinvStage1Pasid (func block : Nat) (v : BitVec 32)
  | tinvStage1Addr (func block : Nat) (v : BitVec 32)
  | tinvStage2All (func block : Nat) (v : BitVec 32)
  | tinvDrainDone (block : Nat)
  | atsInvalidate (func : Nat) (addr len : Nat)
  | prgResponse (func page : Nat) (success : Bool)
  -- host and peers
  | hostBar4Write (off : Nat) (bytes : List Byte)
  | hostBar4Read (off len : Nat)
  | hostCompletion (w : HostWaiter) (st : HostStatus)
  | hostCompletionTimeout (w : HostWaiter)
  | peerInboundRequest (port src : Nat) (req : PeerReq)
  | flitReceive (port : Nat) (f : Flit)
  | vlinjWrite (func : Nat) (v : DWord)
  | plazaResize (func : Nat) (v : BitVec 32)
  | plazaRangeWrite (func n : Nat) (v : BitVec 32)
  -- caches, releases, engines, matrix: `id` names the pending item
  | l1Eviction (core line : Nat)
  | releaseComplete (id : Nat)
  | acquireComplete (id : Nat)
  | barArrivalRecord (at' : Nat)
  | engineAccept (id : Nat)
  | engineComplete (id : Nat)
  | xformComplete (id : Nat)
  | mmaStep (id : Nat)
  | jobOperation (id : Nat)
  | jobWalkEnd (id : Nat)
  -- records, pre-emption, freezing, stops
  | rplrepResume (func block : Nat) (v : BitVec 32)
  | rplrepDeliver (func block : Nat) (v : BitVec 32)
  | rplrepKill (func block : Nat) (v : BitVec 32)
  | recordHeadWrite (func block : Nat) (replayable : Bool) (v : BitVec 32)
  | fprePreempt (func : Nat) (v : BitVec 32)
  | fprePreemptHold (func : Nat) (v : BitVec 32)
  | coreSwap (core : Nat)
  | swapComplete (core : Nat)
  | spillComplete (core : Nat)
  | freeze (func : Nat) (v : BitVec 32)
  | thaw (func : Nat) (v : BitVec 32)
  | freezeThawEnd
  | stopLaunch (func : Nat) (v : DWord)
  | stopTeam (func : Nat) (v : DWord)
  | stopThread (func : Nat) (v : DWord)
  | resumeLaunch (func : Nat) (v : DWord)
  | resumeTeam (func : Nat) (v : DWord)
  | resumeThread (func : Nat) (v : DWord)
  -- observation
  | counterClear (func : Nat) (v : BitVec 32)
  | histogramExportReq (func : Nat) (v : BitVec 32)
  | histogramExportPeriod
  | histogramExportWrite
  | replayPassEnd
  -- bring-up and mailbox
  | bootVerify
  | bootReleaseStep
  | heartbeat (p : Proc)
  | watchdogExpiry (p : Proc)
  | mbAttest (func : Nat) (v : BitVec 32)
  | mbReadlog (func : Nat) (v : BitVec 32)
  | mbReboot (func : Nat) (v : BitVec 32)
  | mbSelect (func : Nat) (v : BitVec 32)
  | mbStage (func : Nat) (v : BitVec 32)
  | mailboxDone
  | configRequest (ask : CfgAsk)
  | linkTrain (port rate width : Nat)
  | deviceReset
  | functionLevelReset (func : Nat)
  | registerWrite (func off width : Nat) (v : DWord)
  | translationFault (at' lane : Nat) (kind : AccKind) (va : DWord)
  | accessPerformed (at' seq : Nat)
  | l2Eviction (line : Nat)
  | pcieLinkDown (port : Nat)
  deriving DecidableEq, Repr

end Sys2Proof
end

