-- ==== Sys2Proof/Config.lean ====
section
/-! DEFINITION. What is fixed for the machine, and the free values: constants with no body for what the spec leaves open. -/

namespace Sys2Proof.Config

/-- Group width of the MY7 (00_scope.md, headline figures; R12). -/
def W : Nat := 32
/-- Cores of the module: a 16 by 12 grid. -/
def cores : Nat := 192
/-- Group slots of one slice and of one core (R137). -/
def slotsPerSlice : Nat := 24
def slotsPerCore : Nat := 96
/-- Active groups of one slice (R137). -/
def activePerSlice : Nat := 8
/-- Vector registers per lane of a slice, accumulator tiles of a slice, scratchpad KiB of a core (R14). -/
def vregsPerLane : Nat := 3072
def accsPerSlice : Nat := 64
def scrPerCore : Nat := 384
/-- Hardware queues, crossings, graphs, functions, power regions (R32, R41, R45, R297, R90). -/
def queues : Nat := 1024
def crossings : Nat := 4096
def graphs : Nat := 1024
def functions : Nat := 64
def regions : Nat := 384
/-- Local DRAM: 384 GiB (R295). -/
def dramBytes : Nat := 384 * 2 ^ 30
/-- Cycles after which a pending group is promoted (R140) and placements after which a passed-over team blocks (R62). -/
def promoteAfter : Nat := 4096
def passedOver : Nat := 4096

/-- Nanoseconds since device reset at a moment of the run: %clock, and every time stamp of a record (R398, R415, R419).
Free: the spec fixes no relation between clock points and time. Log entry 3. -/
opaque clockAt : Nat → DWord

/-- The firmware's choice tables (R74): each choosing unit's own table of signed 16-bit time and energy codes, by unit and choice. The
units are the clock of a core (with a row per activity class), the units of a group slot (core slot by number), and a link port.
Loaded by firmware, not given by the spec. Log entry 4. -/
opaque coreCode : Nat → Nat → Nat → BitVec 16 × BitVec 16
opaque copyCode : Nat → Nat → BitVec 16 × BitVec 16
opaque prefetchCode : Nat → Nat → BitVec 16 × BitVec 16
opaque effortCode : Nat → Nat → BitVec 16 × BitVec 16
opaque linkCode : Nat → Nat → BitVec 16 × BitVec 16

/-- Rating of a segment, and rated peak current and inrush of a region (R94). Log entry 5. -/
opaque segmentRating : Nat → Nat
opaque regionPeak : Nat → Nat
opaque regionInrush : Nat → Nat

/-- Voltage sensors of a region: at least eight (before R89). Log entry 5. -/
opaque regionSensors : Nat → Nat

/-- The value an immediate or constant entry has in a narrow format that cannot hold it exactly (R98 says only that it is
converted exactly): type code and 10-bit specifier. Log entry 6. -/
opaque inexactConst : Nat → Nat → Nat

/-- The anchor's fixed secrets, byte by byte: the signature that the device identity key makes over a report, the fused key digest, the
device identity public key (R428, R435). Log entry 7. -/
opaque slhSignByte : List Byte → Nat → Byte
opaque fusedByte : Nat → Byte
opaque identityByte : Nat → Byte

/-- The 7,856 bytes of a signature, the 32 of a digest and of a public key (R427, R435). -/
def slhSign (report : List Byte) : List Byte := (List.range 7856).map (slhSignByte report)
def fusedKeyDigest : List Byte := (List.range 32).map fusedByte
def identityKey : List Byte := (List.range 32).map identityByte

/-- Where a field of the 4 KiB header of an image set stands, and what offset and length it gives for image k (R427 names the contents and
gives no layout): field 0 is MAGIC, 1 SVN, 2 the public key, 3 + k the digest of image k. Log entry 54. -/
opaque headAt : Nat → Nat
opaque headRange : List Byte → Nat → Nat × Nat

/-- The bytes of a header field. -/
def headField (h : List Byte) (field n : Nat) : List Byte := (List.range n).map fun i => h.getD (headAt field % (4097 - n) + i) 0
def headMagic (h : List Byte) : Word := BitVec.ofNat 32 ((headField h 0 4).foldr (fun b n => b.toNat + 256 * n) 0)
def headSvn (h : List Byte) : BitVec 8 := (headField h 1 1).headD 0
def headKey (h : List Byte) : List Byte := headField h 2 32
def headDigest (h : List Byte) (k : Nat) : List Byte := headField h (3 + k) 32

/-- Front-end cores, whose number the spec does not give; whether an item of the power-on self-test of a boot finds no fault that the model
does not hold; the regions that stay on in the safe state (R431). Log entry 55. -/
opaque frontEnds : Nat
opaque selfTest : Nat → Nat → Bool
opaque safeSeed : Nat → Nat

/-- The three regions that stay on in the safe state: the anchor's, that of PCIe port 0, and that of the base-die logic behind it. -/
def safeRegions : List Nat :=
  let a := safeSeed 0 % regions
  let b := (a + 1 + safeSeed 1 % (regions - 1)) % regions
  [a, b, ((List.range regions).filter fun r => r != a && r != b).getD (safeSeed 2 % (regions - 2)) 0]

/-- What a FREEZE stores for a byte that a failed region held or hid (R93, R411): by the ticket of the freeze and the byte's number. Log
entry 96. -/
opaque lostByte : Nat → Nat → Byte

/-- How a READLOG reply gives one item of the self-test, with its result when it has been judged since power-up (R433). Log entry 8. -/
opaque logItem : Nat → Option Bool → List Byte

/-- Header bytes of a histogram entry that R421 names without a layout (times of the interval, the held flag, HOUT). Log
entry 9. -/
opaque histHeader : Nat → DWord → DWord → Bool → DWord → List Byte

/-- L2 slices of the module (R241). -/
def slices : Nat := 256

/-- The L2 slice of a 256-byte line and the memory interface behind it, by number; memory interfaces less one; the power regions of a
slice, a memory interface and a link port (regions 192 to 383; the spec gives no map). Log entry 11. -/
opaque sliceOf : Nat → Nat
opaque interfaceOf : Nat → Nat
opaque lastInterface : Nat
opaque sliceRegionOf : Nat → Nat
opaque interfaceRegion : Nat → Nat
opaque linkRegion : Nat → Nat

/-- The power region that holds the L2 slice of a 256-byte line, and that of the memory interface behind it. -/
def sliceRegion (line : Nat) : Nat := sliceRegionOf (sliceOf line % slices)
def memRegion (line : Nat) : Nat := interfaceRegion (interfaceOf line % (lastInterface + 1))

/-- Lines that L1's data part (64 bytes), its instruction part and the constant cache hold, and 256-byte lines of L2 with no plaza (R238,
R239, R262). -/
def l1Lines : Nat := 768 * 2 ^ 10 / 64
def icacheLines : Nat := 64 * 2 ^ 10 / 64
def kcacheLines : Nat := 64 * 2 ^ 10 / 64
def l2Lines : Nat := 2 ^ 31 / 256

/-- Which of the lines that a full cache holds makes room, by a count of free values drawn. The spec gives no rule. Log entry 39. -/
opaque victim : Nat → Nat

/-- Whether the host gives a function access to a page that the front end or a record engine asks its translation service for, at a moment
of the run (R301). Log entry 103. -/
opaque atsGives : Nat → Nat → Nat → Bool

end Sys2Proof.Config
end

