-- ==== Sys2Proof/Machine/Kinds.lean ====
section
/-! DEFINITION. What each instruction word names and accepts: its operand positions with the kinds they take (R101, R155,
R159 to R184, R209, R223, R228, R256, R276, R336, R371, R397, R418), the field codes its entry accepts, its class (R113,
R128), its port (R143), and whether it is among the words that a fence holds (R366). -/

namespace Sys2Proof.Machine

/-- The kinds a position accepts (R155). -/
structure Kinds where
  v : Bool
  s : Bool
  x : Bool
  i : Bool
  deriving DecidableEq, Repr

def kVSX : Kinds := ⟨true, true, true, false⟩
def kVSXI : Kinds := ⟨true, true, true, true⟩
def kVS : Kinds := ⟨true, true, false, false⟩
def kVX : Kinds := ⟨true, false, true, false⟩
def kV : Kinds := ⟨true, false, false, false⟩
def kS : Kinds := ⟨false, true, false, false⟩
def kSI : Kinds := ⟨false, true, false, true⟩
def kVSI : Kinds := ⟨true, true, false, true⟩

inductive Role where
  | rd | wr | rw
  deriving DecidableEq, Repr

/-- One operand position of a word: what it does, the kinds it accepts, whether it is a 64-bit pair, how many consecutive
registers it covers, and the specifier written there. -/
structure Opnd where
  role  : Role
  kinds : Kinds
  wide  : Bool
  regs  : Nat
  sp    : Spec
  deriving DecidableEq, Repr

/-- The kind rules of R101 for one position: accepted kind, even register for a pair, and for several registers a multiple
of their number, not indexed (R259, R261). -/
def opndOk (o : Opnd) : Bool :=
  match o.sp with
  | .v n => o.kinds.v && (!o.wide || n.toNat % 2 == 0) && (o.regs == 1 || n.toNat % o.regs == 0)
  | .s n => o.kinds.s && (!o.wide || n.toNat % 2 == 0) && (o.regs == 1 || n.toNat % o.regs == 0)
  | .x _ _ _ => o.kinds.x && o.regs == 1
  | .imm _ => o.kinds.i && o.regs == 1
  | .con _ => o.kinds.i && o.regs == 1

def intWide : IntTy → Bool
  | .i64 | .n64 => true
  | .i32 | .n32 => false

def intSigned : IntTy → Bool
  | .i64 | .i32 => true
  | .n64 | .n32 => false

def fWide : FTy → Bool
  | .f64 => true
  | _ => false

def tyWide : Ty → Bool
  | .i64 | .n64 | .f64 => true
  | _ => false

def fTy : FTy → Ty
  | .f32 => .f32
  | .f64 => .f64
  | .f16 => .f16
  | .bf16 => .bf16
  | .q32 => .q32

def iTy : IntTy → Ty
  | .i32 => .i32
  | .n32 => .n32
  | .i64 => .i64
  | .n64 => .n64

def countOf : Count → Nat
  | .x1 => 1
  | .x2 => 2
  | .x4 => 4

/-- Bytes of an element in memory (R259). -/
def tyBytes : Ty → Nat
  | .i64 | .n64 | .f64 => 8
  | .i32 | .n32 | .f32 | .q32 => 4
  | .i16 | .n16 | .f16 | .bf16 => 2
  | _ => 1

/-- Registers that an access of COUNT elements fills (R259). -/
def regsOf (ty : Ty) (c : Count) : Nat := countOf c * (if tyWide ty then 2 else 1)

/-- Special registers of R398: width 64, and writable. `none`: not listed. -/
def srnInfo (srn : Nat) : Option (Bool × Bool) :=
  match srn with
  | 0x000 | 0x001 | 0x003 | 0x005 | 0x006 | 0x007 | 0x008 | 0x00C | 0x00D => some (false, false)
  | 0x002 | 0x004 | 0x009 | 0x00A | 0x00B => some (true, false)
  | 0x010 => some (false, true)
  | 0x011 => some (false, false)
  | 0x012 => some (true, true)
  | 0x013 => some (true, false)
  | 0x014 => some (false, false)
  | 0x018 | 0x019 => some (true, false)
  | 0x01A => some (false, true)
  | 0x020 => some (true, false)
  | _ => none

def srnWide (srn : BitVec 10) : Bool := match srnInfo srn.toNat with | some (w, _) => w | none => false

/-- Type fields that name whole registers or pairs, for a CVT operand. -/
def rdO (k : Kinds) (w : Bool) (sp : Spec) : Opnd := ⟨.rd, k, w, 1, sp⟩
def wrO (k : Kinds) (w : Bool) (sp : Spec) : Opnd := ⟨.wr, k, w, 1, sp⟩
def rwO (k : Kinds) (w : Bool) (sp : Spec) : Opnd := ⟨.rw, k, w, 1, sp⟩

def guardX : Guard → Bool
  | .f _ _ => false
  | .x _ _ _ _ _ => true

def hdrX (h : Hdr) : Bool := guardX h.guard

/-- Three-operand integer shape. -/
def int3 (w : Bool) (d a b : Spec) : List Opnd := [wrO kVSX w d, rdO kVSXI w a, rdO kVSXI w b]
def int2 (w : Bool) (d a : Spec) : List Opnd := [wrO kVSX w d, rdO kVSXI w a]

/-- The register operands of a word, with the kinds each position accepts. Predicates, index registers, rejoin, tile,
accumulator and convergence registers are typed fields of the constructors instead. -/
def opnds (i : Instr) : List Opnd :=
  match i with
  | .iadd _ ty _ d a b => int3 (intWide ty) d a b
  | .isub _ ty _ d a b => int3 (intWide ty) d a b
  | .imul _ ty _ d a b => int3 (intWide ty) d a b
  | .imulh _ ty d a b => int3 (intWide ty) d a b
  | .imac h ty _ d a b c =>
    if hdrX h then int3 (intWide ty) d a b ++ [rdO kVSXI (intWide ty) c]
    else [rwO kVSX (intWide ty) d, rdO kVSXI (intWide ty) a, rdO kVSXI (intWide ty) b]
  | .imin _ ty d a b => int3 (intWide ty) d a b
  | .imax _ ty d a b => int3 (intWide ty) d a b
  | .iabs _ ty _ d a => int2 (intWide ty) d a
  | .ineg _ ty _ d a => int2 (intWide ty) d a
  | .and _ ty d a b => int3 (intWide ty) d a b
  | .or _ ty d a b => int3 (intWide ty) d a b
  | .xor _ ty d a b => int3 (intWide ty) d a b
  | .andn _ ty d a b => int3 (intWide ty) d a b
  | .not _ ty d a => int2 (intWide ty) d a
  | .shl _ ty d a b => [wrO kVSX (intWide ty) d, rdO kVSXI (intWide ty) a, rdO kVSXI false b]
  | .shr _ ty d a b => [wrO kVSX (intWide ty) d, rdO kVSXI (intWide ty) a, rdO kVSXI false b]
  | .sar _ ty d a b => [wrO kVSX (intWide ty) d, rdO kVSXI (intWide ty) a, rdO kVSXI false b]
  | .bfe _ ty d a b => [wrO kVSX (intWide ty) d, rdO kVSXI (intWide ty) a, rdO kVSXI false b]
  | .bfi _ ty d a b => [rwO kVSX (intWide ty) d, rdO kVSXI (intWide ty) a, rdO kVSXI false b]
  | .popc _ ty d a => [wrO kVSX false d, rdO kVSXI (intWide ty) a]
  | .clz _ ty d a => [wrO kVSX false d, rdO kVSXI (intWide ty) a]
  | .brev _ ty d a => int2 (intWide ty) d a
  | .lea _ _ _ d a b => [wrO kVSX true d, rdO kVSXI true a, rdO kVSXI false b]
  | .icmp _ _ ty _ a b => [rdO kVSXI (intWide ty) a, rdO kVSXI (intWide ty) b]
  | .isel _ ty _ d a b => int3 (intWide ty) d a b
  | .igcd _ ty d a b => int3 (intWide ty) d a b
  | .mov _ ty d a => int2 (intWide ty) d a
  | .movi _ ty d _ => [wrO kVSX (intWide ty) d]
  | .moviHi _ d _ => [rwO kVSX true d]
  | .pand .. => []
  | .por .. => []
  | .pxor .. => []
  | .pnot .. => []
  | .pmov .. => []
  | .xset _ _ a => [rdO kVSXI false a]
  | .xget _ d _ => [wrO kVSX false d]
  | .xstep _ _ a => [rdO kVSXI false a]
  | .xmov .. => []
  | .shfl _ _ ty _ d a b => [wrO kVSX (intWide ty) d, rdO kV (intWide ty) a, rdO kVSXI false b]
  | .bcast _ ty d a => [wrO kVSX (intWide ty) d, rdO kV (intWide ty) a]
  | .vote _ mode d _ =>
    match mode with
    | .ballot => [wrO kVS false d]
    | .any => []
    | .all => []
  | .redx _ _ ty _ d a => [wrO kVSX (tyWide ty) d, rdO kV (tyWide ty) a]
  | .scanx _ _ ty _ d a => [wrO kVX (tyWide ty) d, rdO kV (tyWide ty) a]
  | .lanerd _ ty d a b => [wrO kS (intWide ty) d, rdO kV (intWide ty) a, rdO kSI false b]
  | .bra .. => []
  | .brx _ a => [rdO kVS true a]
  | .call _ d _ => [wrO kV true d]
  | .ret _ a => [rdO kVS true a]
  | .enrol .. => []
  | .rejoin .. => []
  | .loop _ c _ => [rwO kVS false c]
  | .exit _ => []
  | .yield _ => []
  | .nop _ => []
  | .trap .. => []
  | .bkpt .. => []
  | .fadd _ ty _ _ d a b => int3 (fWide ty) d a b
  | .fsub _ ty _ _ d a b => int3 (fWide ty) d a b
  | .fmul _ ty _ _ d a b => int3 (fWide ty) d a b
  | .fmac h ty _ _ d a b c =>
    if hdrX h then int3 (fWide ty) d a b ++ [rdO kVSXI (fWide ty) c]
    else [rwO kVSX (fWide ty) d, rdO kVSXI (fWide ty) a, rdO kVSXI (fWide ty) b]
  | .fmin _ ty d a b => int3 (fWide ty) d a b
  | .fmax _ ty d a b => int3 (fWide ty) d a b
  | .fabs _ ty d a => int2 (fWide ty) d a
  | .fneg _ ty d a => int2 (fWide ty) d a
  | .fcmp _ _ ty _ _ a b => [rdO kVSXI (fWide ty) a, rdO kVSXI (fWide ty) b]
  | .frnd _ ty _ d a => int2 (fWide ty) d a
  | .fclass _ ty d a => [wrO kVS false d, rdO kVSXI (fWide ty) a]
  | .fdiv _ ty _ _ d a b => int3 (fWide ty) d a b
  | .fsqrt _ ty _ d a => int2 (fWide ty) d a
  | .cvt _ dty sty _ _ _ _ d a =>
    [if tyWide dty || dty == .i32 || dty == .n32 || dty == .f32 || dty == .q32 then wrO kVSX (tyWide dty) d else rwO kVSX false d,
     rdO kVSXI (tyWide sty) a]
  | .qmake _ ty _ d a b => [wrO kVSX false d, rdO kVSXI (intWide ty) a, rdO kVSXI (intWide ty) b]
  | .qnum _ w d a => [wrO kVSX w d, rdO kVSXI false a]
  | .qden _ w d a => [wrO kVSX w d, rdO kVSXI false a]
  | .qmed _ _ d a b => [wrO kVSX false d, rdO kVSXI false a, rdO kVSXI false b]
  | .sfq _ _ _ d a sk => [wrO kVX false d, rdO kVSXI false a, wrO kS false sk]
  | .sfw _ m => [rdO kSI false m]
  | .sft _ d m => [wrO kS false d, rdO kSI false m]
  | .ld _ ty _ c d a b _ =>
    [if c == .x1 then wrO kVX (tyWide ty) d else ⟨.wr, kV, false, regsOf ty c, d⟩, rdO kVS true a, rdO kVSXI false b]
  | .st _ ty _ c d a b _ =>
    [if c == .x1 then rdO kVSXI (tyWide ty) d else ⟨.rd, kV, false, regsOf ty c, d⟩, rdO kVS true a, rdO kVSXI false b]
  | .ldk _ ty c d a b _ =>
    [if c == .x1 then wrO kVX (tyWide ty) d else ⟨.wr, kV, false, regsOf ty c, d⟩, rdO kVS true a, rdO kVSXI false b]
  | .ldsc _ ty _ c d a b _ =>
    [if c == .x1 then wrO kS (tyWide ty) d else ⟨.wr, kS, false, regsOf ty c, d⟩, rdO kS true a, rdO kSI false b]
  | .pfx _ _ a b _ => [rdO kVS true a, rdO kVSXI false b]
  | .atom _ _ ty _ d a b _ => [wrO kVX (tyWide ty) d, rdO kVS true a, rdO kVSXI (tyWide ty) b]
  | .atomCas _ ty _ d a b c _ =>
    [wrO kVX (tyWide ty) d, rdO kVS true a, rdO kVSXI (tyWide ty) b, rdO kVSXI (tyWide ty) c]
  | .atoma _ _ ty _ d a b _ => [wrO kVX (tyWide ty) d, rdO kS true a, rdO kVSXI (tyWide ty) b]
  | .red _ _ ty _ a b _ => [rdO kVS true a, rdO kVSXI (tyWide ty) b]
  | .xcopy _ _ d a len tag => [rdO kS true d, rdO kS true a, rdO kSI false len, rdO kSI false tag]
  | .xcopyCrc _ _ d a len tag out _ _ =>
    [rdO kS true d, rdO kS true a, rdO kSI false len, rdO kSI false tag, rdO kSI true out]
  | .xcopyChk _ _ d a len tag ex _ _ =>
    [rdO kS true d, rdO kS true a, rdO kSI false len, rdO kSI false tag, rdO kS false ex]
  | .xwaita _ m => [rdO kSI true m]
  | .xwaitl _ m => [rdO kSI true m]
  | .xfind _ d m => [wrO kS false d, rdO kSI true m]
  | .xform _ d a r bo => [rdO kS true d, rdO kS true a, rdO kS true r, rdO kS true bo]
  | .xformDec _ d a r bo => [rdO kS true d, rdO kS true a, rdO kS true r, rdO kS true bo]
  | .fenceOpnd _ => []
  | .tmap h _ _ _ _ _ base shape stride sptr =>
    [rdO kS true base, rdO kSI false shape] ++ (if hdrX h then [rdO kSI false stride, rdO kSI true sptr] else [])
  | .tmset _ fld _ a =>
    match fld with
    | .base => [rdO kSI true a]
    | .sptr => [rdO kSI true a]
    | .stride => [rdO kSI false a]
    | .shape => [rdO kSI false a]
    | .fmt => [rdO kSI false a]
    | .addb => [rdO kSI false a]
    | .adds => [rdO kSI false a]
  | .accz .. => []
  | .accld _ _ _ org => [rdO kSI false org]
  | .accst _ _ _ _ _ org => [rdO kSI false org]
  | .accrd _ ty _ _ d _ e => [wrO (if tyWide ty then kV else kVX) (tyWide ty) d, rdO kVSI false e]
  | .accwr _ ty _ a e => [rdO kVSXI (tyWide ty) a, rdO kVSI false e]
  | .mmaQuad _ _ _ _ _ org _ => [rdO kSI true org]
  | .mmaWide _ _ _ _ _ _ org _ => [rdO kSI true org]
  | .mmaSquare _ _ _ _ _ _ org _ => [rdO kSI true org]
  | .mmaTall _ _ _ _ _ _ org _ => [rdO kSI true org]
  | .cdecl _ _ grp slices => [rdO kSI false grp, rdO kSI false slices]
  | .job _ card bo => [rdO kS true card, rdO kS true bo]
  | .bar _ n => [rdO kSI false n]
  | .boinit _ bo count => [rdO kS true bo, rdO kSI false count]
  | .boarr _ d bo k => [wrO kS false d, rdO kS true bo, rdO kSI false k]
  | .bowait _ bo g => [rdO kS true bo, rdO kSI false g]
  | .botest _ _ bo g => [rdO kS true bo, rdO kSI false g]
  | .fence .. => []
  | .phrel .. => []
  | .phacq .. => []
  | .phsync .. => []
  | .launch _ a => [rdO kVS true a]
  | .graphrun _ g n => [rdO kSI false g, rdO kSI false n]
  | .ldone _ => []
  | .tollrd _ _ d => [wrO kVS false d]
  | .tollset _ _ a => [rdO kSI false a]
  | .tollrel _ => []
  | .srd _ srn d => [wrO kVS (srnWide srn) d]
  | .swr _ srn a => [rdO kVSI (srnWide srn) a]
  | .cclr _ m => [rdO kSI false m]
  | .tret _ => []
  | .pmark _ a => [rdO kSI false a]
  | .cntrd _ d n => [wrO kVS true d, rdO kSI false n]
  | .smpl _ a => [rdO kSI false a]
  | _ => []

/-- The header of an F or X word. -/
def hdrOf (i : Instr) : Option Hdr :=
  match i with
  | .iadd h .. | .isub h .. | .imul h .. | .imulh h .. | .imac h .. | .imin h .. | .imax h .. | .iabs h .. | .ineg h .. => some h
  | .and h .. | .or h .. | .xor h .. | .andn h .. | .not h .. | .shl h .. | .shr h .. | .sar h .. | .bfe h .. | .bfi h .. => some h
  | .popc h .. | .clz h .. | .brev h .. | .lea h .. | .icmp h .. | .isel h .. | .igcd h .. | .mov h .. | .movi h .. | .moviHi h .. => some h
  | .pand h .. | .por h .. | .pxor h .. | .pnot h .. | .pmov h .. | .xset h .. | .xget h .. | .xstep h .. | .xmov h .. => some h
  | .shfl h .. | .bcast h .. | .vote h .. | .redx h .. | .scanx h .. | .lanerd h .. => some h
  | .bra h .. | .brx h .. | .call h .. | .ret h .. | .enrol h .. | .rejoin h .. | .loop h .. => some h
  | .exit h | .yield h | .nop h => some h
  | .trap h .. | .bkpt h .. => some h
  | .fadd h .. | .fsub h .. | .fmul h .. | .fmac h .. | .fmin h .. | .fmax h .. | .fabs h .. | .fneg h .. | .fcmp h .. => some h
  | .frnd h .. | .fclass h .. | .fdiv h .. | .fsqrt h .. | .cvt h .. | .qmake h .. | .qnum h .. | .qden h .. | .qmed h .. => some h
  | .sfq h .. | .sfw h .. | .sft h .. | .ld h .. | .st h .. | .ldk h .. | .ldsc h .. | .pfx h .. | .atom h .. | .atomCas h .. => some h
  | .atoma h .. | .red h .. | .xcopy h .. | .xcopyCrc h .. | .xcopyChk h .. | .xwaita h .. | .xwaitl h .. | .xfind h .. => some h
  | .xform h .. | .xformDec h .. => some h
  | .fenceOpnd h => some h
  | .tmap h .. | .tmset h .. | .accz h .. | .accld h .. | .accst h .. | .accrd h .. | .accwr h .. => some h
  | .mmaQuad h .. | .mmaWide h .. | .mmaSquare h .. | .mmaTall h .. | .cdecl h .. | .job h .. => some h
  | .bar h .. | .boinit h .. | .boarr h .. | .bowait h .. | .botest h .. | .fence h .. | .phrel h .. | .phacq h .. | .phsync h .. => some h
  | .launch h .. | .graphrun h .. => some h
  | .ldone h => some h
  | .tollrd h .. | .tollset h .. => some h
  | .tollrel h => some h
  | .srd h .. | .swr h .. | .cclr h .. => some h
  | .tret h => some h
  | .pmark h .. | .cntrd h .. | .smpl h .. => some h
  | _ => none

/-- The four directed modes, and with .rm added where a Q32 result is possible (R209). -/
def rndFour : Rnd → Bool
  | .rn | .rz | .rd | .ru => true
  | _ => false

def rndArith (ty : FTy) (r : Rnd) : Bool :=
  rndFour r || (decide (r = .rm) && (decide (ty = .f32) || decide (ty = .q32)))

def isIntTy : Ty → Bool
  | .i32 | .n32 | .i64 | .n64 => true
  | _ => false

def isAtomTy (op : AtomOp) (t : Ty) : Bool :=
  match op with
  | .and | .or | .xor => isIntTy t
  | .add | .min | .max | .xch => isIntTy t || decide (t = .f32) || decide (t = .f64)

/-- Elements of a narrow type in a register (R221). -/
def elemCount : Ty → Nat
  | .i8 | .n8 | .e4m3 | .e5m2 | .t8 => 4
  | .i16 | .n16 | .f16 | .bf16 => 2
  | .t6 => 5
  | _ => 1

/-- COUNT codes that a type allows (R259). -/
def countOk (t : Ty) (c : Count) : Bool :=
  match t with
  | .t6 => false
  | .i32 | .n32 | .f32 | .q32 => true
  | .i64 | .n64 | .f64 => decide (c ≠ .x4)
  | _ => decide (c = .x1)

/-- Words that exist in X form only (R129, R130). -/
def xOnly : Instr → Bool
  | .movi .. | .moviHi .. | .atomCas .. | .xcopy .. | .xcopyCrc .. | .xcopyChk .. | .xform .. | .xformDec .. => true
  | .mmaQuad .. | .mmaWide .. | .mmaSquare .. | .mmaTall .. => true
  | _ => false

/-- The signed offset of a branch fits F form (R178). -/
def ofsOk (h : Hdr) (ofs : BitVec 24) : Bool := hdrX h || decide ((ofs.truncate 22).signExtend 24 = ofs)

def immOk (h : Hdr) (imm : BitVec 24) : Bool := hdrX h || decide (imm = 0)
def cOk (h : Hdr) (c : Spec) : Bool := hdrX h || decide (c = .v 0)

def klenOk (k : BitVec 13) : Bool := decide (1 ≤ k.toNat) && decide (k.toNat ≤ 4096)

/-- Assigned entries of the P-half table (R135). -/
def popOk (p : BitVec 7) : Bool :=
  decide (p.toNat ≤ 0x17) || (decide (0x20 ≤ p.toNat) && decide (p.toNat ≤ 0x26)) || (decide (0x40 ≤ p.toNat) && decide (p.toNat ≤ 0x43))

/-- A half accepts a vector, uniform, immediate or constant A (R103). -/
def halfOk (h : Half) : Bool := popOk h.pop && opndOk (rdO kVSI false h.a)

/-- The field codes that the instruction entries accept, beyond what the constructors' types exclude. -/
def fieldsOk (i : Instr) : Bool :=
  match i with
  | .imac h _ _ _ _ _ c => cOk h c
  | .iabs _ ty _ _ _ => intSigned ty
  | .movi _ _ _ _ => true
  | .vote _ mode d _ =>
    match mode with
    | .ballot => true
    | .any | .all => match d with | .v n => decide (n.toNat < 16) | _ => false
  | .redx _ _ ty rnd _ _ =>
    if isIntTy ty then decide (rnd = .rn) else (decide (ty = .f32) || decide (ty = .f64)) && rndFour rnd
  | .scanx _ _ ty rnd _ _ =>
    if isIntTy ty then decide (rnd = .rn) else (decide (ty = .f32) || decide (ty = .f64)) && rndFour rnd
  | .bra h ofs => ofsOk h ofs
  | .call h _ ofs => ofsOk h ofs
  | .enrol h _ ofs => ofsOk h ofs
  | .loop h _ ofs => ofsOk h ofs
  | .fadd _ ty rnd _ _ _ _ => rndArith ty rnd
  | .fsub _ ty rnd _ _ _ _ => rndArith ty rnd
  | .fmul _ ty rnd _ _ _ _ => rndArith ty rnd
  | .fmac h ty rnd _ _ _ _ c => rndArith ty rnd && cOk h c
  | .fdiv _ ty rnd _ _ _ _ => rndArith ty rnd
  | .frnd _ _ rnd _ _ => rndFour rnd
  | .fsqrt _ _ rnd _ _ => rndFour rnd
  | .cvt _ dty sty rnd _ del sel _ _ =>
    (rndFour rnd || (decide (rnd = .rm) && decide (dty = .q32))) && decide (del.toNat < elemCount dty) && decide (sel.toNat < elemCount sty)
  | .qmake _ _ rnd _ _ _ => decide (rnd ≠ .sr)
  | .qmed _ rnd _ _ _ => decide (rnd ≠ .sr)
  | .sfq _ _ ty _ _ _ => decide (ty = .f32) || decide (ty = .f16) || decide (ty = .bf16)
  | .ld h ty _ c _ _ _ imm => countOk ty c && immOk h imm
  | .st h ty _ c _ _ _ imm => countOk ty c && immOk h imm
  | .ldk h ty c _ _ _ imm => countOk ty c && immOk h imm
  | .ldsc h ty _ c _ _ _ imm => countOk ty c && immOk h imm
  | .pfx h _ _ _ imm => immOk h imm
  | .atom h op ty _ _ _ _ imm => isAtomTy op ty && immOk h imm
  | .atomCas _ ty _ _ _ _ _ _ => isAtomTy .xch ty
  | .atoma h op ty _ _ _ _ imm => isIntTy ty && decide (op ≠ .xch) && immOk h imm
  | .red h op ty _ _ _ imm => isAtomTy op ty && decide (op ≠ .xch) && immOk h imm
  | .xcopyCrc _ _ _ _ _ _ out _ _ =>
    match out with
    | .imm n => decide (n = 0)
    | _ => true
  | .tmap h fmt _ smode _ _ _ _ stride sptr =>
    decide (fmt ≠ .q32) && decide (smode ≠ 3) && cOk h stride && cOk h sptr
  | .accst _ rnd _ _ _ _ => rndFour rnd || decide (rnd = .sr)
  | .accrd _ ty rnd sat _ _ _ =>
    match ty with
    | .f64 | .i64 | .n64 => decide (rnd = .rn) && !sat
    | .f32 => rndFour rnd
    | .i32 | .n32 => decide (rnd = .rn)
    | _ => false
  | .accwr _ ty _ _ _ =>
    match ty with
    | .f64 | .i64 | .n64 | .f32 | .i32 | .n32 => true
    | _ => false
  | .mmaQuad _ _ _ _ _ _ k => klenOk k
  | .mmaWide _ _ _ _ _ _ _ k => klenOk k
  | .mmaSquare _ _ _ _ _ _ _ k => klenOk k
  | .mmaTall _ _ _ _ _ _ _ k => klenOk k
  | .srd _ srn _ => (srnInfo srn.toNat).isSome
  | .swr _ srn _ => match srnInfo srn.toNat with | some (_, w) => w | none => false
  | .pairWord _ h0 h1 => halfOk h0 && halfOk h1
  | _ => true

/-- The header rules: no reserved guard combine (R111), the F form carries none of the X form's hints, X-only words are X. -/
def hdrOk (i : Instr) : Bool :=
  match hdrOf i with
  | none => true
  | some h =>
    match h.guard with
    | .f _ _ => !xOnly i && decide (h.ch = 0) && !h.yld && decide (h.spc = 0)
    | .x _ _ _ _ gc => decide (gc ≠ 3)

/-- Every check that decides whether a word is an instruction (R120): header, field codes, operand kinds. -/
def acceptsInstr (i : Instr) : Bool := hdrOk i && fieldsOk i && (opnds i).all opndOk

/-- Rows that no instruction word encodes. -/
def isEvent (i : Instr) : Bool :=
  (hdrOf i).isNone && (match i with | .hintWord .. => false | .pairWord .. => false | _ => true)

/-- Floating-point instructions act on Q32 (R216). -/
def actsQ32 (rat : Bool) (ty : FTy) : Bool := rat && (decide (ty = .f32) || decide (ty = .q32))

/-- Long class (R113, R127, R128); `rat` is the RAT bit. -/
def isLong (rat : Bool) (i : Instr) : Bool :=
  match i with
  | .igcd .. | .fdiv .. | .fsqrt .. | .qmake .. | .qnum .. | .qden .. | .qmed .. | .sfq .. | .sfw .. | .sft .. => true
  | .fadd _ ty .. | .fsub _ ty .. | .fmul _ ty .. | .fmac _ ty .. => fWide ty || actsQ32 rat ty
  | .fmin _ ty .. | .fmax _ ty .. | .fabs _ ty .. | .fneg _ ty .. | .fclass _ ty .. => fWide ty || actsQ32 rat ty
  | .fcmp _ _ ty .. => fWide ty || actsQ32 rat ty
  | .frnd _ ty .. => fWide ty
  | .cvt _ dty sty .. => decide (dty = .f64) || decide (dty = .q32) || decide (sty = .f64) || decide (sty = .q32)
  | .redx _ _ ty .. => decide (ty = .f64)
  | .scanx _ _ ty .. => decide (ty = .f64)
  | .ld .. | .st .. | .ldk .. | .ldsc .. | .pfx .. | .atom .. | .atomCas .. | .atoma .. | .red .. => true
  | .xcopy .. | .xcopyCrc .. | .xcopyChk .. | .xwaita .. | .xwaitl .. | .xfind .. | .xform .. | .xformDec .. => true
  | .fenceOpnd _ => true
  | .accz .. | .accld .. | .accst .. | .accrd .. | .accwr .. | .mmaQuad .. | .mmaWide .. | .mmaSquare .. | .mmaTall .. => true
  | .cdecl .. | .job .. => true
  | .bar .. | .boinit .. | .boarr .. | .bowait .. | .botest .. | .fence .. | .phrel .. | .phacq .. | .phsync .. => true
  | .launch .. | .graphrun .. | .ldone .. => true
  | _ => false

/-- Words that a FENCE, BAR, release or acquire of the group holds back: memory, engine, matrix, synchronisation and launch
instructions (R366). -/
def isMemClass (i : Instr) : Bool :=
  match i with
  | .ld .. | .st .. | .ldk .. | .ldsc .. | .pfx .. | .atom .. | .atomCas .. | .atoma .. | .red .. => true
  | .xcopy .. | .xcopyCrc .. | .xcopyChk .. | .xwaita .. | .xwaitl .. | .xfind .. | .xform .. | .xformDec .. => true
  | .fenceOpnd _ => true
  | .tmap .. | .tmset .. | .accz .. | .accld .. | .accst .. | .accrd .. | .accwr .. => true
  | .mmaQuad .. | .mmaWide .. | .mmaSquare .. | .mmaTall .. | .cdecl .. | .job .. => true
  | .bar .. | .boinit .. | .boarr .. | .bowait .. | .botest .. | .fence .. | .phrel .. | .phacq .. | .phsync .. => true
  | .launch .. | .graphrun .. | .ldone .. => true
  | _ => false

/-- Words that an operand fence holds back (R286). -/
def isOpndHeld (i : Instr) : Bool :=
  match i with
  | .xcopy .. | .xcopyCrc .. | .xcopyChk .. | .xform .. | .xformDec .. | .job .. | .accld .. => true
  | .mmaQuad .. | .mmaWide .. | .mmaSquare .. | .mmaTall .. => true
  | _ => false

/-- Issue ports, R143. -/
inductive Port where
  | int | flt | rat | xln | mem | mtx | ctl
  deriving DecidableEq, Repr

def popPort (p : BitVec 7) : Port := if p.toNat ≤ 0x17 then .int else .flt

/-- The ports a word uses (R143). -/
def portsOf (ratBit : Bool) (i : Instr) : List Port :=
  match i with
  | .iadd .. | .isub .. | .imul .. | .imulh .. | .imac .. | .imin .. | .imax .. | .iabs .. | .ineg .. => [.int]
  | .and .. | .or .. | .xor .. | .andn .. | .not .. | .shl .. | .shr .. | .sar .. | .bfe .. | .bfi .. => [.int]
  | .popc .. | .clz .. | .brev .. | .lea .. | .icmp .. | .isel .. | .mov .. | .movi .. | .moviHi .. => [.int]
  | .pand .. | .por .. | .pxor .. | .pnot .. | .pmov .. | .xset .. | .xget .. | .xstep .. | .xmov .. => [.int]
  | .igcd .. | .qmake .. | .qnum .. | .qden .. | .qmed .. => [.rat]
  | .fadd _ ty .. | .fsub _ ty .. | .fmul _ ty .. | .fmac _ ty .. => [if actsQ32 ratBit ty then .rat else .flt]
  | .fmin _ ty .. | .fmax _ ty .. | .fabs _ ty .. | .fneg _ ty .. | .fclass _ ty .. => [if actsQ32 ratBit ty then .rat else .flt]
  | .fcmp _ _ ty .. => [if actsQ32 ratBit ty then .rat else .flt]
  | .fdiv _ ty .. => [if actsQ32 ratBit ty then .rat else .flt]
  | .frnd .. | .fsqrt .. => [.flt]
  | .cvt _ dty sty .. => [if decide (dty = .q32) || decide (sty = .q32) then .rat else .flt]
  | .shfl .. | .bcast .. | .vote .. | .redx .. | .scanx .. | .lanerd .. => [.xln]
  | .ld .. | .st .. | .ldk .. | .ldsc .. | .pfx .. | .atom .. | .atomCas .. | .atoma .. | .red .. => [.mem]
  | .xcopy .. | .xcopyCrc .. | .xcopyChk .. | .xwaita .. | .xwaitl .. | .xfind .. | .xform .. | .xformDec .. => [.mem]
  | .fenceOpnd _ => [.mem]
  | .bar .. | .boinit .. | .boarr .. | .bowait .. | .botest .. | .fence .. | .phrel .. | .phacq .. | .phsync .. => [.mem]
  | .launch .. | .graphrun .. | .ldone .. => [.mem]
  | .tmap .. | .tmset .. | .accz .. | .accld .. | .accst .. | .accrd .. | .accwr .. => [.mtx]
  | .mmaQuad .. | .mmaWide .. | .mmaSquare .. | .mmaTall .. | .cdecl .. | .job .. => [.mtx]
  | .pairWord _ h0 h1 => [popPort h0.pop, popPort h1.pop]
  | _ => [.ctl]

/-- Whether a word holds an indexed specifier (R101, R141). -/
def hasIndexed (i : Instr) : Bool := (opnds i).any fun o => match o.sp with | .x .. => true | _ => false

/-- Banks read through vector specifiers (R142), as a set of bank numbers. MOVI with the high bit writes one register of its pair and reads
none (R167). -/
def banksOf (i : Instr) : List Nat :=
  match i with
  | .pairWord _ h0 h1 =>
    [h0.d.toNat % 4, h1.d.toNat % 4] ++ (match h0.a with | .v n => [n.toNat % 4] | _ => [])
      ++ (match h1.a with | .v n => [n.toNat % 4] | _ => [])
  | .moviHi .. => []
  | _ => (opnds i).flatMap fun o =>
    match o.role, o.sp with
    | .wr, _ => []
    | _, .v n => if o.wide then [n.toNat % 4, (n.toNat + 1) % 4] else (List.range o.regs).map fun k => (n.toNat + k) % 4
    | _, _ => []

/-- Index registers that a word steps (R100): those named with the post-step mark by any specifier. -/
def postSteps (i : Instr) : List (BitVec 3) :=
  (opnds i).filterMap fun o => match o.sp with | .x true r _ => some r | _ => none

/-- The index register that a word writes as its destination (R100, R170). -/
def xDest (i : Instr) : Option (BitVec 3) :=
  match i with
  | .xset _ xd _ => some xd
  | .xstep _ xd _ => some xd
  | .xmov _ xd _ => some xd
  | _ => none

/-- Predicates that a word reads besides its guard. -/
def predReads (i : Instr) : List (BitVec 4) :=
  match i with
  | .pand _ _ _ _ pa pb => [pa, pb]
  | .por _ _ _ _ pa pb => [pa, pb]
  | .pxor _ _ _ _ pa pb => [pa, pb]
  | .pnot _ _ pa => [pa]
  | .pmov _ _ pa => [pa]
  | .isel _ _ p _ _ _ => [p]
  | .vote _ _ _ pa => [pa]
  | _ => []

/-- Predicates that the guard reads. -/
def guardReads (g : Guard) : List (BitVec 4) :=
  match g with
  | .f p _ => [p]
  | .x p _ q _ _ => [p, q]

end Sys2Proof.Machine
end

