-- ==== Sys2Proof/WellFormed.lean ====
section
/-! DEFINITION. Which instructions are well-formed: those that a word of an instruction address can hold and that R120 does not
give another fate. Events carry no word and are well-formed as they stand. -/

namespace Sys2Proof

/-- A well-formed instruction (R101, R111, R120): header, field codes and operand kinds are accepted. -/
abbrev wellFormed (i : Instr) : Bool := Sys2Proof.Machine.acceptsInstr i

end Sys2Proof
end

