-- ==== Sys2Proof/Decode.lean ====
section
/-! DEFINITION. The decoder and the encoder of instruction words (R95 to R136), in two stages: the bits of the words are the
fields of `Raw`, and the fields of `Raw` are an instruction. The decoder is total; it rejects by name, and R120 makes every
rejected word the illegal-instruction cause. After it stands the encoder, written from the same layouts. -/

namespace Sys2Proof

/-- Why a word is no instruction (R120). -/
inductive Reject where
  | short           -- fewer bytes than the word needs
  | unassigned      -- opcode not assigned by R127
  | xOnly           -- F word with an X-only opcode, or a field only the X form has
  | variant         -- variant not defined by R130
  | modifier        -- a reserved or unaccepted value of a modifier field
  | kind            -- an operand kind the entry does not accept, or an odd register of a pair
  deriving DecidableEq, Repr

/-- The fields of an F or X word. In F form c, e, xhi and imm are zero. -/
structure Raw where
  h   : Hdr
  op  : BitVec 10
  var : BitVec 2
  d   : Spec
  a   : Spec
  b   : Spec
  c   : Spec
  e   : Spec
  mod : BitVec 12
  xhi : BitVec 8
  imm : BitVec 24
  deriving DecidableEq, Repr

/-- A specifier's ten bits, R97. -/
def specBits : Spec → BitVec 10
  | .v n => 0#2 ++ n
  | .s n => 1#2 ++ n
  | .x p i k => 2#2 ++ (BitVec.ofBool p ++ (i ++ k))
  | .imm n => 3#2 ++ (0#1 ++ n)
  | .con c => 3#2 ++ (1#1 ++ c)

/-- The specifier that ten bits name, R97. -/
def specOf (w : BitVec 10) : Spec :=
  match (w.extractLsb' 8 2).toNat with
  | 0 => .v (w.extractLsb' 0 8)
  | 1 => .s (w.extractLsb' 0 8)
  | 2 => .x (w.getLsbD 7) (w.extractLsb' 4 3) (w.extractLsb' 0 4)
  | _ => if w.getLsbD 7 then .con (w.extractLsb' 0 7) else .imm (w.extractLsb' 0 7)

/-- The common modifier layout, R131. -/
def mkMod (ty : BitVec 5) (rnd : BitVec 3) (sat : Bool) (op : BitVec 3) : BitVec 12 := ty ++ (rnd ++ (BitVec.ofBool sat ++ op))
def modTy (m : BitVec 12) : BitVec 5 := m.extractLsb' 7 5
def modRnd (m : BitVec 12) : BitVec 3 := m.extractLsb' 4 3
def modSat (m : BitVec 12) : Bool := m.getLsbD 3
def modOp (m : BitVec 12) : BitVec 3 := m.extractLsb' 0 3

/-- TYPE codes, R132. -/
def tyCode : Ty → BitVec 5
  | .i32 => 0x00 | .n32 => 0x01 | .i64 => 0x02 | .n64 => 0x03 | .i16 => 0x04 | .n16 => 0x05 | .i8 => 0x06 | .n8 => 0x07
  | .f32 => 0x08 | .f64 => 0x09 | .f16 => 0x0A | .bf16 => 0x0B | .e4m3 => 0x0C | .e5m2 => 0x0D | .t8 => 0x0E | .t6 => 0x0F
  | .q32 => 0x10
def tyOf (c : BitVec 5) : Except Reject Ty :=
  match c.toNat with
  | 0x00 => return .i32 | 0x01 => return .n32 | 0x02 => return .i64 | 0x03 => return .n64
  | 0x04 => return .i16 | 0x05 => return .n16 | 0x06 => return .i8 | 0x07 => return .n8
  | 0x08 => return .f32 | 0x09 => return .f64 | 0x0A => return .f16 | 0x0B => return .bf16
  | 0x0C => return .e4m3 | 0x0D => return .e5m2 | 0x0E => return .t8 | 0x0F => return .t6
  | 0x10 => return .q32
  | _ => throw .modifier
def tyR (r : Raw) : Except Reject Ty := tyOf (modTy r.mod)

def ityCode : IntTy → BitVec 5
  | .i32 => 0x00 | .n32 => 0x01 | .i64 => 0x02 | .n64 => 0x03
def ityR (r : Raw) : Except Reject IntTy :=
  match (modTy r.mod).toNat with
  | 0x00 => return .i32 | 0x01 => return .n32 | 0x02 => return .i64 | 0x03 => return .n64
  | _ => throw .modifier

/-- The floating types of R208 among the TYPE codes. -/
def ftyCode : FTy → BitVec 5
  | .f32 => 0x08 | .f64 => 0x09 | .f16 => 0x0A | .bf16 => 0x0B | .q32 => 0x10
def ftyR (r : Raw) : Except Reject FTy :=
  match (modTy r.mod).toNat with
  | 0x08 => return .f32 | 0x09 => return .f64 | 0x0A => return .f16 | 0x0B => return .bf16 | 0x10 => return .q32
  | _ => throw .modifier

/-- RND, scope and OPSEL codes, R132. -/
def rndCode : Rnd → BitVec 3
  | .rn => 0 | .rz => 1 | .rd => 2 | .ru => 3 | .rm => 4 | .sr => 5
def rndR (r : Raw) : Except Reject Rnd :=
  match (modRnd r.mod).toNat with
  | 0 => return .rn | 1 => return .rz | 2 => return .rd | 3 => return .ru | 4 => return .rm | 5 => return .sr
  | _ => throw .modifier

/-- Memory, fence and phase words hold the scope in MOD[5:4]; MOD[6] is reserved (R131). -/
def scopeCode : Scope → BitVec 2
  | .core => 0 | .nbhd => 1 | .dev => 2 | .sys => 3
def scopeR (r : Raw) : Scope :=
  match (r.mod.extractLsb' 4 2).toNat with
  | 0 => .core | 1 => .nbhd | 2 => .dev | _ => .sys

def cmpCode : Cmp → BitVec 3
  | .eq => 0 | .ne => 1 | .lt => 2 | .le => 3 | .gt => 4 | .ge => 5
def cmpR (r : Raw) : Except Reject Cmp :=
  match (modOp r.mod).toNat with
  | 0 => return .eq | 1 => return .ne | 2 => return .lt | 3 => return .le | 4 => return .gt | 5 => return .ge
  | _ => throw .modifier

def shflCode : ShflMode → BitVec 3
  | .up => 0 | .down => 1 | .xor => 2 | .idx => 3
def shflR (r : Raw) : Except Reject ShflMode :=
  match (modOp r.mod).toNat with
  | 0 => return .up | 1 => return .down | 2 => return .xor | 3 => return .idx
  | _ => throw .modifier

def voteCode : VoteMode → BitVec 3
  | .any => 0 | .all => 1 | .ballot => 2
def voteR (r : Raw) : Except Reject VoteMode :=
  match (modOp r.mod).toNat with
  | 0 => return .any | 1 => return .all | 2 => return .ballot
  | _ => throw .modifier

def redCode : RedOp → BitVec 3
  | .add => 0 | .min => 1 | .max => 2
def redR (r : Raw) : Except Reject RedOp :=
  match (modOp r.mod).toNat with
  | 0 => return .add | 1 => return .min | 2 => return .max
  | _ => throw .modifier

def atomCode : AtomOp → BitVec 3
  | .add => 0 | .min => 1 | .max => 2 | .and => 3 | .or => 4 | .xor => 5 | .xch => 6
def atomR (r : Raw) : Except Reject AtomOp :=
  match (modOp r.mod).toNat with
  | 0 => return .add | 1 => return .min | 2 => return .max | 3 => return .and | 4 => return .or | 5 => return .xor
  | 6 => return .xch
  | _ => throw .modifier

/-- SFQ functions, R228. -/
def sfqCode : SfqFn → BitVec 3
  | .rcp => 0 | .rsq => 1 | .ex2 => 2 | .lg2 => 3 | .sin => 4 | .cos => 5 | .tanh => 6
def sfqR (r : Raw) : Except Reject SfqFn :=
  match (modOp r.mod).toNat with
  | 0 => return .rcp | 1 => return .rsq | 2 => return .ex2 | 3 => return .lg2 | 4 => return .sin | 5 => return .cos
  | 6 => return .tanh
  | _ => throw .modifier

/-- COUNT codes, R259. -/
def countCode : Count → BitVec 3
  | .x1 => 0 | .x2 => 1 | .x4 => 2
def countR (r : Raw) : Except Reject Count :=
  match (modOp r.mod).toNat with
  | 0 => return .x1 | 1 => return .x2 | 2 => return .x4
  | _ => throw .modifier

/-- TMSET fields, R338. -/
def tmCode : TmField → BitVec 3
  | .base => 0 | .stride => 1 | .sptr => 2 | .shape => 3 | .fmt => 4 | .addb => 5 | .adds => 6
def tmR (r : Raw) : Except Reject TmField :=
  match (modOp r.mod).toNat with
  | 0 => return .base | 1 => return .stride | 2 => return .sptr | 3 => return .shape | 4 => return .fmt | 5 => return .addb
  | 6 => return .adds
  | _ => throw .modifier

/-- TOLLRD and TOLLSET selectors, R82, R83, R132. -/
def tollCode : TollSel → BitVec 3
  | .b => 0 | .e => 1 | .l => 2
def tollR (r : Raw) : Except Reject TollSel :=
  match (modOp r.mod).toNat with
  | 0 => return .b | 1 => return .e | 2 => return .l
  | _ => throw .modifier
def absCode : Bool → BitVec 3
  | false => 0 | true => 1
def absR (r : Raw) : Except Reject Bool :=
  match (modOp r.mod).toNat with
  | 0 => return false | 1 => return true
  | _ => throw .modifier

/-- LEA's two types (R162), the MMA types (R344), and a 32-bit or 64-bit code among two (R222). -/
def leaTy (r : Raw) : Except Reject Bool :=
  match (modTy r.mod).toNat with
  | 0 => return true | 1 => return false
  | _ => throw .modifier
def mmaTy (r : Raw) : Except Reject Bool :=
  match (modTy r.mod).toNat with
  | 9 => return true | 2 => return false
  | _ => throw .modifier
def w64R (r : Raw) (narrow wide : Nat) : Except Reject Bool :=
  if (modTy r.mod).toNat = narrow then return false
  else if (modTy r.mod).toNat = wide then return true
  else throw .modifier

/-- Positions of kind P, N, J, T, K (a vector-kind specifier with a small number) and H (accumulator): R155, R336. -/
def pR : Spec → Except Reject (BitVec 4)
  | .v n => if n.extractLsb' 4 4 = 0 then return n.extractLsb' 0 4 else throw .kind
  | _ => throw .kind
def nR : Spec → Except Reject (BitVec 3)
  | .v n => if n.extractLsb' 3 5 = 0 then return n.extractLsb' 0 3 else throw .kind
  | _ => throw .kind
def hR : Spec → Except Reject (BitVec 6)
  | .v n => if n.extractLsb' 6 2 = 0 then return n.extractLsb' 0 6 else throw .kind
  | _ => throw .kind
def pS (p : BitVec 4) : Spec := .v (0#4 ++ p)
def nS (p : BitVec 3) : Spec := .v (0#5 ++ p)
def hS (p : BitVec 6) : Spec := .v (0#2 ++ p)

/-- A field value that the entry does not accept. -/
def ck (b : Bool) : Except Reject Unit := if b then return () else throw .modifier

/-- Every instruction but those of R130 has variant 0 only. -/
def v0 (r : Raw) (k : Except Reject Instr) : Except Reject Instr := if r.var = 0 then k else throw .variant

/-- OFS: bits [25:4] of an F word, sign-extended, or IMM of an X word (R178). -/
def ofsOf (r : Raw) : BitVec 24 := if Machine.hdrX r.h then r.imm else (specBits r.b ++ r.mod : BitVec 22).signExtend 24
def withOfs (ofs : BitVec 24) (r : Raw) : Raw :=
  if Machine.hdrX r.h then ⟨r.h, r.op, r.var, r.d, r.a, .v 0, r.c, r.e, 0, 0, ofs⟩
  else ⟨r.h, r.op, r.var, r.d, r.a, specOf (ofs.extractLsb' 12 10), r.c, r.e, ofs.extractLsb' 0 12, 0, 0⟩

/-- Opcodes 0x000 to 0x03F: R159 to R167. -/
def decodeInt (r : Raw) : Except Reject Instr :=
  match r.op.toNat with
  | 0x000 => v0 r <| do
    ck (modRnd r.mod == 0)
    ck (modOp r.mod == 0)
    return .iadd r.h (← ityR r) (modSat r.mod) r.d r.a r.b
  | 0x001 => v0 r <| do
    ck (modRnd r.mod == 0)
    ck (modOp r.mod == 0)
    return .isub r.h (← ityR r) (modSat r.mod) r.d r.a r.b
  | 0x002 => v0 r <| do
    ck (modRnd r.mod == 0)
    ck (modOp r.mod == 0)
    return .imul r.h (← ityR r) (modSat r.mod) r.d r.a r.b
  | 0x003 => v0 r <| do
    ck (modRnd r.mod == 0)
    ck (modSat r.mod == false)
    ck (modOp r.mod == 0)
    return .imulh r.h (← ityR r) r.d r.a r.b
  | 0x004 => v0 r <| do
    ck (modRnd r.mod == 0)
    ck (modOp r.mod == 0)
    return .imac r.h (← ityR r) (modSat r.mod) r.d r.a r.b r.c
  | 0x005 => v0 r <| do
    ck (modRnd r.mod == 0)
    ck (modSat r.mod == false)
    ck (modOp r.mod == 0)
    return .imin r.h (← ityR r) r.d r.a r.b
  | 0x006 => v0 r <| do
    ck (modRnd r.mod == 0)
    ck (modSat r.mod == false)
    ck (modOp r.mod == 0)
    return .imax r.h (← ityR r) r.d r.a r.b
  | 0x007 => v0 r <| do
    ck (modRnd r.mod == 0)
    ck (modOp r.mod == 0)
    return .iabs r.h (← ityR r) (modSat r.mod) r.d r.a
  | 0x008 => v0 r <| do
    ck (modRnd r.mod == 0)
    ck (modOp r.mod == 0)
    return .ineg r.h (← ityR r) (modSat r.mod) r.d r.a
  | 0x009 => v0 r <| do
    ck (modRnd r.mod == 0)
    ck (modSat r.mod == false)
    ck (modOp r.mod == 0)
    return .and r.h (← ityR r) r.d r.a r.b
  | 0x00A => v0 r <| do
    ck (modRnd r.mod == 0)
    ck (modSat r.mod == false)
    ck (modOp r.mod == 0)
    return .or r.h (← ityR r) r.d r.a r.b
  | 0x00B => v0 r <| do
    ck (modRnd r.mod == 0)
    ck (modSat r.mod == false)
    ck (modOp r.mod == 0)
    return .xor r.h (← ityR r) r.d r.a r.b
  | 0x00C => v0 r <| do
    ck (modRnd r.mod == 0)
    ck (modSat r.mod == false)
    ck (modOp r.mod == 0)
    return .andn r.h (← ityR r) r.d r.a r.b
  | 0x00D => v0 r <| do
    ck (modRnd r.mod == 0)
    ck (modSat r.mod == false)
    ck (modOp r.mod == 0)
    return .not r.h (← ityR r) r.d r.a
  | 0x00E => v0 r <| do
    ck (modRnd r.mod == 0)
    ck (modSat r.mod == false)
    ck (modOp r.mod == 0)
    return .shl r.h (← ityR r) r.d r.a r.b
  | 0x00F => v0 r <| do
    ck (modRnd r.mod == 0)
    ck (modSat r.mod == false)
    ck (modOp r.mod == 0)
    return .shr r.h (← ityR r) r.d r.a r.b
  | 0x010 => v0 r <| do
    ck (modRnd r.mod == 0)
    ck (modSat r.mod == false)
    ck (modOp r.mod == 0)
    return .sar r.h (← ityR r) r.d r.a r.b
  | 0x011 => v0 r <| do
    ck (modRnd r.mod == 0)
    ck (modSat r.mod == false)
    ck (modOp r.mod == 0)
    return .bfe r.h (← ityR r) r.d r.a r.b
  | 0x012 => v0 r <| do
    ck (modRnd r.mod == 0)
    ck (modSat r.mod == false)
    ck (modOp r.mod == 0)
    return .bfi r.h (← ityR r) r.d r.a r.b
  | 0x013 => v0 r <| do
    ck (modRnd r.mod == 0)
    ck (modSat r.mod == false)
    ck (modOp r.mod == 0)
    return .popc r.h (← ityR r) r.d r.a
  | 0x014 => v0 r <| do
    ck (modRnd r.mod == 0)
    ck (modSat r.mod == false)
    ck (modOp r.mod == 0)
    return .clz r.h (← ityR r) r.d r.a
  | 0x015 => v0 r <| do
    ck (modRnd r.mod == 0)
    ck (modSat r.mod == false)
    ck (modOp r.mod == 0)
    return .brev r.h (← ityR r) r.d r.a
  | 0x016 => v0 r <| do
    let sg ← leaTy r
    return .lea r.h sg (modOp r.mod) r.d r.a r.b
  | 0x017 => v0 r <| do
    ck (modRnd r.mod == 0)
    ck (modSat r.mod == false)
    return .icmp r.h (← cmpR r) (← ityR r) (← pR r.d) r.a r.b
  | 0x018 => v0 r <| do
    return .isel r.h (← ityR r) (r.mod.extractLsb' 0 4) r.d r.a r.b
  | 0x019 => v0 r <| do
    ck (modRnd r.mod == 0)
    ck (modSat r.mod == false)
    ck (modOp r.mod == 0)
    return .igcd r.h (← ityR r) r.d r.a r.b
  | 0x01A => v0 r <| do
    ck (modRnd r.mod == 0)
    ck (modSat r.mod == false)
    ck (modOp r.mod == 0)
    return .mov r.h (← ityR r) r.d r.a
  | 0x01B =>
    match r.var.toNat with
    | 0 => do
      ck (modRnd r.mod == 0)
      ck (modSat r.mod == false)
      ck (modOp r.mod == 0)
      return .movi r.h (← ityR r) r.d (r.xhi ++ r.imm)
    | 1 => do
      ck (modRnd r.mod == 0)
      ck (modSat r.mod == false)
      ck (modOp r.mod == 0)
      ck (modTy r.mod == 3)
      return .moviHi r.h r.d (r.xhi ++ r.imm)
    | _ => throw .variant
  | _ => throw .unassigned

/-- Opcodes 0x040 to 0x04F: R168. -/
def decodePred (r : Raw) : Except Reject Instr :=
  match r.op.toNat with
  | 0x040 => v0 r <| do
    return .pand r.h (r.mod.getLsbD 1) (r.mod.getLsbD 0) (← pR r.d) (← pR r.a) (← pR r.b)
  | 0x041 => v0 r <| do
    return .por r.h (r.mod.getLsbD 1) (r.mod.getLsbD 0) (← pR r.d) (← pR r.a) (← pR r.b)
  | 0x042 => v0 r <| do
    return .pxor r.h (r.mod.getLsbD 1) (r.mod.getLsbD 0) (← pR r.d) (← pR r.a) (← pR r.b)
  | 0x043 => v0 r <| do
    return .pnot r.h (← pR r.d) (← pR r.a)
  | 0x044 => v0 r <| do
    return .pmov r.h (← pR r.d) (← pR r.a)
  | _ => throw .unassigned

/-- Opcodes 0x050 to 0x05F: R169. -/
def decodeIndex (r : Raw) : Except Reject Instr :=
  match r.op.toNat with
  | 0x050 => v0 r <| do
    return .xset r.h (← nR r.d) r.a
  | 0x051 => v0 r <| do
    return .xget r.h r.d (← nR r.a)
  | 0x052 => v0 r <| do
    return .xstep r.h (← nR r.d) r.a
  | 0x053 => v0 r <| do
    return .xmov r.h (← nR r.d) (← nR r.a)
  | _ => throw .unassigned

/-- Opcodes 0x060 to 0x07F: R172 to R176. -/
def decodeLane (r : Raw) : Except Reject Instr :=
  match r.op.toNat with
  | 0x060 => v0 r <| do
    ck (modRnd r.mod == 0)
    return .shfl r.h (← shflR r) (← ityR r) (modSat r.mod) r.d r.a r.b
  | 0x061 => v0 r <| do
    ck (modRnd r.mod == 0)
    ck (modSat r.mod == false)
    ck (modOp r.mod == 0)
    return .bcast r.h (← ityR r) r.d r.a
  | 0x062 => v0 r <| do
    ck (modRnd r.mod == 0)
    ck (modSat r.mod == false)
    return .vote r.h (← voteR r) r.d (← pR r.a)
  | 0x063 => v0 r <| do
    ck (modSat r.mod == false)
    return .redx r.h (← redR r) (← tyR r) (← rndR r) r.d r.a
  | 0x064 => v0 r <| do
    ck (modSat r.mod == false)
    return .scanx r.h (← redR r) (← tyR r) (← rndR r) r.d r.a
  | 0x065 => v0 r <| do
    ck (modRnd r.mod == 0)
    ck (modSat r.mod == false)
    ck (modOp r.mod == 0)
    return .lanerd r.h (← ityR r) r.d r.a r.b
  | _ => throw .unassigned

/-- Opcodes 0x080 to 0x0BF: R178 to R185. -/
def decodeControl (r : Raw) : Except Reject Instr :=
  match r.op.toNat with
  | 0x080 => v0 r <| return .bra r.h (ofsOf r)
  | 0x081 => v0 r <| return .brx r.h r.a
  | 0x082 => v0 r <| return .call r.h r.d (ofsOf r)
  | 0x083 => v0 r <| return .ret r.h r.a
  | 0x084 => v0 r <| do
    return .enrol r.h (← nR r.d) (ofsOf r)
  | 0x085 => v0 r <| do
    return .rejoin r.h (← nR r.d)
  | 0x086 => v0 r <| return .loop r.h r.d (ofsOf r)
  | 0x087 => v0 r <| return .exit r.h
  | 0x088 => v0 r <| return .yield r.h
  | 0x089 => v0 r <| return .nop r.h
  | 0x08A => v0 r <| return .trap r.h (r.mod.extractLsb' 0 8)
  | 0x08B => v0 r <| return .bkpt r.h (r.mod.extractLsb' 0 8)
  | _ => throw .unassigned

/-- Opcodes 0x0C0 to 0x0FF: R209 to R214. -/
def decodeFloat (r : Raw) : Except Reject Instr :=
  match r.op.toNat with
  | 0x0C0 => v0 r <| do
    ck (modOp r.mod == 0)
    return .fadd r.h (← ftyR r) (← rndR r) (modSat r.mod) r.d r.a r.b
  | 0x0C1 => v0 r <| do
    ck (modOp r.mod == 0)
    return .fsub r.h (← ftyR r) (← rndR r) (modSat r.mod) r.d r.a r.b
  | 0x0C2 => v0 r <| do
    ck (modOp r.mod == 0)
    return .fmul r.h (← ftyR r) (← rndR r) (modSat r.mod) r.d r.a r.b
  | 0x0C3 => v0 r <| do
    ck (modOp r.mod == 0)
    return .fmac r.h (← ftyR r) (← rndR r) (modSat r.mod) r.d r.a r.b r.c
  | 0x0C4 => v0 r <| do
    ck (modRnd r.mod == 0)
    ck (modSat r.mod == false)
    ck (modOp r.mod == 0)
    return .fmin r.h (← ftyR r) r.d r.a r.b
  | 0x0C5 => v0 r <| do
    ck (modRnd r.mod == 0)
    ck (modSat r.mod == false)
    ck (modOp r.mod == 0)
    return .fmax r.h (← ftyR r) r.d r.a r.b
  | 0x0C6 => v0 r <| do
    ck (modRnd r.mod == 0)
    ck (modSat r.mod == false)
    ck (modOp r.mod == 0)
    return .fabs r.h (← ftyR r) r.d r.a
  | 0x0C7 => v0 r <| do
    ck (modRnd r.mod == 0)
    ck (modSat r.mod == false)
    ck (modOp r.mod == 0)
    return .fneg r.h (← ftyR r) r.d r.a
  | 0x0C8 => v0 r <| do
    ck (modRnd r.mod == 0)
    return .fcmp r.h (← cmpR r) (← ftyR r) (modSat r.mod) (← pR r.d) r.a r.b
  | 0x0C9 => v0 r <| do
    ck (modSat r.mod == false)
    ck (modOp r.mod == 0)
    return .frnd r.h (← ftyR r) (← rndR r) r.d r.a
  | 0x0CA => v0 r <| do
    ck (modRnd r.mod == 0)
    ck (modSat r.mod == false)
    ck (modOp r.mod == 0)
    return .fclass r.h (← ftyR r) r.d r.a
  | 0x0CB => v0 r <| do
    ck (modOp r.mod == 0)
    return .fdiv r.h (← ftyR r) (← rndR r) (modSat r.mod) r.d r.a r.b
  | 0x0CC => v0 r <| do
    ck (modSat r.mod == false)
    ck (modOp r.mod == 0)
    return .fsqrt r.h (← ftyR r) (← rndR r) r.d r.a
  | _ => throw .unassigned

/-- Opcodes 0x100 to 0x13F: R220 to R230. -/
def decodeConv (r : Raw) : Except Reject Instr :=
  match r.op.toNat with
  | 0x100 => v0 r <| do
    let st ← tyOf ((specBits r.b).extractLsb' 0 5)
    return .cvt r.h (← tyR r) st (← rndR r) (modSat r.mod) (modOp r.mod) ((specBits r.b).extractLsb' 5 3) r.d r.a
  | 0x110 => v0 r <| do
    ck (modSat r.mod == false)
    ck (modOp r.mod == 0)
    return .qmake r.h (← ityR r) (← rndR r) r.d r.a r.b
  | 0x111 => v0 r <| do
    ck (modRnd r.mod == 0)
    ck (modSat r.mod == false)
    ck (modOp r.mod == 0)
    let w ← w64R r 0 2
    return .qnum r.h w r.d r.a
  | 0x112 => v0 r <| do
    ck (modRnd r.mod == 0)
    ck (modSat r.mod == false)
    ck (modOp r.mod == 0)
    let w ← w64R r 1 3
    return .qden r.h w r.d r.a
  | 0x113 => v0 r <| do
    ck (modSat r.mod == false)
    ck (modOp r.mod == 0)
    ck (modTy r.mod == 0x10)
    return .qmed r.h (← rndR r) r.d r.a r.b
  | 0x120 => v0 r <| do
    ck (modRnd r.mod == 0)
    ck (modSat r.mod == false)
    return .sfq r.h (← sfqR r) (← ftyR r) r.d r.a r.b
  | 0x121 => v0 r <| return .sfw r.h r.a
  | 0x122 => v0 r <| return .sft r.h r.d r.a
  | _ => throw .unassigned

/-- Opcodes 0x140 to 0x17F: R256 to R271. -/
def decodeMem (r : Raw) : Except Reject Instr :=
  match r.op.toNat with
  | 0x140 => v0 r <| do
    ck (modSat r.mod == false)
    return .ld r.h (← tyR r) (scopeR r) (← countR r) r.d r.a r.b r.imm
  | 0x141 => v0 r <| do
    ck (modSat r.mod == false)
    return .st r.h (← tyR r) (scopeR r) (← countR r) r.d r.a r.b r.imm
  | 0x142 => v0 r <| do
    ck (modSat r.mod == false)
    ck (scopeR r == .core)
    return .ldk r.h (← tyR r) (← countR r) r.d r.a r.b r.imm
  | 0x143 => v0 r <| do
    ck (modSat r.mod == false)
    return .ldsc r.h (← tyR r) (scopeR r) (← countR r) r.d r.a r.b r.imm
  | 0x144 => v0 r <| do
    ck (modSat r.mod == false)
    ck (modOp r.mod == 0)
    return .pfx r.h (scopeR r) r.a r.b r.imm
  | 0x145 =>
    match r.var.toNat with
    | 0 => do
      ck (modSat r.mod == false)
      return .atom r.h (← atomR r) (← tyR r) (scopeR r) r.d r.a r.b r.imm
    | 1 => do
      ck (modSat r.mod == false)
      ck (modOp r.mod == 0)
      return .atomCas r.h (← tyR r) (scopeR r) r.d r.a r.b r.c r.imm
    | _ => throw .variant
  | 0x146 => v0 r <| do
    ck (modSat r.mod == false)
    return .atoma r.h (← atomR r) (← tyR r) (scopeR r) r.d r.a r.b r.imm
  | 0x147 => v0 r <| do
    ck (modSat r.mod == false)
    return .red r.h (← atomR r) (← tyR r) (scopeR r) r.a r.b r.imm
  | _ => throw .unassigned

/-- Opcodes 0x180 to 0x1BF: R276 to R286. -/
def decodeEngine (r : Raw) : Except Reject Instr :=
  match r.op.toNat with
  | 0x180 =>
    match r.var.toNat with
    | 0 => return .xcopy r.h (modOp r.mod) r.d r.a r.b r.c
    | 1 => return .xcopyCrc r.h (modOp r.mod) r.d r.a r.b r.c r.e (r.xhi.getLsbD 7) (r.xhi.extractLsb' 0 6)
    | 2 => return .xcopyChk r.h (modOp r.mod) r.d r.a r.b r.c r.e (r.xhi.getLsbD 7) (r.xhi.extractLsb' 0 6)
    | _ => throw .variant
  | 0x181 => v0 r <| return .xwaita r.h r.a
  | 0x182 => v0 r <| return .xwaitl r.h r.a
  | 0x183 => v0 r <| return .xfind r.h r.d r.a
  | 0x184 =>
    match r.var.toNat with
    | 0 => return .xform r.h r.d r.a r.b r.c
    | 1 => return .xformDec r.h r.d r.a r.b r.c
    | _ => throw .variant
  | 0x185 => v0 r <| return .fenceOpnd r.h
  | _ => throw .unassigned

/-- Opcodes 0x1C0 to 0x1FF: R336 to R350. -/
def decodeMatrix (r : Raw) : Except Reject Instr :=
  match r.op.toNat with
  | 0x1C0 => v0 r <| do
    return .tmap r.h (← tyR r) (modRnd r.mod) (r.mod.extractLsb' 2 2) (r.mod.extractLsb' 0 2) (← pR r.d) r.a r.b r.c r.e
  | 0x1C1 => v0 r <| do
    return .tmset r.h (← tmR r) (← pR r.d) r.a
  | 0x1C2 => v0 r <| do
    return .accz r.h (← hR r.d)
  | 0x1C3 => v0 r <| do
    return .accld r.h (← hR r.d) (← pR r.a) r.b
  | 0x1C4 => v0 r <| do
    return .accst r.h (← rndR r) (modSat r.mod) (← pR r.d) (← hR r.a) r.b
  | 0x1C5 => v0 r <| do
    return .accrd r.h (← tyR r) (← rndR r) (modSat r.mod) r.d (← hR r.a) r.b
  | 0x1C6 => v0 r <| do
    ck (modRnd r.mod == 0)
    ck (modSat r.mod == false)
    return .accwr r.h (← tyR r) (← hR r.d) r.a r.b
  | 0x1C7 =>
    match r.var.toNat with
    | 0 => do
      ck (modRnd r.mod == 0)
      let f ← mmaTy r
      return .mmaQuad r.h f (← hR r.d) (← pR r.a) (← pR r.b) r.e (r.imm.extractLsb' 0 13)
    | 1 => do
      ck (modRnd r.mod == 0)
      let f ← mmaTy r
      return .mmaWide r.h f (← hR r.d) (← pR r.a) (← pR r.b) (← nR r.c) r.e (r.imm.extractLsb' 0 13)
    | 2 => do
      ck (modRnd r.mod == 0)
      let f ← mmaTy r
      return .mmaSquare r.h f (← hR r.d) (← pR r.a) (← pR r.b) (← nR r.c) r.e (r.imm.extractLsb' 0 13)
    | 3 => do
      ck (modRnd r.mod == 0)
      let f ← mmaTy r
      return .mmaTall r.h f (← hR r.d) (← pR r.a) (← pR r.b) (← nR r.c) r.e (r.imm.extractLsb' 0 13)
    | _ => throw .variant
  | 0x1C8 => v0 r <| do
    return .cdecl r.h (← nR r.d) r.a r.b
  | 0x1C9 => v0 r <| return .job r.h r.a r.b
  | _ => throw .unassigned

/-- Opcodes 0x200 to 0x2EF: R371 to R384. -/
def decodeSync (r : Raw) : Except Reject Instr :=
  match r.op.toNat with
  | 0x200 => v0 r <| return .bar r.h r.a
  | 0x201 => v0 r <| return .boinit r.h r.a r.b
  | 0x202 => v0 r <| return .boarr r.h r.d r.a r.b
  | 0x203 => v0 r <| return .bowait r.h r.a r.b
  | 0x204 => v0 r <| do
    return .botest r.h (← pR r.d) r.a r.b
  | 0x205 => v0 r <| return .fence r.h (scopeR r)
  | 0x206 => v0 r <| return .phrel r.h (scopeR r)
  | 0x207 => v0 r <| return .phacq r.h (scopeR r)
  | 0x208 => v0 r <| return .phsync r.h (scopeR r)
  | 0x240 => v0 r <| return .launch r.h r.a
  | 0x241 => v0 r <| return .graphrun r.h r.a r.b
  | 0x242 => v0 r <| return .ldone r.h
  | _ => throw .unassigned

/-- Opcodes 0x2F0 to 0x2FF: R81 to R83. -/
def decodeToll (r : Raw) : Except Reject Instr :=
  match r.op.toNat with
  | 0x2F0 => v0 r <| do
    return .tollrd r.h (← tollR r) r.d
  | 0x2F1 => v0 r <| do
    return .tollset r.h (← absR r) r.a
  | 0x2F2 => v0 r <| return .tollrel r.h
  | _ => throw .unassigned

/-- Opcodes 0x300 to 0x3BF: R397 to R400, R418. -/
def decodeSystem (r : Raw) : Except Reject Instr :=
  match r.op.toNat with
  | 0x300 => v0 r <| return .srd r.h (r.mod.extractLsb' 0 10) r.d
  | 0x301 => v0 r <| return .swr r.h (r.mod.extractLsb' 0 10) r.a
  | 0x302 => v0 r <| return .cclr r.h r.a
  | 0x303 => v0 r <| return .tret r.h
  | 0x304 => v0 r <| return .pmark r.h r.a
  | 0x305 => v0 r <| return .cntrd r.h r.d r.a
  | 0x306 => v0 r <| return .smpl r.h r.a
  | _ => throw .unassigned

/-- The instruction that the fields of an F or X word name, by opcode (R127, R129). -/
def decodeRaw (r : Raw) : Except Reject Instr :=
  if r.op.toNat < 0x40 then decodeInt r
  else if r.op.toNat < 0x50 then decodePred r
  else if r.op.toNat < 0x60 then decodeIndex r
  else if r.op.toNat < 0x80 then decodeLane r
  else if r.op.toNat < 0xC0 then decodeControl r
  else if r.op.toNat < 0x100 then decodeFloat r
  else if r.op.toNat < 0x140 then decodeConv r
  else if r.op.toNat < 0x180 then decodeMem r
  else if r.op.toNat < 0x1C0 then decodeEngine r
  else if r.op.toNat < 0x200 then decodeMatrix r
  else if r.op.toNat < 0x2F0 then decodeSync r
  else if r.op.toNat < 0x300 then decodeToll r
  else if r.op.toNat < 0x3C0 then decodeSystem r
  else throw .unassigned

/-- The fields of an F word, R102. -/
def rawF (w : DWord) : Raw :=
  ⟨⟨w.getLsbD 63, .f (w.extractLsb' 47 4) (w.getLsbD 46), 0, false, 0⟩, w.extractLsb' 51 10, 0, specOf (w.extractLsb' 36 10),
    specOf (w.extractLsb' 26 10), specOf (w.extractLsb' 16 10), .v 0, .v 0, w.extractLsb' 4 12, 0, 0⟩

/-- The fields of an X instruction's two words, R106, R107. -/
def rawX (w0 w1 : DWord) : Raw :=
  ⟨⟨w0.getLsbD 63, .x (w0.extractLsb' 45 4) (w0.getLsbD 44) (w0.extractLsb' 40 4) (w0.getLsbD 39) (w0.extractLsb' 37 2),
      w0.extractLsb' 3 4, w0.getLsbD 2, w0.extractLsb' 0 2⟩,
    w0.extractLsb' 51 10, w0.extractLsb' 49 2, specOf (w0.extractLsb' 27 10), specOf (w0.extractLsb' 17 10),
    specOf (w0.extractLsb' 7 10), specOf (w1.extractLsb' 0 10), specOf (w1.extractLsb' 10 10), w1.extractLsb' 20 12,
    w1.extractLsb' 32 8, w1.extractLsb' 40 24⟩

/-- One half of a P word, R103. -/
def halfOf (h : BitVec 30) : Half :=
  ⟨h.extractLsb' 23 7, h.extractLsb' 20 3, h.extractLsb' 12 8, specOf (h.extractLsb' 2 10)⟩

/-- Class of a word, R95; an X instruction is two words long. -/
def wordClass (w : DWord) : Nat := (w.extractLsb' 61 2).toNat
def wordLen (w : DWord) : Nat := if wordClass w = 2 then 16 else 8

/-- An instruction is accepted only when the X-only rule, the field codes and the operand kinds hold (R120). -/
def accept (i : Instr) : Except Reject Instr :=
  if Machine.hdrOk i then
    if Machine.fieldsOk i then
      if (Machine.opnds i).all Machine.opndOk then return i else throw .kind
    else throw .modifier
  else throw .xOnly

/-- The instruction at an address whose first two words are w0 and w1 (w1 counts for an X instruction only): R95, R96, R120. -/
def decodeWords (w0 w1 : DWord) : Except Reject Instr :=
  match wordClass w0 with
  | 0 =>
    if 0x3C0 ≤ (rawF w0).op.toNat then return .hintWord (w0.getLsbD 63) false
    else do accept (← decodeRaw (rawF w0))
  | 1 => accept (.pairWord (w0.getLsbD 63) (halfOf (w0.extractLsb' 30 30)) (halfOf (w0.extractLsb' 0 30)))
  | 2 =>
    if 0x3C0 ≤ (rawX w0 w1).op.toNat then return .hintWord (w0.getLsbD 63) true
    else do accept (← decodeRaw (rawX w0 w1))
  | _ => return .hintWord (w0.getLsbD 63) false

/-- A 64-bit word from its eight bytes, the first the least significant (R1). -/
def wordOfBytes (bs : List Byte) : DWord := BitVec.ofNat 64 (Machine.leNat (bs.take 8))

/-- Decoding bytes: the instruction at their start and the rest, or the reason that there is none. -/
def decode (bs : List Byte) : Except Reject (Instr × List Byte) :=
  if bs.length < 8 then throw .short
  else if wordLen (wordOfBytes bs) = 16 && bs.length < 16 then throw .short
  else do
    let i ← decodeWords (wordOfBytes bs) (wordOfBytes (bs.drop 8))
    return (i, bs.drop (wordLen (wordOfBytes bs)))

/-- The host's question: the instruction of a table row's bits, bit 0 the least significant bit of the first word. The bits are
laid out as the 16 bytes of two little-endian words. -/
def decodeTableWord (nbits w : Nat) : Option Instr :=
  match decode (Machine.leBytes 16 (w % 2 ^ nbits)) with
  | .ok (i, _) => some i
  | .error _ => none

/-- The raw fields of an instruction, every unused field zero (R110). Nothing for a hint word, a pair word or an event. -/
def toRaw (i : Instr) : Option Raw :=
  match i with
  | .iadd h ty sat d a b => some ⟨h, 0x000, 0, d, a, b, .v 0, .v 0, mkMod (ityCode ty) 0 sat 0, 0, 0⟩
  | .isub h ty sat d a b => some ⟨h, 0x001, 0, d, a, b, .v 0, .v 0, mkMod (ityCode ty) 0 sat 0, 0, 0⟩
  | .imul h ty sat d a b => some ⟨h, 0x002, 0, d, a, b, .v 0, .v 0, mkMod (ityCode ty) 0 sat 0, 0, 0⟩
  | .imulh h ty d a b => some ⟨h, 0x003, 0, d, a, b, .v 0, .v 0, mkMod (ityCode ty) 0 false 0, 0, 0⟩
  | .imac h ty sat d a b c => some ⟨h, 0x004, 0, d, a, b, c, .v 0, mkMod (ityCode ty) 0 sat 0, 0, 0⟩
  | .imin h ty d a b => some ⟨h, 0x005, 0, d, a, b, .v 0, .v 0, mkMod (ityCode ty) 0 false 0, 0, 0⟩
  | .imax h ty d a b => some ⟨h, 0x006, 0, d, a, b, .v 0, .v 0, mkMod (ityCode ty) 0 false 0, 0, 0⟩
  | .iabs h ty sat d a => some ⟨h, 0x007, 0, d, a, .v 0, .v 0, .v 0, mkMod (ityCode ty) 0 sat 0, 0, 0⟩
  | .ineg h ty sat d a => some ⟨h, 0x008, 0, d, a, .v 0, .v 0, .v 0, mkMod (ityCode ty) 0 sat 0, 0, 0⟩
  | .and h ty d a b => some ⟨h, 0x009, 0, d, a, b, .v 0, .v 0, mkMod (ityCode ty) 0 false 0, 0, 0⟩
  | .or h ty d a b => some ⟨h, 0x00A, 0, d, a, b, .v 0, .v 0, mkMod (ityCode ty) 0 false 0, 0, 0⟩
  | .xor h ty d a b => some ⟨h, 0x00B, 0, d, a, b, .v 0, .v 0, mkMod (ityCode ty) 0 false 0, 0, 0⟩
  | .andn h ty d a b => some ⟨h, 0x00C, 0, d, a, b, .v 0, .v 0, mkMod (ityCode ty) 0 false 0, 0, 0⟩
  | .not h ty d a => some ⟨h, 0x00D, 0, d, a, .v 0, .v 0, .v 0, mkMod (ityCode ty) 0 false 0, 0, 0⟩
  | .shl h ty d a b => some ⟨h, 0x00E, 0, d, a, b, .v 0, .v 0, mkMod (ityCode ty) 0 false 0, 0, 0⟩
  | .shr h ty d a b => some ⟨h, 0x00F, 0, d, a, b, .v 0, .v 0, mkMod (ityCode ty) 0 false 0, 0, 0⟩
  | .sar h ty d a b => some ⟨h, 0x010, 0, d, a, b, .v 0, .v 0, mkMod (ityCode ty) 0 false 0, 0, 0⟩
  | .bfe h ty d a b => some ⟨h, 0x011, 0, d, a, b, .v 0, .v 0, mkMod (ityCode ty) 0 false 0, 0, 0⟩
  | .bfi h ty d a b => some ⟨h, 0x012, 0, d, a, b, .v 0, .v 0, mkMod (ityCode ty) 0 false 0, 0, 0⟩
  | .popc h ty d a => some ⟨h, 0x013, 0, d, a, .v 0, .v 0, .v 0, mkMod (ityCode ty) 0 false 0, 0, 0⟩
  | .clz h ty d a => some ⟨h, 0x014, 0, d, a, .v 0, .v 0, .v 0, mkMod (ityCode ty) 0 false 0, 0, 0⟩
  | .brev h ty d a => some ⟨h, 0x015, 0, d, a, .v 0, .v 0, .v 0, mkMod (ityCode ty) 0 false 0, 0, 0⟩
  | .lea h sg sh d a b => some ⟨h, 0x016, 0, d, a, b, .v 0, .v 0, mkMod (if sg then 0 else 1) 0 false sh, 0, 0⟩
  | .icmp h cmp ty pd a b => some ⟨h, 0x017, 0, pS pd, a, b, .v 0, .v 0, mkMod (ityCode ty) 0 false (cmpCode cmp), 0, 0⟩
  | .isel h ty p d a b => some ⟨h, 0x018, 0, d, a, b, .v 0, .v 0, (ityCode ty ++ (0#3 ++ p) : BitVec 12), 0, 0⟩
  | .igcd h ty d a b => some ⟨h, 0x019, 0, d, a, b, .v 0, .v 0, mkMod (ityCode ty) 0 false 0, 0, 0⟩
  | .mov h ty d a => some ⟨h, 0x01A, 0, d, a, .v 0, .v 0, .v 0, mkMod (ityCode ty) 0 false 0, 0, 0⟩
  | .movi h ty d val => some ⟨h, 0x01B, 0, d, .v 0, .v 0, .v 0, .v 0, mkMod (ityCode ty) 0 false 0, val.extractLsb' 24 8, val.extractLsb' 0 24⟩
  | .moviHi h d val => some ⟨h, 0x01B, 1, d, .v 0, .v 0, .v 0, .v 0, mkMod 3 0 false 0, val.extractLsb' 24 8, val.extractLsb' 0 24⟩
  | .pand h na nb pd pa pb => some ⟨h, 0x040, 0, pS pd, pS pa, pS pb, .v 0, .v 0, (0#10 ++ (BitVec.ofBool na ++ BitVec.ofBool nb) : BitVec 12), 0, 0⟩
  | .por h na nb pd pa pb => some ⟨h, 0x041, 0, pS pd, pS pa, pS pb, .v 0, .v 0, (0#10 ++ (BitVec.ofBool na ++ BitVec.ofBool nb) : BitVec 12), 0, 0⟩
  | .pxor h na nb pd pa pb => some ⟨h, 0x042, 0, pS pd, pS pa, pS pb, .v 0, .v 0, (0#10 ++ (BitVec.ofBool na ++ BitVec.ofBool nb) : BitVec 12), 0, 0⟩
  | .pnot h pd pa => some ⟨h, 0x043, 0, pS pd, pS pa, .v 0, .v 0, .v 0, 0, 0, 0⟩
  | .pmov h pd pa => some ⟨h, 0x044, 0, pS pd, pS pa, .v 0, .v 0, .v 0, 0, 0, 0⟩
  | .xset h xd a => some ⟨h, 0x050, 0, nS xd, a, .v 0, .v 0, .v 0, 0, 0, 0⟩
  | .xget h d xa => some ⟨h, 0x051, 0, d, nS xa, .v 0, .v 0, .v 0, 0, 0, 0⟩
  | .xstep h xd a => some ⟨h, 0x052, 0, nS xd, a, .v 0, .v 0, .v 0, 0, 0, 0⟩
  | .xmov h xd xa => some ⟨h, 0x053, 0, nS xd, nS xa, .v 0, .v 0, .v 0, 0, 0, 0⟩
  | .shfl h mode ty wrel d a b => some ⟨h, 0x060, 0, d, a, b, .v 0, .v 0, mkMod (ityCode ty) 0 wrel (shflCode mode), 0, 0⟩
  | .bcast h ty d a => some ⟨h, 0x061, 0, d, a, .v 0, .v 0, .v 0, mkMod (ityCode ty) 0 false 0, 0, 0⟩
  | .vote h mode d pa => some ⟨h, 0x062, 0, d, pS pa, .v 0, .v 0, .v 0, mkMod 0 0 false (voteCode mode), 0, 0⟩
  | .redx h op ty rnd d a => some ⟨h, 0x063, 0, d, a, .v 0, .v 0, .v 0, mkMod (tyCode ty) (rndCode rnd) false (redCode op), 0, 0⟩
  | .scanx h op ty rnd d a => some ⟨h, 0x064, 0, d, a, .v 0, .v 0, .v 0, mkMod (tyCode ty) (rndCode rnd) false (redCode op), 0, 0⟩
  | .lanerd h ty d a b => some ⟨h, 0x065, 0, d, a, b, .v 0, .v 0, mkMod (ityCode ty) 0 false 0, 0, 0⟩
  | .bra h ofs => some (withOfs ofs ⟨h, 0x080, 0, .v 0, .v 0, .v 0, .v 0, .v 0, 0, 0, 0⟩)
  | .brx h a => some ⟨h, 0x081, 0, .v 0, a, .v 0, .v 0, .v 0, 0, 0, 0⟩
  | .call h d ofs => some (withOfs ofs ⟨h, 0x082, 0, d, .v 0, .v 0, .v 0, .v 0, 0, 0, 0⟩)
  | .ret h a => some ⟨h, 0x083, 0, .v 0, a, .v 0, .v 0, .v 0, 0, 0, 0⟩
  | .enrol h j ofs => some (withOfs ofs ⟨h, 0x084, 0, nS j, .v 0, .v 0, .v 0, .v 0, 0, 0, 0⟩)
  | .rejoin h j => some ⟨h, 0x085, 0, nS j, .v 0, .v 0, .v 0, .v 0, 0, 0, 0⟩
  | .loop h c ofs => some (withOfs ofs ⟨h, 0x086, 0, c, .v 0, .v 0, .v 0, .v 0, 0, 0, 0⟩)
  | .exit h => some ⟨h, 0x087, 0, .v 0, .v 0, .v 0, .v 0, .v 0, 0, 0, 0⟩
  | .yield h => some ⟨h, 0x088, 0, .v 0, .v 0, .v 0, .v 0, .v 0, 0, 0, 0⟩
  | .nop h => some ⟨h, 0x089, 0, .v 0, .v 0, .v 0, .v 0, .v 0, 0, 0, 0⟩
  | .trap h code => some ⟨h, 0x08A, 0, .v 0, .v 0, .v 0, .v 0, .v 0, (0#4 ++ code : BitVec 12), 0, 0⟩
  | .bkpt h code => some ⟨h, 0x08B, 0, .v 0, .v 0, .v 0, .v 0, .v 0, (0#4 ++ code : BitVec 12), 0, 0⟩
  | .fadd h ty rnd sat d a b => some ⟨h, 0x0C0, 0, d, a, b, .v 0, .v 0, mkMod (ftyCode ty) (rndCode rnd) sat 0, 0, 0⟩
  | .fsub h ty rnd sat d a b => some ⟨h, 0x0C1, 0, d, a, b, .v 0, .v 0, mkMod (ftyCode ty) (rndCode rnd) sat 0, 0, 0⟩
  | .fmul h ty rnd sat d a b => some ⟨h, 0x0C2, 0, d, a, b, .v 0, .v 0, mkMod (ftyCode ty) (rndCode rnd) sat 0, 0, 0⟩
  | .fdiv h ty rnd sat d a b => some ⟨h, 0x0CB, 0, d, a, b, .v 0, .v 0, mkMod (ftyCode ty) (rndCode rnd) sat 0, 0, 0⟩
  | .fmac h ty rnd sat d a b c => some ⟨h, 0x0C3, 0, d, a, b, c, .v 0, mkMod (ftyCode ty) (rndCode rnd) sat 0, 0, 0⟩
  | .fmin h ty d a b => some ⟨h, 0x0C4, 0, d, a, b, .v 0, .v 0, mkMod (ftyCode ty) 0 false 0, 0, 0⟩
  | .fmax h ty d a b => some ⟨h, 0x0C5, 0, d, a, b, .v 0, .v 0, mkMod (ftyCode ty) 0 false 0, 0, 0⟩
  | .fabs h ty d a => some ⟨h, 0x0C6, 0, d, a, .v 0, .v 0, .v 0, mkMod (ftyCode ty) 0 false 0, 0, 0⟩
  | .fneg h ty d a => some ⟨h, 0x0C7, 0, d, a, .v 0, .v 0, .v 0, mkMod (ftyCode ty) 0 false 0, 0, 0⟩
  | .fclass h ty d a => some ⟨h, 0x0CA, 0, d, a, .v 0, .v 0, .v 0, mkMod (ftyCode ty) 0 false 0, 0, 0⟩
  | .fcmp h cmp ty un pd a b => some ⟨h, 0x0C8, 0, pS pd, a, b, .v 0, .v 0, mkMod (ftyCode ty) 0 un (cmpCode cmp), 0, 0⟩
  | .frnd h ty rnd d a => some ⟨h, 0x0C9, 0, d, a, .v 0, .v 0, .v 0, mkMod (ftyCode ty) (rndCode rnd) false 0, 0, 0⟩
  | .fsqrt h ty rnd d a => some ⟨h, 0x0CC, 0, d, a, .v 0, .v 0, .v 0, mkMod (ftyCode ty) (rndCode rnd) false 0, 0, 0⟩
  | .cvt h dty sty rnd sat del sel d a => some ⟨h, 0x100, 0, d, a, .v (sel ++ tyCode sty), .v 0, .v 0, mkMod (tyCode dty) (rndCode rnd) sat del, 0, 0⟩
  | .qmake h ty rnd d a b => some ⟨h, 0x110, 0, d, a, b, .v 0, .v 0, mkMod (ityCode ty) (rndCode rnd) false 0, 0, 0⟩
  | .qnum h w d a => some ⟨h, 0x111, 0, d, a, .v 0, .v 0, .v 0, mkMod (if w then 2 else 0) 0 false 0, 0, 0⟩
  | .qden h w d a => some ⟨h, 0x112, 0, d, a, .v 0, .v 0, .v 0, mkMod (if w then 3 else 1) 0 false 0, 0, 0⟩
  | .qmed h rnd d a b => some ⟨h, 0x113, 0, d, a, b, .v 0, .v 0, mkMod 0x10 (rndCode rnd) false 0, 0, 0⟩
  | .sfq h fn ty d a sk => some ⟨h, 0x120, 0, d, a, sk, .v 0, .v 0, mkMod (ftyCode ty) 0 false (sfqCode fn), 0, 0⟩
  | .sfw h m => some ⟨h, 0x121, 0, .v 0, m, .v 0, .v 0, .v 0, 0, 0, 0⟩
  | .sft h d m => some ⟨h, 0x122, 0, d, m, .v 0, .v 0, .v 0, 0, 0, 0⟩
  | .ld h ty sc c d a b imm => some ⟨h, 0x140, 0, d, a, b, .v 0, .v 0, mkMod (tyCode ty) (0#1 ++ scopeCode sc) false (countCode c), 0, imm⟩
  | .st h ty sc c d a b imm => some ⟨h, 0x141, 0, d, a, b, .v 0, .v 0, mkMod (tyCode ty) (0#1 ++ scopeCode sc) false (countCode c), 0, imm⟩
  | .ldsc h ty sc c d a b imm => some ⟨h, 0x143, 0, d, a, b, .v 0, .v 0, mkMod (tyCode ty) (0#1 ++ scopeCode sc) false (countCode c), 0, imm⟩
  | .ldk h ty c d a b imm => some ⟨h, 0x142, 0, d, a, b, .v 0, .v 0, mkMod (tyCode ty) 0 false (countCode c), 0, imm⟩
  | .pfx h sc a b imm => some ⟨h, 0x144, 0, .v 0, a, b, .v 0, .v 0, mkMod 0 (0#1 ++ scopeCode sc) false 0, 0, imm⟩
  | .atom h op ty sc d a b imm => some ⟨h, 0x145, 0, d, a, b, .v 0, .v 0, mkMod (tyCode ty) (0#1 ++ scopeCode sc) false (atomCode op), 0, imm⟩
  | .atomCas h ty sc d a b c imm => some ⟨h, 0x145, 1, d, a, b, c, .v 0, mkMod (tyCode ty) (0#1 ++ scopeCode sc) false 0, 0, imm⟩
  | .atoma h op ty sc d a b imm => some ⟨h, 0x146, 0, d, a, b, .v 0, .v 0, mkMod (tyCode ty) (0#1 ++ scopeCode sc) false (atomCode op), 0, imm⟩
  | .red h op ty sc a b imm => some ⟨h, 0x147, 0, .v 0, a, b, .v 0, .v 0, mkMod (tyCode ty) (0#1 ++ scopeCode sc) false (atomCode op), 0, imm⟩
  | .xcopy h lay d a len tag => some ⟨h, 0x180, 0, d, a, len, tag, .v 0, mkMod 0 0 false lay, 0, 0⟩
  | .xcopyCrc h lay d a len tag out cont pt => some ⟨h, 0x180, 1, d, a, len, tag, out, mkMod 0 0 false lay, (BitVec.ofBool cont ++ (0#1 ++ pt) : BitVec 8), 0⟩
  | .xcopyChk h lay d a len tag ex cont pt => some ⟨h, 0x180, 2, d, a, len, tag, ex, mkMod 0 0 false lay, (BitVec.ofBool cont ++ (0#1 ++ pt) : BitVec 8), 0⟩
  | .xwaita h m => some ⟨h, 0x181, 0, .v 0, m, .v 0, .v 0, .v 0, 0, 0, 0⟩
  | .xwaitl h m => some ⟨h, 0x182, 0, .v 0, m, .v 0, .v 0, .v 0, 0, 0, 0⟩
  | .xfind h d m => some ⟨h, 0x183, 0, d, m, .v 0, .v 0, .v 0, 0, 0, 0⟩
  | .xform h d a rr bo => some ⟨h, 0x184, 0, d, a, rr, bo, .v 0, 0, 0, 0⟩
  | .xformDec h d a rr bo => some ⟨h, 0x184, 1, d, a, rr, bo, .v 0, 0, 0, 0⟩
  | .fenceOpnd h => some ⟨h, 0x185, 0, .v 0, .v 0, .v 0, .v 0, .v 0, 0, 0, 0⟩
  | .tmap h fmt swz sm src td base shape stride sptr => some ⟨h, 0x1C0, 0, pS td, base, shape, stride, sptr, (tyCode fmt ++ (swz ++ (sm ++ src)) : BitVec 12), 0, 0⟩
  | .tmset h fld td a => some ⟨h, 0x1C1, 0, pS td, a, .v 0, .v 0, .v 0, mkMod 0 0 false (tmCode fld), 0, 0⟩
  | .accz h ad => some ⟨h, 0x1C2, 0, hS ad, .v 0, .v 0, .v 0, .v 0, 0, 0, 0⟩
  | .accld h ad tm org => some ⟨h, 0x1C3, 0, hS ad, pS tm, org, .v 0, .v 0, 0, 0, 0⟩
  | .accst h rnd sat tm ad org => some ⟨h, 0x1C4, 0, pS tm, hS ad, org, .v 0, .v 0, mkMod 0 (rndCode rnd) sat 0, 0, 0⟩
  | .accrd h ty rnd sat d ad e => some ⟨h, 0x1C5, 0, d, hS ad, e, .v 0, .v 0, mkMod (tyCode ty) (rndCode rnd) sat 0, 0, 0⟩
  | .accwr h ty ad a e => some ⟨h, 0x1C6, 0, hS ad, a, e, .v 0, .v 0, mkMod (tyCode ty) 0 false 0, 0, 0⟩
  | .mmaQuad h flt ad ta tb org k => some ⟨h, 0x1C7, 0, hS ad, pS ta, pS tb, .v 0, org, mkMod (if flt then 9 else 2) 0 false 0, 0, (0#11 ++ k : BitVec 24)⟩
  | .mmaWide h flt ad ta tb kc org k => some ⟨h, 0x1C7, 1, hS ad, pS ta, pS tb, nS kc, org, mkMod (if flt then 9 else 2) 0 false 0, 0, (0#11 ++ k : BitVec 24)⟩
  | .mmaSquare h flt ad ta tb kc org k => some ⟨h, 0x1C7, 2, hS ad, pS ta, pS tb, nS kc, org, mkMod (if flt then 9 else 2) 0 false 0, 0, (0#11 ++ k : BitVec 24)⟩
  | .mmaTall h flt ad ta tb kc org k => some ⟨h, 0x1C7, 3, hS ad, pS ta, pS tb, nS kc, org, mkMod (if flt then 9 else 2) 0 false 0, 0, (0#11 ++ k : BitVec 24)⟩
  | .cdecl h kd grp sl => some ⟨h, 0x1C8, 0, nS kd, grp, sl, .v 0, .v 0, 0, 0, 0⟩
  | .job h card bo => some ⟨h, 0x1C9, 0, .v 0, card, bo, .v 0, .v 0, 0, 0, 0⟩
  | .bar h n => some ⟨h, 0x200, 0, .v 0, n, .v 0, .v 0, .v 0, 0, 0, 0⟩
  | .boinit h bo n => some ⟨h, 0x201, 0, .v 0, bo, n, .v 0, .v 0, 0, 0, 0⟩
  | .boarr h d bo k => some ⟨h, 0x202, 0, d, bo, k, .v 0, .v 0, 0, 0, 0⟩
  | .bowait h bo g => some ⟨h, 0x203, 0, .v 0, bo, g, .v 0, .v 0, 0, 0, 0⟩
  | .botest h pd bo g => some ⟨h, 0x204, 0, pS pd, bo, g, .v 0, .v 0, 0, 0, 0⟩
  | .fence h sc => some ⟨h, 0x205, 0, .v 0, .v 0, .v 0, .v 0, .v 0, mkMod 0 (0#1 ++ scopeCode sc) false 0, 0, 0⟩
  | .phrel h sc => some ⟨h, 0x206, 0, .v 0, .v 0, .v 0, .v 0, .v 0, mkMod 0 (0#1 ++ scopeCode sc) false 0, 0, 0⟩
  | .phacq h sc => some ⟨h, 0x207, 0, .v 0, .v 0, .v 0, .v 0, .v 0, mkMod 0 (0#1 ++ scopeCode sc) false 0, 0, 0⟩
  | .phsync h sc => some ⟨h, 0x208, 0, .v 0, .v 0, .v 0, .v 0, .v 0, mkMod 0 (0#1 ++ scopeCode sc) false 0, 0, 0⟩
  | .launch h a => some ⟨h, 0x240, 0, .v 0, a, .v 0, .v 0, .v 0, 0, 0, 0⟩
  | .graphrun h g n => some ⟨h, 0x241, 0, .v 0, g, n, .v 0, .v 0, 0, 0, 0⟩
  | .ldone h => some ⟨h, 0x242, 0, .v 0, .v 0, .v 0, .v 0, .v 0, 0, 0, 0⟩
  | .tollrd h sel d => some ⟨h, 0x2F0, 0, d, .v 0, .v 0, .v 0, .v 0, mkMod 0 0 false (tollCode sel), 0, 0⟩
  | .tollset h ab a => some ⟨h, 0x2F1, 0, .v 0, a, .v 0, .v 0, .v 0, mkMod 0 0 false (absCode ab), 0, 0⟩
  | .tollrel h => some ⟨h, 0x2F2, 0, .v 0, .v 0, .v 0, .v 0, .v 0, 0, 0, 0⟩
  | .srd h n d => some ⟨h, 0x300, 0, d, .v 0, .v 0, .v 0, .v 0, (0#2 ++ n : BitVec 12), 0, 0⟩
  | .swr h n a => some ⟨h, 0x301, 0, .v 0, a, .v 0, .v 0, .v 0, (0#2 ++ n : BitVec 12), 0, 0⟩
  | .cclr h m => some ⟨h, 0x302, 0, .v 0, m, .v 0, .v 0, .v 0, 0, 0, 0⟩
  | .tret h => some ⟨h, 0x303, 0, .v 0, .v 0, .v 0, .v 0, .v 0, 0, 0, 0⟩
  | .pmark h a => some ⟨h, 0x304, 0, .v 0, a, .v 0, .v 0, .v 0, 0, 0, 0⟩
  | .cntrd h d n => some ⟨h, 0x305, 0, d, n, .v 0, .v 0, .v 0, 0, 0, 0⟩
  | .smpl h a => some ⟨h, 0x306, 0, .v 0, a, .v 0, .v 0, .v 0, 0, 0, 0⟩
  | _ => none

/-- An F word from its fields, R102. -/
def wordF (r : Raw) (p : BitVec 4) (n : Bool) : DWord :=
  BitVec.ofBool r.h.mark ++ (0#2 ++ (r.op ++ (p ++ (BitVec.ofBool n ++ (specBits r.d ++ (specBits r.a ++ (specBits r.b ++
    (r.mod ++ 0#4))))))))

/-- The two words of an X instruction from its fields, R106, R107. -/
def wordX0 (r : Raw) (p1 : BitVec 4) (n1 : Bool) (p2 : BitVec 4) (n2 : Bool) (gc : BitVec 2) : DWord :=
  BitVec.ofBool r.h.mark ++ (2#2 ++ (r.op ++ (r.var ++ (p1 ++ (BitVec.ofBool n1 ++ (p2 ++ (BitVec.ofBool n2 ++ (gc ++
    (specBits r.d ++ (specBits r.a ++ (specBits r.b ++ (r.h.ch ++ (BitVec.ofBool r.h.yld ++ r.h.spc)))))))))))))
def wordX1 (r : Raw) : DWord :=
  r.imm ++ (r.xhi ++ (r.mod ++ (specBits r.e ++ specBits r.c)))

/-- A half's bits, R103. -/
def halfBits (h : Half) : BitVec 30 := h.pop ++ (h.pg ++ (h.d ++ (specBits h.a ++ 0#2)))

/-- The words of raw fields. -/
def rawWords (r : Raw) : List DWord :=
  match r.h.guard with
  | .f p n => [wordF r p n]
  | .x p1 n1 p2 n2 gc => [wordX0 r p1 n1 p2 n2 gc, wordX1 r]

/-- The words of a well-formed instruction; nothing for an event, which has no word. -/
def encode (i : Instr) : Option (List DWord) :=
  match i with
  | .hintWord m false => some [BitVec.ofBool m ++ (3#2 ++ 0#61)]
  | .hintWord m true => some [BitVec.ofBool m ++ (2#2 ++ (0x3C0#10 ++ 0#51)), 0]
  | .pairWord m h0 h1 => some [BitVec.ofBool m ++ (1#2 ++ (0#1 ++ (halfBits h0 ++ halfBits h1)))]
  | _ => (toRaw i).map rawWords

/-- The length of an instruction in bytes: 16 for a two-word instruction, else 8 (R95). -/
def lenOf (i : Instr) : Nat :=
  match i with
  | .hintWord _ wide => if wide then 16 else 8
  | _ => match Machine.hdrOf i with
    | some h => if Machine.hdrX h then 16 else 8
    | none => 8

end Sys2Proof
end

