-- ==== Sys2Proof/Machine/State.lean ====
section
/-! DEFINITION. The state of the MY7 module: every register, table, queue and pending operation that the spec names, as plain
data. Sparse tables list only the entries that differ from what an unlisted key stands for (`Tab.lean`). -/

namespace Sys2Proof.Machine

/-! ## Threads and groups -/

/-- A rejoin register, R148. -/
structure Rejoin where
  arr : Lanes
  enr : Lanes
  jpc : DWord
  deriving DecidableEq, Repr

/-- A tile register, R317: 256 bits by field. -/
structure TileReg where
  sptr   : DWord
  stride : Word
  smode  : BitVec 2
  cols   : BitVec 13
  rows   : BitVec 13
  swz    : BitVec 3
  fmt    : BitVec 5
  src    : BitVec 2
  base   : DWord
  deriving DecidableEq, Repr

/-- A convergence register, R329. Signatures held on it stand with their groups. -/
structure ConvReg where
  decl   : Bool
  signed : BitVec 4
  slices : BitVec 4
  gen    : BitVec 8
  grp    : Word
  deriving DecidableEq, Repr

/-- A register that a write can still be pending for: vector and predicate registers of a lane, uniform registers. -/
inductive Tgt where
  | v (lane n : Nat)
  | s (n : Nat)
  | p (lane n : Nat)
  deriving DecidableEq, Repr

/-- Where one byte of an access lies: in a team's scratchpad, in the plaza, at a physical address under a memory type (R246),
or nowhere. -/
inductive Loc where
  | scr (team off : Nat)
  | plaza (off : Nat)
  | glob (pa mt : Nat)
  deriving DecidableEq, Repr

/-- One lane's access: its address, where its bytes lie (absent while a walk waits on a page request), its data and, for a
compare and swap, the compare value. -/
structure LaneAcc where
  lane : Nat
  va   : DWord
  locs : Option (List Loc)
  data : DWord
  cmp  : DWord
  deriving DecidableEq, Repr

/-- What an outstanding item does when it completes. -/
inductive Work where
  | result (ws : List (Tgt × Word)) (fl : List (Nat × BitVec 5))                     -- values computed at issue
  | loaded (ws : List (Tgt × Word))                                                  -- words that LDK read at issue
  | load (ty : Ty) (regs : Nat) (uni : Bool) (dst : List (Nat × Nat)) (scope : Scope) (acc : List LaneAcc)
  | store (bytes : Nat) (scope : Scope) (acc : List LaneAcc) (wide : List (Nat × List Byte))
  | atom (op : AtomOp) (cas : Bool) (ty : Ty) (dst : List (Nat × Nat)) (scope : Scope) (acc : List LaneAcc)
  | atoma (op : AtomOp) (ty : Ty) (dst : List (Nat × Nat)) (scope : Scope) (acc : List LaneAcc) (vals : List (Nat × DWord))
  | red (op : AtomOp) (ty : Ty) (scope : Scope) (acc : List LaneAcc)
  | ldk (ty : Ty) (regs : Nat) (dst : List (Nat × Nat)) (acc : List LaneAcc)
  | prefetch
  | sfq (fn : SfqFn) (ty : FTy) (token : Nat) (ws : List (Tgt × Word)) (fl : List (Nat × BitVec 5))
  | fence (sys : Bool)
  | fenceOpnd
  | release (scope : Scope) (id : Nat)
  | acquire (id : Nat)
  | phsync (scope : Scope) (id : Nat) (acq : Bool)
  | bar (n : Nat) (recorded : Bool) (len : Nat)
  | boinit (loc : Nat × Nat) (count : Nat)
  | boarr (loc : Nat × Nat) (k : Nat) (sd : Nat)
  | bowait (loc : Nat × Nat) (g : Nat) (hit : Bool)
  | botest (loc : Nat × Nat) (g : Nat) (pd : Nat) (wait : Bool)
  | waitAny (m : DWord)
  | waitAll (m : DWord)
  | sfw (m : BitVec 8)
  | engine (cmd : Nat)
  | mma (id : Nat)
  | fuse (id : Nat)
  | card (cmd : Nat)
  | accld (ad : Nat) (tm : TileReg) (org : Word) (got : List (DWord × Byte))
  | accst (bytes : List (DWord × Nat × Nat)) (swz : BitVec 3) (src : BitVec 2)
  | launch (recs : List (Nat × DWord)) (cyc : Nat)
  | ldone (acquiring : Option Nat)
  deriving DecidableEq, Repr

/-- A long-class instruction that has issued and not yet reached its completion point (R112, R117, R264). `live` are the
registers whose pending write still stands (R116). -/
structure Out where
  seq   : Nat
  pc    : DWord
  next  : DWord
  lanes : Lanes
  work  : Work
  live  : List Tgt
  deriving DecidableEq, Repr

/-- The state of a resident group's slot, R137. -/
inductive SlotState where
  | active | pending | spent
  deriving DecidableEq, Repr

/-- A choosing unit's current choice and last move, in ticks (R74). -/
structure ChoiceUnit where
  cur  : Nat
  last : Int
  deriving DecidableEq, Repr

/-- What an element waiting on a page request does when its walk succeeds (R249, R252, R254): the fetch of the instruction at `pc`, a
lane access that left its group's count, one that is still in it, an engine's access, or a matrix operation's. -/
inductive ElemAct where
  | refetch (pc : DWord)
  | item (o : Out)
  | outSeq (seq : Nat)
  | engine (cmd : Nat)
  | matrix (id : Nat)
  deriving DecidableEq, Repr

/-- An element that waits on a page request (R249); `slot` is absent while no slot is free, and for a request to the host's
page service (R301). `replied` says that a reply without FAIL came while its group was off its core (R251, R253). -/
structure Elem where
  gkey  : Nat
  lanes : Lanes
  kind  : AccKind
  va    : DWord
  func  : Nat
  pasid : Nat
  label : DWord
  stage : Bool
  page  : Nat
  slot  : Option Nat
  pri   : Bool
  replied : Bool
  bytes : Nat
  post  : List (BitVec 3)
  act   : ElemAct
  deriving DecidableEq, Repr

/-- A cause that waits for its lane to go on, because the lane is parked or stands at a BAR: what %fadr and %fcode then hold, the failed
region of a hardware error, and the instruction that raised it (R190, R354). -/
structure Due where
  lane  : Nat
  cause : Nat
  fadr  : DWord
  fcode : Word
  info  : Nat
  pc    : DWord
  deriving DecidableEq, Repr

/-- A sub-group held by HOLDTR or HOLDBP with its replayable record (R394, R404): whether a translation cause holds it and of which
stage, its elements, and a reply that waits for the lanes to come back. -/
structure Held where
  lanes : Lanes
  trn   : Bool
  s2    : Bool
  pc    : DWord
  slot  : Nat
  seq   : Nat
  filed : Bool
  reply : Option (BitVec 2)
  elems : List Elem
  deriving DecidableEq, Repr

/-- A sub-group whose lanes parked with a cause while their group stood off its core: it is dealt with once the group is back (R396). -/
structure Owed where
  lanes : Lanes
  pc    : DWord
  trn   : Bool
  bkp   : Bool
  s2    : Bool
  deriving DecidableEq, Repr

/-- A group, with the state of its threads (R146, R152, R153, R392, R395). Registers are tables by lane and number. `due` lists
the causes of lanes that park only when they go on (R190, R354); `chosen` is the lane set that waits at
issue under R294; `yields` says that the group gives its place up at the end of this cycle (R109, R139); `owed` lists the
sub-groups that are delivered when the group is committed again (R396); `swr` gives the uniform registers written so far, each with the
number that the next item had then, so that the result of an access that was parked meanwhile is known to come too late (R116);
`away` gives the core that the group left last, and the number of the next item then: items before it were issued there (R357). -/
structure Group where
  team   : Nat
  gidx   : Nat
  live   : Lanes
  exited : Lanes
  parked : Lanes
  hmask  : Lanes
  pc     : List (Nat × DWord)
  vreg   : List (Nat × Word)
  pred   : List (Nat × Bool)
  xreg   : List (Nat × Word)
  sreg   : List (Nat × Word)
  tile   : List (Nat × TileReg)
  acc    : List (Nat × DWord)
  rejoin : List (Nat × Rejoin)
  epc    : List (Nat × DWord)
  fadr   : List (Nat × DWord)
  fcode  : List (Nat × Word)
  cause  : Word
  det    : Bool
  rat    : Bool
  sfn    : BitVec 3
  flg    : BitVec 5
  fen    : BitVec 5
  tabs   : Bool
  tval   : Int
  rot    : Nat
  run    : Nat
  last   : Option Nat
  slot   : Option Nat
  sstate : SlotState
  lastIssue : Nat
  nextOk : Nat
  mark   : Bool
  outs   : List Out
  nextSeq : Nat
  held   : List Held
  due    : List Due
  eng    : ChoiceUnit
  pre    : ChoiceUnit
  eff    : ChoiceUnit
  chosen : Option (DWord × Lanes)
  yields : Bool
  owed   : List Owed
  swr    : List (Nat × Nat)
  away   : Option (Nat × Nat)
  deriving DecidableEq, Repr

/-! ## Teams and launches -/

/-- Where a team's context stands (R137, R407, R408). -/
inductive Where where
  | reserved | resident | shadow | spilled
  deriving DecidableEq, Repr

/-- A placed team: its cores, its scratchpad with layout tags, and its team state (R235, R242, R273, R278, R329, R372). `leaving`
marks a team to be pre-empted at its cores' next swap (R407), `stopped` one that a precise stop keeps off, `stopTid` the thread
that its stop record will name (R422), `image` the place and length of its image in the spill area (R407), `cancelled` a
pre-empted team for which no span remains (R69), `born` the children that each thread has launched so far, `frees` the releases that the device
has asked for before it takes the team's place or its shadow bank away (R364). -/
structure Team where
  launch : Nat
  task   : Nat
  cores  : List Nat
  place  : Where
  groups : Nat
  gang   : Option Nat
  scr    : List (Nat × Byte)
  tags   : List (Nat × BitVec 3)
  priv   : Word
  done   : DWord
  err    : DWord
  crc    : List (Nat × Word)
  noChain : DWord
  bars   : List (Nat × List Nat)
  kreg   : List (Nat × ConvReg)
  frozen : Bool
  leaving : Bool
  stopped : Bool
  stopTid : Option Nat
  image  : Option (Nat × Nat)
  children : List (Nat × Nat)
  cancelled : Bool
  born   : List (Nat × Nat)
  frees  : Option (List Nat)
  deriving DecidableEq, Repr

/-- Who submitted a launch (R23, R55): a packet of a queue, a node of a graph run with its list A as it stood when the node fired
(R45; targets, and which are back edges), or a thread. -/
inductive Origin where
  | packet (q idx : Nat) (xing count : Nat)
  | node (g n : Nat) (succ : List (Nat × Bool))
  | thread (parent team thread : Nat)
  deriving DecidableEq, Repr

/-- The life of a launch: handed to the front end, accepted, retired. -/
inductive Stage where
  | handed | accepted | retired
  deriving DecidableEq, Repr

/-- A launch and its grid (R21, R23, R24, R29, R415). `unplaced` lists ranges of teams not yet placed, `held` is set while a
precise stop of the launch keeps them off (R422), `frozen` by a FREEZE (R411). `waiting` marks a normal-mode launch whose next team fits
no span, `passed` the placements made past it (R62). `closing` marks one that is over but for the record that takes its completion
record's place and waits for a slot (R26, R404), `putOff` one whose gang gave way to an urgent launch (R65). `path` numbers a descendant of a replayed launch by its place under it
(R425). -/
structure Launch where
  origin  : Origin
  func    : Nat
  pasid   : Nat
  pri     : Nat
  depth   : Nat
  recAddr : DWord
  order   : Nat
  stage   : Stage
  kdesc   : DWord
  entry   : DWord
  handler : Option DWord
  args    : DWord
  done    : DWord
  seed    : DWord
  label   : DWord
  gx      : Nat
  gy      : Nat
  gz      : Nat
  tx      : Nat
  ty      : Nat
  tz      : Nat
  shape   : Nat
  nw      : Nat
  nh      : Nat
  det     : Bool
  ctoll   : Bool
  toff    : Int
  vregs   : Nat
  sregs   : Nat
  accs    : Nat
  scr     : Nat
  nbhd    : Nat
  consts  : List Word
  unplaced : List (Nat × Nat)
  considered : Bool
  passed  : Nat
  exited  : Nat
  childLive : Nat
  childAcc : Nat
  fate    : BitVec 8
  dfail   : Bool
  dlabel  : Option DWord
  tstart  : DWord
  replay  : Bool
  frozen  : Option Nat
  held    : Bool
  waiting : Bool
  closing : Bool
  putOff  : Bool
  path    : Nat
  deriving DecidableEq, Repr

/-! ## Engines and matrix units -/

inductive CmdKind where
  | copy (lay : Nat)
  | copyCrc (lay : Nat) (out : DWord) (cont : Bool) (ptag : Nat)
  | copyChk (lay : Nat) (exp : Word) (cont : Bool) (ptag : Nat)
  | xform (dec : Bool) (recA bo : DWord)
  | job (card bo : DWord) (fused : Option Nat)
  deriving DecidableEq, Repr

/-- An engine command, from its issue to its completion (R272 to R275). `waits` counts its elements on page requests; `start` is the CRC
state that a checked copy takes up at acceptance, absent where its chain is broken (R278). -/
structure Cmd where
  id    : Nat
  team  : Nat
  gkey  : Nat
  core  : Nat
  seq   : Nat
  lanes : Lanes
  pc    : DWord
  dst   : DWord
  src   : DWord
  len   : Nat
  tag   : Nat
  kind  : CmdKind
  accepted : Bool
  recd  : List Byte
  waits : Nat
  tiles : List TileReg
  start : Option Word
  deriving DecidableEq, Repr

/-- One signer of a matrix operation: its group, the lanes that issued it, its accumulator, its outstanding item, and the address of its
own MMA or JOB. -/
structure Signer where
  gkey  : Nat
  lanes : Lanes
  slice : Nat
  acc   : Nat
  seq   : Nat
  bo    : DWord
  pc    : DWord
  deriving DecidableEq, Repr

/-- Operand bytes that an operation has read: an aligned 32-byte granule of a window, or a 256-byte line of SRC 3 (R323, R324), by its
address in the map's space; `line` is the physical line that is pinned. -/
structure Chunk where
  va    : Nat
  line  : Option Nat
  bytes : List Byte
  deriving DecidableEq, Repr

/-- A matrix operation in flight (R315, R346), or the loop nest of a job (R353); `signers` has one entry for a quad operation
and four for a fused one. `parked` says that its lanes wait at it for a page (R249), `chunks` are the operand bytes read and still
needed, `tags` the layout tags read with them by address / 1,024 (R243). -/
structure MatOp where
  id    : Nat
  team  : Nat
  core  : Nat
  pc    : DWord
  shape : Nat
  flt   : Bool
  ta    : TileReg
  tb    : TileReg
  arow  : Int
  brow  : Int
  koff  : Int
  klen  : Nat
  k     : Nat
  signers : List Signer
  job   : Option (List Byte)
  idx   : Nat
  zeroed : List Int
  started : Bool
  waits : Nat
  parked : Bool
  chunks : List Chunk
  tags  : List (Nat × BitVec 3)
  deriving DecidableEq, Repr

/-- A group's signature on a convergence register, held until the joint issue (R330); `judged` says that it counts in SIGNED. -/
structure Sign where
  id    : Nat
  gkey  : Nat
  core  : Nat
  k     : Nat
  lanes : Lanes
  slice : Nat
  acc   : Nat
  shape : Nat
  flt   : Bool
  ta    : TileReg
  tb    : TileReg
  org   : DWord
  klen  : Nat
  next  : DWord
  pc    : DWord
  job   : Option (List Byte × DWord)
  seq   : Nat
  judged : Bool
  deriving DecidableEq, Repr

/-! ## Translation -/

/-- A cached entry of stage 1 (with its PASID) or stage 2 (R247, R248). A leaf (`lvl` absent): input bits above `lg`, output base,
permissions and memory type. A partial walk (`lvl` present): the level of the table at `out` that serves the input bits above `lg`, and
whether it is the 32-entry table of 64 KiB pages (R246). -/
structure TlbEnt where
  s2    : Bool
  func  : Nat
  pasid : Nat
  lg    : Nat
  tag   : Nat
  out   : Nat
  mt    : Nat
  r     : Bool
  w     : Bool
  x     : Bool
  lvl   : Option (Nat × Bool)
  deriving DecidableEq, Repr

/-- A page-request slot, R250. -/
structure PSlot where
  valid : Bool
  seq   : BitVec 8
  stage : Bool
  kind  : AccKind
  label : DWord
  pasid : Nat
  waiters : Nat
  addr  : Nat
  deriving DecidableEq, Repr

/-- A function's own registers (R244, R248, R297, R402, R419) and its PCIe capabilities. -/
structure Func where
  s2root : DWord
  ptab   : DWord
  tinva  : DWord
  tkind  : BitVec 2
  tpasid : BitVec 20
  tbusy  : Bool
  tdrain : List (Nat × Nat)
  recbase : DWord
  ftail  : Word
  fhead  : Word
  rtail  : Word
  rhead  : Word
  hwdrop : Word
  holdtr : Bool
  holdbp : Bool
  spillbase : DWord
  spilllen : DWord
  trcbase : DWord
  trclog : BitVec 5
  trctail : Word
  trchead : Word
  trcdrop : Word
  low    : List (Nat × Word)
  hold   : Bool
  ats    : Bool
  pri    : Bool
  freezing : Bool
  deriving DecidableEq, Repr

/-! ## Queues, crossings and graphs -/

/-- A hardware queue (R32, R33). `head` is the packet read when it became the head (R36); `checked` says that the checks of
R437 were made; `open'` lists the started LAUNCH and GRAPH packets that have not retired. -/
structure Queue where
  qring  : DWord
  qsize  : Nat
  qhead  : Word
  qtail  : Word
  qvec   : BitVec 6
  pmax   : BitVec 3
  en     : Bool
  frozen : Bool
  reason : BitVec 8
  waiting : Bool
  pasid  : BitVec 20
  owner  : Nat
  since  : Nat
  head   : Option (BitVec 512)
  checked : Bool
  open'  : List Nat
  deriving DecidableEq, Repr

/-- A crossing, R41. -/
structure Crossing where
  en     : Bool
  ovf    : Bool
  cons   : BitVec 10
  prod   : BitVec 10
  tokens : Word
  owner  : Nat
  deriving DecidableEq, Repr

/-- A node's progress in a run: forward arrivals since it last fired and whether one of them was a run, the loop counter, whether it is
ready to fire, and the back arrivals on which it has still to decide (R50, R51). -/
structure NodeRun where
  fwd   : Nat
  ran   : Bool
  iter  : Nat
  ready : Bool
  back  : Nat
  deriving DecidableEq, Repr

/-- A pending or current run: its priority and the packet that requested it (R54). -/
structure RunReq where
  pri    : Nat
  packet : Option (Nat × Nat)
  deriving DecidableEq, Repr

/-- A resident graph (R45, R54). -/
structure Graph where
  gpri  : BitVec 3
  gown  : Nat
  gbase : Nat
  gvec  : BitVec 6
  glen  : Nat
  pasid : BitVec 20
  err   : BitVec 4
  ign   : Bool
  lost  : Bool
  abn   : Bool
  nodes : Nat
  pend  : List RunReq
  run   : Option RunReq
  abandoned : Bool
  prog  : List (Nat × NodeRun)
  flying : Nat
  deriving DecidableEq, Repr

/-! ## Cores and caches -/

/-- A core: its L1 (byte and dirty bit by physical address), the words in the L1's instruction part by physical address / 8 (R239),
those in the constant cache by physical address / 4 (R262), filters (R359), placement record (R58), bank state (R407),
counters (R416, R417), clock, what it returns when its swap is over (R407), and its issued and all slots in this tick and those before (R75). -/
structure Core where
  l1    : List (Nat × (Bool × Byte))
  icache : List (Nat × DWord)
  kcache : List (Nat × Word)
  sigf  : BitVec 2048
  acqf  : BitVec 2048
  dark  : Bool
  heldTeam : List Nat
  fscr  : Nat
  fvreg : Nat
  facc  : Nat
  fslot : Nat
  swapAt : Option Nat
  swapBack : Nat × Nat × Nat × Nat
  shadow : List Nat
  cnt   : List (Nat × DWord)
  clock : ChoiceUnit
  act   : List (Nat × Nat)
  deriving DecidableEq, Repr

/-- A release that took its bytes in cycle `cyc` and has not completed (R360): the bytes it writes back, those of them stored again since,
and the signature. An acquire in progress (R361) took ACQF in cycle `cyc`; `team` is the team whose first issue waits for it (R364). -/
structure Release where
  id    : Nat
  core  : Nat
  scope : Scope
  bytes : List (Nat × Byte)
  again : List Nat
  sig   : BitVec 2048
  cores : List Nat
  cyc   : Nat
  deriving DecidableEq, Repr

structure Acquire where
  id    : Nat
  core  : Nat
  filt  : BitVec 2048
  cyc   : Nat
  team  : Option Nat
  deriving DecidableEq, Repr

/-! ## Power and toll -/

/-- A power region (R89 to R94). -/
structure Region where
  phok   : BitVec 4
  bias   : Bool
  failed : Bool
  waking : Bool
  gated  : Bool
  stage  : Nat
  gate   : Bool
  want   : Bool
  lostSensors : List Nat
  deriving DecidableEq, Repr

/-- The supply block (R71 to R88). `base` is the code before the kerb's addition in pinned and scripted mode, `snear` the script's
NEAR, `sidx` 64 a script that has ended. -/
structure Supply where
  kerb  : Bool
  near  : Bool
  l     : Nat
  mode  : BitVec 2
  pinl  : BitVec 12
  capw  : Nat
  ktrips : Nat
  pwr   : Nat
  tscr  : List (Nat × Word)
  sidx  : Nat
  sleft : Nat
  fresh : Bool
  base  : Nat
  snear : Bool
  high  : Nat
  tripped : Bool
  tick  : Nat
  links : List (Nat × ChoiceUnit)
  regions : List (Nat × Region)
  plzSize : Nat
  plzf  : List (Nat × Word)
  deriving DecidableEq, Repr

/-! ## Peers, PCIe, freezing, observation, anchor -/

/-- A flit that a port has sent and the other end has not acknowledged (R306): its SEQ, its transaction identifier, and the 256-byte line
of physical addresses that its request is for. -/
structure SentFlit where
  seq  : BitVec 12
  xid  : Nat
  line : Nat
  deriving DecidableEq, Repr

/-- A Vyulo Link port (R305, R306): inbound freeze, expected sequence, failures of the expected flit, out of order, the NAK it returned
last; as a sender, the flit that the other end has asked for again, and how many times, the SEQ of the next flit, the replay buffer of 128
flits, and those of it that are sent again. -/
structure LinkPort where
  frozen : Bool
  expSeq : BitVec 12
  fails  : Nat
  down   : Bool
  nak    : Option (BitVec 12)
  nakd   : Option (BitVec 12)
  tries  : Nat
  outSeq : BitVec 12
  sent   : List SentFlit
  again  : List SentFlit
  deriving DecidableEq, Repr

/-- A peer's checked copy as the receiving interface sees it (R307, R310): its source and number, its destination, the state it started
from, and the bytes handed to L2 so far by offset. -/
structure CopyIn where
  src   : Nat
  cmd   : Nat
  base  : Nat
  len   : Nat
  start : Word
  got   : List (Nat × Byte)
  deriving DecidableEq, Repr

/-- What this module sees of a peer's interface (R305, R308): the local-DRAM bytes from `lo` to below `hi` at which the peer
accepts requests of this module, and its VLINJ register. -/
structure FarPeer where
  lo    : Nat
  hi    : Nat
  vlinj : DWord
  deriving DecidableEq, Repr

/-- A peer that is not listed accepts requests anywhere in its local DRAM and injects nothing (log entry 82). -/
def farReset : FarPeer := ⟨0, Config.dramBytes, 0⟩

/-- The link interfaces (R302 to R308). `reply` lists what they answered to peers' requests (absent: an abort, R93), by port; `xid` is the
next transaction identifier of this module, `unsent` lists requests (identifier and line) that wait for room in a replay buffer, and
`early` gives, for each change of a window's working ports, the requests outstanding then: group, item and line (R304). -/
structure Peers where
  nodeid : BitVec 12
  rwina  : List (Nat × DWord)
  rwinb  : List (Nat × DWord)
  impbase : DWord
  implen : DWord
  impacl : BitVec 4096
  vlinj  : DWord
  ports  : List (Nat × LinkPort)
  seen   : List (Nat × Nat)
  mem    : List (Nat × Byte)
  reply  : List (Nat × Option (List Byte))
  far    : List (Nat × FarPeer)
  copies : List CopyIn
  xid    : Nat
  unsent : List (Nat × Nat)
  early  : List (List (Nat × Nat × Nat))
  deriving DecidableEq, Repr

/-- A PCIe port (R296). -/
structure PciePort where
  up    : Bool
  rate  : Nat
  width : Nat
  dirtyReads : Option Nat
  deriving DecidableEq, Repr

/-- The answer to a configuration request: Request Retry Status, no such function, a setting taken, or a function with its BARs and their
sizes; `accel` says that its class code is "processing accelerator" (R296, R297, R429). -/
inductive CfgReply where
  | retry
  | absent
  | taken
  | present (accel : Bool) (bars : List (Nat × Nat))
  deriving DecidableEq, Repr

/-- An ATS Invalidation Request that has not been completed: its function and range, and the accesses that may have used what it
removed (R301). -/
structure AtsInv where
  func  : Nat
  addr  : Nat
  len   : Nat
  drain : List (Nat × Nat)
  deriving DecidableEq, Repr

/-- The PCIe ports, the translation cache with the pages that the host granted (R301), and what the device sends of its own accord;
`prms` lists the Page Request Messages without a response, by function and page. -/
structure Pcie where
  ports : List (Nat × PciePort)
  bar4  : Nat
  numVfs : Nat
  urs   : Nat
  atc   : List (Nat × Nat)
  grants : List (Nat × Nat)
  invs  : List AtsInv
  invDone : List (Nat × Nat × Nat)
  cfgReply : List (Nat × CfgReply)
  irqs  : List (Nat × Nat)
  reads : List (Nat × Option (List Byte))
  prms  : List (Nat × Nat)
  deriving DecidableEq, Repr

/-- The fields of a fatal-lane or replayable-lane record that its event gives (R403). -/
structure RecF where
  addr   : DWord
  pc     : DWord
  label  : DWord
  team   : Word
  group  : Word
  lanes  : Word
  cause  : Word
  detail : DWord
  code   : BitVec 8
  kind   : BitVec 8
  deriving DecidableEq, Repr

/-- A record that waits for a slot of a full lane (R404): its function, the launch that it ends or the held lanes it names. -/
structure WaitRec where
  func   : Nat
  launch : Option Nat
  held   : Option (Nat × Lanes)
  body   : RecF
  deriving DecidableEq, Repr

/-- What the sections 0x03 to 0x05 of an image hold (R412): the lengths of its extents, contexts with the bytes of their teams' spill
images, front-end state and registers. It is no field of the state: an image stands in host memory as bytes. -/
structure FrozenImg where
  uid    : Nat
  sizes  : List Nat
  teams  : List (Nat × Team)
  images : List (Nat × List Byte)
  groups : List (Nat × Group)
  launches : List (Nat × Launch)
  queues : List (Nat × Queue)
  xings  : List (Nat × Crossing)
  graphs : List (Nat × Graph)
  fregs  : Func
  elems  : List Elem
  mats   : List MatOp
  recs   : List WaitRec
  nodes  : List (Nat × BitVec 512)
  deriving DecidableEq, Repr

/-- FREEZE, THAW, FPRE and stops (R406, R410, R422); `frees` lists the releases that a FREEZE has asked for (R411). -/
structure Freezer where
  busy  : Bool
  op    : BitVec 2
  func  : BitVec 6
  status : BitVec 8
  img   : DWord
  len   : DWord
  ext   : DWord
  next  : BitVec 17
  dig   : List (Nat × Word)
  phase : Nat
  job   : Nat
  hostFail : Bool
  frees : Option (List Nat)
  fpre  : BitVec 6
  fhold : Bool
  fbusy : Bool
  fjob  : Nat
  stop  : DWord
  rsm   : DWord
  slabel : DWord
  stid  : Word
  deriving DecidableEq, Repr

/-- Histogram engine (R420, R421), replay (R423 to R425) and event selection (R417). `rmem` and `rplaza` hold the pages that a replay has
saved, `racts` is set while a launch of the replay acts. -/
structure Observe where
  evsel : DWord
  hctl  : Word
  hbase : DWord
  hsink : DWord
  hslen : BitVec 16
  hshead : Word
  hstail : Word
  hout  : DWord
  bins  : List (Nat × Nat)
  hsat  : Bool
  hstart : DWord
  hreq  : Bool
  rplctl : Word
  rpllabel : DWord
  rplsave : DWord
  rplslen : DWord
  rplstat : Word
  rplev : List (Nat × DWord)
  rlaunch : Option Nat
  racts : Bool
  rpass : Nat
  rnpass : Nat
  rpages : List Nat
  rmem  : List (Nat × Byte)
  rplaza : List (Nat × Byte)
  rsigs : List (Nat × Word)
  rfirst : List (Nat × Word)
  rrec  : Option Launch
  trseq : List (Nat × Word)
  deriving DecidableEq, Repr

/-- The anchor (R427 to R435): boot status, flash slots, fuses, mailbox, watchdog. `tests` gives the results of the self-test in the order of
R430, `dead` the processors that stay in reset because their image did not verify. -/
structure Anchor where
  state : Nat
  step  : Nat
  slot  : Nat
  svn   : BitVec 8
  funit : Nat
  flash : List (Nat × Byte)
  sel   : Nat
  minSvn : Nat
  ready : List Proc
  resets : Nat
  tests : List Bool
  dead  : List Proc
  mbop  : BitVec 8
  mbbusy : Bool
  mbres : BitVec 8
  mbnext : BitVec 8
  mbdata : List (Nat × Byte)
  stageOff : Nat
  deriving DecidableEq, Repr

/-- The word being issued (R144): the group's key, the program counter, and the lanes that stand there. -/
structure Issue where
  gkey  : Nat
  pc    : DWord
  lanes : Lanes
  deriving DecidableEq, Repr

/-- The gang being reserved (R64): launch, neighbourhood, cores of the rectangle, teams reserved so far. `back` lists the teams of a
neighbourhood that returns after pre-emption (R70); it is empty for one that is placed for the first time. `spots` gives the core of each
reservation, `since` the number from which launches were accepted after the gang began (R65). -/
structure Gang where
  launch : Nat
  index  : Nat
  cores  : List Nat
  teams  : List Nat
  back   : List Nat
  spots  : List Nat
  since  : Nat
  deriving DecidableEq, Repr

/-- The machine. `objOps` names the scratchpad words that groups' operations have changed in this cycle, each with the slot of the last one
(R375). -/
structure State where
  agenda  : List Instr
  cur     : Option Issue
  now     : Nat
  fresh   : Nat
  uid     : Nat
  issued  : List (Nat × Nat)
  mem     : List (Nat × Byte)
  l2      : List (Nat × (Bool × Byte))
  plaza   : List (Nat × Byte)
  groups  : List (Nat × Group)
  teams   : List (Nat × Team)
  launches : List (Nat × Launch)
  cores   : List (Nat × Core)
  queues  : List (Nat × Queue)
  xings   : List (Nat × Crossing)
  graphs  : List (Nat × Graph)
  store   : List (Nat × BitVec 512)
  funcs   : List (Nat × Func)
  slots   : List (Nat × PSlot)
  tlb     : List TlbEnt
  elems   : List Elem
  faults  : List ((Nat × Nat × Nat × Bool) × Nat)
  cmds    : List Cmd
  mats    : List MatOp
  signs   : List Sign
  rels    : List Release
  acqs    : List Acquire
  recs    : List WaitRec
  gang    : Option Gang
  supply  : Supply
  peers   : Peers
  pcie    : Pcie
  freezer : Freezer
  obs     : Observe
  anchor  : Anchor
  struck  : List (Nat × Nat × Nat)
  objOps  : List ((Nat × Nat) × Nat)
  deriving DecidableEq, Repr

/-- Why a step can stop with a fault. No instruction and no event of this hardware stops the machine; only a word of an
instruction that no group is issuing does. -/
inductive Fault where
  /-- Raised by the meaning of an instruction word executed while no group issues one (`State.cur` is absent). `step` never asks
  this. Safe: the machine stops where the hardware has no such step. -/
  | noIssue
  deriving DecidableEq, Repr

/-- Why a step can be refused. -/
inductive Refusal where
  /-- An instruction without a meaning yet, by its mnemonic; answered only by an arm of `exec`. Safe. -/
  | notModelled (mnemonic : String)
  deriving DecidableEq, Repr

/-- The machine right after device reset: the supply broadcasts L = 0x800 under a cap of 2,400 W (R71, R87), the boot ROM is about
to run (R429, R432), every register block holds its field maps' reset values, and nothing is queued, resident or cached. -/
def State.reset : State where
  agenda := []
  cur := none
  now := 0
  fresh := 0
  uid := 0
  issued := []
  mem := []
  l2 := []
  plaza := []
  groups := []
  teams := []
  launches := []
  cores := []
  queues := []
  xings := []
  graphs := []
  store := []
  funcs := []
  slots := []
  tlb := []
  elems := []
  faults := []
  cmds := []
  mats := []
  signs := []
  rels := []
  acqs := []
  recs := []
  gang := none
  supply := ⟨false, false, 0x800, 0, 0x800, 2400, 0, 0, [], 64, 0, false, 0x800, false, 0, false, 0, [], [], 0, []⟩
  peers := ⟨0, [], [], 0, 0, 0, 0, [], [], [], [], [], [], 0, [], []⟩
  pcie := ⟨[(1, ⟨false, 7, 16, none⟩)], 512 * 2 ^ 30, 0, 0, [], [], [], [], [], [], [], []⟩
  freezer := ⟨false, 0, 0, 0, 0, 0, 0, 0, [], 0, 0, false, none, 0, false, false, 0, 0, 0, 0, 0⟩
  obs := ⟨0, 0, 0, 0, 0, 0, 0, 0, [], false, 0, false, 0, 0, 0, 0, 0, [], none, false, 0, 0, [], [], [], [], [], none, []⟩
  anchor := ⟨0, 0, 0, 0, 0, [], 0, 0, [], 0, [], [], 0, false, 0, 0, [], 0⟩
  struck := []
  objOps := []

end Sys2Proof.Machine
end

