-- ==== Sys2Proof/Machine/Mem.lean ====
section
/-! DEFINITION. Memory as the machine's units see it: the physical map (R295), L2 (R241, R438), the L1 of a core (R239, R240),
the filters (R359, R362), translation in two stages (R244 to R248), the windows (R232 to R238), and reads and writes of one
byte at each scope (R260). -/

namespace Sys2Proof.Machine

/-! ## Lookups with what an unlisted key stands for -/

/-- A core whose resources are all free (R58) and whose caches are empty. -/
def coreReset : Core :=
  ⟨[], [], [], 0, 0, false, [], 384, 3072, 64, 24, none, (0, 0, 0, 0), [], [], ⟨0, -8⟩, []⟩

/-- Function registers at reset (R244, R402, R419); TRCLOG has no stated reset and takes its least value (log entry 2). -/
def funcReset : Func :=
  ⟨0, 0, 0, 0, 0, false, [], 0, 0, 0, 0, 0, 0, false, false, 0, 0, 0, 6, 0, 0, 0, [], false, false, false, false⟩

/-- A region that is on with four working phases (R90). -/
def regionReset : Region := ⟨0xF, false, false, false, false, 8, false, false, []⟩

def portReset : LinkPort := ⟨false, 0, 0, false, none, none, 0, 0, [], []⟩

/-- A PCIe port that no event has trained or dropped. -/
def pcieReset : PciePort := ⟨true, 7, 16, none⟩

def getCore (s : State) (c : Nat) : Core := tabGet coreReset s.cores c
def setCore (s : State) (c : Nat) (x : Core) : State := { s with cores := tabPut s.cores c x }
def updCore (s : State) (c : Nat) (f : Core → Core) : State := setCore s c (f (getCore s c))
/-- Change every core of the module. -/
def updCores (s : State) (f : Nat → Core → Core) : State :=
  { s with cores := (List.range Config.cores).map fun c => (c, f c (getCore s c)) }
def getFunc (s : State) (n : Nat) : Func := tabGet funcReset s.funcs n
def setFunc (s : State) (n : Nat) (x : Func) : State := { s with funcs := tabPut s.funcs n x }
def updFunc (s : State) (n : Nat) (f : Func → Func) : State := setFunc s n (f (getFunc s n))
def getRegion (s : State) (r : Nat) : Region := tabGet regionReset s.supply.regions r
def getPort (s : State) (p : Nat) : LinkPort := tabGet portReset s.peers.ports p

/-- An event of R417 happens n times on a core: every counter whose EVSEL code names it counts, unless the core is dark (R416). -/
def countEv (s : State) (c code n : Nat) : State :=
  if n = 0 || s.obs.evsel = 0 then s
  else updCore s c fun x =>
    if x.dark then x
    else { x with cnt := (List.range 8).foldl (fun t i =>
      if (s.obs.evsel.extractLsb' (8 * i) 8).toNat = code then tabUpd 0 t (16 + i) (· + BitVec.ofNat 64 n) else t) x.cnt }

/-! ## PCIe ports, R300 -/

def portUp (s : State) (p : Nat) : Bool := (tabGet pcieReset s.pcie.ports p).up

/-- The port of a host access that may use either: by page parity when both are up (R300). -/
def freePort (s : State) (pa : Nat) : Nat :=
  if portUp s 0 && portUp s 1 then pa / 4096 % 2 else if portUp s 0 then 0 else 1

/-- The port of a function's host access: port 0 under memory type 2 and while the function's ATS is disabled (R300). -/
def hostPort (s : State) (func mt pa : Nat) : Nat := if mt = 2 || !(getFunc s func).ats then 0 else freePort s pa

/-- A function's host access reaches the host: its port is up. -/
def hostUp (s : State) (func mt pa : Nat) : Bool := portUp s (hostPort s func mt pa)

/-- A posted write carried by a port is remembered until the host acknowledges it (R269). -/
def notePosted (s : State) (port pa : Nat) : State :=
  { s with pcie := { s.pcie with ports := tabUpd pcieReset s.pcie.ports port fun x => { x with dirtyReads := some pa } } }

/-- Distinct 64-byte lines among byte addresses. -/
def linesOf (as : List Nat) : Nat := (as.map (· / 64)).eraseDups.length

/-- In the safe state BAR0 holds BOOTSTAT and the mailbox only, and every other register write is ignored (R431). -/
def safeState (s : State) : Bool := s.anchor.state == 5

/-- The release order is complete: the host's enumeration is admitted, and the functions' BARs answer (R429). -/
def running (s : State) : Bool := s.anchor.state == 4

/-- A write from a function's BARs takes effect: once the device runs, by a function that the host has enabled (R297, R429, R431). -/
def openWrite (s : State) (func : Nat) (t : State) : State := if !running s || decide (s.pcie.numVfs < func) then s else t

/-- A processor has been released: steps 3 to 6 begin when the step before has completed (R429). One whose image did not verify after a
watchdog reset is not (R434). -/
def released (s : State) (p : Proc) : Bool :=
  (s.anchor.state == 2 || s.anchor.state == 4) && !s.anchor.dead.contains p &&
  match p with
  | .management => decide (2 ≤ s.anchor.step)
  | .link n => decide (3 ≤ s.anchor.step) && decide (n < 18)
  | .frontEnd n => decide (4 ≤ s.anchor.step) && decide (n < Config.frontEnds)
  | .compute n => decide (5 ≤ s.anchor.step) && decide (n < Config.cores)

/-! ## Filters -/

def rotL11 (v n : Nat) : Nat := (v * 2 ^ n + v / 2 ^ (11 - n)) % 2 ^ 11
def rev11 (v : Nat) : Nat := (List.range 11).foldl (fun a i => a + (v / 2 ^ i % 2) * 2 ^ (10 - i)) 0

/-- The three hash bits of the sector that holds a physical address, R362. -/
def hashBits (pa : Nat) : Nat × Nat × Nat :=
  let s := pa / 64
  let c0 := bitsOf s 10 0
  let c1 := bitsOf s 21 11
  let c2 := bitsOf s 32 22
  let c3 := bitsOf s 43 33
  let c4 := bitsOf s 49 44
  (c0 ^^^ c1 ^^^ c2 ^^^ c3 ^^^ c4,
   rotL11 c0 4 ^^^ rotL11 c1 7 ^^^ c2 ^^^ rotL11 c3 1 ^^^ c4,
   rev11 c0 ^^^ c1 ^^^ rotL11 c2 5 ^^^ c3 ^^^ rotL11 c4 3)

/-- A filter with the bits of a sector set. -/
def filtAdd (f : BitVec 2048) (pa : Nat) : BitVec 2048 :=
  let h := hashBits pa
  f ||| BitVec.ofNat 2048 (2 ^ h.1) ||| BitVec.ofNat 2048 (2 ^ h.2.1) ||| BitVec.ofNat 2048 (2 ^ h.2.2)

/-- A sector matches when all three of its bits are set, R361. -/
def filtHas (f : BitVec 2048) (pa : Nat) : Bool :=
  let h := hashBits pa
  f.getLsbD h.1 && f.getLsbD h.2.1 && f.getLsbD h.2.2

def sigAdd (s : State) (c pa : Nat) : State := updCore s c fun x => { x with sigf := filtAdd x.sigf pa }

/-- The acquire of a core that took ACQF in this cycle: it takes what is recorded in the cycle, too (R365). -/
def acqNow (s : State) (c : Nat) : Option Nat := (s.acqs.find? fun a => a.core == c && a.cyc == s.now).map (·.id)

/-- A signature recorded in the ACQF of some cores (R360, R364, R365). -/
def acqRecord (s : State) (p : Nat → Bool) (f : BitVec 2048) : State :=
  let s' := updCores s fun c x => if p c && (acqNow s c).isNone then { x with acqf := x.acqf ||| f } else x
  { s' with acqs := s.acqs.map fun a => if p a.core && acqNow s a.core == some a.id then { a with filt := a.filt ||| f } else a }

/-- A write from outside the cores, or by the front end or a record engine: every core's ACQF records its sector first
(R364). -/
def acqAddAll (s : State) (pas : List Nat) : State := acqRecord s (fun _ => true) (pas.foldl filtAdd 0)

/-! ## The physical map, R295 -/

/-- Region of a physical address. -/
inductive PaKind where
  | dram (off : Nat)
  | host (off : Nat)
  | peer (win off : Nat)
  | door (off : Nat)
  | bad
  deriving DecidableEq, Repr

def paKind (pa : Nat) : PaKind :=
  match pa / 2 ^ 54 % 4 with
  | 0 => if pa % 2 ^ 54 < Config.dramBytes then .dram (pa % 2 ^ 54) else .bad
  | 1 => .host (pa % 2 ^ 54)
  | 2 => .peer (pa / 2 ^ 48 % 64) (pa % 2 ^ 48)
  | _ => if pa / 2 ^ 23 % 2 ^ 31 = 0 then .door (pa % 2 ^ 23) else .bad

def hostBacked (pa : Nat) : Bool := pa / 2 ^ 54 % 4 == 1
def isDram (pa : Nat) : Bool := match paKind pa with | .dram _ => true | _ => false

/-- Working ports of a window: named by PORTS and not down (R304, R306). -/
def winPorts (s : State) (n : Nat) : List Nat :=
  let a := tabGet 0#64 s.peers.rwina n
  (List.range 18).filter fun p => a.getLsbD (45 + p) && !(getPort s p).down

/-- The port on which an access to offset o of a window travels: its line's place among the working ports (R304). -/
def linePort (s : State) (n o : Nat) : Option Nat :=
  let ps := winPorts s n
  ps[o / 256 % ps.length]?

def updPort (s : State) (n : Nat) (f : LinkPort → LinkPort) : State :=
  { s with peers := { s.peers with ports := tabPut s.peers.ports n (f (getPort s n)) } }

/-- The port of a 256-byte line of a peer window. -/
def portOf (s : State) (line : Nat) : Option Nat :=
  match paKind (256 * line) with
  | .peer n o => linePort s n o
  | _ => none

/-- A port sends the flit of a request for a line and keeps it in its replay buffer; without room there it sends nothing, and a line
without a working port needs nothing sent (R306). -/
def sendFlit (s : State) (xid line : Nat) : Option State :=
  match portOf s line with
  | none => some s
  | some p =>
    if (getPort s p).sent.length < 128 then
      some (updPort s p fun x => { x with outSeq := x.outSeq + 1, sent := x.sent ++ [⟨x.outSeq, xid, line⟩] })
    else none

/-- Requests that have waited for room are sent in the order of their identifiers. -/
def drainUnsent (s : State) : State :=
  s.peers.unsent.foldl (fun s x => match sendFlit s x.1 x.2 with
    | some t => t
    | none => { s with peers := { s.peers with unsent := s.peers.unsent ++ [x] } }) { s with peers := { s.peers with unsent := [] } }

/-- A request for a line of a peer window, under a transaction identifier of its own; one that finds no room is sent when there is some. -/
def sendReq (s : State) (line : Nat) : State :=
  let id := s.peers.xid
  let s : State := { s with peers := { s.peers with xid := id + 1 } }
  match sendFlit s id line with
  | some t => t
  | none => { s with peers := { s.peers with unsent := s.peers.unsent ++ [(id, line)] } }

/-- Equal neighbours of a list counted once. -/
def runsOf : List Nat → List Nat
  | [] => []
  | x :: xs => match runsOf xs with
    | [] => [x]
    | y :: ys => if x = y then y :: ys else x :: y :: ys

/-- The line of a peer window that a byte lies in. -/
def peerLine (l : Loc) : Option Nat :=
  match l with
  | .glob pa _ => if pa / 2 ^ 54 % 4 = 2 then some (pa / 256) else none
  | _ => none

/-- The 64-byte sector of L2 that a byte lies in, those of the plaza numbered from 2^60. -/
def l2Sector (l : Loc) : Option Nat :=
  match l with
  | .glob pa mt => if mt ≠ 2 && decide (pa / 2 ^ 54 % 4 < 2) then some (pa / 64) else none
  | .plaza o => some (2 ^ 60 + o / 64)
  | .scr _ _ => none

/-- Bytes of one access leave a core: an access for each sector of L2 (event 0x03 of R417; log entry 48), a request for each line of a
peer window. -/
def noteOut (s : State) (c : Nat) (ls : List Loc) : State :=
  let s := if s.obs.evsel = 0 then s else countEv s c 0x03 (runsOf (ls.filterMap l2Sector)).length
  (runsOf (ls.filterMap peerLine)).foldl sendReq s

/-- A window's length in bytes, and whether an access to offset o of it can be made (R302, R295, R306). -/
def winOk (s : State) (n o : Nat) : Bool :=
  let a := tabGet 0#64 s.peers.rwina n
  let b := tabGet 0#64 s.peers.rwinb n
  a.getLsbD 63 && decide (o < (b.extractLsb' 26 9).toNat * 2 ^ 30) && !(winPorts s n).isEmpty

/-- The peer byte that a window offset names: node and local-DRAM offset (R303). -/
def peerKey (s : State) (n o : Nat) : Nat :=
  let a := tabGet 0#64 s.peers.rwina n
  let b := tabGet 0#64 s.peers.rwinb n
  (a.extractLsb' 33 12).toNat * 2 ^ 40 + (b.extractLsb' 0 26).toNat * 2 ^ 30 + o

def getFar (s : State) (node : Nat) : FarPeer := tabGet farReset s.peers.far node

/-- The peer accepts a request of this module for `n` bytes at a window offset (R305). -/
def peerTakes (s : State) (w o n : Nat) : Bool :=
  let k := peerKey s w o
  let x := getFar s (k / 2 ^ 40)
  decide (x.lo ≤ k % 2 ^ 40) && decide (k % 2 ^ 40 + n ≤ x.hi)

/-- A failed region holds the L2 slice or the memory interface of an address (R93). Which region does is a free value of
`Config`, looked at only once some region has failed. -/
def anyLost (s : State) : Bool := s.supply.regions.any fun e => e.2.failed && decide (192 ≤ e.1)

def homeLost (s : State) (pa : Nat) : Option Nat :=
  if !anyLost s then none
  else if (getRegion s (Config.sliceRegion (pa / 256))).failed then some (Config.sliceRegion (pa / 256))
  else if isDram pa && (getRegion s (Config.memRegion (pa / 256))).failed then some (Config.memRegion (pa / 256))
  else none

def plazaLost (s : State) (o : Nat) : Option Nat :=
  if !anyLost s then none
  else if (getRegion s (Config.sliceRegionOf (o / 256 % 256))).failed then some (Config.sliceRegionOf (o / 256 % 256))
  else none

/-! ## L2 -/

/-- The byte that L2 and, below it, DRAM or the host hold. -/
def l2Byte (s : State) (pa : Nat) : Byte :=
  match tabFind s.l2 pa with
  | some (_, b) => b
  | none => memRead s.mem pa

/-- Reading a host-backed byte at L2 keeps a clean copy of its sector (R241). -/
def l2Fill (s : State) (pa : Nat) : State :=
  if hostBacked pa then
    { s with l2 := (List.range 64).foldl (fun l i =>
        let a := pa / 64 * 64 + i
        match tabFind l a with
        | some _ => l
        | none => tabPut l a (false, memRead s.mem a)) s.l2 }
  else s

/-- The bytes of a page among those of a table, by address. -/
def pageOf {α : Type} (t : List (Nat × α)) (page : Nat) : List (Nat × α) := t.filter fun e => e.1 / 4096 == page

/-- A page is saved as it stands in L2, or in the plaza (pages from 2^57 / 4096 on), before a replay's first write to it (R424). -/
def savePage (s : State) (page : Nat) : State :=
  let put := fun (m : List (Nat × Byte)) (es : List (Nat × Byte)) => es.foldl (fun m e => memWrite m e.1 e.2) m
  { s with obs := { s.obs with
    rpages := s.obs.rpages ++ [page]
    rmem := if page < 2 ^ 45 then put (put s.obs.rmem (pageOf s.mem page)) ((pageOf s.l2 page).map fun e => (e.1, e.2.2)) else s.obs.rmem
    rplaza := if page < 2 ^ 45 then s.obs.rplaza else put s.obs.rplaza (pageOf s.plaza (page - 2 ^ 45)) } }

/-- Replay keeps track of the local pages and of the host and peer writes of its launches in a pass (R424). -/
def noteWrite (s : State) (key : Nat) (outside : Bool) : State :=
  if !s.obs.racts then s
  else if outside then { s with obs := { s.obs with rplstat := s.obs.rplstat ||| 8#32 } }
  else if s.obs.rpages.contains (key / 4096) then s
  else savePage s (key / 4096)

/-- A write performed at L2: the byte is dirty there. -/
def l2Put (s : State) (pa : Nat) (b : Byte) : State :=
  let s := noteWrite s pa (hostBacked pa)
  { s with l2 := tabPut s.l2 pa (true, b) }

/-- A write to host memory that also updates an L2 copy, which is then clean (R438). -/
def hostPut (s : State) (pa : Nat) (b : Byte) : State :=
  let s := noteWrite s pa true
  { s with mem := memWrite s.mem pa b,
           l2 := match tabFind s.l2 pa with | some _ => tabPut s.l2 pa (false, b) | none => s.l2 }

/-- L2 writes back the dirty bytes that `p` selects, and drops its clean copies of them (R241). -/
def l2WriteBack (s : State) (p : Nat → Bool) : State :=
  { s with mem := s.l2.foldl (fun m e => if p e.1 && e.2.1 then memWrite m e.1 e.2.2 else m) s.mem,
           l2 := s.l2.filter fun e => !p e.1 }

/-- L2 cleans the host bytes that are dirty (a release at .sys, R360). -/
def l2CleanHost (s : State) : State :=
  { s with mem := s.l2.foldl (fun m e => if hostBacked e.1 && e.2.1 then memWrite m e.1 e.2.2 else m) s.mem,
           l2 := s.l2.map fun e => if hostBacked e.1 then (e.1, (false, e.2.2)) else e }

/-! ## L1 -/

/-- Fetch the missing bytes of a line from L2 (R239). -/
def l1Fill (s : State) (c pa : Nat) : State :=
  let s := noteOut (countEv (l2Fill s pa) c 0x01 1) c [.glob pa 0]
  updCore s c fun x => { x with l1 := (List.range 64).foldl (fun l i =>
    let a := pa / 64 * 64 + i
    match tabFind l a with
    | some _ => l
    | none => tabPut l a (false, l2Byte s a)) x.l1 }

def l1Find (s : State) (c pa : Nat) : Option (Bool × Byte) := tabFind (getCore s c).l1 pa

/-- A release of the core takes this byte, which a store makes dirty: in the release's own cycle S the byte joins those taken; later it
stays dirty for the next release (R360). -/
def relStore (r : Release) (now pa : Nat) (b : Byte) : Release :=
  if r.cyc = now then { r with bytes := (pa, b) :: r.bytes.filter (fun e => e.1 != pa), sig := filtAdd r.sig pa }
  else if r.bytes.any (fun e => e.1 == pa) && !r.again.contains pa then { r with again := pa :: r.again }
  else r

/-- A store of scope .core: the byte is valid and dirty, and its sector enters SIGF (R239, R359), or the signature of a release that takes
it (R360). -/
def l1Store (s : State) (c pa : Nat) (b : Byte) : State :=
  let s := updCore (noteWrite s pa (hostBacked pa)) c fun x => { x with l1 := tabPut x.l1 pa (true, b) }
  if s.rels.any (fun r => r.core == c) then
    let t : State := { s with rels := s.rels.map fun r => if r.core == c then relStore r s.now pa b else r }
    if s.rels.any (fun r => r.core == c && r.cyc == s.now) then t else sigAdd t c pa
  else sigAdd s c pa

/-- A byte that reaches L2 by another way leaves the bytes that a release of the core still has to write back. -/
def relDrop (s : State) (c pa : Nat) : State :=
  if s.rels.isEmpty then s
  else { s with rels := s.rels.map fun r => if r.core == c then { r with bytes := r.bytes.filter fun e => e.1 != pa } else r }

/-- Drop the clean bytes that `p` selects from a core's L1. -/
def l1DropClean (s : State) (c : Nat) (p : Nat → Bool) : State :=
  updCore s c fun x => { x with l1 := x.l1.filter fun e => e.2.1 || !p e.1 }

/-- Write back the dirty bytes that `p` selects, under their masks (R240); they become clean. -/
def l1WriteBack (s : State) (c : Nat) (p : Nat → Bool) : State :=
  let ds := (getCore s c).l1.filter fun e => e.2.1 && p e.1
  let s := ds.foldl (fun s e => relDrop { s with l2 := tabPut s.l2 e.1 (true, e.2.2) } c e.1) s
  countEv (updCore s c fun x => { x with l1 := x.l1.map fun e => if p e.1 then (e.1, (false, e.2.2)) else e }) c 0x02
    (linesOf (ds.map (·.1)))

/-- The byte that a core's engine or a scoped load reads at L2, its own dirty L1 byte winning (R260, R277). -/
def ownByte (s : State) (c pa : Nat) : Byte :=
  match l1Find s c pa with
  | some (true, b) => b
  | _ => l2Byte s pa

/-! ## One byte at each scope, R233, R260, R438 -/

/-- A clean L1 copy of a byte that the core has just read below it is dropped: a later .core load may not go back in L2's order (R358). -/
def dropStale (s : State) (c pa : Nat) : State :=
  updCore s c fun x => { x with l1 := match tabFind x.l1 pa with
    | some (false, _) => tabErase x.l1 pa
    | _ => x.l1 }

/-- Read one global byte. The fetch of a line and the clean copies of host sectors are part of the result. -/
def readGlob (s : State) (c : Nat) (scope : Scope) (mt pa : Nat) : State × Byte :=
  match paKind pa with
  | .peer n o => (s, memRead s.peers.mem (peerKey s n o))
  | _ =>
    if mt = 2 then (s, memRead s.mem pa)
    else if scope = .sys && hostBacked pa then
      match l1Find s c pa, tabFind s.l2 pa with
      | some (true, b), _ => (s, b)
      | _, some (true, b) => (dropStale s c pa, b)
      | _, _ => (dropStale s c pa, memRead s.mem pa)
    else if mt = 1 then (dropStale (l2Fill s pa) c pa, l2Byte s pa)
    else if scope = .core then
      let s := match l1Find s c pa with | some _ => s | none => l1Fill s c pa
      (s, match l1Find s c pa with | some (_, b) => b | none => l2Byte s pa)
    else
      (dropStale (l2Fill s pa) c pa, ownByte s c pa)

/-- Write one global byte. -/
def writeGlob (s : State) (c : Nat) (scope : Scope) (mt pa : Nat) (b : Byte) : State :=
  match paKind pa with
  | .peer n o =>
    let s := noteWrite s pa true
    { s with peers := { s.peers with mem := memWrite s.peers.mem (peerKey s n o) b } }
  | _ =>
    if mt = 2 then
      let s := noteWrite s pa true
      { s with mem := memWrite s.mem pa b }
    else if scope = .core && mt = 0 then l1Store s c pa b
    else
      let s := if scope = .sys && hostBacked pa then hostPut s pa b else l2Put s pa b
      let s := if mt = 0 then updCore s c fun x => { x with l1 := match tabFind x.l1 pa with
        | some _ => tabPut x.l1 pa (false, b)
        | none => x.l1 } else s
      sigAdd (relDrop s c pa) c pa

/-! ## Scratchpad and plaza -/

def scrByte (s : State) (t o : Nat) : Byte :=
  match tabFind s.teams t with
  | some x => memRead x.scr o
  | none => memDefault

/-- The tag of a scratchpad granule (R242). -/
def scrTag (s : State) (t g : Nat) : BitVec 3 :=
  match tabFind s.teams t with
  | some x => tabGet 0#3 x.tags g
  | none => 0

/-- Write one scratchpad byte; its granule becomes untagged (a plain store, R242). -/
def scrPut (s : State) (t o : Nat) (b : Byte) : State :=
  match tabFind s.teams t with
  | some x => { s with teams := tabPut s.teams t { x with scr := memWrite x.scr o b, tags := tabErase x.tags (o / 1024) } }
  | none => s

/-- Write scratchpad bytes as an engine or accumulator store with layout code c: a granule wholly covered takes c; one partly
covered keeps c if it has it and becomes untagged otherwise (R242). -/
def scrPutAll (s : State) (t : Nat) (bs : List (Nat × Byte)) (c : BitVec 3) : State :=
  match tabFind s.teams t with
  | some x =>
    let gs := (bs.map fun e => e.1 / 1024).eraseDups
    let whole := fun g => (List.range 1024).all fun i => bs.any fun e => e.1 == g * 1024 + i
    let tag := fun g => if c == 0 then 0#3 else if whole g then c else if tabGet 0#3 x.tags g == c then c else 0#3
    let tags := gs.foldl (fun m g => if tag g == 0 then tabErase m g else tabPut m g (tag g)) x.tags
    { s with teams := tabPut s.teams t { x with scr := bs.foldl (fun m e => memWrite m e.1 e.2) x.scr, tags := tags } }
  | none => s

def readLoc (s : State) (c : Nat) (scope : Scope) (l : Loc) : State × Byte :=
  match l with
  | .scr t o => (s, scrByte s t o)
  | .plaza o => (s, memRead s.plaza o)
  | .glob pa mt => readGlob s c scope mt pa

def writeLoc (s : State) (c : Nat) (scope : Scope) (l : Loc) (b : Byte) : State :=
  match l with
  | .scr t o => scrPut s t o b
  | .plaza o =>
    let s := noteWrite s (2 ^ 57 + o) false
    { s with plaza := memWrite s.plaza o b }
  | .glob pa mt => writeGlob s c scope mt pa b

/-- Read bytes at a list of places. -/
def readLocs (s : State) (c : Nat) (scope : Scope) : List Loc → State × List Byte
  | [] => (s, [])
  | l :: ls =>
    let r := readLoc s c scope l
    let q := readLocs r.1 c scope ls
    (q.1, r.2 :: q.2)

/-- Write bytes at a list of places. -/
def writeLocs (s : State) (c : Nat) (scope : Scope) : List Loc → List Byte → State
  | l :: ls, b :: bs => writeLocs (writeLoc s c scope l b) c scope ls bs
  | _, _ => s

/-- A byte written at a peer meets the injection armed there (R308): it reaches the peer's CRC and L2 with one bit inverted, ARM
clears and FIRED sets. -/
def farByte (s : State) (l : Loc) (b : Byte) : State × Byte :=
  match l with
  | .glob pa _ =>
    (match paKind pa with
    | .peer n o =>
      let k := peerKey s n o
      let x := getFar s (k / 2 ^ 40)
      if x.vlinj.getLsbD 63 && decide ((x.vlinj.extractLsb' 0 39).toNat = k % 2 ^ 40) then
        let x' : FarPeer := ⟨x.lo, x.hi, (x.vlinj &&& 0x7FFFFFFFFFFFFFFF#64) ||| 0x4000000000000000#64⟩
        ({ s with peers := { s.peers with far := tabPut s.peers.far (k / 2 ^ 40) x' } },
          b ^^^ BitVec.ofNat 8 (2 ^ (x.vlinj.extractLsb' 39 3).toNat))
      else (s, b)
    | _ => (s, b))
  | _ => (s, b)

/-- The bytes of a store or of a copy as the interface of the peer hands them on (R308). Atomics pass it unchanged. -/
def farBytes (s : State) : List (Loc × Byte) → State × List (Loc × Byte)
  | [] => (s, [])
  | w :: ws =>
    let r := farByte s w.1 w.2
    let q := farBytes r.1 ws
    (q.1, (w.1, r.2) :: q.2)

/-! ## Translation -/

/-- Why a walk stops: an access violation, a hardware error where a descriptor lies on a failed region (log entry 113), or a translation
fault of stage 2 (true) or stage 1 at a page (R246, R250). -/
inductive WErr where
  | acv
  | hwe (region : Nat)
  | fault (s2 : Bool) (page : Nat)
  deriving DecidableEq, Repr

/-- What a walk of one stage gives: output address, memory type, permissions, log2 of the leaf size. -/
structure Leaf where
  out : Nat
  mt  : Nat
  r   : Bool
  w   : Bool
  x   : Bool
  lg  : Nat
  deriving DecidableEq, Repr

/-- Low index bit, index width and table alignment of a level; `t3` marks the 32-entry table of 64 KiB pages (R246). -/
def levelOf (level : Nat) (t3 : Bool) : Nat × Nat × Nat :=
  match level with
  | 0 => (45, 12, 15)
  | 1 => (30, 15, 18)
  | 2 => (21, 9, 12)
  | _ => if t3 then (16, 5, 12) else (12, 9, 12)

/-- TYPE codes allowed at a level (R246). -/
def typeOk (level ty : Nat) : Bool :=
  match level with
  | 0 => ty == 2
  | 1 => ty == 1 || ty == 2
  | 2 => ty == 1 || ty == 2 || ty == 3
  | _ => ty == 1

/-- What a step of a walk gives, beside the entries that the walk has left in the caches (R247). -/
abbrev Walked (α : Type) := List TlbEnt × Except WErr α

/-- Walk the tables of one stage from a level, reading descriptors through `rd` (R245, R246). Each table address found is kept as a partial
walk, also when the walk then stops (R247). -/
def walkFrom (rd : List TlbEnt → Nat → Walked Nat) (s2 : Bool) (f pasid va : Nat) :
    Nat → Nat → Bool → Nat → List TlbEnt → Walked Leaf
  | 0, _, _, _, t => (t, .error (.fault s2 (va / 4096 * 4096)))
  | fuel + 1, level, t3, table, t =>
    let p := levelOf level t3
    let idx := va / 2 ^ p.1 % 2 ^ p.2.1
    match rd t (table / 2 ^ p.2.2 * 2 ^ p.2.2 + 8 * idx) with
    | (t, .error e) => (t, .error e)
    | (t, .ok d) =>
      let ty := d % 4
      let oa := bitsOf d 55 12 * 4096
      if !typeOk level ty then (t, .error (.fault s2 (va / 4096 * 4096)))
      else if ty = 1 then
        if bitsOf d 7 6 = 3 then (t, .error .acv)
        else (t, .ok ⟨oa / 2 ^ p.1 * 2 ^ p.1 + va % 2 ^ p.1, bitsOf d 7 6, d.testBit 3, d.testBit 4, d.testBit 5, p.1⟩)
      else walkFrom rd s2 f pasid va fuel (level + 1) (ty == 3) oa
        (⟨s2, f, pasid, p.1, va / 2 ^ p.1, oa, 0, false, false, false, some (level + 1, ty == 3)⟩ :: t)

/-- A descriptor at a physical address, read through L2; not read in a peer window, in the doorbell region or beyond local DRAM (R247),
nor where its slice or memory interface has failed (R93; log entry 113). -/
def descAt (s : State) (pa : Nat) : Except WErr Nat :=
  if !(isDram pa || hostBacked pa) then .error .acv
  else match homeLost s pa with
    | some r => .error (.hwe r)
    | none => .ok (leNat ((List.range 8).map fun i => l2Byte s (pa + i)))

/-- A cached entry serves an input of a stage. -/
def entServes (e : TlbEnt) (s2 : Bool) (f p va : Nat) : Bool :=
  e.s2 == s2 && e.func == f && (s2 || e.pasid == p) && e.tag == va / 2 ^ e.lg

/-- The cached leaf of an input. -/
def tlbHit (t : List TlbEnt) (s2 : Bool) (f p va : Nat) : Option TlbEnt := t.find? fun e => e.lvl.isNone && entServes e s2 f p va

/-- The deepest cached table of an input: level, whether it is a table of 64 KiB pages, address (R247). -/
def tableHit (t : List TlbEnt) (s2 : Bool) (f p va : Nat) : Option (Nat × Bool × Nat) :=
  t.foldl (fun best e => match e.lvl with
    | some (n, t3) =>
      if entServes e s2 f p va && (match best with | some b => decide (b.1 < n) | none => true) then some (n, t3, e.out) else best
    | none => best) none

def entLeaf (e : TlbEnt) (va : Nat) : Leaf := ⟨e.out + va % 2 ^ e.lg, e.mt, e.r, e.w, e.x, e.lg⟩

def leafEnt (s2 : Bool) (f p va : Nat) (l : Leaf) : TlbEnt :=
  ⟨s2, f, p, l.lg, va / 2 ^ l.lg, l.out - va % 2 ^ l.lg, l.mt, l.r, l.w, l.x, none⟩

/-- Stage 2 of a function, the cached leaf first (R244, R248). With EN = 0 the IPA is the physical address. -/
def stage2 (s : State) (f : Nat) (tlb : List TlbEnt) (ipa : Nat) : Walked Leaf :=
  let root := (getFunc s f).s2root
  if !root.getLsbD 0 then (tlb, .ok ⟨ipa, 0, true, true, true, 12⟩)
  else match tlbHit tlb true f 0 ipa with
    | some e => (tlb, .ok (entLeaf e ipa))
    | none =>
      let at' := (tableHit tlb true f 0 ipa).getD (0, false, (root.extractLsb' 15 41).toNat * 2 ^ 15)
      match walkFrom (fun t a => (t, descAt s a)) true f 0 ipa (4 - at'.1) at'.1 at'.2.1 at'.2.2 tlb with
      | (t, .error e) => (t, .error e)
      | (t, .ok l) => (leafEnt true f 0 ipa l :: t, .ok l)

/-- A stage-1 descriptor, whose address is an IPA that stage 2 must map readable (R247). -/
def desc1 (s : State) (f : Nat) (tlb : List TlbEnt) (ipa : Nat) : Walked Nat :=
  match stage2 s f tlb ipa with
  | (t, .error e) => (t, .error e)
  | (t, .ok l) => (t, if !l.r then .error .acv else descAt s l.out)

/-- Where the walk of stage 1 begins: the deepest cached table, else the level-0 table that the PASID table's entry names (R244). -/
def start1 (s : State) (f p : Nat) (tlb : List TlbEnt) (va : Nat) : Walked (Nat × Bool × Nat) :=
  match tableHit tlb false f p va with
  | some x => (tlb, .ok x)
  | none =>
    let ptab := (getFunc s f).ptab
    if (ptab.extractLsb' 0 12).toNat * 512 ≤ p then (tlb, .error .acv)
    else match desc1 s f tlb ((ptab.extractLsb' 12 44).toNat * 4096 + 8 * p) with
      | (t, .error e) => (t, .error e)
      | (t, .ok d) =>
        if d % 4 ≠ 2 then (t, .error .acv)
        else (⟨false, f, p, 57, va / 2 ^ 57, bitsOf d 55 12 * 4096, 0, false, false, false, some (0, false)⟩ :: t,
          .ok (0, false, bitsOf d 55 12 * 4096))

/-- Stage 1 of an address space: the PASID table's entry (R244), then four levels. -/
def stage1 (s : State) (f p : Nat) (tlb : List TlbEnt) (va : Nat) : Walked Leaf :=
  match tlbHit tlb false f p va with
  | some e => (tlb, .ok (entLeaf e va))
  | none =>
    match start1 s f p tlb va with
    | (t, .error e) => (t, .error e)
    | (t, .ok at') =>
      match walkFrom (fun t a => desc1 s f t a) false f p va (4 - at'.1) at'.1 at'.2.1 at'.2.2 t with
      | (t, .error e) => (t, .error e)
      | (t, .ok l) => (leafEnt false f p va l :: t, .ok l)

/-- The caches after a walk. The fault count of a stage and page through which a walk has succeeded is zero again (R251). -/
def walked (s : State) (f : Nat) (t : List TlbEnt) : State :=
  if s.faults.isEmpty then { s with tlb := t }
  else { s with tlb := t, faults := s.faults.filter fun x =>
    !(x.1.1 == f && (tlbHit t x.1.2.2.2 f x.1.2.1 x.1.2.2.1).isSome) }

/-- Both stages: the physical address, memory type and permissions of a 57-bit virtual address (R246, R247). -/
def translate (s : State) (f p va : Nat) : State × Except WErr Leaf :=
  match stage1 s f p s.tlb va with
  | (t1, .error e) => (walked s f t1, .error e)
  | (t1, .ok l1) =>
    match stage2 s f t1 l1.out with
    | (t2, .error e) => (walked s f t2, .error e)
    | (t2, .ok l2) =>
      (walked s f t2, .ok ⟨l2.out, max l1.mt l2.mt, l1.r && l2.r, l1.w && l2.w, l1.x && l2.x, min l1.lg l2.lg⟩)

/-- The cached leaves do not translate the address: a walk begins (event 0x04 of R417). -/
def walkBegins (s : State) (f p va : Nat) : Bool :=
  match tlbHit s.tlb false f p va with
  | none => true
  | some e => (getFunc s f).s2root.getLsbD 0 && (tlbHit s.tlb true f 0 (entLeaf e va).out).isNone

/-- The leaves allow a kind of access; an atomic reads and writes (R246). -/
def leafAllows (l : Leaf) (k : AccKind) : Bool :=
  match k with
  | .read => l.r
  | .write => l.w
  | .fetch => l.x
  | .atomic => l.r && l.w

/-- How an element's walk ends: a place, an access violation, a hardware error (R93), a translation fault, or a page that the
host's translation service gives no access to (R301). -/
inductive ElemRes where
  | at' (pa mt : Nat)
  | acv
  | hwe (region : Nat)
  | fault (s2 : Bool) (page : Nat)
  | ask (page : Nat)
  deriving DecidableEq, Repr

/-! ## Queues, crossings and graphs, R34 -/

/-- A queue, a crossing and a graph at reset (R32, R33, R41, R45, R49). -/
def queueReset : Queue := ⟨0, 4, 0, 0, 0, 0, false, false, 0, false, 0, 0, 0, none, false, []⟩
def xingReset : Crossing := ⟨false, false, 0, 0, 0, 0⟩
def graphReset : Graph := ⟨0, 0, 0, 0, 0, 0, 0xF, false, false, false, 0, [], none, false, [], 0⟩

def getQueue (s : State) (q : Nat) : Queue := tabGet queueReset s.queues q
def setQueue (s : State) (q : Nat) (x : Queue) : State := { s with queues := tabPut s.queues q x }
def updQueue (s : State) (q : Nat) (f : Queue → Queue) : State := setQueue s q (f (getQueue s q))
def getXing (s : State) (x : Nat) : Crossing := tabGet xingReset s.xings x
def setXing (s : State) (x : Nat) (c : Crossing) : State := { s with xings := tabPut s.xings x c }
def updXing (s : State) (x : Nat) (f : Crossing → Crossing) : State := setXing s x (f (getXing s x))
def getGraph (s : State) (g : Nat) : Graph := tabGet graphReset s.graphs g
def setGraph (s : State) (g : Nat) (x : Graph) : State := { s with graphs := tabPut s.graphs g x }
def updGraph (s : State) (g : Nat) (f : Graph → Graph) : State := setGraph s g (f (getGraph s g))

/-- The page of a doorbell offset is live for a function (R34, R297). -/
def doorLive (s : State) (func o : Nat) : Bool :=
  if o < 2 ^ 22 then (getQueue s (o / 4096)).owner == func else (getGraph s (o / 4096 - 1024)).gown == func

/-- A function may use a host page's translation: its ATS is off, or it holds the translation (R301). -/
def atsHeld (s : State) (f page : Nat) : Bool :=
  !(getFunc s f).ats || s.pcie.atc.contains (f, page) || s.pcie.grants.contains (f, page)

/-- What the physical regions accept (R295, R303, R305): `n` bytes of kind `k` at a physical address under memory type `mt`. A store to
a doorbell page that is not live is not accepted; a load of one reads as zero (R295, R297). With ATS a host page whose translation is not
held is asked for (R301). -/
def paCheck (s : State) (f : Nat) (k : AccKind) (n pa mt : Nat) : ElemRes :=
  match paKind pa with
  | .dram _ => if mt = 2 then .acv else match homeLost s pa with | some r => .hwe r | none => .at' pa mt
  | .host o =>
    if k = .fetch && mt = 2 then .acv
    else if atsHeld s f (o / 4096) then
      match (if mt = 2 then none else homeLost s pa) with | some r => .hwe r | none => .at' pa mt
    else .ask (o / 4096)
  | .peer w o => if k = .fetch || mt = 2 || !winOk s w o || !peerTakes s w o n then .acv else .at' pa (max mt 1)
  | .door o => if (k = .read || k = .write && doorLive s f o) && (n = 4 || n = 8) && o % n = 0 then .at' pa 2 else .acv
  | .bad => .acv

/-- One element of an access: both stages, permissions, then the physical region (R246, R295). The ATC keeps a page the host
grants. -/
def walkElem (s : State) (f p : Nat) (k : AccKind) (n va : Nat) : State × ElemRes :=
  match translate s f p (va % 2 ^ 57) with
  | (s, .error .acv) => (s, .acv)
  | (s, .error (.hwe r)) => (s, .hwe r)
  | (s, .error (.fault s2 page)) => (s, .fault s2 page)
  | (s, .ok l) =>
    if !leafAllows l k then (s, .acv)
    else
      let r := paCheck s f k n l.out l.mt
      match r, paKind l.out with
      | .at' _ _, .host o =>
        ((if (getFunc s f).ats && !s.pcie.atc.contains (f, o / 4096) then
            { s with pcie := { s.pcie with atc := (f, o / 4096) :: s.pcie.atc } } else s), r)
      | _, _ => (s, r)

/-- A byte of local DRAM or of the host that the device reaches on its own behalf: no failed region holds it (R93), and a host page is
held or the host gives access to it as it is asked (R301), on a port that is up (R300; log entries 103, 113). -/
def ownReach (s : State) (f mt pa : Nat) : Bool :=
  (isDram pa && mt != 2 && (homeLost s pa).isNone) ||
  (hostBacked pa && (mt == 2 || (homeLost s pa).isNone) && hostUp s f mt pa &&
    (atsHeld s f (pa % 2 ^ 54 / 4096) || Config.atsGives f (pa % 2 ^ 54 / 4096) s.now))

/-- A front-end access: translated without a page request; `none` when it cannot be made (R26), for an address outside the global space
(R232; log entry 86), and for one whose home is lost to a failed region (R93; log entry 113). -/
def frontPlace (s : State) (f p : Nat) (k : AccKind) (va : Nat) : Option Nat :=
  if 2 ^ 57 ≤ va then none
  else match (translate s f p va).2 with
  | .ok l => if leafAllows l k && ownReach s f l.mt l.out then some l.out else none
  | .error _ => none

/-- An address that stage 2 alone translates (R402, R407, R419). -/
def s2Place (s : State) (f : Nat) (write : Bool) (ipa : Nat) : Option Nat :=
  match (stage2 s f s.tlb ipa).2 with
  | .ok l => if (if write then l.w else l.r) && ownReach s f 0 l.out then some l.out else none
  | .error _ => none

/-- Read bytes for the front end, page by page; `none` when some byte is unreadable (R26). -/
def frontRead (s : State) (f p va n : Nat) : Option (List Byte) :=
  (List.range n).foldr (fun i acc =>
    match acc, frontPlace s f p .read ((va + i) % 2 ^ 64) with
    | some bs, some pa => some (l2Byte s pa :: bs)
    | _, _ => none) (some [])

/-- A write at system scope by the front end or a record engine: recorded in every ACQF, then performed at L2, or at the host
for host-backed bytes (R364, R438). -/
def sysPut (s : State) (pa : Nat) (bs : List Byte) : State :=
  let s := acqAddAll s ((List.range ((pa % 64 + bs.length + 63) / 64)).map fun i => pa / 64 * 64 + 64 * i)
  (List.range bs.length).foldl (fun s i =>
    let b := bs.getD i 0
    if hostBacked (pa + i) then hostPut s (pa + i) b else l2Put s (pa + i) b) s

end Sys2Proof.Machine
end

