-- ==== Sys2Proof/Machine/Ops.lean ====
section
/-! DEFINITION. The named operations on groups, teams and launches: registers (R146, R116), windows (R232 to R238), records
(R402 to R404), rejoin registers (R148), taking an exception (R391 to R396) with the return from one (R400), and the end of a
grid by a fatal fault (R405). -/

namespace Sys2Proof.Machine

/-! ## What an unlisted group, team or launch stands for -/

/-- A group as it is committed, before its launch's attributes are filled in (R137, R146). -/
def groupReset : Group :=
  ⟨0, 0, 0, 0, 0, 0, [], [], [], [], [], [], [], [], [], [], [], 0, false, false, 0, 0, 0, false, 0, 0, 0, none, none, .pending,
    0, 0, false, [], 0, [], [], ⟨2, -8⟩, ⟨2, -8⟩, ⟨2, -8⟩, none, false, [], [], none⟩

/-- A team as it is committed (R234, R235, R242, R273, R278, R329). -/
def teamReset : Team :=
  ⟨0, 0, [], .resident, 0, none, [], [], 0, BitVec.allOnes 64, 0, [], 0, [], [], false, false, false, none, none, [], false, [], none⟩

def launchReset : Launch :=
  ⟨.packet 0 0 0 0, 0, 0, 0, 1, 0, 0, .handed, 0, 0, none, 0, 0, 0, 0, 0, 0, 0, 0, 0, 0, 0, 0, 0, false, false, 0, 0, 0, 0, 0, 0,
    [], [], false, 0, 0, 0, 0, 0, false, none, 0, false, none, false, false, false, false, 0⟩

def getGroup (s : State) (k : Nat) : Group := tabGet groupReset s.groups k
def setGroup (s : State) (k : Nat) (g : Group) : State := { s with groups := tabPut s.groups k g }
def updGroup (s : State) (k : Nat) (f : Group → Group) : State := setGroup s k (f (getGroup s k))
def getTeam (s : State) (t : Nat) : Team := tabGet teamReset s.teams t
def setTeam (s : State) (t : Nat) (x : Team) : State := { s with teams := tabPut s.teams t x }
def updTeam (s : State) (t : Nat) (f : Team → Team) : State := setTeam s t (f (getTeam s t))
def getLaunch (s : State) (l : Nat) : Launch := tabGet launchReset s.launches l
def setLaunch (s : State) (l : Nat) (x : Launch) : State := { s with launches := tabPut s.launches l x }
def updLaunch (s : State) (l : Nat) (f : Launch → Launch) : State := setLaunch s l (f (getLaunch s l))

/-- The key of group `gidx` of a team: a team has at most 96 groups (R11, R12). -/
def groupKey (team gidx : Nat) : Nat := 96 * team + gidx
def teamOf (s : State) (k : Nat) : Team := getTeam s (getGroup s k).team
def launchOf (s : State) (k : Nat) : Launch := getLaunch s (teamOf s k).launch

/-- The core that holds a group, by its slot (96 slots a core, R137); a group off its core answers the core it left. -/
def coreOf (s : State) (k : Nat) : Nat :=
  match (getGroup s k).slot with
  | some x => x / 96
  | none => (((getGroup s k).away).map (·.1)).getD (((teamOf s k).cores).headD 0)

def laneBit (l : Nat) : Lanes := BitVec.ofNat 32 (2 ^ l)

/-- Lanes that can be served: a thread, not exited, not parked, not held at a REJOIN (R144). -/
def eligible (g : Group) : Lanes :=
  g.live &&& ~~~ g.exited &&& ~~~ g.parked &&& ~~~ (g.rejoin.foldl (fun m e => m ||| e.2.arr) 0)

def pcOf (g : Group) (l : Nat) : DWord := tabGet 0 g.pc l
def setPc (g : Group) (l : Nat) (a : DWord) : Group := { g with pc := tabPut g.pc l a }
/-- Move a set of lanes to one address. -/
def setPcs (g : Group) (m : Lanes) (a : DWord) : Group :=
  { g with pc := (lanesOf m).foldl (fun t l => tabPut t l a) g.pc }

/-! ## Registers -/

def vGet (g : Group) (l n : Nat) : Word := tabGet 0 g.vreg (256 * l + n)
def pGet (g : Group) (l p : Nat) : Bool := if p = 0 then true else tabGet false g.pred (16 * l + p)
def xGet (g : Group) (l i : Nat) : Word := tabGet 0 g.xreg (8 * l + i)
/-- A uniform register at or above SREGS reads as zero (R146). -/
def sGet (sregs : Nat) (g : Group) (n : Nat) : Word := if n < sregs then tabGet 0 g.sreg n else 0
def jGet (g : Group) (j : Nat) : Rejoin := tabGet ⟨0, 0, 0⟩ g.rejoin j
def tGet (g : Group) (t : Nat) : TileReg := tabGet ⟨0, 0, 0, 0, 0, 0, 0, 0, 0⟩ g.tile t
/-- Element e of accumulator tile a of the group (R152: e = 16 i + j). -/
def aGet (g : Group) (a e : Nat) : DWord := tabGet 0 g.acc (256 * a + e)
def aSet (g : Group) (a e : Nat) (x : DWord) : Group := { g with acc := tabPut g.acc (256 * a + e) x }

/-- A later write to a register leaves no earlier write pending (R116). -/
def cancel (t : Tgt) (os : List Out) : List Out :=
  os.map fun o => { o with live := o.live.filter fun x => decide (x ≠ t) }

/-- Put a value into a register. Registers at or above SREGS and p0 discard it (R146). -/
def putReg (sregs : Nat) (g : Group) (t : Tgt) (w : Word) : Group :=
  match t with
  | .v l n => { g with vreg := tabPut g.vreg (256 * l + n) w }
  | .s n => if n < sregs then { g with sreg := tabPut g.sreg n w } else g
  | .p l p => if p = 0 then g else { g with pred := tabPut g.pred (16 * l + p) (w != 0) }

/-- A uniform register is written by the issue or item numbered `seq`. -/
def noteUni (t : Tgt) (seq : Nat) (m : List (Nat × Nat)) : List (Nat × Nat) :=
  match t with
  | .s n => tabPut m n seq
  | _ => m

/-- A write in program order: it stands against every earlier result still to come (R116). -/
def writeReg (sregs : Nat) (g : Group) (t : Tgt) (w : Word) : Group :=
  putReg sregs { g with outs := cancel t g.outs, swr := noteUni t g.nextSeq g.swr } t w

def writeRegs (sregs : Nat) (g : Group) (ws : List (Tgt × Word)) : Group :=
  ws.foldl (fun g e => writeReg sregs g e.1 e.2) g

/-- A result of the item numbered `seq` leaves no earlier item's write to the register pending (R116). -/
def cancelBefore (seq : Nat) (t : Tgt) (os : List Out) : List Out :=
  os.map fun o => if o.seq < seq then { o with live := o.live.filter fun x => decide (x ≠ t) } else o

/-- Results of an outstanding item are written where its write is still pending (R116). -/
def landRegs (sregs seq : Nat) (live : List Tgt) (g : Group) (ws : List (Tgt × Word)) : Group :=
  ws.foldl (fun g e =>
    if live.contains e.1 then putReg sregs { g with outs := cancelBefore seq e.1 g.outs, swr := noteUni e.1 seq g.swr } e.1 e.2 else g) g

/-- The item numbered `seq` without the writes to uniform registers that a later one has overtaken while it was parked (R116). -/
def notOvertaken (g : Group) (o : Out) : Out :=
  { o with live := o.live.filter fun t => match t with | .s n => decide (tabGet 0 g.swr n ≤ o.seq) | _ => true }

/-! ## Interrupt vectors and records -/

/-- A vector of a function is signalled (R298). -/
def signal (s : State) (func vec : Nat) : State :=
  { s with pcie := { s.pcie with irqs := s.pcie.irqs ++ [(func, vec)] } }

/-- The 64 bytes of a record, R403. -/
def recBytes (f : RecF) (func : Nat) (seq : Word) (slot : Nat) : List Byte :=
  leBytes 8 slot ++ leBytes 4 seq.toNat ++ leBytes 4 (f.code.toNat * 2 ^ 24 + f.kind.toNat * 2 ^ 16 + func % 64 * 2 ^ 10) ++
  leBytes 8 f.detail.toNat ++ leBytes 4 f.cause.toNat ++ leBytes 4 f.lanes.toNat ++ leBytes 4 f.group.toNat ++
  leBytes 4 f.team.toNat ++ leBytes 8 f.label.toNat ++ leBytes 8 f.pc.toNat ++ leBytes 8 f.addr.toNat

/-- A record's write reaches memory: stage 2 maps its slot writable and, for the host, its port is up (R402, R300). -/
def recPlace (s : State) (func ipa : Nat) : Option Nat := s2Place s func true ipa

/-- Write one record to a fatal-lane slot that is free: the bytes, the tail, the vector (R402). The Bool says that the record
was lost. -/
def putFatal (s : State) (func : Nat) (f : RecF) : State × Bool :=
  let fn := getFunc s func
  let slot := fn.ftail.toNat % 64
  let place := recPlace s func (fn.recbase.toNat / 4096 * 4096 + 64 * slot)
  let s := match place with
    | some pa => sysPut s pa (recBytes f func fn.ftail slot)
    | none => s
  (signal (updFunc s func fun x => { x with ftail := x.ftail + 1 }) func 1, place.isNone)

def fatalFull (s : State) (func : Nat) : Bool := (getFunc s func).ftail - (getFunc s func).fhead == 64#32
def replayFull (s : State) (func : Nat) : Bool := (getFunc s func).rtail - (getFunc s func).rhead == 1024#32

def dropHw (s : State) : State :=
  updFunc s 0 fun x => { x with hwdrop := if x.hwdrop = BitVec.allOnes 32 then x.hwdrop else x.hwdrop + 1 }

/-- A hardware-error record (kind 0x10) in the physical function's ring; counted in HWDROP when the lane is full or the record
is lost (R402, R404). -/
def hwRecord (s : State) (detail : DWord) : State :=
  if fatalFull s 0 then dropHw s
  else
    let r := putFatal s 0 ⟨0, 0, 0, 0, 0, 0, 0, detail, 0, 0x10⟩
    if r.2 then dropHw r.1 else r.1

/-- What a lost record leaves behind: a kind 0x10 record with the function and bit 63 (R402). -/
def lostRecord (s : State) (func : Nat) : State := hwRecord s (BitVec.ofNat 64 (2 ^ 63 + func % 64))

/-- A fatal-lane record of an event: written now, or waiting for a slot (R404). -/
def fatalRecord (s : State) (func : Nat) (launch : Option Nat) (f : RecF) : State :=
  if fatalFull s func || s.recs.any (fun r => r.func == func && r.held.isNone) then
    { s with recs := s.recs ++ [⟨func, launch, none, f⟩] }
  else
    let r := putFatal s func f
    if r.2 then lostRecord r.1 func else r.1

/-- Write one record to a replayable-lane slot and file it with the held lanes (R402, R404). -/
def putReplay (s : State) (func gk : Nat) (m : Lanes) (f : RecF) : State :=
  let fn := getFunc s func
  let slot := fn.rtail.toNat % 1024
  let place := recPlace s func (fn.recbase.toNat / 4096 * 4096 + 4096 + 64 * slot)
  let s' := match place with
    | some pa => sysPut s pa (recBytes f func fn.rtail slot)
    | none => s
  let s' := signal (updFunc s' func fun x => { x with rtail := x.rtail + 1 }) func 1
  let s' := updGroup s' gk fun g => { g with held := g.held.map fun h =>
    if h.lanes == m && !h.filed then { h with slot := slot, seq := fn.rtail.toNat, filed := true } else h }
  if place.isNone then lostRecord s' func else s'

/-- A replayable-lane record, which no full lane and no waiting fatal record lets by (R404). -/
def replayRecord (s : State) (func gk : Nat) (m : Lanes) (f : RecF) : State :=
  if replayFull s func || s.recs.any (fun r => r.func == func) then
    { s with recs := s.recs ++ [⟨func, none, some (gk, m), f⟩] }
  else putReplay s func gk m f

/-! ## Rejoin registers, R148 -/

/-- Release the lanes held at a rejoin register when every enrolled lane has arrived; JPC stays. -/
def releaseJoin (g : Group) (j : Nat) : Group :=
  let r := jGet g j
  if r.enr ≠ 0 ∧ r.arr = r.enr then
    setPcs { g with rejoin := tabPut g.rejoin j ⟨0, 0, r.jpc⟩ } r.arr (r.jpc + 8)
  else g

/-- Lanes that exit or park leave every rejoin register, and the release is tested. -/
def leaveJoins (g : Group) (m : Lanes) : Group :=
  (List.range 8).foldl (fun g j =>
    match tabFind g.rejoin j with
    | none => g
    | some r =>
      releaseJoin { g with rejoin := tabPut g.rejoin j ⟨r.arr &&& ~~~m, r.enr &&& ~~~m, r.jpc⟩ } j) g

/-! ## Signatures, R332 -/

/-- Cancel every signature on a core: SIGNED clears, and the signers stay at their MMA or JOB. A group that a marker or a delivery
parks stays parked while it has other results to come (R112, R118). -/
def cancelSigns (s : State) (c : Nat) : State :=
  let mine := s.signs.filter fun x => x.core == c
  if mine.isEmpty then s
  else
    let s := mine.foldl (fun s x => updGroup s x.gkey fun g =>
      let os := g.outs.filter fun o => o.seq != x.seq
      { g with outs := os, mark := g.mark && !os.isEmpty }) s
    let s := mine.foldl (fun s x => updTeam s (getGroup s x.gkey).team fun t =>
      { t with kreg := tabUpd ⟨false, 0, 0, 0, 0⟩ t.kreg (8 * c + x.k) fun k => { k with signed := 0 } }) s
    { s with signs := s.signs.filter fun x => x.core != c }

/-! ## The end of a grid by a fatal fault, R405, R31 -/

/-- Whether launch `x` descends from launch `a`, through at most `fuel` generations. -/
def descends (s : State) (a : Nat) : Nat → Nat → Bool
  | 0, _ => false
  | fuel + 1, x =>
    match (getLaunch s x).origin with
    | .thread p _ _ => p == a || descends s a fuel p
    | _ => false

/-- A launch belongs to the replayed one (R423): it is that launch or descends from it. -/
def inReplay (s : State) (lk : Nat) : Bool :=
  match s.obs.rlaunch with
  | some r => lk == r || descends s r 11 lk
  | none => false

def setActs (s : State) (b : Bool) : State := { s with obs := { s.obs with racts := b } }

/-- Something that a launch does: what one of the replay writes is a write of the pass (R424; log entry 117). -/
def actsFor (s : State) (lk : Nat) (f : State → State) : State :=
  if inReplay s lk then setActs (f (setActs s true)) s.obs.racts else f s

/-- The grid has been ended, by a fatal fault of its own or of an ancestor. One whose teams cannot all be placed (0x06) has not: its
placed teams run to exit (R69). -/
def gridEnded (l : Launch) : Bool := l.fate != 0 && l.fate != 0x06

/-- A status for a grid that has not ended yet, and nothing left to place. -/
def endWith (st : BitVec 8) (l : Launch) : Launch := { l with fate := if gridEnded l then l.fate else st, unplaced := [] }

/-- The grid's completion status becomes fatal fault (0x07) and its live descendants' ancestor failed (0x08); nothing of them
is placed any more. -/
def endGrid (s : State) (lk : Nat) : State :=
  { s with launches := s.launches.map fun e =>
      if e.2.stage = .retired then e
      else if e.1 = lk then (e.1, endWith 0x07 e.2)
      else if descends s lk 11 e.1 then (e.1, endWith 0x08 e.2)
      else e }

/-- A fatal fault: the record is written, and the grid ends (R405). -/
def fatal (s : State) (lk : Nat) (f : RecF) : State :=
  endGrid (fatalRecord s (getLaunch s lk).func (some lk) f) lk

/-! ## Taking an exception -/

/-- Cause bits, R391. -/
def cILL : Nat := 0
def cPRR : Nat := 1
def cBND : Nat := 2
def cMOD : Nat := 3
def cTRN : Nat := 4
def cACV : Nat := 5
def cLAY : Nat := 6
def cCNV : Nat := 7
def cDET : Nat := 8
def cDEP : Nat := 9
def cARF : Nat := 10
def cBKP : Nat := 11
def cSWT : Nat := 12
def cHWE : Nat := 13

/-- A lane raises a cause: the cause bit, and what its three registers then hold (R392); `info` is the failed region of a
hardware error. -/
structure Raise where
  lane  : Nat
  cause : Nat
  epc   : DWord
  fadr  : DWord
  fcode : Word
  info  : Nat
  deriving DecidableEq, Repr

/-- The record that names a sub-group of lanes (R403). -/
def laneRecord (s : State) (gk : Nat) (m : Lanes) (pc : DWord) (kind : BitVec 8) (detail : DWord) : RecF :=
  let g := getGroup s gk
  let l0 := (lanesOf m).headD 0
  ⟨tabGet 0 g.fadr l0, pc, (launchOf s gk).label, BitVec.ofNat 32 (teamOf s gk).task, BitVec.ofNat 32 g.gidx, m, g.cause, detail,
    (tabGet 0 g.fcode l0).extractLsb' 0 8, kind⟩

/-- The lanes that hold each program counter, by their lowest lane. -/
def byPc (g : Group) (m : Lanes) : List Lanes :=
  ((lanesOf m).map fun l => lanesMask ((lanesOf m).filter fun k => pcOf g k == pcOf g l)).eraseDups

/-- Deal with one parked sub-group (R394): fatal inside the handler, held, handed to the handler, or fatal. `trn` and `bkp` say
that its cause is TRN or BKP, `s2` that the translation cause is of stage 2, `pc` is the instruction that raised it. A delivery parks
the group until its outstanding results are written, as a marker would (R118, R231). -/
def deliver (s : State) (gk : Nat) (m : Lanes) (pc : DWord) (trn bkp s2 noHold : Bool) : State :=
  let g := getGroup s gk
  let l := launchOf s gk
  let fn := getFunc s l.func
  if m &&& g.hmask ≠ 0 then fatal s (teamOf s gk).launch (laneRecord s gk m pc 0x02 0)
  else if !noHold && ((trn && fn.holdtr) || (bkp && fn.holdbp)) then
    let s := updGroup s gk fun g => { g with held := g.held ++ [⟨m, trn, trn && s2, pc, 0, 0, false, none, []⟩] }
    replayRecord s l.func gk m (laneRecord s gk m pc 0x20 (if trn && s2 then 1 else 0))
  else
    match l.handler with
    | some h =>
      let s := updGroup s gk fun g => setPcs { g with hmask := g.hmask ||| m, parked := g.parked &&& ~~~m, mark := g.mark || !g.outs.isEmpty } m h
      cancelSigns s (coreOf s gk)
    | none => fatal s (teamOf s gk).launch (laneRecord s gk m pc 0x01 0)

/-- Lanes of a group raise causes at the instruction `pc`: each parks, its cause bit is set in %cause, %epc, %fadr and %fcode
hold what the handler needs, it leaves every rejoin register, and its program counter is its resume address (R391, R392). -/
def parkLanes (g : Group) (rs : List Raise) : Group :=
  let m := lanesMask (rs.map (·.lane))
  let g := rs.foldl (fun g r => { g with
    cause := g.cause ||| BitVec.ofNat 32 (2 ^ r.cause)
    epc := tabPut g.epc r.lane r.epc
    fadr := tabPut g.fadr r.lane r.fadr
    fcode := tabPut g.fcode r.lane r.fcode
    pc := tabPut g.pc r.lane r.epc }) g
  leaveJoins { g with parked := g.parked ||| m } m

/-- The lanes park with their causes; a hardware error also writes its record (R392, R394). -/
def parkCauses (s : State) (gk : Nat) (rs : List Raise) : State :=
  let s := updGroup s gk fun g => parkLanes g rs
  if rs.any (fun r => r.cause == cHWE) then
    hwRecord s (BitVec.ofNat 64 (((rs.find? fun r => r.cause == cHWE).map (·.info)).getD 0)) else s

/-- The parked sub-groups of lanes that have raised causes, one for each program counter (R394). -/
def subGroups (g : Group) (pc : DWord) (s2 : Bool) (rs : List Raise) : List Owed :=
  (byPc g (lanesMask (rs.map (·.lane)))).map fun m =>
    let here := rs.filter fun r => m.getLsbD r.lane
    ⟨m, pc, here.all fun r => r.cause == cTRN, here.all fun r => r.cause == cBKP, s2⟩

def deliverOne (gk : Nat) (s : State) (o : Owed) : State := deliver s gk o.lanes o.pc o.trn o.bkp o.s2 false

/-- TAKING AN EXCEPTION: the lanes park with their causes, and each sub-group of one program counter is then delivered (R394). -/
def takeCauses (s : State) (gk : Nat) (pc : DWord) (s2 : Bool) (rs : List Raise) : State :=
  if rs.isEmpty then s
  else
    let s := parkCauses s gk rs
    (subGroups (getGroup s gk) pc s2 rs).foldl (deliverOne gk) s

/-- The same for causes that come after the issue of their instruction: where the group stands off its core, its lanes are saved parked,
and delivered when the group is committed again (R396). -/
def takeLate (s : State) (gk : Nat) (pc : DWord) (s2 : Bool) (rs : List Raise) : State :=
  if (getGroup s gk).slot.isSome || rs.isEmpty then takeCauses s gk pc s2 rs
  else updGroup (parkCauses s gk rs) gk fun g => { g with owed := g.owed ++ subGroups g pc s2 rs }

/-- What a group is owed is delivered as it is committed again (R396). -/
def payOwed (s : State) (gk : Nat) : State :=
  let os := (getGroup s gk).owed
  if os.isEmpty then s else os.foldl (deliverOne gk) (updGroup s gk fun g => { g with owed := [] })

/-- Every lane of a set raises one cause at the instruction `pc`, which is its resume address. -/
def raiseAll (s : State) (gk : Nat) (pc : DWord) (m : Lanes) (cause : Nat) (fadr : DWord) : State :=
  takeCauses s gk pc false ((lanesOf m).map fun l => ⟨l, cause, pc, fadr, 0, 0⟩)

/-- THE RETURN FROM AN EXCEPTION in the active lanes whose HMASK bit is set: the bit clears and the lane continues at its %epc
(R400). -/
def returnLanes (g : Group) (m : Lanes) : Group :=
  (lanesOf (m &&& g.hmask)).foldl (fun g l => setPc g l (tabGet 0 g.epc l)) { g with hmask := g.hmask &&& ~~~m }

/-! ## Windows, R232 to R238 -/

/-- How an access resolves: where its bytes lie, a cause with the first address that failed, or an element whose walk found a
translation fault or needs the host's page service. -/
inductive AccRes where
  | ok (ls : List Loc)
  | bad (cause : Nat) (fadr : DWord) (info : Nat)
  | wait (s2 : Bool) (page : Nat)
  | ask (page : Nat)
  deriving DecidableEq, Repr

def spaceOf (va : DWord) : Nat := (va.extractLsb' 56 8).toNat
def isWindow (va : DWord) : Bool := decide (0xF0 ≤ spaceOf va) && decide (spaceOf va ≤ 0xF3)
def isGlobal (va : DWord) : Bool := decide (spaceOf va ≤ 1)

/-- A team of the issuing team's neighbourhood by its index (R18, R19); none, so no place, once that team has been released (log entry
88). -/
def nbTeam (s : State) (t i : Nat) : Option Nat :=
  let x := getTeam s t
  let l := getLaunch s x.launch
  let n := l.nw * l.nh
  if n = 0 then none
  else (s.teams.find? fun e => e.2.launch == x.launch && e.2.task == x.task / n * n + i).map (·.1)

/-- The place of one window byte, for the thread in lane `lane` of group `gidx` of team `t` (R232, R235 to R238). -/
def winByte (s : State) (t gidx lane : Nat) (va : DWord) : Option Loc :=
  let x := getTeam s t
  let l := getLaunch s x.launch
  let o := (va.extractLsb' 0 32).toNat
  if (va.extractLsb' 32 24) ≠ 0 then none
  else match spaceOf va with
  | 0xF0 =>
    let pw := (x.priv.extractLsb' 0 12).toNat
    let off := (x.priv.extractLsb' 21 11).toNat * 1024 + 4 * Config.W * (pw * gidx + o / 4) + 4 * lane + o % 4
    if o < 4 * pw && off < l.scr * 1024 then some (.scr t off) else none
  | 0xF1 => if o < l.scr * 1024 then some (.scr t o) else none
  | 0xF2 =>
    if o < l.nw * l.nh * l.nbhd * 1024 then
      (nbTeam s t (o / (l.nbhd * 1024))).map fun n => .scr n (o % (l.nbhd * 1024))
    else none
  | 0xF3 =>
    let f := tabGet 0#32 s.supply.plzf l.func
    let base := (f.extractLsb' 0 12).toNat
    let len := (f.extractLsb' 12 12).toNat
    if o < len * 2 ^ 20 && (base + len) * 2 ^ 20 ≤ s.supply.plzSize * 32 * 2 ^ 20 then some (.plaza (base * 2 ^ 20 + o)) else none
  | _ => none

/-- The places of `n` window bytes, or the address of the first that fails (R232). -/
def winBytes (s : State) (t gidx lane : Nat) (va : DWord) (n : Nat) : Except DWord (List Loc) :=
  (List.range n).foldr (fun i acc =>
    match winByte s t gidx lane (va + BitVec.ofNat 64 i) with
    | none => .error (va + BitVec.ofNat 64 i)
    | some p => acc.map fun ls => p :: ls) (.ok [])

/-- Resolve an access of `n` bytes at an address, of the kind given, for a lane of a group (R232, R246, R258, R295). An access
that is not a multiple of its size, or of an unassigned space, is an access violation. A hardware error has no address (R392). -/
def resolve (s : State) (gk lane : Nat) (k : AccKind) (n : Nat) (va : DWord) : State × AccRes :=
  let g := getGroup s gk
  let l := launchOf s gk
  if va.toNat % n ≠ 0 then (s, .bad cACV va 0)
  else if isWindow va then
    match winBytes s g.team g.gidx lane va n with
    | .error a => (s, .bad cACV a 0)
    | .ok ls =>
      match ls.findSome? (fun p => match p with | .plaza o => plazaLost s o | _ => none) with
      | some r => (s, .bad cHWE 0 r)
      | none => (s, .ok ls)
  else if isGlobal va then
    let s := countEv s (coreOf s gk) 0x04 (if walkBegins s l.func l.pasid (va.toNat % 2 ^ 57) then 1 else 0)
    match walkElem s l.func l.pasid k n va.toNat with
    | (s, .at' pa mt) => (s, .ok ((List.range n).map fun i => .glob (pa + i) mt))
    | (s, .acv) => (s, .bad cACV va 0)
    | (s, .hwe r) => (s, .bad cHWE 0 r)
    | (s, .fault s2 page) => (s, .wait s2 page)
    | (s, .ask page) => (s, .ask page)
  else (s, .bad cACV va 0)

end Sys2Proof.Machine
end

