-- ==== Sys2Proof/Machine/Door.lean ====
section
/-! DEFINITION. Queues and graphs as their doorbell pages reach them: freezing a queue (R56), a tail write (R35), GSTAT and a
trigger store (R54), and the doorbell region of a function (R295, R297). -/

namespace Sys2Proof.Machine

/-- A frozen queue starts no further packet; a fatal-lane record names it (R56, R403 kind 0x03). `idx` is the packet's index, or
the tail value that was not taken. WAITING stays as it was: it tells of the head packet alone (R33). -/
def freezeQueue (s : State) (q idx : Nat) (reason : BitVec 8) : State :=
  let s := updQueue s q fun x => { x with frozen := true, reason := reason }
  fatalRecord s (getQueue s q).owner none
    ⟨0, 0, 0, 0, 0, 0, 0, BitVec.ofNat 64 (q % 1024 + idx % 2 ^ 32 * 2 ^ 16 + reason.toNat * 2 ^ 48), 0, 0x03⟩

/-- A write of a queue's tail by a function: nothing on a page that is not live; a tail beyond the ring's capacity freezes the
queue and is not taken (R34, R35), a frozen queue too, with reason 0x06 and a record of its own (log entry 89). A tail at
the head leaves no packet pending: the one that was read is the head no more. -/
def qtailWrite (s : State) (func q : Nat) (v : Word) : State :=
  let x := getQueue s q
  if q < Config.queues && x.owner = func then
    if (v - x.qhead).toNat > 2 ^ x.qsize then freezeQueue s q v.toNat 0x06
    else setQueue s q (if v = x.qhead then { x with qtail := v, head := none, checked := false, waiting := false } else { x with qtail := v })
  else s

/-- GSTAT, R54. -/
def gstatOf (x : Graph) : Word :=
  BitVec.ofNat 32 (min x.pend.length 255 + (if x.run.isSome then 256 else 0) + (if x.ign then 512 else 0) +
    (if x.lost then 1024 else 0) + (if x.abn then 2048 else 0) + x.err.toNat * 4096)

/-- Runs added at the graph's own priority; PEND saturates at 255 and sets LOST (R54). -/
def addRuns (x : Graph) (n : Nat) : Graph :=
  let room := 255 - x.pend.length
  { x with pend := x.pend ++ List.replicate (min n room) ⟨x.gpri.toNat, none⟩, lost := x.lost || decide (room < n) }

/-- A store to GTRIG by a function that owns the graph (R34, R54). -/
def gtrigStore (s : State) (func g : Nat) (v : DWord) : State :=
  let x := getGraph s g
  if g < Config.graphs && x.gown = func then setGraph s g (addRuns x (v.toNat % 256)) else s

/-- A load of a doorbell offset (R295). -/
def doorLoad (s : State) (func o : Nat) : Nat :=
  if !doorLive s func o then 0
  else if o < 2 ^ 22 then (if o % 4096 = 0 then (getQueue s (o / 4096)).qtail.toNat else 0)
  else if o % 4096 = 8 then (gstatOf (getGraph s (o / 4096 - 1024))).toNat
  else 0

/-- A store to a doorbell offset (R295). -/
def doorStore (s : State) (func o v : Nat) : State :=
  if !doorLive s func o || o % 4096 ≠ 0 then s
  else if o < 2 ^ 22 then qtailWrite s func (o / 4096) (BitVec.ofNat 32 v)
  else gtrigStore s func (o / 4096 - 1024) (BitVec.ofNat 64 v)

end Sys2Proof.Machine
end

