-- ==== Sys2Proof/Machine/Num.lean ====
section
/-! DEFINITION. Numbers to the bit: values, formats, rounding, Q32, tapered codes and conversions (R187 to R207, R200, R201).

A value is exact: a sign and a fraction n/d. Every arithmetic instruction forms an exact result and rounds it once. -/

namespace Sys2Proof.Machine

/-- Flags in the order of FLG and FEN (R189): NX 1, UF 2, OF 4, DZ 8, IV 16. -/
abbrev Flags := BitVec 5
def fNX : Flags := 1#5
def fUF : Flags := 2#5
def fOF : Flags := 4#5
def fDZ : Flags := 8#5
def fIV : Flags := 16#5

/-- A value read from a format: NaN or NaR (signalling or not), an infinity, or ±n/d with d > 0. -/
inductive Val where
  | nan (signalling : Bool)
  | inf (neg : Bool)
  | fin (neg : Bool) (n d : Nat)
  deriving DecidableEq, Repr

/-- An IEEE-style format, R187: fraction bits, exponent bits, whether the all-ones exponent holds an infinity, whether NaNs
can signal (R188). -/
structure Fmt where
  m   : Nat
  eb  : Nat
  inf : Bool
  sig : Bool
  deriving DecidableEq, Repr

def fmt64 : Fmt := ⟨52, 11, true, true⟩
def fmt32 : Fmt := ⟨23, 8, true, true⟩
def fmt16 : Fmt := ⟨10, 5, true, true⟩
def fmtB16 : Fmt := ⟨7, 8, true, true⟩
def fmtE5 : Fmt := ⟨2, 5, true, false⟩
def fmtE4 : Fmt := ⟨3, 4, false, false⟩

def fmtBias (f : Fmt) : Nat := 2 ^ (f.eb - 1) - 1
/-- Code of the sign bit. -/
def fmtSign (f : Fmt) (neg : Bool) : Nat := if neg then 2 ^ (f.eb + f.m) else 0
/-- The canonical NaN (R188). -/
def fmtNaN (f : Fmt) : Nat := if f.inf then (2 ^ f.eb - 1) * 2 ^ f.m + 2 ^ (f.m - 1) else 2 ^ (f.eb + f.m) - 1
/-- Magnitude code of the largest finite value. -/
def fmtMaxCode (f : Fmt) : Nat := if f.inf then (2 ^ f.eb - 1) * 2 ^ f.m - 1 else 2 ^ (f.eb + f.m) - 2
/-- Magnitude code of an infinite result; E4M3 writes its NaN (R198). -/
def fmtInfCode (f : Fmt) : Nat := if f.inf then (2 ^ f.eb - 1) * 2 ^ f.m else 2 ^ (f.eb + f.m) - 1

/-- n · 2^(a − b) as a fraction. -/
def scale2 (n a b : Nat) : Nat × Nat := if b ≤ a then (n * 2 ^ (a - b), 1) else (n, 2 ^ (b - a))

/-- The magnitude of a finite code (R187). -/
def fmtMag (f : Fmt) (mag : Nat) : Nat × Nat :=
  let e := mag / 2 ^ f.m
  let fr := mag % 2 ^ f.m
  if e = 0 then scale2 fr 1 (fmtBias f + f.m) else scale2 (2 ^ f.m + fr) e (fmtBias f + f.m)

/-- Value of a code of an IEEE-style format (R187, R188). -/
def fmtVal (f : Fmt) (code : Nat) : Val :=
  let mag := code % 2 ^ (f.eb + f.m)
  let neg := code / 2 ^ (f.eb + f.m) % 2 = 1
  if mag ≤ fmtMaxCode f then let (n, d) := fmtMag f mag; .fin neg n d
  else if f.inf && mag = fmtInfCode f then .inf neg
  else .nan (f.sig && decide (mag % 2 ^ f.m < 2 ^ (f.m - 1)))

/-- floor(log2(n/d)) + `off`, for n, d > 0 (as a natural number with an offset large enough for every format). -/
def ilog2 (n d off : Nat) : Nat :=
  let k := Nat.log2 n + off - Nat.log2 d
  -- k is floor(log2) + off or one more
  if n * 2 ^ off < d * 2 ^ k then k - 1 else k

/-- One of the two neighbours of a non-representable magnitude, by mode (R197, R202): `r2` compares the remainder with the
half (rem/den against 1/2), `even` says that the lower neighbour is the even one, `rand` is the 16-bit random number. -/
def roundUp (mode : Rnd) (neg : Bool) (rem den : Nat) (lowerEven : Bool) (rand : Nat) : Bool :=
  match mode with
  | .rn => decide (den < 2 * rem) || (decide (2 * rem = den) && !lowerEven)
  | .rm => decide (den < 2 * rem) || (decide (2 * rem = den) && !lowerEven)
  | .rz => false
  | .rd => neg
  | .ru => !neg
  | .sr => decide (rand * den < 65536 * rem)

/-- Offset that makes every exponent of every format a natural number. -/
def eOff : Nat := 8192

/-- round_fmt for an IEEE-style format: code and flags of ±n/d, n > 0 (R190, R197, R198). -/
def roundMag (f : Fmt) (mode : Rnd) (sat neg : Bool) (rand n d : Nat) : Nat × Flags :=
  let sign := fmtSign f neg
  let (mn, md) := fmtMag f (fmtMaxCode f)
  if mn * d < n * md then
    -- beyond the largest finite value: u/2 is half the spacing at M
    let (hn, hd) := fmtMag f (fmtMaxCode f - 1)
    -- M + u/2 = M + (M - prev)/2 = (3 M - prev)/2
    let big := (3 * mn * hd - hn * md) * d ≤ 2 * n * md * hd
    let toInf := match mode with
      | .rn => decide big
      | .rm => decide big
      | .sr => decide big
      | .rz => false
      | .ru => !neg
      | .rd => neg
    if toInf then
      if sat then (sign + fmtMaxCode f, fOF ||| fNX) else (sign + fmtInfCode f, fOF ||| fNX)
    else (sign + fmtMaxCode f, fNX)
  else
    let emin := eOff + 1 - fmtBias f
    let e := max (ilog2 n d eOff) emin
    -- quantum 2^(e - eOff - m)
    let num := n * 2 ^ (eOff + f.m)
    let den := d * 2 ^ e
    let k := num / den
    let rem := num % den
    let base := (e - emin) * 2 ^ f.m
    if rem = 0 then (sign + base + k, 0#5)
    else
      let up := roundUp mode neg rem den (k % 2 = 0) rand
      let small := decide (k < 2 ^ f.m)
      (sign + base + (if up then k + 1 else k), if small then fUF ||| fNX else fNX)

/-! ### Tapered formats -/

/-- Count of leading bits of the w-bit field m equal to `b`. -/
def leadCount (b : Bool) (m : Nat) : Nat → Nat
  | 0 => 0
  | w + 1 => if m.testBit w = b then leadCount b m w + 1 else 0

/-- Magnitude of a non-zero magnitude field of n − 1 bits (R191). -/
def taperMag (n m : Nat) : Nat × Nat :=
  let b := m.testBit (n - 2)
  let k := leadCount b m (n - 1)
  let l := n - 2 - k
  let e := if l = 0 then 0 else (m / 2 ^ (l - 1)) % 2
  let g := l - 1
  let f := m % 2 ^ g
  -- 2^(2r + e) with r = k - 1 or -k
  if b then scale2 (2 ^ g + f) (2 * (k - 1) + e) g else scale2 (2 ^ g + f) e (2 * k + g)

/-- Value of a tapered code (R191). -/
def taperVal (n code : Nat) : Val :=
  let m := code % 2 ^ (n - 1)
  let neg := code / 2 ^ (n - 1) % 2 = 1
  if m = 0 then (if neg then .nan false else .fin false 0 1)
  else let (a, c) := taperMag n m; .fin neg a c

/-- The greatest magnitude field whose value does not exceed x = a/c, searching down from `k` (0 when there is none). -/
def taperFloor (n a c : Nat) : Nat → Nat
  | 0 => 0
  | k + 1 => let (p, q) := taperMag n (k + 1); if p * c ≤ a * q then k + 1 else taperFloor n a c k

/-- round_fmt for a tapered format: ±a/c, a > 0 (R199). -/
def roundTaper (n : Nat) (mode : Rnd) (neg : Bool) (rand a c : Nat) : Nat × Flags :=
  let sign := if neg then 2 ^ (n - 1) else 0
  let top := 2 ^ (n - 1) - 1
  let k := taperFloor n a c top
  if k = 0 then (sign + 1, fUF ||| fNX)
  else
    let (p, q) := taperMag n k
    if p * c = a * q then (sign + k, 0#5)
    else if k = top then (sign + top, fOF ||| fNX)
    else
      let (p2, q2) := taperMag n (k + 1)
      -- (x - lo) / (hi - lo) = (a q - p c) q2 / ((p2 q - p q2) c)
      let rem := (a * q - p * c) * q2
      let den := (p2 * q - p * q2) * c
      (sign + (if roundUp mode neg rem den (k % 2 = 0) rand then k + 1 else k), fNX)

/-! ### Q32 -/

/-- Value of a Q32 word (R194, R195). -/
def qVal (w : Nat) : Val :=
  let neg := w.testBit 31
  let b := bitsOf w 30 26
  let nd := bitsOf w 25 0
  if 28 ≤ b then .nan false
  else if b = 27 then .inf neg
  else
    let n := nd / 2 ^ (26 - b)
    let d := if b = 26 then 1 else nd % 2 ^ (26 - b)
    if d = 0 then (if n = 0 then .nan false else .inf neg)
    else if n = 0 then .fin false 0 1
    else .fin neg (n / Nat.gcd n d) (d / Nat.gcd n d)

def qNaN : Nat := 0x70000000
def qZero : Nat := 1
def qInf (neg : Bool) : Nat := if neg then 0xEC000000 else 0x6C000000

/-- Bit length. -/
def bitLen (n : Nat) : Nat := if n = 0 then 0 else Nat.log2 n + 1

/-- Canonical word of a representable reduced ±n/d, n > 0 (R196). -/
def qWord (neg : Bool) (n d : Nat) : Nat :=
  let b := bitLen n
  (if neg then 2 ^ 31 else 0) + b * 2 ^ 26 + (if b = 26 then n else n * 2 ^ (26 - b) + d)

/-- Whether a reduced n/d, n > 0, is a Q32 value (R196). -/
def qRep (n d : Nat) : Bool := decide (bitLen n + bitLen d ≤ 26) || (decide (d = 1) && decide (n < 2 ^ 26))

/-- The search of R200 in set b: neighbours of x = a/c among n/d with n ≤ nb and d ≤ db; `fuel` bounds the passes. -/
def qSearch (a c nb db : Nat) : Nat → Nat → Nat → Nat → Nat → (Nat × Nat) × (Nat × Nat)
  | 0, pl, ql, ph, qh => ((pl, ql), (ph, qh))
  | fuel + 1, pl, ql, ph, qh =>
    let t := (a * ql - c * pl) / (c * ph - a * qh)
    let t := min t ((nb - pl) / ph)
    let t := if 0 < qh then min t ((db - ql) / qh) else t
    let pl := pl + t * ph
    let ql := ql + t * qh
    let u := (c * ph - a * qh) / (a * ql - c * pl)
    let u := if 0 < pl then min u ((nb - ph) / pl) else u
    let u := min u ((db - qh) / ql)
    let ph := ph + u * pl
    let qh := qh + u * ql
    if t = 0 ∧ u = 0 then ((pl, ql), (ph, qh)) else qSearch a c nb db fuel pl ql ph qh

/-- The neighbours of x = a/c over the sets b = 1 to `b` (R200): greatest lower and least upper. -/
def qNeighbours (a c : Nat) : Nat → (Nat × Nat) × (Nat × Nat)
  | 0 => ((0, 1), (1, 0))
  | b + 1 =>
    let best := qNeighbours a c b
    let nb := 2 ^ (b + 1) - 1
    let db := if b + 1 = 26 then 1 else 2 ^ (26 - (b + 1)) - 1
    let here := qSearch a c nb db 64 0 1 1 0
    let lo := if best.1.1 * here.1.2 < here.1.1 * best.1.2 then here.1 else best.1
    let hi := if here.2.1 * best.2.2 < best.2.1 * here.2.2 then here.2 else best.2
    (lo, hi)

/-- Passes of the search in set b. -/
def qSteps (a c nb db : Nat) : Nat → Nat → Nat → Nat → Nat → Nat
  | 0, _, _, _, _ => 0
  | fuel + 1, pl, ql, ph, qh =>
    let t := (a * ql - c * pl) / (c * ph - a * qh)
    let t := min t ((nb - pl) / ph)
    let t := if 0 < qh then min t ((db - ql) / qh) else t
    let pl := pl + t * ph
    let ql := ql + t * qh
    let u := (c * ph - a * qh) / (a * ql - c * pl)
    let u := if 0 < pl then min u ((nb - ph) / pl) else u
    let u := min u ((db - qh) / ql)
    if t = 0 ∧ u = 0 then 1 else 1 + qSteps a c nb db fuel pl ql (ph + u * pl) (qh + u * ql)

/-- Largest Q32 magnitude. -/
def qMax : Nat := 67108863

/-- Whether the upper neighbour ph/qh of x = a/c is chosen over pl/ql (R201). -/
def qChooseHi (mode : Rnd) (neg : Bool) (a c pl ql ph qh : Nat) : Bool :=
  -- a tie goes to the smaller denominator, then to the smaller magnitude
  let tie := decide (qh < ql)
  match mode with
  | .rz => false
  | .rd => neg
  | .ru => !neg
  | .rm =>
    let l := a * (ql + qh)
    let r := c * (pl + ph)
    decide (r < l) || (decide (l = r) && tie)
  | .rn =>
    -- x against the midpoint (pl qh + ph ql) / (2 ql qh)
    let l := 2 * a * ql * qh
    let r := c * (pl * qh + ph * ql)
    decide (r < l) || (decide (l = r) && tie)
  | .sr => false

/-- The greatest number of passes that a set takes to round a/c, 0 where R200 is not used (R219). -/
def qPasses (a0 c0 : Nat) : Nat :=
  let g := Nat.gcd a0 c0
  let a := a0 / g
  let c := c0 / g
  if a = 0 || qRep a c || decide (qMax * c < a) then 0
  else (List.range 26).foldl (fun m b => max m (qSteps a c (2 ^ (b + 1) - 1) (if b = 25 then 1 else 2 ^ (25 - b) - 1) 64 0 1 1 0)) 0

/-- Round ±a/c, a > 0, to Q32 (R200, R201, SAT by R217). -/
def roundQ (mode : Rnd) (sat neg : Bool) (a0 c0 : Nat) : Nat × Flags :=
  let g := Nat.gcd a0 c0
  let a := a0 / g
  let c := c0 / g
  if qRep a c then (qWord neg a c, 0#5)
  else if qMax * c < a then
    let toInf := match mode with
      | .rn => decide ((2 * qMax + 1) * c < 2 * a)
      | .rm => decide ((qMax + 1) * c < a)
      | .rz => false
      | .rd => neg
      | .ru => !neg
      | .sr => false
    if toInf then
      if sat then (qWord neg qMax 1, fOF ||| fNX) else (qInf neg, fOF ||| fNX)
    else (qWord neg qMax 1, fNX)
  else
    let ((pl, ql), (ph, qh)) := qNeighbours a c 26
    let small := decide (a * 33554431 < c)
    let fl := if small then fUF ||| fNX else fNX
    if qChooseHi mode neg a c pl ql ph qh then (qWord neg ph qh, fl)
    else if pl = 0 then (qZero, fUF ||| fNX)
    else (qWord neg pl ql, fl)

/-- Canonical Q32 word of a Q32 value (R196). -/
def qCanon (v : Val) : Nat :=
  match v with
  | .nan _ => qNaN
  | .inf neg => qInf neg
  | .fin neg n d => if n = 0 then qZero else qWord neg n d

/-! ### Integers -/

/-- A w-bit pattern read as two's complement. -/
def toSigned (w x : Nat) : Int := if x % 2 ^ w < 2 ^ (w - 1) then (x % 2 ^ w : Nat) else (x % 2 ^ w : Nat) - (2 ^ w : Nat)

/-- The w-bit pattern of an integer modulo 2^w. -/
def ofInt (w : Nat) (x : Int) : Nat := (x % ((2 ^ w : Nat) : Int)).toNat

/-- saturate(x, type) (R8). -/
def saturate (signed : Bool) (w : Nat) (x : Int) : Int :=
  let lo : Int := if signed then -((2 ^ (w - 1) : Nat) : Int) else 0
  let hi : Int := if signed then ((2 ^ (w - 1) : Nat) : Int) - 1 else ((2 ^ w : Nat) : Int) - 1
  max lo (min hi x)

/-- Round ±n/d to an integer (R197; an even tie). -/
def roundToInt (mode : Rnd) (neg : Bool) (rand n d : Nat) : Int × Bool :=
  let k := n / d
  let rem := n % d
  let m := if rem = 0 then k else if roundUp mode neg rem d (k % 2 = 0) rand then k + 1 else k
  (if neg then -(m : Int) else (m : Int), rem ≠ 0)

/-! ### Types -/

/-- Width in bits of an element of a type. -/
def tyBits : Ty → Nat
  | .i64 | .n64 | .f64 => 64
  | .i32 | .n32 | .f32 | .q32 => 32
  | .i16 | .n16 | .f16 | .bf16 => 16
  | .i8 | .n8 | .e4m3 | .e5m2 | .t8 => 8
  | .t6 => 6

/-- Integer types: signedness. -/
def tyInt? : Ty → Option Bool
  | .i64 | .i32 | .i16 | .i8 => some true
  | .n64 | .n32 | .n16 | .n8 => some false
  | _ => none

def tyFmt? : Ty → Option Fmt
  | .f64 => some fmt64
  | .f32 => some fmt32
  | .f16 => some fmt16
  | .bf16 => some fmtB16
  | .e4m3 => some fmtE4
  | .e5m2 => some fmtE5
  | _ => none

/-- The value of an element code of any type. -/
def tyVal (t : Ty) (code : Nat) : Val :=
  match tyInt? t with
  | some sg =>
    let x := if sg then toSigned (tyBits t) code else ((code % 2 ^ tyBits t : Nat) : Int)
    .fin (decide (x < 0)) x.natAbs 1
  | none =>
    match tyFmt? t with
    | some f => fmtVal f code
    | none => if t = .t8 then taperVal 8 code else if t = .t6 then taperVal 6 code else qVal code

/-- Code of ±x for a finite non-zero or zero value in any type: round_fmt (R8), integers by R205. -/
def roundTy (t : Ty) (mode : Rnd) (sat neg : Bool) (rand n d : Nat) : Nat × Flags :=
  match tyInt? t with
  | some sg =>
    let (x, inexact) := roundToInt mode neg rand n d
    let c := saturate sg (tyBits t) x
    if c = x then (ofInt (tyBits t) x, if inexact then fNX else 0#5) else (ofInt (tyBits t) c, fIV)
  | none =>
    match tyFmt? t with
    | some f => if n = 0 then (fmtSign f neg, 0#5) else roundMag f mode sat neg rand n d
    | none =>
      if n = 0 then (if t = .q32 then qZero else 0, 0#5)
      else if t = .t8 then roundTaper 8 mode neg rand n d
      else if t = .t6 then roundTaper 6 mode neg rand n d
      else roundQ mode sat neg n d

/-- NaN code of a type: canonical NaN, NaR, Q32 NaN; 0 for an integer type (R188, R205). -/
def tyNaN (t : Ty) : Nat :=
  match tyFmt? t with
  | some f => fmtNaN f
  | none => if t = .t8 then 0x80 else if t = .t6 then 0x20 else if t = .q32 then qNaN else 0

/-- Conversion of a value to a type, R205 (the source is no integer, or the destination is none). -/
def convVal (t : Ty) (mode : Rnd) (sat : Bool) (rand : Nat) (v : Val) : Nat × Flags :=
  match v with
  | .nan sg =>
    (tyNaN t, (if sg then fIV else 0#5) ||| (if (tyInt? t).isSome then fIV else 0#5))
  | .inf neg =>
    match tyInt? t with
    | some sg => (ofInt (tyBits t) (saturate sg (tyBits t) (if neg then -(2 ^ 80 : Int) else 2 ^ 80)), fIV)
    | none =>
      match tyFmt? t with
      | some f =>
        if sat then (fmtSign f neg + fmtMaxCode f, fOF)
        else (fmtSign f neg + fmtInfCode f, if f.inf then 0#5 else fIV)
      | none =>
        if t = .q32 then (qInf neg, 0#5)
        else
          let n := tyBits t
          if sat then ((if neg then 2 ^ (n - 1) else 0) + (2 ^ (n - 1) - 1), fOF) else (tyNaN t, fIV)
  | .fin neg n d => roundTy t mode sat neg rand n d

/-- CVT of an element, R205, R221: integers to integers wrap or saturate without a flag. SAT writes a finite value beyond Q32 as its
largest one (R201, R217). -/
def cvtElem (dt st : Ty) (mode : Rnd) (sat : Bool) (rand code : Nat) : Nat × Flags :=
  match tyInt? st, tyInt? dt with
  | some ss, some ds =>
    let x := if ss then toSigned (tyBits st) code else ((code % 2 ^ tyBits st : Nat) : Int)
    (ofInt (tyBits dt) (if sat then saturate ds (tyBits dt) x else x), 0#5)
  | _, _ => convVal dt mode sat rand (tyVal st (code % 2 ^ tyBits st))

/-- Integer square root: the bits of the root from bit `k − 1` down. -/
def isqrtGo (n : Nat) : Nat → Nat → Nat
  | 0, r => r
  | k + 1, r => if (r + 2 ^ k) * (r + 2 ^ k) ≤ n then isqrtGo n k (r + 2 ^ k) else isqrtGo n k r

def isqrt (n : Nat) : Nat := isqrtGo n (bitLen n / 2 + 1) 0

/-- A fraction that rounds as the square root of n/d does: the root itself when it is a fraction on the grid of 2^-k, else
a point strictly between the two grid points around it. -/
def sqrtVal (n d : Nat) : Nat × Nat :=
  let k := 96 + bitLen d
  let sc := n * 4 ^ k
  let s := isqrt (sc / d)
  if s * s * d = sc then (s, 2 ^ k) else (2 * s + 1, 2 ^ (k + 1))

/-! ### Arithmetic of R210 -/

/-- An exact result before rounding. `zneg` is the sign of an exact zero as far as the operands fix it (`none`: +0, or −0
under .rd). -/
inductive Res where
  | nan (fl : Flags)
  | inf (neg : Bool) (fl : Flags)
  | fin (neg : Bool) (n d : Nat) (zneg : Option Bool)
  deriving DecidableEq, Repr

def valSig : Val → Bool
  | .nan s => s
  | _ => false

def valNan : Val → Bool
  | .nan _ => true
  | _ => false

/-- Any NaN source gives NaN, with IV when one is signalling. -/
def nanRes (vs : List Val) : Res := .nan (if vs.any valSig then fIV else 0#5)

/-- Exact sum of two finite values. -/
def sumFin (na : Bool) (an ad : Nat) (nb : Bool) (bn bd : Nat) : Res :=
  let x : Int := (if na then -1 else 1) * ((an * bd : Nat) : Int) + (if nb then -1 else 1) * ((bn * ad : Nat) : Int)
  let z := if an = 0 && bn = 0 && na = nb then some na else none
  .fin (decide (x < 0)) x.natAbs (ad * bd) z

def valNeg : Val → Val
  | .nan s => .nan s
  | .inf n => .inf (!n)
  | .fin n a d => .fin (!n) a d

def resAdd (a b : Val) : Res :=
  match a, b with
  | .nan _, _ => nanRes [a, b]
  | _, .nan _ => nanRes [a, b]
  | .inf x, .inf y => if x = y then .inf x 0#5 else .nan fIV
  | .inf x, .fin _ _ _ => .inf x 0#5
  | .fin _ _ _, .inf y => .inf y 0#5
  | .fin na an ad, .fin nb bn bd => sumFin na an ad nb bn bd

def resMul (a b : Val) : Res :=
  match a, b with
  | .nan _, _ => nanRes [a, b]
  | _, .nan _ => nanRes [a, b]
  | .inf x, .inf y => .inf (x != y) 0#5
  | .inf x, .fin y n _ => if n = 0 then .nan fIV else .inf (x != y) 0#5
  | .fin x n _, .inf y => if n = 0 then .nan fIV else .inf (x != y) 0#5
  | .fin x an ad, .fin y bn bd => .fin (x != y) (an * bn) (ad * bd) (some (x != y))

/-- a · b + c with one rounding: 0 · ∞ gives IV whatever the addend, except that a NaN source decides first (R210; log
entry 21). -/
def resFma (a b c : Val) : Res :=
  if valNan a || valNan b || valNan c then
    let zi := match a, b with
      | .inf _, .fin _ 0 _ => true
      | .fin _ 0 _, .inf _ => true
      | _, _ => false
    .nan (if valSig a || valSig b || valSig c || zi then fIV else 0#5)
  else
    match resMul a b with
    | .nan fl => .nan fl
    | .inf x _ =>
      match c with
      | .inf y => if x = y then .inf x 0#5 else .nan fIV
      | _ => .inf x 0#5
    | .fin x n d _ =>
      match c with
      | .inf y => .inf y 0#5
      | .fin y cn cd => sumFin x n d y cn cd
      | .nan _ => .nan 0#5

def resDiv (a b : Val) : Res :=
  match a, b with
  | .nan _, _ => nanRes [a, b]
  | _, .nan _ => nanRes [a, b]
  | .inf _, .inf _ => .nan fIV
  | .inf x, .fin y _ _ => .inf (x != y) 0#5
  | .fin x _ _, .inf y => .fin (x != y) 0 1 (some (x != y))
  | .fin x an ad, .fin y bn bd =>
    if bn = 0 then (if an = 0 then .nan fIV else .inf (x != y) fDZ)
    else .fin (x != y) (an * bd) (ad * bn) (some (x != y))

def resSqrt (a : Val) : Res :=
  match a with
  | .nan _ => nanRes [a]
  | .inf neg => if neg then .nan fIV else .inf false 0#5
  | .fin neg n d =>
    if n = 0 then .fin neg 0 1 (some neg)
    else if neg then .nan fIV
    else let (p, q) := sqrtVal n d; .fin false p q none

/-- FRND: the integral value of the format; NX when it differs from a. -/
def resRound (mode : Rnd) (a : Val) : Res × Flags :=
  match a with
  | .nan _ => (nanRes [a], 0#5)
  | .inf neg => (.inf neg 0#5, 0#5)
  | .fin neg n d =>
    let (x, inexact) := roundToInt mode neg 0 n d
    (.fin neg x.natAbs 1 (some neg), if inexact then fNX else 0#5)

/-- Round an exact result into a floating type of R208 (R210, R217). -/
def finish (t : Ty) (mode : Rnd) (sat : Bool) (r : Res) : Nat × Flags :=
  match r with
  | .nan fl => (tyNaN t, fl)
  | .inf neg fl =>
    match tyFmt? t with
    | some f => (fmtSign f neg + fmtInfCode f, fl)
    | none => (qInf neg, fl)
  | .fin neg n d z =>
    if n = 0 then
      match tyFmt? t with
      | some f => (fmtSign f (z.getD (decide (mode = .rd))), 0#5)
      | none => (qZero, 0#5)
    else roundTy t mode sat neg 0 n d

/-- Order of two values that are not NaN, −0 equal to +0. -/
def valLt (a b : Val) : Bool :=
  match a, b with
  | .nan _, _ => false
  | _, .nan _ => false
  | .inf x, .inf y => x && !y
  | .inf x, .fin _ _ _ => x
  | .fin _ _ _, .inf y => !y
  | .fin na an ad, .fin nb bn bd =>
    decide ((if na then -1 else 1) * ((an * bd : Nat) : Int) < (if nb then -1 else 1) * ((bn * ad : Nat) : Int))

/-- FCMP's outcome (R213). -/
def fcmpVal (c : Cmp) (un : Bool) (a b : Val) : Bool × Flags :=
  let fl := if valSig a || valSig b then fIV else 0#5
  if valNan a || valNan b then (un, fl)
  else
    let lt := valLt a b
    let gt := valLt b a
    let r := match c with
      | .eq => !lt && !gt
      | .ne => lt || gt
      | .lt => lt
      | .le => !gt
      | .gt => gt
      | .ge => !lt
    (r, fl)

/-- Whether FMIN takes a over b: the lesser, with −0 below +0 (R211). -/
def takesLess (a b : Val) : Bool :=
  if valLt a b then true
  else if valLt b a then false
  else match a, b with
    | .fin na 0 _, .fin nb 0 _ => na || !nb
    | _, _ => true

/-- FMIN and FMAX on codes of a type: the chosen source code; on Q32 its canonical word (R211, R217). -/
def fminmax (t : Ty) (isMax : Bool) (ca cb : Nat) : Nat × Flags :=
  let a := tyVal t ca
  let b := tyVal t cb
  let fl := if valSig a || valSig b then fIV else 0#5
  let out (c : Nat) (v : Val) : Nat := if t = .q32 then qCanon v else c
  if valNan a && valNan b then (tyNaN t, fl)
  else if valNan a then (out cb b, fl)
  else if valNan b then (out ca a, fl)
  else if (if isMax then takesLess b a else takesLess a b) then (out ca a, fl)
  else (out cb b, fl)

/-- FCLASS mask (R214). -/
def fclassMask (t : Ty) (code : Nat) : Nat :=
  match tyFmt? t with
  | some f =>
    match fmtVal f code with
    | .nan sg => if sg then 256 else 512
    | .inf neg => if neg then 1 else 128
    | .fin neg _ _ =>
      let mag := code % 2 ^ (f.eb + f.m)
      if mag = 0 then (if neg then 8 else 16)
      else if mag < 2 ^ f.m then (if neg then 4 else 32)
      else (if neg then 2 else 64)
  | none =>
    let v := qVal code
    let cls := match v with
      | .nan _ => 512
      | .inf neg => if neg then 1 else 128
      | .fin neg n _ => if n = 0 then 16 else if neg then 2 else 64
    cls + (if code = qCanon v then 0 else 1024)

/-- mix64 (R9). -/
def mix64 (z0 : DWord) : DWord :=
  let z := (z0 ^^^ (z0 >>> 30)) * 0xBF58476D1CE4E5B9#64
  let z := (z ^^^ (z >>> 27)) * 0x94D049BB133111EB#64
  z ^^^ (z >>> 31)

/-- The random number of R202 for row i, column origin col0, column j. -/
def srRand (seed : DWord) (i col0 j : Nat) : Nat :=
  let w := (mix64 (seed ^^^ (BitVec.ofNat 64 (2 ^ 32 * (i + 1) + col0) * 0x9E3779B97F4A7C15#64))).toNat % 2 ^ 32
  let s := (5 * j) % 32
  ((w / 2 ^ s) ||| (w * 2 ^ (32 - s))) % 65536

end Sys2Proof.Machine
end

