-- ==== Sys2Proof/Machine/Operands.lean ====
section
/-! DEFINITION. Operand specifiers: what an indexed specifier names (R99), the values of immediates and constants in each type
(R98), the reading of a source and the naming of a destination for one lane (R101, R146), and the post-steps (R100). -/

namespace Sys2Proof.Machine

/-- What a word sees while it issues: its group's key and core, its addresses, the issued lanes and those of them whose guard is
true, its header, its group as it stood at issue, and its launch. -/
structure Ctx where
  gk     : Nat
  core   : Nat
  pc     : DWord
  next   : DWord
  lanes  : Lanes
  active : Lanes
  h      : Hdr
  g      : Group
  l      : Launch
  deriving DecidableEq, Repr

/-- A lane's guard (R111). -/
def guardTrue (g : Group) (gd : Guard) (lane : Nat) : Bool :=
  match gd with
  | .f p n => pGet g lane p.toNat != n
  | .x p1 n1 p2 n2 gc =>
    let a := pGet g lane p1.toNat != n1
    let b := pGet g lane p2.toNat != n2
    match gc.toNat with
    | 0 => a && b
    | 1 => a || b
    | _ => a != b

/-- The lanes of a set whose guard is true. -/
def activeOf (g : Group) (gd : Guard) (m : Lanes) : Lanes :=
  lanesMask ((lanesOf m).filter fun l => guardTrue g gd l)

/-! ## Indexed specifiers, R99, R100 -/

def xBound (x : Word) : Nat := if (x.extractLsb' 8 8) = 0 then 256 else (x.extractLsb' 8 8).toNat

/-- The register that an indexed specifier names, or nothing where it raises the bound cause (R99). -/
def indexReg (x : Word) (k : BitVec 4) (wide : Bool) : Option Nat :=
  let e0 : Int := (x.extractLsb' 16 8).toNat + k.toInt
  let e? : Option Nat :=
    if x.getLsbD 28 then some (e0 % (xBound x : Int)).toNat
    else if e0 < 0 ∨ (xBound x : Int) ≤ e0 then none
    else some e0.toNat
  match e? with
  | none => none
  | some e =>
    let reg := (x.extractLsb' 0 8).toNat + (if x.getLsbD 29 then 2 * e else e)
    let two := x.getLsbD 29 || wide
    if reg + (if two then 1 else 0) > 255 || (two && reg % 2 == 1) then none else some reg

/-- CURSOR moved by a signed amount (R100, R169). -/
def moveCursor (x : Word) (step : Int) : Word :=
  let m : Int := if x.getLsbD 28 then xBound x else 256
  let c := (((x.extractLsb' 16 8).toNat : Int) + step) % m
  (x &&& ~~~0x00FF0000#32) ||| (BitVec.ofNat 32 (c.toNat * 2 ^ 16))

/-- A word's post-step of one index register in one lane (R100). -/
def stepIndex (g : Group) (lane i : Nat) : Group :=
  let x := xGet g lane i
  { g with xreg := tabPut g.xreg (8 * lane + i) (moveCursor x (x.extractLsb' 24 4).toInt) }

/-- Post-steps of the lanes of a set: every index register named with S = 1, once, unless the word writes it itself. -/
def postStep (i : Instr) (g : Group) (m : Lanes) : Group :=
  let rs := ((postSteps i).eraseDups).filter fun r => decide (xDest i ≠ some r)
  (lanesOf m).foldl (fun g l => rs.foldl (fun g r => stepIndex g l r.toNat) g) g

/-! ## Immediates and constants, R98 -/

/-- A fraction as a code of a type when the type holds it exactly, else the free value of `Config`. -/
def exactCode (t : Ty) (spec : Nat) (neg : Bool) (n d : Nat) : Nat :=
  let r := roundTy t .rn false neg 0 n d
  if r.2 = 0 then r.1 else Config.inexactConst (tyBits t * 32 + (if t = .bf16 then 1 else if t = .e5m2 then 2 else if t = .t8 then 3 else 0)) spec

/-- Constant entry c below 64: (1 + (c mod 4)/4) · 2^((c div 4) − 8), as a fraction. -/
def constFrac (c : Nat) : Nat × Nat := ((4 + c % 4) * 2 ^ (c / 4), 4 * 2 ^ 8)

/-- The 32-bit FP32 pattern of a constant entry below 64. -/
def constWord (c : Nat) : Nat := (roundTy .f32 .rn false false 0 (constFrac c).1 (constFrac c).2).1

/-- The value of an immediate or constant specifier as a bit pattern of the operand's type. -/
def immVal (consts : List Word) (t : Ty) (sp : Spec) : Nat :=
  match sp with
  | .imm n =>
    match tyInt? t with
    | some _ => ofInt (tyBits t) n.toInt
    | none => exactCode t n.toNat (decide (n.toInt < 0)) n.toInt.natAbs 1
  | .con c =>
    if c.toNat < 64 then
      match tyInt? t with
      | some _ => constWord c.toNat % 2 ^ tyBits t
      | none => exactCode t (128 + c.toNat) false (constFrac c.toNat).1 (constFrac c.toNat).2
    else
      let w := (consts.getD (c.toNat - 64) 0).toNat
      if t = .f64 then
        match fmtVal fmt32 w with
        | .nan _ => fmtNaN fmt64
        | v => (convVal .f64 .rn false 0 v).1
      else w % 2 ^ tyBits t
  | _ => 0

/-! ## Reading and naming registers -/

/-- The register that a vector or indexed specifier names for a lane, checked against the allocation (R99, R146); `n` registers
are named. The error is the bound cause. -/
def vecReg (c : Ctx) (lane : Nat) (wide : Bool) (n : Nat) (sp : Spec) : Except Nat Nat :=
  match sp with
  | .v r => if r.toNat + (if wide then 2 else 1) * n ≤ c.l.vregs then .ok r.toNat else .error cBND
  | .x _ i k =>
    match indexReg (xGet c.g lane i.toNat) k wide with
    | some r => if r + (if wide || (xGet c.g lane i.toNat).getLsbD 29 then 2 else 1) ≤ c.l.vregs then .ok r else .error cBND
    | none => .error cBND
  | _ => .error cBND

/-- A register or pair as one value. -/
def pairVal (lo hi : Word) : Nat := hi.toNat * 2 ^ 32 + lo.toNat

/-- The value of a source operand for a lane, as a bit pattern of its type (R98, R156, R158); `opnd` of R8. -/
def readOp (c : Ctx) (lane : Nat) (t : Ty) (sp : Spec) : Except Nat Nat :=
  match sp with
  | .imm _ => .ok (immVal c.l.consts t sp)
  | .con _ => .ok (immVal c.l.consts t sp)
  | .s n =>
    if tyWide t then .ok (pairVal (sGet c.l.sregs c.g n.toNat) (sGet c.l.sregs c.g (n.toNat + 1)))
    else .ok (sGet c.l.sregs c.g n.toNat).toNat
  | _ =>
    (vecReg c lane (tyWide t) 1 sp).map fun r =>
      if tyWide t then pairVal (vGet c.g lane r) (vGet c.g lane (r + 1)) else (vGet c.g lane r).toNat

/-- The writes of a value to a destination of a lane: one register, or an even/odd pair (R8). -/
def writesTo (c : Ctx) (lane : Nat) (wide : Bool) (sp : Spec) (x : Nat) : Except Nat (List (Tgt × Word)) :=
  match sp with
  | .s n =>
    .ok (if wide then [(.s n.toNat, BitVec.ofNat 32 x), (.s (n.toNat + 1), BitVec.ofNat 32 (x / 2 ^ 32))]
      else [(.s n.toNat, BitVec.ofNat 32 x)])
  | _ =>
    (vecReg c lane wide 1 sp).map fun r =>
      if wide then [(.v lane r, BitVec.ofNat 32 x), (.v lane (r + 1), BitVec.ofNat 32 (x / 2 ^ 32))]
      else [(.v lane r, BitVec.ofNat 32 x)]

/-- A uniform source position of an instruction that acts once per issue: every lane reads the same. -/
def readUni (c : Ctx) (t : Ty) (sp : Spec) : Nat :=
  match readOp c 0 t sp with
  | .ok x => x
  | .error _ => 0

/-- The address of R256: base plus the sign-extended 32-bit offset plus the X form's byte offset. -/
def memAddr (c : Ctx) (lane : Nat) (a b : Spec) (imm : BitVec 24) : Except Nat DWord := do
  let x ← readOp c lane .n64 a
  let y ← readOp c lane .n32 b
  return BitVec.ofNat 64 x + (BitVec.ofNat 32 y).signExtend 64 + imm.signExtend 64

/-- A 64-bit address operand. -/
def readAddr (c : Ctx) (lane : Nat) (sp : Spec) : Except Nat DWord :=
  (readOp c lane .n64 sp).map fun x => BitVec.ofNat 64 x

end Sys2Proof.Machine
end

