-- ==== Sys2Proof/Machine/Flags.lean ====
section
/-! DEFINITION. Arithmetic flags of a group (R189, R190): accumulation into FLG, and the arithmetic-flag cause of the lanes whose
flag FEN requests; causes that come after their lanes have moved on (R190, R354). -/

namespace Sys2Proof.Machine

/-- FLG after the flags that lanes raised (R190). -/
def addFlags (g : Group) (fl : Flags) : Group := { g with flg := g.flg ||| fl }

/-- The flags that any lane raised. -/
def orFlags (fs : List (Nat × Flags)) : Flags := fs.foldl (fun a e => a ||| e.2) 0

/-- The arithmetic-flag causes of the lanes that raised a flag FEN requests: %fcode holds the lane's flags in [20:16], and the
lane resumes at the address given (R190, R392). -/
def arfRaises (fen : Flags) (at' : Nat → DWord) (fs : List (Nat × Flags)) : List Raise :=
  (fs.filter fun e => e.2 &&& fen ≠ 0).map fun e => ⟨e.1, cARF, at' e.1, 0, BitVec.ofNat 32 (e.2.toNat * 2 ^ 16), 0⟩

/-- Lanes that stand at a BAR, or at a JOB whose card is still to be read: they go on when it releases them (R372, R334). -/
def atBar (g : Group) : Lanes :=
  g.outs.foldl (fun m o => match o.work with | .bar _ _ _ => m ||| o.lanes | .card _ => m ||| o.lanes | _ => m) 0

/-- A cause that a lane takes at the word it would issue next. -/
def dueRaise (g : Group) (d : Due) : Raise := ⟨d.lane, d.cause, pcOf g d.lane, d.fadr, d.fcode, d.info⟩

/-- Causes of an earlier instruction `pc`, for lanes that have moved on: a lane parks at the word it would issue next; one that waits
parked, or stands at a BAR, parks when it goes on; one that has exited takes none (R190, R354). -/
def lateCauses (s : State) (gk : Nat) (pc : DWord) (ds : List Due) : State :=
  let g := getGroup s gk
  let ds := ds.filter fun d => !g.exited.getLsbD d.lane
  let later := g.parked ||| atBar g
  let wait := ds.filter fun d => later.getLsbD d.lane
  let s := if wait.isEmpty then s else setGroup s gk { g with due := g.due ++ wait }
  takeLate s gk pc false ((ds.filter fun d => !later.getLsbD d.lane).map (dueRaise g))

/-- Flags of results written after their lanes have moved on: FLG takes them, and a lane whose flag FEN requests takes the
arithmetic-flag cause (R190). -/
def lateFlags (s : State) (gk : Nat) (pc : DWord) (fs : List (Nat × Flags)) : State :=
  let fs := fs.filter fun e => !(getGroup s gk).exited.getLsbD e.1
  let s := updGroup s gk fun g => addFlags g (orFlags fs)
  lateCauses s gk pc ((fs.filter fun e => e.2 &&& (getGroup s gk).fen ≠ 0).map fun e =>
    ⟨e.1, cARF, 0, BitVec.ofNat 32 (e.2.toNat * 2 ^ 16), 0, pc⟩)

/-- The causes that waited for lanes of a set that now go on: each such lane parks at the word it would issue next, with the flags of
all its results (R190). -/
def dueCauses (s : State) (gk : Nat) (m : Lanes) : State :=
  let g := getGroup s gk
  let go := fun (d : Due) => (m &&& ~~~g.parked &&& ~~~g.exited &&& ~~~(atBar g)).getLsbD d.lane
  let ds := g.due.filter go
  let all := fun (d : Due) => (ds.filter fun x => x.lane == d.lane && x.cause == d.cause).foldl (fun w x => w ||| x.fcode) 0
  if ds.isEmpty then s
  else takeLate (setGroup s gk { g with due := g.due.filter fun d => !go d }) gk ((ds.map (·.pc)).headD 0) false
    (ds.map fun d => dueRaise g { d with fcode := all d })

/-- What a group is owed, and the causes that waited for lanes that go on, as it is committed again (R190, R396). -/
def payDue (s : State) (gk : Nat) : State := dueCauses (payOwed s gk) gk (BitVec.allOnes 32)

end Sys2Proof.Machine
end

