-- ==== Sys2Proof/Machine/Perform.lean ====
section
/-! DEFINITION. Performing accesses at their points (R233, R357): what a load, a store, an atomic or a reduction of a lane does
once its bytes have their places (R259, R264 to R271), barrier objects (R374 to R378), and releases and acquires (R360, R361). -/

namespace Sys2Proof.Machine

/-! ## Items -/

/-- The lane accesses of an item. -/
def workAccs (w : Work) : List LaneAcc :=
  match w with
  | .load _ _ _ _ _ acc => acc
  | .ldk _ _ _ acc => acc
  | .store _ _ acc _ => acc
  | .atom _ _ _ _ _ acc => acc
  | .atoma _ _ _ _ acc _ => acc
  | .red _ _ _ acc => acc
  | _ => []

/-- Change the lane accesses of an item. -/
def mapAccs (w : Work) (f : List LaneAcc → List LaneAcc) : Work :=
  match w with
  | .load ty n u d sc acc => .load ty n u d sc (f acc)
  | .ldk ty n d acc => .ldk ty n d (f acc)
  | .store n sc acc x => .store n sc (f acc) x
  | .atom op cas ty d sc acc => .atom op cas ty d sc (f acc)
  | .atoma op ty d sc acc v => .atoma op ty d sc (f acc) v
  | .red op ty sc acc => .red op ty sc (f acc)
  | w => w

/-- One access of an item serves every lane of it (R261, R270). -/
def shared (w : Work) : Bool :=
  match w with
  | .load _ _ uni _ _ _ => uni
  | .atoma _ _ _ _ _ _ => true
  | _ => false

/-- The lanes that an access of an item is made for. -/
def accLanes (o : Out) (a : LaneAcc) : List Nat := if shared o.work then lanesOf o.lanes else [a.lane]

/-- The places that an item's accesses touch, with whether it writes there. -/
def touches (o : Out) : List (Nat × Loc × Bool) :=
  let of (w : Bool) (acc : List LaneAcc) := acc.flatMap fun a => match a.locs with
    | some ls => (accLanes o a).flatMap fun k => ls.map fun l => (k, l, w)
    | none => []
  let obj (w : Bool) (loc : Nat × Nat) := (List.range 8).map fun i => (32, Loc.scr loc.1 (loc.2 + i), w)
  match o.work with
  | .load _ _ _ _ _ acc => of false acc
  | .store _ _ acc _ => of true acc
  | .atom _ _ _ _ _ acc => of true acc
  | .atoma _ _ _ _ acc _ => of true acc
  | .red _ _ _ acc => of true acc
  | .boinit loc _ => obj true loc
  | .boarr loc _ _ => obj true loc
  | .bowait loc _ _ => obj false loc
  | .botest loc _ _ _ => obj false loc
  | _ => []

/-- Whether two places are bytes of one location, however they were reached. -/
def sameLoc (a b : Loc) : Bool :=
  match a, b with
  | .glob p _, .glob q _ => p == q
  | x, y => decide (x = y)

/-- Two places of one thread whose accesses are performed in issue order, whatever they do there: under memory type 2 (R233), and in one
256-byte line of a peer window (R304). -/
def inOrder (a b : Loc) : Bool :=
  match a, b with
  | .glob _ 2, .glob _ 2 => true
  | .glob p _, .glob q _ => p / 2 ^ 54 % 4 == 2 && p / 256 == q / 256
  | _, _ => false

/-- An item must wait for an earlier item of its group: overlapping bytes of one thread, one of them written, or places whose accesses
are performed in issue order (R233, R258, R304, R376). Lane 32 stands for the group. -/
def conflicts (a b : Out) : Bool :=
  (touches a).any fun x => (touches b).any fun y =>
    (x.1 == y.1 || x.1 == 32 || y.1 == 32) && ((sameLoc x.2.1 y.2.1 && (x.2.2 || y.2.2)) || inOrder x.2.1 y.2.1)

/-- The accesses of an item whose place is at the host, which must answer: memory type 2, or a host-backed byte read at .sys (R269). -/
def farAccs (w : Work) : List LaneAcc :=
  let far (sys : Bool) (acc : List LaneAcc) := acc.filter fun a => match a.locs with
    | some (.glob pa mt :: _) => hostBacked pa && (mt == 2 || sys)
    | _ => false
  match w with
  | .load _ _ _ _ sc acc => far (decide (sc = .sys)) acc
  | .atom _ _ _ _ _ acc => far false acc
  | .atoma _ _ _ _ acc _ => far false acc
  | .red _ _ _ acc => far false acc
  | _ => []

/-- An access of an engine that the host itself answers now: memory type 2, or a read of a byte that L2 does not hold. -/
def hostNow (s : State) (k : AccKind) (l : Loc) : Bool :=
  match l with
  | .glob pa mt => hostBacked pa && (mt == 2 || (decide (k = .read) && (tabFind s.l2 pa).isNone))
  | _ => false

/-- Some access of the item has a place at the host that must answer. -/
def hostBound (o : Out) : Bool := !(farAccs o.work).isEmpty

/-- Every access of the item has its place. -/
def placed (o : Out) : Bool :=
  let ok (acc : List LaneAcc) := acc.all fun a => a.locs.isSome
  match o.work with
  | .load _ _ _ _ _ acc => ok acc
  | .ldk _ _ _ acc => ok acc
  | .store _ _ acc _ => ok acc
  | .atom _ _ _ _ _ acc => ok acc
  | .atoma _ _ _ _ acc _ => ok acc
  | .red _ _ _ acc => ok acc
  | _ => true

/-- The item waits for no earlier conflicting item. -/
def mayPerform (g : Group) (o : Out) : Bool :=
  placed o && (g.outs.filter fun p => p.seq < o.seq).all fun p => !conflicts p o

/-! ## The order of operations on one word in a cycle, R375, R385 -/

/-- The scratchpad words that an item changes. -/
def objWords (o : Out) : List (Nat × Nat) :=
  ((touches o).filterMap fun x => match x.2.1 with | .scr t a => if x.2.2 then some (t, a / 8) else none | _ => none).eraseDups

/-! ## The order of requests on a line of a peer window, R304, R306 -/

/-- The lines of peer windows that an item asks for, one request for each access and line. -/
def peerLines (o : Out) : List Nat := (workAccs o.work).flatMap fun a => runsOf ((a.locs.getD []).filterMap peerLine)

/-- The lines of an outstanding item, in its group's count or replayed. -/
def linesLeft (s : State) (gk seq : Nat) : List Nat :=
  ((getGroup s gk).outs.filter fun o => o.seq == seq).flatMap peerLines ++
  s.elems.flatMap fun e => match e.act with | .item o => if e.gkey == gk && o.seq == seq then peerLines o else [] | _ => []

/-- No request to the line is outstanding that was made before the working ports of its window changed; `me` says which requests are the
asker's own. -/
def lineFree (s : State) (me : Nat × Nat × Nat → Bool) (line : Nat) : Bool :=
  s.peers.early.all fun es => es.any (fun x => me x && x.2.2 == line) || es.all fun x => x.2.2 != line || !(linesLeft s x.1 x.2.1).contains line

/-- An item's requests to peers may go: no earlier one on their lines is outstanding from before a change of ports (R304), and the replay
buffers of their ports have room (R306). -/
def peerTurn (s : State) (gk : Nat) (o : Out) : Bool :=
  let ls := peerLines o
  ls.isEmpty || (s.peers.unsent.isEmpty && ls.all (lineFree s fun x => x.1 == gk && x.2.1 == o.seq) &&
    (ls.map (portOf s)).all fun p => match p with
      | some p => decide ((getPort s p).sent.length + (ls.filter fun l => portOf s l == some p).length ≤ 128)
      | none => true)

/-- The working ports of some windows have changed: the requests on their lines that are outstanding are the earlier ones (R304). -/
def noteEarly (old s : State) : State :=
  let ws := (List.range 64).filter fun n => (winPorts old n).length != (winPorts s n).length
  let pick := fun (gk seq : Nat) (ls : List Nat) => (ls.filter fun l => ws.contains (l / 2 ^ 40 % 64)).map fun l => (gk, seq, l)
  let es := (s.groups.flatMap fun e => e.2.outs.flatMap fun o => pick e.1 o.seq (peerLines o)) ++
    s.elems.flatMap fun e => match e.act with | .item o => pick e.gkey o.seq (peerLines o) | _ => []
  if ws.isEmpty || es.isEmpty then s else { s with peers := { s.peers with early := s.peers.early ++ [es] } }

/-- Changes of ports whose earlier requests have all been performed are over. -/
def dropEarly (s : State) : State :=
  if s.peers.early.isEmpty then s
  else { s with peers := { s.peers with early := s.peers.early.filter fun es => es.any fun x => (linesLeft s x.1 x.2.1).contains x.2.2 } }

/-! ## Turns on a word -/

/-- Slots in the order of R375; a group off its core comes last. -/
def slotRank (g : Group) : Nat := (g.slot).getD (96 * Config.cores)

/-- Within one cycle the operations of groups on a word are applied in ascending core number, then slot: an item waits for the next cycle
once a higher slot's operation has changed one of its words. -/
def objTurn (s : State) (gk : Nat) (o : Out) : Bool :=
  s.objOps.isEmpty || (objWords o).all fun w => s.objOps.all fun e => e.1 != w || decide (e.2 ≤ slotRank (getGroup s gk))

/-- An engine's arrival comes before them: it waits for the next cycle once one of them has changed the word. -/
def engineTurn (s : State) (loc : Nat × Nat) : Bool := s.objOps.all fun e => e.1 != (loc.1, loc.2 / 8)

/-- A group's operation has changed its words. -/
def noteOps (s : State) (gk : Nat) (o : Out) : State :=
  let ws := objWords o
  if ws.isEmpty then s
  else { s with objOps := ws.map (fun w => (w, slotRank (getGroup s gk))) ++ s.objOps.filter fun e => !ws.contains e.1 }

/-- The item leaves the outstanding count; a marker park ends when none is left (R112, R117). -/
def retire (g : Group) (seq : Nat) : Group :=
  let os := g.outs.filter fun o => o.seq != seq
  { g with outs := os, mark := g.mark && !os.isEmpty }

/-! ## Barrier-object words, R374 -/

def objRead (s : State) (loc : Nat × Nat) : Nat :=
  leNat ((List.range 8).map fun i => scrByte s loc.1 (loc.2 + i))

def objGen (x : Nat) : Nat := x / 2 ^ 48 % 2 ^ 16
def objCount (x : Nat) : Nat := x / 2 ^ 24 % 2 ^ 24
def objArr (x : Nat) : Nat := x % 2 ^ 24
def objWord (gen count arr : Nat) : Nat := gen % 2 ^ 16 * 2 ^ 48 + count % 2 ^ 24 * 2 ^ 24 + arr % 2 ^ 24

/-- A place in the word at `loc`. -/
def onWord (loc : Nat × Nat) (l : Loc) : Bool := match l with | .scr t a => t == loc.1 && a / 8 == loc.2 / 8 | _ => false

/-- A BOTEST that has waited as BOWAIT does: its result is true in every lane (R378). -/
def testTrue (o : Out) (pd : Nat) : Out := { o with work := .result ((lanesOf o.lanes).map fun l => (Tgt.p l pd, 1)) [] }

/-- A held BOWAIT, or a BOTEST that waits as it does, whose object one step has changed: its condition is tested as that step leaves the
word, behind the group's own earlier accesses to it (R378). -/
def hitWait (s : State) (ls : List Loc) (g : Group) (o : Out) : Out :=
  match o.work with
  | .bowait loc n false =>
    if ls.any (onWord loc) && mayPerform g o && objGen (objRead s loc) != n then { o with work := .bowait loc n true } else o
  | .botest loc n pd true =>
    if ls.any (onWord loc) && mayPerform g o && objGen (objRead s loc) != n then testTrue o pd else o
  | _ => o

def holdsBowait (g : Group) : Bool := g.outs.any fun o => match o.work with | .bowait _ _ _ | .botest _ _ _ true => true | _ => false

/-- One step on scratchpad bytes has been made: the BOWAITs held on them are tested (R375, R378). -/
def testWaits (s : State) (ls : List Loc) : State :=
  if ls.any (fun l => match l with | .scr _ _ => true | _ => false) && s.groups.any fun e => holdsBowait e.2 then
    { s with groups := s.groups.map fun e => if holdsBowait e.2 then (e.1, { e.2 with outs := e.2.outs.map (hitWait s ls e.2) }) else e }
  else s

/-! ## Reading and writing -/

/-- Doorbell bytes are accessed as a whole (R295). -/
def doorOf (ls : List Loc) : Option Nat :=
  match ls with
  | .glob pa _ :: _ => match paKind pa with | .door o => some o | _ => none
  | _ => none

/-- An access that leaves its core: any but one of scope .core and memory type 0, which the L1 serves. -/
def noteL2 (s : State) (c : Nat) (scope : Scope) (ls : List Loc) : State :=
  match ls with
  | .glob _ mt :: _ => if scope = .core && mt == 0 then s else noteOut s c ls
  | .plaza _ :: _ => noteOut s c ls
  | _ => s

/-- Read the bytes of an access. -/
def readBytes (s : State) (func c : Nat) (scope : Scope) (ls : List Loc) : State × List Byte :=
  match doorOf ls with
  | some o => (s, leBytes ls.length (doorLoad s func o))
  | none => readLocs (noteL2 s c scope ls) c scope ls

def noteHost (s : State) (func : Nat) (scope : Scope) (ls : List Loc) : State :=
  match ls with
  | .glob pa mt :: _ =>
    if hostBacked pa && (mt == 2 || scope == .sys) then
      notePosted s (hostPort s func mt pa) pa
    else s
  | _ => s

/-- The dirty host bytes of L2 that a predicate selects are about to be written back: each travels on its port (R269, R300). -/
def noteBack (s : State) (port : Nat → Nat) (p : Nat → Bool) : State :=
  (s.l2.filter fun e => hostBacked e.1 && e.2.1 && p e.1).foldl (fun s e => notePosted s (port e.1) e.1) s

/-- Write the bytes of an access. -/
def writeBytes (s : State) (func c : Nat) (scope : Scope) (ls : List Loc) (bs : List Byte) : State :=
  match doorOf ls with
  | some o => doorStore s func o (leNat bs)
  | none =>
    let r := farBytes s (ls.zip bs)
    testWaits (noteHost (writeLocs (noteL2 r.1 c scope ls) c scope ls (r.2.map (·.2))) func scope ls) ls

/-! ## Elements in registers, R259 -/

/-- The register words of loaded bytes: narrow elements extended by their type, wider ones one or two registers each. -/
def loadWords (ty : Ty) (bs : List Byte) : List Word :=
  match tyBytes ty with
  | 1 => [if ty = .i8 then (BitVec.ofNat 8 (leNat bs)).signExtend 32 else BitVec.ofNat 32 (leNat bs)]
  | 2 => [if ty = .i16 then (BitVec.ofNat 16 (leNat bs)).signExtend 32 else BitVec.ofNat 32 (leNat bs)]
  | _ => (List.range (bs.length / 4)).map fun i => BitVec.ofNat 32 (leNat ((bs.drop (4 * i)).take 4))

/-- The writes of words to consecutive registers of a lane or of the group. -/
def regWrites (uni : Bool) (lane base : Nat) (ws : List Word) : List (Tgt × Word) :=
  (List.range ws.length).map fun i => ((if uni then Tgt.s (base + i) else Tgt.v lane (base + i)), ws.getD i 0)

/-! ## Atomics, R265 to R271 -/

/-- The new value of an atomic, as a bit pattern of its type (R265). -/
def atomNew (op : AtomOp) (ty : Ty) (old b : Nat) : Nat :=
  let w := tyBits ty
  match tyInt? ty with
  | some sg =>
    let x := if sg then toSigned w old else ((old % 2 ^ w : Nat) : Int)
    let y := if sg then toSigned w b else ((b % 2 ^ w : Nat) : Int)
    match op with
    | .add => (old + b) % 2 ^ w
    | .min => ofInt w (min x y)
    | .max => ofInt w (max x y)
    | .and => (old &&& b) % 2 ^ w
    | .or => (old ||| b) % 2 ^ w
    | .xor => (old ^^^ b) % 2 ^ w
    | .xch => b % 2 ^ w
  | none =>
    match op with
    | .add => (finish ty .rn false (resAdd (tyVal ty old) (tyVal ty b))).1
    | .min => (fminmax ty false old b).1
    | .max => (fminmax ty true old b).1
    | _ => b % 2 ^ w

/-- Before an atomic on a cached global byte, the core's L1 writes back its dirty bytes of it and drops their validity (R268). Under memory
type 1 it drops a clean copy, which may not be read again once L2 has been (R358). -/
def atomPrep (s : State) (c : Nat) (ls : List Loc) : State :=
  ls.foldl (fun s l =>
    match l with
    | .glob pa 0 =>
      let s := l1WriteBack s c fun a => a == pa
      updCore s c fun x => { x with l1 := tabErase x.l1 pa }
    | .glob pa 1 => dropStale s c pa
    | _ => s) s

/-- Read and write of an atomic at the point of performance: L2 for global memory, else where the bytes lie (R233). -/
def atomRead (s : State) (c : Nat) (ls : List Loc) : State × List Byte :=
  ls.foldl (fun (r : State × List Byte) l =>
    match l with
    | .glob pa mt =>
      match paKind pa with
      | .dram _ => (r.1, r.2 ++ [l2Byte r.1 pa])
      | .host _ => if mt = 2 then (r.1, r.2 ++ [memRead r.1.mem pa]) else (l2Fill r.1 pa, r.2 ++ [l2Byte r.1 pa])
      | _ => let q := readLoc r.1 c .dev l; (q.1, r.2 ++ [q.2])
    | _ => let q := readLoc r.1 c .dev l; (q.1, r.2 ++ [q.2])) (s, [])

def atomWrite (s : State) (c : Nat) (ls : List Loc) (bs : List Byte) : State :=
  (List.range ls.length).foldl (fun s i =>
    match ls.getD i (.plaza 0) with
    | .glob pa mt =>
      match paKind pa with
      | .dram _ => sigAdd (l2Put s pa (bs.getD i 0)) c pa
      | .host _ => if mt = 2 then writeLoc s c .sys (.glob pa mt) (bs.getD i 0) else sigAdd (l2Put s pa (bs.getD i 0)) c pa
      | _ => writeLoc s c .dev (.glob pa mt) (bs.getD i 0)
    | l => writeLoc s c .dev l (bs.getD i 0)) s

/-- The sectors of an atomic that writes nothing enter SIGF as those of one that does (R359). -/
def atomSigs (s : State) (c : Nat) (ls : List Loc) : State :=
  ls.foldl (fun s l => match l with
    | .glob pa mt => (match paKind pa with
      | .dram _ => sigAdd s c pa
      | .host _ => if mt = 2 then s else sigAdd s c pa
      | _ => s)
    | _ => s) s

/-- One indivisible read-modify-write: the state after it and the old value. -/
def atomStep (s : State) (c : Nat) (ls : List Loc) (f : Nat → Option Nat) : State × Nat :=
  let s := atomPrep (noteL2 s c .dev ls) c ls
  let r := atomRead s c ls
  let old := leNat r.2
  match f old with
  | some x => (testWaits (atomWrite r.1 c ls (leBytes ls.length x)) ls, old)
  | none => (atomSigs r.1 c ls, old)

/-- The register writes of an atomic's old value. -/
def oldWords (ty : Ty) (old : Nat) : List Word :=
  if tyWide ty then [BitVec.ofNat 32 old, BitVec.ofNat 32 (old / 2 ^ 32)] else [BitVec.ofNat 32 old]

/-! ## Barrier objects, R374 to R378 -/

/-- Writing an object's word is a plain store: its granule becomes untagged (R375). -/
def objWrite (s : State) (loc : Nat × Nat) (x : Nat) : State :=
  testWaits ((List.range 8).foldl (fun s i => scrPut s loc.1 (loc.2 + i) (BitVec.ofNat 8 (x / 2 ^ (8 * i)))) s) [.scr loc.1 loc.2]

/-- An arrival of k on an object word (R377): whole phases are carried into GEN. -/
def objArrive (x k : Nat) : Nat :=
  if k = 0 then x
  else if objCount x = 0 then objWord (objGen x + k) 0 0
  else
    let a := objArr x + k
    objWord (objGen x + a / objCount x) (objCount x) (a % objCount x)

/-- BOINIT: COUNT set, ARR cleared, GEN kept (R376). -/
def objInit (x count : Nat) : Nat := objWord (objGen x) count 0

/-- An engine's arrival at an object (R377). -/
def engineArrive (s : State) (loc : Nat × Nat) : State := objWrite s loc (objArrive (objRead s loc) 1)

/-! ## Releases and acquires, R360, R361 -/

/-- Cores of a scope, R363. -/
def scopeCores (s : State) (gk : Nat) (sc : Scope) : List Nat :=
  match sc with
  | .core => []
  | .nbhd =>
    let t := teamOf s gk
    let l := getLaunch s t.launch
    if l.nw * l.nh = 0 then t.cores
    else (s.teams.filter fun e => e.2.launch == t.launch && e.2.task / (l.nw * l.nh) == t.task / (l.nw * l.nh)).flatMap
      fun e => e.2.cores
  | .dev => List.range Config.cores
  | .sys => List.range Config.cores

/-- Cycle S of a release: the dirty bytes and SIGF are taken, and SIGF clears (R360). -/
def releaseTake (s : State) (id c : Nat) (sc : Scope) (cores : List Nat) : State :=
  let x := getCore s c
  let r : Release := ⟨id, c, sc, (x.l1.filter fun e => e.2.1).map fun e => (e.1, e.2.2), [], x.sigf, cores, s.now⟩
  { setCore s c { x with sigf := 0 } with rels := s.rels ++ [r] }

/-- A release that a group asks for, with the number by which its item names it. Those of one core in one cycle share the cycle S, the
write-back and the signature (R381). -/
def releaseAsk (s : State) (c : Nat) (sc : Scope) (cores : List Nat) : State × Nat :=
  match s.rels.find? fun r => r.core == c && r.cyc == s.now with
  | some r =>
    ({ s with rels := s.rels.map fun x => if x.id == r.id then
        { x with scope := if sc = .sys then .sys else x.scope, cores := x.cores ++ cores } else x }, r.id)
  | none => (releaseTake { s with uid := s.uid + 1 } s.uid c sc cores, s.uid)

/-- The write-back of the bytes that a release took: they become clean, but for those stored again since (R360). Bytes whose slice has been
lost meanwhile are written as any others (R93; log entry 122). -/
def releaseBytes (s : State) (r : Release) : State :=
  let s := r.bytes.foldl (fun s e => { s with l2 := tabPut s.l2 e.1 (true, e.2) }) s
  let clean := fun (e : Nat × (Bool × Byte)) =>
    if e.2.1 && !r.again.contains e.1 && r.bytes.any (fun b => b.1 == e.1) then (e.1, (false, e.2.2)) else e
  countEv (updCore s r.core fun x => { x with l1 := x.l1.map clean }) r.core 0x02 (linesOf (r.bytes.map (·.1)))

/-- The item waits for the release numbered `id`. -/
def asksRelease (id : Nat) (o : Out) : Bool :=
  match o.work with | .release _ i => i == id | .phsync _ i a => i == id && !a | _ => false

/-- The port of a byte that a release writes back to the host: that of the launch that asked for it, or for which the device did (R300). -/
def releasePort (s : State) (id pa : Nat) : Nat :=
  match s.groups.find? fun e => e.2.outs.any (asksRelease id) with
  | some e => hostPort s (launchOf s e.1).func 0 pa
  | none => (match s.teams.find? fun e => (e.2.frees.getD []).contains id with
    | some e => hostPort s (getLaunch s e.2.launch).func 0 pa
    | none => freePort s pa)

/-- The rest of a release: write-backs, the host bytes of L2 at .sys, the signature into the ACQF of the scope's other cores. -/
def releaseFinish (s : State) (r : Release) : State :=
  let s := releaseBytes { s with rels := s.rels.filter fun q => q.id != r.id } r
  let s := if r.scope = .sys then l2CleanHost (noteBack s (releasePort s r.id) fun _ => true) else s
  if r.sig = 0 then s
  else acqRecord s (fun c => c != r.core && r.cores.contains c) r.sig

/-- Releases that the device performs itself begin on cores, with the numbers by which it waits for them (R364). -/
def releaseAll (s : State) (cs : List Nat) (sc : Scope) : State × List Nat :=
  cs.foldl (fun r c => let q := releaseAsk r.1 c sc (List.range Config.cores); (q.1, r.2 ++ [q.2])) (s, [])

/-- These releases have completed. -/
def relsOver (s : State) (ids : List Nat) : Bool := ids.all fun id => !s.rels.any fun r => r.id == id

/-- An acquire's invalidation: the clean bytes whose sectors match the taken filter leave the L1 (R361). -/
def acquireDrop (s : State) (c : Nat) (f : BitVec 2048) : State :=
  countEv (l1DropClean s c fun pa => filtHas f pa) c 0x09
    (linesOf (((getCore s c).l1.filter fun e => !e.2.1 && filtHas f e.1).map (·.1)))

/-- An acquire begins: ACQF is taken and cleared. -/
def acquireTake (s : State) (id c : Nat) (team : Option Nat) : State :=
  let x := getCore s c
  { setCore s c { x with acqf := 0 } with acqs := s.acqs ++ [⟨id, c, x.acqf, s.now, team⟩] }

/-- The acquire of a core before a team's first issue there (R364). -/
def acquireFor (tk : Nat) (s : State) (c : Nat) : State := acquireTake { s with uid := s.uid + 1 } s.uid c (some tk)

/-! ## Items -/

/-- The aligned 4-byte word below the constant caches: the bytes at L2, or the peer's (R262). -/
def lowWord (s : State) (a : Nat) : Word :=
  BitVec.ofNat 32 (leNat ((List.range 4).map fun i => match paKind (4 * a + i) with
    | .peer n o => memRead s.peers.mem (peerKey s n o)
    | _ => l2Byte s (4 * a + i)))

/-- The words of an LDK that its core's constant cache does not hold are filled, by an access where it holds nothing of the line (R262). -/
def ldkFill (s : State) (c : Nat) (ls : List Loc) : State :=
  let miss := ls.filter fun l => match l with
    | .glob pa _ => !(getCore s c).kcache.any fun e => e.1 / 16 == pa / 64
    | _ => false
  let s := noteOut s c miss
  let put := fun (t : List (Nat × Word)) (l : Loc) => match l with
    | .glob pa _ => (match tabFind t (pa / 4) with | some _ => t | none => tabPut t (pa / 4) (lowWord s (pa / 4)))
    | _ => t
  updCore s c fun x => { x with kcache := ls.foldl put x.kcache }

/-- The bytes that LDK reads, from the core's constant cache (R262). -/
def ldkBytes (s : State) (c : Nat) (ls : List Loc) : List Byte :=
  ls.map fun l => match l with
    | .glob pa _ => ((tabGet (lowWord s (pa / 4)) (getCore s c).kcache (pa / 4)) >>> (8 * (pa % 4))).setWidth 8
    | _ => 0

/-- Accesses that memory type 2 does not carry: every LDK, and the atomics without a PCIe AtomicOp (R262, R268). -/
def mtForbids (w : Work) (ls : List Loc) : Bool :=
  match ls with
  | .glob _ 2 :: _ =>
    (match w with
    | .ldk _ _ _ _ => true
    | .atom op cas ty _ _ _ => (tyInt? ty).isNone || !(cas || op == .add || op == .xch)
    | .atoma _ _ _ _ _ _ => true
    | .red op ty _ _ => (tyInt? ty).isNone || op != .add
    | _ => false)
  | _ => false

/-- The core that issued an item: the one that its group left since, for an item that it left outstanding there (R357). A replayed access
is made by the core on which its group stands. -/
def itemCore (s : State) (gk : Nat) (o : Out) : Nat :=
  match (getGroup s gk).away with
  | some (c, n) => if o.seq < n && (getGroup s gk).outs.any fun p => p.seq == o.seq then c else coreOf s gk
  | none => coreOf s gk

/-- Perform the accesses of an item, lane by lane in ascending order (R258): the state after it and the register writes. Lanes
whose bytes have no place yet are left out. -/
def performWork (s : State) (gk : Nat) (o : Out) : State × List (Tgt × Word) :=
  let c := itemCore s gk o
  let func := (launchOf s gk).func
  match o.work with
  | .load ty regs uni dst scope acc =>
    acc.foldl (fun (r : State × List (Tgt × Word)) a =>
      match a.locs with
      | some ls =>
        let q := readBytes r.1 func c scope ls
        (q.1, r.2 ++ (regWrites uni a.lane (tabGet 0 dst a.lane) (loadWords ty q.2)).take regs)
      | none => r) (s, [])
  | .ldk ty regs dst acc =>
    let s := acc.foldl (fun s a => match a.locs with | some ls => ldkFill s c ls | none => s) s
    (s, acc.flatMap fun a => match a.locs with
      | some ls => (regWrites false a.lane (tabGet 0 dst a.lane) (loadWords ty (ldkBytes s c ls))).take regs
      | none => [])
  | .store n scope acc wide =>
    (acc.foldl (fun s a =>
      match a.locs with
      | some ls => writeBytes s func c scope ls ((tabGet (leBytes n a.data.toNat) wide a.lane))
      | none => s) s, [])
  | .atom op cas ty dst _ acc =>
    acc.foldl (fun (r : State × List (Tgt × Word)) a =>
      match a.locs with
      | some ls =>
        let q := atomStep r.1 c ls fun old =>
          if cas then (if old = a.cmp.toNat % 2 ^ tyBits ty then some (a.data.toNat % 2 ^ tyBits ty) else none)
          else some (atomNew op ty old a.data.toNat)
        (q.1, r.2 ++ regWrites false a.lane (tabGet 0 dst a.lane) (oldWords ty q.2))
      | none => r) (s, [])
  | .red op ty _ acc =>
    (acc.foldl (fun s a =>
      match a.locs with
      | some ls => (atomStep s c ls fun old => some (atomNew op ty old a.data.toNat)).1
      | none => s) s, [])
  | .atoma op ty dst _ acc vals =>
    match acc with
    | a :: _ =>
      match a.locs with
      | some ls =>
        let sum := match vals with
          | [] => 0
          | v :: vs => vs.foldl (fun x e => atomNew op ty x e.2.toNat) v.2.toNat
        let q := atomStep s c ls fun old => some (atomNew op ty old sum)
        (q.1, (vals.foldl (fun (r : Nat × List (Tgt × Word)) e =>
          (atomNew op ty r.1 e.2.toNat, r.2 ++ regWrites false e.1 (tabGet 0 dst e.1) (oldWords ty r.1))) (q.2, [])).2)
      | none => (s, [])
    | [] => (s, [])
  | .boinit loc count => (objWrite s loc (objInit (objRead s loc) count), [])
  | .boarr loc k sd =>
    let x := objRead s loc
    (if k = 0 then s else objWrite s loc (objArrive x k), [(.s sd, BitVec.ofNat 32 (objGen x))])
  | .botest loc g pd _ =>
    (s, (lanesOf o.lanes).map fun l => (Tgt.p l pd, if objGen (objRead s loc) != g then 1 else 0))
  | .result ws _ => (s, ws)
  | .loaded ws => (s, ws)
  | .sfq _ _ _ ws _ => (s, ws)
  | _ => (s, [])

/-- The failed region that holds a place, once some region has failed (R93). -/
def locLost (s : State) (l : Loc) : Option Nat :=
  match l with
  | .plaza o => plazaLost s o
  | .glob pa mt => if mt = 2 then none else match paKind pa with
    | .dram _ => homeLost s pa
    | .host _ => homeLost s pa
    | _ => none
  | .scr _ _ => none

/-- Some port is out of order. -/
def anyDown (s : State) : Bool := s.peers.ports.any fun e => e.2.down

/-- The place is in a peer window without a working port (R306). -/
def locCut (s : State) (l : Loc) : Bool :=
  match l with
  | .glob pa _ => (match paKind pa with | .peer n _ => (winPorts s n).isEmpty | _ => false)
  | _ => false

/-- The access of a lane whose words have been read already. -/
def readAcc (l : Nat) : LaneAcc := ⟨l, 0, none, 0, 0⟩

/-- Accesses whose lane reads data with an uncorrectable soft error: the hardware error, with the region of the core (R391; log entry
83). An ACCLD reads for every lane of it (R339). -/
def struckAccs (s : State) (gk : Nat) (o : Out) : List (LaneAcc × Nat × Nat) :=
  let hit := fun (l : Nat) => s.struck.contains (gk, o.seq, l)
  let rows := fun (acc : List LaneAcc) => acc.map fun a => (a, cHWE, coreOf s gk)
  if s.struck.isEmpty then []
  else match o.work with
    | .load _ _ _ _ _ acc | .ldk _ _ _ acc | .atom _ _ _ _ _ acc | .atoma _ _ _ _ acc _ => rows (acc.filter fun a => hit a.lane)
    | .loaded [] => if (lanesOf o.lanes).any hit then rows ((lanesOf o.lanes).map readAcc) else []
    | .loaded _ => rows (((lanesOf o.lanes).filter hit).map readAcc)
    | _ => []

/-- Accesses of an item that can no longer be made, each with its cause: the access violation where no port carries its window any more
(R306), the hardware error with the region where it meets a lost byte (R93), or where a soft error struck it (R391). -/
def lostAccs (s : State) (gk : Nat) (o : Out) : List (LaneAcc × Nat × Nat) :=
  struckAccs s gk o ++
  (if !anyDown s then []
   else (workAccs o.work).filterMap fun a => if (a.locs.getD []).any (locCut s) then some (a, cACV, 0) else none) ++
  (if !anyLost s then []
   else (workAccs o.work).filterMap fun a => (a.locs.bind fun ls => ls.findSome? (locLost s)).map fun r => (a, cHWE, r))

/-- The item without some of its accesses. -/
def dropAccs (o : Out) (p : LaneAcc → Bool) : Out := { o with work := mapAccs o.work fun as => as.filter fun a => !p a }

/-- The item without the accesses that fail, and without the words that LDK has read for their lanes. -/
def dropBad (o : Out) (bad : List (LaneAcc × Nat × Nat)) : Out :=
  let o := dropAccs o fun a => bad.any fun b => b.1 == a
  match o.work with
  | .loaded ws => { o with work := .loaded (ws.filter fun w => match w.1 with | .v l _ => !bad.any fun b => b.1.lane == l | _ => true) }
  | _ => o

/-- The causes of accesses that fail after issue, in the lanes they were made for that have not exited. -/
def accRaises (g : Group) (o : Out) (bad : List (LaneAcc × Nat × Nat)) : List Raise :=
  bad.flatMap fun b => ((accLanes o b.1).filter fun l => !g.exited.getLsbD l).map fun l =>
    ⟨l, b.2.1, o.pc, if b.2.1 = cHWE then 0 else b.1.va, 0, b.2.2⟩

/-- Perform an item's accesses and write its results where they are still pending. A lane whose access can no longer be made performs
nothing and takes its cause (R93, R306); `tail` is what then becomes of the item. -/
def performWith (s : State) (gk : Nat) (o : Out) (tail : Group → Group) : State :=
  let bad := lostAccs s gk o
  let near := if bad.isEmpty then o else dropBad o bad
  let acts := inReplay s (teamOf s gk).launch
  let r := performWork (if acts then setActs s true else s) gk near
  let s := updGroup (noteOps (if acts then setActs r.1 s.obs.racts else r.1) gk near) gk fun g => tail (landRegs (launchOf s gk).sregs o.seq o.live g r.2)
  takeLate s gk o.pc false (accRaises (getGroup s gk) o bad)

/-- Perform an item of a group; it leaves the count, and flags of computed results follow (R190). -/
def performItem (s : State) (gk : Nat) (o : Out) : State :=
  let s := performWith s gk o fun g => retire g o.seq
  match o.work with
  | .result _ fl => lateFlags s gk o.pc fl
  | .sfq _ _ _ _ fl => lateFlags s gk o.pc fl
  | _ => s

def findOut (s : State) (gk seq : Nat) : Option Out := (getGroup s gk).outs.find? fun o => o.seq == seq

end Sys2Proof.Machine
end

