-- ==== Sys2Proof/Machine/Matrix.lean ====
section
/-! DEFINITION. Matrix work: operand maps and their addresses (R317 to R320, R328), the operand fetch (R323, R324), the products
of one step (R204, R206), job cards (R351 to R353) and the ownership of accumulators (R326). -/

namespace Sys2Proof.Machine

/-! ## Maps -/

def tileFmt (t : TileReg) : Option Ty :=
  match tyOf t.fmt with
  | .ok .q32 => none
  | .ok ty => some ty
  | .error _ => none

/-- Formats that a matrix operation multiplies (R316); the step in K (R206). -/
def mmaStepOf (ty : Ty) : Option Nat :=
  match ty with
  | .t6 => some 64
  | .t8 | .e4m3 | .e5m2 | .i8 | .n8 => some 32
  | .f16 | .bf16 => some 16
  | .f32 => some 4
  | .f64 => some 1
  | _ => none

/-- Formats with block scales, R203. -/
def scaledTy (ty : Ty) : Bool :=
  match ty with
  | .t6 | .t8 | .e4m3 | .e5m2 | .i8 | .n8 => true
  | _ => false

def eightFloat (ty : Ty) : Bool :=
  match ty with
  | .t8 | .e4m3 | .e5m2 => true
  | _ => false

def isI8 (ty : Ty) : Bool :=
  match ty with
  | .i8 | .n8 => true
  | _ => false

/-- A's and B's formats agree, R316. -/
def fmtsAgree (a b : Ty) : Bool :=
  (eightFloat a && eightFloat b) || (isI8 a && isI8 b) || (decide (a = b) && (mmaStepOf a).isSome)

/-- The space of an address agrees with SRC, R318. -/
def srcOk (src : BitVec 2) (a : DWord) : Bool :=
  match src.toNat with
  | 0 => spaceOf a == 0xF1
  | 1 => spaceOf a == 0xF2
  | 2 => spaceOf a == 0xF3
  | _ => isGlobal a

/-- A map that an operation can read, R318; `scales` says that the operation reads its block scales. -/
def mapOk (t : TileReg) (scales : Bool) : Bool :=
  match tileFmt t with
  | none => false
  | some ty =>
    decide (1 ≤ t.rows.toNat) && decide (t.rows.toNat ≤ 4096) && decide (1 ≤ t.cols.toNat) && decide (t.cols.toNat ≤ 4096) &&
    decide (t.smode ≠ 3) && (!scales || decide (t.smode = 0) || scaledTy ty) &&
    (decide (ty ≠ .t6) || decide (t.cols.toNat * 6 % 8 = 0)) && srcOk t.src t.base &&
    (!scales || decide (t.smode = 0) || srcOk t.src t.sptr)

/-- A plain address moved by the swizzle within its granule, R319. -/
def swizzle (swz : BitVec 3) (a : DWord) : DWord :=
  let g := a.toNat % 1024
  let b := g / 128 % 8
  let c := g / 16 % 8
  a - BitVec.ofNat 64 (16 * c) + BitVec.ofNat 64 (16 * (c ^^^ (b &&& swz.toNat)))

/-- The addresses of an element's bytes under a swizzle; T6 elements lie at bit offset 6j (R319, R192). -/
def elemAddrs (swz : BitVec 3) (ty : Ty) (base : DWord) (stride i j : Nat) : List DWord :=
  let row := base + BitVec.ofNat 64 (i * stride)
  if ty = .t6 then
    let lo := 6 * j / 8
    let hi := (6 * j + 5) / 8
    (List.range (hi + 1 - lo)).map fun k => swizzle swz (row + BitVec.ofNat 64 (lo + k))
  else (List.range (tyBytes ty)).map fun k => swizzle swz (row + BitVec.ofNat 64 (tyBytes ty * j + k))

/-- The code of an element from its bytes. -/
def elemCode (ty : Ty) (j : Nat) (bs : List Byte) : Nat :=
  if ty = .t6 then leNat bs / 2 ^ (6 * j % 8) % 64 else leNat bs

def mapAddrs (t : TileReg) (ty : Ty) (i j : Nat) : List DWord := elemAddrs t.swz ty t.base t.stride.toNat i j

/-- Addresses of the scale bytes of block β of a map row, R328. -/
def scaleAddrs (t : TileReg) (i b : Nat) : List DWord :=
  let nb := (t.cols.toNat + 31) / 32
  match t.smode.toNat with
  | 1 => [t.sptr + BitVec.ofNat 64 (i * nb + b)]
  | 2 => [t.sptr + BitVec.ofNat 64 (2 * (i * nb + b)), t.sptr + BitVec.ofNat 64 (2 * (i * nb + b) + 1)]
  | _ => []

/-! ## Fetching, R323, R324 -/

/-- Why a fetch stops: a cause with its address and region, or a page request. -/
inductive Stop where
  | bad (cause : Nat) (fadr : DWord) (info : Nat)
  | wait (s2 : Bool) (page : Nat) (va : DWord)
  | ask (page : Nat) (va : DWord)
  deriving DecidableEq, Repr

/-- The place of one byte, read (or written) for a group as for its lane (R318). A layout tag other than the swizzle stops the
fetch when `swz` is given (R320). Any failure of such a fetch has its address (R392). -/
def bytePlace (s : State) (gk lane : Nat) (k : AccKind) (swz : Option (BitVec 3)) (a : DWord) : State × Except Stop Loc :=
  match resolve s gk lane k 1 a with
  | (s, .bad c f i) => (s, .error (.bad c (if c = cHWE then a else f) i))
  | (s, .wait s2 p) => (s, .error (.wait s2 p a))
  | (s, .ask p) => (s, .error (.ask p a))
  | (s, .ok ls) =>
    match ls with
    | .scr t o :: _ =>
      match swz with
      | some z =>
        let tag := scrTag s t (o / 1024)
        if tag ≠ 0 ∧ tag ≠ z then (s, .error (.bad cLAY 0 0)) else (s, .ok (.scr t o))
      | none => (s, .ok (.scr t o))
    | l :: _ => (s, .ok l)
    | [] => (s, .error (.bad cACV a 0))

/-- The stop that counts among several: a cause before a page request, the lowest address among access violations. -/
def worse (a b : Stop) : Stop :=
  match a, b with
  | .bad c f i, .bad c' f' i' => if c = cACV ∧ c' = cACV ∧ f'.toNat < f.toNat then .bad c' f' i' else .bad c f i
  | .bad c f i, _ => .bad c f i
  | _, .bad c f i => .bad c f i
  | x, _ => x

/-- The places of a list of bytes. -/
def places (s : State) (gk lane : Nat) (k : AccKind) (swz : Option (BitVec 3)) (as : List DWord) : State × Except Stop (List Loc) :=
  as.foldl (fun (r : State × Except Stop (List Loc)) a =>
    let q := bytePlace r.1 gk lane k swz a
    match r.2, q.2 with
    | .ok ls, .ok l => (q.1, .ok (ls ++ [l]))
    | .ok _, .error e => (q.1, .error e)
    | .error e, .ok _ => (q.1, .error e)
    | .error e, .error e' => (q.1, .error (worse e e'))) (s, .ok [])

/-- A byte as an engine reads it: SRAM for the windows, L2 with the core's own dirty L1 bytes winning, the host under memory
type 2 (R277, R323). -/
def engByte (s : State) (c : Nat) (l : Loc) : State × Byte := readLoc s c .dev l

def engBytes (s : State) (c : Nat) (ls : List Loc) : State × List Byte :=
  ls.foldl (fun (r : State × List Byte) l => let q := engByte r.1 c l; (q.1, r.2 ++ [q.2])) (noteOut s c ls, [])

/-- Fetch bytes: all of them, or the stop. -/
def fetchBytes (s : State) (gk lane c : Nat) (swz : Option (BitVec 3)) (as : List DWord) : State × Except Stop (List Byte) :=
  match places s gk lane .read swz as with
  | (s, .error e) => (s, .error e)
  | (s, .ok ls) => let q := engBytes s c ls; (q.1, .ok q.2)

def tagCheck (t : TileReg) : Option (BitVec 3) := if t.src.toNat ≤ 1 then some t.swz else none

/-! ## One step of an output element, R204, R206 -/

def valAdd (a b : Val) : Val :=
  match resAdd a b with
  | .nan _ => .nan false
  | .inf n _ => .inf n
  | .fin n x d _ => .fin n x d

def valMul (a b : Val) : Val :=
  match resMul a b with
  | .nan _ => .nan false
  | .inf n _ => .inf n
  | .fin n x d _ => .fin n x d

/-- A finite value with its fraction reduced by powers of two, so that sums stay short. -/
def valTrim (v : Val) : Val :=
  match v with
  | .fin n x d => let k := Nat.gcd x d; if k ≤ 1 then .fin n x d else .fin n (x / k) (d / k)
  | v => v

def valInt (x : Int) : Val := .fin (decide (x < 0)) x.natAbs 1

/-- A block of one row of an operand: the decoded elements (`none` is padding, which equals the zero point) and its scale
bytes. -/
structure Block where
  scaled : Bool
  scale  : Nat
  zero   : Int
  elems  : List (Option Val)
  deriving DecidableEq, Repr

/-- What an element of a block contributes: 2^(S − 127) · (q − z); NaN when S is 255 (R203). `useScale` is false for integer
operands, whose scale bytes are ignored (R204). -/
def blockVal (b : Block) (useScale : Bool) (e : Option Val) : Val :=
  let q := match e with
    | some v => valAdd v (valInt (-b.zero))
    | none => .fin false 0 1
  if !useScale then q
  else if b.scaled && b.scale = 255 then .nan false
  else valMul q (if 127 ≤ b.scale then .fin false (2 ^ (b.scale - 127)) 1 else .fin false 1 (2 ^ (127 - b.scale)))

/-- T of R204, or the exact sum of a unit's products (R206). -/
def dotVal (useScale : Bool) (a b : Block) : Val :=
  ((a.elems.map (blockVal a useScale)).zip (b.elems.map (blockVal b useScale))).foldl
    (fun acc p => valTrim (valAdd acc (valMul p.1 p.2))) (.fin false 0 1)

/-- The element after the unit: one rounding to FP64, or wrapping INT64 (R206). -/
def accAfter (flt : Bool) (acc : DWord) (s : Val) : DWord :=
  if flt then BitVec.ofNat 64 (finish .f64 .rn false (resAdd (fmtVal fmt64 acc.toNat) s)).1
  else match s with
    | .fin neg n _ => if neg then acc - BitVec.ofNat 64 n else acc + BitVec.ofNat 64 n
    | _ => acc

/-! ## Steps of an operation, R346 -/

/-- The unit in K of two maps: the block when either has scales, else the step of the format (R206). -/
def unitOf (ta tb : TileReg) : Nat :=
  if ta.smode ≠ 0 ∨ tb.smode ≠ 0 then 32
  else match tileFmt ta with
    | some ty => (mmaStepOf ty).getD 1
    | none => 1

/-- Row offsets of slice q in the output part of a shape, R315. -/
def sliceOfs (shape q : Nat) : Nat × Nat :=
  match shape with
  | 1 => (0, 16 * q)
  | 2 => (16 * (q / 2), 16 * (q % 2))
  | 3 => (16 * q, 0)
  | _ => (0, 0)

/-- Addresses of an operand row's elements k0 to k1 − 1 that lie in the map, and of the scale bytes of its block. -/
def rowAddrs (t : TileReg) (ty : Ty) (r : Int) (k0 k1 : Nat) : List DWord × List DWord :=
  if r < 0 ∨ (t.rows.toNat : Int) ≤ r then ([], [])
  else
    let i := r.toNat
    ((List.range (k1 - k0)).flatMap fun d => if k0 + d < t.cols.toNat then mapAddrs t ty i (k0 + d) else [],
     if t.smode ≠ 0 ∧ k0 < t.cols.toNat then scaleAddrs t i (k0 / 32) else [])

/-- The block that a row's fetched bytes hold. -/
def rowBlock (t : TileReg) (ty : Ty) (r : Int) (k0 k1 : Nat) (bs sc : List Byte) : Block :=
  let inRow := decide (0 ≤ r) && decide (r < (t.rows.toNat : Int))
  let width := if ty = .t6 then 0 else tyBytes ty
  let el := fun d => if inRow && decide (k0 + d < t.cols.toNat) then
      (if ty = .t6 then
        let ofs := (List.range d).foldl (fun n x => n + ((6 * (k0 + x) + 5) / 8 + 1 - 6 * (k0 + x) / 8)) 0
        let n := (6 * (k0 + d) + 5) / 8 + 1 - 6 * (k0 + d) / 8
        some (tyVal ty (elemCode ty (k0 + d) ((bs.drop ofs).take n)))
      else some (tyVal ty (elemCode ty (k0 + d) ((bs.drop (width * d)).take width))))
    else none
  match sc with
  | [] => ⟨false, 127, 0, (List.range (k1 - k0)).map el⟩
  | s :: z => ⟨true, s.toNat, (match z with | b :: _ => toSigned 8 b.toNat | [] => 0), (List.range (k1 - k0)).map el⟩

/-- What an operation has read so far, beside the state. -/
abbrev Fetching (α : Type) := State × MatOp × Except Stop α

/-- How many bytes are read in one state: a line of SRC 3, a granule of a window (R323, R324). -/
def chunkSize (a : DWord) : Nat := if isGlobal a then 256 else 32

/-- The places of the chunk that holds a place. -/
def chunkLocs (l : Loc) : List Loc :=
  match l with
  | .scr t o => (List.range 32).map fun i => .scr t (o / 32 * 32 + i)
  | .plaza o => (List.range 32).map fun i => .plaza (o / 32 * 32 + i)
  | .glob pa mt => (List.range 256).map fun i => .glob (pa / 256 * 256 + i) mt

def lineOf (l : Loc) : Option Nat := match l with | .glob pa _ => some (pa / 256) | _ => none

/-- The operation reads the tag of a granule once, with its first byte (R243). -/
def noteTag (s : State) (m : MatOp) (a : DWord) (l : Loc) : MatOp :=
  match l with
  | .scr t o => if (tabFind m.tags (a.toNat / 1024)).isSome then m else { m with tags := tabPut m.tags (a.toNat / 1024) (scrTag s t (o / 1024)) }
  | _ => m

/-- The tag of a granule disagrees with the swizzle of the map that reads it (R320). -/
def tagBad (m : MatOp) (swz : Option (BitVec 3)) (a : DWord) : Bool :=
  match swz with
  | some z => let tag := tabGet 0#3 m.tags (a.toNat / 1024); tag != 0 && tag != z
  | none => false

/-- One operand byte: of a chunk that the operation has read, else of one that it reads now. -/
def opByte (s : State) (m : MatOp) (gk lane : Nat) (swz : Option (BitVec 3)) (a : DWord) : Fetching Byte :=
  let n := chunkSize a
  match m.chunks.find? fun c => c.va == a.toNat / n * n with
  | some c => if tagBad m swz a then (s, m, .error (.bad cLAY 0 0)) else (s, m, .ok (c.bytes.getD (a.toNat % n) 0))
  | none =>
    match bytePlace s gk lane .read none a with
    | (s, .error e) => (s, m, .error e)
    | (s, .ok l) =>
      let m := noteTag s m a l
      if tagBad m swz a then (s, m, .error (.bad cLAY 0 0))
      else
        let q := engBytes s m.core (chunkLocs l)
        (q.1, { m with chunks := m.chunks ++ [⟨a.toNat / n * n, lineOf l, q.2⟩] }, .ok (q.2.getD (a.toNat % n) 0))

/-- Operand bytes: all of them, or the stop that counts. -/
def opBytes (s : State) (m : MatOp) (gk lane : Nat) (swz : Option (BitVec 3)) (as : List DWord) : Fetching (List Byte) :=
  as.foldl (fun (r : Fetching (List Byte)) a =>
    let q := opByte r.1 r.2.1 gk lane swz a
    match r.2.2, q.2.2 with
    | .ok bs, .ok b => (q.1, q.2.1, .ok (bs ++ [b]))
    | .ok _, .error e => (q.1, q.2.1, .error e)
    | .error e, .ok _ => (q.1, q.2.1, .error e)
    | .error e, .error e' => (q.1, q.2.1, .error (worse e e'))) (s, m, .ok [])

/-- Two results of a fetch: both, or the stop that counts. -/
def both {α β : Type} (a : Except Stop α) (b : Except Stop β) : Except Stop (α × β) :=
  match a, b with
  | .ok x, .ok y => .ok (x, y)
  | .error e, .ok _ => .error e
  | .ok _, .error e => .error e
  | .error e, .error e' => .error (worse e e')

/-- Fetch sixteen rows of an operand for one unit. -/
def fetchRows (s : State) (m : MatOp) (gk lane : Nat) (t : TileReg) (ty : Ty) (r0 : Int) (k0 k1 : Nat) : Fetching (List Block) :=
  (List.range 16).foldl (fun (acc : Fetching (List Block)) (i : Nat) =>
    let r := r0 + (i : Int)
    let as := rowAddrs t ty r k0 k1
    let q := opBytes acc.1 acc.2.1 gk lane (tagCheck t) as.1
    let z := opBytes q.1 q.2.1 gk lane none as.2
    (z.1, z.2.1, (both acc.2.2 (both q.2.2 z.2.2)).map fun x => x.1 ++ [rowBlock t ty r k0 k1 x.2.1 x.2.2])) (s, m, .ok [])

/-- One unit for one signer: the 256 new elements, or the stop. -/
def unitResult (s : State) (m : MatOp) (sg : Signer) (k0 k1 : Nat) : Fetching (List DWord) :=
  match tileFmt m.ta, tileFmt m.tb with
  | some tya, some tyb =>
    let lane := ((lanesOf sg.lanes).headD 0)
    let o := sliceOfs m.shape sg.slice
    let qa := fetchRows s m sg.gkey lane m.ta tya (m.arow + (o.1 : Int)) k0 k1
    let qb := fetchRows qa.1 qa.2.1 sg.gkey lane m.tb tyb (m.brow + (o.2 : Int)) k0 k1
    let g := getGroup qb.1 sg.gkey
    (qb.1, qb.2.1, (both qa.2.2 qb.2.2).map fun x => (List.range 256).map fun e =>
      accAfter m.flt (aGet g sg.acc e)
        (dotVal m.flt (x.1.getD (e / 16) ⟨false, 127, 0, []⟩) (x.2.getD (e % 16) ⟨false, 127, 0, []⟩)))
  | _, _ => (s, m, .error (.bad cBND 0 0))

/-- The addresses that a signer's part of an operation reads from K offset k0 to k1 − 1. -/
def partAddrs (m : MatOp) (sg : Signer) (k0 k1 : Nat) : List DWord :=
  match tileFmt m.ta, tileFmt m.tb with
  | some tya, some tyb =>
    let o := sliceOfs m.shape sg.slice
    let rows := fun (t : TileReg) (ty : Ty) (r0 : Int) => (List.range 16).flatMap fun (i : Nat) =>
      let as := rowAddrs t ty (r0 + (i : Int)) k0 k1
      as.1 ++ (if t.smode = 0 then [] else (List.range ((k1 + 31) / 32 - k0 / 32)).flatMap fun b =>
        (rowAddrs t ty (r0 + (i : Int)) (32 * (k0 / 32 + b)) (32 * (k0 / 32 + b))).2)
    rows m.ta tya (m.arow + (o.1 : Int)) ++ rows m.tb tyb (m.brow + (o.2 : Int))
  | _, _ => []

/-- A line stays pinned, and a granule kept, until every step that needs it has consumed it (R323). -/
def keepNeeded (m : MatOp) (k1 kend : Nat) : MatOp :=
  if kend ≤ k1 then { m with chunks := [], tags := [] }
  else
    let need := m.signers.flatMap fun sg => (partAddrs m sg k1 kend).map fun a => a.toNat / chunkSize a * chunkSize a
    { m with chunks := m.chunks.filter fun c => need.contains c.va }

/-- The lowest address of each page of a list of addresses. -/
def pageAddrs (as : List DWord) : List DWord :=
  as.foldl (fun r a =>
    if r.any fun x => x.toNat / 4096 == a.toNat / 4096 then
      r.map fun x => if x.toNat / 4096 = a.toNat / 4096 ∧ a.toNat < x.toNat then a else x
    else r ++ [a]) []

/-- The pages of global memory that a signer's part of an MMA reads. -/
def partPages (m : MatOp) (sg : Signer) : List DWord :=
  if !isGlobal m.ta.base && !isGlobal m.tb.base then []
  else pageAddrs ((partAddrs m sg m.koff.toNat (m.koff.toNat + m.klen)).filter fun a => isGlobal a)

/-- Lines pinned on a core (R323). -/
def pinned (s : State) (c : Nat) : List Nat :=
  ((s.mats.filter fun m => m.core == c).flatMap fun m => m.chunks.filterMap (·.line)).eraseDups

/-- Checks of R316, R318 and R347 on an operation of one signer's group. -/
def mmaValid (ta tb : TileReg) (flt : Bool) (koff klen : Int) : Bool :=
  match tileFmt ta, tileFmt tb with
  | some a, some b =>
    mapOk ta true && mapOk tb true && fmtsAgree a b && (flt == !isI8 a) &&
    ((decide (ta.smode = 0) && decide (tb.smode = 0)) || (decide (koff % 32 = 0) && decide (klen % 32 = 0)))
  | _, _ => false

/-! ## Job cards, R351, R352 -/

def cardBits (card : List Byte) (hi lo : Nat) : Nat := bitsOf (leNat card) hi lo

structure JobLevel where
  count : Nat
  darow : Int
  dbrow : Int
  dkoff : Int
  dacc  : Int
  deriving DecidableEq, Repr

def jobLevel (card : List Byte) (n : Nat) : JobLevel :=
  let b := 80 * n + 112
  let c := cardBits card (b + 11) b
  ⟨if c = 0 then 1 else c, toSigned 16 (cardBits card (b + 31) (b + 16)), toSigned 16 (cardBits card (b + 47) (b + 32)),
    toSigned 16 (cardBits card (b + 63) (b + 48)), toSigned 8 (cardBits card (b + 71) (b + 64))⟩

/-- Operations of a card's walk. -/
def jobTotal (card : List Byte) : Nat := (List.range 5).foldl (fun p n => p * (jobLevel card n).count) 1

/-- The index at each level of operation number `idx`, level 4 innermost (R353). -/
def jobIndex (card : List Byte) (idx : Nat) : List Nat :=
  ((List.range 5).reverse.foldl (fun (r : List Nat × Nat) n =>
    ((r.2 % (jobLevel card n).count) :: r.1, r.2 / (jobLevel card n).count)) ([], idx)).1

/-- arow, brow, koff and accumulator of operation number `idx` (R353). -/
def jobAt (card : List Byte) (idx : Nat) : Int × Int × Int × Int :=
  let ix := jobIndex card idx
  let sum := fun (f : JobLevel → Int) (o : Nat) =>
    (List.range 5).foldl (fun a n => a + ((ix.getD n 0 : Nat) : Int) * f (jobLevel card n)) (o : Int)
  (sum (·.darow) (cardBits card 60 48), sum (·.dbrow) (cardBits card 76 64), sum (·.dkoff) (cardBits card 92 80),
    sum (·.dacc) (cardBits card 13 8))

/-- A card that is accepted, R354. -/
def cardOk (card : List Byte) : Bool :=
  (cardBits card 24 20 == 9 || cardBits card 24 20 == 2) && decide (1 ≤ cardBits card 44 32) && decide (cardBits card 44 32 ≤ 4096)

/-- Reserved fields of a card read as zero, ACC0 left out: what signers compare (R350). -/
def cardKey (card : List Byte) : List Nat :=
  [cardBits card 3 0, cardBits card 7 4, cardBits card 15 14, cardBits card 18 16, cardBits card 24 20, cardBits card 44 32,
    cardBits card 60 48, cardBits card 76 64, cardBits card 92 80, cardBits card 96 96] ++
  (List.range 5).flatMap fun n => [cardBits card (80 * n + 123) (80 * n + 112), cardBits card (80 * n + 183) (80 * n + 128)]

/-! ## Ownership, R326, R355 -/

/-- The accumulators that a card's walk names from a first one: every sum of its levels' steps. -/
def jobAccs (card : List Byte) (acc0 : Int) : List Int :=
  (List.range 5).foldl (fun as n =>
    let l := jobLevel card n
    if l.dacc = 0 then as
    else (as.flatMap fun a => (List.range l.count).map fun (i : Nat) => a + (i : Int) * l.dacc).eraseDups) [acc0]

/-- The accumulators that an operation owns for a signer: the one it names, or every one that the card's walk names. -/
def opAccs (m : MatOp) (sg : Signer) : List Int :=
  match m.job with
  | none => [(sg.acc : Int)]
  | some card => jobAccs card sg.acc

/-- An operation in flight owns an accumulator of a group. -/
def owned (s : State) (gk : Nat) (a : Int) : Bool :=
  s.mats.any fun m => m.signers.any fun sg => sg.gkey == gk && (opAccs m sg).contains a

/-- An accumulator load of the group that was issued before and waits for its pages (R344). -/
def loadWaits (s : State) (gk seq : Nat) (as : List Int) : Bool :=
  s.elems.any fun e => e.gkey == gk && (match e.act with
    | .item o => (match o.work with | .accld ad _ _ _ => decide (o.seq < seq) && as.contains (ad : Int) | _ => false)
    | _ => false)

/-- An earlier operation in flight owns an accumulator that this one writes, or an earlier load has still to fill it (R326, R344). -/
def behind (s : State) (m : MatOp) : Bool :=
  ((s.mats.takeWhile fun x => x.id != m.id).any fun x => x.signers.any fun a => m.signers.any fun b =>
    a.gkey == b.gkey && (opAccs m b).any fun n => (opAccs x a).contains n) ||
  m.signers.any fun b => loadWaits s b.gkey b.seq (opAccs m b)

end Sys2Proof.Machine
end

