-- ==== Sys2Proof/Machine/Page.lean ====
section
/-! DEFINITION. Page requests (R249 to R254): elements that wait, the slots of a function's queue, replies, replay, and the
requests to the host's page service (R301); the freezing of an engine context (R274), which a failed request causes. -/

namespace Sys2Proof.Machine

/-! ## Slots -/

def slotReset : PSlot := ⟨false, 0, false, .read, 0, 0, 0, 0⟩
/-- Slot `i` of function `f`. -/
def slotKey (f i : Nat) : Nat := 64 * f + i
def getSlot (s : State) (f i : Nat) : PSlot := tabGet slotReset s.slots (slotKey f i)
def setSlot (s : State) (f i : Nat) (x : PSlot) : State := { s with slots := tabPut s.slots (slotKey f i) x }

/-- The slot of a function that an element shares: same stage, PASID and page. -/
def sharedSlot (s : State) (e : Elem) : Option Nat :=
  (List.range 64).find? fun i =>
    let x := getSlot s e.func i
    x.valid && x.stage == e.stage && x.pasid == e.pasid && x.addr == e.page

def freeSlot (s : State) (f : Nat) : Option Nat := (List.range 64).find? fun i => !(getSlot s f i).valid

/-- An element takes the shared slot, or the lowest free one (which signals vector 2, R250, R298), or none. -/
def takeSlot (s : State) (e : Elem) : State × Elem :=
  if e.pri then (s, e)
  else match sharedSlot s e with
  | some i =>
    let x := getSlot s e.func i
    (setSlot s e.func i { x with waiters := min (x.waiters + 1) (2 ^ 32 - 1) }, { e with slot := some i })
  | none =>
    match freeSlot s e.func with
    | some i =>
      let x := getSlot s e.func i
      let s := setSlot s e.func i ⟨true, x.seq + 1, e.stage, e.kind, e.label, e.pasid, 1, e.page⟩
      let s := countEv s (coreOf s e.gkey) 0x05 1
      (signal s (if e.stage then 0 else e.func) 2, { e with slot := some i })
    | none => (s, e)

def faultKey (e : Elem) : Nat × Nat × Nat × Bool := (e.func, e.pasid, e.page, e.stage)

def faultCount (s : State) (k : Nat × Nat × Nat × Bool) : Nat := ((s.faults.find? fun x => x.1 == k).map (·.2)).getD 0

def setFault (s : State) (k : Nat × Nat × Nat × Bool) (n : Nat) : State :=
  let rest := s.faults.filter fun x => x.1 != k
  { s with faults := if n = 0 then rest else (k, n) :: rest }

/-- An element begins to wait. The first fault on its stage and page sets the count to 1 (R251). -/
def addElem (s : State) (e : Elem) : State :=
  let s := if !e.pri && faultCount s (faultKey e) = 0 then setFault s (faultKey e) 1 else s
  let r := takeSlot s e
  { r.1 with elems := r.1.elems ++ [r.2] }

/-- A matrix operation whose lanes wait at it (R249). -/
def opParked (s : State) (id : Nat) : Bool := s.mats.any fun m => m.id == id && m.parked

/-- The elements of groups that stand on a core walk at once; those of swapped-out groups walk at restoration (R253). The accesses of
engines and of jobs belong to no lane. -/
def onCore (s : State) (e : Elem) : Bool :=
  match e.act with
  | .engine _ => true
  | .matrix id => !opParked s id || (getGroup s e.gkey).slot.isSome
  | _ => (getGroup s e.gkey).slot.isSome

/-- Elements without a slot take those that are free now, lowest lane first (R250). -/
def fillSlots (s : State) : State :=
  let es := s.elems.filter fun e => e.slot.isNone && !e.pri && onCore s e
  (List.range 32).foldl (fun s l =>
    (es.filter fun e => (lanesOf e.lanes).headD 0 == l).foldl (fun s e =>
      let r := takeSlot s e
      { r.1 with elems := r.1.elems.map fun x => if x == e then r.2 else x }) s) s

/-! ## Elements of lane accesses -/

/-- Lanes park on a page request: no cause, but they leave every rejoin register (R249, R148). -/
def parkWaiting (g : Group) (m : Lanes) : Group := leaveJoins { g with parked := g.parked ||| m } m

def unpark (g : Group) (m : Lanes) : Group := { g with parked := g.parked &&& ~~~m }

def stepRegs (g : Group) (m : Lanes) (rs : List (BitVec 3)) : Group :=
  (lanesOf m).foldl (fun g l => rs.foldl (fun g r => stepIndex g l r.toNat) g) g

/-- Lanes whose elements have all been performed continue past the instruction (R252). -/
def lanesGoOn (s : State) (gk : Nat) (m : Lanes) (o : Out) (post : List (BitVec 3)) : State :=
  dueCauses (updGroup s gk fun g => stepRegs (setPcs (unpark g m) m o.next) m post) gk m

/-- Some other element of the same item still waits. -/
def sibling (s : State) (e : Elem) (o : Out) : Bool :=
  s.elems.any fun x => x.gkey == e.gkey && (match x.act with | .item p => p.seq == o.seq && x.lanes == e.lanes | _ => false)

/-! ## Engine and accumulator transfers, R339 to R342 -/

/-- Engine writes of bytes at their places: scratchpad and neighbourhood granules take layout code `c` (R242), global bytes are
performed at L2 (host bytes of memory type 2 at the host, on port 0, R300) and enter SIGF (R359). A peer's injection acts on them (R308). -/
def engWrite (s : State) (core : Nat) (c : BitVec 3) (ws : List (Loc × Byte)) : State :=
  let q := farBytes (noteOut s core (ws.map (·.1))) ws
  let s := q.1
  let ws := q.2
  let teams := (ws.filterMap fun w => match w.1 with | .scr t _ => some t | _ => none).eraseDups
  let s := teams.foldl (fun s t =>
    scrPutAll s t (ws.filterMap fun w => match w.1 with | .scr t' o => if t' == t then some (o, w.2) else none | _ => none) c) s
  ws.foldl (fun s w =>
    match w.1 with
    | .scr _ _ => s
    | .plaza o =>
      let s := noteWrite s (2 ^ 57 + o) false
      { s with plaza := memWrite s.plaza o w.2 }
    | .glob pa mt =>
      match paKind pa with
      | .peer n o =>
        let s := noteWrite s pa true
        { s with peers := { s.peers with mem := memWrite s.peers.mem (peerKey s n o) w.2 } }
      | _ =>
        if mt = 2 then
          let s := notePosted (noteWrite s pa true) 0 pa
          { s with mem := memWrite s.mem pa w.2 }
        else sigAdd (l2Put s pa w.2) core pa) s

/-- The clean copies of the written bytes leave the L1 of every core of the team (R277, R342). -/
def dropCopies (s : State) (team : Nat) (ws : List (Loc × Byte)) : State :=
  (getTeam s team).cores.foldl (fun s c =>
    l1DropClean s c fun pa => ws.any fun w => match w.1 with | .glob p 0 => p == pa | _ => false) s

/-- The map element of a tile element (R339). -/
def tileAddrs (t : TileReg) (ty : Ty) (org : Word) (e : Nat) : Option (List DWord) :=
  let i := (org.extractLsb' 0 13).toNat + e / 16
  let j := (org.extractLsb' 16 13).toNat + e % 16
  if i < t.rows.toNat && j < t.cols.toNat then some (mapAddrs t ty i j) else none

/-- What a map element becomes as an accumulator element, R341. -/
def widen (ty : Ty) (code : Nat) : DWord :=
  match tyInt? ty with
  | some sg => BitVec.ofNat 64 (ofInt 64 (if sg then toSigned (tyBits ty) code else ((code % 2 ^ tyBits ty : Nat) : Int)))
  | none =>
    match tyVal ty code with
    | .nan _ => BitVec.ofNat 64 (fmtNaN fmt64)
    | v => BitVec.ofNat 64 (convVal .f64 .rn false 0 v).1

/-- The addresses of a tile's elements that lie in the map. -/
def tileWindow (t : TileReg) (ty : Ty) (org : Word) : List DWord :=
  (List.range 256).flatMap fun e => (tileAddrs t ty org e).getD []

/-- Read the bytes whose pages translate, and the stops of the others. -/
def fetchSome (s : State) (gk lane c : Nat) (swz : Option (BitVec 3)) (as : List DWord) : State × List (DWord × Byte) × List Stop :=
  let r := as.foldl (fun (r : State × List (DWord × Loc) × List Stop) a =>
    match bytePlace r.1 gk lane .read swz a with
    | (s, .ok l) => (s, r.2.1 ++ [(a, l)], r.2.2)
    | (s, .error e) => (s, r.2.1, r.2.2 ++ [e])) (s, [], [])
  let q := engBytes r.1 c (r.2.1.map (·.2))
  (q.1, (r.2.1.map (·.1)).zip q.2, r.2.2)

/-- The cause among several stops, if one of them is a cause. -/
def stopCause (xs : List Stop) : Option (Nat × DWord × Nat) :=
  match xs with
  | [] => none
  | x :: t => match t.foldl worse x with
    | .bad c f i => some (c, f, i)
    | _ => none

/-- The pages that stops wait on, each with its stage, one address in it, and whether the host's page service is asked. -/
def stopPages (xs : List Stop) : List (Bool × Nat × DWord × Bool) :=
  xs.foldl (fun r x =>
    let q := match x with
      | .wait s2 p va => some (s2, p, va, false)
      | .ask p va => some (false, p, va, true)
      | .bad _ _ _ => none
    match q with
    | some w => if r.any (fun y => y.1 == w.1 && y.2.1 == w.2.1 && y.2.2.2 == w.2.2.2) then r else r ++ [w]
    | none => r) []

/-- ACCLD: the 256 new elements from the bytes read; an element beyond the map is zero (R341). -/
def tileVals (t : TileReg) (ty : Ty) (org : Word) (got : List (DWord × Byte)) : List DWord :=
  (List.range 256).map fun e =>
    match tileAddrs t ty org e with
    | none => 0
    | some as => widen ty (elemCode ty ((org.extractLsb' 16 13).toNat + e % 16)
        (as.map fun a => ((got.find? fun x => x.1 == a).map (·.2)).getD 0))

/-- Write a whole accumulator tile. -/
def putTile (g : Group) (ad : Nat) (xs : List DWord) : Group :=
  (List.range 256).foldl (fun g e => aSet g ad e (xs.getD e 0)) g

/-- Contributions to bytes by address, joined: mask and value. -/
def joinBytes (xs : List (DWord × Nat × Nat)) : List (DWord × Nat × Nat) :=
  xs.foldl (fun r x =>
    match r.find? fun y => y.1 == x.1 with
    | some _ => r.map fun y => if y.1 == x.1 then (y.1, y.2.1 ||| x.2.1, y.2.2 &&& (255 - x.2.1) ||| x.2.2) else y
    | none => r ++ [x]) []

/-- A byte with what its elements contribute, as it is written: the bits that no element covers stay as they are. -/
def mergeByte (s : State) (core : Nat) (l : Loc) (x : Nat × Nat) : State × Byte :=
  if x.1 = 255 then (s, BitVec.ofNat 8 x.2)
  else let q := engByte s core l; (q.1, BitVec.ofNat 8 (q.2.toNat &&& (255 - x.1) ||| x.2))

def mergeBytes (s : State) (core : Nat) (xs : List (Loc × Nat × Nat)) : State × List (Loc × Byte) :=
  xs.foldl (fun (r : State × List (Loc × Byte)) x => let q := mergeByte r.1 core x.1 x.2; (q.1, r.2 ++ [(x.1, q.2)]))
    (noteOut s core ((xs.filter fun x => x.2.1 != 255).map (·.1)), [])

/-- Write the bytes of an ACCST whose pages all translate; those of other pages are left. -/
def accstWrite (s : State) (gk lane : Nat) (bytes : List (DWord × Nat × Nat)) (swz : BitVec 3) : State :=
  let r := bytes.foldl (fun (r : State × List (Loc × Nat × Nat)) w =>
    match bytePlace r.1 gk lane .write none w.1 with
    | (s, .ok l) => (s, r.2 ++ [(l, w.2)])
    | (s, .error _) => (s, r.2)) (s, [])
  let m := mergeBytes r.1 (coreOf r.1 gk) r.2
  actsFor m.1 (teamOf m.1 gk).launch fun s => dropCopies (engWrite s (coreOf s gk) swz m.2) (getGroup s gk).team m.2

/-- The stops of a transfer's writes. -/
def writeStops (s : State) (gk lane : Nat) (bytes : List (DWord × Nat × Nat)) : State × List Stop :=
  bytes.foldl (fun (r : State × List Stop) b =>
    match bytePlace r.1 gk lane .write none b.1 with
    | (s, .ok _) => (s, r.2)
    | (s, .error e) => (s, r.2 ++ [e])) (s, [])

/-! ## Replay, R251 to R254 -/

/-- An element whose accesses have their places: it waits for the host's completion, or for an earlier access of its thread. -/
def hasPlace (e : Elem) : Bool :=
  match e.act with
  | .item o => (workAccs o.work).any fun a => a.locs.isSome
  | _ => false

/-- The item of a replayed access may be performed: no earlier access that it must follow is still to come, whether it stands in the
group's count or was replayed and waits (R233, R258). -/
def mayReplay (s : State) (gk : Nat) (o : Out) : Bool :=
  mayPerform (getGroup s gk) o && objTurn s gk o && peerTurn s gk o && s.elems.all fun e => match e.act with
    | .item p => !(e.gkey == gk && hasPlace e && decide (p.seq < o.seq) && conflicts p o)
    | _ => true

/-- A replayed access is performed, and its lanes continue once nothing of their instruction waits (R252). -/
def replayItem (s : State) (e : Elem) (o : Out) : State :=
  let s := performWith s e.gkey (notOvertaken (getGroup s e.gkey) o) id
  if sibling s e o then s else lanesGoOn s e.gkey (e.lanes &&& (getGroup s e.gkey).parked) o e.post

/-- The operation of an MMA begins once every page of its operands is there: its lanes continue past it (R252). -/
def mmaGo (s : State) (m : MatOp) : State :=
  m.signers.foldl (fun s sg =>
    let s := updGroup s sg.gkey fun g =>
      let g := setPcs (unpark g sg.lanes) sg.lanes (sg.pc + 16)
      { g with outs := g.outs ++ [⟨sg.seq, sg.pc, sg.pc + 16, sg.lanes, .mma m.id, []⟩] }
    dueCauses s sg.gkey sg.lanes) { s with mats := s.mats.map fun x => if x.id == m.id then { x with parked := false } else x }

/-- One page fewer that a matrix operation waits for. -/
def matPage (s : State) (id : Nat) : State :=
  match s.mats.find? fun m => m.id == id with
  | none => s
  | some m =>
    let s : State := { s with mats := s.mats.map fun x => if x.id == id then { x with waits := x.waits - 1 } else x }
    if m.parked && decide (m.waits ≤ 1) then mmaGo s { m with waits := 0 } else s

/-- The element's walk succeeded: it is performed, and its lanes continue once nothing of their instruction waits. -/
def elemDone (s : State) (e : Elem) (ls : List Loc) : State :=
  match e.act with
  | .refetch _ =>
    let s := updGroup s e.gkey fun g => unpark g e.lanes
    dueCauses s e.gkey e.lanes
  | .item o =>
    let l0 := (lanesOf e.lanes).headD 0
    match o.work with
    | .accld ad tm org got =>
      match tileFmt tm with
      | none => s
      | some ty =>
        let r := fetchSome s e.gkey l0 (coreOf s e.gkey) (tagCheck tm)
          ((tileWindow tm ty org).filter fun a => a.toNat / 4096 == e.va.toNat / 4096)
        match stopCause r.2.2 with
        | some (c, f, i) =>
          let s := { r.1 with elems := r.1.elems.filter fun x =>
            !(x.gkey == e.gkey && (match x.act with | .item p => p.seq == o.seq && x.lanes == e.lanes | _ => false)) }
          takeLate s e.gkey o.pc false ((lanesOf e.lanes).map fun l => ⟨l, c, o.pc, f, 0, i⟩)
        | none =>
          let got := got ++ r.2.1
          if sibling r.1 e o then
            { r.1 with elems := r.1.elems.map fun x => match x.act with
              | .item p => if x.gkey == e.gkey && p.seq == o.seq then
                  { x with act := .item { p with work := .accld ad tm org got } } else x
              | _ => x }
          else lanesGoOn (updGroup r.1 e.gkey fun g => putTile g ad (tileVals tm ty org got)) e.gkey e.lanes o e.post
    | .accst bytes swz _ =>
      let s := accstWrite s e.gkey l0 (bytes.filter fun w => w.1.toNat / 4096 == e.va.toNat / 4096) swz
      if sibling s e o then s else lanesGoOn s e.gkey e.lanes o e.post
    | w =>
      let o := { o with work := mapAccs w fun as => as.map fun a => { a with locs := some ls } }
      if hostBound o || !mayReplay s e.gkey o then
        { s with elems := s.elems ++ [{ e with act := .item o, slot := none, pri := true, replied := false }] }
      else replayItem s e o
  | .outSeq seq =>
    updGroup s e.gkey fun g =>
      let os := g.outs.map fun (o : Out) =>
        if o.seq = seq then
          { o with work := mapAccs o.work fun as => as.map fun a => if e.lanes.getLsbD a.lane then { a with locs := some ls } else a }
        else o
      stepRegs { g with outs := os } e.lanes e.post
  | .engine id => { s with cmds := s.cmds.map fun c => if c.id == id then { c with waits := c.waits - 1 } else c }
  | .matrix id => matPage s id

/-- Replayed accesses that waited only for an earlier one of their thread, and may now be performed. -/
def replayWaiting (s : State) : State :=
  (s.elems.filter hasPlace).foldl (fun s e => match e.act with
    | .item o =>
      if s.elems.contains e && !hostBound o && mayReplay s e.gkey o then
        replayItem { s with elems := s.elems.filter fun x => x != e } e o else s
    | _ => s) s

/-- The elements of a request leave it, so that its WAITERS counts those that wait (R250). -/
def leaveSlotOf (s : State) (e : Elem) : State :=
  match e.slot with
  | some i => setSlot s e.func i { getSlot s e.func i with waiters := (getSlot s e.func i).waiters - 1 }
  | none => s

/-- Elements go, each from its request. -/
def dropElems (s : State) (p : Elem → Bool) : State :=
  let gone := s.elems.filter p
  gone.foldl leaveSlotOf { s with elems := s.elems.filter fun e => !p e }

/-- A team's engine context freezes on the command or job numbered `id`: that one and every later one of the team do nothing and set no
tag, and the earlier ones go on (R274, R405). A fatal-lane record names the launch, the team and the command's program counter, and the
grid ends (kind 0x04 of R403, whose DETAIL is the tag, or 0xFF). -/
def engineFreeze (s : State) (team : Nat) (pc : DWord) (tag id : Nat) : State :=
  let t := getTeam s team
  let l := getLaunch s t.launch
  let gone := fun (x : Nat) => decide (id ≤ x)
  let dead := s.cmds.filter fun c => c.team == team && gone c.id
  let jobs := s.mats.filter fun m => m.team == team && m.job.isSome && gone m.id
  let s := dropElems (updTeam s team fun t => { t with frozen := true }) fun e => match e.act with
    | .engine n => dead.any fun c => c.id == n
    | .matrix n => jobs.any fun m => m.id == n
    | _ => false
  let s : State := { s with
    cmds := s.cmds.filter fun c => !(c.team == team && gone c.id),
    mats := s.mats.filter fun m => !(m.team == team && m.job.isSome && gone m.id) }
  let s := dead.foldl (fun s c => updGroup s c.gkey fun g => retire g c.seq) s
  fatal s t.launch ⟨0, pc, l.label, BitVec.ofNat 32 t.task, 0, 0, 0, BitVec.ofNat 64 tag, 0, 0x04⟩

/-- A matrix operation stops with a cause (R321): MMA raises it in the issuing lanes of every signer, at its own MMA; a JOB's cause is set
in %cause of each signer group and parks the lanes that issued it where they stand, and when all of them have exited a record with the %cause of the first signer ends the
grid (R354, R403). Arrivals of a job are made by its walk end. -/
def matStop (s : State) (m : MatOp) (cause : Nat) (fadr : DWord) (info : Nat) (s2 : Bool) : State :=
  let s := dropElems s fun e => match e.act with | .matrix i => i == m.id | _ => false
  match m.job with
  | none =>
    let s := { s with mats := s.mats.filter fun x => x.id != m.id }
    m.signers.foldl (fun s sg =>
      let s := updGroup s sg.gkey fun g => retire g sg.seq
      let ls := (lanesOf sg.lanes).filter fun l => !(getGroup s sg.gkey).exited.getLsbD l
      takeLate s sg.gkey sg.pc s2 (ls.map fun l => ⟨l, cause, sg.pc, fadr, 0, info⟩)) s
  | some card =>
    let s := { s with mats := s.mats.map fun x => if x.id == m.id then
      { x with idx := jobTotal card, started := false, waits := 0, chunks := [], tags := [] } else x }
    let s := m.signers.foldl (fun s sg => updGroup s sg.gkey fun g => { g with cause := g.cause ||| BitVec.ofNat 32 (2 ^ cause) }) s
    let gone := m.signers.all fun sg => sg.lanes &&& ~~~(getGroup s sg.gkey).exited = 0
    if gone then
      let t := getTeam s m.team
      fatal s t.launch ⟨fadr, m.pc, (getLaunch s t.launch).label, BitVec.ofNat 32 t.task, 0, 0,
        ((m.signers.head?).map fun sg => (getGroup s sg.gkey).cause).getD 0, 0, 0, 0x05⟩
    else
      m.signers.foldl (fun s sg => lateCauses s sg.gkey sg.pc ((lanesOf sg.lanes).map fun l => ⟨l, cause, fadr, 0, info, sg.pc⟩)) s

/-- A sub-group that HOLDTR holds keeps its elements, each with its own lanes, so that a reply can let them walk again (R404). -/
def keepElems (s : State) (gk : Nat) (es : List Elem) : State :=
  updGroup s gk fun g => { g with held := g.held.map fun h =>
    if h.trn then { h with elems := h.elems ++ (es.filter fun e => e.lanes &&& h.lanes ≠ 0).map fun e => { e with lanes := e.lanes &&& h.lanes } }
    else h }

/-- Elements of the same item and lanes. -/
def sameItem (e : Elem) (seq : Nat) (x : Elem) : Bool :=
  x.gkey == e.gkey && (match x.act with | .item p => p.seq == seq && x.lanes == e.lanes | _ => false)

/-- An ACCST whose engine access fails, rather than one of its lanes (R93). -/
def accstLost (o : Out) (cause : Nat) : Bool :=
  cause == cHWE && (match o.work with | .accst _ _ _ => true | _ => false)

/-- An element that fails, with the cause, the address and the region that its lanes take. -/
abbrev Failing := Elem × Nat × DWord × Nat

/-- What lanes of one instruction of a group take together: the group, the program counter, the stage, the causes, and the elements that a
hold keeps. -/
abbrev FailPart := Nat × DWord × Bool × List Raise × List Elem

/-- An element's request failed: it leaves its instruction, whose lanes are to take the cause; an engine context freezes (R251, R274,
R354). -/
def failPart (s : State) (x : Failing) : State × Option FailPart :=
  let e := x.1
  let part := fun (pc : DWord) (es : List Elem) =>
    some (e.gkey, pc, e.stage, (lanesOf e.lanes).map fun l => (⟨l, x.2.1, pc, x.2.2.1, 0, x.2.2.2⟩ : Raise),
          if x.2.1 = cTRN then es else [])
  match e.act with
  | .refetch pc => (s, part pc [e])
  | .item o =>
    let es := e :: s.elems.filter (sameItem e o.seq)
    let s := dropElems s (sameItem e o.seq)
    if accstLost o x.2.1 then (engineFreeze s (getGroup s e.gkey).team o.pc 0xFF s.uid, none) else (s, part o.pc es)
  | .outSeq seq =>
    let o := (findOut s e.gkey seq).getD ⟨0, 0, 0, 0, .prefetch, []⟩
    let s := updGroup s e.gkey fun g =>
      let os := g.outs.map fun (x : Out) => if x.seq = seq then dropAccs x fun a => e.lanes.getLsbD a.lane else x
      { g with outs := os }
    (s, part o.pc [{ e with act := .item (dropAccs o fun a => !e.lanes.getLsbD a.lane) }])
  | .engine id =>
    (match s.cmds.find? fun c => c.id == id with
    | some c => engineFreeze s c.team c.pc (match c.kind with | .xform _ _ _ | .job _ _ _ => 0xFF | _ => c.tag) c.id
    | none => s, none)
  | .matrix id =>
    (match s.mats.find? fun m => m.id == id with
    | some m =>
      if m.job.isSome && (x.2.1 == cTRN || x.2.1 == cACV) then engineFreeze s m.team m.pc 0xFF m.id
      else matStop s m x.2.1 x.2.2.1 x.2.2.2 e.stage
    | none => s, none)

/-- The causes that a lane does not take already. -/
def newRaises (rs qs : List Raise) : List Raise := qs.filter fun q => !rs.any fun r => r.lane == q.lane

/-- Parts of one instruction of a group joined. -/
def joinParts (ps : List FailPart) : List FailPart :=
  ps.foldl (fun r p =>
    if r.any fun q => q.1 == p.1 && q.2.1 == p.2.1 && q.2.2.1 == p.2.2.1 then
      r.map fun q => if q.1 == p.1 && q.2.1 == p.2.1 && q.2.2.1 == p.2.2.1 then
        (q.1, q.2.1, q.2.2.1, q.2.2.2.1 ++ newRaises q.2.2.2.1 p.2.2.2.1, q.2.2.2.2 ++ p.2.2.2.2) else q
    else r ++ [p]) []

/-- The lanes of one instruction take their causes together, as one sub-group (R394); a hold keeps their elements (R404). Causes that
waited for them follow where they go on (R190). -/
def takePart (s : State) (p : FailPart) : State :=
  let s := takeCauses s p.1 p.2.1 p.2.2.1 p.2.2.2.1
  let s := if p.2.2.2.2.isEmpty then s else keepElems s p.1 p.2.2.2.2
  dueCauses s p.1 (lanesMask (p.2.2.2.1.map (·.lane)))

/-- Elements that fail together, by one reply or one count (R251, R254): each leaves its instruction, and the lanes of each instruction then
take their causes as one sub-group for each program counter (R394). -/
def elemsFail (s : State) (xs : List Failing) : State :=
  let r := xs.foldl (fun (r : State × List FailPart) x => let q := failPart r.1 x; (q.1, r.2 ++ q.2.toList)) (s, [])
  (joinParts r.2).foldl takePart r.1

/-- The core slot and lowest lane of an element's group: the order in which the elements of one request replay. -/
def elemRank (s : State) (e : Elem) : Nat := (((getGroup s e.gkey).slot).getD 0) * 32 + (lanesOf e.lanes).headD 0

def insertBy {α : Type} (f : α → Nat) (x : α) : List α → List α
  | [] => [x]
  | y :: ys => if f x < f y then x :: y :: ys else y :: insertBy f x ys

def sortBy {α : Type} (f : α → Nat) (xs : List α) : List α := xs.foldl (fun r x => insertBy f x r) []

/-- A fetch resolves like an access of kind fetch, but only in the global space. -/
def fetchPlace (s : State) (gk : Nat) (va : DWord) : State × AccRes :=
  if !isGlobal va then (s, .bad cACV va 0) else resolve s gk 0 .fetch 8 va

/-- The places of an element, walked again. -/
def elemPlace (s : State) (e : Elem) : State × AccRes :=
  match e.act with
  | .refetch _ => fetchPlace s e.gkey e.va
  | _ => resolve s e.gkey ((lanesOf e.lanes).headD 0) e.kind e.bytes e.va

/-- What stops the bytes of an ACCST that lie on an element's page: one of them lost with its region, for instance (R93). -/
def accstStop (s : State) (e : Elem) : Option (Nat × DWord × Nat) :=
  match e.act with
  | .item ⟨_, _, _, _, .accst bytes _ _, _⟩ =>
    stopCause (writeStops s e.gkey ((lanesOf e.lanes).headD 0) (bytes.filter fun w => w.1.toNat / 4096 == e.va.toNat / 4096)).2
  | _ => none

/-- An operand fetch of a matrix operation. -/
def isMatElem (e : Elem) : Bool := match e.act with | .matrix _ => true | _ => false

/-- An element walks again (R251): performed, or waiting on a new request; or it fails, which is left to the caller. `after` is present when
this walk follows a reply without FAIL: the fault count before it, which then rises by one if the walk faults on the same stage and page,
however many elements do. The count that reaches 16 fails them all (`failLate`). -/
def rewalk (s : State) (e : Elem) (after : Option Nat) : State × List Failing :=
  let forbid := fun (ls : List Loc) => match e.act with
    | .item o => mtForbids o.work ls
    | .outSeq seq => (match findOut s e.gkey seq with | some o => mtForbids o.work ls | none => false)
    | _ => false
  let e := { e with replied := false }
  match elemPlace s e with
  | (s, .ok ls) =>
    if forbid ls then (s, [(e, cACV, e.va, 0)])
    else match accstStop s e with
      | some (k, f, i) => (s, [(e, k, f, i)])
      | none => (elemDone s e ls, [])
  | (s, .bad c f i) => (s, [(e, c, if isMatElem e then e.va else f, i)])
  | (s, .ask page) => (addElem s { e with page := page, stage := false, slot := none, pri := true }, [])
  | (s, .wait s2 page) =>
    let e' := { e with page := page, stage := s2, slot := none, pri := false }
    match (if faultKey e' = faultKey e then after else none) with
    | some n =>
      let s := setFault s (faultKey e') (n + 1)
      (if 16 ≤ n + 1 then { s with elems := s.elems ++ [e'] } else addElem s e', [])
    | none => (addElem s e', [])

/-- When a fault count reaches 16, every element that waits on its stage and page takes the translation cause (R251). -/
def failLate (s : State) (key : Nat × Nat × Nat × Bool) : State :=
  if faultCount s key < 16 then s
  else
    let late := sortBy (elemRank s) (s.elems.filter fun e => faultKey e == key && !e.pri && onCore s e)
    elemsFail (dropElems (setFault s key 0) fun e => late.contains e) (late.map fun e => (e, cTRN, e.va, 0))

/-- The same waiting element, whatever its item has read since. -/
def sameElem (e x : Elem) : Bool :=
  x.gkey == e.gkey && x.lanes == e.lanes && x.va == e.va && x.kind == e.kind &&
  (match e.act, x.act with
   | .item o, .item p => o.seq == p.seq
   | .outSeq n, .outSeq m => n == m
   | .refetch _, .refetch _ => true
   | .matrix n, .matrix m => n == m
   | .engine n, .engine m => n == m
   | _, _ => false)

/-- An element of an instruction's lanes that have failed. -/
def failsToo (e : Elem) (f : Failing) : Bool := match f.1.act with | .item o => sameItem f.1 o.seq e | _ => false

/-- Waiting elements leave their requests and walk again one after another; those that fail fail together. -/
def walkEach (s : State) (es : List Elem) (after : Elem → Option Nat) : State :=
  let r := es.foldl (fun (r : State × List Failing) e =>
    if r.2.any (failsToo e) then r
    else match r.1.elems.find? (sameElem e) with
      | none => r
      | some x => let q := rewalk (dropElems r.1 fun y => y == x) { x with slot := none } (after x); (q.1, r.2 ++ q.2)) (s, [])
  elemsFail r.1 r.2

/-- Elements whose requests stay queued walk again in ascending slot and lane order (R253, R404). A walk of an element whose request was
answered meanwhile follows that reply (R251). -/
def walkAll (s : State) (es : List Elem) : State :=
  let t := walkEach s (sortBy (elemRank s) es) fun x => if x.replied then some (faultCount s (faultKey x)) else none
  (es.map faultKey).eraseDups.foldl failLate t

/-- The elements that wait on a slot. -/
def waitersOf (s : State) (f i : Nat) : List Elem :=
  sortBy (elemRank s) (s.elems.filter fun e => e.func == f && e.slot == some i)

/-- A reply to a slot (R251): the slot is freed; with FAIL every waiter takes the translation cause, else each walks again. For those off
their cores a reply only frees the slot (R253). -/
def answer (s : State) (f i : Nat) (fail : Bool) : State :=
  let x := getSlot s f i
  let ws := waitersOf s f i
  let s := setSlot s f i { x with valid := false, waiters := 0 }
  let key := (f, x.pasid, x.addr, x.stage)
  let here := ws.filter fun e => onCore s e
  let rest := (s.elems.filter fun e => !here.contains e).map fun e =>
    if ws.contains e then { e with slot := none, replied := !fail } else e
  if fail then elemsFail (fillSlots (setFault { s with elems := rest } key 0)) (here.map fun e => (e, cTRN, e.va, 0))
  else
    let t := fillSlots { s with elems := rest }
    failLate (walkEach { t with elems := t.elems ++ here.map fun e => { e with slot := none } } here
      fun _ => some (faultCount s key)) key

/-! ## The start of an MMA, R249, R254, R318 -/

/-- An element of an operand page. -/
def opElem (s : State) (m : MatOp) (sg : Signer) (p : Bool × Nat × DWord × Bool) : Elem :=
  let l := getLaunch s (getTeam s m.team).launch
  ⟨sg.gkey, sg.lanes, .read, p.2.2.1, l.func, l.pasid, l.label, p.1, p.2.1, none, p.2.2.2, false, 1, [], .matrix m.id⟩

/-- The operand pages that a signer's part meets a translation fault on. -/
def partStops (s : State) (m : MatOp) (sg : Signer) : State × List (Bool × Nat × DWord × Bool) :=
  let r := (partPages m sg).foldl (fun (r : State × List Stop) a =>
    match bytePlace r.1 sg.gkey ((lanesOf sg.lanes).headD 0) .read none a with
    | (s, .error e) => (s, r.2 ++ [e])
    | (s, .ok _) => (s, r.2)) (s, [])
  (r.1, stopPages r.2)

/-- An issued MMA enters its sub-array. When the walk of an operand page faults, the lanes that issued it park at it in a normal launch,
and its item leaves the count until every page is there (R249, R252); in a deterministic launch its groups are held (R254). -/
def startMma (s : State) (m : MatOp) : State :=
  let r := m.signers.foldl (fun (r : State × List (Signer × Bool × Nat × DWord × Bool)) sg =>
    let q := partStops r.1 m sg
    (q.1, r.2 ++ q.2.map fun p => (sg, p))) (s, [])
  if r.2.isEmpty then { r.1 with mats := r.1.mats ++ [m] }
  else
    let det := m.signers.any fun sg => (getGroup r.1 sg.gkey).det
    let s : State := { r.1 with mats := r.1.mats ++ [{ m with waits := r.2.length, parked := !det }] }
    let s := if det then s else m.signers.foldl (fun s sg => updGroup s sg.gkey fun g =>
      parkWaiting (setPcs (retire g sg.seq) sg.lanes sg.pc) sg.lanes) s
    r.2.foldl (fun s p => addElem s (opElem s m p.1 p.2)) s

end Sys2Proof.Machine
end

