-- ==== Sys2Proof/Machine/Issue.lean ====
section
/-! DEFINITION. The issue of one word (R111 to R121): what it waits for at issue (R117, R119, R138, R252, R286, R326, R366), its
lanes' results (R156, R190), post-steps, the advance of the program counters, and the switch marker. -/

namespace Sys2Proof.Machine

abbrev Outcome := Host.Outcome State Fault Refusal

/-! ## The word and its lanes -/

/-- The switch marker of a word. -/
def markOf (i : Instr) : Bool :=
  match i with
  | .hintWord m _ => m
  | .pairWord m _ _ => m
  | i => ((hdrOf i).map (·.mark)).getD false

def hdrZero : Hdr := ⟨false, .f 0 false, 0, false, 0⟩

/-- What a word sees as it issues. -/
def ctxOf (s : State) (u : Issue) (i : Instr) : Ctx :=
  let g := getGroup s u.gkey
  let h := (hdrOf i).getD hdrZero
  ⟨u.gkey, coreOf s u.gkey, u.pc, u.pc + BitVec.ofNat 64 (lenOf i), u.lanes, activeOf g h.guard u.lanes, h, g, launchOf s u.gkey⟩

/-! ## Outstanding items -/

/-- An item that holds its whole group (R138). -/
def holds (o : Out) : Bool :=
  match o.work with
  | .bar _ _ _ | .bowait _ _ _ | .botest _ _ _ true | .waitAny _ | .waitAll _ | .sfw _ | .ldone _ | .fuse _ | .card _ => true
  | _ => false

/-- An access that a fence waits for (R366). -/
def isAccess (o : Out) : Bool :=
  match o.work with
  | .load _ _ _ _ _ _ | .ldk _ _ _ _ | .loaded _ | .store _ _ _ _ | .atom _ _ _ _ _ _ | .atoma _ _ _ _ _ _ | .red _ _ _ _ => true
  | .boinit _ _ | .boarr _ _ _ | .botest _ _ _ _ => true
  | _ => false

/-- A store, atomic or RED that FENCE.OPND waits for (R286). -/
def isStore (o : Out) : Bool :=
  match o.work with
  | .store _ _ _ _ | .atom _ _ _ _ _ _ | .atoma _ _ _ _ _ _ | .red _ _ _ _ => true
  | _ => false

/-- An item that holds the group's later memory words back (R366). -/
def isFence (o : Out) : Bool :=
  match o.work with
  | .fence _ | .release _ _ | .acquire _ | .phsync _ _ _ => true
  | _ => false

/-- A group is a signer of an operation that satisfies a test: an element of it concerns every signer (R318). -/
def signsOp (s : State) (gk id : Nat) (p : MatOp → Bool) : Bool :=
  s.mats.any fun m => m.id == id && p m && m.signers.any fun sg => sg.gkey == gk

/-- Some element of the group's instructions that have issued waits on a page request (R252), those of an MMA at which its lanes wait
among them. -/
def parkedElem (s : State) (gk : Nat) : Bool :=
  s.elems.any fun e => match e.act with
    | .item _ => e.gkey == gk
    | .outSeq _ => e.gkey == gk
    | .matrix id => signsOp s gk id (·.parked)
    | _ => false

/-- Any element of the group waits on a page request, that of a fetch among them (R249, R252). -/
def parkedAny (s : State) (gk : Nat) : Bool :=
  parkedElem s gk || s.elems.any fun e => e.gkey == gk && (match e.act with | .refetch _ => true | _ => false)

/-- The hold of R254: an element of a deterministic launch's instruction has faulted. -/
def detHold (s : State) (gk : Nat) : Bool :=
  s.elems.any fun e => match e.act with
    | .outSeq _ => e.gkey == gk
    | .item _ => e.gkey == gk && (getGroup s gk).det
    | .refetch _ => e.gkey == gk && (getGroup s gk).det
    | .matrix id => (getGroup s gk).det && signsOp s gk id (·.job.isNone)
    | .engine _ => false

/-- No access of the group before the item numbered `seq` remains to be performed, and none is parked (R380). -/
def fenceReady (s : State) (gk seq : Nat) : Bool :=
  !parkedElem s gk && (getGroup s gk).outs.all fun o => !(o.seq < seq && isAccess o)

/-- As for a fence, and every earlier engine command has been accepted (R372). -/
def barReady (s : State) (gk seq : Nat) : Bool :=
  (getGroup s gk).outs.all fun o => !(o.seq < seq && (isAccess o || (match o.work with | .engine _ => true | _ => false)))

/-- FENCE.OPND completes, R286. -/
def opndReady (s : State) (gk seq : Nat) : Bool :=
  (getGroup s gk).outs.all (fun o => !(o.seq < seq && isStore o)) &&
  !(s.elems.any fun e => e.gkey == gk && (match e.act with | .item o => isStore o && o.seq < seq | _ => false))

/-! ## Unfenced stores, R286, R287 -/

/-- The group's earlier accesses are performed before its engine reads or writes: of its unfenced stores, all are applied
(R287; log entry 42). -/
def flushGroup (s : State) (gk : Nat) : State :=
  (getGroup s gk).outs.foldl (fun s o =>
    if isAccess o && !holds o && !hostBound o && mayPerform (getGroup s gk) o && objTurn s gk o && peerTurn s gk o then performItem s gk o else s) s

/-- The aligned 32-byte granule of a place. -/
def granOf (l : Loc) : Nat × Nat × Nat :=
  match l with
  | .scr t o => (0, t, o / 32)
  | .plaza o => (1, 0, o / 32)
  | .glob pa _ => (2, 0, pa / 32)

/-- The granules of the group's plain stores that are still to be performed, as far as they have their places. -/
def storeGrans (s : State) (gk : Nat) : List (Nat × Nat × Nat) :=
  (getGroup s gk).outs.flatMap fun o => match o.work with
    | .store _ _ acc _ => acc.flatMap fun a => (a.locs.getD []).map granOf
    | _ => []

/-- The granules, by address, of its plain stores that wait on a page request while it stands on a core. -/
def waitGrans (s : State) (gk : Nat) : List Nat :=
  if (getGroup s gk).slot.isNone then []
  else (s.elems.filter fun e => e.gkey == gk && decide (e.kind = .write) && (match e.act with | .item _ => true | .outSeq _ => true | _ => false)).flatMap
    fun e => (List.range ((e.va.toNat % 32 + e.bytes + 31) / 32)).map fun k => e.va.toNat / 32 + k

/-- Some granule that an engine is about to read holds a plain store of the group that is still to be performed, so that it might read
the granule with some of the group's stores applied and others not: the engine waits (R287). -/
def mixed (s : State) (gk : Nat) (as : List DWord) : Bool :=
  let ps := storeGrans s gk
  let vs := waitGrans s gk
  if ps.isEmpty && vs.isEmpty then false
  else as.any fun a => vs.contains (a.toNat / 32) || (match (bytePlace s gk 0 .read none a).2 with
    | .ok l => ps.contains (granOf l)
    | .error _ => false)

/-- Consecutive addresses. -/
def rangeAddrs (a : DWord) (n : Nat) : List DWord := (List.range n).map fun k => a + BitVec.ofNat 64 k

/-! ## What a word reads, R119 -/

/-- Vector registers of a lane, uniform registers and predicates that a word reads. -/
def readTgts (c : Ctx) (i : Instr) : List Tgt :=
  let lanes := List.range Config.W
  let vec := fun (n : Nat) => lanes.map fun l => Tgt.v l n
  let ops := (opnds i).flatMap fun o =>
    if o.role = .wr then [] else
    let n := if o.wide then 2 else o.regs
    match o.sp with
    | .v r => (List.range n).flatMap fun k => vec (r.toNat + k)
    | .s r => (List.range n).map fun k => Tgt.s (r.toNat + k)
    | .x _ _ _ => (lanesOf c.lanes).flatMap fun l =>
      match vecReg c l o.wide 1 o.sp with
      | .ok r => (List.range n).map fun k => Tgt.v l (r + k)
      | .error _ => []
    | _ => []
  let preds := (predReads i ++ guardReads c.h.guard).flatMap fun p => lanes.map fun l => Tgt.p l p.toNat
  match i with
  | .pairWord _ h0 h1 =>
    let half := fun (h : Half) => vec h.d.toNat ++ (lanes.map fun l => Tgt.p l h.pg.toNat) ++
      (match h.a with | .v r => vec r.toNat | .s r => [Tgt.s r.toNat] | _ => [])
    half h0 ++ half h1
  | .moviHi .. => preds
  | _ => ops ++ preds

/-- A long-class write to a register that the word reads is outstanding. -/
def readsPending (c : Ctx) (i : Instr) : Bool :=
  let live := c.g.outs.flatMap fun o => o.live
  !live.isEmpty && (readTgts c i).any fun t => live.contains t

/-! ## Waits at issue -/

/-- The engine tag that a copy names. -/
def copyTag (c : Ctx) (i : Instr) : Option Nat :=
  match i with
  | .xcopy _ _ _ _ _ tag => some (readUni c .n32 tag)
  | .xcopyCrc _ _ _ _ _ tag _ _ _ => some (readUni c .n32 tag)
  | .xcopyChk _ _ _ _ _ tag _ _ _ => some (readUni c .n32 tag)
  | _ => none

/-- The accumulator that a word moves or writes (ACCLD apart). -/
def accOf (i : Instr) : Option Nat :=
  match i with
  | .accz _ a => some a.toNat
  | .accst _ _ _ _ a _ => some a.toNat
  | .accrd _ _ _ _ _ a _ => some a.toNat
  | .accwr _ _ a _ _ => some a.toNat
  | _ => none

/-- A tile that an operation in flight owns, or that a waiting ACCLD will write (R326, R344). -/
def tileBusy (s : State) (gk a : Nat) : Bool :=
  owned s gk a || s.elems.any fun e => e.gkey == gk &&
    (match e.act with | .item o => (match o.work with | .accld ad _ _ _ => ad == a | _ => false) | _ => false)

/-- Special function tokens in flight, R228. -/
def tokensBusy (g : Group) : BitVec 8 :=
  g.outs.foldl (fun m o => match o.work with | .sfq _ _ t _ _ => m ||| BitVec.ofNat 8 (2 ^ t) | _ => m) 0

/-- Entries in the special function queue of a slot: the groups of four neighbouring slots share one (R227). -/
def sfqEntries (s : State) (slot : Nat) : Nat :=
  (s.groups.filter fun e => match e.2.slot with | some x => x / 24 == slot / 24 && x % 24 / 4 == slot % 24 / 4 | none => false).foldl
    (fun n e => n + (e.2.outs.filter fun o => match o.work with | .sfq _ _ _ _ _ => true | _ => false).length) 0

/-- No command of a team is in flight (R273). -/
def teamQuiet (s : State) (team : Nat) : Bool :=
  s.cmds.all (fun c => c.team != team) && s.mats.all fun m => m.team != team || m.job.isNone

/-- A barrier-object word's place, when its address is one (R379). -/
def objPlace (s : State) (gk : Nat) (va : DWord) : Option (Nat × Nat) :=
  if va.toNat % 8 ≠ 0 || !(spaceOf va == 0xF1 || spaceOf va == 0xF2) then none
  else match winBytes s (getGroup s gk).team (getGroup s gk).gidx 0 va 8 with
    | .ok (.scr t o :: _) => some (t, o)
    | _ => none

/-- An engine may arrive at the object of an address in this cycle (R375). -/
def boTurn (s : State) (gk : Nat) (bo : DWord) : Bool :=
  match objPlace s gk bo with | some p => engineTurn s p | none => true

/-- Launches that the front end holds (R382). -/
def handedCount (s : State) : Nat :=
  (s.launches.filter fun e =>
    (match e.2.origin with | .thread _ _ _ => true | _ => false) && e.2.stage != .retired &&
    (e.2.stage == .handed || !e.2.unplaced.isEmpty)).length

/-- What a word must still wait for at issue. -/
def waits (s : State) (u : Issue) (i : Instr) : Bool :=
  let c := ctxOf s u i
  let g := c.g
  let gk := u.gkey
  let acts := decide (c.active ≠ 0)
  g.mark || g.outs.any holds || detHold s gk ||
  (isLong g.rat i && decide (63 ≤ g.outs.length)) ||
  (isMemClass i && g.outs.any isFence) ||
  (isOpndHeld i && g.outs.any fun o => match o.work with | .fenceOpnd => true | _ => false) ||
  (g.det && readsPending c i) ||
  (acts && match i with
    | .fence _ _ => parkedAny s gk
    | .phrel _ _ => !g.det && (parkedAny s gk || !fenceReady s gk g.nextSeq)
    | .phsync _ _ => !g.det && (parkedAny s gk || !fenceReady s gk g.nextSeq)
    | .boarr _ _ _ _ => !fenceReady s gk g.nextSeq
    | .launch _ _ => !fenceReady s gk g.nextSeq || decide (4096 ≤ handedCount s) || (getFunc s c.l.func).freezing
    | .sfq _ _ _ _ _ _ => !g.rat && ((tokensBusy g).getLsbD g.sfn.toNat || decide (16 ≤ sfqEntries s (g.slot.getD 0)))
    | .sft _ _ m => g.det && decide (tokensBusy g &&& BitVec.ofNat 8 (readUni c .n32 m) ≠ 0)
    | .xfind _ _ m =>
      g.det && decide (~~~(teamOf s gk).done &&& BitVec.ofNat 64 (readUni c .i64 m) ≠ 0)
    | .accld _ ad tm org => tileBusy s gk ad.toNat || (match tileFmt (tGet g tm.toNat) with
      | some ty => mixed (flushGroup s gk) gk (tileWindow (tGet g tm.toNat) ty (BitVec.ofNat 32 (readUni c .n32 org)))
      | none => false)
    | .job _ card _ => mixed (flushGroup s gk) gk (rangeAddrs (BitVec.ofNat 64 (readUni c .n64 card)) 64)
    | .srd _ srn _ => g.det && (srn == 0x018 || srn == 0x019) && !teamQuiet s g.team
    | i =>
      (match copyTag c i with
        | some t => decide (t < 64) && !(teamOf s gk).done.getLsbD t
        | none => false) ||
      (match accOf i with
        | some a => tileBusy s gk a
        | none => false))

/-! ## The end of a word -/

/-- The marker parks the group until its outstanding results are written (R112). -/
def setMark (s : State) (gk : Nat) (m : Bool) : State :=
  if m then updGroup s gk fun g => { g with mark := !g.outs.isEmpty } else s

/-- Lane results: register writes and flags. -/
abbrev LaneRes := List (Tgt × Word) × Flags

/-- Evaluate the active lanes: completing lanes with their results, and the causes raised. -/
def evalLanes (c : Ctx) (f : Nat → Except Nat LaneRes) : List (Nat × LaneRes) × List Raise :=
  (lanesOf c.active).foldl (fun r l =>
    match f l with
    | .ok x => (r.1 ++ [(l, x)], r.2)
    | .error k => (r.1, r.2 ++ [⟨l, k, c.pc, 0, 0, 0⟩])) ([], [])

def isUni (t : Tgt) : Bool := match t with | .s _ => true | _ => false

/-- The writes of the completing lanes; a uniform register takes the lowest lane's (R156). -/
def allWrites (rs : List (Nat × LaneRes)) : List (Tgt × Word) :=
  match rs with
  | [] => []
  | r :: t => r.2.1 ++ t.flatMap fun x => x.2.1.filter fun e => !isUni e.1

/-- Close a word: post-steps of the completing lanes, lanes to their next addresses (`tgt` for those that go elsewhere), causes,
marker. -/
def closeWord (i : Instr) (c : Ctx) (s : State) (done : Lanes) (tgt : List (Nat × DWord)) (bad : List Raise) : State :=
  let m := lanesMask (bad.map (·.lane))
  let s := updGroup s c.gk fun g =>
    let g := postStep i (setPcs g (c.lanes &&& ~~~m) c.next) done
    tgt.foldl (fun g e => setPc g e.1 e.2) g
  setMark (takeCauses s c.gk c.pc false bad) c.gk (markOf i)

/-- A short-class word: its results are written now; a lane whose flag is requested parks at its next word (R190). -/
def shortWord (i : Instr) (c : Ctx) (s : State) (r : List (Nat × LaneRes) × List Raise) : State :=
  let done := lanesMask (r.1.map (·.1))
  let fl := r.1.map fun x => (x.1, x.2.2)
  let s := updGroup s c.gk fun g => addFlags (writeRegs c.l.sregs g (allWrites r.1)) (orFlags fl)
  closeWord i c s done [] (r.2 ++ arfRaises c.g.fen (fun _ => c.next) fl)

/-- Put an item into the outstanding set. Its writes stand until it completes; writes of two items to one register are ordered by
their numbers when they land (R116). -/
def pushOut (g : Group) (pc next : DWord) (lanes : Lanes) (w : Work) (live : List Tgt) : Group :=
  { g with outs := g.outs ++ [⟨g.nextSeq, pc, next, lanes, w, live⟩], nextSeq := g.nextSeq + 1 }

/-- A long-class word whose results are computed at issue and written when it completes. -/
def longWord (i : Instr) (c : Ctx) (s : State) (r : List (Nat × LaneRes) × List Raise) : State :=
  let done := lanesMask (r.1.map (·.1))
  let ws := allWrites r.1
  let fl := (r.1.map fun x => (x.1, x.2.2)).filter fun e => e.2 ≠ 0
  let s := if r.1.isEmpty then s
    else updGroup s c.gk fun g => pushOut g c.pc c.next done (.result ws fl) (ws.map (·.1))
  closeWord i c s done [] r.2

/-- A word by its class. -/
def classWord (i : Instr) (c : Ctx) (s : State) (r : List (Nat × LaneRes) × List Raise) : State :=
  if isLong c.g.rat i then longWord i c s r else shortWord i c s r

/-- Every active lane raises one cause. -/
def raiseActive (i : Instr) (c : Ctx) (s : State) (cause : Nat) (fadr : DWord) : State :=
  closeWord i c s 0 [] ((lanesOf c.active).map fun l => ⟨l, cause, c.pc, fadr, 0, 0⟩)

/-- Every issued lane raises a cause that the encoding decides (R121). -/
def raiseIssued (i : Instr) (c : Ctx) (s : State) (cause : Nat) : State :=
  closeWord i c s 0 [] ((lanesOf c.lanes).map fun l => ⟨l, cause, c.pc, 0, 0, 0⟩)

/-- EXEC OF A WORD: outside an issue there is nothing to execute; a word that R120 does not accept is the illegal-instruction
cause; a word that must wait changes nothing; any other has its meaning. -/
def issueWord (i : Instr) (s : State) (body : Ctx → State → State) : Outcome :=
  match s.cur with
  | none => .fault .noIssue
  | some u =>
    let c := ctxOf s u i
    if !acceptsInstr i then .next (raiseIssued i c s cILL)
    else if waits s u i then .next s
    else .next (body c s)

/-- A word of per-lane results. -/
def laneWord (i : Instr) (s : State) (f : Ctx → Nat → Except Nat LaneRes) : Outcome :=
  issueWord i s fun c s => classWord i c s (evalLanes c (f c))

/-- A word that acts once per issue, when at least one lane is active (R371); otherwise its lanes pass it. -/
def onceWord (i : Instr) (s : State) (body : Ctx → State → State) : Outcome :=
  issueWord i s fun c s => if c.active = 0 then closeWord i c s 0 [] [] else body c s

end Sys2Proof.Machine
end

