-- ==== Sys2Proof/Machine/Sched.lean ====
section
/-! DEFINITION. Choosing what issues: the lane set of a group (R144, R294), fetching and decoding its word (R95, R179), readiness
(R138), swaps and promotion (R139, R140), the two issue slots of a slice (R141 to R143, R149), and the bookkeeping after an
issue (R144, R109, R114). -/

namespace Sys2Proof.Machine

/-! ## The lane set, R144 -/

def rotated (r : Nat) : List Nat := (List.range Config.W).map fun i => (r + i) % Config.W

/-- The selected lane: the first eligible one in rotation order. -/
def selected (g : Group) : Option Nat := (rotated g.rot).find? fun l => (eligible g).getLsbD l

/-- The eligible lanes that stand at a program counter. -/
def lanesAt (g : Group) (pc : DWord) : Lanes := lanesMask ((lanesOf (eligible g)).filter fun k => pcOf g k == pc)

/-- The set that R144 selects. -/
def freshSet (g : Group) : Option (DWord × Lanes) :=
  (selected g).map fun l => (pcOf g l, lanesAt g (pcOf g l))

/-- The program counter and lanes that issue next. A set that waits under R252 stays chosen (R294), but for lanes that have left it for
their handler meanwhile (R394). -/
def issueSet (g : Group) : Option (DWord × Lanes) :=
  match g.chosen with
  | some (pc, m) => if m &&& lanesAt g pc ≠ 0 then some (pc, m &&& lanesAt g pc) else freshSet g
  | none => freshSet g

/-- rot, run and last after an issue for the lane `l` (R144). The lanes `gone` parked in it and are no longer eligible: their handler
takes them at the end of the cycle, and until then they stand at their resume addresses (R392, R394; log entry 34). -/
def rotate (g : Group) (l : Nat) (gone : Lanes) : Group :=
  let able := eligible g &&& ~~~gone
  let pcl := if gone.getLsbD l then tabGet 0 g.epc l else pcOf g l
  let run := if g.last = some l then g.run + 1 else 1
  let g := { g with run := run, last := some l }
  let g := if run = 32 then
      let d := (rotated (l + 1)).find? fun k => able.getLsbD k && pcOf g k != pcl
      { g with rot := d.getD g.rot, run := 0, last := none }
    else g
  let es := lanesOf able
  if es.all (fun k => pcOf g k == pcOf g (es.headD 0)) then { g with rot := 0 } else g

/-! ## Fetch and decode -/

/-- What stands at a program counter: an instruction, a word that is none (with its marker and length), or a failed fetch. -/
inductive Fetched where
  | instr (i : Instr)
  | none' (mark : Bool)
  | fails (r : AccRes) (va : DWord)
  deriving DecidableEq, Repr

/-- The word at a physical address in the instruction part of a core's L1, filled from L2 when it is not there. Stores never write
that part, and no acquire empties it (R239, R361): a word leaves it by an eviction. -/
def instrWord (s : State) (c pa : Nat) : State × DWord :=
  match tabFind (getCore s c).icache (pa / 8) with
  | some w => (s, w)
  | none =>
    let w := BitVec.ofNat 64 (leNat ((List.range 8).map fun i => l2Byte s (pa + i)))
    let s := if (getCore s c).icache.any fun e => e.1 / 8 == pa / 64 then s else noteOut s c [.glob pa 0]
    (updCore s c fun x => { x with icache := tabPut x.icache (pa / 8) w }, w)

/-- One instruction word, through the instruction part of the core's L1. -/
def fetchWord (s : State) (gk : Nat) (va : DWord) : State × Except AccRes DWord :=
  match fetchPlace s gk va with
  | (s, .ok (.glob pa _ :: _)) =>
    let r := instrWord s (coreOf s gk) pa
    (r.1, .ok r.2)
  | (s, .ok _) => (s, .ok 0)
  | (s, r) => (s, .error r)

def fetchInstr (s : State) (gk : Nat) (pc : DWord) : State × Fetched :=
  match fetchWord s gk pc with
  | (s, .error r) => (s, .fails r pc)
  | (s, .ok w0) =>
    if wordLen w0 = 16 then
      match fetchWord s gk (pc + 8) with
      | (s, .error r) => (s, .fails r (pc + 8))
      | (s, .ok w1) =>
        match decodeWords w0 w1 with
        | .ok i => (s, .instr i)
        | .error _ => (s, .none' (w0.getLsbD 63))
    else
      match decodeWords w0 0 with
      | .ok i => (s, .instr i)
      | .error _ => (s, .none' (w0.getLsbD 63))

/-! ## Readiness, R138 -/

/-- The group may issue as far as its core, team and launch go: resident, not stopped, its grid not ended, its core's banks at rest (R407),
and the acquire before its team's first issue over (R364). -/
def mayRun (s : State) (gk : Nat) : Bool :=
  let t := teamOf s gk
  let l := getLaunch s t.launch
  t.place == .resident && !gridEnded l && (getCore s (coreOf s gk)).swapAt.isNone && !(s.acqs.any fun a => a.team == some (getGroup s gk).team)

/-- The group's next word, as far as it can be read now. -/
def nextWord (s : State) (gk : Nat) : Option (Issue × Fetched) :=
  match issueSet (getGroup s gk) with
  | some (pc, m) => some (⟨gk, pc, m⟩, (fetchInstr s gk pc).2)
  | none => none

/-- Ready but for its issue spacing. -/
def readyWord (s : State) (gk : Nat) : Bool :=
  let g := getGroup s gk
  mayRun s gk && g.sstate != .spent && !g.mark && !g.outs.any holds && !detHold s gk &&
  match nextWord s gk with
  | some (u, .instr i) => !waits s u i
  | some (_, _) => true
  | none => false

def spaced (s : State) (gk : Nat) : Bool := decide ((getGroup s gk).nextOk ≤ s.now)

def ready (s : State) (gk : Nat) : Bool := spaced s gk && readyWord s gk

/-- Groups in the slots of a slice (slice q of core c is 4 c + q), by slot. -/
def sliceGroups (s : State) (sl : Nat) : List Nat :=
  (List.range 24).flatMap fun k => (s.groups.filter fun e => e.2.slot == some (24 * sl + k)).map (·.1)

def isActiveG (s : State) (gk : Nat) : Bool := (getGroup s gk).sstate == .active
def isPendingG (s : State) (gk : Nat) : Bool := (getGroup s gk).sstate == .pending

/-- The group that has waited longest since its last issue, the lower slot where waits are equal; the list is in slot order. -/
def longest (s : State) (gs : List Nat) : Option Nat :=
  gs.foldl (fun b g => match b with
    | none => some g
    | some x => if (getGroup s g).lastIssue < (getGroup s x).lastIssue then some g else some x) none

/-! ## Swaps, R139, R140 -/

def setSState (s : State) (gk : Nat) (x : SlotState) : State := updGroup s gk fun g => { g with sstate := x }

/-- The ready pending group that has waited longest. -/
def entering (s : State) (sl : Nat) : Option Nat :=
  longest s ((sliceGroups s sl).filter fun g => isPendingG s g && ready s g)

/-- Exchange two groups' places; the one that enters may issue from the second cycle after. -/
def exchange (s : State) (out inn : Nat) : State :=
  let s := updGroup s out fun g => { g with sstate := .pending, yields := false }
  updGroup s inn fun g => { g with sstate := .active, nextOk := max g.nextOk (s.now + 2) }

/-- A group that yields leaves at the end of its issue cycle (R109, R139). -/
def yieldGroup (s : State) (gk : Nat) : State := updGroup s gk fun g => { g with yields := true }

/-- The group of a slice that leaves: one that yields, else one that is not ready for a reason other than spacing; the lowest slot of
them (R139, R109; log entry 99). -/
def leaving (s : State) (sl : Nat) : Option Nat :=
  let act := (sliceGroups s sl).filter fun g => isActiveG s g
  ((act.filter fun g => (getGroup s g).yields) ++ (act.filter fun g => !readyWord s g)).head?

/-- The swap of a slice. -/
def swapSlice (s : State) (sl : Nat) : State :=
  match entering s sl, leaving s sl with
  | some inn, some out => exchange s out inn
  | _, _ => s

/-- Promotion of a ready pending group that has not issued for 4,096 cycles (R140): of several, the one that has waited longest. -/
def promoteSlice (s : State) (sl : Nat) : State :=
  let gs := sliceGroups s sl
  match longest s (gs.filter fun g => isPendingG s g && ready s g && decide (Config.promoteAfter ≤ s.now - (getGroup s g).lastIssue)) with
  | none => s
  | some inn =>
    let act := gs.filter fun g => isActiveG s g
    match act.foldl (fun b g => match b with
        | none => some g
        | some x => if (getGroup s x).lastIssue ≤ (getGroup s g).lastIssue then some g else some x) none with
    | some out => exchange s out inn
    | none => setSState s inn .active

/-- One exchange of a slice in a cycle (R139): the swap where a group leaves, else a promotion. A yield that no ready pending group
answers is over. -/
def turnSlice (s : State) (sl : Nat) : State :=
  if (leaving s sl).isSome && (entering s sl).isSome then swapSlice s sl
  else (sliceGroups s sl).foldl (fun s g => updGroup s g fun x => { x with yields := false }) (promoteSlice s sl)

/-- A place that a slice has free takes the pending group that has waited longest, ready or not, at the end of the cycle (R137; log entry
126). -/
def fillSlice (s : State) (sl : Nat) : State :=
  let gs := sliceGroups s sl
  if (gs.filter fun g => isActiveG s g).length < Config.activePerSlice then
    match longest s (gs.filter fun g => isPendingG s g) with
    | some g => setSState s g .active
    | none => s
  else s

/-! ## Issue slots, R141 to R143, R149, R262 -/

def portNo : Port → Nat
  | .int => 0 | .flt => 1 | .rat => 2 | .xln => 3 | .mem => 4 | .mtx => 5 | .ctl => 6

/-- What a slice remembers of a word issued in this cycle: banks in bits 3 to 0, ports in bits 10 to 4, an indexed specifier in
bit 11, and from bit 12 the further cycles the word keeps the first slot (R149, R262); bit 40 marks an entry carried over from an earlier
cycle, whose word still takes it. -/
def wordMask (rat : Bool) (i : Instr) : Nat :=
  let b := (banksOf i).foldl (fun m k => m ||| 2 ^ k) 0
  let p := (portsOf rat i).foldl (fun m k => m ||| 2 ^ (4 + portNo k)) 0
  b ||| p ||| (if hasIndexed i then 2 ^ 11 else 0)

/-- A register that a lane of a word names is beyond its allocation: the lane raises the bound cause (R99, R146). -/
def laneBound (c : Ctx) (i : Instr) (l : Nat) : Bool :=
  (opnds i).any fun o => match o.sp with
    | .v _ => !(vecReg c l o.wide o.regs o.sp).isOk
    | .x _ _ _ => !(vecReg c l o.wide o.regs o.sp).isOk
    | _ => false

/-- Distinct rows resolved in the bank that has most, less one, over the active lanes that raise no bound cause (R149). -/
def indexCost (c : Ctx) (i : Instr) (o : Opnd) : Nat :=
  match o.sp with
  | .x _ _ _ =>
    let rs := ((lanesOf c.active).filter fun l => !laneBound c i l).filterMap (fun l => match vecReg c l o.wide 1 o.sp with | .ok r => some r | .error _ => none) |>.eraseDups
    ((List.range 4).foldl (fun m b => max m (rs.filter fun r => r % 4 == b).length) 1) - 1
  | _ => 0

/-- Further cycles of a word in its issue slot: indexed specifiers (R149), distinct lines of an LDK (R262). -/
def extraCycles (c : Ctx) (i : Instr) : Nat :=
  let e := (opnds i).foldl (fun n o => n + indexCost c i o) 0
  match i with
  | .ldk _ _ _ _ a b imm =>
    let ls := ((lanesOf c.active).filterMap fun l =>
      match memAddr c l a b imm with
      | .ok x => some (x.toNat / 64)
      | .error _ => none).eraseDups
    e + (ls.length - 1)
  | _ => e

/-- The words issued by a slice in this cycle. -/
def slotsUsed (s : State) (sl : Nat) : List Nat := (s.issued.filter fun e => e.1 == sl).map (·.2)

/-- A second word may issue beside the first (R141). -/
def coissue (first second : Nat) : Bool := (first ||| second) / 2 ^ 11 % 2 == 0 && (first &&& second) % 2 ^ 11 == 0

/-- The group that a slice issues next in this cycle: the first word, or one that may issue beside the word that has the first slot, which
may be an LDK in its further cycles (R141, R149, R262). -/
def sliceChoice (s : State) (sl : Nat) : Option Nat :=
  let gs := (sliceGroups s sl).filter fun g => isActiveG s g && ready s g
  match slotsUsed s sl with
  | [] => longest s gs
  | [m] =>
    longest s (gs.filter fun g => match nextWord s g with
      | some (_, .instr i) => coissue m (wordMask (getGroup s g).rat i)
      | some (_, _) => coissue m 0
      | none => false)
  | _ => none

/-- Slices that hold a group, ascending. -/
def liveSlices (s : State) : List Nat := (sortBy id (s.groups.filterMap fun e => e.2.slot.map (· / 24))).eraseDups

/-- The group that issues next: slices in ascending order (log entry 30). -/
def chooseIssue (s : State) : Option Nat := (liveSlices s).findSome? fun sl => sliceChoice s sl

/-! ## Around an issue -/

/-- Cycles until the group's next issue (R114, R109). -/
def spacing (i : Instr) : Nat := 4 * 2 ^ (((hdrOf i).map fun (h : Hdr) => h.spc).getD 0#2).toNat

/-- The path signature of a logical group after an issue: the CRC-32C of the program counter and the lane mask (R425). -/
def signPath (s : State) (u : Issue) : State :=
  let t := teamOf s u.gkey
  if s.obs.rlaunch.isSome && inReplay s t.launch then
    let key := ((getLaunch s t.launch).path * 2 ^ 32 + t.task) * 96 + (getGroup s u.gkey).gidx
    let x := crcBytes (tabGet crcInit s.obs.rsigs key) (leBytes 8 u.pc.toNat ++ leBytes 4 u.lanes.toNat)
    { s with obs := { s.obs with rsigs := tabPut s.obs.rsigs key x } }
  else s

/-- A slot of a counter 0 to 8 decided by a group adds to the histogram of its function: bin 16 b + leaf, or HOUT (R420). -/
def histBin (s : State) (gk : Nat) (pc : DWord) (leaf : Nat) : State :=
  let o := s.obs
  if !o.hctl.getLsbD 31 || (launchOf s gk).func != (o.hctl.extractLsb' 24 6).toNat then s
  else
    let b := (pc.toNat - o.hbase.toNat) / 2 ^ ((o.hctl.extractLsb' 20 4).toNat + 3)
    if o.hbase.toNat ≤ pc.toNat && decide (b < 256) then
      let n := min (2 ^ 40) (tabGet 0 o.bins (16 * b + leaf) + 1)
      { s with obs := { o with bins := tabPut o.bins (16 * b + leaf) n, hsat := o.hsat || n == 2 ^ 40 } }
    else { s with obs := { o with hout := o.hout + 1 } }

/-- The bookkeeping of an issue: rotation, wait, spacing, the slice's slot, the path signature of replay (R425). `h0` is HMASK before
the issue. -/
def afterIssue (s : State) (u : Issue) (h0 : Lanes) (l mask extra space : Nat) : State :=
  let g := getGroup s u.gkey
  let s := setGroup (histBin (signPath s u) u.gkey u.pc 0) u.gkey { rotate g l (g.hmask &&& ~~~h0) with lastIssue := s.now, nextOk := s.now + max space (1 + extra), chosen := none }
  let sl := ((g.slot).getD 0) / 24
  let s := countEv s (sl / 4) 0x0A (if s.issued.any fun e => e.1 == sl then 1 else 0)
  { s with cur := none, issued := s.issued ++ [(sl, mask + 2 ^ 12 * extra)] }

end Sys2Proof.Machine
end

