-- ==== Sys2Proof/Machine/Integer.lean ====
section
/-! DEFINITION. Integer and logic instructions (R158 to R167). Results are functions on bit patterns; `exec…` apply them per lane. -/

namespace Sys2Proof.Machine

def widthOf (ty : IntTy) : Nat := if intWide ty then 64 else 32

/-- A bit pattern read under a type (R158). -/
def readInt (ty : IntTy) (x : Nat) : Int :=
  if intSigned ty then toSigned (widthOf ty) x else ((x % 2 ^ widthOf ty : Nat) : Int)

/-- The pattern of an exact result, saturated or modulo 2^w (R158). -/
def fitInt (ty : IntTy) (sat : Bool) (r : Int) : Nat :=
  ofInt (widthOf ty) (if sat then saturate (intSigned ty) (widthOf ty) r else r)

/-! ## Results, R159 to R165 -/

def iaddRes (ty : IntTy) (sat : Bool) (a b : Nat) : Nat := fitInt ty sat (readInt ty a + readInt ty b)
def isubRes (ty : IntTy) (sat : Bool) (a b : Nat) : Nat := fitInt ty sat (readInt ty a - readInt ty b)
def imulRes (ty : IntTy) (sat : Bool) (a b : Nat) : Nat := fitInt ty sat (readInt ty a * readInt ty b)
def imulhRes (ty : IntTy) (a b : Nat) : Nat := ofInt (widthOf ty) ((readInt ty a * readInt ty b).fdiv (2 ^ widthOf ty : Nat))
def imacRes (ty : IntTy) (sat : Bool) (c a b : Nat) : Nat := fitInt ty sat (readInt ty c + readInt ty a * readInt ty b)
def iminRes (ty : IntTy) (a b : Nat) : Nat := if readInt ty a ≤ readInt ty b then a % 2 ^ widthOf ty else b % 2 ^ widthOf ty
def imaxRes (ty : IntTy) (a b : Nat) : Nat := if readInt ty a ≤ readInt ty b then b % 2 ^ widthOf ty else a % 2 ^ widthOf ty
def iabsRes (ty : IntTy) (sat : Bool) (a : Nat) : Nat := fitInt ty sat ((readInt ty a).natAbs : Int)
def inegRes (ty : IntTy) (sat : Bool) (a : Nat) : Nat := fitInt ty sat (-(readInt ty a))
def andRes (ty : IntTy) (a b : Nat) : Nat := (a &&& b) % 2 ^ widthOf ty
def orRes (ty : IntTy) (a b : Nat) : Nat := (a ||| b) % 2 ^ widthOf ty
def xorRes (ty : IntTy) (a b : Nat) : Nat := (a ^^^ b) % 2 ^ widthOf ty
def notRes (ty : IntTy) (a : Nat) : Nat := 2 ^ widthOf ty - 1 - a % 2 ^ widthOf ty
def andnRes (ty : IntTy) (a b : Nat) : Nat := andRes ty a (notRes ty b)
def shlRes (ty : IntTy) (a c : Nat) : Nat := if c < widthOf ty then (a * 2 ^ c) % 2 ^ widthOf ty else 0
def shrRes (ty : IntTy) (a c : Nat) : Nat := if c < widthOf ty then a % 2 ^ widthOf ty / 2 ^ c else 0
def sarRes (ty : IntTy) (a c : Nat) : Nat :=
  ofInt (widthOf ty) ((toSigned (widthOf ty) a).fdiv (2 ^ (min c (widthOf ty)) : Nat))

/-- Position and length of a field, R161. -/
def fieldPos (ty : IntTy) (b : Nat) : Nat × Nat :=
  let w := widthOf ty
  let pos := min (b % 256) w
  (pos, min (b / 256 % 256) (w - pos))

def bfeRes (ty : IntTy) (a b : Nat) : Nat :=
  let p := fieldPos ty b
  let f := a % 2 ^ widthOf ty / 2 ^ p.1 % 2 ^ p.2
  if intSigned ty && decide (0 < p.2) then ofInt (widthOf ty) (toSigned p.2 f) else f

def bfiRes (ty : IntTy) (d a b : Nat) : Nat :=
  let p := fieldPos ty b
  let m := (2 ^ p.2 - 1) * 2 ^ p.1
  (d &&& notRes ty m) ||| ((a * 2 ^ p.1) &&& m)

def popcRes (ty : IntTy) (a : Nat) : Nat := ((List.range (widthOf ty)).filter fun i => a.testBit i).length
def clzRes (ty : IntTy) (a : Nat) : Nat := widthOf ty - bitLen (a % 2 ^ widthOf ty)
def brevRes (ty : IntTy) (a : Nat) : Nat :=
  (List.range (widthOf ty)).foldl (fun r i => r + (if a.testBit i then 2 ^ (widthOf ty - 1 - i) else 0)) 0

/-- LEA, R162. -/
def leaRes (signed : Bool) (sh a b : Nat) : Nat :=
  let e : Int := if signed then toSigned 32 b else ((b % 2 ^ 32 : Nat) : Int)
  ofInt 64 ((a : Int) + e * (2 ^ sh : Nat))

/-- The comparison codes of R132 on two integers, R163. -/
def cmpInt (c : Cmp) (a b : Int) : Bool :=
  match c with
  | .eq => decide (a = b)
  | .ne => decide (a ≠ b)
  | .lt => decide (a < b)
  | .le => decide (a ≤ b)
  | .gt => decide (b < a)
  | .ge => decide (b ≤ a)

def igcdRes (ty : IntTy) (a b : Nat) : Nat := Nat.gcd (readInt ty a).natAbs (readInt ty b).natAbs % 2 ^ widthOf ty

/-- MOVI's constant under its type, R167. -/
def moviRes (ty : IntTy) (v : Word) : Nat := if ty = .i64 then ofInt 64 v.toInt else v.toNat

/-! ## Lanes -/

/-- d := f(a), with the widths of D and A. -/
def unLane (c : Ctx) (lane : Nat) (dw : Bool) (ta : Ty) (d a : Spec) (f : Nat → Nat) : Except Nat LaneRes := do
  let x ← readOp c lane ta a
  let ws ← writesTo c lane dw d (f x)
  return (ws, 0)

/-- d := f(a, b). -/
def binLane (c : Ctx) (lane : Nat) (dw : Bool) (ta tb : Ty) (d a b : Spec) (f : Nat → Nat → Nat) : Except Nat LaneRes := do
  let x ← readOp c lane ta a
  let y ← readOp c lane tb b
  let ws ← writesTo c lane dw d (f x y)
  return (ws, 0)

/-- d := f(c, a, b), where the third source is D itself or the operand C. -/
def triLane (c : Ctx) (lane : Nat) (dw : Bool) (t tb : Ty) (d e a b : Spec) (f : Nat → Nat → Nat → Nat) : Except Nat LaneRes := do
  let z ← readOp c lane t e
  let x ← readOp c lane t a
  let y ← readOp c lane tb b
  let ws ← writesTo c lane dw d (f z x y)
  return (ws, 0)

/-- The third source of a multiply-accumulate: D in F form, C in X form. -/
def thirdOf (h : Hdr) (d c : Spec) : Spec := if hdrX h then c else d

/-- A predicate result. -/
def predRes (lane : Nat) (pd : BitVec 4) (v : Bool) : LaneRes := ([(.p lane pd.toNat, if v then 1 else 0)], 0)

/-! ## Instructions -/

def execIadd (h : Hdr) (ty : IntTy) (sat : Bool) (d a b : Spec) (s : State) : Outcome :=
  laneWord (.iadd h ty sat d a b) s fun c l => binLane c l (intWide ty) (iTy ty) (iTy ty) d a b (iaddRes ty sat)

def execIsub (h : Hdr) (ty : IntTy) (sat : Bool) (d a b : Spec) (s : State) : Outcome :=
  laneWord (.isub h ty sat d a b) s fun c l => binLane c l (intWide ty) (iTy ty) (iTy ty) d a b (isubRes ty sat)

def execImul (h : Hdr) (ty : IntTy) (sat : Bool) (d a b : Spec) (s : State) : Outcome :=
  laneWord (.imul h ty sat d a b) s fun c l => binLane c l (intWide ty) (iTy ty) (iTy ty) d a b (imulRes ty sat)

def execImulh (h : Hdr) (ty : IntTy) (d a b : Spec) (s : State) : Outcome :=
  laneWord (.imulh h ty d a b) s fun c l => binLane c l (intWide ty) (iTy ty) (iTy ty) d a b (imulhRes ty)

def execImac (h : Hdr) (ty : IntTy) (sat : Bool) (d a b e : Spec) (s : State) : Outcome :=
  laneWord (.imac h ty sat d a b e) s fun c l =>
    triLane c l (intWide ty) (iTy ty) (iTy ty) d (thirdOf h d e) a b (imacRes ty sat)

def execImin (h : Hdr) (ty : IntTy) (d a b : Spec) (s : State) : Outcome :=
  laneWord (.imin h ty d a b) s fun c l => binLane c l (intWide ty) (iTy ty) (iTy ty) d a b (iminRes ty)

def execImax (h : Hdr) (ty : IntTy) (d a b : Spec) (s : State) : Outcome :=
  laneWord (.imax h ty d a b) s fun c l => binLane c l (intWide ty) (iTy ty) (iTy ty) d a b (imaxRes ty)

def execIabs (h : Hdr) (ty : IntTy) (sat : Bool) (d a : Spec) (s : State) : Outcome :=
  laneWord (.iabs h ty sat d a) s fun c l => unLane c l (intWide ty) (iTy ty) d a (iabsRes ty sat)

def execIneg (h : Hdr) (ty : IntTy) (sat : Bool) (d a : Spec) (s : State) : Outcome :=
  laneWord (.ineg h ty sat d a) s fun c l => unLane c l (intWide ty) (iTy ty) d a (inegRes ty sat)

def execAnd (h : Hdr) (ty : IntTy) (d a b : Spec) (s : State) : Outcome :=
  laneWord (.and h ty d a b) s fun c l => binLane c l (intWide ty) (iTy ty) (iTy ty) d a b (andRes ty)

def execOr (h : Hdr) (ty : IntTy) (d a b : Spec) (s : State) : Outcome :=
  laneWord (.or h ty d a b) s fun c l => binLane c l (intWide ty) (iTy ty) (iTy ty) d a b (orRes ty)

def execXor (h : Hdr) (ty : IntTy) (d a b : Spec) (s : State) : Outcome :=
  laneWord (.xor h ty d a b) s fun c l => binLane c l (intWide ty) (iTy ty) (iTy ty) d a b (xorRes ty)

def execAndn (h : Hdr) (ty : IntTy) (d a b : Spec) (s : State) : Outcome :=
  laneWord (.andn h ty d a b) s fun c l => binLane c l (intWide ty) (iTy ty) (iTy ty) d a b (andnRes ty)

def execNot (h : Hdr) (ty : IntTy) (d a : Spec) (s : State) : Outcome :=
  laneWord (.not h ty d a) s fun c l => unLane c l (intWide ty) (iTy ty) d a (notRes ty)

def execShl (h : Hdr) (ty : IntTy) (d a b : Spec) (s : State) : Outcome :=
  laneWord (.shl h ty d a b) s fun c l => binLane c l (intWide ty) (iTy ty) .n32 d a b (shlRes ty)

def execShr (h : Hdr) (ty : IntTy) (d a b : Spec) (s : State) : Outcome :=
  laneWord (.shr h ty d a b) s fun c l => binLane c l (intWide ty) (iTy ty) .n32 d a b (shrRes ty)

def execSar (h : Hdr) (ty : IntTy) (d a b : Spec) (s : State) : Outcome :=
  laneWord (.sar h ty d a b) s fun c l => binLane c l (intWide ty) (iTy ty) .n32 d a b (sarRes ty)

def execBfe (h : Hdr) (ty : IntTy) (d a b : Spec) (s : State) : Outcome :=
  laneWord (.bfe h ty d a b) s fun c l => binLane c l (intWide ty) (iTy ty) .n32 d a b (bfeRes ty)

def execBfi (h : Hdr) (ty : IntTy) (d a b : Spec) (s : State) : Outcome :=
  laneWord (.bfi h ty d a b) s fun c l => triLane c l (intWide ty) (iTy ty) .n32 d d a b (bfiRes ty)

def execPopc (h : Hdr) (ty : IntTy) (d a : Spec) (s : State) : Outcome :=
  laneWord (.popc h ty d a) s fun c l => unLane c l false (iTy ty) d a (popcRes ty)

def execClz (h : Hdr) (ty : IntTy) (d a : Spec) (s : State) : Outcome :=
  laneWord (.clz h ty d a) s fun c l => unLane c l false (iTy ty) d a (clzRes ty)

def execBrev (h : Hdr) (ty : IntTy) (d a : Spec) (s : State) : Outcome :=
  laneWord (.brev h ty d a) s fun c l => unLane c l (intWide ty) (iTy ty) d a (brevRes ty)

def execLea (h : Hdr) (signed : Bool) (sh : BitVec 3) (d a b : Spec) (s : State) : Outcome :=
  laneWord (.lea h signed sh d a b) s fun c l =>
    binLane c l true (if signed then .i64 else .n64) (if signed then .i32 else .n32) d a b (leaRes signed sh.toNat)

def execIcmp (h : Hdr) (cmp : Cmp) (ty : IntTy) (pd : BitVec 4) (a b : Spec) (s : State) : Outcome :=
  laneWord (.icmp h cmp ty pd a b) s fun c l => do
    let x ← readOp c l (iTy ty) a
    let y ← readOp c l (iTy ty) b
    return predRes l pd (cmpInt cmp (readInt ty x) (readInt ty y))

def execIsel (h : Hdr) (ty : IntTy) (psel : BitVec 4) (d a b : Spec) (s : State) : Outcome :=
  laneWord (.isel h ty psel d a b) s fun c l =>
    binLane c l (intWide ty) (iTy ty) (iTy ty) d a b fun x y => if pGet c.g l psel.toNat then x else y

def execIgcd (h : Hdr) (ty : IntTy) (d a b : Spec) (s : State) : Outcome :=
  laneWord (.igcd h ty d a b) s fun c l => binLane c l (intWide ty) (iTy ty) (iTy ty) d a b (igcdRes ty)

def execMov (h : Hdr) (ty : IntTy) (d a : Spec) (s : State) : Outcome :=
  laneWord (.mov h ty d a) s fun c l => unLane c l (intWide ty) (iTy ty) d a id

def execMovi (h : Hdr) (ty : IntTy) (d : Spec) (val : Word) (s : State) : Outcome :=
  laneWord (.movi h ty d val) s fun c l => do
    let ws ← writesTo c l (intWide ty) d (moviRes ty val)
    return (ws, 0)

def execMoviHi (h : Hdr) (d : Spec) (val : Word) (s : State) : Outcome :=
  laneWord (.moviHi h d val) s fun c l => do
    let ws ← writesTo c l true d (val.toNat * 2 ^ 32)
    return (ws.drop 1, 0)

end Sys2Proof.Machine
end

