-- ==== Sys2Proof/Machine/Predicate.lean ====
section
/-! DEFINITION. Predicate instructions (R168) and index-register instructions (R169, R170). -/

namespace Sys2Proof.Machine

/-- pd := f(pa xor NA, pb xor NB), R168. -/
def predLane (c : Ctx) (lane : Nat) (na nb : Bool) (pd pa pb : BitVec 4) (f : Bool → Bool → Bool) : Except Nat LaneRes :=
  .ok (predRes lane pd (f (pGet c.g lane pa.toNat != na) (pGet c.g lane pb.toNat != nb)))

def execPand (h : Hdr) (na nb : Bool) (pd pa pb : BitVec 4) (s : State) : Outcome :=
  laneWord (.pand h na nb pd pa pb) s fun c l => predLane c l na nb pd pa pb fun x y => x && y

def execPor (h : Hdr) (na nb : Bool) (pd pa pb : BitVec 4) (s : State) : Outcome :=
  laneWord (.por h na nb pd pa pb) s fun c l => predLane c l na nb pd pa pb fun x y => x || y

def execPxor (h : Hdr) (na nb : Bool) (pd pa pb : BitVec 4) (s : State) : Outcome :=
  laneWord (.pxor h na nb pd pa pb) s fun c l => predLane c l na nb pd pa pb fun x y => x != y

def execPnot (h : Hdr) (pd pa : BitVec 4) (s : State) : Outcome :=
  laneWord (.pnot h pd pa) s fun c l => .ok (predRes l pd (!pGet c.g l pa.toNat))

def execPmov (h : Hdr) (pd pa : BitVec 4) (s : State) : Outcome :=
  laneWord (.pmov h pd pa) s fun c l => .ok (predRes l pd (pGet c.g l pa.toNat))

/-! ## Index registers -/

/-- Write an index register of a lane; [31:30] stay zero (R147, R169). -/
def xPut (g : Group) (lane i : Nat) (x : Word) : Group :=
  { g with xreg := tabPut g.xreg (8 * lane + i) (x &&& 0x3FFFFFFF#32) }

/-- A word that writes an index register of each active lane: its new value, or the bound cause (R170). -/
def indexWord (i : Instr) (s : State) (xd : BitVec 3) (f : Ctx → Nat → Except Nat Word) : Outcome :=
  issueWord i s fun c s =>
    let r := (lanesOf c.active).foldl (fun (r : List (Nat × Word) × List Raise) l =>
      match f c l with
      | .ok x => (r.1 ++ [(l, x)], r.2)
      | .error k => (r.1, r.2 ++ [⟨l, k, c.pc, 0, 0, 0⟩])) ([], [])
    let s := updGroup s c.gk fun g => r.1.foldl (fun g e => xPut g e.1 xd.toNat e.2) g
    closeWord i c s (lanesMask (r.1.map (·.1))) [] r.2

def execXset (h : Hdr) (xd : BitVec 3) (a : Spec) (s : State) : Outcome :=
  indexWord (.xset h xd a) s xd fun c l => (readOp c l .i32 a).map fun x => BitVec.ofNat 32 x

def execXget (h : Hdr) (d : Spec) (xa : BitVec 3) (s : State) : Outcome :=
  laneWord (.xget h d xa) s fun c l => do
    let ws ← writesTo c l false d (xGet c.g l xa.toNat).toNat
    return (ws, 0)

def execXstep (h : Hdr) (xd : BitVec 3) (a : Spec) (s : State) : Outcome :=
  indexWord (.xstep h xd a) s xd fun c l => (readOp c l .i32 a).map fun x => moveCursor (xGet c.g l xd.toNat) (toSigned 32 x)

def execXmov (h : Hdr) (xd xa : BitVec 3) (s : State) : Outcome :=
  indexWord (.xmov h xd xa) s xd fun c l => .ok (xGet c.g l xa.toNat)

end Sys2Proof.Machine
end

