-- ==== Sys2Proof/Machine/CrossLane.lean ====
section
/-! DEFINITION. Cross-lane instructions (R171 to R177). -/

namespace Sys2Proof.Machine

/-- The value of a vector operand in any lane, as a cross-lane instruction reads it; a lane without a thread reads as zero
(R171). -/
def laneVal (c : Ctx) (t : Ty) (a : Spec) (lane : Nat) : Except Nat Nat :=
  (readOp c lane t a).map fun x => if c.g.live.getLsbD lane then x else 0

/-- The source lane of SHFL, R172: the lane itself when the computed one is outside the group. -/
def shflSrc (mode : ShflMode) (wrel : Bool) (lane o0 : Nat) : Nat :=
  let o := if wrel then (if o0 < 32 then Config.W / 2 ^ o0 else 0) else o0
  match mode with
  | .up => if o ≤ lane then lane - o else lane
  | .down => if lane + o < Config.W then lane + o else lane
  | .xor => if lane ^^^ o < Config.W then lane ^^^ o else lane
  | .idx => if o < Config.W then o else lane

def execShfl (h : Hdr) (mode : ShflMode) (ty : IntTy) (wrel : Bool) (d a b : Spec) (s : State) : Outcome :=
  laneWord (.shfl h mode ty wrel d a b) s fun c l => do
    let o ← readOp c l .n32 b
    let x ← laneVal c (iTy ty) a (shflSrc mode wrel l o)
    let ws ← writesTo c l (intWide ty) d x
    return (ws, 0)

/-- The lowest active lane. -/
def lowest (c : Ctx) : Nat := (lanesOf c.active).headD 0

def execBcast (h : Hdr) (ty : IntTy) (d a : Spec) (s : State) : Outcome :=
  laneWord (.bcast h ty d a) s fun c l => do
    let x ← laneVal c (iTy ty) a (lowest c)
    let ws ← writesTo c l (intWide ty) d x
    return (ws, 0)

/-- Active lanes whose predicate is true. -/
def voters (c : Ctx) (pa : BitVec 4) : Lanes := lanesMask ((lanesOf c.active).filter fun l => pGet c.g l pa.toNat)

/-- The predicate that VOTE.ANY and VOTE.ALL name in D. -/
def voteDest (d : Spec) : BitVec 4 := match d with | .v n => n.truncate 4 | _ => 0

def execVote (h : Hdr) (mode : VoteMode) (d : Spec) (pa : BitVec 4) (s : State) : Outcome :=
  laneWord (.vote h mode d pa) s fun c l =>
    match mode with
    | .any => .ok (predRes l (voteDest d) (decide (voters c pa ≠ 0)))
    | .all => .ok (predRes l (voteDest d) (decide (voters c pa = c.active)))
    | .ballot => do
      let ws ← writesTo c l false d (voters c pa).toNat
      return (ws, 0)

/-- One step of a reduction or scan, R174: integers by type, floats as FADD, FMIN or FMAX. -/
def redStep (op : RedOp) (ty : Ty) (rnd : Rnd) (a b : Nat) : Nat × Flags :=
  match tyInt? ty with
  | some sg =>
    let w := tyBits ty
    let x := if sg then toSigned w a else ((a % 2 ^ w : Nat) : Int)
    let y := if sg then toSigned w b else ((b % 2 ^ w : Nat) : Int)
    match op with
    | .add => ((a + b) % 2 ^ w, 0)
    | .min => (ofInt w (min x y), 0)
    | .max => (ofInt w (max x y), 0)
  | none =>
    match op with
    | .add => finish ty rnd false (resAdd (tyVal ty a) (tyVal ty b))
    | .min => fminmax ty false a b
    | .max => fminmax ty true a b

/-- The identity of a reduction, R174. -/
def redIdent (op : RedOp) (ty : Ty) : Nat :=
  let w := tyBits ty
  match tyInt? ty with
  | some sg =>
    match op with
    | .add => 0
    | .min => if sg then 2 ^ (w - 1) - 1 else 2 ^ w - 1
    | .max => if sg then 2 ^ (w - 1) else 0
  | none =>
    match tyFmt? ty with
    | some f => match op with
      | .add => fmtSign f true
      | .min => fmtInfCode f
      | .max => fmtSign f true + fmtInfCode f
    | none => 0

/-- The halving tree over 32 lanes: lane l with lane l + k for k = 16, 8, 4, 2, 1. -/
def redTree (f : Nat → Nat → Nat × Flags) (ys : List (Nat × Flags)) : Nat × Flags :=
  let z := [16, 8, 4, 2, 1].foldl (fun (ys : List (Nat × Flags)) k => (List.range k).map fun l =>
    let a := ys.getD l (0, 0)
    let b := ys.getD (l + k) (0, 0)
    let r := f a.1 b.1
    (r.1, a.2 ||| b.2 ||| r.2)) ys
  z.getD 0 (0, 0)

/-- REDX and SCANX on a floating type under RAT: the mode cause (R177). -/
def redMode (c : Ctx) (ty : Ty) : Bool := c.g.rat && (tyInt? ty).isNone

/-- The values of A over the lanes, the identity in lanes that are not active. -/
def redVals (c : Ctx) (op : RedOp) (ty : Ty) (a : Spec) : List (Nat × Flags) :=
  (List.range Config.W).map fun l =>
    (if c.active.getLsbD l then (match readOp c l ty a with | .ok x => x | .error _ => 0) else redIdent op ty, 0)

def execRedx (h : Hdr) (op : RedOp) (ty : Ty) (rnd : Rnd) (d a : Spec) (s : State) : Outcome :=
  laneWord (.redx h op ty rnd d a) s fun c l =>
    if redMode c ty then .error cMOD
    else do
      let _ ← readOp c l ty a
      let r := redTree (redStep op ty rnd) (redVals c op ty a)
      let ws ← writesTo c l (tyWide ty) d r.1
      return (ws, r.2)

/-- The inclusive combination at a lane, R175: value and the flags of every step up to it. -/
def scanAt (c : Ctx) (op : RedOp) (ty : Ty) (rnd : Rnd) (a : Spec) (lane : Nat) : Nat × Flags :=
  ((lanesOf c.active).filter fun k => k ≤ lane).foldl (fun (r : Nat × Flags) k =>
    let q := redStep op ty rnd r.1 (match readOp c k ty a with | .ok x => x | .error _ => 0)
    (q.1, r.2 ||| q.2)) (redIdent op ty, 0)

def execScanx (h : Hdr) (op : RedOp) (ty : Ty) (rnd : Rnd) (d a : Spec) (s : State) : Outcome :=
  laneWord (.scanx h op ty rnd d a) s fun c l =>
    if redMode c ty then .error cMOD
    else do
      let _ ← readOp c l ty a
      let r := scanAt c op ty rnd a l
      let ws ← writesTo c l (tyWide ty) d r.1
      return (ws, r.2)

def execLanerd (h : Hdr) (ty : IntTy) (d a b : Spec) (s : State) : Outcome :=
  laneWord (.lanerd h ty d a b) s fun c l => do
    let n ← readOp c l .n32 b
    let _ ← readOp c l (iTy ty) a
    let x ← if n < Config.W then laneVal c (iTy ty) a n else .ok 0
    let ws ← writesTo c l (intWide ty) d x
    return (ws, 0)

end Sys2Proof.Machine
end

