-- ==== Sys2Proof/Machine/Float.lean ====
section
/-! DEFINITION. Floating-point instructions (R208 to R219): IEEE-style types, and Q32 words while RAT is set. -/

namespace Sys2Proof.Machine

/-- The type on which an instruction acts: Q32 for .f32 and .q32 under RAT (R216). -/
def fAct (c : Ctx) (ty : FTy) : Ty := if actsQ32 c.g.rat ty then .q32 else fTy ty

/-- A source under the acting type; .f16 and .bf16 read bits [15:0] (R208). -/
def fOpnd (c : Ctx) (lane : Nat) (ty : FTy) (sp : Spec) : Except Nat Nat :=
  (readOp c lane (fAct c ty) sp).map fun x => x % 2 ^ tyBits (fAct c ty)

/-- A word of per-lane floating results. The .rm mode without a Q32 result is an illegal instruction (R209, R218); TYPE .q32
with RAT clear, and any acting type that `noQ` excludes under RAT, are the mode cause (R216, R218). -/
def floatWord (i : Instr) (ty : FTy) (rnd : Rnd) (noQ : Bool) (s : State) (f : Ctx → Nat → Except Nat LaneRes) : Outcome :=
  issueWord i s fun c s =>
    if rnd = .rm && !actsQ32 c.g.rat ty then raiseIssued i c s cILL
    else if (ty = .q32 && !c.g.rat) || (noQ && actsQ32 c.g.rat ty) then raiseActive i c s cMOD 0
    else classWord i c s (evalLanes c (f c))

/-- d := f(a) on acting codes. -/
def fUn (c : Ctx) (lane : Nat) (ty : FTy) (d a : Spec) (f : Ty → Nat → Nat × Flags) : Except Nat LaneRes := do
  let x ← fOpnd c lane ty a
  let r := f (fAct c ty) x
  let ws ← writesTo c lane (fWide ty) d r.1
  return (ws, r.2)

/-- d := f(a, b) on acting codes. -/
def fBin (c : Ctx) (lane : Nat) (ty : FTy) (d a b : Spec) (f : Ty → Nat → Nat → Nat × Flags) : Except Nat LaneRes := do
  let x ← fOpnd c lane ty a
  let y ← fOpnd c lane ty b
  let r := f (fAct c ty) x y
  let ws ← writesTo c lane (fWide ty) d r.1
  return (ws, r.2)

/-! ## Results on codes, R210 to R212, R217 -/

def faddRes (rnd : Rnd) (sat : Bool) (t : Ty) (x y : Nat) : Nat × Flags := finish t rnd sat (resAdd (tyVal t x) (tyVal t y))
def fsubRes (rnd : Rnd) (sat : Bool) (t : Ty) (x y : Nat) : Nat × Flags := finish t rnd sat (resAdd (tyVal t x) (valNeg (tyVal t y)))
def fmulRes (rnd : Rnd) (sat : Bool) (t : Ty) (x y : Nat) : Nat × Flags := finish t rnd sat (resMul (tyVal t x) (tyVal t y))
def fdivRes (rnd : Rnd) (sat : Bool) (t : Ty) (x y : Nat) : Nat × Flags := finish t rnd sat (resDiv (tyVal t x) (tyVal t y))
def fmacRes (rnd : Rnd) (sat : Bool) (t : Ty) (x y z : Nat) : Nat × Flags :=
  let a := tyVal t x
  let b := tyVal t y
  let c := tyVal t z
  finish t rnd sat (if t = .q32 && (valNan a || valNan b || valNan c) then .nan 0#5 else resFma a b c)
def fsqrtRes (rnd : Rnd) (t : Ty) (x : Nat) : Nat × Flags := finish t rnd false (resSqrt (tyVal t x))
def frndRes (rnd : Rnd) (t : Ty) (x : Nat) : Nat × Flags :=
  let r := resRound rnd (tyVal t x)
  let q := finish t rnd false r.1
  (q.1, q.2 ||| r.2)

def valAbs : Val → Val
  | .nan s => .nan s
  | .inf _ => .inf false
  | .fin _ n d => .fin false n d

/-- FABS clears the sign bit, FNEG inverts it; on Q32 both write a canonical word (R212, R217). -/
def fabsRes (t : Ty) (x : Nat) : Nat := if t = .q32 then qCanon (valAbs (qVal x)) else x % 2 ^ (tyBits t - 1)
def fnegRes (t : Ty) (x : Nat) : Nat := if t = .q32 then qCanon (valNeg (qVal x)) else x ^^^ 2 ^ (tyBits t - 1)

/-! ## Instructions -/

def execFadd (h : Hdr) (ty : FTy) (rnd : Rnd) (sat : Bool) (d a b : Spec) (s : State) : Outcome :=
  floatWord (.fadd h ty rnd sat d a b) ty rnd false s fun c l => fBin c l ty d a b (faddRes rnd sat)

def execFsub (h : Hdr) (ty : FTy) (rnd : Rnd) (sat : Bool) (d a b : Spec) (s : State) : Outcome :=
  floatWord (.fsub h ty rnd sat d a b) ty rnd false s fun c l => fBin c l ty d a b (fsubRes rnd sat)

def execFmul (h : Hdr) (ty : FTy) (rnd : Rnd) (sat : Bool) (d a b : Spec) (s : State) : Outcome :=
  floatWord (.fmul h ty rnd sat d a b) ty rnd false s fun c l => fBin c l ty d a b (fmulRes rnd sat)

def execFmac (h : Hdr) (ty : FTy) (rnd : Rnd) (sat : Bool) (d a b e : Spec) (s : State) : Outcome :=
  floatWord (.fmac h ty rnd sat d a b e) ty rnd false s fun c l => do
    let z ← fOpnd c l ty (thirdOf h d e)
    fBin c l ty d a b fun t x y => fmacRes rnd sat t x y z

def execFmin (h : Hdr) (ty : FTy) (d a b : Spec) (s : State) : Outcome :=
  floatWord (.fmin h ty d a b) ty .rn false s fun c l => fBin c l ty d a b fun t => fminmax t false

def execFmax (h : Hdr) (ty : FTy) (d a b : Spec) (s : State) : Outcome :=
  floatWord (.fmax h ty d a b) ty .rn false s fun c l => fBin c l ty d a b fun t => fminmax t true

def execFabs (h : Hdr) (ty : FTy) (d a : Spec) (s : State) : Outcome :=
  floatWord (.fabs h ty d a) ty .rn false s fun c l => fUn c l ty d a fun t x => (fabsRes t x, 0)

def execFneg (h : Hdr) (ty : FTy) (d a : Spec) (s : State) : Outcome :=
  floatWord (.fneg h ty d a) ty .rn false s fun c l => fUn c l ty d a fun t x => (fnegRes t x, 0)

def execFcmp (h : Hdr) (cmp : Cmp) (ty : FTy) (un : Bool) (pd : BitVec 4) (a b : Spec) (s : State) : Outcome :=
  floatWord (.fcmp h cmp ty un pd a b) ty .rn false s fun c l => do
    let x ← fOpnd c l ty a
    let y ← fOpnd c l ty b
    let r := fcmpVal cmp un (tyVal (fAct c ty) x) (tyVal (fAct c ty) y)
    return ((predRes l pd r.1).1, r.2)

def execFrnd (h : Hdr) (ty : FTy) (rnd : Rnd) (d a : Spec) (s : State) : Outcome :=
  floatWord (.frnd h ty rnd d a) ty rnd true s fun c l => fUn c l ty d a (frndRes rnd)

def execFclass (h : Hdr) (ty : FTy) (d a : Spec) (s : State) : Outcome :=
  floatWord (.fclass h ty d a) ty .rn false s fun c l => do
    let x ← fOpnd c l ty a
    let ws ← writesTo c l false d (fclassMask (fAct c ty) x)
    return (ws, 0)

def execFdiv (h : Hdr) (ty : FTy) (rnd : Rnd) (sat : Bool) (d a b : Spec) (s : State) : Outcome :=
  floatWord (.fdiv h ty rnd sat d a b) ty rnd false s fun c l => fBin c l ty d a b (fdivRes rnd sat)

def execFsqrt (h : Hdr) (ty : FTy) (rnd : Rnd) (d a : Spec) (s : State) : Outcome :=
  floatWord (.fsqrt h ty rnd d a) ty rnd true s fun c l => fUn c l ty d a (fsqrtRes rnd)

end Sys2Proof.Machine
end

