-- ==== Sys2Proof/Machine/Conv.lean ====
section
/-! DEFINITION. Conversion (R220 to R222) and the building and reading of Q32 words (R223 to R226). -/

namespace Sys2Proof.Machine

/-- Types narrower than 32 bits, whose elements share a register (R221). -/
def isNarrow (t : Ty) : Bool := decide (tyBits t < 32)

/-- Element e of a register under a type. -/
def elemOf (t : Ty) (e x : Nat) : Nat := x / 2 ^ (tyBits t * e) % 2 ^ tyBits t

/-- A register with element e replaced. -/
def putElem (t : Ty) (e w v : Nat) : Nat :=
  w - elemOf t e w * 2 ^ (tyBits t * e) + v % 2 ^ tyBits t * 2 ^ (tyBits t * e)

def execCvt (h : Hdr) (dty sty : Ty) (rnd : Rnd) (sat : Bool) (del sel : BitVec 3) (d a : Spec) (s : State) : Outcome :=
  laneWord (.cvt h dty sty rnd sat del sel d a) s fun c l => do
    let x ← readOp c l sty a
    let r := cvtElem dty sty rnd sat 0 (elemOf sty sel.toNat x)
    if isNarrow dty then
      let w ← readOp c l .n32 d
      let ws ← writesTo c l false d (putElem dty del.toNat w r.1)
      return (ws, r.2)
    else
      let ws ← writesTo c l (tyWide dty) d r.1
      return (ws, r.2)

/-- An integer as a value. -/
def intVal (x : Int) : Val := .fin (decide (x < 0)) x.natAbs 1

/-- The quotient of two integers as a Q32 word, R224. -/
def qmakeRes (ty : IntTy) (rnd : Rnd) (a b : Nat) : Nat × Flags :=
  finish .q32 rnd false (resDiv (intVal (readInt ty a)) (intVal (readInt ty b)))

/-- Signed numerator and denominator of a Q32 value; none for NaN (R225). -/
def qPair (w : Nat) : Option (Int × Nat) :=
  match qVal w with
  | .nan _ => none
  | .inf neg => some (if neg then -1 else 1, 0)
  | .fin neg n d => some (if n = 0 then (0, 1) else (if neg then -(n : Int) else (n : Int), d))

/-- QMED, R226. -/
def qmedRes (rnd : Rnd) (a b : Nat) : Nat × Flags :=
  match qPair a, qPair b with
  | some p, some q =>
    let n := p.1 + q.1
    if p.2 + q.2 = 0 then (if n = 0 then (qNaN, fIV) else (qInf (decide (n < 0)), 0))
    else if n = 0 then (qZero, 0)
    else roundQ rnd false (decide (n < 0)) n.natAbs (p.2 + q.2)
  | _, _ => (qNaN, 0)

def execQmake (h : Hdr) (ty : IntTy) (rnd : Rnd) (d a b : Spec) (s : State) : Outcome :=
  laneWord (.qmake h ty rnd d a b) s fun c l => do
    let x ← readOp c l (iTy ty) a
    let y ← readOp c l (iTy ty) b
    let r := qmakeRes ty rnd x y
    let ws ← writesTo c l false d r.1
    return (ws, r.2)

def execQnum (h : Hdr) (w64 : Bool) (d a : Spec) (s : State) : Outcome :=
  laneWord (.qnum h w64 d a) s fun c l => do
    let x ← readOp c l .q32 a
    let p := qPair x
    let ws ← writesTo c l w64 d (ofInt (if w64 then 64 else 32) (match p with | some q => q.1 | none => 0))
    return (ws, if p.isNone then fIV else 0)

def execQden (h : Hdr) (w64 : Bool) (d a : Spec) (s : State) : Outcome :=
  laneWord (.qden h w64 d a) s fun c l => do
    let x ← readOp c l .q32 a
    let p := qPair x
    let ws ← writesTo c l w64 d (match p with | some q => q.2 | none => 0)
    return (ws, if p.isNone then fIV else 0)

def execQmed (h : Hdr) (rnd : Rnd) (d a b : Spec) (s : State) : Outcome :=
  laneWord (.qmed h rnd d a b) s fun c l => do
    let x ← readOp c l .q32 a
    let y ← readOp c l .q32 b
    let r := qmedRes rnd x y
    let ws ← writesTo c l false d r.1
    return (ws, r.2)

end Sys2Proof.Machine
end

