-- ==== Sys2Proof/Machine/Pair.lean ====
section
/-! DEFINITION. Pair words: the pair rules (R104), the reading and writing of both halves (R105), and the P-half table
(R135, R136). -/

namespace Sys2Proof.Machine

/-- The source banks of a half (R104). -/
def halfBanks (h : Half) : List Nat :=
  (h.d.toNat % 4) :: (match h.a with | .v n => [n.toNat % 4] | _ => [])

/-- The pair rules are broken (R104). -/
def pairBroken (h0 h1 : Half) : Bool :=
  h0.d.toNat % 4 == h1.d.toNat % 4 || (halfBanks h0).any fun b => (halfBanks h1).contains b

/-- The type under which a half reads A. -/
def popSrcTy (p : BitVec 7) : Ty :=
  match p.toNat with
  | 0x01 | 0x02 | 0x03 | 0x04 | 0x05 | 0x0E | 0x0F | 0x14 | 0x15 | 0x16 | 0x40 => .i32
  | 0x20 | 0x21 | 0x22 | 0x23 | 0x24 | 0x25 | 0x26 | 0x41 | 0x43 => .f32
  | _ => .n32

/-- The value that an entry computes from the old D and A (R135); flags are not raised. -/
def popRes (p : BitVec 7) (d a : Nat) : Nat :=
  match p.toNat with
  | 0x00 => a
  | 0x01 => iaddRes .i32 false d a
  | 0x02 => isubRes .i32 false d a
  | 0x03 => imulRes .i32 false d a
  | 0x04 => iminRes .i32 d a
  | 0x05 => imaxRes .i32 d a
  | 0x06 => iminRes .n32 d a
  | 0x07 => imaxRes .n32 d a
  | 0x08 => andRes .n32 d a
  | 0x09 => orRes .n32 d a
  | 0x0A => xorRes .n32 d a
  | 0x0B => andnRes .n32 d a
  | 0x0C => shlRes .n32 d a
  | 0x0D => shrRes .n32 d a
  | 0x0E => sarRes .i32 d a
  | 0x0F => iaddRes .i32 true d a
  | 0x10 => notRes .n32 a
  | 0x11 => popcRes .n32 a
  | 0x12 => clzRes .n32 a
  | 0x13 => brevRes .n32 a
  | 0x14 => iabsRes .i32 false a
  | 0x15 => inegRes .i32 false a
  | 0x16 => imulhRes .i32 d a
  | 0x17 => imulhRes .n32 d a
  | 0x20 => (faddRes .rn false .f32 d a).1
  | 0x21 => (fsubRes .rn false .f32 d a).1
  | 0x22 => (fmulRes .rn false .f32 d a).1
  | 0x23 => (fminmax .f32 false d a).1
  | 0x24 => (fminmax .f32 true d a).1
  | 0x25 => fabsRes .f32 a
  | 0x26 => fnegRes .f32 a
  | 0x40 => (cvtElem .f32 .i32 .rn false 0 a).1
  | 0x41 => (cvtElem .i32 .f32 .rn false 0 a).1
  | 0x42 => (cvtElem .f32 .n32 .rn false 0 a).1
  | 0x43 => (cvtElem .n32 .f32 .rn false 0 a).1
  | _ => a

/-- A half of a lane: nothing where its guard is false, else its write; RAT excludes the floating entries (R136). -/
def halfLane (c : Ctx) (lane : Nat) (h : Half) : Except Nat (List (Tgt × Word)) :=
  if !pGet c.g lane h.pg.toNat then .ok []
  else if c.g.rat && decide (0x20 ≤ h.pop.toNat) then .error cMOD
  else do
    let x ← readOp c lane .n32 (.v h.d)
    let y ← readOp c lane (popSrcTy h.pop) h.a
    writesTo c lane false (.v h.d) (popRes h.pop x y)

/-- A P word: both halves read before either writes (R136). Where both halves raise a cause the lane takes the first half's, and within a half
the mode cause goes before the bound cause (log entry 125). -/
def execPairWord (mark : Bool) (h0 h1 : Half) (s : State) : Outcome :=
  issueWord (.pairWord mark h0 h1) s fun c s =>
    if pairBroken h0 h1 then raiseIssued (.pairWord mark h0 h1) c s cPRR
    else shortWord (.pairWord mark h0 h1) c s (evalLanes c fun l => do
      let w0 ← halfLane c l h0
      let w1 ← halfLane c l h1
      return (w0 ++ w1, 0))

end Sys2Proof.Machine
end

