-- ==== Sys2Proof/Machine/Sfn.lean ====
section
/-! DEFINITION. Special functions (R228), in fixed point.

A transcendental value is computed with `fxP` fractional bits, far beyond what any FP32, FP16 or BF16 argument needs to
decide its rounding (log entry 22), and handed to the rounding as a point strictly between two grid points, so that it is
never taken for an exact value. Arguments whose function value is exact are recognised first. -/

namespace Sys2Proof.Machine

/-- Fractional bits of the fixed-point values. -/
def fxP : Nat := 320
def fxOne : Nat := 2 ^ 320

def fxMul (a b : Nat) : Nat := a * b / fxOne

/-- Sum over k of x^(2k+1)/(2k+1), alternating or not: `t` is x^(2k+1), `x2` is x squared; k counts up. -/
def fxAtanGo (alt : Bool) (x2 : Nat) : Nat → Nat → Nat → Nat
  | 0, _, _ => 0
  | n + 1, k, t =>
    -- the tail is smaller than the head, so the subtraction is exact in order
    let rest := fxAtanGo alt x2 n (k + 1) (fxMul t x2)
    if alt then t / (2 * k + 1) - rest else t / (2 * k + 1) + rest

/-- atanh of x = p/q below 1/2. -/
def fxAtanh (x : Nat) : Nat := fxAtanGo false (fxMul x x) 180 0 x
def fxAtan (x : Nat) : Nat := fxAtanGo true (fxMul x x) 160 0 x

def fxPi : Nat := 16 * fxAtan (fxOne / 5) - 4 * fxAtan (fxOne / 239)
def fxLn2 : Nat := 2 * fxAtanh (fxOne / 3)

/-- Taylor sum of exp: t is y^k/k!. -/
def fxExpGo (y : Nat) : Nat → Nat → Nat → Nat
  | 0, _, _ => 0
  | n + 1, k, t => t + fxExpGo y n (k + 1) (fxMul t y / (k + 1))

/-- 2^f for 0 ≤ f < 1. -/
def fxExp2 (f : Nat) : Nat := fxExpGo (fxMul f fxLn2) 90 0 fxOne

/-- Alternating Taylor sum of sin: t is x^(2k+1)/(2k+1)!. -/
def fxSinGo (x2 : Nat) : Nat → Nat → Nat → Nat
  | 0, _, _ => 0
  | n + 1, k, t => t - fxSinGo x2 n (k + 1) (fxMul t x2 / ((2 * k + 2) * (2 * k + 3)))

/-- sin(π r) for r = n/d between 0 and 1/2. -/
def fxSinPi (n d : Nat) : Nat :=
  let x := fxPi * n / d
  fxSinGo (fxMul x x) 50 0 x

/-- log2 of a mantissa n/d in [1, 2). -/
def fxLog2 (n d : Nat) : Nat := 2 * fxAtanh ((n - d) * fxOne / (n + d)) * fxOne / fxLn2

/-- A fixed-point value s as a fraction strictly above s and below s + 1, times 2^up / 2^down. -/
def fxFrac (s up down : Nat) : Nat × Nat := ((2 * s + 1) * 2 ^ up, 2 ^ (fxP + 1) * 2 ^ down)

/-- 2^a for a = ±n/d. -/
def ex2Res (neg : Bool) (n d : Nat) : Res :=
  if n = 0 then .fin false 1 1 none
  else if 1100 * d ≤ n then (if neg then .fin false 1 (2 ^ 1100) none else .fin false (2 ^ 1100) 1 none)
  else
    let i := n / d
    let r := n % d
    if r = 0 then (if neg then .fin false 1 (2 ^ i) none else .fin false (2 ^ i) 1 none)
    else if neg then
      -- -(i + r/d) = -(i + 1) + (d - r)/d
      let (p, q) := fxFrac (fxExp2 ((d - r) * fxOne / d)) 0 (i + 1)
      .fin false p q none
    else
      let (p, q) := fxFrac (fxExp2 (r * fxOne / d)) i 0
      .fin false p q none

/-- log2 of n/d > 0. -/
def lg2Res (n d : Nat) : Res :=
  let e : Int := (ilog2 n d eOff : Int) - (eOff : Int)
  let (mn, md) := if 0 ≤ e then (n, d * 2 ^ e.toNat) else (n * 2 ^ (-e).toNat, d)
  if mn = md then .fin (decide (e < 0)) e.natAbs 1 (some false)
  else
    -- e + f with 0 < f < 1
    let f := fxLog2 mn md
    let x : Int := e * (2 * fxOne : Nat) + ((2 * f + 1 : Nat) : Int)
    .fin (decide (x < 0)) x.natAbs (2 * fxOne) (some false)

/-- sin(π·n/d), n/d ≥ 0, as a signed result; `zneg` is the sign of an exact zero. -/
def sinPiRes (neg : Bool) (n d : Nat) (zneg : Bool) : Res :=
  let r := n % (2 * d)
  let neg2 := if d ≤ r then !neg else neg
  let r1 := r % d
  -- fold [0, 1) onto [0, 1/2]
  let r2 := if d < 2 * r1 then d - r1 else r1
  if r2 = 0 then .fin zneg 0 1 (some zneg)
  else if 2 * r2 = d then .fin neg2 1 1 none
  else
    let (p, q) := fxFrac (fxSinPi r2 d) 0 0
    .fin neg2 p q none

/-- tanh of ±n/d. -/
def tanhRes (neg : Bool) (n d : Nat) : Res :=
  if n = 0 then .fin neg 0 1 (some neg)
  else if 100 * d ≤ n then .fin neg (2 ^ 300 - 1) (2 ^ 300) none
  else
    -- y = 2 a / ln 2 in fixed point; e^(2a) = 2^i · 2^f
    let y := 2 * n * fxOne * fxOne / (d * fxLn2)
    let i := y / fxOne
    let ex := fxExp2 (y % fxOne) * 2 ^ i
    let t := (ex - fxOne) * fxOne / (ex + fxOne)
    let (p, q) := fxFrac t 0 0
    .fin neg p q none

/-- The exact value of fn at a, with the special values of R228. -/
def sfqRes (fn : SfqFn) (a : Val) : Res :=
  match a with
  | .nan _ => nanRes [a]
  | .inf neg =>
    match fn with
    | .rcp => .fin neg 0 1 (some neg)
    | .rsq => if neg then .nan fIV else .fin false 0 1 (some false)
    | .ex2 => if neg then .fin false 0 1 (some false) else .inf false 0#5
    | .lg2 => if neg then .nan fIV else .inf false 0#5
    | .sin => .nan fIV
    | .cos => .nan fIV
    | .tanh => .fin neg 1 1 none
  | .fin neg n d =>
    match fn with
    | .rcp => if n = 0 then .inf neg fDZ else .fin neg d n none
    | .rsq =>
      if n = 0 then .inf neg fDZ
      else if neg then .nan fIV
      else let (p, q) := sqrtVal d n; .fin false p q none
    | .ex2 => ex2Res neg n d
    | .lg2 =>
      if n = 0 then .inf true fDZ
      else if neg then .nan fIV
      else lg2Res n d
    | .sin => sinPiRes neg n d neg
    -- cos(π a) = sin(π (|a| + 1/2))
    | .cos => sinPiRes false (2 * n + d) (2 * d) false
    | .tanh => tanhRes neg n d

end Sys2Proof.Machine
end

