-- ==== Sys2Proof/Machine/Sfq.lean ====
section
/-! DEFINITION. The special function queue (R227 to R231). Places in the queue and tokens in flight are what the groups'
outstanding SFQ items hold; the waits at issue stand with `waits`. -/

namespace Sys2Proof.Machine

def execSfq (h : Hdr) (fn : SfqFn) (ty : FTy) (d a sk : Spec) (s : State) : Outcome :=
  onceWord (.sfq h fn ty d a sk) s fun c s =>
    if c.g.rat then raiseActive (.sfq h fn ty d a sk) c s cMOD 0
    else
      let r := evalLanes c fun l => do
        let x ← readOp c l (fTy ty) a
        let v := finish (fTy ty) .rn false (sfqRes fn (tyVal (fTy ty) (x % 2 ^ tyBits (fTy ty))))
        let ws ← writesTo c l false d v.1
        return (ws, v.2)
      let done := lanesMask (r.1.map (·.1))
      if done = 0 then closeWord (.sfq h fn ty d a sk) c s 0 [] r.2
      else
        let ws := allWrites r.1
        let fl := (r.1.map fun x => (x.1, x.2.2)).filter fun e => e.2 ≠ 0
        let sd := match sk with | .s n => n.toNat | _ => 0
        let s := updGroup (countEv s c.core 0x08 1) c.gk fun g =>
          let g := writeReg c.l.sregs g (.s sd) (BitVec.ofNat 32 c.g.sfn.toNat)
          pushOut { g with sfn := g.sfn + 1 } c.pc c.next done (.sfq fn ty c.g.sfn.toNat ws fl) (ws.map (·.1))
        closeWord (.sfq h fn ty d a sk) c s done [] r.2

/-- SFW holds the group until none of its tokens is in flight. -/
def execSfw (h : Hdr) (m : Spec) (s : State) : Outcome :=
  onceWord (.sfw h m) s fun c s =>
    let s := updGroup s c.gk fun g =>
      pushOut g c.pc c.next c.active (.sfw (BitVec.ofNat 8 (readUni c .n32 m))) []
    closeWord (.sfw h m) c s c.active [] []

/-- SFT writes which of its tokens are not in flight, when its result lands. -/
def execSft (h : Hdr) (d m : Spec) (s : State) : Outcome :=
  onceWord (.sft h d m) s fun c s =>
    let sd := match d with | .s n => n.toNat | _ => 0
    let v := BitVec.ofNat 8 (readUni c .n32 m) &&& ~~~(tokensBusy c.g)
    let ws := [(Tgt.s sd, (v.setWidth 32 : Word))]
    let s := updGroup s c.gk fun g => pushOut g c.pc c.next c.active (.result ws []) (ws.map (·.1))
    closeWord (.sft h d m) c s c.active [] []

end Sys2Proof.Machine
end

