-- ==== Sys2Proof/Machine/Control.lean ====
section
/-! DEFINITION. Control instructions (R178 to R186), hint words (R96). -/

namespace Sys2Proof.Machine

/-- The target of a word offset, R178. -/
def ofsTarget (c : Ctx) (ofs : BitVec 24) : DWord := c.pc + (ofs.signExtend 64 <<< 3)

/-- Every active lane goes to one address. -/
def goTo (c : Ctx) (a : DWord) : List (Nat × DWord) := (lanesOf c.active).map fun l => (l, a)

def execBra (h : Hdr) (ofs : BitVec 24) (s : State) : Outcome :=
  issueWord (.bra h ofs) s fun c s => closeWord (.bra h ofs) c s c.active (goTo c (ofsTarget c ofs)) []

/-- BRX and RET: each lane to its own target; a misaligned one is an access violation at the word itself (R179). -/
def jumpWord (i : Instr) (a : Spec) (s : State) : Outcome :=
  issueWord i s fun c s =>
    let r := (lanesOf c.active).foldl (fun (r : List (Nat × DWord) × List Raise) l =>
      match readAddr c l a with
      | .ok t => if t.toNat % 8 = 0 then (r.1 ++ [(l, t)], r.2) else (r.1, r.2 ++ [⟨l, cACV, c.pc, t, 0, 0⟩])
      | .error k => (r.1, r.2 ++ [⟨l, k, c.pc, 0, 0, 0⟩])) ([], [])
    closeWord i c s (lanesMask (r.1.map (·.1))) r.1 r.2

def execBrx (h : Hdr) (a : Spec) (s : State) : Outcome := jumpWord (.brx h a) a s

def execRet (h : Hdr) (a : Spec) (s : State) : Outcome := jumpWord (.ret h a) a s

/-- CALL: the link is the address of the next instruction (R180). -/
def execCall (h : Hdr) (d : Spec) (ofs : BitVec 24) (s : State) : Outcome :=
  issueWord (.call h d ofs) s fun c s =>
    let r := evalLanes c fun l => (writesTo c l true d c.next.toNat).map fun ws => (ws, 0)
    let done := lanesMask (r.1.map (·.1))
    let s := updGroup s c.gk fun g => writeRegs c.l.sregs g (allWrites r.1)
    closeWord (.call h d ofs) c s done (r.1.map fun x => (x.1, ofsTarget c ofs)) r.2

/-- ENROL, R181: a free register takes the target even when no lane is active. -/
def execEnrol (h : Hdr) (j : BitVec 3) (ofs : BitVec 24) (s : State) : Outcome :=
  issueWord (.enrol h j ofs) s fun c s =>
    let i : Instr := .enrol h j ofs
    let r := jGet c.g j.toNat
    let t := ofsTarget c ofs
    if r.enr = 0 then
      closeWord i c (updGroup s c.gk fun g => { g with rejoin := tabPut g.rejoin j.toNat ⟨0, c.active, t⟩ }) c.active [] []
    else if r.jpc = t then
      closeWord i c (updGroup s c.gk fun g => { g with rejoin := tabPut g.rejoin j.toNat ⟨r.arr, r.enr ||| c.active, r.jpc⟩ })
        c.active [] []
    else raiseActive i c s cBND 0

/-- REJOIN: enrolled lanes arrive and are held with their program counters at the word; the others pass (R182, R148). -/
def execRejoin (h : Hdr) (j : BitVec 3) (s : State) : Outcome :=
  issueWord (.rejoin h j) s fun c s =>
    let r := jGet c.g j.toNat
    let arrive := c.active &&& r.enr
    let s := closeWord (.rejoin h j) c s c.active ((lanesOf arrive).map fun l => (l, c.pc)) []
    if r.enr = 0 then s
    else updGroup s c.gk fun g =>
      releaseJoin { g with rejoin := tabPut g.rejoin j.toNat ⟨r.arr ||| arrive, r.enr, r.jpc⟩ } j.toNat

/-- LOOP, R183: a uniform counter counts once an issue and is tested as it reads afterwards (R146). -/
def execLoop (h : Hdr) (cs : Spec) (ofs : BitVec 24) (s : State) : Outcome :=
  issueWord (.loop h cs ofs) s fun c s =>
    let i : Instr := .loop h cs ofs
    let t := ofsTarget c ofs
    match cs with
    | .s n =>
      if c.active = 0 then closeWord i c s 0 [] []
      else
        let s := updGroup s c.gk fun g => writeReg c.l.sregs g (.s n.toNat) (sGet c.l.sregs c.g n.toNat - 1)
        let x := sGet c.l.sregs (getGroup s c.gk) n.toNat
        closeWord i c s c.active (if x ≠ 0 then goTo c t else []) []
    | _ =>
      let r := evalLanes c fun l => do
        let x ← readOp c l .n32 cs
        let ws ← writesTo c l false cs (BitVec.ofNat 32 x - 1).toNat
        return (ws, 0)
      let s := updGroup s c.gk fun g => writeRegs c.l.sregs g (allWrites r.1)
      let tgt := r.1.filterMap fun x => if x.2.1.any (fun w => w.2 != 0) then some (x.1, t) else none
      closeWord i c s (lanesMask (r.1.map (·.1))) tgt r.2

/-- Pending register results of lanes that have exited are discarded (R184). -/
def dropLive (g : Group) (m : Lanes) : Group :=
  { g with outs := g.outs.map fun o => { o with live := o.live.filter fun t =>
      match t with | .v l _ => !m.getLsbD l | .p l _ => !m.getLsbD l | .s _ => true } }

/-- EXIT: the active lanes end and leave every rejoin register; a group without a lane left is spent (R184, R137). -/
def endLanes (g : Group) (m : Lanes) : Group :=
  let g := leaveJoins (dropLive { g with exited := g.exited ||| m } m) m
  if g.live &&& ~~~g.exited = 0 then { g with sstate := .spent } else g

def execExit (h : Hdr) (s : State) : Outcome :=
  issueWord (.exit h) s fun c s =>
    closeWord (.exit h) c (updGroup s c.gk fun g => endLanes g c.active) c.active [] []

def execYield (h : Hdr) (s : State) : Outcome :=
  issueWord (.yield h) s fun c s => yieldGroup (closeWord (.yield h) c s c.active [] []) c.gk

def execNop (h : Hdr) (s : State) : Outcome :=
  issueWord (.nop h) s fun c s => closeWord (.nop h) c s c.active [] []

/-- TRAP and BKPT: the active lanes raise their cause and resume after the word; %fcode holds CODE (R185, R392). -/
def codeWord (i : Instr) (cause : Nat) (code : BitVec 8) (s : State) : Outcome :=
  issueWord i s fun c s =>
    closeWord i c s 0 [] ((lanesOf c.active).map fun l => ⟨l, cause, c.next, 0, code.zeroExtend 32, 0⟩)

def execTrap (h : Hdr) (code : BitVec 8) (s : State) : Outcome := codeWord (.trap h code) cSWT code s

def execBkpt (h : Hdr) (code : BitVec 8) (s : State) : Outcome := codeWord (.bkpt h code) cBKP code s

/-- A hint word: no operation; only its marker acts (R96, R112). -/
def execHintWord (mark wide : Bool) (s : State) : Outcome :=
  issueWord (.hintWord mark wide) s fun c s => closeWord (.hintWord mark wide) c s 0 [] []

end Sys2Proof.Machine
end

