-- ==== Sys2Proof/Machine/Toll.lean ====
section
/-! DEFINITION. The toll as units and programs see it (R71, R78 to R83, R91): the broadcast code of a region, a group's effective
toll, TOLLRD, TOLLSET and TOLLREL. -/

namespace Sys2Proof.Machine

/-- The broadcast code as a region's units take it (R91). -/
def regionCode (s : State) (r : Nat) : Nat :=
  if (getRegion s r).bias then min 4095 (s.supply.l + 128) else s.supply.l

/-- The effective toll of a setting under broadcast code b, R78. -/
def effToll (abs : Bool) (value : Int) (b : Nat) (clamp : Bool) : Nat :=
  let x : Int := if abs then max ((b : Int) - 256) (min ((b : Int) + 255) value) else (b : Int) + value
  let e := (max 0 (min 4095 x)).toNat
  if clamp then max e b else e

/-- A group's effective toll now. -/
def groupToll (s : State) (gk : Nat) : Nat :=
  let g := getGroup s gk
  effToll g.tabs g.tval (regionCode s (coreOf s gk)) (s.supply.near || s.supply.kerb)

/-- The broadcast word with a region's code in place of L (R82). -/
def tollWord (s : State) (r : Nat) : Nat :=
  (if s.supply.kerb then 2 ^ 15 else 0) + (if s.supply.near then 2 ^ 14 else 0) + regionCode s r

/-- What TOLLRD and SRD of %toll read (R80, R82). -/
def tollRead (s : State) (gk : Nat) (sel : TollSel) : Nat :=
  let g := getGroup s gk
  match sel with
  | .b => if g.det then 0x800 else tollWord s (coreOf s gk)
  | .e => if g.det then effToll g.tabs g.tval 2048 false else groupToll s gk
  | .l => (if g.tabs then 2 ^ 31 else 0) + ofInt 16 g.tval

def execTollrd (h : Hdr) (sel : TollSel) (d : Spec) (s : State) : Outcome :=
  laneWord (.tollrd h sel d) s fun c l => do
    let ws ← writesTo c l false d (tollRead s c.gk sel)
    return (ws, 0)

/-- A setting replaces the group's (R83). -/
def setToll (s : State) (gk : Nat) (abs : Bool) (v : Int) : State := updGroup s gk fun g => { g with tabs := abs, tval := v }

def execTollset (h : Hdr) (abs : Bool) (a : Spec) (s : State) : Outcome :=
  onceWord (.tollset h abs a) s fun c s =>
    let v := toSigned 32 (readUni c .i32 a)
    closeWord (.tollset h abs a) c
      (setToll s c.gk abs (if abs then max 0 (min 4095 v) else max (-256) (min 255 v))) c.active [] []

def execTollrel (h : Hdr) (s : State) : Outcome :=
  onceWord (.tollrel h) s fun c s => closeWord (.tollrel h) c (setToll s c.gk false 0) c.active [] []

end Sys2Proof.Machine
end

