-- ==== Sys2Proof/Machine/System.lean ====
section
/-! DEFINITION. Special registers, CCLR, TRET (R397 to R401), and PMARK, CNTRD and SMPL with the trace ring they write (R417 to
R419). -/

namespace Sys2Proof.Machine

/-! ## Special registers, R398 -/

/-- %mode of a group, R393. -/
def modeWord (g : Group) : Nat :=
  (if g.det then 2 ^ 24 else 0) + g.sfn.toNat * 2 ^ 21 + g.flg.toNat * 2 ^ 16 + (if g.rat then 2 ^ 8 else 0) + g.fen.toNat

/-- A special register's value for a lane; 64-bit registers as one value. -/
def srnRead (s : State) (gk lane srn : Nat) : Nat :=
  let g := getGroup s gk
  let t := teamOf s gk
  let l := launchOf s gk
  match srn with
  | 0x000 => lane
  | 0x001 => g.gidx
  | 0x002 => l.tx % 2 ^ 16 + l.ty % 2 ^ 16 * 2 ^ 16 + l.tz % 2 ^ 16 * 2 ^ 32
  | 0x003 => Config.W * g.gidx + lane
  | 0x004 => l.gx % 2 ^ 32 + l.gy % 2 ^ 32 * 2 ^ 32
  | 0x005 => l.gz
  | 0x006 => t.task
  | 0x007 => Config.W
  | 0x008 => coreOf s gk
  | 0x009 => l.seed.toNat
  | 0x00A => l.args.toNat
  | 0x00B => l.label.toNat
  | 0x00C => l.depth
  | 0x00D => tollRead s gk .b
  | 0x010 => modeWord g
  | 0x011 => g.cause.toNat
  | 0x012 => (tabGet 0#64 g.epc lane).toNat
  | 0x013 => (tabGet 0#64 g.fadr lane).toNat
  | 0x014 => (tabGet 0#32 g.fcode lane).toNat
  | 0x018 => t.done.toNat
  | 0x019 => t.err.toNat
  | 0x01A => t.priv.toNat
  | 0x020 => if g.det then 0 else (Config.clockAt s.fresh).toNat
  | _ => 0

def execSrd (h : Hdr) (srn : BitVec 10) (d : Spec) (s : State) : Outcome :=
  issueWord (.srd h srn d) s fun c s =>
    let r := evalLanes c fun l => (writesTo c l (srnWide srn) d (srnRead s c.gk l srn.toNat)).map fun ws => (ws, 0)
    shortWord (.srd h srn d) c (if srn = 0x020 then { s with fresh := s.fresh + 1 } else s) r

/-- A write of %mode: DET and the reserved bits ignore it (R399). -/
def putMode (g : Group) (w : Word) : Group :=
  { g with sfn := w.extractLsb' 21 3, flg := w.extractLsb' 16 5, rat := w.getLsbD 8, fen := w.extractLsb' 0 5 }

/-- A write of %priv: reserved bits stay zero, and a PBASE above 1,536 keeps the old one (R235, R436). -/
def privAfter (old w : Word) : Word :=
  let base := if (w.extractLsb' 21 11).toNat ≤ 1536 then w.extractLsb' 21 11 else old.extractLsb' 21 11
  (base.zeroExtend 32 <<< 21) ||| ((w.extractLsb' 0 12).zeroExtend 32)

def execSwr (h : Hdr) (srn : BitVec 10) (a : Spec) (s : State) : Outcome :=
  issueWord (.swr h srn a) s fun c s =>
    let i : Instr := .swr h srn a
    let r := (lanesOf c.active).foldl (fun (r : List (Nat × Nat) × List Raise) l =>
      match readOp c l (if srnWide srn then .n64 else .n32) a with
      | .ok x => (r.1 ++ [(l, x)], r.2)
      | .error k => (r.1, r.2 ++ [⟨l, k, c.pc, 0, 0, 0⟩])) ([], [])
    let s := match r.1 with
      | [] => s
      | (_, x) :: _ =>
        if srn = 0x010 then updGroup s c.gk fun g => putMode g (BitVec.ofNat 32 x)
        else if srn = 0x01A then updTeam s c.g.team fun t => { t with priv := privAfter t.priv (BitVec.ofNat 32 x) }
        else updGroup s c.gk fun g => { g with epc := r.1.foldl (fun t e => tabPut t e.1 (BitVec.ofNat 64 e.2)) g.epc }
    closeWord i c s (lanesMask (r.1.map (·.1))) [] r.2

def execCclr (h : Hdr) (m : Spec) (s : State) : Outcome :=
  onceWord (.cclr h m) s fun c s =>
    let x := BitVec.ofNat 32 (readUni c .n32 m)
    closeWord (.cclr h m) c (updGroup s c.gk fun g => { g with cause := g.cause &&& ~~~x }) c.active [] []

/-- TRET: lanes in the handler return to their %epc; the others raise the illegal-instruction cause (R400). -/
def execTret (h : Hdr) (s : State) : Outcome :=
  issueWord (.tret h) s fun c s =>
    let back := c.active &&& c.g.hmask
    let bad := (lanesOf (c.active &&& ~~~c.g.hmask)).map fun l => (⟨l, cILL, c.pc, 0, 0, 0⟩ : Raise)
    updGroup (closeWord (.tret h) c s back [] bad) c.gk fun g => returnLanes g back

/-! ## Trace records, R419 -/

/-- The 64 bytes of a trace record. -/
def traceBytes (time pc label : DWord) (team group lanes value : Nat) (kind func : Nat) (seq : Word) : List Byte :=
  leBytes 8 0 ++ leBytes 4 seq.toNat ++ leBytes 4 (kind * 2 ^ 16 + func % 64 * 2 ^ 10) ++ leBytes 8 0 ++
  leBytes 4 value ++ leBytes 4 lanes ++ leBytes 4 group ++ leBytes 4 team ++ leBytes 8 label.toNat ++ leBytes 8 pc.toNat ++
  leBytes 8 time.toNat

/-- Write a record of whole slots into a function's trace ring: dropped and counted when the ring lacks the slots or one of them
does not translate to writable memory. -/
def traceWrite (s : State) (func : Nat) (mk : Word → List Byte) : State :=
  let f := getFunc s func
  let seq := tabGet 0#32 s.obs.trseq func
  let bs := mk seq
  let n := bs.length / 64
  let size := 2 ^ f.trclog.toNat
  let drop := updFunc s func fun x => { x with trcdrop := x.trcdrop + 1 }
  if size < (f.trctail - f.trchead).toNat + n then drop
  else
    let pl := (List.range n).map fun i =>
      recPlace s func (f.trcbase.toNat / 4096 * 4096 + 64 * ((f.trctail.toNat + i) % size))
    if pl.any (·.isNone) then drop
    else
      let s := (List.range n).foldl (fun s i =>
        match pl.getD i none with
        | some pa => sysPut s pa ((bs.drop (64 * i)).take 64)
        | none => s) s
      let s := updFunc s func fun x => { x with trctail := x.trctail + BitVec.ofNat 32 n }
      { s with obs := { s.obs with trseq := tabPut s.obs.trseq func (seq + 1) } }

/-- Counter n of a core, R416, R417. -/
def counterOf (s : State) (core n : Nat) : DWord := tabGet 0 (getCore s core).cnt n

/-- The 24 words of a sample: word n is counter n, words 11 to 15 are zero. -/
def sampleBytes (s : State) (core : Nat) : List Byte :=
  (List.range 24).flatMap fun n => leBytes 8 (if 11 ≤ n && n ≤ 15 then 0 else (counterOf s core n).toNat)

/-- A mark or sample record of an issuing word. -/
def traceWord (s : State) (c : Ctx) (kind value : Nat) (more : List Byte) : State :=
  let t := teamOf s c.gk
  let time := Config.clockAt s.fresh
  traceWrite { s with fresh := s.fresh + 1 } c.l.func fun seq =>
    traceBytes time c.pc c.l.label t.task c.g.gidx c.active.toNat value kind c.l.func seq ++ more

def execPmark (h : Hdr) (a : Spec) (s : State) : Outcome :=
  onceWord (.pmark h a) s fun c s =>
    closeWord (.pmark h a) c (traceWord s c 0x01 (readUni c .n32 a) []) c.active [] []

def execSmpl (h : Hdr) (a : Spec) (s : State) : Outcome :=
  onceWord (.smpl h a) s fun c s =>
    closeWord (.smpl h a) c (traceWord s c 0x02 (readUni c .n32 a) (sampleBytes s c.core)) c.active [] []

/-- CNTRD, R418: 0 in a deterministic launch. -/
def execCntrd (h : Hdr) (d n : Spec) (s : State) : Outcome :=
  laneWord (.cntrd h d n) s fun c l =>
    let k := readUni c .n32 n
    if k ≤ 10 || (16 ≤ k && k ≤ 23) then do
      let ws ← writesTo c l true d (if c.g.det then 0 else (counterOf s c.core k).toNat)
      return (ws, 0)
    else .error cBND

end Sys2Proof.Machine
end

