-- ==== Sys2Proof/Machine/Memory.lean ====
section
/-! DEFINITION. Loads, stores, prefetches and atomics (R256 to R271): forming each lane's access, its places or its cause, the
elements that wait on page requests (R249, R254), and the item that performs the rest. -/

namespace Sys2Proof.Machine

/-! ## Accesses -/

/-- One access of a word: the lane it is performed for, the lanes that take its faults, its data and its first destination. -/
structure Req where
  lane  : Nat
  lanes : Lanes
  va    : DWord
  data  : DWord
  cmp   : DWord
  dst   : Nat
  deriving DecidableEq, Repr

/-- Form the requests of the active lanes; a lane that cannot raises its cause. -/
def laneReqs (c : Ctx) (f : Nat → Except Nat Req) : List Req × List Raise :=
  (lanesOf c.active).foldl (fun (r : List Req × List Raise) l =>
    match f l with
    | .ok q => (r.1 ++ [q], r.2)
    | .error k => (r.1, r.2 ++ [⟨l, k, c.pc, 0, 0, 0⟩])) ([], [])

/-- Resolve the requests in order; `det` are those of a deterministic launch that R260 or R267 forbids. -/
def resolveReqs (c : Ctx) (s : State) (kind : AccKind) (n : Nat) (w : Work) (det : DWord → Bool) (qs : List Req) :
    State × List (Req × AccRes) :=
  qs.foldl (fun (r : State × List (Req × AccRes)) q =>
    if c.g.det && det q.va then (r.1, r.2 ++ [(q, .bad cDET 0 0)])
    else match resolve r.1 c.gk q.lane kind n q.va with
      | (s, .ok ls) => (s, r.2 ++ [(q, if mtForbids w ls then .bad cACV q.va 0 else .ok ls)])
      | (s, x) => (s, r.2 ++ [(q, x)])) (s, [])

def accOfReq (q : Req) (ls : Option (List Loc)) : LaneAcc := ⟨q.lane, q.va, ls, q.data, q.cmp⟩

/-- The places found, the causes raised and the requests whose element waits (stage, page, host page service). -/
def okReqs (rs : List (Req × AccRes)) : List (Req × List Loc) :=
  rs.filterMap fun r => match r.2 with | .ok ls => some (r.1, ls) | _ => none
def badReqs (c : Ctx) (rs : List (Req × AccRes)) : List Raise :=
  rs.flatMap fun r => match r.2 with
    | .bad k f i => (lanesOf r.1.lanes).map fun l => ⟨l, k, c.pc, f, 0, i⟩
    | _ => []
def waitReqs (rs : List (Req × AccRes)) : List (Req × (Bool × Nat × Bool)) :=
  rs.filterMap fun r => match r.2 with
    | .wait s2 page => some (r.1, (s2, page, false))
    | .ask page => some (r.1, (false, page, true))
    | _ => none

def reqLanes (qs : List Req) : Lanes := qs.foldl (fun m q => m ||| q.lanes) 0

/-- The element of a waiting request. -/
def elemOf' (i : Instr) (c : Ctx) (kind : AccKind) (n : Nat) (q : Req) (w : Bool × Nat × Bool) (act : ElemAct) : Elem :=
  ⟨c.gk, q.lanes, kind, q.va, c.l.func, c.l.pasid, c.l.label, w.1, w.2.1, none, w.2.2, false, n,
    (postSteps i).eraseDups.filter (fun r => decide (xDest i ≠ some r)), act⟩

/-- A memory word after its accesses have resolved. In a normal launch the lanes whose element waits park at the word, each with
an item of its own (R249); in a deterministic launch they stay in the word's item, and the group is held (R254). -/
def memClose (i : Instr) (c : Ctx) (s : State) (kind : AccKind) (n : Nat) (mk : List LaneAcc → Work) (live : List Req → List Tgt)
    (rs : List (Req × AccRes)) (bad0 : List Raise) : State :=
  let oks := okReqs rs
  let ws := waitReqs rs
  let bad := bad0 ++ badReqs c rs
  let seq := c.g.nextSeq
  if c.g.det then
    let kept := rs.filter fun r => match r.2 with | .bad _ _ _ => false | _ => true
    let accs := kept.map fun r => accOfReq r.1 (match r.2 with | .ok ls => some ls | _ => none)
    let s := if kept.isEmpty then s else updGroup s c.gk fun g =>
      pushOut g c.pc c.next (reqLanes (kept.map (·.1))) (mk accs) (live (kept.map (·.1)))
    let s := ws.foldl (fun s w => addElem s (elemOf' i c kind n w.1 w.2 (.outSeq seq))) s
    closeWord i c s (reqLanes (oks.map (·.1))) [] bad
  else
    let s := if oks.isEmpty then s else updGroup s c.gk fun g =>
      pushOut g c.pc c.next (reqLanes (oks.map (·.1))) (mk (oks.map fun r => accOfReq r.1 (some r.2))) (live (oks.map (·.1)))
    let s := ws.foldl (fun s w =>
      let n' := (getGroup s c.gk).nextSeq
      let s := updGroup s c.gk fun g => parkWaiting { g with nextSeq := n' + 1 } w.1.lanes
      addElem s (elemOf' i c kind n w.1 w.2
        (.item ⟨n', c.pc, c.next, w.1.lanes, mk [accOfReq w.1 none], live [w.1]⟩))) s
    closeWord i c s (reqLanes (oks.map (·.1))) ((lanesOf (reqLanes (ws.map (·.1)))).map fun l => (l, c.pc)) bad

/-- A memory word of per-lane accesses. The hints `.keep`, `.stream`, `.bypass` and `.evict` change nothing that the model holds (R133; log
entry 124). -/
def memWord (i : Instr) (c : Ctx) (s : State) (kind : AccKind) (n : Nat) (mk : List LaneAcc → Work) (live : List Req → List Tgt)
    (det : DWord → Bool) (qs : List Req × List Raise) : State :=
  let r := resolveReqs c s kind n (mk []) det qs.1
  memClose i c r.1 kind n mk live r.2 qs.2

/-- First destination register of each request, and the registers written from it. -/
def dstTab (qs : List Req) : List (Nat × Nat) := qs.foldl (fun t q => tabPut t q.lane q.dst) []
def vecLive (n : Nat) (qs : List Req) : List Tgt := qs.flatMap fun q => (List.range n).map fun k => Tgt.v q.lane (q.dst + k)

/-! ## Scopes, R260, R267 -/

def scopeNo : Scope → Nat
  | .core => 0 | .nbhd => 1 | .dev => 2 | .sys => 3

/-- A scoped plain access to a global address, R260. -/
def detPlain (scope : Scope) (va : DWord) : Bool := decide (scope ≠ .core) && isGlobal va

/-- The effective scope of an atomic is .dev or .sys, R267. -/
def detAtomic (scope : Scope) (va : DWord) : Bool :=
  let native := if isGlobal va || spaceOf va == 0xF3 then 2 else if spaceOf va == 0xF2 then 1 else 0
  (isGlobal va || isWindow va) && decide (2 ≤ max (scopeNo scope) native)

/-! ## LD, ST, LDSC, LDK, PFX -/

/-- A lane of LD or LDK: its address and its first destination register (R256, R259). -/
def ldReq (c : Ctx) (ty : Ty) (count : Count) (d a b : Spec) (imm : BitVec 24) (l : Nat) : Except Nat Req := do
  let va ← memAddr c l a b imm
  let r ← vecReg c l (tyWide ty) (countOf count) d
  return ⟨l, laneBit l, va, 0, 0, r⟩

def execLd (h : Hdr) (ty : Ty) (scope : Scope) (count : Count) (d a b : Spec) (imm : BitVec 24) (s : State) : Outcome :=
  issueWord (.ld h ty scope count d a b imm) s fun c s =>
    let qs := laneReqs c (ldReq c ty count d a b imm)
    memWord (.ld h ty scope count d a b imm) c s .read (countOf count * tyBytes ty)
      (fun acc => .load ty (regsOf ty count) false (dstTab qs.1) scope acc) (vecLive (regsOf ty count)) (detPlain scope) qs

/-- The bytes that a lane of ST stores: the low bytes of its element, or of consecutive registers (R259). -/
def storeBytes (c : Ctx) (lane : Nat) (ty : Ty) (count : Count) (d : Spec) : Except Nat (List Byte) :=
  if count = .x1 then (readOp c lane ty d).map fun x => leBytes (tyBytes ty) x
  else (vecReg c lane (tyWide ty) (countOf count) d).map fun r =>
    (List.range (regsOf ty count)).flatMap fun k => leBytes 4 (vGet c.g lane (r + k)).toNat

/-- A lane of ST: its address and its bytes. -/
def stReq (c : Ctx) (ty : Ty) (count : Count) (d a b : Spec) (imm : BitVec 24) (l : Nat) : Except Nat Req := do
  let va ← memAddr c l a b imm
  let bs ← storeBytes c l ty count d
  return ⟨l, laneBit l, va, BitVec.ofNat 64 (leNat bs), 0, 0⟩

/-- The stores of more than eight bytes, by lane. -/
def wideStores (c : Ctx) (ty : Ty) (count : Count) (d : Spec) (qs : List Req) : List (Nat × List Byte) :=
  qs.foldl (fun t q => match storeBytes c q.lane ty count d with
    | .ok bs => if 8 < bs.length then tabPut t q.lane bs else t
    | .error _ => t) []

def execSt (h : Hdr) (ty : Ty) (scope : Scope) (count : Count) (d a b : Spec) (imm : BitVec 24) (s : State) : Outcome :=
  issueWord (.st h ty scope count d a b imm) s fun c s =>
    let qs := laneReqs c (stReq c ty count d a b imm)
    memWord (.st h ty scope count d a b imm) c s .write (countOf count * tyBytes ty)
      (fun acc => .store (countOf count * tyBytes ty) scope acc (wideStores c ty count d qs.1)) (fun _ => []) (detPlain scope) qs

/-- The one access of LDSC: at the address of the lowest active lane, for every active lane (R261). -/
def ldscReq (c : Ctx) (sd : Nat) (a b : Spec) (imm : BitVec 24) : Req :=
  ⟨(lanesOf c.active).headD 0, c.active, (match memAddr c ((lanesOf c.active).headD 0) a b imm with | .ok x => x | .error _ => 0), 0, 0, sd⟩

def execLdsc (h : Hdr) (ty : Ty) (scope : Scope) (count : Count) (d a b : Spec) (imm : BitVec 24) (s : State) : Outcome :=
  onceWord (.ldsc h ty scope count d a b imm) s fun c s =>
    let sd := match d with | .s n => n.toNat | _ => 0
    let q := ldscReq c sd a b imm
    memWord (.ldsc h ty scope count d a b imm) c s .read (countOf count * tyBytes ty)
      (fun acc => .load ty (regsOf ty count) true [(q.lane, sd)] scope acc)
      (fun qs => qs.flatMap fun q => (List.range (regsOf ty count)).map fun k => Tgt.s (q.dst + k)) (detPlain scope) ([q], [])

/-- LDK reads its words when it issues (R262); lanes whose element waits read theirs when it is performed. -/
def execLdk (h : Hdr) (ty : Ty) (count : Count) (d a b : Spec) (imm : BitVec 24) (s : State) : Outcome :=
  issueWord (.ldk h ty count d a b imm) s fun c s =>
    let n := countOf count * tyBytes ty
    let qs := laneReqs c fun l => do
      let va ← memAddr c l a b imm
      let r ← vecReg c l (tyWide ty) (countOf count) d
      if isGlobal va || decide (va.toNat % n ≠ 0) then return ⟨l, laneBit l, va, 0, 0, r⟩ else return ⟨l, 0, va, 0, 0, r⟩
    let glob := qs.1.filter fun q => q.lanes ≠ 0
    let win := qs.1.filter fun q => q.lanes = 0
    let mk := fun acc => Work.ldk ty (regsOf ty count) (dstTab qs.1) acc
    let r := resolveReqs c s .read n (mk []) (fun _ => false) glob
    let oks := okReqs r.2
    let core := coreOf s c.gk
    let s := oks.foldl (fun s q => ldkFill s core q.2) r.1
    let ws := oks.flatMap fun q =>
      (regWrites false q.1.lane q.1.dst (loadWords ty (ldkBytes s core q.2))).take (regsOf ty count)
    let s := if oks.isEmpty then s else updGroup s c.gk fun g =>
      pushOut g c.pc c.next (reqLanes (oks.map (·.1))) (.loaded ws) (ws.map (·.1))
    let c' := { c with g := getGroup s c.gk }
    let bad := qs.2 ++ win.map fun q => (⟨q.lane, cACV, c.pc, q.va, 0, 0⟩ : Raise)
    let rest := r.2.filter fun x => match x.2 with | .ok _ => false | _ => true
    let s := updGroup s c.gk fun g => postStep (.ldk h ty count d a b imm) g (reqLanes (oks.map (·.1)))
    memClose (.ldk h ty count d a b imm) c' s .read n mk (vecLive (regsOf ty count)) rest bad

/-- PFX asks for the line of each active lane whose address translates for a read; every other lane drops it (R263). The line
of an L1 or of a host sector in L2 is filled at once (log entry 40). -/
def execPfx (h : Hdr) (scope : Scope) (a b : Spec) (imm : BitVec 24) (s : State) : Outcome :=
  issueWord (.pfx h scope a b imm) s fun c s =>
    let s := (lanesOf c.active).foldl (fun s l =>
      match memAddr c l a b imm with
      | .error _ => s
      | .ok va =>
        if !isGlobal va then s
        else match walkElem (countEv s c.core 0x04 (if walkBegins s c.l.func c.l.pasid (va.toNat % 2 ^ 57) then 1 else 0))
            c.l.func c.l.pasid .read 1 va.toNat with
          | (s, .at' pa mt) =>
            match paKind pa with
            | .dram _ => if mt = 0 && scope = .core then l1Fill s c.core pa else s
            | .host _ =>
              if mt = 2 then s
              else if mt = 0 && scope = .core then l1Fill s c.core pa
              else (List.range 4).foldl (fun s k => l2Fill s (pa / 256 * 256 + 64 * k)) (noteOut s c.core [.glob pa mt])
            | _ => s
          | (s, _) => s) s
    let s := if c.active = 0 then s else updGroup s c.gk fun g => pushOut g c.pc c.next c.active .prefetch []
    closeWord (.pfx h scope a b imm) c s c.active [] []

/-! ## Atomics -/

/-- A lane of an atomic: its address, its operand and its destination (R265, R270). -/
def atomReq (c : Ctx) (ty : Ty) (d a b : Spec) (imm : BitVec 24) (l : Nat) : Except Nat Req := do
  let va ← memAddr c l a (.imm 0) imm
  let x ← readOp c l ty b
  let r ← vecReg c l (tyWide ty) 1 d
  return ⟨l, laneBit l, va, BitVec.ofNat 64 x, 0, r⟩

/-- The same with a compare value (R266). -/
def casReq (c : Ctx) (ty : Ty) (d a b e : Spec) (imm : BitVec 24) (l : Nat) : Except Nat Req := do
  let va ← memAddr c l a (.imm 0) imm
  let x ← readOp c l ty b
  let y ← readOp c l ty e
  let r ← vecReg c l (tyWide ty) 1 d
  return ⟨l, laneBit l, va, BitVec.ofNat 64 x, BitVec.ofNat 64 y, r⟩

/-- The same without a destination (R271). -/
def redReq (c : Ctx) (ty : Ty) (a b : Spec) (imm : BitVec 24) (l : Nat) : Except Nat Req := do
  let va ← memAddr c l a (.imm 0) imm
  let x ← readOp c l ty b
  return ⟨l, laneBit l, va, BitVec.ofNat 64 x, 0, 0⟩

def execAtom (h : Hdr) (op : AtomOp) (ty : Ty) (scope : Scope) (d a b : Spec) (imm : BitVec 24) (s : State) : Outcome :=
  issueWord (.atom h op ty scope d a b imm) s fun c s =>
    let qs := laneReqs c (atomReq c ty d a b imm)
    memWord (.atom h op ty scope d a b imm) c s .atomic (tyBytes ty)
      (fun acc => .atom op false ty (dstTab qs.1) scope acc) (vecLive (if tyWide ty then 2 else 1)) (detAtomic scope) qs

def execAtomCas (h : Hdr) (ty : Ty) (scope : Scope) (d a b e : Spec) (imm : BitVec 24) (s : State) : Outcome :=
  issueWord (.atomCas h ty scope d a b e imm) s fun c s =>
    let qs := laneReqs c (casReq c ty d a b e imm)
    memWord (.atomCas h ty scope d a b e imm) c s .atomic (tyBytes ty)
      (fun acc => .atom .xch true ty (dstTab qs.1) scope acc) (vecLive (if tyWide ty then 2 else 1)) (detAtomic scope) qs

def execAtoma (h : Hdr) (op : AtomOp) (ty : Ty) (scope : Scope) (d a b : Spec) (imm : BitVec 24) (s : State) : Outcome :=
  onceWord (.atoma h op ty scope d a b imm) s fun c s =>
    let qs := laneReqs c (atomReq c ty d a b imm)
    match qs.1 with
    | [] => closeWord (.atoma h op ty scope d a b imm) c s 0 [] qs.2
    | q0 :: _ =>
      let vals := qs.1.map fun q => (q.lane, q.data)
      memWord (.atoma h op ty scope d a b imm) c s .atomic (tyBytes ty)
        (fun acc => .atoma op ty (dstTab qs.1) scope acc vals) (fun _ => vecLive (if tyWide ty then 2 else 1) qs.1) (detAtomic scope)
        ([{ q0 with lanes := reqLanes qs.1 }], qs.2)

def execRed (h : Hdr) (op : AtomOp) (ty : Ty) (scope : Scope) (a b : Spec) (imm : BitVec 24) (s : State) : Outcome :=
  issueWord (.red h op ty scope a b imm) s fun c s =>
    let qs := laneReqs c (redReq c ty a b imm)
    memWord (.red h op ty scope a b imm) c s .atomic (tyBytes ty)
      (fun acc => .red op ty scope acc) (fun _ => []) (detAtomic scope) qs

end Sys2Proof.Machine
end

