-- ==== Sys2Proof/Machine/EngineInstr.lean ====
section
/-! DEFINITION. The asynchronous engines' instructions (R272 to R281, R286): copies, waits on tags, transforms and the operand
fence. What an engine does after the command has issued stands in `Engine.lean`. -/

namespace Sys2Proof.Machine

/-- The first byte of `n` bytes from an address that an engine command may not name: an invalid space, a lane-private address,
or an offset beyond its window (R272). With no byte at all the address itself is checked. -/
def engineBad (s : State) (gk : Nat) (va : DWord) (n : Nat) : Option DWord :=
  let g := getGroup s gk
  let last := va + BitVec.ofNat 64 (n - 1)
  if isGlobal va then (if isGlobal last && va.toNat + (n - 1) < 2 ^ 64 then none else some (BitVec.ofNat 64 (2 ^ 57)))
  else if !isWindow va || spaceOf va == 0xF0 || (va.extractLsb' 32 24) ≠ 0 then some va
  else if (winByte s g.team g.gidx 0 va).isNone then some va
  else if (winByte s g.team g.gidx 0 last).isNone || spaceOf last ≠ spaceOf va then
    -- the windows are contiguous: the first byte past the end is the one that fails
    some ((List.range 32).foldr (fun k (x : DWord) =>
      if (winByte s g.team g.gidx 0 (x + BitVec.ofNat 64 (2 ^ k))).isSome then x + BitVec.ofNat 64 (2 ^ k) else x) va + 1)
  else none

/-- The first failing check of several addresses. -/
def engineCheck (s : State) (gk : Nat) (as : List (DWord × Nat)) : Option DWord :=
  as.findSome? fun a => engineBad s gk a.1 a.2

/-- A command enters its engine, and its item counts until it is accepted (R264, R274). A frozen context does nothing with it. -/
def pushCmd (s : State) (c : Ctx) (dst src : DWord) (len tag : Nat) (kind : CmdKind) (tiles : List TileReg) : State :=
  let id := s.uid
  let cmd : Cmd := ⟨id, c.g.team, c.gk, c.core, c.g.nextSeq, c.active, c.pc, dst, src, len, tag, kind, false, [], 0, tiles, none⟩
  if (teamOf s c.gk).frozen then s
  else updGroup { s with uid := id + 1, cmds := s.cmds ++ [cmd] } c.gk fun g => pushOut g c.pc c.next c.active (.engine id) []

/-- A copy: its checks, then the tag's DONE and ERR clear and the command issues (R272, R273). -/
def copyWord (i : Instr) (c : Ctx) (s : State) (dst src : DWord) (len tag : Nat) (out : DWord) (kind : CmdKind) : State :=
  let addrs := [(dst, len), (src, len)] ++ (if out = 0 then [] else [(out, 4)])
  match engineCheck s c.gk addrs with
  | some a => raiseActive i c s cACV a
  | none =>
    if out.toNat % 4 ≠ 0 then raiseActive i c s cACV out
    else if 63 < tag then raiseActive i c s cBND 0
    else
      let bit : DWord := BitVec.ofNat 64 (2 ^ tag)
      let s := updTeam s c.g.team fun t => { t with done := t.done &&& ~~~bit, err := t.err &&& ~~~bit }
      closeWord i c (pushCmd s c dst src len tag kind []) c.active [] []

def execXcopy (h : Hdr) (lay : BitVec 3) (d a len tag : Spec) (s : State) : Outcome :=
  onceWord (.xcopy h lay d a len tag) s fun c s =>
    copyWord (.xcopy h lay d a len tag) c s (BitVec.ofNat 64 (readUni c .n64 d)) (BitVec.ofNat 64 (readUni c .n64 a))
      (readUni c .n32 len) (readUni c .n32 tag) 0 (.copy lay.toNat)

def execXcopyCrc (h : Hdr) (lay : BitVec 3) (d a len tag out : Spec) (cont : Bool) (ptag : BitVec 6) (s : State) : Outcome :=
  onceWord (.xcopyCrc h lay d a len tag out cont ptag) s fun c s =>
    let o : DWord := BitVec.ofNat 64 (readUni c .n64 out)
    copyWord (.xcopyCrc h lay d a len tag out cont ptag) c s (BitVec.ofNat 64 (readUni c .n64 d))
      (BitVec.ofNat 64 (readUni c .n64 a)) (readUni c .n32 len) (readUni c .n32 tag) o (.copyCrc lay.toNat o cont ptag.toNat)

def execXcopyChk (h : Hdr) (lay : BitVec 3) (d a len tag exp : Spec) (cont : Bool) (ptag : BitVec 6) (s : State) : Outcome :=
  onceWord (.xcopyChk h lay d a len tag exp cont ptag) s fun c s =>
    copyWord (.xcopyChk h lay d a len tag exp cont ptag) c s (BitVec.ofNat 64 (readUni c .n64 d))
      (BitVec.ofNat 64 (readUni c .n64 a)) (readUni c .n32 len) (readUni c .n32 tag) 0
      (.copyChk lay.toNat (BitVec.ofNat 32 (readUni c .n32 exp)) cont ptag.toNat)

/-- XWAITA holds the group until DONE and the mask share a bit; an empty mask holds nothing (R279). -/
def execXwaita (h : Hdr) (m : Spec) (s : State) : Outcome :=
  onceWord (.xwaita h m) s fun c s =>
    let s := updGroup s c.gk fun g => pushOut g c.pc c.next c.active (.waitAny (BitVec.ofNat 64 (readUni c .i64 m))) []
    closeWord (.xwaita h m) c s c.active [] []

/-- XWAITL holds the group until every bit of the mask is set in DONE (R279). -/
def execXwaitl (h : Hdr) (m : Spec) (s : State) : Outcome :=
  onceWord (.xwaitl h m) s fun c s =>
    let s := updGroup s c.gk fun g => pushOut g c.pc c.next c.active (.waitAll (BitVec.ofNat 64 (readUni c .i64 m))) []
    closeWord (.xwaitl h m) c s c.active [] []

/-- The result of XFIND, R280. -/
def xfindRes (done err m : DWord) : Word :=
  match (List.range 64).find? fun n => (done &&& m).getLsbD n with
  | some n => BitVec.ofNat 32 (n + (if err.getLsbD n then 2 ^ 31 else 0))
  | none => 64

def execXfind (h : Hdr) (d m : Spec) (s : State) : Outcome :=
  onceWord (.xfind h d m) s fun c s =>
    let t := getTeam s c.g.team
    let sd := match d with | .s n => n.toNat | _ => 0
    let ws := [(Tgt.s sd, xfindRes t.done t.err (BitVec.ofNat 64 (readUni c .i64 m)))]
    let s := updGroup s c.gk fun g => pushOut g c.pc c.next c.active (.result ws []) (ws.map (·.1))
    closeWord (.xfind h d m) c s c.active [] []

/-- A transform or a decode: its checks at issue, then the command. A record that is not 64-byte aligned, and a barrier object
outside R379, are access violations (R272, R281, R379; log entry 41). -/
def xformWord (i : Instr) (c : Ctx) (s : State) (dec : Bool) (d a r bo : Spec) : State :=
  let dst : DWord := BitVec.ofNat 64 (readUni c .n64 d)
  let src : DWord := BitVec.ofNat 64 (readUni c .n64 a)
  let rec' : DWord := BitVec.ofNat 64 (readUni c .n64 r)
  let obj : DWord := BitVec.ofNat 64 (readUni c .n64 bo)
  match engineCheck s c.gk [(dst, 1), (src, 1), (rec', 64)] with
  | some x => raiseActive i c s cACV x
  | none =>
    if rec'.toNat % 64 ≠ 0 then raiseActive i c s cACV rec'
    else if (objPlace s c.gk obj).isNone then raiseActive i c s cACV obj
    else closeWord i c (pushCmd s c dst src 0 0 (.xform dec rec' obj) []) c.active [] []

def execXform (h : Hdr) (d a r bo : Spec) (s : State) : Outcome :=
  onceWord (.xform h d a r bo) s fun c s => xformWord (.xform h d a r bo) c s false d a r bo

def execXformDec (h : Hdr) (d a r bo : Spec) (s : State) : Outcome :=
  onceWord (.xformDec h d a r bo) s fun c s => xformWord (.xformDec h d a r bo) c s true d a r bo

/-- FENCE.OPND: an item that completes when the group's earlier stores have been performed (R286). -/
def execFenceOpnd (h : Hdr) (s : State) : Outcome :=
  onceWord (.fenceOpnd h) s fun c s =>
    let s := updGroup s c.gk fun g => pushOut g c.pc c.next c.active .fenceOpnd []
    closeWord (.fenceOpnd h) c s c.active [] []

end Sys2Proof.Machine
end

