-- ==== Sys2Proof/Machine/Tiles.lean ====
section
/-! DEFINITION. Tile registers, accumulator transfers, matrix operations and job cards at their issue (R335 to R350). What the
matrix engine does afterwards stands in `MatrixEvents.lean`. -/

namespace Sys2Proof.Machine

/-- The slice of its core in which a group stands. -/
def sliceOf (g : Group) : Nat := (g.slot.getD 0) / 24 % 4

/-! ## Maps, R337, R338 -/

def shapeRows (w : Nat) : BitVec 13 := BitVec.ofNat 13 w
def shapeCols (w : Nat) : BitVec 13 := BitVec.ofNat 13 (w / 2 ^ 16)

def putMap (g : Group) (td : Nat) (t : TileReg) : Group := { g with tile := tabPut g.tile td t }

/-- The map that TMAP writes. -/
def tmapVal (c : Ctx) (fmt : Ty) (swz : BitVec 3) (smode src : BitVec 2) (base shape stride sptr : Spec) : TileReg :=
  let sh := readUni c .n32 shape
  let row : Nat := if hdrX c.h then readUni c .n32 stride else ((shapeCols sh).toNat * tyBits fmt + 7) / 8
  ⟨if hdrX c.h then BitVec.ofNat 64 (readUni c .i64 sptr) else 0, BitVec.ofNat 32 row, smode, shapeCols sh, shapeRows sh, swz,
    tyCode fmt, src, BitVec.ofNat 64 (readUni c .n64 base)⟩

def execTmap (h : Hdr) (fmt : Ty) (swz : BitVec 3) (smode src : BitVec 2) (td : BitVec 4) (base shape stride sptr : Spec)
    (s : State) : Outcome :=
  onceWord (.tmap h fmt swz smode src td base shape stride sptr) s fun c s =>
    closeWord (.tmap h fmt swz smode src td base shape stride sptr) c
      (updGroup s c.gk fun g => putMap g td.toNat (tmapVal c fmt swz smode src base shape stride sptr)) c.active [] []

/-- One field group of a map changed, R338. -/
def tmsetVal (c : Ctx) (t : TileReg) (fld : TmField) (a : Spec) : TileReg :=
  let x := readUni c .n32 a
  match fld with
  | .base => { t with base := BitVec.ofNat 64 (readUni c .i64 a) }
  | .stride => { t with stride := BitVec.ofNat 32 x }
  | .sptr => { t with sptr := BitVec.ofNat 64 (readUni c .i64 a) }
  | .shape => { t with rows := shapeRows x, cols := shapeCols x }
  | .fmt => { t with fmt := BitVec.ofNat 5 x, swz := BitVec.ofNat 3 (x / 2 ^ 8), smode := BitVec.ofNat 2 (x / 2 ^ 12),
                     src := BitVec.ofNat 2 (x / 2 ^ 16) }
  | .addb => { t with base := t.base + (BitVec.ofNat 32 x).signExtend 64 }
  | .adds => { t with sptr := t.sptr + (BitVec.ofNat 32 x).signExtend 64 }

def execTmset (h : Hdr) (fld : TmField) (td : BitVec 4) (a : Spec) (s : State) : Outcome :=
  onceWord (.tmset h fld td a) s fun c s =>
    closeWord (.tmset h fld td a) c
      (updGroup s c.gk fun g => putMap g td.toNat (tmsetVal c (tGet g td.toNat) fld a)) c.active [] []

/-! ## Accumulators, R339 to R344 -/

/-- An item of a word that has done its work: it leaves the count when it completes. -/
def pushDone (s : State) (c : Ctx) (fl : List (Nat × Flags)) : State :=
  updGroup s c.gk fun g => pushOut g c.pc c.next c.active (.result [] fl) []

def execAccz (h : Hdr) (ad : BitVec 6) (s : State) : Outcome :=
  onceWord (.accz h ad) s fun c s =>
    if c.l.accs ≤ ad.toNat then raiseActive (.accz h ad) c s cBND 0
    else closeWord (.accz h ad) c
      (pushDone (updGroup s c.gk fun g => putTile g ad.toNat (List.replicate 256 0)) c []) c.active [] []

/-- The elements of a transfer's pages that wait: one per page, for every active lane, which parks in a normal launch (R339,
R261, R254). -/
def tileWaits (c : Ctx) (s : State) (k : AccKind) (w : Work) (pages : List (Bool × Nat × DWord × Bool)) : State :=
  let n := (getGroup s c.gk).nextSeq
  let s := updGroup s c.gk fun g =>
    let g := { g with nextSeq := n + 1 }
    if g.det then g else parkWaiting g c.active
  let o : Out := ⟨n, c.pc, c.next, c.active, w, []⟩
  pages.foldl (fun s p => addElem s
    ⟨c.gk, c.active, k, p.2.2.1, c.l.func, c.l.pasid, c.l.label, p.1, p.2.1, none, p.2.2.2, false, 1, [], .item o⟩) s

/-- Close a transfer whose pages wait: its lanes stand at the word in a normal launch. -/
def closeWaits (i : Instr) (c : Ctx) (s : State) : State :=
  closeWord i c s 0 (if c.g.det then [] else (lanesOf c.active).map fun l => (l, c.pc)) []

def execAccld (h : Hdr) (ad : BitVec 6) (tm : BitVec 4) (org : Spec) (s : State) : Outcome :=
  onceWord (.accld h ad tm org) s fun c s =>
    let i : Instr := .accld h ad tm org
    let t := tGet c.g tm.toNat
    if c.l.accs ≤ ad.toNat || !mapOk t true then raiseActive i c s cBND 0
    else match tileFmt t with
      | none => raiseActive i c s cBND 0
      | some ty =>
        let w : Word := BitVec.ofNat 32 (readUni c .n32 org)
        let s := flushGroup s c.gk
        let r := fetchSome s c.gk ((lanesOf c.active).headD 0) c.core (tagCheck t) (tileWindow t ty w)
        match stopCause r.2.2 with
        | some (k, f, x) => closeWord i c r.1 0 [] ((lanesOf c.active).map fun l => ⟨l, k, c.pc, f, 0, x⟩)
        | none =>
          if r.2.2.isEmpty then
            closeWord i c (updGroup r.1 c.gk fun g =>
              pushOut (putTile g ad.toNat (tileVals t ty w r.2.1)) c.pc c.next c.active (.loaded []) []) c.active [] []
          else closeWaits i c (tileWaits c r.1 .read (.accld ad.toNat t w r.2.1) (stopPages r.2.2))

/-- The code that an accumulator element becomes, R342; `rand` is the random number of .sr. -/
def accstCode (ty : Ty) (rnd : Rnd) (sat : Bool) (rand : Nat) (x : DWord) : Nat :=
  match tyInt? ty with
  | some _ => (cvtElem ty .i64 .rn sat 0 x.toNat).1
  | none => (cvtElem ty .f64 rnd sat rand x.toNat).1

/-- What an element contributes to each of its bytes: address, mask, value. -/
def codeBytes (ty : Ty) (j code : Nat) (as : List DWord) : List (DWord × Nat × Nat) :=
  let sh := if ty = .t6 then 6 * j % 8 else 0
  let m := (2 ^ tyBits ty - 1) * 2 ^ sh
  (List.range as.length).map fun k =>
    (as.getD k 0, m / 256 ^ k % 256, code * 2 ^ sh / 256 ^ k % 256)

/-- The bytes that ACCST writes: address, mask and value. -/
def accstBytes (c : Ctx) (t : TileReg) (ty : Ty) (rnd : Rnd) (sat : Bool) (ad : Nat) (w : Word) : List (DWord × Nat × Nat) :=
  let r0 := (w.extractLsb' 0 13).toNat
  let c0 := (w.extractLsb' 16 13).toNat
  joinBytes ((List.range 256).flatMap fun e =>
    match tileAddrs t ty w e with
    | none => []
    | some as => codeBytes ty (c0 + e % 16)
        (accstCode ty rnd sat (srRand c.l.seed (r0 + e / 16) c0 (e % 16)) (aGet c.g ad e)) as)

def execAccst (h : Hdr) (rnd : Rnd) (sat : Bool) (tm : BitVec 4) (ad : BitVec 6) (org : Spec) (s : State) : Outcome :=
  onceWord (.accst h rnd sat tm ad org) s fun c s =>
    let i : Instr := .accst h rnd sat tm ad org
    let t := tGet c.g tm.toNat
    if c.l.accs ≤ ad.toNat || !mapOk t true then raiseActive i c s cBND 0
    else match tileFmt t with
      | none => raiseActive i c s cBND 0
      | some ty =>
        let l0 := (lanesOf c.active).headD 0
        let b := accstBytes c t ty rnd sat ad.toNat (BitVec.ofNat 32 (readUni c .n32 org))
        let r := writeStops (flushGroup s c.gk) c.gk l0 b
        match stopCause r.2 with
        | some (k, f, x) =>
          -- a byte lost with its region stops the engine, not the lanes (R93)
          if k = cHWE then engineFreeze (closeWord i c r.1 c.active [] []) c.g.team c.pc 0xFF r.1.uid
          else closeWord i c r.1 0 [] ((lanesOf c.active).map fun l => ⟨l, k, c.pc, f, 0, x⟩)
        | none =>
          let s := accstWrite r.1 c.gk l0 b t.swz
          if r.2.isEmpty then closeWord i c (pushDone s c []) c.active [] []
          else closeWaits i c (tileWaits c s .write (.accst b t.swz t.src) (stopPages r.2))

/-- The element that a lane names, R343. -/
def accElem (c : Ctx) (lane : Nat) (e : Spec) : Except Nat Nat := do
  let x ← readOp c lane .n32 e
  if x * Config.W + lane < 256 then return x * Config.W + lane else throw cBND

/-- ACCRD's result: element bits by TYPE, with the flags of a rounding. -/
def accrdRes (ty : Ty) (rnd : Rnd) (sat : Bool) (x : Nat) : Nat × Flags :=
  match ty with
  | .f32 => cvtElem .f32 .f64 rnd sat 0 x
  | .i32 => cvtElem .i32 .i64 .rn sat 0 x
  | .n32 => cvtElem .n32 .i64 .rn sat 0 x
  | _ => (x, 0)

/-- ACCWR's element, R343. -/
def accwrRes (ty : Ty) (x : Nat) : Nat × Flags :=
  match ty with
  | .f32 => cvtElem .f64 .f32 .rn false 0 x
  | .i32 => (ofInt 64 (toSigned 32 x), 0)
  | _ => (x, 0)

def execAccrd (h : Hdr) (ty : Ty) (rnd : Rnd) (sat : Bool) (d : Spec) (ad : BitVec 6) (e : Spec) (s : State) : Outcome :=
  laneWord (.accrd h ty rnd sat d ad e) s fun c l =>
    if c.l.accs ≤ ad.toNat then .error cBND
    else do
      let x ← accElem c l e
      let r := accrdRes ty rnd sat (aGet c.g ad.toNat x).toNat
      let ws ← writesTo c l (tyWide ty) d r.1
      return (ws, r.2)

def execAccwr (h : Hdr) (ty : Ty) (ad : BitVec 6) (a e : Spec) (s : State) : Outcome :=
  issueWord (.accwr h ty ad a e) s fun c s =>
    let f := fun l => if c.l.accs ≤ ad.toNat then .error cBND
      else do
        let x ← accElem c l e
        let y ← readOp c l ty a
        return (x, accwrRes ty y)
    let r := (lanesOf c.active).foldl (fun (r : State × Lanes × List (Nat × Flags) × List Raise) l =>
      match f l with
      | .ok v => (updGroup r.1 c.gk fun g => aSet g ad.toNat v.1 (BitVec.ofNat 64 v.2.1), r.2.1 ||| laneBit l,
          (if v.2.2 = 0 then r.2.2.1 else r.2.2.1 ++ [(l, v.2.2)]), r.2.2.2)
      | .error k => (r.1, r.2.1, r.2.2.1, r.2.2.2 ++ [⟨l, k, c.pc, 0, 0, 0⟩])) (s, 0, [], [])
    let s := if r.2.1 = 0 then r.1
      else updGroup r.1 c.gk fun g => pushOut g c.pc c.next r.2.1 (.result [] r.2.2.1) []
    closeWord (.accwr h ty ad a e) c s r.2.1 [] r.2.2.2

/-! ## MMA, R345 to R347 -/

def orgRow (o : DWord) : Int := ((o.extractLsb' 0 13).toNat : Int)
def orgCol (o : DWord) : Int := ((o.extractLsb' 16 13).toNat : Int)
def orgK (o : DWord) : Int := ((o.extractLsb' 32 13).toNat : Int)

def execMmaQuad (h : Hdr) (flt : Bool) (ad : BitVec 6) (ta tb : BitVec 4) (org : Spec) (klen : BitVec 13) (s : State) : Outcome :=
  onceWord (.mmaQuad h flt ad ta tb org klen) s fun c s =>
    let i : Instr := .mmaQuad h flt ad ta tb org klen
    let o : DWord := BitVec.ofNat 64 (readUni c .i64 org)
    let a := tGet c.g ta.toNat
    let b := tGet c.g tb.toNat
    if c.l.accs ≤ ad.toNat || !mmaValid a b flt (orgK o) klen.toNat then raiseActive i c s cBND 0
    else
      let s := flushGroup s c.gk
      let id := s.uid
      let m : MatOp := ⟨id, c.g.team, c.core, c.pc, 0, flt, a, b, orgRow o, orgCol o, orgK o, klen.toNat, 0,
        [⟨c.gk, c.active, 0, ad.toNat, c.g.nextSeq, 0, c.pc⟩], none, 0, [], false, 0, false, [], []⟩
      let s := { s with uid := id + 1 }
      let s := closeWord i c (updGroup s c.gk fun g => pushOut g c.pc c.next c.active (.mma id) []) c.active [] []
      startMma s m

/-- A group signs a convergence register and is held at the word (R330). Signatures are judged at the end of the cycle (R349). -/
def signWord (i : Instr) (c : Ctx) (s : State) (k acc shape : Nat) (flt : Bool) (a b : TileReg) (org : DWord) (klen : Nat)
    (job : Option (List Byte × DWord)) : State :=
  let id := s.uid
  let x : Sign := ⟨id, c.gk, c.core, k, c.active, sliceOf c.g, acc, shape, flt, a, b, org, klen, c.next, c.pc, job, c.g.nextSeq, false⟩
  let s := { s with uid := id + 1, signs := s.signs ++ [x] }
  let s := updGroup s c.gk fun g => pushOut g c.pc c.next c.lanes (.fuse id) []
  closeWord i c s 0 ((lanesOf c.lanes).map fun l => (l, c.pc)) []

/-- A fused MMA. -/
def fusedWord (i : Instr) (shape : Nat) (flt : Bool) (ad : BitVec 6) (ta tb : BitVec 4) (kc : BitVec 3) (org : Spec)
    (klen : BitVec 13) (c : Ctx) (s : State) : State :=
  signWord i c s kc.toNat ad.toNat shape flt (tGet c.g ta.toNat) (tGet c.g tb.toNat) (BitVec.ofNat 64 (readUni c .i64 org))
    klen.toNat none

def execMmaWide (h : Hdr) (flt : Bool) (ad : BitVec 6) (ta tb : BitVec 4) (kc : BitVec 3) (org : Spec) (klen : BitVec 13)
    (s : State) : Outcome :=
  onceWord (.mmaWide h flt ad ta tb kc org klen) s
    (fusedWord (.mmaWide h flt ad ta tb kc org klen) 1 flt ad ta tb kc org klen)

def execMmaSquare (h : Hdr) (flt : Bool) (ad : BitVec 6) (ta tb : BitVec 4) (kc : BitVec 3) (org : Spec) (klen : BitVec 13)
    (s : State) : Outcome :=
  onceWord (.mmaSquare h flt ad ta tb kc org klen) s
    (fusedWord (.mmaSquare h flt ad ta tb kc org klen) 2 flt ad ta tb kc org klen)

def execMmaTall (h : Hdr) (flt : Bool) (ad : BitVec 6) (ta tb : BitVec 4) (kc : BitVec 3) (org : Spec) (klen : BitVec 13)
    (s : State) : Outcome :=
  onceWord (.mmaTall h flt ad ta tb kc org klen) s
    (fusedWord (.mmaTall h flt ad ta tb kc org klen) 3 flt ad ta tb kc org klen)

/-! ## Convergence registers, R329 to R332, R348 -/

def convReset : ConvReg := ⟨false, 0, 0, 0, 0⟩
def getConv (s : State) (team c k : Nat) : ConvReg := tabGet convReset (getTeam s team).kreg (8 * c + k)
def setConv (s : State) (team c k : Nat) (x : ConvReg) : State :=
  updTeam s team fun t => { t with kreg := tabPut t.kreg (8 * c + k) x }

/-- Signatures on a team's register of a core that count in SIGNED. -/
def signersOf (s : State) (team c k : Nat) : List Sign :=
  s.signs.filter fun x => x.core == c && x.k == k && (getGroup s x.gkey).team == team && x.judged

/-- A signer's word stops with a cause in its active lanes, and its signature is gone. -/
def dropSign (s : State) (x : Sign) (cause : Nat) : State :=
  let s := { s with signs := s.signs.filter fun y => y.id != x.id }
  let s := updGroup s x.gkey fun g => retire g x.seq
  raiseAll s x.gkey x.pc x.lanes cause 0

def execCdecl (h : Hdr) (kd : BitVec 3) (grp slices : Spec) (s : State) : Outcome :=
  onceWord (.cdecl h kd grp slices) s fun c s =>
    let i : Instr := .cdecl h kd grp slices
    let sl := BitVec.ofNat 4 (readUni c .n32 slices)
    if sl ≠ 0 ∧ sl ≠ 0xF then raiseActive i c s cBND 0
    else
      let k := getConv s c.g.team c.core kd.toNat
      let x : ConvReg := { k with signed := 0, slices := sl, decl := decide (sl = 0xF),
                                  grp := BitVec.ofNat 32 (readUni c .n32 grp) &&& 0x7F7F7F7F }
      let olds := signersOf s c.g.team c.core kd.toNat
      let s := setConv s c.g.team c.core kd.toNat x
      if k.signed = 0 then closeWord i c (pushDone s c []) c.active [] []
      else raiseActive i c (olds.foldl (fun s y => dropSign s y cCNV) s) cCNV 0

/-! ## JOB, R350 -/

/-- A card becomes a walk; an invalid card ends at once with the bound cause (R354). -/
def acceptJob (s : State) (m : MatOp) (card : List Byte) : State :=
  let s := { s with mats := s.mats ++ [m] }
  if cardOk card then s else matStop s m cBND 0 0 false

/-- The walk of a card, for its signers. -/
def jobOp (id team core : Nat) (pc : DWord) (card : List Byte) (ta tb : TileReg) (sgs : List Signer) : MatOp :=
  ⟨id, team, core, pc, cardBits card 15 14, cardBits card 24 20 == 9, ta, tb, 0, 0, 0, cardBits card 44 32, 0, sgs, some card, 0, [],
    false, 0, false, [], []⟩

/-- A JOB whose card can be read: the engine accepts a quad one at once, with the maps it names, unless its context is frozen; a fused one
signs. The card is read this once (R350). -/
def readCard (i : Instr) (c : Ctx) (s : State) (o : DWord) (bs : List Byte) : State :=
  if cardBits bs 15 14 = 0 then
    let id := s.uid
    let t := closeWord i c { s with uid := id + 1 } c.active [] []
    if (teamOf s c.gk).frozen then t
    else acceptJob t (jobOp id c.g.team c.core c.pc bs (tGet c.g (cardBits bs 3 0)) (tGet c.g (cardBits bs 7 4))
      [⟨c.gk, c.active, 0, cardBits bs 13 8, c.g.nextSeq, o, c.pc⟩]) bs
  else signWord i c s (cardBits bs 18 16) (cardBits bs 13 8) (cardBits bs 15 14) (cardBits bs 24 20 == 9)
    (tGet c.g (cardBits bs 3 0)) (tGet c.g (cardBits bs 7 4)) 0 (cardBits bs 44 32) (some (bs, o))

/-- A JOB whose card's page waits: its command is handed over, and the group is held at the word until the card has been read and shows
whether it signs (R334, R350; log entry 44). -/
def holdCard (i : Instr) (c : Ctx) (s : State) (a o : DWord) : State :=
  let id := s.uid
  let cmd : Cmd := ⟨id, c.g.team, c.gk, c.core, c.g.nextSeq, c.active, c.pc, 0, 0, 0, 0, .job a o none, false, [], 0,
    (List.range 16).map fun t => tGet c.g t, none⟩
  if (teamOf s c.gk).frozen then closeWord i c s c.active [] []
  else
    let s := updGroup { s with uid := id + 1, cmds := s.cmds ++ [cmd] } c.gk fun g => pushOut g c.pc c.next c.lanes (.card id) []
    closeWord i c s 0 ((lanesOf c.lanes).map fun l => (l, c.pc)) []

def execJob (h : Hdr) (card bo : Spec) (s : State) : Outcome :=
  onceWord (.job h card bo) s fun c s =>
    let i : Instr := .job h card bo
    let a : DWord := BitVec.ofNat 64 (readUni c .n64 card)
    let o : DWord := BitVec.ofNat 64 (readUni c .n64 bo)
    if a.toNat % 64 ≠ 0 then raiseActive i c s cACV a
    else match engineBad s c.gk a 64 with
      | some x => raiseActive i c s cACV x
      | none =>
        if (objPlace s c.gk o).isNone then raiseActive i c s cACV o
        else
          let s := flushGroup s c.gk
          match fetchBytes s c.gk ((lanesOf c.active).headD 0) c.core none (rangeAddrs a 64) with
          | (s, .ok bs) => readCard i c s o bs
          | (s, .error _) => holdCard i c s a o

end Sys2Proof.Machine
end

