-- ==== Sys2Proof/Machine/Sync.lean ====
section
/-! DEFINITION. Barriers, barrier objects, fences, phases and launches from threads at their issue (R371 to R385). Their
completions stand in `Settle.lean` and in the events. -/

namespace Sys2Proof.Machine

/-! ## BAR and barrier objects, R372 to R379 -/

/-- The group arrives: it is held with its lanes at the word until the barrier releases it. -/
def execBar (h : Hdr) (n : Spec) (s : State) : Outcome :=
  onceWord (.bar h n) s fun c s =>
    let b := readUni c .n32 n
    if 7 < b then raiseActive (.bar h n) c s cBND 0
    else
      let s := updGroup s c.gk fun g => pushOut g c.pc c.next c.lanes (.bar b false (lenOf (.bar h n))) []
      closeWord (.bar h n) c s 0 ((lanesOf c.lanes).map fun l => (l, c.pc)) []

/-- A word on a barrier object: the address check of R379, then the body. -/
def onObject (i : Instr) (c : Ctx) (s : State) (bo : Spec) (f : Nat × Nat → State) : State :=
  let a : DWord := BitVec.ofNat 64 (readUni c .n64 bo)
  match objPlace s c.gk a with
  | none => raiseActive i c s cACV a
  | some p => f p

def execBoinit (h : Hdr) (bo count : Spec) (s : State) : Outcome :=
  onceWord (.boinit h bo count) s fun c s => onObject (.boinit h bo count) c s bo fun p =>
    let n := readUni c .n32 count
    if 2 ^ 24 ≤ n then raiseActive (.boinit h bo count) c s cBND 0
    else closeWord (.boinit h bo count) c
      (updGroup s c.gk fun g => pushOut g c.pc c.next c.active (.boinit p n) []) c.active [] []

def execBoarr (h : Hdr) (d bo k : Spec) (s : State) : Outcome :=
  onceWord (.boarr h d bo k) s fun c s => onObject (.boarr h d bo k) c s bo fun p =>
    let n := readUni c .n32 k
    let sd := match d with | .s x => x.toNat | _ => 0
    if 2 ^ 24 ≤ n then raiseActive (.boarr h d bo k) c s cBND 0
    else closeWord (.boarr h d bo k) c
      (updGroup s c.gk fun g => pushOut g c.pc c.next c.active (.boarr p n sd) [.s sd]) c.active [] []

def execBowait (h : Hdr) (bo g : Spec) (s : State) : Outcome :=
  onceWord (.bowait h bo g) s fun c s => onObject (.bowait h bo g) c s bo fun p =>
    closeWord (.bowait h bo g) c
      (updGroup s c.gk fun x => pushOut x c.pc c.next c.active (.bowait p (readUni c .n32 g % 65536) false) []) c.active [] []

def execBotest (h : Hdr) (pd : BitVec 4) (bo g : Spec) (s : State) : Outcome :=
  onceWord (.botest h pd bo g) s fun c s => onObject (.botest h pd bo g) c s bo fun p =>
    closeWord (.botest h pd bo g) c
      (updGroup s c.gk fun x => pushOut x c.pc c.next c.active (.botest p (readUni c .n32 g % 65536) pd.toNat c.g.det)
        ((lanesOf c.active).map fun l => .p l pd.toNat)) c.active [] []

/-! ## FENCE and phases, R380, R381 -/

def execFence (h : Hdr) (scope : Scope) (s : State) : Outcome :=
  onceWord (.fence h scope) s fun c s =>
    closeWord (.fence h scope) c
      (updGroup s c.gk fun g => pushOut g c.pc c.next c.active (.fence (decide (scope = .sys))) []) c.active [] []

/-- A release: its cycle S, and the item that completes with it (R360). -/
def execPhrel (h : Hdr) (scope : Scope) (s : State) : Outcome :=
  onceWord (.phrel h scope) s fun c s =>
    if c.g.det then raiseActive (.phrel h scope) c s cDET 0
    else
      let r := releaseAsk s c.core scope (scopeCores s c.gk scope)
      closeWord (.phrel h scope) c (updGroup r.1 c.gk fun g => pushOut g c.pc c.next c.active (.release scope r.2) []) c.active [] []

/-- An acquire: ACQF is taken, and the item completes with the invalidation (R361). -/
def execPhacq (h : Hdr) (scope : Scope) (s : State) : Outcome :=
  onceWord (.phacq h scope) s fun c s =>
    if c.g.det then raiseActive (.phacq h scope) c s cDET 0
    else
      let id := s.uid
      let s := acquireTake { s with uid := id + 1 } id c.core none
      closeWord (.phacq h scope) c (updGroup s c.gk fun g => pushOut g c.pc c.next c.active (.acquire id) []) c.active [] []

/-- PHSYNC: a release, whose completion begins the acquire. -/
def execPhsync (h : Hdr) (scope : Scope) (s : State) : Outcome :=
  onceWord (.phsync h scope) s fun c s =>
    if c.g.det then raiseActive (.phsync h scope) c s cDET 0
    else
      let r := releaseAsk s c.core scope (scopeCores s c.gk scope)
      closeWord (.phsync h scope) c
        (updGroup r.1 c.gk fun g => pushOut g c.pc c.next c.active (.phsync scope r.2 false) []) c.active [] []

/-! ## LAUNCH, GRAPHRUN, LDONE, R382 to R384 -/

/-- A launch enters the front end: what is known of it before its record is read. Its number is also its order of arrival. -/
def handLaunch (s : State) (origin : Origin) (func pasid pri depth : Nat) (det : Bool) (rec' : DWord) : State × Nat :=
  let id := s.uid
  let l : Launch := { launchReset with origin := origin, func := func, pasid := pasid, pri := pri, depth := depth, det := det,
                                       recAddr := rec', order := id }
  (setLaunch { s with uid := id + 1 } id l, id)

/-- The number of a logical thread in its team. -/
def threadNo (g : Group) (lane : Nat) : Nat := Config.W * g.gidx + lane

/-- A child of a lane's thread is handed over: it enters the thread's count and its grid's (R383, R29). That of a launch under replay is
under replay, too (R415, R423), and its place is numbered by its parent's, the team, the thread and the thread's count of launches
(R425). One handed over after its grid ended is terminated with it (R31). -/
def handChild (s : State) (gk lane : Nat) (rec' : DWord) : State × Nat :=
  let g := getGroup s gk
  let lk := (getTeam s g.team).launch
  let l := getLaunch s lk
  let th := threadNo g lane
  let t := getTeam s g.team
  let r := handLaunch s (.thread lk g.team th) l.func l.pasid l.pri (l.depth + 1) l.det rec'
  let s := updTeam r.1 g.team fun t => { t with children := tabUpd 0 t.children th (· + 1), born := tabUpd 0 t.born th (· + 1) }
  let s := if l.replay then updLaunch s r.2 fun x =>
    { x with replay := true, path := ((l.path * 2 ^ 32 + t.task) * 2 ^ 32 + th) * 2 ^ 32 + tabGet 0 t.born th + 1 } else s
  let s := if gridEnded l then updLaunch s r.2 (endWith 0x08) else s
  (updLaunch s lk fun l => { l with childLive := l.childLive + 1 }, r.2)

/-- An item's records, as far as the front end has room for them: an entry (lane, record) becomes (1000 + launch, 0). -/
def handRecs (s : State) (gk : Nat) (recs : List (Nat × DWord)) : State × List (Nat × DWord) :=
  recs.foldl (fun (r : State × List (Nat × DWord)) x =>
    if x.1 < 1000 && decide (handedCount r.1 < 4096) && r.2.all (fun y => decide (1000 ≤ y.1)) then
      let q := handChild r.1 gk x.1 x.2
      (q.1, r.2 ++ [(1000 + q.2, 0)])
    else (r.1, r.2 ++ [x])) (s, [])

def execLaunch (h : Hdr) (a : Spec) (s : State) : Outcome :=
  onceWord (.launch h a) s fun c s =>
    let uni := match a with | .s _ => true | _ => false
    let lanes := if uni then (lanesOf c.active).take 1 else lanesOf c.active
    let r := lanes.foldl (fun (r : List (Nat × DWord) × List Raise) l =>
      match readAddr c l a with
      | .error k => (r.1, r.2 ++ [⟨l, k, c.pc, 0, 0, 0⟩])
      | .ok va =>
        if va.toNat % 128 ≠ 0 || !isGlobal va then (r.1, r.2 ++ [⟨l, cACV, c.pc, va, 0, 0⟩])
        else if 11 ≤ c.l.depth + 1 then (r.1, r.2 ++ [⟨l, cDEP, c.pc, 0, 0, 0⟩])
        else (r.1 ++ [(l, va)], r.2)) ([], [])
    if r.1.isEmpty then closeWord (.launch h a) c s (c.active &&& ~~~(lanesMask (r.2.map (·.lane)))) [] r.2
    else
      let q := handRecs s c.gk r.1
      let s := updGroup q.1 c.gk fun g => pushOut g c.pc c.next c.active (.launch q.2 s.now) []
      closeWord (.launch h a) c s (c.active &&& ~~~(lanesMask (r.2.map (·.lane)))) [] r.2

def execGraphrun (h : Hdr) (g n : Spec) (s : State) : Outcome :=
  onceWord (.graphrun h g n) s fun c s =>
    let x := readUni c .n32 g
    if 1023 < x then raiseActive (.graphrun h g n) c s cBND 0
    else if (getGraph s x).gown ≠ c.l.func then raiseActive (.graphrun h g n) c s cACV 0
    else closeWord (.graphrun h g n) c
      (pushDone (gtrigStore s c.l.func x (BitVec.ofNat 64 (readUni c .n32 n))) c []) c.active [] []

def execLdone (h : Hdr) (s : State) : Outcome :=
  onceWord (.ldone h) s fun c s =>
    closeWord (.ldone h) c (updGroup s c.gk fun g => pushOut g c.pc c.next c.active (.ldone none) []) c.active [] []

end Sys2Proof.Machine
end

