-- ==== Sys2Proof/Machine/CoreEvents.lean ====
section
/-! DEFINITION. Events of cores: results that return and accesses that are performed (R116, R229, R264, R357), group swaps
(R139, R140), elements whose walk faults (R249), releases and acquires (R360, R361), barrier arrivals (R372). An event whose
precondition does not hold changes nothing. -/

namespace Sys2Proof.Machine

/-! ## Results and accesses -/

/-- An item whose completion is the return of a result. -/
def isResult (o : Out) : Bool :=
  match o.work with
  | .result _ _ | .loaded _ | .load _ _ _ _ _ _ | .ldk _ _ _ _ | .atom _ _ _ _ _ _ | .atoma _ _ _ _ _ _ | .boarr _ _ _ | .botest _ _ _ false => true
  | _ => false

/-- An item whose completion is that its accesses are performed. -/
def isPlain (o : Out) : Bool :=
  match o.work with
  | .store _ _ _ _ | .red _ _ _ _ | .boinit _ _ | .prefetch => true
  | _ => false

def isSfq (o : Out) : Bool := match o.work with | .sfq _ _ _ _ _ => true | _ => false

/-- Perform an item of one kind when nothing it must follow remains and no host has to answer it. -/
def performEvent (s : State) (gk seq : Nat) (k : Out → Bool) : State :=
  match findOut s gk seq with
  | some o => if k o && mayPerform (getGroup s gk) o && !hostBound o && objTurn s gk o && peerTurn s gk o then performItem s gk o else s
  | none => s

def execLongResultWrite (at' seq : Nat) (s : State) : Outcome := .next (performEvent s at' seq isResult)

def execAccessPerformed (at' seq : Nat) (s : State) : Outcome := .next (performEvent s at' seq isPlain)

def execSfqEntryComplete (at' seq : Nat) (s : State) : Outcome := .next (performEvent s at' seq isSfq)

/-! ## Active and pending groups -/

def execGroupSwap (core slice : Nat) (s : State) : Outcome := .next (swapSlice s (4 * core + slice))

def execPendingPromote (core slice : Nat) (s : State) : Outcome := .next (promoteSlice s (4 * core + slice))

/-! ## Faulting walks -/

/-- The element of a fetch. -/
def fetchElem (s : State) (u : Issue) (va : DWord) (s2 : Bool) (page : Nat) (pri : Bool) : Elem :=
  let l := launchOf s u.gkey
  ⟨u.gkey, u.lanes, .fetch, va, l.func, l.pasid, l.label, s2, page, none, pri, false, 8, [], .refetch u.pc⟩

/-- A fetch that does not succeed: a cause at the target in the lanes of the set (R179), or an element that waits (R249). In a
deterministic launch the lanes keep their places and the group is held (R254). -/
def fetchFails (s : State) (u : Issue) (r : AccRes) (va : DWord) : State :=
  match r with
  | .bad k f i => takeCauses s u.gkey u.pc false ((lanesOf u.lanes).map fun l => ⟨l, k, u.pc, f, 0, i⟩)
  | .wait s2 page => addElem (updGroup s u.gkey fun g => if g.det then g else parkWaiting g u.lanes) (fetchElem s u va s2 page false)
  | .ask page => addElem (updGroup s u.gkey fun g => if g.det then g else parkWaiting g u.lanes) (fetchElem s u va false page true)
  | .ok _ => s

/-- A walk of a group's element ends in a fault: the fetch of the word that its lane set issues next. An element that waits without a
slot stays parked, and takes a slot as one frees (R250). -/
def execTranslationFault (at' lane : Nat) (kind : AccKind) (va : DWord) (s : State) : Outcome :=
  .next (match s.elems.find? fun e => e.gkey == at' && e.lanes.getLsbD lane && e.kind == kind && e.va == va && e.slot.isNone &&
      !e.pri && onCore s e with
  | some _ => fillSlots s
  | none =>
    match issueSet (getGroup s at') with
    | some (pc, m) =>
      if kind = .fetch && m.getLsbD lane && mayRun s at' then
        match fetchInstr s at' pc with
        | (s', .fails (.wait s2 p) a) => if a = va then fetchFails s' ⟨at', pc, m⟩ (.wait s2 p) a else s
        | (s', .fails (.ask p) a) => if a = va then fetchFails s' ⟨at', pc, m⟩ (.ask p) a else s
        | _ => s
      else s
    | none => s)

/-! ## Releases and acquires -/

/-- Some PCIe port carried a host write that has not been acknowledged (R269). -/
def hostDirty (s : State) : Bool := s.pcie.ports.any fun e => e.2.dirtyReads.isSome

/-- The port whose zero-length read is the next to return: the lowest that carried such a write (R269). -/
def dirtyPort (s : State) : Option Nat := (s.pcie.ports.find? fun e => e.2.dirtyReads.isSome).map (·.1)

/-- The zero-length read of a port has been made. -/
def hostClean (s : State) (port : Nat) : State :=
  { s with pcie := { s.pcie with ports := tabUpd pcieReset s.pcie.ports port fun x => { x with dirtyReads := none } } }

/-- The item of a group that an acquire completes. -/
def itemOf (s : State) (p : Work → Bool) : Option (Nat × Out) :=
  s.groups.findSome? fun e => (e.2.outs.find? fun o => p o.work).map fun o => (e.1, o)

/-- PHSYNC's release has completed: its acquire begins. -/
def beginAcquire (s : State) (gk : Nat) (o : Out) (scope : Scope) : State :=
  let id := s.uid
  let s := acquireTake { s with uid := id + 1 } id (coreOf s gk) none
  updGroup s gk fun g => { g with outs := g.outs.map fun x => if x.seq = o.seq then { x with work := .phsync scope id true } else x }

/-- A release is over for an instruction that asked for it: at .sys the host must have acknowledged its writes first (R269). -/
def releaseOver (s : State) (gk : Nat) (o : Out) : State :=
  match o.work with
  | .phsync sc _ _ => if sc = .sys && hostDirty s then s else beginAcquire s gk o sc
  | .release sc _ => if sc = .sys && hostDirty s then s else updGroup s gk fun g => retire g o.seq
  | _ => s

/-- A release is over: for every instruction that shares it (R381). -/
def releaseItem (s : State) (id : Nat) : State :=
  (s.groups.flatMap fun e => (e.2.outs.filter (asksRelease id)).map fun o => (e.1, o)).foldl (fun s x => releaseOver s x.1 x.2) s

/-- A release whose bytes were taken in an earlier cycle completes, behind those of its core that began before it (R360). -/
def execReleaseComplete (id : Nat) (s : State) : Outcome :=
  .next (match s.rels.find? fun r => r.id == id with
  | some r =>
    if s.now ≤ r.cyc || (s.rels.takeWhile fun x => x.id != id).any (fun x => x.core == r.core) then s
    else releaseItem (releaseFinish s r) id
  | none => s)

/-- An acquire that began in an earlier cycle completes, behind those of its core that began before it (R361, R365). -/
def execAcquireComplete (id : Nat) (s : State) : Outcome :=
  .next (match s.acqs.find? fun a => a.id == id with
  | some a =>
    if s.now ≤ a.cyc || (s.acqs.takeWhile fun x => x.id != id).any (fun x => x.core == a.core) then s
    else
      let s := acquireDrop { s with acqs := s.acqs.filter fun x => x.id != id } a.core a.filt
      match itemOf s fun w => match w with | .acquire i => i == id | .phsync _ i q => i == id && q | .ldone (some i) => i == id | _ => false with
      | some (gk, o) => updGroup s gk fun g => retire g o.seq
      | none => s
  | none => s)

/-! ## Barrier arrivals -/

/-- The arrival of a group that is held at a barrier and whose earlier accesses have been performed is recorded (R372). -/
def execBarArrivalRecord (at' : Nat) (s : State) : Outcome :=
  .next (match (getGroup s at').outs.find? fun o => match o.work with | .bar _ r _ => !r | _ => false with
  | some o =>
    match o.work with
    | .bar n _ len =>
      if barReady s at' o.seq && !parkedElem s at' then
        let g := getGroup s at'
        let s := setGroup s at' { g with outs := g.outs.map fun x => if x.seq = o.seq then { x with work := .bar n true len } else x }
        updTeam s g.team fun t => { t with bars := tabUpd [] t.bars n fun l => if l.contains g.gidx then l else l ++ [g.gidx] }
      else s
    | _ => s
  | none => s)

end Sys2Proof.Machine
end

