-- ==== Sys2Proof/Machine/MatrixEvents.lean ====
section
/-! DEFINITION. What the matrix engine does after issue: signatures and joint issue (R330, R331, R349), the steps of an
operation (R321, R346), and the walk of a job card (R353 to R355). -/

namespace Sys2Proof.Machine

def findMat (s : State) (id : Nat) : Option MatOp := s.mats.find? fun m => m.id == id
def putMat (s : State) (m : MatOp) : State := { s with mats := s.mats.map fun x => if x.id == m.id then m else x }

/-! ## Signatures and joint issue -/

/-- What signers must have in common (R331, R350). -/
def signKey (x : Sign) : Nat × Bool × TileReg × TileReg × DWord × Nat × Option (List Nat) :=
  (x.shape, x.flt, x.ta, x.tb, x.org, x.klen, x.job.map fun j => cardKey j.1)

/-- A signer is released past its word; its item becomes `w`, or leaves the count. -/
def passSign (s : State) (x : Sign) (w : Option Work) : State :=
  let lanes := ((findOut s x.gkey x.seq).map (·.lanes)).getD 0
  match w with
  | some w => updGroup s x.gkey fun g =>
    let g := setPcs g lanes x.next
    { g with outs := g.outs.map fun o => if o.seq = x.seq then { o with work := w } else o }
  | none => dueCauses (updGroup s x.gkey fun g => retire (setPcs g lanes x.next) x.seq) x.gkey lanes

/-- The joint issue of matching signers. -/
def jointIssue (s : State) (xs : List Sign) : State :=
  match xs with
  | [] => s
  | x0 :: _ =>
    let team := (getGroup s x0.gkey).team
    let s := xs.foldl (fun s x => flushGroup s x.gkey) s
    let sgs := xs.map fun x => (⟨x.gkey, x.lanes, x.slice, x.acc, x.seq, ((x.job.map (·.2)).getD 0), x.pc⟩ : Signer)
    let drop := fun (s : State) => { s with signs := s.signs.filter fun y => !(xs.any fun x => x.id == y.id) }
    let id := s.uid
    match x0.job with
    | none =>
      if xs.any (fun x => decide ((launchOf s x.gkey).accs ≤ x.acc)) || !mmaValid x0.ta x0.tb x0.flt (orgK x0.org) x0.klen then
        xs.foldl (fun s x => dropSign s x cBND) s
      else
        let m : MatOp := ⟨id, team, x0.core, x0.pc, x0.shape, x0.flt, x0.ta, x0.tb, orgRow x0.org, orgCol x0.org, orgK x0.org,
          x0.klen, 0, sgs, none, 0, [], false, 0, false, [], []⟩
        startMma (drop (xs.foldl (fun s x => passSign s x (some (.mma id))) { s with uid := id + 1 })) m
    | some (card, _) =>
      let s := drop (xs.foldl (fun s x => passSign s x none) { s with uid := id + 1 })
      if (getTeam s team).frozen then s
      else acceptJob s (jobOp id team x0.core x0.pc card x0.ta x0.tb sgs) card

/-- One signature judged against its register, and the joint issue tested (R330, R331). -/
def judgeSign (s : State) (x : Sign) : State :=
  let g := getGroup s x.gkey
  let kr := getConv s g.team x.core x.k
  if kr.decl && kr.slices.getLsbD x.slice && (kr.grp.toNat / 2 ^ (8 * x.slice)) % 128 == g.gidx then
    let kr := { kr with signed := kr.signed ||| BitVec.ofNat 4 (2 ^ x.slice) }
    let s := setConv s g.team x.core x.k kr
    let s := { s with signs := s.signs.map fun y => if y.id == x.id then { y with judged := true } else y }
    if kr.signed = kr.slices then
      let xs := sortBy (·.slice) (signersOf s g.team x.core x.k)
      if xs.all fun y => signKey y == signKey x then
        jointIssue (setConv s g.team x.core x.k { kr with signed := 0, gen := kr.gen + 1 }) xs
      else xs.foldl (fun s y => dropSign s y cCNV) (setConv s g.team x.core x.k { kr with signed := 0 })
    else s
  else dropSign s x cCNV

/-- The signatures made in a cycle, in ascending core slot (R349). -/
def judgeSigns (s : State) : State :=
  let news := s.signs.filter fun x => !x.judged
  (sortBy (fun x => (getGroup s x.gkey).slot.getD 0) news).foldl (fun s x =>
    if s.signs.any fun y => y.id == x.id then judgeSign s x else s) s

/-! ## Steps -/

/-- The accumulator that a signer's part of the current operation writes. -/
def curAcc (m : MatOp) (sg : Signer) : Nat :=
  match m.job with
  | none => sg.acc
  | some card => ((sg.acc : Int) + (jobAt card m.idx).2.2.2 - (cardBits card 13 8 : Int)).toNat

/-- The K range of an operation's next step. -/
def unitRange (m : MatOp) : Nat × Nat :=
  let k0 := m.koff.toNat + m.k
  (k0, min (k0 + unitOf m.ta m.tb) (m.koff.toNat + m.klen))

/-- An MMA whose page request is outstanding, on its core, with no operand of its next step on a page that waits: what translated is
performed at once (R249), and the steps before the one that meets the page are taken (R321). -/
def leadingStep (s : State) (m : MatOp) : Bool :=
  let k := unitRange m
  m.job.isNone && m.signers.all fun sg => (getGroup s sg.gkey).slot.isSome &&
    (partAddrs m sg k.1 k.2).all fun a => !(s.elems.any fun e =>
      (match e.act with | .matrix n => n == m.id | _ => false) && e.va.toNat / 4096 == a.toNat / 4096)

/-- The first operand byte of an operation's next step whose place satisfies a test. -/
def findOpnd (s : State) (m : MatOp) (p : Loc → Bool) : Option DWord :=
  if !isGlobal m.ta.base && !isGlobal m.tb.base then none
  else
    let k := unitRange m
    m.signers.findSome? fun sg => (partAddrs m sg k.1 k.2).find? fun a =>
      match (bytePlace s sg.gkey ((lanesOf sg.lanes).headD 0) .read none a).2 with | .ok l => p l | _ => false

/-- The first operand byte of an operation's next step that the host has to answer. -/
def opHost (s : State) (m : MatOp) : Option DWord := findOpnd s m (hostNow s .read)

/-- Every host access of an operation's next step has its port up (R300). -/
def opReach (s : State) (m : MatOp) : Bool :=
  (findOpnd s m fun l => match l with
    | .glob pa mt => hostNow s .read l && !hostUp s (getLaunch s (getTeam s m.team).launch).func mt pa
    | _ => false).isNone

/-- An operation may step: nothing earlier owns its accumulators, none of its elements waits or the step comes before those that do, a job's
team is resident, and the host can be reached where it reads there (R300, R321, R326, R333). -/
def mayStep (s : State) (m : MatOp) : Bool :=
  opReach s m &&
  (m.waits == 0 || leadingStep s m) && !behind s m && (m.job.isNone || (m.started && (getTeam s m.team).place == .resident))

/-- The elements of an operation whose pages wait. -/
def matWait (s : State) (m : MatOp) (sg : Signer) (pages : List (Bool × Nat × DWord × Bool)) : State :=
  pages.foldl (fun s p => addElem s (opElem s m sg p)) (putMat s { m with waits := pages.length })

/-- An operation stops on a cause. A forbidden access that a job's fetch meets freezes the engine context instead (R354, R274); an offset
beyond its window is one of the causes of R318. -/
def opFails (s : State) (m : MatOp) (cause : Nat) (fadr : DWord) (info : Nat) : State :=
  if m.job.isSome && cause == cACV && isGlobal fadr then engineFreeze s m.team m.pc 0xFF m.id else matStop s m cause fadr info false

/-- The results of one unit for every signer: the operation with what it has read, the new tiles, and the stops. -/
abbrev UnitRes := MatOp × List (Signer × List DWord) × List (Signer × Stop)

def unitAll (s : State) (m : MatOp) (k0 k1 : Nat) : State × UnitRes :=
  m.signers.foldl (fun (r : State × UnitRes) sg =>
    match unitResult r.1 r.2.1 { sg with acc := curAcc m sg } k0 k1 with
    | (s, m, .ok xs) => (s, m, r.2.2.1 ++ [(sg, xs)], r.2.2.2)
    | (s, m, .error e) => (s, m, r.2.2.1, r.2.2.2 ++ [(sg, e)])) (s, m, [], [])

/-- The addresses of the chunks that a unit reads for the first time. -/
def newChunks (m : MatOp) (k0 k1 : Nat) : List DWord :=
  ((m.signers.flatMap fun sg => (partAddrs m sg k0 k1).map fun a => a.toNat / chunkSize a * chunkSize a).eraseDups.filter
    fun v => !m.chunks.any fun c => c.va == v).flatMap fun v => rangeAddrs (BitVec.ofNat 64 v) (chunkSize (BitVec.ofNat 64 v))

/-- After a step has been taken (event 0x06 of R417): the tiles, and the operation's next unit, a job's next operation, or its end. -/
def matStepDone (s : State) (m : MatOp) (tiles : List (Signer × List DWord)) (unit k1 : Nat) : State :=
  let s := countEv s m.core 0x06 1
  let s := tiles.foldl (fun s x => updGroup s x.1.gkey fun g => putTile g (curAcc m x.1) x.2) s
  if m.k + unit < m.klen then putMat s (keepNeeded { m with k := m.k + unit } k1 (m.koff.toNat + m.klen))
  else match m.job with
    | some _ => putMat s { m with k := 0, started := false, idx := m.idx + 1, chunks := [], tags := [] }
    | none =>
      m.signers.foldl (fun s sg => updGroup s sg.gkey fun g => retire g sg.seq)
        { s with mats := s.mats.filter fun x => x.id != m.id }

/-- One step of an operation: all accumulators of every slice, or none (R321, R346). It waits while a signer's group has stores that would
leave a granule half applied (R287), and while its lines would not all be pinned (R323). -/
def matStep (s : State) (m : MatOp) : State :=
  let unit := unitOf m.ta m.tb
  let k0 := (unitRange m).1
  let k1 := (unitRange m).2
  let s := m.signers.foldl (fun s sg => flushGroup s sg.gkey) s
  if m.signers.any fun sg => mixed s sg.gkey (newChunks m k0 k1) then s
  else
    let r := unitAll s m k0 k1
    match r.2.2.2 with
    | (sg, e) :: es =>
      let stops := e :: es.map (·.2)
      (match stopCause stops with
      | some (c, f, i) => opFails r.1 r.2.1 c f i
      | none => if m.waits = 0 then matWait r.1 r.2.1 sg (stopPages stops) else s)
    | [] =>
      if 1024 < (pinned (putMat r.1 r.2.1) m.core).length then s else matStepDone r.1 r.2.1 r.2.2.1 unit k1

def execMmaStep (id : Nat) (s : State) : Outcome :=
  .next (match findMat s id with
  | some m => if mayStep s m then matStep s m else s
  | none => s)

/-! ## Job cards -/

/-- The next operation of a walk begins: its checks, and the zeroing of an accumulator not yet written (R353, R354). -/
def jobStart (s : State) (m : MatOp) (card : List Byte) : State :=
  let p := jobAt card m.idx
  let d := p.2.2.2 - (cardBits card 13 8 : Int)
  let inRange := fun (x : Int) => decide (0 ≤ x) && decide (x ≤ 4095)
  let accOk := m.signers.all fun sg => decide (0 ≤ (sg.acc : Int) + d) && decide ((sg.acc : Int) + d < ((launchOf s sg.gkey).accs : Int))
  if !(inRange p.1 && inRange p.2.1 && inRange p.2.2.1 && accOk && mmaValid m.ta m.tb m.flt p.2.2.1 m.klen) then
    matStop s m cBND 0 0 false
  else
    let fresh := cardBits card 96 96 = 1 ∧ !m.zeroed.contains d
    let s := if fresh then m.signers.foldl (fun s sg =>
      updGroup s sg.gkey fun g => putTile g (curAcc m sg) (List.replicate 256 0)) s else s
    putMat s { m with arow := p.1, brow := p.2.1, koff := p.2.2.1, k := 0, started := true,
                      zeroed := if m.zeroed.contains d then m.zeroed else m.zeroed ++ [d] }

def execJobOperation (id : Nat) (s : State) : Outcome :=
  .next (match findMat s id with
  | some m =>
    match m.job with
    | some card =>
      if !m.started && decide (m.idx < jobTotal card) && !behind s m && (getTeam s m.team).place == .resident then jobStart s m card
      else s
    | none => s
  | none => s)

/-- A walk ends: the engine arrives at each signer's barrier object (R355, R377), in a cycle in which no group's operation has changed one of
them yet (R375). -/
def execJobWalkEnd (id : Nat) (s : State) : Outcome :=
  .next (match findMat s id with
  | some m =>
    match m.job with
    | some card =>
      if !m.started && decide (jobTotal card ≤ m.idx) && m.signers.all (fun sg => boTurn s sg.gkey sg.bo) then
        let s := { s with mats := s.mats.filter fun x => x.id != id }
        m.signers.foldl (fun s sg => match objPlace s sg.gkey sg.bo with
          | some p => engineArrive s p
          | none => s) s
      else s
    | none => s
  | none => s)

end Sys2Proof.Machine
end

