-- ==== Sys2Proof/Machine/Engine.lean ====
section
/-! DEFINITION. The copy and transform engines after a command has issued (R274 to R285): acceptance, the copy with its CRC-32C,
the layout transform and the prefix-code decode. -/

namespace Sys2Proof.Machine

def findCmd (s : State) (id : Nat) : Option Cmd := s.cmds.find? fun c => c.id == id
def putCmd (s : State) (c : Cmd) : State := { s with cmds := s.cmds.map fun x => if x.id == c.id then c else x }
def dropCmd (s : State) (id : Nat) : State := { s with cmds := s.cmds.filter fun x => x.id != id }

/-! ## Engine accesses -/

/-- The place of a byte for a command; a lane-private address met here freezes the context (R274). -/
def cmdPlace (s : State) (c : Cmd) (k : AccKind) (a : DWord) : State × Except Stop Loc :=
  if spaceOf a == 0xF0 then (s, .error (.bad cACV a 0))
  else bytePlace s c.gkey ((lanesOf c.lanes).headD 0) k none a

/-- The places of a command's bytes, or every stop. -/
def cmdPlaces (s : State) (c : Cmd) (k : AccKind) (as : List DWord) : State × List Loc × List Stop :=
  as.foldl (fun (r : State × List Loc × List Stop) a =>
    match cmdPlace r.1 c k a with
    | (s, .ok l) => (s, r.2.1 ++ [l], r.2.2)
    | (s, .error e) => (s, r.2.1, r.2.2 ++ [e])) (s, [], [])

/-- The tag that a freeze record gives for a command (kind 0x04). -/
def cmdTag (c : Cmd) : Nat := match c.kind with | .xform _ _ _ | .job _ _ _ => 0xFF | _ => c.tag

/-- A command that cannot go on: its context freezes on a cause, and its pages are asked for otherwise (R274). -/
def cmdStops (s : State) (c : Cmd) (k : AccKind) (stops : List Stop) : State :=
  match stopCause stops with
  | some _ => engineFreeze s c.team c.pc (cmdTag c) c.id
  | none =>
    let pages := stopPages stops
    let l := getLaunch s (getTeam s c.team).launch
    let s := putCmd s { c with waits := pages.length }
    pages.foldl (fun s p => addElem s
      ⟨c.gkey, c.lanes, k, p.2.2.1, l.func, l.pasid, l.label, p.1, p.2.1, none, p.2.2.2, false, 1, [], .engine c.id⟩) s

/-- The 64-byte record that a command names. -/
def recAddrOf (c : Cmd) : Option DWord :=
  match c.kind with
  | .xform _ r _ => some r
  | .job r _ _ => some r
  | _ => none

def recBits (c : Cmd) (hi lo : Nat) : Nat := bitsOf (leNat c.recd) hi lo

def rndOf (n : Nat) : Option Rnd :=
  match n with
  | 0 => some .rn | 1 => some .rz | 2 => some .rd | 3 => some .ru | 4 => some .rm | 5 => some .sr | _ => none

/-- The types and rounding of a layout record, when it is valid (R282, R201). -/
def layoutRec (c : Cmd) : Option (Ty × Ty × Rnd) :=
  let rows := recBits c 76 64
  let cols := recBits c 92 80
  match tyOf (BitVec.ofNat 5 (recBits c 100 96)), tyOf (BitVec.ofNat 5 (recBits c 108 104)), rndOf (recBits c 111 109) with
  | .ok sty, .ok dty, some r =>
    if 1 ≤ rows ∧ rows ≤ 4096 ∧ 1 ≤ cols ∧ cols ≤ 4096 ∧ (r = .rm → dty = .q32) ∧ (r = .sr → dty ≠ .q32) ∧
        ((sty = .t6 ∨ dty = .t6) → cols * 6 % 8 = 0) then some (sty, dty, r) else none
  | _, _, _ => none

/-- The elements of a layout transform: source position and destination position. -/
def xformElems (c : Cmd) : List ((Nat × Nat) × (Nat × Nat)) :=
  (List.range (recBits c 76 64)).flatMap fun i => (List.range (recBits c 92 80)).map fun j =>
    ((i, j), if recBits c 113 113 = 1 then (j, i) else (i, j))

/-- The source and destination addresses of an element of a layout transform. -/
def xformSrc (c : Cmd) (ty : Ty) (e : (Nat × Nat) × (Nat × Nat)) : List DWord :=
  elemAddrs (BitVec.ofNat 3 (recBits c 118 116)) ty c.src (recBits c 31 0) e.1.1 e.1.2
def xformDst (c : Cmd) (ty : Ty) (e : (Nat × Nat) × (Nat × Nat)) : List DWord :=
  elemAddrs (BitVec.ofNat 3 (recBits c 122 120)) ty c.dst (recBits c 63 32) e.2.1 e.2.2

/-- Bytes of one symbol of a decode record. -/
def symBytes (c : Cmd) : Nat := if recBits c 164 164 == 1 then 2 else 1

/-- What a decode reads: its source, then its table. -/
def decodeAddrs (c : Cmd) : List DWord :=
  rangeAddrs c.src (recBits c 95 64) ++ rangeAddrs (BitVec.ofNat 64 (recBits c 63 0)) (2 * 2 ^ recBits c 163 160)

/-- What a command accesses next: the record it names, before its acceptance; then what it reads and what it may write. -/
def cmdNext (c : Cmd) : List (AccKind × DWord) :=
  let rd := fun (as : List DWord) => as.map fun a => (AccKind.read, a)
  let wr := fun (as : List DWord) => as.map fun a => (AccKind.write, a)
  if !c.accepted then match recAddrOf c with | some a => rd (rangeAddrs a 64) | none => []
  else match c.kind with
    | .copy _ | .copyChk _ _ _ _ => rd (rangeAddrs c.src c.len) ++ wr (rangeAddrs c.dst c.len)
    | .copyCrc _ o _ _ => rd (rangeAddrs c.src c.len) ++ wr (rangeAddrs c.dst c.len ++ if o = 0 then [] else rangeAddrs o 4)
    | .xform true r _ =>
      rd (decodeAddrs c) ++ wr (rangeAddrs c.dst (symBytes c * recBits c 159 128) ++ rangeAddrs (r + 60) 4)
    | .xform false _ _ => (match layoutRec c with
      | some (sty, dty, _) => rd ((xformElems c).flatMap (xformSrc c sty)) ++ wr ((xformElems c).flatMap (xformDst c dty))
      | none => [])
    | .job _ _ _ => []

/-- The first access of a command that is the host's to answer. -/
def cmdHost (s : State) (c : Cmd) : Option DWord :=
  ((cmdNext c).find? fun x => match (cmdPlace s c x.1 x.2).2 with | .ok l => hostNow s x.1 l | _ => false).map (·.2)

/-- No request to a line of a peer window that a command accesses is outstanding from before a change of ports (R304), and none waits for
room in a replay buffer. -/
def engineLines (s : State) (c : Cmd) : Bool :=
  s.peers.unsent.isEmpty && (s.peers.early.isEmpty || (cmdNext c).all fun x => match (cmdPlace s c x.1 x.2).2 with
    | .ok l => (match peerLine l with | some n => lineFree s (fun _ => false) n | none => true)
    | _ => true)

/-- Every host access of a command has its port up (R300); until then the command waits, for the link or for a failed completion. -/
def engineReach (s : State) (c : Cmd) : Bool :=
  engineLines s c && ((portUp s 0 && portUp s 1) || (cmdNext c).all fun x => match (cmdPlace s c x.1 x.2).2 with
    | .ok (.glob pa mt) => !hostNow s x.1 (.glob pa mt) || hostUp s (launchOf s c.gkey).func mt pa
    | _ => true)

/-! ## Acceptance, R274 -/

/-- The item of a command leaves its group's count. -/
def cmdItemDone (s : State) (c : Cmd) : State := updGroup s c.gkey fun g => retire g c.seq

/-- The chain that a command continues has completed (R278). -/
def predDone (s : State) (c : Cmd) : Bool :=
  let free := fun (p : Nat) => !(s.cmds.any fun x => x.team == c.team && x.id < c.id && x.tag == p &&
    (match x.kind with | .xform _ _ _ | .job _ _ _ => false | _ => true))
  match c.kind with
  | .copyCrc _ _ true p => free p
  | .copyChk _ _ true p => free p
  | _ => true

/-- A decode record whose fields lie in their ranges (R284; log entry 43). -/
def decodeRecOk (c : Cmd) : Bool :=
  decide (1 ≤ recBits c 163 160) && decide (recBits c 163 160 ≤ 12) && decide (1 ≤ recBits c 159 128) &&
    decide (recBits c 159 128 ≤ 2 ^ 24)

/-- Lanes of the set that a JOB's held item issued for and that still stand at the word. -/
def cardLanes (s : State) (c : Cmd) : Lanes :=
  match findOut s c.gkey c.seq with
  | some o => lanesMask ((lanesOf o.lanes).filter fun l => pcOf (getGroup s c.gkey) l == o.pc)
  | none => 0

/-- The item of a JOB leaves the count at acceptance; lanes that were held at the word pass it. -/
def passCard (s : State) (c : Cmd) : State :=
  match findOut s c.gkey c.seq with
  | some o =>
    match o.work with
    | .card _ => dueCauses (updGroup s c.gkey fun g => retire (setPcs g (cardLanes s c) o.next) c.seq) c.gkey o.lanes
    | _ => cmdItemDone s c
  | none => s

/-- A fused JOB whose card has now been read signs, with its active lanes that still stand at it and the maps as they now stand (R350).
Off its core it was not signed, and issues again when it resumes (R332). A cause that waited for its lanes cancels it (R190, R332). -/
def signCard (s : State) (c : Cmd) (card : List Byte) (bo : DWord) : State :=
  let g := getGroup s c.gkey
  let m := cardLanes s c
  if g.slot.isNone || m &&& c.lanes = 0 then cmdItemDone s c
  else
    let id := s.uid
    let x : Sign := ⟨id, c.gkey, c.core, cardBits card 18 16, m &&& c.lanes, sliceOf g, cardBits card 13 8, cardBits card 15 14,
      cardBits card 24 20 == 9, tGet g (cardBits card 3 0), tGet g (cardBits card 7 4), 0, cardBits card 44 32,
      ((findOut s c.gkey c.seq).map (·.next)).getD (c.pc + 8), c.pc, some (card, bo), c.seq, false⟩
    let s := updGroup { s with uid := id + 1, signs := s.signs ++ [x] } c.gkey fun g =>
      { g with outs := g.outs.map fun o => if o.seq = c.seq then { o with work := .fuse id, lanes := m } else o }
    dueCauses s c.gkey m

/-- A card has been read: a quad one is walked from now on, a fused one signs. -/
def acceptCard (s : State) (c : Cmd) (card : List Byte) (bo : DWord) : State :=
  let s := dropCmd s c.id
  let t := fun (n : Nat) => c.tiles.getD n ⟨0, 0, 0, 0, 0, 0, 0, 0, 0⟩
  if cardBits card 15 14 = 0 then
    acceptJob (passCard s c) (jobOp c.id c.team c.core c.pc card (t (cardBits card 3 0)) (t (cardBits card 7 4))
      [⟨c.gkey, c.lanes, 0, cardBits card 13 8, c.seq, bo, c.pc⟩]) card
  else signCard s c card bo

/-- The starting CRC state of a copy with an inline check, or nothing where its chain is broken (R278). -/
def crcStart (t : Team) (kind : CmdKind) : Option Word :=
  let from' := fun (cont : Bool) (p : Nat) =>
    if !cont then some crcInit else if t.noChain.getLsbD p then none else some (tabGet crcInit t.crc p)
  match kind with
  | .copyCrc _ _ cont p => from' cont p
  | .copyChk _ _ cont p => from' cont p
  | _ => none

/-- A command is accepted. One with a record is accepted when the engine has read it, and waits while unfenced stores of the group would
leave a granule of it half applied (R287). -/
def acceptCmd (s : State) (c : Cmd) : State :=
  match recAddrOf c with
  | none => putCmd (cmdItemDone s c) { c with accepted := true, start := crcStart (getTeam s c.team) c.kind }
  | some a =>
    let s := flushGroup s c.gkey
    if mixed s c.gkey (rangeAddrs a 64) then s
    else match cmdPlaces s c .read (rangeAddrs a 64) with
    | (s, ls, []) =>
      let r := engBytes s c.core ls
      let c := { c with recd := r.2 }
      (match c.kind with
      | .job _ bo _ => acceptCard r.1 c r.2 bo
      | .xform dec _ _ =>
        let s := putCmd (cmdItemDone r.1 c) { c with accepted := true }
        if (if dec then decodeRecOk c else (layoutRec c).isSome) then s else engineFreeze s c.team c.pc 0xFF c.id
      | _ => r.1)
    | (s, _, stops) => cmdStops s c .read stops

def execEngineAccept (id : Nat) (s : State) : Outcome :=
  .next (match findCmd s id with
  | some c => if !c.accepted && c.waits == 0 && predDone s c && engineReach s c then acceptCmd s c else s
  | none => s)

/-! ## Copies, R277, R278 -/

/-- A copy completes: its tag's CRC state, whether a chain can continue it, ERR, then DONE (R278). -/
def copyDone (s : State) (c : Cmd) (crc : Option Word) (err : Bool) : State :=
  let bit : DWord := BitVec.ofNat 64 (2 ^ c.tag)
  dropCmd (updTeam s c.team fun t =>
    { t with done := t.done ||| bit, err := if err then t.err ||| bit else t.err &&& ~~~bit,
             crc := (match crc with | some x => tabPut t.crc c.tag x | none => t.crc),
             noChain := if crc.isSome && !err then t.noChain &&& ~~~bit else t.noChain ||| bit }) c.id

def copyLay (c : Cmd) : BitVec 3 :=
  match c.kind with
  | .copy l => BitVec.ofNat 3 l
  | .copyCrc l _ _ _ => BitVec.ofNat 3 l
  | .copyChk l _ _ _ => BitVec.ofNat 3 l
  | _ => 0

/-- A command whose chain is broken copies nothing and completes with ERR; its tag keeps its CRC state. -/
def copyBroken (s : State) (c : Cmd) : State :=
  let bit : DWord := BitVec.ofNat 64 (2 ^ c.tag)
  dropCmd (updTeam s c.team fun t => { t with done := t.done ||| bit, err := t.err ||| bit, noChain := t.noChain ||| bit }) c.id

/-- What a copy writes, from its source and destination places: its bytes, after a peer's injection (R308), and at the out word the value
of the CRC over them (R278), which counts among the bytes written (R309). With it the CRC state. -/
def copyBytes (s : State) (c : Cmd) (start : Option Word) (src dst : List Loc) : State × Option Word × List (Loc × Byte) :=
  let r := engBytes s c.core src
  let q := farBytes r.1 ((dst.take c.len).zip r.2)
  let crc := start.map fun x => crcBytes x (q.2.map (·.2))
  (q.1, crc, q.2 ++ (match crc with | some x => (dst.drop c.len).zip (leBytes 4 (crcValue x).toNat) | none => []))

/-- The copy itself: every byte read, written at its point, and the clean copies dropped. It waits while unfenced stores of the group
would leave a source granule half applied (R287). -/
def copyRun (s : State) (c : Cmd) (start : Option Word) : State :=
  let s := flushGroup s c.gkey
  let out := match c.kind with | .copyCrc _ o _ _ => o | _ => 0
  if mixed s c.gkey (rangeAddrs c.src c.len) then s
  else match cmdPlaces s c .read (rangeAddrs c.src c.len) with
  | (s, src, []) =>
    (match cmdPlaces s c .write (rangeAddrs c.dst c.len ++ (if out = 0 then [] else rangeAddrs out 4)) with
    | (s, dst, []) =>
      let w := copyBytes s c start src dst
      copyDone (dropCopies (engWrite w.1 c.core (copyLay c) w.2.2) c.team w.2.2) c w.2.1
        (match w.2.1, c.kind with | some x, .copyChk _ e _ _ => decide (crcValue x ≠ e) | _, _ => false)
    | (s, _, stops) => cmdStops s c .write stops)
  | (s, _, stops) => cmdStops s c .read stops

def execEngineComplete (id : Nat) (s : State) : Outcome :=
  .next (match findCmd s id with
  | some c =>
    if !c.accepted || c.waits != 0 || !engineReach s c then s
    else actsFor s (getTeam s c.team).launch fun s => match c.kind, c.start with
      | .copy _, _ => copyRun s c none
      | .copyCrc _ _ _ _, some x => copyRun s c (some x)
      | .copyCrc _ _ _ _, none => copyBroken s c
      | .copyChk _ _ _ _, some x => copyRun s c (some x)
      | .copyChk _ _ _ _, none => copyBroken s c
      | _, _ => s
  | none => s)

/-! ## XFORM, R281 to R285 -/

/-- Every write of an XFORM is performed: one arrival at its barrier object. -/
def xformDone (s : State) (c : Cmd) (bo : DWord) : State :=
  let s := dropCmd s c.id
  match objPlace s c.gkey bo with
  | some p => engineArrive s p
  | none => s

/-- An XFORM goes on: no granule of its source would be read half applied (R287), and its arrival would come before the operations of
groups on its object (R375). -/
def xformReady (s : State) (c : Cmd) (bo : DWord) (as : List DWord) : Bool := !mixed s c.gkey as && boTurn s c.gkey bo

/-- An element through the conversion; an identity keeps every code but a NaN (R283). -/
def xformCode (sty dty : Ty) (rnd : Rnd) (sat : Bool) (rand code : Nat) : Nat :=
  if sty = dty then (if valNan (tyVal sty code) then tyNaN dty else code) else (cvtElem dty sty rnd sat rand code).1

/-- What a layout transform writes: each element of the source through the conversion, at its place in the destination, with the bits of
a shared byte that belong to no element as they are (R281 to R283). -/
def layoutBytes (s : State) (c : Cmd) (sty dty : Ty) (rnd : Rnd) : State × List (Loc × Byte) :=
  let seed := (getLaunch s (getTeam s c.team).launch).seed
  let r := (xformElems c).foldl (fun (r : State × List (DWord × Nat × Nat)) e =>
    let q := cmdPlaces r.1 c .read (xformSrc c sty e)
    let b := engBytes q.1 c.core q.2.1
    let p := e.2.1
    let k := e.2.2
    let rand := srRand seed (recBits c 159 128 + p) (recBits c 191 160 + 16 * (k / 16)) (k % 16)
    let code := xformCode sty dty rnd (recBits c 112 112 == 1) rand (elemCode sty e.1.2 b.2)
    (b.1, r.2 ++ codeBytes dty k code (xformDst c dty e))) (s, [])
  let xs := joinBytes r.2
  let q := cmdPlaces r.1 c .write (xs.map (·.1))
  mergeBytes q.1 c.core (q.2.1.zip (xs.map (·.2)))

def layoutRun (s : State) (c : Cmd) (bo : DWord) (sty dty : Ty) (rnd : Rnd) : State :=
  let s := flushGroup s c.gkey
  let from' := (xformElems c).flatMap (xformSrc c sty)
  if !xformReady s c bo from' then s
  else match cmdPlaces s c .read from' with
  | (s, _, x :: xs) => cmdStops s c .read (x :: xs)
  | (s, _, []) =>
    match cmdPlaces s c .write ((xformElems c).flatMap (xformDst c dty)) with
    | (s, _, x :: xs) => cmdStops s c .write (x :: xs)
    | (s, _, []) =>
      let w := layoutBytes s c sty dty rnd
      xformDone (dropCopies (engWrite w.1 c.core (BitVec.ofNat 3 (recBits c 122 120)) w.2) c.team w.2) c bo

/-- The sequential loop of R285 over a source and a table: symbols, end offset, error. `put` says what the bytes are after symbol number k
has been written, which may change them where the destination overlaps them. -/
def decodeLoop (put : Nat → Nat → List Byte → List Byte → List Byte × List Byte) (maxLen : Nat) (wide : Bool) :
    Nat → List Byte → List Byte → Nat → List Nat → List Nat × Nat × Bool
  | 0, _, _, p, out => (out, p, false)
  | n + 1, src, table, p, out =>
    let bit := fun (q : Nat) => (src.getD (q / 8) 0).getLsbD (q % 8)
    let idx := (List.range maxLen).foldl (fun a m => a + (if bit (p + m) then 2 ^ m else 0)) 0
    let e := leNat ((table.drop (2 * idx)).take 2)
    let len := e / 2 ^ 12
    let sym := e % 2 ^ 12
    if len = 0 || maxLen < len || 8 * src.length < p + len || (!wide && 255 < sym) then (out, p, true)
    else
      let x := put out.length sym src table
      decodeLoop put maxLen wide n x.1 x.2 (p + len) (out ++ [sym])

/-- Bytes at their places after others have been written. -/
def overlay (ls : List Loc) (bs : List Byte) (ws : List (Loc × Byte)) : List Byte :=
  (ls.zip bs).map fun x => ((ws.find? fun w => sameLoc w.1 x.1).map (·.2)).getD x.2

/-- What a decode makes of its source and table, at places `ls` with bytes `bs`: symbols, end offset, error. -/
def decodeSyms (s : State) (c : Cmd) (ls : List Loc) (bs : List Byte) : List Nat × Nat × Bool :=
  let n := recBits c 95 64
  let put := fun (k sym : Nat) (src table : List Byte) =>
    let ws := ((cmdPlaces s c .write (rangeAddrs (c.dst + BitVec.ofNat 64 (symBytes c * k)) (symBytes c))).2.1).zip (leBytes (symBytes c) sym)
    if ls.any fun l => ws.any fun w => sameLoc w.1 l then (overlay (ls.take n) src ws, overlay (ls.drop n) table ws) else (src, table)
  decodeLoop put (recBits c 163 160) (symBytes c == 2) (recBits c 159 128) (bs.take n) (bs.drop n) (recBits c 127 96) []

def decodeRun (s : State) (c : Cmd) (rec' bo : DWord) : State :=
  let s := flushGroup s c.gkey
  let n := symBytes c
  let as := decodeAddrs c
  if !xformReady s c bo as then s
  else match cmdPlaces s c .read as with
  | (s, _, x :: xs) => cmdStops s c .read (x :: xs)
  | (s, ls, []) =>
    let b := engBytes s c.core ls
    let r := decodeSyms b.1 c ls b.2
    let bytes := r.1.flatMap fun x => leBytes n x
    let tail := leBytes 4 (r.2.1 % 2 ^ 31 + (if r.2.2 then 2 ^ 31 else 0))
    match cmdPlaces b.1 c .write (rangeAddrs c.dst bytes.length ++ rangeAddrs (rec' + 60) 4) with
    | (s, _, x :: xs) => cmdStops s c .write (x :: xs)
    | (s, ds, []) =>
      let ws := ds.zip (bytes ++ tail)
      xformDone (dropCopies (engWrite s c.core 0 ws) c.team ws) c bo

def execXformComplete (id : Nat) (s : State) : Outcome :=
  .next (match findCmd s id with
  | some c =>
    if !c.accepted || c.waits != 0 || !engineReach s c then s
    else actsFor s (getTeam s c.team).launch fun s => match c.kind with
      | .xform true r bo => decodeRun s c r bo
      | .xform false _ bo => (match layoutRec c with
        | some (sty, dty, rnd) => layoutRun s c bo sty dty rnd
        | none => s)
      | _ => s
  | none => s)

end Sys2Proof.Machine
end

