-- ==== Sys2Proof/Machine/Spill.lean ====
section
/-! DEFINITION. A group's context in a spill image: the header (R153), the save area (R152), row records under an effort (R150,
R151) and the handler block (R395), written and read back. -/

namespace Sys2Proof.Machine

/-! ## Rows, R150, R151 -/

/-- Delta width of modes 0 to 3. -/
def rowWidth (mode : Nat) : Nat :=
  match mode with
  | 0 => 0 | 1 => 4 | 2 => 8 | _ => 16

/-- Modes that an effort writes. -/
def effortModes (effort : Nat) : List Nat :=
  match effort with
  | 0 => [0, 4] | 1 => [0, 2, 4] | _ => [0, 1, 2, 3, 4]

/-- Every lane's value is the base plus a sign-extended delta of the mode's width. -/
def rowFits (vs : List Word) (mode : Nat) : Bool :=
  let w := rowWidth mode
  4 ≤ mode || vs.all fun v => (v - vs.headD 0) == BitVec.ofInt 32 (toSigned w ((v - vs.headD 0).toNat % 2 ^ w))

/-- The record of a row: header, base and packed deltas, or header and values. -/
def rowRecord (effort : Nat) (vs : List Word) : List Byte :=
  match (effortModes effort).find? fun m => rowFits vs m with
  | some m =>
    if m = 4 then leBytes 4 4 ++ vs.flatMap fun v => leBytes 4 v.toNat
    else
      let w := rowWidth m
      let packed := (vs.foldr (fun v n => (v - vs.headD 0).toNat % 2 ^ w + 2 ^ w * n) 0)
      leBytes 4 m ++ leBytes 4 (vs.headD 0).toNat ++ leBytes (Config.W * w / 8) packed
  | none => []

/-- Read a row back: its values and the length of its record; nothing for MODE 5 to 7. -/
def rowRead (bs : List Byte) : Option (List Word × Nat) :=
  let m := leNat (bs.take 4) % 8
  if m = 4 then some ((List.range Config.W).map fun l => BitVec.ofNat 32 (leNat ((bs.drop (4 + 4 * l)).take 4)), 4 + 4 * Config.W)
  else if m < 4 then
    let w := rowWidth m
    let base : Word := BitVec.ofNat 32 (leNat ((bs.drop 4).take 4))
    let packed := leNat ((bs.drop 8).take (Config.W * w / 8))
    some ((List.range Config.W).map fun l => base + BitVec.ofInt 32 (toSigned w (packed / 2 ^ (w * l) % 2 ^ w)), 8 + Config.W * w / 8)
  else none

/-! ## The save area, R152, R153, R395 -/

/-- The value TOLLRD.L returns for a setting (R82). -/
def tollField (g : Group) : Nat := (if g.tabs then 2 ^ 31 else 0) + ofInt 16 g.tval

/-- The group header. -/
def groupHeader (task : Nat) (g : Group) : List Byte :=
  leBytes 4 g.cause.toNat ++ leBytes 4 0 ++ leBytes 4 (modeWord g) ++ leBytes 4 (tollField g) ++
  leBytes 4 ((g.last.getD 255) * 2 ^ 8 + g.run % 256 * 2 ^ 16 + g.rot % 256 * 2 ^ 24) ++
  leBytes 4 g.parked.toNat ++ leBytes 4 g.exited.toNat ++ leBytes 4 g.live.toNat ++ leBytes 4 g.gidx ++ leBytes 4 task ++
  List.replicate 24 0

def perLane (f : Nat → List Byte) : List Byte := (List.range Config.W).flatMap f

/-- A tile register as a 256-bit number (R317). -/
def tileNum (t : TileReg) : Nat :=
  t.base.toNat + t.src.toNat * 2 ^ 64 + t.fmt.toNat * 2 ^ 96 + t.swz.toNat * 2 ^ 104 + t.rows.toNat * 2 ^ 112 +
  t.cols.toNat * 2 ^ 128 + t.smode.toNat * 2 ^ 144 + t.stride.toNat * 2 ^ 160 + t.sptr.toNat * 2 ^ 192

def tileOf (n : Nat) : TileReg :=
  ⟨BitVec.ofNat 64 (n / 2 ^ 192), BitVec.ofNat 32 (n / 2 ^ 160), BitVec.ofNat 2 (n / 2 ^ 144), BitVec.ofNat 13 (n / 2 ^ 128),
    BitVec.ofNat 13 (n / 2 ^ 112), BitVec.ofNat 3 (n / 2 ^ 104), BitVec.ofNat 5 (n / 2 ^ 96), BitVec.ofNat 2 (n / 2 ^ 64),
    BitVec.ofNat 64 n⟩

/-- Predicates of a lane as a 16-bit word. -/
def predWord (g : Group) (l : Nat) : Nat := (List.range 16).foldl (fun n k => n + (if pGet g l k then 2 ^ k else 0)) 0

/-- A group's area: header, program counters, predicates, index, rejoin and tile registers, uniform registers, vector rows,
accumulators and the handler block. -/
def groupArea (task effort sregs vregs accs : Nat) (g : Group) : List Byte :=
  groupHeader task g ++
  perLane (fun l => leBytes 8 (pcOf g l).toNat) ++
  perLane (fun l => leBytes 2 (predWord g l)) ++
  ((List.range 8).flatMap fun i => perLane fun l => leBytes 4 (xGet g l i).toNat) ++
  ((List.range 8).flatMap fun j => leBytes 8 (jGet g j).jpc.toNat ++ leBytes 4 (jGet g j).enr.toNat ++ leBytes 4 (jGet g j).arr.toNat) ++
  ((List.range 16).flatMap fun t => leBytes 32 (tileNum (tGet g t))) ++
  ((List.range sregs).flatMap fun n => leBytes 4 (sGet sregs g n).toNat) ++
  ((List.range vregs).flatMap fun n => rowRecord effort ((List.range Config.W).map fun l => vGet g l n)) ++
  ((List.range (256 * accs)).flatMap fun e => leBytes 8 (aGet g 0 e).toNat) ++
  perLane (fun l => leBytes 8 (tabGet 0 g.epc l).toNat) ++
  perLane (fun l => leBytes 8 (tabGet 0 g.fadr l).toNat) ++
  perLane (fun l => leBytes 4 (tabGet 0 g.fcode l).toNat) ++
  leBytes 4 g.hmask.toNat

/-- A table read from consecutive entries of `n` bytes. -/
def tabOf {α : Type} (bs : List Byte) (n count : Nat) (f : Nat → α) : List (Nat × α) :=
  (List.range count).map fun i => (i, f (leNat ((bs.drop (n * i)).take n)))

/-- Rows read one after another, and what follows them. -/
def rowsRead : Nat → List Byte → List (List Word) → Option (List (List Word) × List Byte)
  | 0, bs, acc => some (acc, bs)
  | n + 1, bs, acc =>
    match rowRead bs with
    | some (vs, len) => rowsRead n (bs.drop len) (acc ++ [vs])
    | none => none

/-- A group as its area gives it back, and the area's length; nothing when a row's MODE is 5 to 7. Reserved bits of %cause and of the
index registers stay zero (R3). The group's identity, and what the area does not hold, stay. -/
def groupBack (sregs vregs accs : Nat) (g : Group) (bs : List Byte) : Option (Group × Nat) :=
  let num := fun (o n : Nat) => leNat ((bs.drop o).take n)
  let o := 64 + 42 * Config.W
  match rowsRead vregs (bs.drop (o + 640 + 4 * sregs)) [] with
  | none => none
  | some (rows, rest) =>
    let lanes := List.range Config.W
    let toll := num 12 4
    let h := rest.drop (2048 * accs)
    let g := { putMode g (BitVec.ofNat 32 (num 8 4)) with
      cause := BitVec.ofNat 32 (num 0 4 % 2 ^ 14), tabs := toll.testBit 31, tval := toSigned 16 (toll % 2 ^ 16),
      last := if num 17 1 = 255 then none else some (num 17 1), run := num 18 1, rot := num 19 1,
      parked := BitVec.ofNat 32 (num 20 4), exited := BitVec.ofNat 32 (num 24 4), live := BitVec.ofNat 32 (num 28 4) }
    some ({ g with
      pc := tabOf (bs.drop 64) 8 Config.W (BitVec.ofNat 64)
      pred := lanes.flatMap fun l => (List.range 16).map fun k => (16 * l + k, (num (64 + 8 * Config.W + 2 * l) 2).testBit k)
      xreg := lanes.flatMap fun l => (List.range 8).map fun i =>
        (8 * l + i, BitVec.ofNat 32 (num (64 + 10 * Config.W + 4 * (Config.W * i + l)) 4 % 2 ^ 30))
      rejoin := (List.range 8).map fun j =>
        (j, ⟨BitVec.ofNat 32 (num (o + 16 * j + 12) 4), BitVec.ofNat 32 (num (o + 16 * j + 8) 4), BitVec.ofNat 64 (num (o + 16 * j) 8)⟩)
      tile := (List.range 16).map fun t => (t, tileOf (num (o + 128 + 32 * t) 32))
      sreg := tabOf (bs.drop (o + 640)) 4 sregs (BitVec.ofNat 32)
      vreg := lanes.flatMap fun l => (List.range vregs).map fun n => (256 * l + n, (rows.getD n []).getD l 0)
      acc := tabOf rest 8 (256 * accs) (BitVec.ofNat 64)
      epc := tabOf h 8 Config.W (BitVec.ofNat 64)
      fadr := tabOf (h.drop (8 * Config.W)) 8 Config.W (BitVec.ofNat 64)
      fcode := tabOf (h.drop (16 * Config.W)) 4 Config.W (BitVec.ofNat 32)
      hmask := BitVec.ofNat 32 (leNat ((h.drop (20 * Config.W)).take 4)) }, bs.length - h.length + 20 * Config.W + 4)

/-- Groups read back one after another, and what follows their areas. -/
def areasBack (l : Launch) : List (Nat × Group) → List Byte → Option (List (Nat × Group) × List Byte)
  | [], bs => some ([], bs)
  | (k, g) :: t, bs =>
    match groupBack l.sregs l.vregs l.accs g bs with
    | none => none
    | some (g', n) => (areasBack l t (bs.drop n)).map fun r => ((k, g') :: r.1, r.2)

/-- A team's scratchpad and layout tags from their bytes in an image. -/
def scrBack (scr : Nat) (bs : List Byte) (t : Team) : Team :=
  let tags := (bs.drop (1024 * scr)).take scr
  { t with
    scr := memWriteList t.scr 0 (bs.take (1024 * scr)),
    tags := (List.range tags.length).foldl (fun m k =>
      let z : BitVec 3 := BitVec.ofNat 3 (tags.getD k 0).toNat
      if z = 0 then tabErase m k else tabPut m k z) t.tags }

end Sys2Proof.Machine
end

