-- ==== Sys2Proof/Machine/Image.lean ====
section
/-! DEFINITION. The internal sections of an image of a function (R412): every piece of state as a list of numbers, the numbers as bytes,
and both read back. Team contexts carry the bytes of their spill images, each group by R152 and R395; the order of the numbers is the
model's (log entry 8). -/

namespace Sys2Proof.Machine

/-! ## Numbers -/

/-- A reader takes what it reads from the front of a list of numbers, or fails. -/
abbrev Rd (α : Type) := StateT (List Nat) Option α

def rFail {α : Type} : Rd α := fun _ => none
def wNat (n : Nat) : List Nat := [n]
def rNat : Rd Nat := fun xs => match xs with | [] => none | x :: t => some (x, t)
def wBool (b : Bool) : List Nat := [if b then 1 else 0]
def rBool : Rd Bool := do return (← rNat) != 0
def wBv {w : Nat} (v : BitVec w) : List Nat := [v.toNat]
def rBv (w : Nat) : Rd (BitVec w) := do return BitVec.ofNat w (← rNat)
def wInt (i : Int) : List Nat := match i with | .ofNat n => [2 * n] | .negSucc n => [2 * n + 1]
def rInt : Rd Int := do
  let n ← rNat
  return if n % 2 = 0 then .ofNat (n / 2) else .negSucc (n / 2)
def wEnum {α : Type} [BEq α] (all : List α) (x : α) : List Nat := [all.idxOf x]
def rEnum {α : Type} (all : List α) : Rd α := do
  match all[← rNat]? with
  | some x => return x
  | none => rFail
def wPair {α β : Type} (f : α → List Nat) (g : β → List Nat) (x : α × β) : List Nat := f x.1 ++ g x.2
def rPair {α β : Type} (f : Rd α) (g : Rd β) : Rd (α × β) := do return (← f, ← g)
def wOpt {α : Type} (f : α → List Nat) (x : Option α) : List Nat := match x with | some a => 1 :: f a | none => [0]
def rOpt {α : Type} (f : Rd α) : Rd (Option α) := do
  if (← rNat) = 0 then return none else return some (← f)
def wList {α : Type} (f : α → List Nat) (xs : List α) : List Nat := xs.length :: xs.flatMap f
def rMany {α : Type} (f : Rd α) : Nat → Rd (List α)
  | 0 => return []
  | n + 1 => do
    let x ← f
    return x :: (← rMany f n)
def rList {α : Type} (f : Rd α) : Rd (List α) := do rMany f (← rNat)

/-! ## The pieces of state, in the order of their fields -/

def accKinds : List AccKind := [.read, .write, .fetch, .atomic]

def scopes : List Scope := [.core, .nbhd, .dev, .sys]

def tys : List Ty := [.i32, .n32, .i64, .n64, .i16, .n16, .i8, .n8, .f32, .f64, .f16, .bf16, .e4m3, .e5m2, .t8, .t6, .q32]

def atomOps : List AtomOp := [.add, .min, .max, .and, .or, .xor, .xch]

def sfqFns : List SfqFn := [.rcp, .rsq, .ex2, .lg2, .sin, .cos, .tanh]

def fTys : List FTy := [.f32, .f64, .f16, .bf16, .q32]

def slotStates : List SlotState := [.active, .pending, .spent]

def wheres : List Where := [.reserved, .resident, .shadow, .spilled]

def stages : List Stage := [.handed, .accepted, .retired]

def wTgt (x : Tgt) : List Nat :=
  match x with
  | .v a b => [0] ++ wNat a ++ wNat b
  | .s a => [1] ++ wNat a
  | .p a b => [2] ++ wNat a ++ wNat b

def rTgt : Rd Tgt := do
  match ← rNat with
  | 0 => return .v (← rNat) (← rNat)
  | 1 => return .s (← rNat)
  | 2 => return .p (← rNat) (← rNat)
  | _ => rFail

def wLoc (x : Loc) : List Nat :=
  match x with
  | .scr a b => [0] ++ wNat a ++ wNat b
  | .plaza a => [1] ++ wNat a
  | .glob a b => [2] ++ wNat a ++ wNat b

def rLoc : Rd Loc := do
  match ← rNat with
  | 0 => return .scr (← rNat) (← rNat)
  | 1 => return .plaza (← rNat)
  | 2 => return .glob (← rNat) (← rNat)
  | _ => rFail

def wRejoin (x : Rejoin) : List Nat :=
  wBv x.arr ++ wBv x.enr ++ wBv x.jpc

def rRejoin : Rd Rejoin := do
  return ⟨← rBv 32, ← rBv 32, ← rBv 64⟩

def wTileReg (x : TileReg) : List Nat :=
  wBv x.sptr ++ wBv x.stride ++ wBv x.smode ++ wBv x.cols ++ wBv x.rows ++ wBv x.swz ++
  wBv x.fmt ++ wBv x.src ++ wBv x.base

def rTileReg : Rd TileReg := do
  return ⟨← rBv 64, ← rBv 32, ← rBv 2, ← rBv 13, ← rBv 13, ← rBv 3, ← rBv 5, ← rBv 2, ← rBv 64⟩

def wConvReg (x : ConvReg) : List Nat :=
  wBool x.decl ++ wBv x.signed ++ wBv x.slices ++ wBv x.gen ++ wBv x.grp

def rConvReg : Rd ConvReg := do
  return ⟨← rBool, ← rBv 4, ← rBv 4, ← rBv 8, ← rBv 32⟩

def wLaneAcc (x : LaneAcc) : List Nat :=
  wNat x.lane ++ wBv x.va ++ wOpt (wList wLoc) x.locs ++ wBv x.data ++ wBv x.cmp

def rLaneAcc : Rd LaneAcc := do
  return ⟨← rNat, ← rBv 64, ← rOpt (rList rLoc), ← rBv 64, ← rBv 64⟩

def wWork (x : Work) : List Nat :=
  match x with
  | .result a b => [0] ++ wList (wPair wTgt wBv) a ++ wList (wPair wNat wBv) b
  | .loaded a => [1] ++ wList (wPair wTgt wBv) a
  | .load a b c d e f => [2] ++ wEnum tys a ++ wNat b ++ wBool c ++ wList (wPair wNat wNat) d ++ wEnum scopes e ++ wList wLaneAcc f
  | .store a b c d => [3] ++ wNat a ++ wEnum scopes b ++ wList wLaneAcc c ++ wList (wPair wNat (wList wBv)) d
  | .atom a b c d e f => [4] ++ wEnum atomOps a ++ wBool b ++ wEnum tys c ++ wList (wPair wNat wNat) d ++ wEnum scopes e ++ wList wLaneAcc f
  | .atoma a b c d e f => [5] ++ wEnum atomOps a ++ wEnum tys b ++ wList (wPair wNat wNat) c ++ wEnum scopes d ++ wList wLaneAcc e ++ wList (wPair wNat wBv) f
  | .red a b c d => [6] ++ wEnum atomOps a ++ wEnum tys b ++ wEnum scopes c ++ wList wLaneAcc d
  | .ldk a b c d => [7] ++ wEnum tys a ++ wNat b ++ wList (wPair wNat wNat) c ++ wList wLaneAcc d
  | .prefetch => [8]
  | .sfq a b c d e => [9] ++ wEnum sfqFns a ++ wEnum fTys b ++ wNat c ++ wList (wPair wTgt wBv) d ++ wList (wPair wNat wBv) e
  | .fence a => [10] ++ wBool a
  | .fenceOpnd => [11]
  | .release a b => [12] ++ wEnum scopes a ++ wNat b
  | .acquire a => [13] ++ wNat a
  | .phsync a b c => [14] ++ wEnum scopes a ++ wNat b ++ wBool c
  | .bar a b c => [15] ++ wNat a ++ wBool b ++ wNat c
  | .boinit a b => [16] ++ wPair wNat wNat a ++ wNat b
  | .boarr a b c => [17] ++ wPair wNat wNat a ++ wNat b ++ wNat c
  | .bowait a b c => [18] ++ wPair wNat wNat a ++ wNat b ++ wBool c
  | .botest a b c d => [19] ++ wPair wNat wNat a ++ wNat b ++ wNat c ++ wBool d
  | .waitAny a => [20] ++ wBv a
  | .waitAll a => [21] ++ wBv a
  | .sfw a => [22] ++ wBv a
  | .engine a => [23] ++ wNat a
  | .mma a => [24] ++ wNat a
  | .fuse a => [25] ++ wNat a
  | .card a => [26] ++ wNat a
  | .accld a b c d => [27] ++ wNat a ++ wTileReg b ++ wBv c ++ wList (wPair wBv wBv) d
  | .accst a b c => [28] ++ wList (wPair wBv (wPair wNat wNat)) a ++ wBv b ++ wBv c
  | .launch a b => [29] ++ wList (wPair wNat wBv) a ++ wNat b
  | .ldone a => [30] ++ wOpt wNat a

def rWork : Rd Work := do
  match ← rNat with
  | 0 => return .result (← rList (rPair rTgt (rBv 32))) (← rList (rPair rNat (rBv 5)))
  | 1 => return .loaded (← rList (rPair rTgt (rBv 32)))
  | 2 => return .load (← rEnum tys) (← rNat) (← rBool) (← rList (rPair rNat rNat)) (← rEnum scopes) (← rList rLaneAcc)
  | 3 => return .store (← rNat) (← rEnum scopes) (← rList rLaneAcc) (← rList (rPair rNat (rList (rBv 8))))
  | 4 => return .atom (← rEnum atomOps) (← rBool) (← rEnum tys) (← rList (rPair rNat rNat)) (← rEnum scopes) (← rList rLaneAcc)
  | 5 => return .atoma (← rEnum atomOps) (← rEnum tys) (← rList (rPair rNat rNat)) (← rEnum scopes) (← rList rLaneAcc) (← rList (rPair rNat (rBv 64)))
  | 6 => return .red (← rEnum atomOps) (← rEnum tys) (← rEnum scopes) (← rList rLaneAcc)
  | 7 => return .ldk (← rEnum tys) (← rNat) (← rList (rPair rNat rNat)) (← rList rLaneAcc)
  | 8 => return .prefetch
  | 9 => return .sfq (← rEnum sfqFns) (← rEnum fTys) (← rNat) (← rList (rPair rTgt (rBv 32))) (← rList (rPair rNat (rBv 5)))
  | 10 => return .fence (← rBool)
  | 11 => return .fenceOpnd
  | 12 => return .release (← rEnum scopes) (← rNat)
  | 13 => return .acquire (← rNat)
  | 14 => return .phsync (← rEnum scopes) (← rNat) (← rBool)
  | 15 => return .bar (← rNat) (← rBool) (← rNat)
  | 16 => return .boinit (← rPair rNat rNat) (← rNat)
  | 17 => return .boarr (← rPair rNat rNat) (← rNat) (← rNat)
  | 18 => return .bowait (← rPair rNat rNat) (← rNat) (← rBool)
  | 19 => return .botest (← rPair rNat rNat) (← rNat) (← rNat) (← rBool)
  | 20 => return .waitAny (← rBv 64)
  | 21 => return .waitAll (← rBv 64)
  | 22 => return .sfw (← rBv 8)
  | 23 => return .engine (← rNat)
  | 24 => return .mma (← rNat)
  | 25 => return .fuse (← rNat)
  | 26 => return .card (← rNat)
  | 27 => return .accld (← rNat) (← rTileReg) (← rBv 32) (← rList (rPair (rBv 64) (rBv 8)))
  | 28 => return .accst (← rList (rPair (rBv 64) (rPair rNat rNat))) (← rBv 3) (← rBv 2)
  | 29 => return .launch (← rList (rPair rNat (rBv 64))) (← rNat)
  | 30 => return .ldone (← rOpt rNat)
  | _ => rFail

def wOut (x : Out) : List Nat :=
  wNat x.seq ++ wBv x.pc ++ wBv x.next ++ wBv x.lanes ++ wWork x.work ++ wList wTgt x.live

def rOut : Rd Out := do
  return ⟨← rNat, ← rBv 64, ← rBv 64, ← rBv 32, ← rWork, ← rList rTgt⟩

def wChoiceUnit (x : ChoiceUnit) : List Nat :=
  wNat x.cur ++ wInt x.last

def rChoiceUnit : Rd ChoiceUnit := do
  return ⟨← rNat, ← rInt⟩

def wElemAct (x : ElemAct) : List Nat :=
  match x with
  | .refetch a => [0] ++ wBv a
  | .item a => [1] ++ wOut a
  | .outSeq a => [2] ++ wNat a
  | .engine a => [3] ++ wNat a
  | .matrix a => [4] ++ wNat a

def rElemAct : Rd ElemAct := do
  match ← rNat with
  | 0 => return .refetch (← rBv 64)
  | 1 => return .item (← rOut)
  | 2 => return .outSeq (← rNat)
  | 3 => return .engine (← rNat)
  | 4 => return .matrix (← rNat)
  | _ => rFail

def wElem (x : Elem) : List Nat :=
  wNat x.gkey ++ wBv x.lanes ++ wEnum accKinds x.kind ++ wBv x.va ++ wNat x.func ++ wNat x.pasid ++
  wBv x.label ++ wBool x.stage ++ wNat x.page ++ wOpt wNat x.slot ++ wBool x.pri ++ wBool x.replied ++ wNat x.bytes ++
  wList wBv x.post ++ wElemAct x.act

def rElem : Rd Elem := do
  return ⟨← rNat, ← rBv 32, ← rEnum accKinds, ← rBv 64, ← rNat, ← rNat, ← rBv 64, ← rBool, ← rNat,
    ← rOpt rNat, ← rBool, ← rBool, ← rNat, ← rList (rBv 3), ← rElemAct⟩

def wDue (x : Due) : List Nat :=
  wNat x.lane ++ wNat x.cause ++ wBv x.fadr ++ wBv x.fcode ++ wNat x.info ++ wBv x.pc

def rDue : Rd Due := do
  return ⟨← rNat, ← rNat, ← rBv 64, ← rBv 32, ← rNat, ← rBv 64⟩

def wHeld (x : Held) : List Nat :=
  wBv x.lanes ++ wBool x.trn ++ wBool x.s2 ++ wBv x.pc ++ wNat x.slot ++ wNat x.seq ++
  wBool x.filed ++ wOpt wBv x.reply ++ wList wElem x.elems

def rHeld : Rd Held := do
  return ⟨← rBv 32, ← rBool, ← rBool, ← rBv 64, ← rNat, ← rNat, ← rBool, ← rOpt (rBv 2), ← rList rElem⟩

def wOwed (x : Owed) : List Nat :=
  wBv x.lanes ++ wBv x.pc ++ wBool x.trn ++ wBool x.bkp ++ wBool x.s2

def rOwed : Rd Owed := do
  return ⟨← rBv 32, ← rBv 64, ← rBool, ← rBool, ← rBool⟩

def wGroup (x : Group) : List Nat :=
  wNat x.team ++ wNat x.gidx ++ wBv x.live ++ wBv x.exited ++ wBv x.parked ++ wBv x.hmask ++
  wList (wPair wNat wBv) x.pc ++ wList (wPair wNat wBv) x.vreg ++ wList (wPair wNat wBool) x.pred ++ wList (wPair wNat wBv) x.xreg ++
  wList (wPair wNat wBv) x.sreg ++ wList (wPair wNat wTileReg) x.tile ++ wList (wPair wNat wBv) x.acc ++
  wList (wPair wNat wRejoin) x.rejoin ++ wList (wPair wNat wBv) x.epc ++ wList (wPair wNat wBv) x.fadr ++
  wList (wPair wNat wBv) x.fcode ++ wBv x.cause ++ wBool x.det ++ wBool x.rat ++ wBv x.sfn ++ wBv x.flg ++ wBv x.fen ++
  wBool x.tabs ++ wInt x.tval ++ wNat x.rot ++ wNat x.run ++ wOpt wNat x.last ++ wOpt wNat x.slot ++ wEnum slotStates x.sstate ++
  wNat x.lastIssue ++ wNat x.nextOk ++ wBool x.mark ++ wList wOut x.outs ++ wNat x.nextSeq ++ wList wHeld x.held ++
  wList wDue x.due ++ wChoiceUnit x.eng ++ wChoiceUnit x.pre ++ wChoiceUnit x.eff ++ wOpt (wPair wBv wBv) x.chosen ++
  wBool x.yields ++ wList wOwed x.owed ++ wList (wPair wNat wNat) x.swr ++ wOpt (wPair wNat wNat) x.away

def rGroup : Rd Group := do
  return ⟨← rNat, ← rNat, ← rBv 32, ← rBv 32, ← rBv 32, ← rBv 32, ← rList (rPair rNat (rBv 64)),
    ← rList (rPair rNat (rBv 32)), ← rList (rPair rNat rBool), ← rList (rPair rNat (rBv 32)), ← rList (rPair rNat (rBv 32)),
    ← rList (rPair rNat rTileReg), ← rList (rPair rNat (rBv 64)), ← rList (rPair rNat rRejoin), ← rList (rPair rNat (rBv 64)),
    ← rList (rPair rNat (rBv 64)), ← rList (rPair rNat (rBv 32)), ← rBv 32, ← rBool, ← rBool, ← rBv 3, ← rBv 5, ← rBv 5, ← rBool,
    ← rInt, ← rNat, ← rNat, ← rOpt rNat, ← rOpt rNat, ← rEnum slotStates, ← rNat, ← rNat, ← rBool, ← rList rOut, ← rNat,
    ← rList rHeld, ← rList rDue, ← rChoiceUnit, ← rChoiceUnit, ← rChoiceUnit, ← rOpt (rPair (rBv 64) (rBv 32)), ← rBool,
    ← rList rOwed, ← rList (rPair rNat rNat), ← rOpt (rPair rNat rNat)⟩

def wTeam (x : Team) : List Nat :=
  wNat x.launch ++ wNat x.task ++ wList wNat x.cores ++ wEnum wheres x.place ++ wNat x.groups ++
  wOpt wNat x.gang ++ wList (wPair wNat wBv) x.scr ++ wList (wPair wNat wBv) x.tags ++ wBv x.priv ++ wBv x.done ++ wBv x.err ++
  wList (wPair wNat wBv) x.crc ++ wBv x.noChain ++ wList (wPair wNat (wList wNat)) x.bars ++ wList (wPair wNat wConvReg) x.kreg ++
  wBool x.frozen ++ wBool x.leaving ++ wBool x.stopped ++ wOpt wNat x.stopTid ++ wOpt (wPair wNat wNat) x.image ++
  wList (wPair wNat wNat) x.children ++ wBool x.cancelled ++ wList (wPair wNat wNat) x.born ++ wOpt (wList wNat) x.frees

def rTeam : Rd Team := do
  return ⟨← rNat, ← rNat, ← rList rNat, ← rEnum wheres, ← rNat, ← rOpt rNat, ← rList (rPair rNat (rBv 8)),
    ← rList (rPair rNat (rBv 3)), ← rBv 32, ← rBv 64, ← rBv 64, ← rList (rPair rNat (rBv 32)), ← rBv 64,
    ← rList (rPair rNat (rList rNat)), ← rList (rPair rNat rConvReg), ← rBool, ← rBool, ← rBool, ← rOpt rNat,
    ← rOpt (rPair rNat rNat), ← rList (rPair rNat rNat), ← rBool, ← rList (rPair rNat rNat), ← rOpt (rList rNat)⟩

def wOrigin (x : Origin) : List Nat :=
  match x with
  | .packet a b c d => [0] ++ wNat a ++ wNat b ++ wNat c ++ wNat d
  | .node a b c => [1] ++ wNat a ++ wNat b ++ wList (wPair wNat wBool) c
  | .thread a b c => [2] ++ wNat a ++ wNat b ++ wNat c

def rOrigin : Rd Origin := do
  match ← rNat with
  | 0 => return .packet (← rNat) (← rNat) (← rNat) (← rNat)
  | 1 => return .node (← rNat) (← rNat) (← rList (rPair rNat rBool))
  | 2 => return .thread (← rNat) (← rNat) (← rNat)
  | _ => rFail

def wLaunch (x : Launch) : List Nat :=
  wOrigin x.origin ++ wNat x.func ++ wNat x.pasid ++ wNat x.pri ++ wNat x.depth ++
  wBv x.recAddr ++ wNat x.order ++ wEnum stages x.stage ++ wBv x.kdesc ++ wBv x.entry ++ wOpt wBv x.handler ++ wBv x.args ++
  wBv x.done ++ wBv x.seed ++ wBv x.label ++ wNat x.gx ++ wNat x.gy ++ wNat x.gz ++ wNat x.tx ++ wNat x.ty ++ wNat x.tz ++
  wNat x.shape ++ wNat x.nw ++ wNat x.nh ++ wBool x.det ++ wBool x.ctoll ++ wInt x.toff ++ wNat x.vregs ++ wNat x.sregs ++
  wNat x.accs ++ wNat x.scr ++ wNat x.nbhd ++ wList wBv x.consts ++ wList (wPair wNat wNat) x.unplaced ++ wBool x.considered ++
  wNat x.passed ++ wNat x.exited ++ wNat x.childLive ++ wNat x.childAcc ++ wBv x.fate ++ wBool x.dfail ++ wOpt wBv x.dlabel ++
  wBv x.tstart ++ wBool x.replay ++ wOpt wNat x.frozen ++ wBool x.held ++ wBool x.waiting ++ wBool x.closing ++ wBool x.putOff ++
  wNat x.path

def rLaunch : Rd Launch := do
  return ⟨← rOrigin, ← rNat, ← rNat, ← rNat, ← rNat, ← rBv 64, ← rNat, ← rEnum stages, ← rBv 64,
    ← rBv 64, ← rOpt (rBv 64), ← rBv 64, ← rBv 64, ← rBv 64, ← rBv 64, ← rNat, ← rNat, ← rNat, ← rNat, ← rNat, ← rNat, ← rNat, ← rNat,
    ← rNat, ← rBool, ← rBool, ← rInt, ← rNat, ← rNat, ← rNat, ← rNat, ← rNat, ← rList (rBv 32), ← rList (rPair rNat rNat), ← rBool,
    ← rNat, ← rNat, ← rNat, ← rNat, ← rBv 8, ← rBool, ← rOpt (rBv 64), ← rBv 64, ← rBool, ← rOpt rNat, ← rBool, ← rBool, ← rBool,
    ← rBool, ← rNat⟩

def wSigner (x : Signer) : List Nat :=
  wNat x.gkey ++ wBv x.lanes ++ wNat x.slice ++ wNat x.acc ++ wNat x.seq ++ wBv x.bo ++
  wBv x.pc

def rSigner : Rd Signer := do
  return ⟨← rNat, ← rBv 32, ← rNat, ← rNat, ← rNat, ← rBv 64, ← rBv 64⟩

def wChunk (x : Chunk) : List Nat :=
  wNat x.va ++ wOpt wNat x.line ++ wList wBv x.bytes

def rChunk : Rd Chunk := do
  return ⟨← rNat, ← rOpt rNat, ← rList (rBv 8)⟩

def wMatOp (x : MatOp) : List Nat :=
  wNat x.id ++ wNat x.team ++ wNat x.core ++ wBv x.pc ++ wNat x.shape ++ wBool x.flt ++
  wTileReg x.ta ++ wTileReg x.tb ++ wInt x.arow ++ wInt x.brow ++ wInt x.koff ++ wNat x.klen ++ wNat x.k ++ wList wSigner x.signers ++
  wOpt (wList wBv) x.job ++ wNat x.idx ++ wList wInt x.zeroed ++ wBool x.started ++ wNat x.waits ++ wBool x.parked ++
  wList wChunk x.chunks ++ wList (wPair wNat wBv) x.tags

def rMatOp : Rd MatOp := do
  return ⟨← rNat, ← rNat, ← rNat, ← rBv 64, ← rNat, ← rBool, ← rTileReg, ← rTileReg, ← rInt, ← rInt,
    ← rInt, ← rNat, ← rNat, ← rList rSigner, ← rOpt (rList (rBv 8)), ← rNat, ← rList rInt, ← rBool, ← rNat, ← rBool, ← rList rChunk,
    ← rList (rPair rNat (rBv 3))⟩

def wFunc (x : Func) : List Nat :=
  wBv x.s2root ++ wBv x.ptab ++ wBv x.tinva ++ wBv x.tkind ++ wBv x.tpasid ++ wBool x.tbusy ++
  wList (wPair wNat wNat) x.tdrain ++ wBv x.recbase ++ wBv x.ftail ++ wBv x.fhead ++ wBv x.rtail ++ wBv x.rhead ++ wBv x.hwdrop ++
  wBool x.holdtr ++ wBool x.holdbp ++ wBv x.spillbase ++ wBv x.spilllen ++ wBv x.trcbase ++ wBv x.trclog ++ wBv x.trctail ++
  wBv x.trchead ++ wBv x.trcdrop ++ wList (wPair wNat wBv) x.low ++ wBool x.hold ++ wBool x.ats ++ wBool x.pri ++ wBool x.freezing

def rFunc : Rd Func := do
  return ⟨← rBv 64, ← rBv 64, ← rBv 64, ← rBv 2, ← rBv 20, ← rBool, ← rList (rPair rNat rNat), ← rBv 64,
    ← rBv 32, ← rBv 32, ← rBv 32, ← rBv 32, ← rBv 32, ← rBool, ← rBool, ← rBv 64, ← rBv 64, ← rBv 64, ← rBv 5, ← rBv 32, ← rBv 32,
    ← rBv 32, ← rList (rPair rNat (rBv 32)), ← rBool, ← rBool, ← rBool, ← rBool⟩

def wQueue (x : Queue) : List Nat :=
  wBv x.qring ++ wNat x.qsize ++ wBv x.qhead ++ wBv x.qtail ++ wBv x.qvec ++ wBv x.pmax ++
  wBool x.en ++ wBool x.frozen ++ wBv x.reason ++ wBool x.waiting ++ wBv x.pasid ++ wNat x.owner ++ wNat x.since ++ wOpt wBv x.head ++
  wBool x.checked ++ wList wNat x.open'

def rQueue : Rd Queue := do
  return ⟨← rBv 64, ← rNat, ← rBv 32, ← rBv 32, ← rBv 6, ← rBv 3, ← rBool, ← rBool, ← rBv 8, ← rBool,
    ← rBv 20, ← rNat, ← rNat, ← rOpt (rBv 512), ← rBool, ← rList rNat⟩

def wCrossing (x : Crossing) : List Nat :=
  wBool x.en ++ wBool x.ovf ++ wBv x.cons ++ wBv x.prod ++ wBv x.tokens ++ wNat x.owner

def rCrossing : Rd Crossing := do
  return ⟨← rBool, ← rBool, ← rBv 10, ← rBv 10, ← rBv 32, ← rNat⟩

def wNodeRun (x : NodeRun) : List Nat :=
  wNat x.fwd ++ wBool x.ran ++ wNat x.iter ++ wBool x.ready ++ wNat x.back

def rNodeRun : Rd NodeRun := do
  return ⟨← rNat, ← rBool, ← rNat, ← rBool, ← rNat⟩

def wRunReq (x : RunReq) : List Nat :=
  wNat x.pri ++ wOpt (wPair wNat wNat) x.packet

def rRunReq : Rd RunReq := do
  return ⟨← rNat, ← rOpt (rPair rNat rNat)⟩

def wGraph (x : Graph) : List Nat :=
  wBv x.gpri ++ wNat x.gown ++ wNat x.gbase ++ wBv x.gvec ++ wNat x.glen ++ wBv x.pasid ++
  wBv x.err ++ wBool x.ign ++ wBool x.lost ++ wBool x.abn ++ wNat x.nodes ++ wList wRunReq x.pend ++ wOpt wRunReq x.run ++
  wBool x.abandoned ++ wList (wPair wNat wNodeRun) x.prog ++ wNat x.flying

def rGraph : Rd Graph := do
  return ⟨← rBv 3, ← rNat, ← rNat, ← rBv 6, ← rNat, ← rBv 20, ← rBv 4, ← rBool, ← rBool, ← rBool, ← rNat,
    ← rList rRunReq, ← rOpt rRunReq, ← rBool, ← rList (rPair rNat rNodeRun), ← rNat⟩

def wRecF (x : RecF) : List Nat :=
  wBv x.addr ++ wBv x.pc ++ wBv x.label ++ wBv x.team ++ wBv x.group ++ wBv x.lanes ++
  wBv x.cause ++ wBv x.detail ++ wBv x.code ++ wBv x.kind

def rRecF : Rd RecF := do
  return ⟨← rBv 64, ← rBv 64, ← rBv 64, ← rBv 32, ← rBv 32, ← rBv 32, ← rBv 32, ← rBv 64, ← rBv 8, ← rBv 8⟩

def wWaitRec (x : WaitRec) : List Nat :=
  wNat x.func ++ wOpt wNat x.launch ++ wOpt (wPair wNat wBv) x.held ++ wRecF x.body

def rWaitRec : Rd WaitRec := do
  return ⟨← rNat, ← rOpt rNat, ← rOpt (rPair rNat (rBv 32)), ← rRecF⟩

/-! ## Sections -/

/-- The bytes of numbers: a length in four bytes, then as many bytes. -/
def numBytes (n : Nat) : List Byte :=
  let k := if n = 0 then 0 else n.log2 / 8 + 1
  leBytes 4 k ++ leBytes k n

/-- Numbers read back; nothing where the bytes end within one. -/
def numsOf : Nat → List Byte → Option (List Nat)
  | 0, bs => if bs.isEmpty then some [] else none
  | fuel + 1, bs =>
    if bs.isEmpty then some []
    else
      let k := leNat (bs.take 4)
      let x := (bs.drop 4).take k
      if (bs.take 4).length < 4 || x.length < k then none
      else (numsOf fuel ((bs.drop 4).drop k)).map fun t => leNat x :: t

/-- A section of numbers. -/
def secBytes (xs : List Nat) : List Byte := xs.flatMap numBytes
def secNums (bs : List Byte) : Option (List Nat) := numsOf bs.length bs

/-- Read a whole section. -/
def readAll {α : Type} (f : Rd α) (bs : List Byte) : Option α :=
  match (secNums bs).bind f with
  | some (x, []) => some x
  | _ => none

/-- Section 0x03: the contexts, whose registers and scratchpads stand in the bytes of their teams' spill images. -/
def ctxNums (x : FrozenImg) : List Nat :=
  wNat x.uid ++ wList wNat x.sizes ++ wList (wPair wNat wTeam) x.teams ++ wList (wPair wNat wNat) (x.images.map fun e => (e.1, e.2.length)) ++
  wList (wPair wNat wGroup) x.groups ++ wList wElem x.elems ++ wList wMatOp x.mats ++ wList wWaitRec x.recs

def ctxSection (x : FrozenImg) : List Byte :=
  let bs := secBytes (ctxNums x)
  leBytes 8 bs.length ++ bs ++ x.images.flatMap (·.2)

def rCtx : Rd (Nat × List Nat × List (Nat × Team) × List (Nat × Nat) × List (Nat × Group) × List Elem × List MatOp × List WaitRec) := do
  return (← rNat, ← rList rNat, ← rList (rPair rNat rTeam), ← rList (rPair rNat rNat), ← rList (rPair rNat rGroup), ← rList rElem,
    ← rList rMatOp, ← rList rWaitRec)

/-- Images one after another, by their lengths. -/
def splitBytes : List (Nat × Nat) → List Byte → List (Nat × List Byte)
  | [], _ => []
  | (k, n) :: t, bs => (k, bs.take n) :: splitBytes t (bs.drop n)

/-- Section 0x04: queues, crossings, graphs with their nodes, and launches, each with its unplaced teams and its counts of children. -/
def frontSection (x : FrozenImg) : List Byte :=
  secBytes (wList (wPair wNat wQueue) x.queues ++ wList (wPair wNat wCrossing) x.xings ++ wList (wPair wNat wGraph) x.graphs ++
    wList (wPair wNat wLaunch) x.launches ++ wList (wPair wNat wBv) x.nodes)

def rFront : Rd (List (Nat × Queue) × List (Nat × Crossing) × List (Nat × Graph) × List (Nat × Launch) × List (Nat × BitVec 512)) := do
  return (← rList (rPair rNat rQueue), ← rList (rPair rNat rCrossing), ← rList (rPair rNat rGraph), ← rList (rPair rNat rLaunch),
    ← rList (rPair rNat (rBv 512)))

/-- Section 0x05: the function's registers. -/
def regSection (x : FrozenImg) : List Byte := secBytes (wFunc x.fregs)

/-- The contents of the three sections, as they were written. -/
def sectionsBack (c f r : List Byte) : Option FrozenImg :=
  let n := leNat (c.take 8)
  match readAll rCtx ((c.drop 8).take n), readAll rFront f, readAll rFunc r with
  | some a, some b, some d =>
    some { uid := a.1, sizes := a.2.1, teams := a.2.2.1, images := splitBytes a.2.2.2.1 ((c.drop 8).drop n), groups := a.2.2.2.2.1,
           elems := a.2.2.2.2.2.1, mats := a.2.2.2.2.2.2.1, recs := a.2.2.2.2.2.2.2,
           queues := b.1, xings := b.2.1, graphs := b.2.2.1, launches := b.2.2.2.1, nodes := b.2.2.2.2, fregs := d }
  | _, _, _ => none

/-! ## Contexts -/

/-- A group without what its area in a spill image holds by table. -/
def bareGroup (g : Group) : Group :=
  { g with pc := [], vreg := [], pred := [], xreg := [], sreg := [], tile := [], acc := [], rejoin := [], epc := [], fadr := [], fcode := [] }

/-- A team without its scratchpad and tags. -/
def bareTeam (t : Team) : Team := { t with scr := [], tags := [], image := none }

/-- A team of an image and its groups, from the bytes of its spill image; nothing when a row's MODE is 5 to 7. -/
def ctxBack (x : FrozenImg) (e : Nat × Team) : Option ((Nat × Team) × List (Nat × Group)) :=
  let l := tabGet launchReset x.launches e.2.launch
  match areasBack l (x.groups.filter fun q => q.2.team == e.1) (tabGet [] x.images e.1) with
  | some r => some ((e.1, scrBack l.scr r.2 e.2), r.1)
  | none => none

/-- The image with every context whole. -/
def imgWhole (x : FrozenImg) : Option FrozenImg :=
  let rs := x.teams.map (ctxBack x)
  if rs.any (·.isNone) then none
  else some { x with teams := rs.filterMap fun r => r.map (·.1), groups := rs.flatMap fun r => (r.map (·.2)).getD [] }

end Sys2Proof.Machine
end

