-- ==== Sys2Proof/Machine/Holds.lean ====
section
/-! DEFINITION. Sub-groups held by HOLDTR or HOLDBP, the replies that release them, and records that wait for a slot of a full lane
(R404). -/

namespace Sys2Proof.Machine

/-! ## Replies -/

def dropHeld (s : State) (gk : Nat) (h : Held) : State :=
  updGroup s gk fun g => { g with held := g.held.filter fun x => x != h }

/-- RESUME: the elements of a translation cause walk again; lanes without any, and those of a breakpoint, continue at their resume
address. -/
def resumeHeld (s : State) (gk : Nat) (h : Held) : State :=
  if h.elems.isEmpty then dueCauses (updGroup s gk fun g => unpark g h.lanes) gk h.lanes
  else
    let es := h.elems.map fun e => { e with slot := none }
    walkAll { s with elems := s.elems ++ es } es

/-- A reply to a sub-group that stands on a core: 0 RESUME, 1 DELIVER, 2 KILL. A grid that has ended takes none. -/
def applyReply (s : State) (gk : Nat) (h : Held) (act : BitVec 2) : State :=
  if gridEnded (launchOf s gk) then s
  else
    let s := dropHeld s gk h
    match act.toNat with
    | 0 => resumeHeld s gk h
    | 1 => dueCauses (deliver s gk h.lanes h.pc h.trn (!h.trn) h.s2 true) gk h.lanes
    | _ => fatal s (teamOf s gk).launch (laneRecord s gk h.lanes h.pc 0x01 0)

/-- Replies that arrived while a team was off its cores take effect when it is restored. -/
def heldReplies (s : State) (tk : Nat) : State :=
  (List.range (getTeam s tk).groups).foldl (fun s gi =>
    let gk := groupKey tk gi
    (getGroup s gk).held.foldl (fun s h => match h.reply with
      | some act => applyReply s gk h act
      | none => s) s) s

/-- The held sub-group of a function that a record's slot and SEQ name; the newest, when a slot was written again meanwhile. -/
def heldAt (s : State) (f slot : Nat) (seq : BitVec 8) : Option (Nat × Held) :=
  (sortBy (fun (x : Nat × Held) => x.2.seq) (s.groups.flatMap fun e =>
    if (launchOf s e.1).func = f then
      (e.2.held.filter fun h => h.filed && h.slot == slot && h.seq % 256 == seq.toNat).map fun h => (e.1, h)
    else [])).getLast?

/-- RPLREP of a function's block. A stage-2 translation cause is answered by the physical function alone. -/
def rplrepWrite (s : State) (func block : Nat) (v : Word) : State :=
  let act := v.extractLsb' 30 2
  if !(func == 0 || func == block) || act = 3 then s
  else match heldAt s block (v.extractLsb' 0 10).toNat (v.extractLsb' 10 8) with
    | some (gk, h) =>
      if h.s2 && func != 0 then s
      else if (getGroup s gk).slot.isSome then applyReply s gk h act
      else updGroup s gk fun g => { g with held := g.held.map fun x => if x == h && x.reply.isNone then { x with reply := some act } else x }
    | none => s

/-- An RPLREP write of one ACT. -/
def rplrepAct (k : Nat) (s : State) (func block : Nat) (v : Word) : Outcome :=
  .next (if (v.extractLsb' 30 2).toNat = k then openWrite s func (rplrepWrite s func block v) else s)

def execRplrepResume (func block : Nat) (v : Word) (s : State) : Outcome := rplrepAct 0 s func block v

def execRplrepDeliver (func block : Nat) (v : Word) (s : State) : Outcome := rplrepAct 1 s func block v

def execRplrepKill (func block : Nat) (v : Word) (s : State) : Outcome := rplrepAct 2 s func block v

/-! ## Waiting records -/

/-- A waiting record is written when its lane has a free slot; a replayable one only while no fatal record of its function waits. -/
def serveRec (s : State) (r : WaitRec) : State :=
  let rest : State := { s with recs := s.recs.erase r }
  match r.held with
  | none =>
    if fatalFull s r.func then s
    else
      let x := putFatal rest r.func r.body
      if x.2 then lostRecord x.1 r.func else x.1
  | some (gk, m) =>
    if replayFull s r.func || s.recs.any (fun x => x.func == r.func && x.held.isNone) then s else putReplay rest r.func gk m r.body

/-- All records that wait, in the order in which they came; fatal ones first. -/
def serveRecs (s : State) : State :=
  let s := (s.recs.filter fun r => r.held.isNone).foldl serveRec s
  (s.recs.filter fun r => r.held.isSome).foldl serveRec s

/-- FHEAD or RHEAD of a function's block. -/
def recHeadWrite (s : State) (func block : Nat) (replayable : Bool) (v : Word) : State :=
  if !(func == 0 || func == block) then s
  else serveRecs (updFunc s block fun x => if replayable then { x with rhead := v } else { x with fhead := v })

def execRecordHeadWrite (func block : Nat) (replayable : Bool) (v : Word) (s : State) : Outcome :=
  .next (openWrite s func (recHeadWrite s func block replayable v))

end Sys2Proof.Machine
end

