-- ==== Sys2Proof/Machine/Place.lean ====
section
/-! DEFINITION. The roundabout's picture of the cores (R58 to R70): spans and their shapes (R14, R15, R59), reservations, the
deterministic anchor (R66), commit and restoration of a team (R137, R146, R234, R408, R255). -/

namespace Sys2Proof.Machine

/-! ## Shapes, R14, R15, R61 -/

/-- Groups of a team of n threads (R12). -/
def groupsOf (threads : Nat) : Nat := (threads + Config.W - 1) / Config.W

/-- The most groups on one slice of a span of n cores (R14). -/
def mostGroups (groups n : Nat) : Nat := (groups + 4 * n - 1) / (4 * n)

/-- The team fits a span of n cores (R14). -/
def fitsSpan (groups vregs accs scr n : Nat) : Bool :=
  let m := mostGroups groups n
  decide (m ≤ Config.slotsPerSlice) && decide (m * vregs ≤ Config.vregsPerLane) && decide (m * accs ≤ Config.accsPerSlice) &&
    decide (scr ≤ Config.scrPerCore * n)

/-- Columns and rows of a shape code (R15). -/
def shapeDims (code : Nat) : Nat × Nat :=
  match code with
  | 2 => (2, 1) | 3 => (1, 2) | 4 => (3, 1) | 5 => (1, 3) | 6 => (2, 2) | 7 => (4, 1) | _ => (1, 1)

/-- The shape that SPAN selects, if the team fits it. -/
def shapeFor (groups vregs accs scr span : Nat) : Option Nat :=
  let ok := fun c => fitsSpan groups vregs accs scr ((shapeDims c).1 * (shapeDims c).2)
  if span = 0 then [1, 2, 3, 4, 5, 6, 7].find? ok else if ok span then some span else none

/-- The quarter of a core. -/
def quarterOf (c : Nat) : Nat := c % 16 / 8 + 2 * (c / 16 / 6)

/-- The cores of a span anchored at core a, ascending, when it is geometrically valid. -/
def spanCores (d : Nat × Nat) (a : Nat) : Option (List Nat) :=
  let cs := (List.range d.2).flatMap fun k => (List.range d.1).map fun i => a + i + 16 * k
  if cs.all fun c => decide (c < Config.cores) && quarterOf c == quarterOf a then some cs else none

/-- A launch is a neighbourhood launch (R17). -/
def isNbhd (l : Launch) : Bool := l.nw != 0

/-- What is placed at once: a team on its span, or a neighbourhood on its rectangle. -/
def unitDims (l : Launch) : Nat × Nat := if isNbhd l then (l.nw, l.nh) else shapeDims l.shape
def unitTeams (l : Launch) : Nat := if isNbhd l then l.nw * l.nh else 1

/-- What a reservation takes on one core (R59). -/
structure Need where
  slots : Nat
  vregs : Nat
  accs  : Nat
  scr   : Nat
  deriving DecidableEq, Repr

/-- The reservation of a team of a launch on span core j. -/
def needOf (l : Launch) (j : Nat) : Need :=
  let n := if isNbhd l then 1 else (shapeDims l.shape).1 * (shapeDims l.shape).2
  let j := if isNbhd l then 0 else j
  let m := mostGroups (groupsOf (l.tx * l.ty * l.tz)) n
  ⟨m, m * l.vregs, m * l.accs, min Config.scrPerCore (l.scr - Config.scrPerCore * j)⟩

def takeCore (s : State) (c : Nat) (n : Need) : State :=
  updCore s c fun x => { x with fslot := x.fslot - n.slots, fvreg := x.fvreg - n.vregs, facc := x.facc - n.accs, fscr := x.fscr - n.scr }

/-- A core returns a reservation; one whose region is dark returns nothing (R68). -/
def giveCore (s : State) (c : Nat) (n : Need) : State :=
  if (getCore s c).dark then s else
  updCore s c fun x => { x with fslot := x.fslot + n.slots, fvreg := x.fvreg + n.vregs, facc := x.facc + n.accs, fscr := x.fscr + n.scr }

/-- Take or return a team's reservation on its cores. -/
def takeSpan (s : State) (l : Launch) (cs : List Nat) : State :=
  (List.range cs.length).foldl (fun s j => takeCore s (cs.getD j 0) (needOf l j)) s

def giveSpan (s : State) (l : Launch) (cs : List Nat) : State :=
  (List.range cs.length).foldl (fun s j => giveCore s (cs.getD j 0) (needOf l j)) s

/-! ## Deterministic anchors, R66, R67 -/

def coreDark (s : State) (c : Nat) : Bool := (getCore s c).dark

/-- The anchor of a deterministic team or gang. -/
def detAnchor (s : State) (seed : DWord) (task : Nat) (d : Nat × Nat) : Option (List Nat) :=
  let z := mix64 (seed ^^^ (BitVec.ofNat 64 task * 0x9E3779B97F4A7C15#64))
  let start := z.toNat % 192
  let k := (seed.extractLsb' 58 6).toNat
  let stride := 6 * (k / 2) + (if k % 2 = 0 then 1 else 5)
  (List.range 192).findSome? fun i =>
    match spanCores d ((start + i * stride) % 192) with
    | some cs => if cs.any (coreDark s) then none else some cs
    | none => none

/-- The number that stands for a waiting deterministic unit on its cores. -/
def waitKey (lk task : Nat) : Nat := lk * 2 ^ 32 + task

/-- The cores that a waiting unit waits for. -/
def waitCores (s : State) (key : Nat) : List Nat :=
  let l := getLaunch s (key / 2 ^ 32)
  (detAnchor s l.seed (key % 2 ^ 32) (unitDims l)).getD []

/-- The launch of a waiting unit is still there and has not ended: only then is anything held for it. A FREEZE, FPRE HOLD or a precise stop
that keeps the launch off does not end the hold (R67; log entry 119). -/
def keyLive (s : State) (key : Nat) : Bool :=
  match tabFind s.launches (key / 2 ^ 32) with
  | some l => !gridEnded l
  | none => false

/-- Units that wait for a core, by rank. -/
def holdersOf (s : State) (c : Nat) : List Nat := (getCore s c).heldTeam.filter (keyLive s)

/-- The needs of waiting units on a core, together. -/
def needsOf (s : State) (c : Nat) (ks : List Nat) : Need :=
  ks.foldl (fun n k =>
    let x := needOf (getLaunch s (k / 2 ^ 32)) ((waitCores s k).idxOf c)
    ⟨n.slots + x.slots, n.vregs + x.vregs, n.accs + x.accs, n.scr + x.scr⟩) ⟨0, 0, 0, 0⟩

/-- Some resource of a core is held by a unit that waits for it: one of which it needs some and some is free (R58, R67). -/
def holdsSome (s : State) (c : Nat) : Bool :=
  let x := getCore s c
  let n := needsOf s c (holdersOf s c)
  (decide (0 < n.slots) && decide (0 < x.fslot)) || (decide (0 < n.vregs) && decide (0 < x.fvreg)) ||
    (decide (0 < n.accs) && decide (0 < x.facc)) || (decide (0 < n.scr) && decide (0 < x.fscr))

/-- What waiting units hold of a core before the unit `key`: all that stand ahead of it, or all when it is not waiting (R67). A unit that
waits holds what is free of its need when it begins to wait, as well as what is released later (log entry 93). -/
def heldNeed (s : State) (c key : Nat) : Need := needsOf s c ((holdersOf s c).takeWhile fun k => k != key)

/-- A need of one field is met by what is free and not held; nothing is asked of a field of which nothing is needed (R67). -/
def fieldHas (need held free : Nat) : Bool := need == 0 || decide (need + held ≤ free)

/-- Enough of each field is free on a core that is not dark, whose banks do not exchange (R407), and that does not stay in reset (R434). -/
def coreHas (s : State) (c key : Nat) (n : Need) : Bool :=
  let x := getCore s c
  let h := heldNeed s c key
  !x.dark && x.swapAt.isNone && !s.anchor.dead.contains (.compute c) && fieldHas n.slots h.slots x.fslot && fieldHas n.vregs h.vregs x.fvreg && fieldHas n.accs h.accs x.facc &&
    fieldHas n.scr h.scr x.fscr

/-- The unit fits these cores now. -/
def unitFits (s : State) (l : Launch) (key : Nat) (cs : List Nat) : Bool :=
  (List.range cs.length).all fun j => coreHas s (cs.getD j 0) key (needOf l j)

/-- The load of a span (R60). -/
def loadOf (s : State) (cs : List Nat) : Nat := cs.foldl (fun n c => n + (Config.slotsPerSlice - (getCore s c).fslot)) 0

/-- The span of least load on which the unit fits, the lower anchor where loads are equal (R61). -/
def chooseSpan (s : State) (l : Launch) (key : Nat) : Option (List Nat) :=
  ((List.range Config.cores).foldl (fun (b : Option (Nat × List Nat)) a =>
    match spanCores (unitDims l) a with
    | none => b
    | some cs =>
      if !unitFits s l key cs then b
      else match b with
        | none => some (loadOf s cs, cs)
        | some (n, _) => if loadOf s cs < n then some (loadOf s cs, cs) else b) none).map (·.2)

/-- Some valid span of the launch's shape has no dark core (R69). -/
def placeable (s : State) (l : Launch) : Bool :=
  (List.range Config.cores).any fun a =>
    match spanCores (unitDims l) a with
    | some cs => !cs.any (coreDark s)
    | none => false

/-! ## Commit and restoration -/

/-- Core slots that hold a group. -/
def slotTaken (s : State) (x : Nat) : Bool := s.groups.any fun e => e.2.slot == some x

/-- The lowest free slot of a slice of a core. -/
def slotFor (s : State) (c q : Nat) : Nat :=
  (((List.range Config.slotsPerSlice).map fun k => Config.slotsPerCore * c + Config.slotsPerSlice * q + k).find? fun x => !slotTaken s x).getD
    (Config.slotsPerCore * c + Config.slotsPerSlice * q)

/-- Put a group of a team into its slice: the lowest free slot, active while the slice has fewer than eight active groups, each of
its units at its reset choice (R16, R137, R312, R79). -/
def seatGroup (s : State) (tk gi : Nat) : State :=
  let t := getTeam s tk
  let n := max 1 t.cores.length
  let c := t.cores.getD (gi % n) 0
  let q := gi / n % 4
  let slot := slotFor s c q
  let act := (s.groups.filter fun e => (match e.2.slot with | some x => x / 24 == slot / 24 | none => false) && e.2.sstate == .active).length
  updGroup s (groupKey tk gi) fun g =>
    { g with slot := some slot, away := if g.outs.isEmpty then none else g.away, lastIssue := s.now, nextOk := s.now,
             sstate := if g.live &&& ~~~g.exited = 0 then .spent else if act < Config.activePerSlice then .active else .pending,
             eng := ⟨2, -8⟩, pre := ⟨2, -8⟩, eff := ⟨2, -8⟩ }

/-- Lanes of group gi that hold a thread (R12). -/
def liveMask (threads gi : Nat) : Lanes := lanesMask ((List.range Config.W).filter fun l => decide (Config.W * gi + l < threads))

/-- A group as its team's commit makes it (R146, R24). -/
def newGroup (l : Launch) (tk gi : Nat) : Group :=
  let m := liveMask (l.tx * l.ty * l.tz) gi
  setPcs { groupReset with team := tk, gidx := gi, live := m, det := l.det, tval := l.toff } m l.entry

/-- A core's constant cache is empty when a team is committed to it, so no word that LDK returns is older than the commit (R262). -/
def emptyConst (s : State) (c : Nat) : State := updCore s c fun x => { x with kcache := [] }

/-- A team takes its cores: every core acquires, and its threads may start (R364, R137). -/
def startTeam (s : State) (tk : Nat) : State :=
  let t := getTeam s tk
  let l := getLaunch s t.launch
  let s := t.cores.foldl emptyConst (t.cores.foldl (acquireFor tk) s)
  let s := updTeam s tk fun t => { t with place := .resident }
  (List.range t.groups).foldl (fun s gi => seatGroup (setGroup s (groupKey tk gi) (newGroup l tk gi)) tk gi) s

/-- A team's entry with its reservation; its threads do not run yet. -/
def reserveTeam (s : State) (lk task : Nat) (cs : List Nat) (gang : Option Nat) : State × Nat :=
  let l := getLaunch s lk
  let tk := s.uid
  let t : Team := { teamReset with launch := lk, task := task, cores := cs, place := .reserved, gang := gang,
                                   groups := groupsOf (l.tx * l.ty * l.tz) }
  (takeSpan (setTeam { s with uid := tk + 1 } tk t) l cs, tk)

/-- Remove a task from the ranges of unplaced teams. -/
def dropTask (rs : List (Nat × Nat)) (task : Nat) : List (Nat × Nat) :=
  rs.flatMap fun r =>
    if r.1 ≤ task && task < r.2 then ([(r.1, task), (task + 1, r.2)].filter fun x => decide (x.1 < x.2)) else [r]

/-- A unit no longer waits. -/
def dropWait (s : State) (key : Nat) : State :=
  if s.cores.any (fun e => e.2.heldTeam.contains key) then
    { s with cores := s.cores.map fun e => (e.1, { e.2 with heldTeam := e.2.heldTeam.filter fun k => k != key }) }
  else s

/-- The spill area of a function (R407): 64 KiB aligned. -/
def spillBase (s : State) (f : Nat) : Nat := (getFunc s f).spillbase.toNat / 65536 * 65536

/-- The bytes of a team's spill image (R407); what cannot be read is zero. -/
def imageBytes (s : State) (tk : Nat) : List Byte :=
  match (getTeam s tk).image with
  | none => []
  | some (ofs, len) =>
    let f := (getLaunch s (getTeam s tk).launch).func
    (List.range len).map fun i => match s2Place s f false (spillBase s f + ofs + i) with
      | some pa => l2Byte s pa
      | none => 0

/-- A team comes back from its spill image, when it has one: groups, scratchpad and tags (R152, R408, R422); `none` when a row's MODE is 5 to 7. -/
def readImage (s : State) (tk : Nat) : Option State :=
  let t := getTeam s tk
  let l := getLaunch s t.launch
  if t.image.isNone then some s
  else (areasBack l ((List.range t.groups).map fun gi => (groupKey tk gi, getGroup s (groupKey tk gi))) (imageBytes s tk)).map fun r =>
    updTeam (r.1.foldl (fun s e => setGroup s e.1 e.2) s) tk (scrBack l.scr r.2)

/-- Convergence registers follow their core's place in the span. -/
def moveConv (old new : List Nat) (k : List (Nat × ConvReg)) : List (Nat × ConvReg) :=
  k.foldl (fun m e => match (old.idxOf? (e.1 / 8)) with
    | some j => tabPut m (8 * (new.getD j 0) + e.1 % 8) e.2
    | none => m) []

/-- The parked elements of a team walk again (R253). -/
def walkTeam (s : State) (tk : Nat) : State :=
  walkAll s (s.elems.filter fun e => (getGroup s e.gkey).team == tk && !hasPlace e &&
    (match e.act with | .engine _ => false | .matrix id => opParked s id | _ => true))

/-- A job whose step waits on a page takes that step again after restoration, and asks anew (R333). -/
def resumeJobs (s : State) (tk : Nat) : State :=
  let jobs := s.mats.filter fun m => m.team == tk && m.job.isSome
  let s := dropElems s fun e => match e.act with | .matrix id => jobs.any (fun m => m.id == id) | _ => false
  { s with mats := s.mats.map fun m => if m.team == tk && m.job.isSome then { m with waits := 0 } else m }

/-- The operations that a team keeps across its absence, jobs and MMAs at which lanes are parked, follow their core's place in the span. -/
def moveOps (tk : Nat) (old new : List Nat) (m : MatOp) : MatOp :=
  if m.team == tk && (m.job.isSome || m.parked) then { m with core := new.getD (old.idxOf m.core) m.core } else m

/-- A pre-empted team starts again on cores reserved for it, with everything as it stood (R408, R255). The release of
its cores' swap begins now, when no spill has begun it (R364). An image with a reserved row MODE
ends the grid as a fatal fault (R422), whose record kind is not given (log entry 45). -/
def restoreInto (s : State) (tk : Nat) (cs : List Nat) : State :=
  let t := getTeam s tk
  let l := getLaunch s t.launch
  match readImage s tk with
  | none =>
    let s := updTeam s tk fun t => { t with cores := cs, place := .resident, image := none }
    let g := getGroup s (groupKey tk 0)
    fatal s t.launch ⟨0, pcOf g 0, l.label, BitVec.ofNat 32 t.task, 0, 0, g.cause, 0, 0, 0x01⟩
  | some s =>
    let s := if t.place == .shadow && t.frees.isNone then (releaseAll s t.cores .dev).1 else s
    let s := { s with cores := s.cores.map fun e => (e.1, { e.2 with shadow := e.2.shadow.filter fun x => x != tk }),
                      mats := s.mats.map (moveOps tk t.cores cs) }
    let s := updTeam (resumeJobs s tk) tk fun x => { x with cores := cs, place := .resident, image := none, frees := none, kreg := moveConv t.cores cs x.kreg }
    let s := cs.foldl emptyConst (cs.foldl (acquireFor tk) s)
    let s := (List.range t.groups).foldl (fun s gi => payDue s (groupKey tk gi)) ((List.range t.groups).foldl (fun s gi => seatGroup s tk gi) s)
    heldReplies (walkTeam s tk) tk

/-- A pre-empted team takes new cores. -/
def restoreTeam (s : State) (tk : Nat) (cs : List Nat) : State := restoreInto (takeSpan s (getLaunch s (getTeam s tk).launch) cs) tk cs

end Sys2Proof.Machine
end

