-- ==== Sys2Proof/Machine/Preempt.lean ====
section
/-! DEFINITION. Teams leaving their cores: pre-emption, bank swap and spill (R406 to R408, R422), and the release of a team that
has ended (R30, R60, R364). -/

namespace Sys2Proof.Machine

/-! ## Who leaves -/

/-- Teams that come and go together: a neighbourhood, or the team alone (R407, R255). -/
def mates (s : State) (tk : Nat) : List Nat :=
  let t := getTeam s tk
  let l := getLaunch s t.launch
  if isNbhd l then
    (s.teams.filter fun e => e.2.launch == t.launch && e.2.task / (l.nw * l.nh) == t.task / (l.nw * l.nh)).map (·.1)
  else [tk]

/-- Mark resident teams, and their neighbourhoods, to leave at their cores' next swap. -/
def markLeaving (s : State) (p : Nat → Team → Bool) : State :=
  let ks := (s.teams.filter fun e => e.2.place == .resident && p e.1 e.2).flatMap fun e => mates s e.1
  { s with teams := s.teams.map fun e =>
      if ks.contains e.1 && e.2.place == .resident then (e.1, { e.2 with leaving := true }) else e }

/-- A priority-7 launch has been accepted: every resident team below priority 7 leaves (R406). -/
def urgentPreempt (s : State) : State := markLeaving s fun _ t => decide ((getLaunch s t.launch).pri < 7)

/-- Resident teams of a function. -/
def funcTeam (s : State) (f : Nat) (t : Team) : Bool := (getLaunch s t.launch).func == f

/-! ## The swap of the banks -/

/-- The record of a precise stop names a thread, its program counter and its lane alone (R422, R419). -/
def stopRecord (s : State) (tk tid : Nat) : State :=
  let t := getTeam s tk
  let l := getLaunch s t.launch
  let g := getGroup s (groupKey tk (tid / Config.W))
  let time := Config.clockAt s.fresh
  traceWrite { s with fresh := s.fresh + 1 } l.func fun seq =>
    traceBytes time (pcOf g (tid % Config.W)) l.label t.task (tid / Config.W) (2 ^ (tid % Config.W)) 0 0x03 l.func seq

/-- A team's stop record that is due. -/
def dueStop (s : State) (tk : Nat) : State :=
  match (getTeam s tk).stopTid with
  | some tid => updTeam (stopRecord s tk tid) tk fun t => { t with stopTid := none }
  | none => s

/-- The cores and teams that swap together with a core. -/
def swapSet (s : State) : Nat → List Nat → List Nat × List Nat
  | 0, cs => (cs, [])
  | fuel + 1, cs =>
    let ts := (s.teams.filter fun e => e.2.leaving && e.2.place == .resident && e.2.cores.any fun c => cs.contains c).flatMap fun e => mates s e.1
    let ts := (ts.filter fun k => (getTeam s k).place == .resident).eraseDups
    let more := (cs ++ ts.flatMap fun k => (getTeam s k).cores).eraseDups
    if more.length = cs.length then (cs, ts) else swapSet s fuel more

/-- A group leaves its slot with everything it holds; when it resumes, its outstanding results come first, as after a marker
(R118); they stay with the core that issued them. -/
def leaveSlot (g : Group) : Group :=
  let left := g.slot.map fun x => (x / Config.slotsPerCore, g.nextSeq)
  { g with
    slot := none, yields := false, sstate := .pending, mark := !g.outs.isEmpty,
    away := match g.away with
      | some (c, n) => if !g.outs.isEmpty && g.outs.all fun o => decide (o.seq < n) then some (c, n) else left
      | none => left }

/-- A job stops after its step in flight: its pins and granules go, and it reads its operands again when it resumes (R333). -/
def pauseJob (ts : List Nat) (m : MatOp) : MatOp := if ts.contains m.team && m.job.isSome then { m with chunks := [], tags := [] } else m

/-- What teams hold of a core, together. -/
def spanNeeds (s : State) (c : Nat) (ts : List Nat) : Nat × Nat × Nat × Nat :=
  ts.foldl (fun n tk =>
    let x := needOf (getLaunch s (getTeam s tk).launch) ((getTeam s tk).cores.idxOf c)
    (n.1 + x.slots, n.2.1 + x.vregs, n.2.2.1 + x.accs, n.2.2.2 + x.scr)) (0, 0, 0, 0)

/-- The banks of these cores exchange in one cycle: signatures fall, and the teams leave (R407, R332). The release of R364 comes when the
accesses of the teams that left have been performed, before the spill. -/
def swapBanks (s : State) (cs ts : List Nat) : State :=
  let s := cs.foldl cancelSigns { s with mats := s.mats.map (pauseJob ts) }
  let s := ts.foldl (fun s tk =>
    let s := (List.range (getTeam s tk).groups).foldl (fun s gi => updGroup s (groupKey tk gi) leaveSlot) s
    dueStop (updTeam s tk fun t => { t with place := .shadow, leaving := false, frees := none }) tk) s
  cs.foldl (fun s c =>
    let mine := ts.filter fun tk => (getTeam s tk).cores.contains c
    if mine.isEmpty then s
    else updCore s c fun x => { x with swapAt := some (s.now + 96), swapBack := spanNeeds s c mine, shadow := mine }) s

/-- A core may swap: no team's context is left in its shadow bank, nor a swap under way. -/
def bankFree (s : State) (c : Nat) : Bool := (getCore s c).shadow.isEmpty && (getCore s c).swapAt.isNone

def execCoreSwap (core : Nat) (s : State) : Outcome :=
  .next (
    let x := swapSet s Config.cores [core]
    if x.2.isEmpty || !x.1.all (bankFree s) then s else swapBanks s x.1 x.2)

/-- At c0 + 96 the core returns what its departed teams held (R407, R60). -/
def execSwapComplete (core : Nat) (s : State) : Outcome :=
  .next (match (getCore s core).swapAt with
  | some t =>
    if s.now < t then s
    else
      let b := (getCore s core).swapBack
      giveCore (updCore s core fun x => { x with swapAt := none, swapBack := (0, 0, 0, 0) }) core ⟨b.1, b.2.1, b.2.2.1, b.2.2.2⟩
  | none => s)

/-! ## Switched-off regions -/

/-- The core of a gang's rectangle for a team that is to return: column i mod NW, row i div NW for index i (R18). -/
def gangCore (s : State) (g : Gang) (tk : Nat) : Nat := g.cores.getD ((getTeam s tk).task % max 1 g.cores.length) 0

/-- Cores on which a gang has reserved. -/
def gangCores (s : State) : List Nat := match s.gang with | some g => g.spots | none => []

/-- A core's region whose GATE is set switches off once no context stands on it (R92). -/
def gateIdle (s : State) (c : Nat) : State :=
  let r := getRegion s c
  if c < 192 && r.gate && !r.gated && !(s.teams.any fun e => e.2.place == .resident && e.2.cores.contains c) &&
      !(gangCores s).contains c && (getCore s c).shadow.isEmpty then
    { s with supply := { s.supply with regions := tabPut s.supply.regions c { r with gated := true, stage := 0, waking := false } } }
  else s

/-- Every core that can switch off does. -/
def gateAll (s : State) : State := s.supply.regions.foldl (fun (s : State) (e : Nat × Region) => gateIdle s e.1) s

/-! ## Spilling -/

/-- The bytes of a team's image: its group areas, each at its group's effort (R151, R152), then its scratchpad and a byte for the layout tag
of each granule (R407, R408; log entry 46). -/
def teamImage (s : State) (tk : Nat) : List Byte :=
  let t := getTeam s tk
  let l := getLaunch s t.launch
  ((List.range t.groups).flatMap fun gi =>
    let g := getGroup s (groupKey tk gi)
    groupArea t.task g.eff.cur l.sregs l.vregs l.accs g) ++
  ((List.range (1024 * l.scr)).map fun a => scrByte s tk a) ++
  (List.range l.scr).map fun k => BitVec.ofNat 8 (scrTag s tk k).toNat

/-- The lowest place in a function's spill area for `n` bytes, clear of its other teams' images (log entry 46). -/
def spillPlace (s : State) (f n : Nat) : Option Nat :=
  let used := (s.teams.filter fun e => funcTeam s f e.2).filterMap fun e => e.2.image
  let free := fun o => decide (o + n ≤ (getFunc s f).spilllen.toNat) && used.all fun u => decide (o + n ≤ u.1) || decide (u.1 + u.2 ≤ o)
  (sortBy id (0 :: used.map fun u => u.1 + u.2)).find? free

/-- What a team still has in flight that its spill must wait for (R275, R118). A fence has no result of its own, and an MMA at which its
lanes are parked is saved with them (R253); a replayed access that has its place is to come. -/
def spillWaits (s : State) (tk : Nat) : Bool :=
  s.elems.any (fun e => hasPlace e && (getGroup s e.gkey).team == tk) || s.cmds.any (fun c => c.team == tk) || s.mats.any (fun m => m.team == tk && m.job.isNone && !m.parked) ||
  s.groups.any fun e => e.2.team == tk && e.2.outs.any fun o => !holds o && (match o.work with
    | .launch _ _ => false | .fence _ => false | .fenceOpnd => false | _ => true)

/-- The spill of one team: its image in memory, or the end of its grid when there is no room (R407). -/
def spillTeam (s : State) (tk : Nat) : State :=
  let t := getTeam s tk
  let l := getLaunch s t.launch
  let bs := teamImage s tk
  let n := (bs.length + 4095) / 4096 * 4096
  let s := { s with cores := s.cores.map fun e => (e.1, { e.2 with shadow := e.2.shadow.filter fun x => x != tk }) }
  let pages := fun o => (List.range (n / 4096)).map fun i => s2Place s l.func true (spillBase s l.func + o + 4096 * i)
  match spillPlace s l.func n with
  | some o =>
    if (pages o).any (·.isNone) then
      fatal s t.launch ⟨0, 0, l.label, BitVec.ofNat 32 t.task, 0, 0, 0, 0, 0, 0x08⟩
    else
      let s := (List.range (n / 4096)).foldl (fun s i =>
        match (pages o).getD i none with
        | some pa => sysPut s pa ((bs.drop (4096 * i)).take 4096)
        | none => s) s
      updTeam s tk fun t => { t with place := .spilled, image := some (o, n), frees := none }
  | none => fatal s t.launch ⟨0, 0, l.label, BitVec.ofNat 32 t.task, 0, 0, 0, 0, 0, 0x08⟩

/-- The cores of the teams in a shadow bank begin their release at .dev (R364, R407). -/
def spillRelease (s : State) (ts : List Nat) : State :=
  let r := releaseAll s (ts.flatMap fun tk => (getTeam s tk).cores).eraseDups .dev
  ts.foldl (fun s tk => updTeam s tk fun t => { t with frees := some r.2 }) r.1

/-- The spill of a core's shadow bank: the release of the teams' cores begins, and once it has completed the teams are spilled. -/
def spillCore (s : State) (core : Nat) : State :=
  let x := getCore s core
  if x.swapAt.isSome || x.shadow.any (fun tk => spillWaits s tk || (getTeam s tk).cores.any fun c => (getCore s c).swapAt.isSome) then s
  else if x.shadow.any fun tk => (getTeam s tk).frees.isNone then spillRelease s x.shadow
  else if x.shadow.all fun tk => relsOver s ((getTeam s tk).frees.getD []) then x.shadow.foldl spillTeam s
  else s

def execSpillComplete (core : Nat) (s : State) : Outcome := .next (spillCore s core)

/-! ## The release of an ended team, R30, R60, R364, R405 -/

/-- Every thread of the team has exited. -/
def teamExited (s : State) (tk : Nat) : Bool :=
  (List.range (getTeam s tk).groups).all fun gi =>
    let g := getGroup s (groupKey tk gi)
    g.live &&& ~~~g.exited = 0

/-- The team's place is being reserved by the gang. -/
def inGang (s : State) (tk : Nat) : Bool := match s.gang with | some g => g.teams.contains tk | none => false

/-- The team has nothing more to do: its threads have exited, its grid has been ended, or it is cancelled (R69). -/
def teamEnded (s : State) (tk : Nat) : Bool :=
  let t := getTeam s tk
  t.place != .reserved && !inGang s tk &&
  ((t.place == .resident && teamExited s tk) || t.cancelled || gridEnded (getLaunch s t.launch)) && t.cores.all fun c => (getCore s c).swapAt.isNone

/-- Operations of a team that must still reach their completion points (R184, R405): accesses, commands and matrix operations. A job of
a team off its cores is discarded with the context, and so are lanes parked at an MMA when their grid has ended. -/
def teamBusy (s : State) (tk : Nat) : Bool :=
  let t := getTeam s tk
  s.cmds.any (fun c => c.team == tk) ||
  s.mats.any (fun m => m.team == tk && (m.job.isNone || t.place == .resident) && !(m.parked && gridEnded (getLaunch s t.launch))) ||
  s.groups.any (fun e => e.2.team == tk && e.2.outs.any fun o => (isAccess o || (match o.work with | .launch _ _ | .release _ _ | .phsync _ _ false => true | _ => false)) &&
    placed o) ||
  (!gridEnded (getLaunch s t.launch) && s.elems.any fun e => (getGroup s e.gkey).team == tk)

/-- Everything that belongs to the team's contexts goes. -/
def forgetGroups (s : State) (tk : Nat) : State :=
  let mine := fun gk => (getGroup s gk).team == tk && (tabFind s.groups gk).isSome
  { s with elems := s.elems.filter fun e => !mine e.gkey,
           cmds := s.cmds.filter fun c => c.team != tk,
           mats := s.mats.filter fun m => m.team != tk,
           signs := s.signs.filter fun x => !mine x.gkey,
           recs := s.recs.filter fun r => match r.held with | some (gk, _) => !mine gk | none => true,
           groups := s.groups.filter fun e => e.2.team != tk }

/-- The team goes, with its contexts. -/
def forgetTeam (s : State) (tk : Nat) : State :=
  let s := forgetGroups s tk
  { s with teams := s.teams.filter fun e => e.1 != tk,
           cores := s.cores.map fun e => (e.1, { e.2 with shadow := e.2.shadow.filter fun x => x != tk }) }

/-- The team's release is over: its resources return, and its grid counts it (R415). -/
def teamGone (s : State) (tk : Nat) : State :=
  let t := getTeam s tk
  let gone := t.place == .resident && t.groups != 0 && teamExited s tk
  let s := if t.place == .resident then giveSpan s (getLaunch s t.launch) t.cores else s
  updLaunch (forgetTeam s tk) t.launch fun l => { l with exited := if gone then l.exited + 1 else l.exited }

/-- The team's last thread has exited: its cores begin their release at .sys, and the team goes once that has completed. -/
def releaseTeam (s : State) (tk : Nat) : State :=
  let t := getTeam s tk
  match t.frees with
  | none =>
    if t.place == .resident then
      let r := releaseAll s (t.cores.filter fun c => !coreDark s c) .sys
      updTeam r.1 tk fun t => { t with frees := some r.2 }
    else teamGone s tk
  | some ids => if relsOver s ids then teamGone s tk else s

def execTeamRelease (team : Nat) (s : State) : Outcome :=
  .next (if (tabFind s.teams team).isSome && teamEnded s team && !teamBusy s team then releaseTeam s team else s)

end Sys2Proof.Machine
end

