-- ==== Sys2Proof/Machine/Graph.lean ====
section
/-! DEFINITION. Resident graphs (R45 to R54): nodes, arrivals, runs, the validation of an image, and their events. -/

namespace Sys2Proof.Machine

/-! ## Nodes, R47 -/

def nodeAt (s : State) (g n : Nat) : Nat := (tabGet 0#512 s.store ((getGraph s g).gbase + n)).toNat
def nodeType (x : Nat) : Nat := bitsOf x 7 0
def nodePred (x : Nat) : Nat := bitsOf x 15 8
def nodeNA (x : Nat) : Nat := bitsOf x 19 16
def nodeNB (x : Nat) : Nat := bitsOf x 23 20
def nodeBack (x i : Nat) : Bool := x.testBit (24 + i)
def nodeCount (x : Nat) : Nat := bitsOf x 63 32
def nodeSucc (x i : Nat) : Nat := x / 2 ^ (64 + 16 * i) % 2 ^ 16
def nodeAddr (x : Nat) : DWord := BitVec.ofNat 64 (bitsOf x 319 256)
def nodeIrq (x : Nat) : Bool := x.testBit 320
def nodeValue (x : Nat) : Nat := bitsOf x 383 352

/-- Positions of list A and of list B. -/
def listA (x : Nat) : List Nat := List.range (nodeNA x)
def listB (x : Nat) : List Nat := (List.range (nodeNB x)).map (· + nodeNA x)
def listAll (x : Nat) : List Nat := List.range (nodeNA x + nodeNB x)

/-! ## Arrivals and runs, R50 to R52 -/

def nodeReset : NodeRun := ⟨0, false, 0, false, 0⟩
def getNode (x : Graph) (n : Nat) : NodeRun := tabGet nodeReset x.prog n
def setNode (x : Graph) (n : Nat) (r : NodeRun) : Graph := { x with prog := tabPut x.prog n r }

/-- An arrival at a node: each back arrival makes a LOOP decide again; the last forward arrival makes the node ready. -/
def arrive (s : State) (g n : Nat) (back run : Bool) : State :=
  updGraph s g fun x =>
    let r := getNode x n
    setNode x n (
      if back then { r with back := r.back + 1 }
      else { r with fwd := r.fwd + 1, ran := r.ran || run, ready := r.ready || decide (r.fwd + 1 = nodePred (nodeAt s g n)) })

/-- Send arrivals along edges: targets, and which are back edges. -/
def sendAlong (s : State) (g : Nat) (es : List (Nat × Bool)) (run : Bool) : State := es.foldl (fun s e => arrive s g e.1 e.2 run) s

/-- The edges at these positions of a node. -/
def nodeEdges (x : Nat) (is : List Nat) : List (Nat × Bool) := is.map fun i => (nodeSucc x i, nodeBack x i)

/-- Send arrivals to the successors at these positions of a node. -/
def sendTo (s : State) (g n : Nat) (is : List Nat) (run : Bool) : State := sendAlong s g (nodeEdges (nodeAt s g n) is) run

/-- The node has something to do: it is ready, or a back arrival waits for its decision. -/
def nodeDue (r : NodeRun) : Bool := r.ready || decide (0 < r.back)

/-- A node that fires on its forward arrivals forgets them; else it takes one back arrival (R50, R51). -/
def nodeFired (r : NodeRun) : NodeRun :=
  if r.ready then { r with fwd := 0, ran := false, ready := false } else { r with back := r.back - 1 }

/-- The packet of a queue has retired. -/
def packetRetire (s : State) (p : Option (Nat × Nat)) : State :=
  match p with
  | some (q, tok) => updQueue s q fun x => { x with open' := x.open'.filter fun t => t != tok }
  | none => s

/-- A run completes when no node is ready, or none may fire any more, and no launch of it is outstanding (R52, R53). -/
def runDone (s : State) (g : Nat) : State :=
  let x := getGraph s g
  match x.run with
  | some r =>
    if x.flying = 0 && (x.abandoned || !x.prog.any fun e => nodeDue e.2) then
      packetRetire (setGraph s g { x with run := none, prog := [], abandoned := false }) r.packet
    else s
  | none => s

/-- The next pending run starts; a run of an invalid graph does nothing and sets IGN (R48, R50, R54). -/
def runStart (s : State) (g : Nat) : State :=
  let x := getGraph s g
  match x.run, x.pend with
  | none, r :: rest =>
    if (getFunc s x.gown).freezing then s
    else if x.err ≠ 0 then packetRetire (setGraph s g { x with pend := rest, ign := true }) r.packet
    else
      let ready := (List.range x.nodes).filter fun n => nodePred (nodeAt s g n) = 0
      runDone (setGraph s g { x with pend := rest, run := some r, abandoned := false, flying := 0,
                                     prog := ready.map fun n => (n, { nodeReset with ready := true }) }) g
  | _, _ => s

def execGraphRunStart (g : Nat) (s : State) : Outcome := .next (runStart s g)

/-- Fire a node of one type in the graph's run: as a skip to every successor when its arrivals were all skips, else by `f` (R50). A LOOP
that is not ready decides on a back arrival (R51); a node of another type has no use for one. -/
def fireNode (s : State) (g n ty : Nat) (f : State → Nat → State) : State :=
  let x := getGraph s g
  let r := getNode x n
  let w := nodeAt s g n
  if x.run.isSome && !x.abandoned && decide (n < x.nodes) && nodeDue r && nodeType w == ty then
    let s := setGraph s g (setNode x n (nodeFired r))
    runDone (
      if r.ready && decide (0 < r.fwd) && !r.ran then sendTo s g n (listAll w) false
      else if r.ready || ty == 0x11 then f s w
      else s) g
  else s

/-- A bad node address: the run is abandoned and a record names the node (R53). -/
def nodeBad (s : State) (g n : Nat) (a : DWord) : State :=
  let s := updGraph s g fun x => { x with abandoned := true, abn := true }
  fatalRecord s (getGraph s g).gown none ⟨a, 0, 0, 0, 0, 0, 0, BitVec.ofNat 64 (g % 1024 + n % 2 ^ 16 * 2 ^ 16), 0, 0x0A⟩

def execGraphNodeNop (g n : Nat) (s : State) : Outcome :=
  .next (fireNode s g n 0x00 fun s w => sendTo s g n (listA w) true)

/-- A LAUNCH node hands its record over; its arrivals are sent along its list A, as it stands now, when that launch retires (R45, R50,
R52). -/
def nodeLaunch (s : State) (g n w : Nat) : State :=
  let x := getGraph s g
  let pri := (x.run.map (·.pri)).getD 0
  let r := handLaunch s (.node g n (nodeEdges w (listA w))) x.gown x.pasid.toNat pri 1 false (nodeAddr w)
  updGraph r.1 g fun x => { x with flying := x.flying + 1 }

def execGraphNodeLaunch (g n : Nat) (s : State) : Outcome := .next (fireNode s g n 0x01 fun s w => nodeLaunch s g n w)

/-- A front-end word at an address of a graph's function, aligned and reachable (R53, R26). -/
def nodePlace (s : State) (g : Nat) (k : AccKind) (a : DWord) : Option Nat :=
  let x := getGraph s g
  if a.toNat % 8 ≠ 0 then none else frontPlace s x.gown x.pasid.toNat k a.toNat

def nodeMark (s : State) (g n w : Nat) : State :=
  let x := getGraph s g
  match nodePlace s g .write (nodeAddr w) with
  | none => nodeBad s g n (nodeAddr w)
  | some pa =>
    let s := sysPut s pa (leBytes 8 (nodeValue w))
    let s := if nodeIrq w then signal s x.gown x.gvec.toNat else s
    sendTo s g n (listA w) true

def execGraphNodeMark (g n : Nat) (s : State) : Outcome := .next (fireNode s g n 0x06 fun s w => nodeMark s g n w)

/-- A front-end read at system scope: host bytes that are not dirty at L2 come from the host (R438). -/
def sysByte (s : State) (pa : Nat) : Byte :=
  if hostBacked pa then (match tabFind s.l2 pa with | some (true, b) => b | _ => memRead s.mem pa) else l2Byte s pa

def sysWord (s : State) (pa : Nat) : Nat := leNat ((List.range 8).map fun i => sysByte s (pa + i))

def nodeCond (s : State) (g n w : Nat) : State :=
  match nodePlace s g .read (nodeAddr w) with
  | none => nodeBad s g n (nodeAddr w)
  | some pa =>
    let t := sysWord s pa ≠ 0
    sendTo (sendTo s g n (listA w) (decide t)) g n (listB w) (decide ¬t)

def execGraphNodeCond (g n : Nat) (s : State) : Outcome := .next (fireNode s g n 0x10 fun s w => nodeCond s g n w)

/-- A LOOP node decides (R51): on its forward arrivals it fires, its CADDR is checked whatever it counts (R53), and the counter starts
at 0. One that counts loads nothing from there. -/
def nodeLoop (s : State) (g n w : Nat) (back : Bool) : State :=
  let x := getGraph s g
  let r := getNode x n
  let i := if back then r.iter else 0
  let go : Option Bool :=
    if nodeCount w ≠ 0 then
      (if back then some 0 else nodePlace s g .read (nodeAddr w)).map fun _ => decide (i < nodeCount w)
    else (nodePlace s g .read (nodeAddr w)).map fun pa => decide (sysWord s pa ≠ 0)
  match go with
  | none => nodeBad s g n (nodeAddr w)
  | some true => sendTo (setGraph s g (setNode x n { r with iter := i + 1 })) g n (listA w) true
  | some false => sendTo (setGraph s g (setNode x n { r with iter := i })) g n (listB w) true

def execGraphNodeLoop (g n : Nat) (s : State) : Outcome :=
  .next (fireNode s g n 0x11 fun t w => nodeLoop t g n w (!(getNode (getGraph s g) n).ready))

/-! ## Triggers and configuration -/

def execGtrigStore (func g : Nat) (v : DWord) (s : State) : Outcome := .next (openWrite s func (gtrigStore s func g v))

/-- A GCFG or GPASID write by the physical function while the graph is idle (R45). -/
def graphConfig (s : State) (func g : Nat) (pasid : Bool) (v : DWord) : State :=
  let x := getGraph s g
  if func = 0 && decide (g < Config.graphs) && x.run.isNone && x.pend.isEmpty then
    if pasid then setGraph s g { x with pasid := v.extractLsb' 0 20 }
    else
      let own := (v.extractLsb' 48 6).toNat
      let base := (v.extractLsb' 32 16).toNat
      let len := v.extractLsb' 0 17
      let len : BitVec 17 := if len.toNat > 65536 then 65536#17 else len
      setGraph s g { x with gpri := v.extractLsb' 56 3, gown := own, gbase := base, gvec := v.extractLsb' 24 6, glen := len.toNat,
                            err := if own = x.gown ∧ base = x.gbase ∧ len.toNat = x.glen then x.err else 0xF }
  else s

def execGraphConfigWrite (func g : Nat) (pasid : Bool) (v : DWord) (s : State) : Outcome := .next (openWrite s func (graphConfig s func g pasid v))

/-! ## Validation of an image, R48, R49 -/

/-- Forward and back edges of an image: source, position, target. -/
def imageEdges (ns : List Nat) (back : Bool) : List (Nat × Nat × Nat) :=
  (List.range ns.length).flatMap fun n =>
    let x := ns.getD n 0
    ((listAll x).filter fun i => nodeBack x i == back).map fun i => (n, i, nodeSucc x i)

/-- Nodes reached from a set along edges, in at most `fuel` rounds. -/
def reachOf (es : List (Nat × Nat)) : Nat → List Nat → List Nat
  | 0, a => a
  | fuel + 1, a =>
    let more := ((es.filter fun e => a.contains e.1).map (·.2)).filter fun n => !a.contains n
    if more.isEmpty then a else reachOf es fuel (a ++ more.eraseDups)

/-- Nodes left when nodes without incoming edges are removed again and again: none, when the edges form no cycle. -/
def cycleRest (es : List (Nat × Nat)) : Nat → List Nat → List Nat
  | 0, a => a
  | fuel + 1, a =>
    let free := a.filter fun n => !(es.any fun e => e.2 == n && a.contains e.1)
    if free.isEmpty then a else cycleRest es fuel (a.filter fun n => !free.contains n)

/-- The body of a LOOP node: the nodes that its list A leads to along forward edges, and from which forward edges, and the back edges of
the loops inside, lead to one of its own back edges (log entry 47). -/
def loopBody (ns : List Nat) (fwd : List (Nat × Nat)) (backs : List (Nat × Nat)) (n : Nat) : List Nat :=
  let x := ns.getD n 0
  let starts := ((listA x).filter fun i => !nodeBack x i).map (nodeSucc x)
  let ahead := reachOf fwd ns.length starts.eraseDups
  let inner := backs.filter fun e => ahead.contains e.2
  let home := reachOf ((fwd ++ inner).map fun e => (e.2, e.1)) ns.length ((backs.filter fun e => e.2 == n).map (·.1)).eraseDups
  ahead.filter fun m => home.contains m

/-- The ERR code of an image (R49): the first check that fails. -/
def imageErr (base len nodes : Nat) (ns : List Nat) : Nat :=
  let types := [0x00, 0x01, 0x06, 0x10, 0x11]
  let fwd := (imageEdges ns false).map fun e => (e.1, e.2.2)
  let backs := (imageEdges ns true).map fun e => (e.1, e.2.2)
  if 65536 < base + len then 0xE
  else if len < nodes then 0x1
  else if ns.any fun x => !types.contains (nodeType x) then 0x2
  else if ns.any fun x => decide (6 < nodeNA x + nodeNB x) then 0x3
  else if ns.any fun x => nodeNB x != 0 && !(nodeType x == 0x10 || nodeType x == 0x11) then 0x4
  else if ns.any fun x => (listAll x).any fun i => decide (nodes ≤ nodeSucc x i) then 0x5
  else if backs.any fun e => nodeType (ns.getD e.2 0) != 0x11 then 0x6
  else if (List.range ns.length).any fun n => nodePred (ns.getD n 0) != (fwd.filter fun e => e.2 == n).length then 0x7
  else if !(cycleRest fwd ns.length (List.range ns.length)).isEmpty then 0x8
  else if (List.range ns.length).any fun n => nodeType (ns.getD n 0) == 0x11 &&
      (let b := loopBody ns fwd backs n
       fwd.any fun e => b.contains e.1 && !b.contains e.2) then 0x9
  else 0

/-- An image is loaded or rejected (R48): the store changes only on acceptance. -/
def loadImage (s : State) (g nodes : Nat) (ns : List Nat) : State :=
  let x := getGraph s g
  let err := imageErr x.gbase x.glen nodes ns
  if err = 0 then
    let s := { s with store := (List.range ns.length).foldl (fun m i => tabPut m (x.gbase + i) (BitVec.ofNat 512 (ns.getD i 0))) s.store }
    setGraph s g { x with err := 0, ign := false, lost := false, abn := false, nodes := nodes }
  else setGraph s g { x with err := BitVec.ofNat 4 err }

end Sys2Proof.Machine
end

