-- ==== Sys2Proof/Machine/Launch.lean ====
section
/-! DEFINITION. Acceptance of launches (R23 to R26, R31, R406, R423) and retirement of grids (R29, R42, R415). -/

namespace Sys2Proof.Machine

/-! ## Tokens, R42 -/

/-- Add tokens to a crossing, saturating. -/
def addTokens (s : State) (x n : Nat) : State :=
  updXing s x fun c =>
    let t := c.tokens.toNat + n
    { c with tokens := BitVec.ofNat 32 (min t (2 ^ 32 - 1)), ovf := c.ovf || decide (2 ^ 32 ≤ t) }

/-! ## Retirement -/

/-- A failed descendant is noted in every ancestor: DFAIL, and the first label of one whose STATUS is not 0 (R31, R415). -/
def noteFailed (s : State) (label : DWord) : Nat → Nat → State
  | 0, _ => s
  | fuel + 1, lk =>
    match (getLaunch s lk).origin with
    | .thread p _ _ =>
      noteFailed (updLaunch s p fun l => { l with dfail := true, dlabel := some (l.dlabel.getD label) }) label fuel p
    | _ => s

/-- The 64 bytes of a completion record (R415). -/
def completionBytes (l : Launch) (status : Nat) (tend : DWord) : List Byte :=
  leBytes 8 (status + (if l.dfail then 2 ^ 8 else 0) + (if l.replay then 2 ^ 9 else 0)) ++ leBytes 8 0 ++ leBytes 8 0 ++
  leBytes 4 (min l.childAcc (2 ^ 32 - 1)) ++ leBytes 4 (min l.exited (2 ^ 32 - 1)) ++
  leBytes 8 (if l.det then 0 else l.tstart.toNat) ++ leBytes 8 (if l.det then 0 else tend.toNat) ++
  leBytes 8 l.label.toNat ++ leBytes 8 (l.dlabel.getD 0).toNat

/-- What the retirement of a launch gives back to its origin: the packet retires and its tokens are added, the node's arrival is
sent, the thread's and its grid's counts of children fall (R29, R42, R50, R383). -/
def retireOrigin (s : State) (lk : Nat) : State :=
  match (getLaunch s lk).origin with
  | .packet q tok xing count =>
    let s := packetRetire s (some (q, tok))
    if count = 0 then s else addTokens s xing count
  | .node g _ succ =>
    let s := updGraph s g fun x => { x with flying := x.flying - 1 }
    runDone (if (getGraph s g).abandoned then s else sendAlong s g succ true) g
  | .thread p team thread =>
    let s := updLaunch s p fun l => { l with childLive := l.childLive - 1 }
    match tabFind s.teams team with
    | some _ => updTeam s team fun t => { t with children := tabUpd 0 t.children thread (· - 1) }
    | none => s

/-- A launch leaves the device. -/
def dropLaunch (s : State) (lk : Nat) : State :=
  let s := retireOrigin (updLaunch s lk fun l => { l with stage := .retired }) lk
  { s with launches := s.launches.filter fun e => e.1 != lk }

/-- A record of the launch's end waits for a slot of its lane (R404). -/
def recWaits (s : State) (lk : Nat) : Bool := s.recs.any fun r => r.launch == some lk

/-- The record that takes the place of a completion record (R26). The launch retires once it is written, as a failed descendant of its
ancestors. -/
def closeLaunch (s : State) (lk : Nat) : State :=
  if recWaits s lk then updLaunch s lk fun l => { l with stage := .accepted, closing := true }
  else dropLaunch (noteFailed s (getLaunch s lk).label 11 lk) lk

/-- The completion record, or the record that takes its place when DONE cannot be written (R26); the launch then retires with
status `status`. -/
def retireLaunch (s : State) (lk : Nat) (status : Nat) (written : Bool) : State :=
  let l := getLaunch s lk
  let tend := Config.clockAt s.fresh
  let s := if l.det then s else { s with fresh := s.fresh + 1 }
  let place := if l.done.toNat % 64 ≠ 0 || !written then none else frontPlace s l.func l.pasid .write l.done.toNat
  match place with
  | some pa =>
    let s := actsFor s lk fun s => sysPut s pa (completionBytes l status tend)
    dropLaunch (if status ≠ 0 then noteFailed s l.label 11 lk else s) lk
  | none => closeLaunch (fatalRecord s l.func (some lk) ⟨l.done, 0, l.label, 0, 0, 0, 0, 0, 0, 0x09⟩) lk

/-- A launch whose record cannot be read retires with no completion record (R26). -/
def retireLost (s : State) (lk : Nat) : State :=
  let l := getLaunch s lk
  closeLaunch (fatalRecord s l.func (some lk) ⟨l.recAddr, 0, 0, 0, 0, 0, 0, 1, 0, 0x09⟩) lk

/-- A grid has nothing left: no team placed or to place, no live child, no record of its end still waiting (R29, R404). -/
def gridDone (s : State) (lk : Nat) : Bool :=
  let l := getLaunch s lk
  l.stage == .accepted && l.frozen.isNone && l.unplaced.isEmpty && decide (l.childLive = 0) &&
    !s.teams.any (fun e => e.2.launch == lk) && !recWaits s lk

/-- The grid can retire now. One under replay does not until its last pass (R424). -/
def retireDue (s : State) (lk : Nat) : Bool := (tabFind s.launches lk).isSome && gridDone s lk && s.obs.rlaunch != some lk

/-- A grid retires; one that waited for the record of its end alone is closed (R26). -/
def gridRetire (s : State) (lk : Nat) : State :=
  if retireDue s lk then
    if (getLaunch s lk).closing then closeLaunch s lk else retireLaunch s lk (getLaunch s lk).fate.toNat true
  else s

def execGridRetire (grid : Nat) (s : State) : Outcome := .next (gridRetire s grid)

/-! ## Acceptance -/

/-- Every page of a range is reachable for the front end. -/
def frontRange (s : State) (f p : Nat) (k : AccKind) (va n : Nat) : Bool :=
  (List.range ((va % 4096 + n + 4095) / 4096)).all fun i =>
    (frontPlace s f p k (if i = 0 then va else va / 4096 * 4096 + 4096 * i)).isSome

/-- What the record names, before its descriptor is read (R23). -/
def withRecord (l : Launch) (r : Nat) : Launch :=
  { l with
    kdesc := BitVec.ofNat 64 (bitsOf r 63 0), args := BitVec.ofNat 64 (bitsOf r 127 64), done := BitVec.ofNat 64 (bitsOf r 191 128)
    seed := BitVec.ofNat 64 (bitsOf r 255 192), label := BitVec.ofNat 64 (bitsOf r 383 320)
    handler := if bitsOf r 319 256 = 0 then none else some (BitVec.ofNat 64 (bitsOf r 319 256))
    gx := bitsOf r 415 384, gy := bitsOf r 447 416, gz := bitsOf r 479 448
    tx := bitsOf r 495 480, ty := bitsOf r 511 496, tz := bitsOf r 527 512
    shape := bitsOf r 530 528, nw := bitsOf r 535 532, nh := bitsOf r 539 536
    det := l.det || r.testBit 540, ctoll := r.testBit 541, toff := toSigned 9 (bitsOf r 552 544) }

/-- A descriptor's fields (R21, R24). -/
def withDesc (l : Launch) (d : Nat) (consts : List Word) : Launch :=
  { l with
    entry := l.kdesc + BitVec.ofNat 64 (bitsOf d 63 0)
    handler := match l.handler with
      | some h => some h
      | none => if bitsOf d 127 64 = 0 then none else some (l.kdesc + BitVec.ofNat 64 (bitsOf d 127 64))
    vregs := bitsOf d 136 128, sregs := bitsOf d 145 137, accs := bitsOf d 152 146, scr := bitsOf d 171 160, nbhd := bitsOf d 180 172
    det := l.det || d.testBit 184, consts := consts }

/-- Descriptor fields in range (status 0x02 of R25). -/
def descOk (d : Nat) : Bool :=
  let v := bitsOf d 136 128
  let sr := bitsOf d 145 137
  decide (8 ≤ v) && decide (v ≤ 256) && decide (v % 8 = 0) && decide (sr ≤ 256) && decide (sr % 8 = 0) &&
  decide (bitsOf d 152 146 ≤ 64) && decide (bitsOf d 171 160 ≤ 1536) && decide (bitsOf d 180 172 ≤ 384) &&
  decide (bitsOf d 180 172 ≤ bitsOf d 171 160) && decide (bitsOf d 63 0 % 8 = 0) && decide (bitsOf d 127 64 % 8 = 0) &&
  decide (bitsOf d 303 240 % 4 = 0)

/-- Team and grid shape (status 0x03). -/
def shapeOk (l : Launch) (d : Nat) : Bool :=
  let decl := fun (t x : Nat) => decide (t = 0) || decide (t = x)
  decide (l.tx ≠ 0) && decide (l.ty ≠ 0) && decide (l.tz ≠ 0) && decide (l.tx * l.ty * l.tz ≤ 3072) &&
  decl (bitsOf d 207 192) l.tx && decl (bitsOf d 223 208) l.ty && decl (bitsOf d 239 224) l.tz &&
  decide (l.gx * l.gy * l.gz ≤ 2 ^ 32)

/-- Neighbourhood fields (status 0x04, R17); `span` is the record's SPAN. -/
def nbhdOk (l : Launch) (span : Nat) : Bool :=
  if l.nw = 0 ∧ l.nh = 0 then true
  else
    decide (1 ≤ l.nw) && decide (l.nw ≤ 8) && decide (1 ≤ l.nh) && decide (l.nh ≤ 6) && decide (l.nw * l.nh ≤ 24) && decide (span ≤ 1) &&
      fitsSpan (groupsOf (l.tx * l.ty * l.tz)) l.vregs l.accs l.scr 1 && decide (l.gx * l.gy * l.gz % (l.nw * l.nh) = 0)

/-- The checks of R25 in table order: the first failing status, or the launch with its descriptor's fields. -/
def checkLaunch (s : State) (l : Launch) : Launch × Nat :=
  if l.kdesc.toNat % 64 ≠ 0 then (l, 0x01)
  else match frontRead s l.func l.pasid l.kdesc.toNat 64 with
    | none => (l, 0x01)
    | some bs =>
      let d := leNat bs
      let k := bitsOf d 303 240
      let cb := if k = 0 ∨ k % 4 ≠ 0 then some [] else frontRead s l.func l.pasid ((l.kdesc.toNat + k) % 2 ^ 64) 256
      match cb with
      | none => ({ l with det := l.det || d.testBit 184 }, 0x01)
      | some cs =>
        let span := l.shape
        let l := withDesc l d ((List.range (cs.length / 4)).map fun i => BitVec.ofNat 32 (leNat ((cs.drop (4 * i)).take 4)))
        let sh := shapeFor (groupsOf (l.tx * l.ty * l.tz)) l.vregs l.accs l.scr span
        if !descOk d then (l, 0x02)
        else if !shapeOk l d then (l, 0x03)
        else if !nbhdOk l span then (l, 0x04)
        else match sh with
          | none => (l, 0x05)
          | some c => ({ l with shape := c }, 0)

/-- The launch that RPLCTL arms for is replayed from here: its first pass begins, with the events of RPLEV0 (R423; log entry 48). -/
def armReplay (s : State) (lk : Nat) : State :=
  let l := getLaunch s lk
  let o := s.obs
  if o.rplctl.getLsbD 31 && o.rlaunch.isNone && (o.rplctl.extractLsb' 0 6).toNat == l.func && o.rpllabel == l.label then
    let n := (o.rplctl.extractLsb' 24 4).toNat
    let l := { l with replay := true }
    let s := setLaunch s lk l
    let s := { s with obs := { o with rplctl := o.rplctl &&& 0x7FFFFFFF#32, rlaunch := some lk, rpass := 1,
                                      rnpass := if n = 0 then 16 else n, rpages := [], rmem := [], rplaza := [], rsigs := [],
                                      rfirst := [], rrec := some l, rplstat := 0, evsel := tabGet 0 o.rplev 0 } }
    updCores s fun _ x => { x with cnt := x.cnt.filter fun e => decide (e.1 < 16) }
  else s

/-- A child that the front end takes counts in its grid's CHILD (R415). -/
def countChild (s : State) (lk : Nat) : State :=
  match (getLaunch s lk).origin with
  | .thread p _ _ => updLaunch s p fun l => { l with childAcc := l.childAcc + 1 }
  | _ => s

/-- A launch with its record (R25). DONE comes first (R26); a descendant that was not yet accepted when its ancestor failed has its
status already and skips the checks (R31). -/
def acceptRecord (s : State) (lk : Nat) (r : Nat) : State :=
  let l := withRecord (getLaunch s lk) r
  let l := { l with tstart := Config.clockAt s.fresh, stage := .accepted }
  let s := setLaunch { s with fresh := s.fresh + 1 } lk l
  if l.done.toNat % 64 ≠ 0 || (frontPlace s l.func l.pasid .write l.done.toNat).isNone then retireLaunch s lk 0x01 false
  else if l.fate ≠ 0 then gridRetire s lk
  else
    let c := checkLaunch s l
    let s := setLaunch s lk c.1
    if c.2 ≠ 0 then retireLaunch s lk c.2 true
    else
      let n := c.1.gx * c.1.gy * c.1.gz
      let s := armReplay (setLaunch s lk { c.1 with unplaced := if n = 0 then [] else [(0, n)], order := s.uid }) lk
      let s := { s with uid := s.uid + 1 }
      let s := if c.1.pri = 7 then urgentPreempt s else s
      if n = 0 then gridRetire s lk else s

/-- Acceptance of a launch that the front end holds (R25, R26, R31). -/
def acceptLaunch (s : State) (lk : Nat) : State :=
  let l := getLaunch s lk
  let s := countChild s lk
  match (if l.recAddr.toNat % 128 ≠ 0 then none else frontRead s l.func l.pasid l.recAddr.toNat 128) with
  | none => retireLost s lk
  | some bs => acceptRecord s lk (leNat bs)

end Sys2Proof.Machine
end

