-- ==== Sys2Proof/Machine/Queue.lean ====
section
/-! DEFINITION. Hardware queues, their packets and crossings (R32 to R44, R55, R56, R437). -/

namespace Sys2Proof.Machine

/-! ## Registers -/

def execQtailWrite (func q : Nat) (v : Word) (s : State) : Outcome := .next (openWrite s func (qtailWrite s func q v))

/-- A QCTL write, judged against EN as it stood before (R33). -/
def qctlWrite (s : State) (func q : Nat) (v : Word) : State :=
  let x := getQueue s q
  if !running s || !(decide (q < Config.queues)) || x.owner != func then s
  else
    let y : Queue := { x with qvec := v.extractLsb' 8 6, pmax := if func = 0 then v.extractLsb' 1 3 else x.pmax, en := v.getLsbD 0,
                              since := if v.getLsbD 0 && !x.en then s.uid else x.since }
    let y : Queue := if v.getLsbD 4 && !x.en then
        { y with qhead := 0, qtail := 0, frozen := false, reason := 0, waiting := false, head := none, checked := false }
      else y
    setQueue { s with uid := s.uid + 1 } q y

def execQueueReset (func q : Nat) (v : Word) (s : State) : Outcome := .next (if v.getLsbD 4 then openWrite s func (qctlWrite s func q v) else s)

def execQueueEnable (func q : Nat) (v : Word) (s : State) : Outcome := .next (openWrite s func (qctlWrite s func q v))

/-- A write of QOWN or XOWN by the physical function while EN is 0 (R34). -/
def ownWrite (s : State) (func : Nat) (xing : Bool) (n : Nat) (v : Word) : State :=
  let f := (v.extractLsb' 0 6).toNat
  if !running s || func != 0 then s
  else if xing then
    if n < Config.crossings && !(getXing s n).en then updXing s n fun x => { x with owner := f } else s
  else
    if n < Config.queues && !(getQueue s n).en then updQueue s n fun x => { x with owner := f } else s

def execOwnershipWrite (func : Nat) (xing : Bool) (n : Nat) (v : Word) (s : State) : Outcome := .next (ownWrite s func xing n v)

/-- A write of XCFG by the function that owns the crossing (R41). OVF is cleared by writing 1, of a bound crossing too (log entry 90). -/
def xcfgWrite (s : State) (func n : Nat) (v : Word) : State :=
  let x := getXing s n
  if !running s || !(decide (n < Config.crossings)) || x.owner != func then s
  else
    let x : Crossing := { x with ovf := x.ovf && !v.getLsbD 30 }
    if x.en then setXing s n { x with en := v.getLsbD 31 }
    else
      let prod := v.extractLsb' 0 10
      let cons := v.extractLsb' 16 10
      let own := fun (q : BitVec 10) => (getQueue s q.toNat).owner == func
      let bind := v.getLsbD 31 && (func == 0 || (own prod && own cons))
      setXing s n { x with prod := prod, cons := cons, en := bind, tokens := if bind then 0 else x.tokens }

def execCrossingBind (func x : Nat) (v : Word) (s : State) : Outcome := .next (openWrite s func (xcfgWrite s func x v))

/-! ## Packets, R37, R38 -/

def pktType (h : BitVec 512) : Nat := (h.extractLsb' 0 8).toNat
def pktPri (h : BitVec 512) : Nat := (h.extractLsb' 8 3).toNat
def pktXing (h : BitVec 512) : Nat := (h.extractLsb' 32 12).toNat
def pktCount (h : BitVec 512) : Nat := (h.extractLsb' 48 16).toNat
def pktAddr (h : BitVec 512) : DWord := h.extractLsb' 64 64
def pktGraph (h : BitVec 512) : Nat := (h.extractLsb' 32 10).toNat
def pktNodes (h : BitVec 512) : Nat := (h.extractLsb' 128 16).toNat
def pktIrq (h : BitVec 512) : Bool := h.getLsbD 32
def pktValue (h : BitVec 512) : DWord := h.extractLsb' 128 64

/-- The packet starts only after every earlier one has retired (R37, R39). -/
def pktOrder (h : BitVec 512) : Bool := h.getLsbD 11 || pktType h == 0x02 || pktType h == 0x06

/-- The priority that a packet competes at: a GRAPH or GLOAD has at most its graph's (R46). -/
def pktRank (s : State) (h : BitVec 512) : Nat :=
  if pktType h == 0x04 || pktType h == 0x05 then min (pktPri h) (getGraph s (pktGraph h)).gpri.toNat else pktPri h

/-- The head packet is read once, when it becomes the head (R35, R36, R56). -/
def readHead (s : State) (q : Nat) : State :=
  let x := getQueue s q
  if !x.en || x.frozen || x.head.isSome || x.qhead == x.qtail then s
  else
    match frontRead s x.owner x.pasid.toNat ((x.qring.toNat + 64 * (x.qhead.toNat % 2 ^ x.qsize)) % 2 ^ 64) 64 with
    | some bs => setQueue s q { x with head := some (BitVec.ofNat 512 (leNat bs)), checked := false }
    | none => freezeQueue s q x.qhead.toNat 0x07

/-- The reason for which a head packet freezes its queue, or 0 (R437). Of several checks that fail the first in the order of the
REASON codes is recorded (log entry 87). -/
def pktReason (s : State) (q : Nat) (h : BitVec 512) : Nat :=
  let x := getQueue s q
  let c := getXing s (pktXing h)
  let t := pktType h
  let f := x.owner
  let p := x.pasid.toNat
  let a := (pktAddr h).toNat
  if 0x06 < t then 0x01
  else if x.pmax.toNat < pktPri h then 0x02
  else if (t = 0x02 ∨ (t = 0x01 ∧ pktCount h ≠ 0)) ∧ ¬(c.en = true ∧ c.prod.toNat = q) then 0x03
  else if t = 0x03 ∧ ¬(c.en = true ∧ c.cons.toNat = q) then 0x04
  else if (t = 0x04 ∨ t = 0x05) ∧ (getGraph s (pktGraph h)).gown ≠ f then 0x05
  else if t = 0x01 ∧ (a % 128 ≠ 0 ∨ frontRange s f p .read a 128 = false) then 0x07
  else if t = 0x05 ∧ (a % 64 ≠ 0 ∨ frontRange s f p .read a (64 * pktNodes h) = false) then 0x07
  else if t = 0x06 ∧ (a % 8 ≠ 0 ∨ frontPlace s f p .write a = none) then 0x07
  else 0

/-- The checks of R437, once, when no ORDER hold keeps the head back. -/
def checkHead (s : State) (q : Nat) : State :=
  let x := getQueue s q
  match x.head with
  | some h =>
    if !x.en || x.frozen || x.checked || (pktOrder h && !x.open'.isEmpty) then s
    else
      let r := pktReason s q h
      if r ≠ 0 then freezeQueue s q x.qhead.toNat (BitVec.ofNat 8 r) else setQueue s q { x with checked := true }
  | none => s

def prepHead (s : State) (q : Nat) : State := checkHead (readHead s q) q

/-- The head packet of a queue that may start, but for what a WAIT, GRAPH or GLOAD waits for: it is pending (R35), checked, and its queue
is enabled and not frozen. -/
def headReady (s : State) (q : Nat) : Option (BitVec 512) :=
  let x := getQueue s q
  if x.en && !x.frozen && x.checked && x.qhead != x.qtail && !(getFunc s x.owner).freezing &&
      !(s.obs.rlaunch.isSome && s.obs.rrec.map (·.func) == some x.owner) then x.head else none

/-- An addition to a crossing can be made in this cycle: a SIGNAL is a head that may start, or the launch of a packet that names the
crossing can retire. It is made before any take (R43). -/
def additionDue (s : State) (x : Nat) : Bool :=
  s.queues.any (fun e => match headReady s e.1 with | some h => pktType h == 0x02 && pktXing h == x | none => false) ||
  s.launches.any fun e => match e.2.origin with | .packet _ _ y n => y == x && n != 0 && retireDue s e.1 | _ => false

/-- The head packet can start now (R39, R42, R43, R48, R54). -/
def canStart (s : State) (q : Nat) : Bool :=
  match headReady s q with
  | some h =>
    let g := getGraph s (pktGraph h)
    (match pktType h with
    | 0x03 => decide (pktCount h ≤ (getXing s (pktXing h)).tokens.toNat) && !additionDue s (pktXing h)
    | 0x04 => decide (g.pend.length < 255)
    | 0x05 => g.run.isNone && g.pend.isEmpty
    | _ => true)
  | none => false

/-! ## Which starts, R40, R55 -/

/-- What the front end starts next: a queue's head, or a launch that it holds. -/
inductive Start where
  | queue (q : Nat)
  | launch (lk : Nat)
  deriving DecidableEq, Repr

/-- Launches handed over and not accepted: higher priority first, then in order of arrival. -/
def nextHanded (s : State) : Option (Nat × Launch) :=
  (s.launches.filter fun e => e.2.stage == .handed && !(getFunc s e.2.func).freezing).foldl
    (fun b e => match b with
      | none => some e
      | some x => if x.2.pri < e.2.pri || (x.2.pri == e.2.pri && decide (e.2.order < x.2.order)) then some e else some x) none

/-- The queue whose head starts next: highest priority, longest wait since its last start, lower number. -/
def nextQueue (s : State) : Option (Nat × Nat) :=
  (s.queues.filter fun e => canStart s e.1).foldl
    (fun b e =>
      let r := ((e.2.head).map (pktRank s)).getD 0
      match b with
      | none => some (e.1, r)
      | some (q, r') => if r' < r || (r' == r && decide (e.2.since < (getQueue s q).since)) then some (e.1, r) else some (q, r')) none

/-- The choice of the front end: device launches go ahead of queue heads of equal priority. -/
def startChoice (s : State) : Option Start :=
  match nextHanded s, nextQueue s with
  | some (lk, l), some (q, r) => if l.pri < r then some (.queue q) else some (.launch lk)
  | some (lk, _), none => some (.launch lk)
  | none, some (q, _) => some (.queue q)
  | none, none => none

/-- QHEAD advances: the head packet has started. -/
def started (s : State) (q : Nat) : State :=
  updQueue { s with uid := s.uid + 1 } q fun x =>
    { x with qhead := x.qhead + 1, head := none, checked := false, waiting := false, since := s.uid }

/-- Start the head of a queue when it is of one type and the front end's choice. -/
def packet (s : State) (q ty : Nat) (f : State → BitVec 512 → State) : State :=
  let s := prepHead s q
  match headReady s q with
  | some h => if pktType h == ty && startChoice s == some (.queue q) then f s h else s
  | none => s

def execPacketNop (q : Nat) (s : State) : Outcome := .next (packet s q 0x00 fun s _ => started s q)

/-- A LAUNCH starts as the front end accepts it (R39). -/
def startLaunch (s : State) (q : Nat) (h : BitVec 512) : State :=
  let x := getQueue s q
  let r := handLaunch (started s q) (.packet q s.uid (pktXing h) (pktCount h)) x.owner x.pasid.toNat (pktPri h) 1 false (pktAddr h)
  let s' := updQueue r.1 q fun x => { x with open' := x.open' ++ [s.uid] }
  acceptLaunch s' r.2

/-- A RECORD that cannot be read any more freezes the queue (R26, R56; log entry 87). -/
def execPacketLaunch (q : Nat) (s : State) : Outcome :=
  .next (packet s q 0x01 fun s h =>
    let x := getQueue s q
    if frontRange s x.owner x.pasid.toNat .read (pktAddr h).toNat 128 then startLaunch s q h
    else freezeQueue s q x.qhead.toNat 0x07)

def execPacketSignal (q : Nat) (s : State) : Outcome :=
  .next (packet s q 0x02 fun s h => addTokens (started s q) (pktXing h) (pktCount h))

/-- A WAIT takes its tokens and starts (R42). -/
def takeTokens (s : State) (q : Nat) (h : BitVec 512) : State :=
  updXing (started s q) (pktXing h) fun c => { c with tokens := c.tokens - BitVec.ofNat 32 (pktCount h) }

/-- A WAIT that reaches the head is tested; unsatisfied, it is WAITING (R33, R42). -/
def execPacketWait (q : Nat) (s : State) : Outcome :=
  .next (
    let s := prepHead s q
    match headReady s q with
    | some h =>
      if pktType h != 0x03 || (getQueue s q).waiting then s
      else if !canStart s q then updQueue s q fun x => { x with waiting := true }
      else if startChoice s == some (.queue q) then takeTokens s q h else s
    | none => s)

def execWaitSatisfied (q : Nat) (s : State) : Outcome :=
  .next (if (getQueue s q).waiting && canStart s q then packet s q 0x03 fun s h => takeTokens s q h else s)

/-- A GRAPH packet adds the run that retires it (R54). -/
def execPacketGraph (q : Nat) (s : State) : Outcome :=
  .next (packet s q 0x04 fun s h =>
    let r : RunReq := ⟨pktRank s h, some (q, s.uid)⟩
    let s' := updQueue (started s q) q fun x => { x with open' := x.open' ++ [s.uid] }
    updGraph s' (pktGraph h) fun g => { g with pend := g.pend ++ [r] })

/-- A GLOAD reads its image and loads or rejects it (R48); one that cannot be read any more freezes the queue
(R56; log entry 87). -/
def execPacketGload (q : Nat) (s : State) : Outcome :=
  .next (packet s q 0x05 fun s h =>
    let x := getQueue s q
    match frontRead s x.owner x.pasid.toNat (pktAddr h).toNat (64 * pktNodes h) with
    | some bs =>
      loadImage (started s q) (pktGraph h) (pktNodes h)
        ((List.range (pktNodes h)).map fun i => leNat ((bs.drop (64 * i)).take 64))
    | none => freezeQueue s q x.qhead.toNat 0x07)

/-- A MARK writes at system scope and may signal its queue's vector (R39). An ADDR that cannot be written any more freezes the queue (log
entry 87). -/
def execPacketMark (q : Nat) (s : State) : Outcome :=
  .next (packet s q 0x06 fun s h =>
    let x := getQueue s q
    match frontPlace s x.owner x.pasid.toNat .write (pktAddr h).toNat with
    | some pa =>
      let s := sysPut (started s q) pa (leBytes 8 (pktValue h).toNat)
      if pktIrq h then signal s x.owner x.qvec.toNat else s
    | none => freezeQueue s q x.qhead.toNat 0x07)

/-- The front end accepts the launch that it chooses among those handed over (R25, R40, R55). -/
def execLaunchAccept (s : State) : Outcome :=
  .next (match startChoice s with
  | some (.launch lk) => acceptLaunch s lk
  | _ => s)

end Sys2Proof.Machine
end

