-- ==== Sys2Proof/Machine/Roundabout.lean ====
section
/-! DEFINITION. One decision of the roundabout (R61 to R70, R406, R408), and a core's region going dark (R68, R69). -/

namespace Sys2Proof.Machine

/-! ## What waits for a place -/

/-- A unit that the roundabout may place: the next teams of a launch, or teams that were pre-empted. -/
inductive Unit' where
  | fresh (lk task : Nat)
  | back (tks : List Nat)
  deriving DecidableEq, Repr

/-- A pre-empted team may be placed again: not stopped, not frozen, not held, its grid alive, and no swap of its cores under way. -/
def mayReturn (s : State) (tk : Nat) : Bool :=
  let t := getTeam s tk
  let l := getLaunch s t.launch
  (t.place == .shadow || t.place == .spilled) && !t.stopped && !t.cancelled && l.frozen.isNone && !(getFunc s l.func).hold &&
    !(getFunc s l.func).freezing && !gridEnded l && t.cores.all fun c => (getCore s c).swapAt.isNone

/-- Rank of a unit: priority, then acceptance, then task (R63, R408). -/
def unitRank (s : State) (u : Unit') : Nat × Nat × Nat :=
  match u with
  | .fresh lk task => let l := getLaunch s lk; (7 - l.pri, l.order, task)
  | .back tks => let t := getTeam s (tks.headD 0); let l := getLaunch s t.launch; (7 - l.pri, l.order, t.task)

def rankLt (a b : Nat × Nat × Nat) : Bool :=
  decide (a.1 < b.1) || (a.1 == b.1 && (decide (a.2.1 < b.2.1) || (a.2.1 == b.2.1 && decide (a.2.2 < b.2.2))))

def insertUnit (s : State) (u : Unit') : List Unit' → List Unit'
  | [] => [u]
  | v :: vs => if rankLt (unitRank s u) (unitRank s v) then u :: v :: vs else v :: insertUnit s u vs

/-- The first task of each unplaced unit of a launch: all of a deterministic launch's, which are placed independently (R67), else the
lowest (R63). -/
def freshTasks (l : Launch) : List Nat :=
  let n := unitTeams l
  if l.det then l.unplaced.flatMap fun r => (List.range ((r.2 - r.1) / n)).map fun i => r.1 + n * i
  else match l.unplaced with
    | r :: _ => [r.1]
    | [] => []

/-- A launch whose teams may be placed at all (R406, R411, R422). -/
def launchOpen (s : State) (l : Launch) : Bool :=
  l.stage == .accepted && l.fate == 0 && l.frozen.isNone && !l.held && !(getFunc s l.func).hold && !(getFunc s l.func).freezing

/-- A priority-7 launch is waiting or resident (R406). -/
def urgentNow (s : State) : Bool := s.launches.any fun e => e.2.pri == 7 && e.2.stage == .accepted

/-- A priority-7 team is waiting for placement (R65). -/
def urgentWaits (s : State) : Bool :=
  s.launches.any (fun e => e.2.pri == 7 && launchOpen s e.2 && !e.2.unplaced.isEmpty)

/-- A priority-7 team of another launch is waiting for placement, so that a launch whose gang gave way waits with its next try (R65). Of
launches that have all given way none waits for another. -/
def urgentAhead (s : State) (lk : Nat) : Bool :=
  (getLaunch s lk).putOff &&
  s.launches.any fun e => e.1 != lk && e.2.pri == 7 && launchOpen s e.2 && !e.2.unplaced.isEmpty && !e.2.putOff

/-- A priority-7 launch accepted since the gang began has a team waiting for placement (R65). -/
def urgentNew (s : State) (g : Gang) : Bool :=
  s.launches.any fun e => e.1 != g.launch && e.2.pri == 7 && decide (g.since ≤ e.2.order) && launchOpen s e.2 && !e.2.unplaced.isEmpty

/-- What a unit belongs to. -/
def unitLaunch (s : State) (u : Unit') : Nat :=
  match u with
  | .fresh lk _ => lk
  | .back tks => (getTeam s (tks.headD 0)).launch

/-- Units in the order in which the roundabout considers them. -/
def unitList (s : State) : List Unit' :=
  let fresh := (s.launches.filter fun e => launchOpen s e.2).flatMap fun e => (freshTasks e.2).map fun t => Unit'.fresh e.1 t
  let back := (s.teams.filter fun e => mayReturn s e.1 && (mates s e.1).head? == some e.1 && (mates s e.1).all (mayReturn s)).map
    fun e => Unit'.back (mates s e.1)
  let ok := fun u => (!urgentNow s || (unitRank s u).1 == 0) && !urgentAhead s (unitLaunch s u)
  ((fresh ++ back).filter ok).foldl (fun r u => insertUnit s u r) []

/-- The task that a unit's anchor is drawn for: its own, or the first of its neighbourhood (R66). -/
def unitTask (s : State) (u : Unit') : Nat :=
  match u with
  | .fresh _ task => task
  | .back tks =>
    let t := getTeam s (tks.headD 0)
    let n := unitTeams (getLaunch s t.launch)
    t.task / n * n

/-! ## One placement -/

/-- The cores that the rules of placement give a unit: the deterministic anchor when it has room, else the least-loaded span (R61, R66,
R70). -/
def spanFor (s : State) (u : Unit') : Option (List Nat) :=
  let lk := unitLaunch s u
  let l := getLaunch s lk
  let key := waitKey lk (unitTask s u)
  if l.det then
    match detAnchor s l.seed (unitTask s u) (unitDims l) with
    | some cs => if unitFits s l key cs then some cs else none
    | none => none
  else chooseSpan s l key

/-- A team whose context is still in a shadow bank comes back on its own cores alone; elsewhere it waits for its spill image (R408). -/
def bankAllows (s : State) (u : Unit') (cs : List Nat) : Bool :=
  match u with
  | .fresh _ _ => true
  | .back tks => tks.all fun tk =>
    let t := getTeam s tk
    t.place != .shadow || t.cores == (if isNbhd (getLaunch s t.launch) then [cs.getD (t.task % max 1 cs.length) 0] else cs)

/-- The cores for a unit now. -/
def unitCores (s : State) (u : Unit') : Option (List Nat) := (spanFor s u).filter (bankAllows s u)

/-- Rank of a waiting unit: priority, then acceptance, then task (R67). -/
def keyRank (s : State) (k : Nat) : Nat × Nat × Nat :=
  let l := getLaunch s (k / 2 ^ 32)
  (7 - l.pri, l.order, k % 2 ^ 32)

/-- A unit joins those that wait for a core, by rank; one ranked ahead of others also takes over what they held there (R67; log entry
93). -/
def insertKey (s : State) (key : Nat) (ks : List Nat) : List Nat :=
  if ks.contains key then ks
  else ks.takeWhile (fun k => rankLt (keyRank s k) (keyRank s key)) ++ [key] ++ ks.dropWhile (fun k => rankLt (keyRank s k) (keyRank s key))

/-- A waiting unit holds on the cores of its anchor. -/
def holdKey (s : State) (key : Nat) : State :=
  (waitCores s key).foldl (fun s c => updCore s c fun x => { x with heldTeam := insertKey s key x.heldTeam }) s

/-- A deterministic unit waits on its anchor and holds what is released there (R67). -/
def holdSpan (s : State) (u : Unit') : State :=
  let lk := unitLaunch s u
  if (getLaunch s lk).det then holdKey s (waitKey lk (unitTask s u)) else s

/-- Under another set of dark cores the units that wait draw their anchors anew, and hold there (R66, R67). -/
def moveHeld (s : State) : State :=
  let ks := (s.cores.flatMap fun e => e.2.heldTeam).eraseDups.filter (keyLive s)
  ks.foldl holdKey { s with cores := s.cores.map fun e => (e.1, { e.2 with heldTeam := [] }) }

/-- A team that was pre-empted and waits for a place. -/
def offCore (t : Team) : Bool := t.place == .shadow || t.place == .spilled

/-- Teams of a launch that are not placed are cancelled, the pre-empted ones among them: it is unplaceable (R69). Those that are placed
run to exit (`gridEnded`). -/
def unplaceable (s : State) (lk : Nat) : State :=
  let s := updLaunch s lk fun l => { l with unplaced := [], fate := if l.fate = 0 then 0x06 else l.fate }
  { s with
    teams := s.teams.map fun e => if e.2.launch == lk && offCore e.2 then (e.1, { e.2 with cancelled := true }) else e
    cores := s.cores.map fun e => (e.1, { e.2 with heldTeam := e.2.heldTeam.filter fun k => k / 2 ^ 32 != lk }) }

/-! ## Gangs, R64, R65 -/

/-- Every reservation of the gang is released. A team that was to return stays where its context is. -/
def releaseGang (s : State) (g : Gang) : State :=
  let s := g.spots.foldl (fun s c => giveSpan s (getLaunch s g.launch) [c]) s
  { s with gang := none, teams := s.teams.filter fun e => !(g.teams.contains e.1 && e.2.place == .reserved) }

/-- The next reservation of a gang: a new team, or one that returns (R64, R70). -/
def gangReserve (s : State) (g : Gang) : State :=
  let l := getLaunch s g.launch
  if g.back.isEmpty then
    let c := g.cores.getD g.teams.length 0
    let r := reserveTeam s g.launch (g.index * unitTeams l + g.teams.length) [c] (some g.index)
    { r.1 with gang := some { g with teams := g.teams ++ [r.2], spots := g.spots ++ [c] } }
  else
    let tk := g.back.getD g.teams.length 0
    let c := gangCore s g tk
    { takeSpan s l [c] with gang := some { g with teams := g.teams ++ [tk], spots := g.spots ++ [c] } }

/-- A request that came while the gang was uncommitted finds its teams resident and makes them leave: a hold, a FREEZE or a stop of the
launch (R406, R411, R422), for R65 lets nothing of the kind interrupt a gang. -/
def gangLeaves (s : State) (g : Gang) : State :=
  let l := getLaunch s g.launch
  let fn := getFunc s l.func
  let stop := fun (t : Team) => if l.held && !t.stopped then { t with stopped := true, stopTid := some 0 } else t
  if l.held || fn.freezing || fn.hold && decide (l.pri < 7) then
    g.teams.foldl (fun s tk => updTeam s tk fun t => { stop t with leaving := true }) s
  else s

/-- The commit of a gang: every team starts, or returns, in this cycle. -/
def gangCommit (s : State) (g : Gang) : State :=
  let n := unitTeams (getLaunch s g.launch)
  let s : State := { s with gang := none }
  let s := if g.back.isEmpty then
      updLaunch (g.teams.foldl startTeam s) g.launch fun l => { l with
        unplaced := (List.range n).foldl (fun u i => dropTask u (g.index * n + i)) l.unplaced }
    else g.teams.foldl (fun s tk => restoreInto s tk [gangCore s g tk]) s
  gangLeaves (updLaunch s g.launch fun l => { l with waiting := false, passed := 0 }) g

/-- One cycle of the gang: the next reservation, or the commit. An urgent launch and a dark core release it (R65); of a priority-7 launch
the urgent one is one accepted since the gang began, and the gang is tried anew once no other priority-7 team waits (log entry 94). The
end of its grid releases it too. -/
def gangStep (s : State) (g : Gang) : State :=
  let l := getLaunch s g.launch
  if l.pri = 7 && urgentNew s g then releaseGang (updLaunch s g.launch fun l => { l with putOff := true }) g
  else if l.pri < 7 && urgentWaits s || g.cores.any (coreDark s) || gridEnded l then releaseGang s g
  else if g.teams.length < (if g.back.isEmpty then unitTeams l else g.back.length) then gangReserve s g
  else gangCommit s g

/-- HELD of a core: an uncommitted gang or a waiting deterministic team holds resources there (R58). -/
def coreHeld (s : State) (c : Nat) : Bool := holdsSome s c || (gangCores s).contains c

/-! ## One decision -/

/-- A unit gets its cores: a team starts at once, a neighbourhood begins as a gang with its first reservation (R63, R64, R70), a pre-empted
team returns (R408). -/
def placeUnit (s : State) (u : Unit') (cs : List Nat) : State :=
  let lk := unitLaunch s u
  let l := getLaunch s lk
  let s := dropWait s (waitKey lk (unitTask s u))
  if isNbhd l then
    gangReserve (updLaunch s lk fun l => { l with putOff := false })
      ⟨lk, unitTask s u / unitTeams l, cs, [], match u with | .fresh _ _ => [] | .back tks => tks, [], s.uid⟩
  else
    updLaunch (match u with
      | .fresh lk task =>
        let r := reserveTeam s lk task cs none
        updLaunch (startTeam r.1 r.2) lk fun l => { l with unplaced := dropTask l.unplaced task }
      | .back tks => restoreTeam s (tks.headD 0) cs) lk fun l => { l with waiting := false, passed := 0 }

/-- Every other launch whose team waits has been passed over once more (R62). A gang counts as one placement, when it first reserves and at
each later attempt (log entry 118). -/
def countPassed (s : State) (lk : Nat) : State :=
  { s with launches := s.launches.map fun e => if e.2.waiting && e.1 != lk then (e.1, { e.2 with passed := e.2.passed + 1 }) else e }

/-- Launches that have waited past 4,096 placements, among those with a unit to place (R62). -/
def starving (s : State) (us : List Unit') : List Nat :=
  ((us.map (unitLaunch s)).filter fun k => (getLaunch s k).waiting && decide (Config.passedOver ≤ (getLaunch s k).passed)).eraseDups

/-- A starving launch lets no launch of equal or lower priority by (R62), but for another starving one that is ranked before it (log entry
95). -/
def heldBack (s : State) (hungry : List Nat) (lk : Nat) : Bool :=
  let l := getLaunch s lk
  hungry.any fun h =>
    let x := getLaunch s h
    h != lk && decide (l.pri ≤ x.pri) && !(hungry.contains lk && rankLt (7 - l.pri, l.order, 0) (7 - x.pri, x.order, 0))

/-- Consider units in order until one is placed. A launch first considered is checked for a span without dark cores (R69). A unit that
does not fit waits: a deterministic one holds its span (R67), any other counts the placements that pass it from then on, none made before
it was first considered (R62; log entry 118). -/
def considerUnits (s : State) (hungry : List Nat) : List Unit' → State
  | [] => s
  | u :: us =>
    let lk := unitLaunch s u
    let l := getLaunch s lk
    let first := (match u with | .fresh _ _ => !l.considered | .back _ => false)
    let s := if first then updLaunch s lk fun l => { l with considered := true } else s
    if first && !placeable s l then unplaceable s lk
    else if heldBack s hungry lk then considerUnits s hungry us
    else match unitCores s u with
      | some cs => placeUnit (countPassed s lk) u cs
      | none => considerUnits (if l.det then holdSpan s u else updLaunch s lk fun l => { l with waiting := true }) hungry us

/-- One roundabout cycle (R63). -/
def roundabout (s : State) : State :=
  match s.gang with
  | some g => gangStep s g
  | none => considerUnits s (starving s (unitList s)) (unitList s)

def execRoundaboutPlace (s : State) : Outcome := .next (roundabout s)

/-! ## Dark cores -/

/-- The core's DARK bit follows its region: a requested gate, a second failed phase, or a wake that is not over (R68, R92, R94). -/
def regionDark (s : State) (c : Nat) : Bool :=
  let r := getRegion s c
  r.gate || r.failed || r.gated || r.waking

/-- Some team of a launch waits for a place, for the first time or after pre-emption. -/
def pendingTeams (s : State) (lk : Nat) (l : Launch) : Bool :=
  !l.unplaced.isEmpty || s.teams.any fun e => e.2.launch == lk && offCore e.2 && !e.2.cancelled

/-- A core takes no placement any more, and launches without a span left are cancelled (R68, R69). Deterministic teams draw their
anchors anew under the new dark set (R66). -/
def goDark (s : State) (c : Nat) : State :=
  let s := moveHeld (updCore s c fun x => { x with dark := true })
  s.launches.foldl (fun (s : State) (e : Nat × Launch) =>
    if e.2.stage == .accepted && pendingTeams s e.1 e.2 && !placeable s e.2 then unplaceable s e.1 else s) s

/-- A core takes placements again; deterministic teams draw their anchors anew (R66, R94). -/
def goLight (s : State) (c : Nat) : State := moveHeld (updCore s c fun x => { x with dark := false })

def execCoreDark (core : Nat) (s : State) : Outcome :=
  .next (if core < Config.cores && regionDark s core && !coreDark s core then goDark s core else s)

end Sys2Proof.Machine
end

