-- ==== Sys2Proof/Machine/Power.lean ====
section
/-! DEFINITION. The toll loop, the choosing units and the kerb (R71 to R76, R85 to R88); sensors, feeds, phases and the gating of
power regions (R89 to R94, R409). -/

namespace Sys2Proof.Machine

/-! ## Choices, R74 -/

/-- For n = 1 to 128, the greatest d at which 128·log2(1 + 2^(−d/128)) rounds to at least n. -/
def costSteps : List Nat :=
  [1091, 888, 793, 730, 683, 646, 614, 587, 564, 543, 524, 506, 490, 476, 462, 449] ++
  [437, 426, 415, 405, 395, 386, 377, 368, 360, 352, 345, 337, 330, 323, 317, 310] ++
  [304, 298, 292, 286, 280, 275, 269, 264, 259, 254, 249, 244, 240, 235, 230, 226] ++
  [222, 217, 213, 209, 205, 201, 197, 193, 189, 185, 182, 178, 174, 171, 167, 164] ++
  [161, 157, 154, 151, 147, 144, 141, 138, 135, 132, 129, 126, 123, 120, 117, 114] ++
  [111, 108, 106, 103, 100, 97, 95, 92, 89, 87, 84, 82, 79, 76, 74, 71] ++
  [69, 67, 64, 62, 59, 57, 55, 52, 50, 48, 45, 43, 41, 39, 36, 34] ++
  [32, 30, 28, 25, 23, 21, 19, 17, 15, 13, 11, 9, 7, 5, 3, 1]

/-- nearest_int(128·log2(1 + 2^(−d/128))). -/
def costTail (d : Nat) : Nat := (costSteps.filter fun t => decide (d ≤ t)).length

/-- The cost of a choice with these codes, time and energy, under toll code l. -/
def choiceCost (code : BitVec 16 × BitVec 16) (l : Nat) : Int :=
  let b := code.2.toInt + (l : Int) - 2048
  max code.1.toInt b + (costTail (code.1.toInt - b).natAbs : Int)

/-- The lowest-numbered choice of least cost among n of a unit's table. -/
def bestChoice (n : Nat) (code : Nat → BitVec 16 × BitVec 16) (l : Nat) : Nat :=
  (List.range n).foldl (fun b c => if choiceCost (code c) l < choiceCost (code b) l then c else b) 0

/-- A unit evaluates its choices at a tick and may move. -/
def moveUnit (n : Nat) (code : Nat → BitVec 16 × BitVec 16) (l tick : Nat) (u : ChoiceUnit) : ChoiceUnit :=
  let best := bestChoice n code l
  if u.last + 8 ≤ (tick : Int) ∧ choiceCost (code best) l ≤ choiceCost (code u.cur) l - 12 then ⟨best, tick⟩ else u

/-! ## The units of R75 -/

/-- The activity class of a core: the issued share of its slots over the last 8 ticks. -/
def coreClass (x : Core) : Nat :=
  let a := x.act.foldl (fun (n : Nat × Nat) e => (n.1 + e.1, n.2 + e.2)) (0, 0)
  if a.2 = 0 then 3 else if 3 * a.2 ≤ 4 * a.1 then 0 else if a.2 ≤ 2 * a.1 then 1 else if a.2 ≤ 4 * a.1 then 2 else 3

/-- The code that prices a core's clock (R76): of the teams that hold a share of the core, every group counts, on whichever core of their
span it sits. -/
def coreCodeNow (s : State) (c : Nat) : Nat :=
  let b := regionCode s c
  let here := fun (t : Team) => t.place == .resident && t.cores.contains c && (getLaunch s t.launch).ctoll
  let gs := (s.groups.filter fun e => here (getTeam s e.2.team)).map fun e => groupToll s e.1
  let e := match gs with | [] => b | g :: t => t.foldl min g
  if s.supply.near || s.supply.kerb then max b e else e

/-- A core's clock at a tick: point 0 while KERB is set; at the clearing tick its dwell is over (R86). -/
def clockTick (s : State) (tick : Nat) (cleared : Bool) (c : Nat) (x : Core) : Core :=
  if s.supply.kerb then { x with clock := { x.clock with cur := 0 } }
  else
    let u : ChoiceUnit := if cleared then { x.clock with last := -8 } else x.clock
    { x with clock := moveUnit 32 (Config.coreCode c (coreClass x)) (coreCodeNow s c) tick u }

/-- Every choosing unit evaluates (R74, R75). -/
def evaluateUnits (s : State) (tick : Nat) (cleared : Bool) : State :=
  let s' := updCores s (clockTick s tick cleared)
  let gs := s'.groups.map fun e =>
    match e.2.slot with
    | some x =>
      let l := groupToll s e.1
      (e.1, { e.2 with eng := moveUnit 4 (Config.copyCode x) l tick e.2.eng, pre := moveUnit 5 (Config.prefetchCode x) l tick e.2.pre,
                       eff := moveUnit 3 (Config.effortCode x) l tick e.2.eff })
    | none => e
  { s' with groups := gs, supply := { s'.supply with links := (List.range 18).map fun p =>
      (p, moveUnit 3 (Config.linkCode p) (regionCode s (Config.linkRegion p)) tick (tabGet ⟨2, -8⟩ s.supply.links p)) } }

/-! ## The loop, R73, R86, R88 -/

/-- A script entry's code, NEAR and ticks. -/
def scriptEntry (u : Supply) (n : Nat) : Nat × Bool × Nat :=
  let w := tabGet 0#32 u.tscr n
  ((w.extractLsb' 0 12).toNat, w.getLsbD 14, (w.extractLsb' 16 12).toNat)

/-- The script enters an entry, or ends there and holds what it last broadcast. An entry's SL, NEAR and DUR are those it has when it is
entered (log entry 97). -/
def scriptEnter (u : Supply) (n : Nat) : Supply :=
  let e := scriptEntry u n
  if n < 64 ∧ e.2.2 ≠ 0 then { u with sidx := n, sleft := e.2.2 - 1, base := e.1, snear := e.2.1 }
  else { u with sidx := 64, sleft := 0 }

/-- The script's next tick. -/
def scriptTick (u : Supply) : Supply :=
  if u.fresh then scriptEnter { u with fresh := false } 0
  else if u.sidx = 64 then u
  else if u.sleft ≠ 0 then { u with sleft := u.sleft - 1 }
  else scriptEnter u (u.sidx + 1)

/-- The next word, from the watts measured over the tick. -/
def supplyTick (u : Supply) (watts : Nat) : Supply :=
  let high := decide (95 * u.capw ≤ 100 * watts)
  let near := decide (90 * u.capw ≤ 100 * watts)
  let kerb := u.kerb && (high || u.tripped)
  let u := { u with kerb := kerb, pwr := min watts 8191, tripped := false, tick := u.tick + 1 }
  let up := fun (n : Nat) => if kerb then min 4095 (n + 128) else n
  match u.mode.toNat with
  | 1 => { u with base := u.pinl.toNat, l := up u.pinl.toNat, near := near }
  | 2 =>
    let u := scriptTick u
    { u with l := up u.base, near := u.snear }
  | _ =>
    let l := if high then min 4095 (u.l + 16) else if near then u.l else u.l - 4
    { u with l := l, base := l, near := near }

def execTollTick (watts : Nat) (s : State) : Outcome :=
  .next (
    let was := s.supply.kerb
    let s : State := { s with supply := supplyTick s.supply watts, cores := s.cores.map fun e => (e.1, { e.2 with act := (0, 0) :: e.2.act.take 8 }) }
    evaluateUnits s s.supply.tick (was && !s.supply.kerb))

/-- The kerb's jump: KERB, NEAR and L up by 128; every core at point 0 (R85). -/
def kerbJump (s : State) : State :=
  let u := s.supply
  let l := if u.mode.toNat = 0 then min 4095 (u.l + 128) else min 4095 (u.base + 128)
  updCores { s with supply := { u with kerb := true, near := true, l := l } } fun _ x => { x with clock := { x.clock with cur := 0 } }

/-- A sample of current against the cap divided by the measured voltage; eight high ones in a row make a trip (R85). A tick holds at
most one jump. -/
def kerbSample (s : State) (ma mv : Nat) : State :=
  let u := s.supply
  if 1000000 * u.capw < ma * mv then
    if u.high = 7 then
      let s' := { s with supply := { u with high := 0, tripped := true, ktrips := min 65535 (u.ktrips + 1) } }
      if u.tripped then s' else kerbJump s'
    else { s with supply := { u with high := u.high + 1 } }
  else { s with supply := { u with high := 0 } }

def execKerbSample (ma mv : Nat) (s : State) : Outcome := .next (kerbSample s ma mv)

/-! ## TCTL, R87, R88 -/

/-- A TCTL write by the physical function. MODE 3 leaves MODE; a change to 2 starts the script. A script that ends at entry 0 holds the last
code broadcast, which KERB may raise again (R88; log entry 120). -/
def tctlWrite (s : State) (func : Nat) (v : Word) : State :=
  if !running s || func != 0 then s
  else
    let u := s.supply
    let m := v.extractLsb' 30 2
    let m := if m = 3 then u.mode else m
    { s with supply := { u with mode := m, pinl := v.extractLsb' 0 12, fresh := if m = 2 then u.fresh || u.mode ≠ 2 else false,
                                base := if m = 2 ∧ u.mode ≠ 2 then u.l else u.base,
                                snear := if m = 2 ∧ u.mode ≠ 2 then u.near else u.snear } }

def tctlMode (v : Word) : Nat := (v.extractLsb' 30 2).toNat

def execTollModeLoop (func : Nat) (v : Word) (s : State) : Outcome := .next (if tctlMode v = 0 then tctlWrite s func v else s)

def execTollModePinned (func : Nat) (v : Word) (s : State) : Outcome := .next (if tctlMode v = 1 then tctlWrite s func v else s)

def execTollModeScripted (func : Nat) (v : Word) (s : State) : Outcome := .next (if tctlMode v = 2 then tctlWrite s func v else s)

/-! ## Lost regions, R91, R93, R409 -/

def updRegion (s : State) (r : Nat) (f : Region → Region) : State :=
  { s with supply := { s.supply with regions := tabPut s.supply.regions r (f (getRegion s r)) } }

/-- A team whose context on a failed core is lost: all its contexts go. A resident one is then released as a team of an ended grid (R405);
what it held on working cores returns, on the failed core nothing does (R68). -/
def loseTeam (s : State) (tk : Nat) : State :=
  if (getTeam s tk).place == .resident then updTeam (forgetGroups s tk) tk fun t => { t with groups := 0, leaving := false } else forgetTeam s tk

/-- A grid that owns lost contexts ends, with one record that names the region and the first of their teams (R409). -/
def loseGrid (s : State) (r : Nat) (ts : List Nat) (lk : Nat) : State :=
  let task := ((ts.find? fun tk => (getTeam s tk).launch == lk).map fun tk => (getTeam s tk).task).getD 0
  fatal s lk ⟨0, 0, (getLaunch s lk).label, BitVec.ofNat 32 task, 0, 0, 0, BitVec.ofNat 64 r, 0, 0x07⟩

/-- A region goes dark for good (R91, R93). A gang that has reserved on its core has no context there yet: it is released and tried anew
(R65, `gangStep`). -/
def loseRegion (s : State) (r : Nat) : State :=
  let s := hwRecord (updRegion s r fun x => { x with failed := true }) (BitVec.ofNat 64 r)
  if r < 192 then
    let ts := (s.teams.filter fun e => e.2.cores.contains r && e.2.groups != 0 &&
      (e.2.place == .resident || (getCore s r).shadow.contains e.1)).map (·.1)
    let s := ts.foldl loseTeam ((ts.map fun tk => (getTeam s tk).launch).eraseDups.foldl (fun s lk => loseGrid s r ts lk) s)
    goDark (updCore s r fun x => { x with l1 := [], icache := [], kcache := [], shadow := [], swapAt := none, swapBack := (0, 0, 0, 0) }) r
  else
    { s with l2 := s.l2.filter fun e => Config.sliceRegion (e.1 / 256) != r }

/-- A region has lost a phase: the first loss biases it, the second ends it (R91). -/
def losePhase (s : State) (r : Nat) : State :=
  let x := getRegion s r
  if x.failed then s
  else if x.bias then loseRegion s r
  else hwRecord (updRegion s r fun x => { x with bias := true }) (BitVec.ofNat 64 r)

/-- A phase that works fails (R91). -/
def phaseFail (s : State) (r p : Nat) : State :=
  let x := getRegion s r
  if r < Config.regions && x.phok.getLsbD p then
    losePhase (updRegion s r fun x => { x with phok := x.phok &&& ~~~(BitVec.ofNat 4 (2 ^ p)) }) r
  else s

def execPhaseFail (region phase : Nat) (s : State) : Outcome := .next (phaseFail s region phase)

/-- A sensor out of range is excluded until device reset (log entry 121); a region without one is treated as having lost two phases (R89),
though its phases work on (log entry 98). -/
def sensorFault (s : State) (r k mv : Nat) : State :=
  let x := getRegion s r
  if r < Config.regions && (decide (mv < 300) || decide (1000 < mv)) && !x.lostSensors.contains k then
    let s := hwRecord (updRegion s r fun x => { x with lostSensors := x.lostSensors ++ [k] }) (BitVec.ofNat 64 r)
    if Config.regionSensors r ≤ x.lostSensors.length + 1 then losePhase (losePhase s r) r else s
  else s

def execSensorFault (region sensor mv : Nat) (s : State) : Outcome := .next (sensorFault s region sensor mv)

/-- The loss of one feed writes a record and changes nothing else (R89; log entry 49). -/
def execFeedLoss (_feed : Nat) (s : State) : Outcome := .next (hwRecord s 0)

/-! ## Gating and waking, R92, R94 -/

/-- Regions that hold no L2 slice and no memory interface: cores and links (R90, R93). -/
def mayGate (r : Nat) : Bool :=
  decide (r < 192) || ((List.range 18).any (fun p => Config.linkRegion p == r) &&
    !((List.range Config.slices).any fun n => Config.sliceRegionOf n == r) &&
    !((List.range (Config.lastInterface + 1)).any fun n => Config.interfaceRegion n == r))

/-- A GATE write of 1: dark at once, off when idle; a wake under way ends there. -/
def gateRegion (s : State) (func r : Nat) : State :=
  let x := getRegion s r
  if !running s || func != 0 || !(decide (r < Config.regions)) || !mayGate r || x.gate then s
  else
    let s := updRegion s r fun x => { x with gate := true, want := false }
    if r < 192 then gateIdle (goDark s r) r
    else updRegion s r fun x => { x with gated := true, stage := 0, waking := false }

def execRegionGate (func region : Nat) (s : State) : Outcome := .next (gateRegion s func region)

/-- A GATE write of 0: a region that is off requests its wake; one still on stays on. -/
def wakeRegion (s : State) (func r : Nat) : State :=
  let x := getRegion s r
  if !running s || func != 0 || !(decide (r < Config.regions)) || x.failed then s
  else if x.gated then updRegion s r fun x => { x with gate := false, want := !x.waking }
  else
    let s := updRegion s r fun x => { x with gate := false }
    if r < 192 && !x.waking then goLight s r else s

def execRegionWake (func region : Nat) (s : State) : Outcome := .next (wakeRegion s func region)

/-- The segment of a region. -/
def segmentOf (r : Nat) : Nat := if r < 192 then r / 8 else (r - 192) / 8

/-- What a segment's regions that are switched on may draw at their peaks. -/
def segmentPeak (s : State) (g : Nat) : Nat :=
  ((List.range Config.regions).filter fun r => segmentOf r == g && !(getRegion s r).gated).foldl (fun n r => n + Config.regionPeak r) 0

/-- The lowest region of a segment that wants to wake, when its inrush is covered. -/
def wakeGrant (s : State) (g : Nat) : State :=
  match (List.range Config.regions).find? fun r => segmentOf r == g && (getRegion s r).want with
  | some r =>
    if segmentPeak s g + Config.regionInrush r ≤ Config.segmentRating g then
      updRegion s r fun x => { x with want := false, gated := false, waking := true, stage := 0 }
    else s
  | none => s

def execWakeGrant (segment : Nat) (s : State) : Outcome := .next (wakeGrant s segment)

/-- A gate stage switches on; after the eighth the region is awake, its units at their reset choices (R94, R75). -/
def gateStage (s : State) (r : Nat) : State :=
  let x := getRegion s r
  if !x.waking then s
  else if x.stage < 7 then updRegion s r fun x => { x with stage := x.stage + 1 }
  else
    let s := updRegion s r fun x => { x with stage := 8, waking := false }
    if r < 192 then
      let s := updCore s r fun c => { c with clock := ⟨0, -8⟩ }
      if x.gate || x.failed then s else goLight s r
    else { s with supply := { s.supply with links := s.supply.links.map fun e => if Config.linkRegion e.1 == r then (e.1, ⟨2, -8⟩) else e } }

/-- At power-up every region is off and wakes by the same rule: step 1 of the release order (R94, R429). -/
def powerUp (s : State) : State :=
  let s := updCores s fun _ x => { x with dark := true }
  { s with supply := { s.supply with regions := (List.range Config.regions).map fun r =>
      (r, { getRegion s r with gated := true, want := true, waking := false, gate := false, stage := 0 }) } }

def execGateStage (region : Nat) (s : State) : Outcome := .next (gateStage s region)

end Sys2Proof.Machine
end

