-- ==== Sys2Proof/Machine/Translate.lean ====
section
/-! DEFINITION. Replies to page requests (R251), invalidations (R248), and the host's translation and page services (R301). -/

namespace Sys2Proof.Machine

/-! ## PRREP and PRREPX, R251 -/

/-- A reply to slot `i` of function `f`: ignored when the slot is not valid, its SEQ differs, or it is a stage-2 request answered
through PRREP. -/
def prReply (s : State) (f i : Nat) (seq : BitVec 8) (fail physical : Bool) : State :=
  let x := getSlot s f i
  if !x.valid || x.seq != seq || (x.stage && !physical) then s else answer s f i fail

/-- PRREP of a function's block, written by that function or, through its view, by the physical function. -/
def prrepWrite (s : State) (func block : Nat) (v : Word) : State :=
  if func = 0 || func = block then prReply s block (v.extractLsb' 0 6).toNat (v.extractLsb' 8 8) (v.getLsbD 16) false else s

def execPrrepWrite (func block : Nat) (v : Word) (s : State) : Outcome := .next (openWrite s func (prrepWrite s func block v))

def prrepxWrite (s : State) (func : Nat) (v : Word) : State :=
  if func = 0 then prReply s (v.extractLsb' 22 6).toNat (v.extractLsb' 0 6).toNat (v.extractLsb' 8 8) (v.getLsbD 16) true else s

def execPrrepxWrite (func : Nat) (v : Word) (s : State) : Outcome := .next (openWrite s func (prrepxWrite s func v))

/-! ## TINVC, R248 -/

/-- A cached entry that an invalidation removes. -/
def tinvHits (f kind pasid va : Nat) (e : TlbEnt) : Bool :=
  e.func == f &&
  match kind with
  | 0 => !e.s2
  | 1 => !e.s2 && e.pasid == pasid
  | 2 => !e.s2 && e.pasid == pasid && e.tag == va / 2 ^ e.lg
  | _ => e.s2

/-- Outstanding accesses of a function that have been translated (an access that used a removed entry is among them): those in their
groups' counts, and replayed ones that wait for the host or for an earlier access. -/
def outAccesses (s : State) (f : Nat) : List (Nat × Nat) :=
  (s.groups.flatMap fun e =>
    if (getLaunch s (getTeam s e.2.team).launch).func = f then (e.2.outs.filter isAccess).map fun o => (e.1, o.seq) else []) ++
  (s.elems.filterMap fun e => match e.act with
    | .item o => if e.func == f && hasPlace e then some (e.gkey, o.seq) else none
    | _ => none)

/-- A write of TINVC in a function's block. -/
def tinvWrite (s : State) (func block : Nat) (v : Word) : State :=
  let x := getFunc s block
  let kind := v.extractLsb' 20 2
  let pasid := v.extractLsb' 0 20
  if !(func = 0 || func = block) then s
  else if !v.getLsbD 31 then setFunc s block { x with tkind := kind, tpasid := pasid }
  else if x.tbusy || (kind = 3 && func ≠ 0) then s
  else
    let drain := outAccesses s block
    let s := { s with tlb := s.tlb.filter fun e => !tinvHits block kind.toNat pasid.toNat (bitsOf x.tinva.toNat 55 12 * 4096) e }
    setFunc s block { x with tkind := kind, tpasid := pasid, tbusy := true, tdrain := drain }

/-- A TINVC write of one kind. -/
def tinvKind (k : Nat) (s : State) (func block : Nat) (v : Word) : State :=
  if (v.extractLsb' 20 2).toNat = k then tinvWrite s func block v else s

def execTinvStage1All (func block : Nat) (v : Word) (s : State) : Outcome := .next (openWrite s func (tinvKind 0 s func block v))

def execTinvStage1Pasid (func block : Nat) (v : Word) (s : State) : Outcome := .next (openWrite s func (tinvKind 1 s func block v))

def execTinvStage1Addr (func block : Nat) (v : Word) (s : State) : Outcome := .next (openWrite s func (tinvKind 2 s func block v))

def execTinvStage2All (func block : Nat) (v : Word) (s : State) : Outcome := .next (openWrite s func (tinvKind 3 s func block v))

/-- None of these accesses remains. -/
def drained (s : State) (ds : List (Nat × Nat)) : Bool :=
  ds.all fun d => (findOut s d.1 d.2).isNone && s.elems.all fun e => match e.act with
    | .item o => !(e.gkey == d.1 && o.seq == d.2 && hasPlace e)
    | _ => true

def tinvDrain (s : State) (block : Nat) : State :=
  let x := getFunc s block
  if x.tbusy && drained s x.tdrain then setFunc s block { x with tbusy := false, tdrain := [] } else s

def execTinvDrainDone (block : Nat) (s : State) : Outcome := .next (tinvDrain s block)

/-! ## The host's services, R301 -/

/-- An ATS Invalidation Request removes the translations of its range. It is completed once the accesses that may have used them have been
performed (`invDrain`). -/
def atsInvalidate (s : State) (func addr len : Nat) : State :=
  let hit := fun (e : Nat × Nat) => e.1 == func && decide (addr / 4096 ≤ e.2) && decide (e.2 < (addr + len + 4095) / 4096)
  { s with pcie := { s.pcie with atc := s.pcie.atc.filter (fun e => !hit e), grants := s.pcie.grants.filter (fun e => !hit e),
                                 invs := s.pcie.invs ++ [⟨func, addr, len, outAccesses s func⟩] } }

def execAtsInvalidate (func addr len : Nat) (s : State) : Outcome := .next (atsInvalidate s func addr len)

/-- The completions of invalidations whose accesses have all been performed. -/
def invDrain (s : State) : State :=
  if s.pcie.invs.all fun i => !drained s i.drain then s
  else { s with pcie := { s.pcie with invs := s.pcie.invs.filter fun i => !drained s i.drain,
                                      invDone := s.pcie.invDone ++ (s.pcie.invs.filter fun i => drained s i.drain).map fun i => (i.func, i.addr, i.len) } }

/-- The elements that wait on a page of the host's services and stand on a core, in the order in which they replay. Those off their cores
wait until restoration (R253). -/
def askers (s : State) (func page : Nat) : List Elem :=
  sortBy (elemRank s) (s.elems.filter fun e => e.pri && e.func == func && e.page == page && !hasPlace e && onCore s e)

/-- The host gives access to a page: the device keeps the translation, and the elements that wait on it walk again. -/
def grantPage (s : State) (func page : Nat) : State :=
  let es := askers s func page
  let s := { s with pcie := { s.pcie with grants := if s.pcie.grants.contains (func, page) then s.pcie.grants else (func, page) :: s.pcie.grants } }
  walkEach s es fun _ => none

/-- The host gives no access to a page: the elements that wait on it take a cause. -/
def refusePage (s : State) (func page cause : Nat) : State :=
  let es := askers s func page
  elemsFail { s with elems := s.elems.filter fun e => !es.contains e } (es.map fun e => (e, cause, e.va, 0))

/-- Some element, on its core or off it, waits on a page of the host's services. -/
def asked (s : State) (func page : Nat) : Bool := s.elems.any fun e => e.pri && e.func == func && e.page == page && !hasPlace e

/-- An ATS reply for a page: one that gives no access sends a Page Request Message under PRI, once until its response, so that the elements
wait on; without PRI it is an access violation (log entry 103). -/
def atsReply (s : State) (func page : Nat) (success : Bool) : State :=
  if !(getFunc s func).ats then s
  else if success then grantPage s func page
  else if (getFunc s func).pri then
    if asked s func page && !s.pcie.prms.contains (func, page) then { s with pcie := { s.pcie with prms := s.pcie.prms ++ [(func, page)] } } else s
  else refusePage s func page cACV

/-- A PRG Response: with Success the host gives access to the page and the elements that wait on it walk again; else they take the
translation cause. -/
def prgResponse (s : State) (func page : Nat) (success : Bool) : State :=
  let s := { s with pcie := { s.pcie with prms := s.pcie.prms.filter fun e => e != (func, page) } }
  if success then grantPage s func page else refusePage s func page cTRN

def execPrgResponse (func page : Nat) (success : Bool) (s : State) : Outcome := .next (prgResponse s func page success)

end Sys2Proof.Machine
end

