-- ==== Sys2Proof/Machine/HostPeers.lean ====
section
/-! DEFINITION. The host and peers (R237, R238, R269, R296, R297, R303 to R308, R429). -/

namespace Sys2Proof.Machine

/-! ## BAR4, R297 -/

/-- A write from outside the cores, performed at L2 after its sectors are recorded in every ACQF (R364). A byte whose slice or
memory is lost is not written (R93). -/
def outsideWrite (s : State) (off : Nat) (bs : List Byte) : State :=
  let s := acqAddAll s ((List.range ((off % 64 + bs.length + 63) / 64)).map fun i => off / 64 * 64 + 64 * i)
  (List.range bs.length).foldl (fun s i => l2Put s (off + i) (bs.getD i 0)) s

/-- Some byte of a local range is lost. -/
def rangeLost (s : State) (off n : Nat) : Bool := (List.range n).any fun i => (homeLost s (off + i)).isSome

/-- A host access has a byte beyond local DRAM. PCI Express makes no request that lies on both sides of that offset; one that did counts
as one beyond it (log entry 130). -/
def beyondDram (off n : Nat) : Bool := decide (Config.dramBytes ≤ off) || decide (Config.dramBytes < off + n)

/-- A host write beyond local DRAM is discarded with an Unsupported Request. -/
def bar4Write (s : State) (off : Nat) (bs : List Byte) : State :=
  if !running s || !(decide (off < s.pcie.bar4)) then s
  else if beyondDram off bs.length then { s with pcie := { s.pcie with urs := s.pcie.urs + 1 } }
  else if rangeLost s off bs.length then s
  else outsideWrite s off bs

def execHostBar4Write (off : Nat) (bytes : List Byte) (s : State) : Outcome := .next (bar4Write s off bytes)

/-- What a host read gets: bytes, or nothing for an Unsupported Request or a Completer Abort. -/
def bar4Read (s : State) (off len : Nat) : State :=
  let reply := fun (s : State) (r : Option (List Byte)) => { s with pcie := { s.pcie with reads := s.pcie.reads ++ [(off, r)] } }
  if !running s || !(decide (off < s.pcie.bar4)) then s
  else if beyondDram off len then reply { s with pcie := { s.pcie with urs := s.pcie.urs + 1 } } none
  else if rangeLost s off len then reply s none
  else reply s (some ((List.range len).map fun i => l2Byte s (off + i)))

def execHostBar4Read (off len : Nat) (s : State) : Outcome := .next (bar4Read s off len)

/-! ## Completions of the device's own host accesses, R269 -/

/-- The first access of an item that the host must still answer. -/
def firstFar (o : Out) : Option LaneAcc := (farAccs o.work).head?

/-- The port of an access at the host. -/
def farPort (s : State) (gk : Nat) (a : LaneAcc) : Nat :=
  match a.locs with
  | some (.glob pa mt :: _) => hostPort s (launchOf s gk).func mt pa
  | _ => 0

/-- An outstanding item without some of its accesses, and the registers of lanes at or below `l` written. -/
def setRest (g : Group) (o : Out) (rest : Work) (l : Nat) : Group :=
  { g with outs := g.outs.map fun x => if x.seq = o.seq then
      { x with work := rest, live := x.live.filter fun t => match t with | .v k _ => decide (l < k) | _ => true } else x }

/-- The host has answered an access: it is performed with those of lower lanes; those of higher lanes are still to come (R258). -/
def farDone (s : State) (gk : Nat) (o : Out) (a : LaneAcc) : State :=
  let rest := dropAccs o fun x => decide (x.lane ≤ a.lane)
  if (workAccs rest.work).isEmpty then performItem s gk o
  else performWith s gk (dropAccs o fun x => decide (a.lane < x.lane)) fun g => setRest g o rest.work a.lane

/-- The host has not answered an access normally: the access violation in the lanes it was made for, with %fadr at its first byte; the item
goes on without it (R261, R268, R269). -/
def farFails (s : State) (gk : Nat) (o : Out) (a : LaneAcc) : State :=
  let rest := dropAccs o fun x => x == a
  let s := updGroup s gk fun g =>
    if (workAccs rest.work).isEmpty then retire g o.seq
    else { g with outs := g.outs.map fun x => if x.seq = o.seq then { x with work := rest.work } else x }
  takeLate s gk o.pc false (accRaises (getGroup s gk) o [(a, cACV, 0)])

/-- The same for a replayed access (R252). -/
def elemFar (s : State) (e : Elem) (o : Out) (a : LaneAcc) (ok : Bool) : State :=
  let s := { s with elems := s.elems.filter fun x => x != e }
  if ok then
    let rest := dropAccs o fun x => decide (x.lane ≤ a.lane)
    if (workAccs rest.work).isEmpty then replayItem s e o
    else
      let s := performWith s e.gkey (notOvertaken (getGroup s e.gkey) (dropAccs o fun x => decide (a.lane < x.lane))) id
      { s with elems := s.elems ++ [{ e with act := .item rest }] }
  else
    let lost := lanesMask (accLanes o a)
    let rest := dropAccs o fun x => x == a
    let s := if (workAccs rest.work).isEmpty then dropElems s (sameItem e o.seq)
      else { s with elems := s.elems ++ [{ e with lanes := e.lanes &&& ~~~lost, act := .item { rest with lanes := o.lanes &&& ~~~lost } }] }
    takeLate s e.gkey o.pc false (accRaises (getGroup s e.gkey) o [(a, cACV, 0)])

/-- The item waits for the host's acknowledgement only. -/
def awaitsAck (s : State) (gk : Nat) (o : Out) : Bool :=
  match o.work with
  | .fence true => fenceReady s gk o.seq
  | .release .sys id => !s.rels.any fun r => r.id == id
  | .phsync .sys id false => !s.rels.any fun r => r.id == id
  | _ => false

/-- An instruction whose zero-length read fails (R269): the access violation in its active lanes, %fadr 0. The read has been made. -/
def ackFails (s : State) (gk : Nat) (o : Out) : State :=
  takeLate (updGroup s gk fun g => retire g o.seq) gk o.pc false
    (((lanesOf o.lanes).filter fun l => !(getGroup s gk).exited.getLsbD l).map fun l => ⟨l, cACV, o.pc, 0, 0, 0⟩)

/-- One zero-length read has returned, on the lowest port that still has one to make; when none is left, `settle` ends what waited. -/
def ackAnswer (s : State) (gk : Nat) (o : Out) (ok : Bool) : State :=
  match dirtyPort s with
  | some p => if !ok then ackFails (hostClean s p) gk o else if portUp s p then hostClean s p else s
  | none => s

/-- An element of a replayed access that waits for the host. -/
def farElem (s : State) (gk seq : Nat) : Option (Elem × Out × LaneAcc) :=
  s.elems.findSome? fun e => match e.act with
    | .item o => if e.gkey == gk && o.seq == seq && mayReplay s gk o then (firstFar o).map fun a => (e, o, a) else none
    | _ => none

/-- A host access of an engine command fails: the engine context freezes on it (R269, R274). So it is for a JOB's walk; an MMA takes the
access violation, as for a forbidden access (log entry 115). A command without a host access is not concerned. -/
def engineFails (s : State) (id : Nat) : State :=
  match findCmd s id, findMat s id with
  | some c, _ => if c.waits == 0 && (cmdHost s c).isSome then engineFreeze s c.team c.pc (cmdTag c) c.id else s
  | none, some m => (match (if m.waits == 0 then opHost s m else none) with
    | some a => opFails s m cACV a 0
    | none => s)
  | none, none => s

/-- A completion for a waiter; `ok` says that it is a normal one, which only a port that is up brings. Each answers one access. -/
def hostAnswer (s : State) (w : HostWaiter) (ok : Bool) : State :=
  match w with
  | .lane gk seq =>
    (match findOut s gk seq with
    | some o =>
      if awaitsAck s gk o then ackAnswer s gk o ok
      else match firstFar o with
      | some a =>
        if !mayPerform (getGroup s gk) o then s
        else if !ok then farFails s gk o a
        else if portUp s (farPort s gk a) then farDone s gk o a else s
      | none => s
    | none =>
      match farElem s gk seq with
      | some (e, o, a) => if ok && !portUp s (farPort s gk a) then s else elemFar s e o a ok
      | none => s)
  | .engine id => if ok then s else engineFails s id
  | .freezer => if ok then s else { s with freezer := { s.freezer with hostFail := true } }
  | .ats func page => atsReply s func page ok

def execHostCompletion (w : HostWaiter) (st : HostStatus) (s : State) : Outcome :=
  .next (hostAnswer s w (decide (st = .success)))

/-- No completion within the timeout: as a failed one (R269). -/
def execHostCompletionTimeout (w : HostWaiter) (s : State) : Outcome := .next (hostAnswer s w false)

/-! ## Peers, R303, R305 to R308 -/

/-- The injection acts on an accepted inbound write that covers its byte (R308). -/
def injected (s : State) (off : Nat) (bs : List Byte) : State × List Byte :=
  let v := s.peers.vlinj
  let o := (v.extractLsb' 0 39).toNat
  if v.getLsbD 63 && decide (off ≤ o) && decide (o < off + bs.length) then
    let v' := (v &&& 0x7FFFFFFFFFFFFFFF#64) ||| 0x4000000000000000#64
    ({ s with peers := { s.peers with vlinj := v' } },
      bs.set (o - off) (bs.getD (o - off) 0 ^^^ BitVec.ofNat 8 (2 ^ (v.extractLsb' 39 3).toNat)))
  else (s, bs)

def reqRange (r : PeerReq) : Nat × Nat :=
  match r with
  | .write off bs => (off, bs.length)
  | .read off n => (off, n)
  | .atom off _ _ ty _ _ => (off, tyBytes ty)
  | .copy _ _ _ _ off bs => (off, bs.length)

/-- The request's target and source are admitted (R305). -/
def peerAdmits (s : State) (src : Nat) (r : PeerReq) : Bool :=
  let p := s.peers
  let q := reqRange r
  decide (p.impbase.toNat * 2 ^ 30 ≤ q.1) && decide (q.1 + q.2 ≤ (p.impbase.toNat + p.implen.toNat) * 2 ^ 30) &&
    decide (q.1 + q.2 ≤ Config.dramBytes) && p.impacl.getLsbD (src % 4096)

/-- What a port answers to a request: bytes, or an abort. -/
def peerReply (s : State) (port : Nat) (r : Option (List Byte)) : State :=
  { s with peers := { s.peers with reply := s.peers.reply ++ [(port, r)] } }

/-- What the receiving interface keeps of a peer's checked copy. -/
def copyIn (s : State) (src cmd base len : Nat) (start : Word) : CopyIn :=
  (s.peers.copies.find? fun x => x.src == src && x.cmd == cmd).getD ⟨src, cmd, base, len, start, []⟩

/-- Bytes of a checked copy are handed to L2. Each is taken into the CRC once; when all are there, the state over them in ascending order
goes back to the sender (R278, R307, R310). -/
def copyTaken (s : State) (port src : Nat) (x : CopyIn) (off : Nat) (bs : List Byte) : State :=
  let got := (List.range bs.length).foldl (fun t i => match tabFind t (off + i) with
    | some _ => t
    | none => tabPut t (off + i) (bs.getD i 0)) x.got
  let others := s.peers.copies.filter fun y => !(y.src == src && y.cmd == x.cmd)
  let mine := got.filter fun e => decide (x.base ≤ e.1) && decide (e.1 < x.base + x.len)
  if mine.length = x.len then
    peerReply { s with peers := { s.peers with copies := others } } port (some (leBytes 4 (crcBytes x.start (mine.map (·.2))).toNat))
  else { s with peers := { s.peers with copies := { x with got := got } :: others } }

/-- An admitted request is performed at L2, an atomic as R265 and R266 give it; a read of a lost byte is aborted, and a write of one is not
made (R93). -/
def peerPerform (s : State) (port src : Nat) (r : PeerReq) : State :=
  let q := reqRange r
  if rangeLost s q.1 q.2 then (match r with | .write _ _ => s | _ => peerReply s port none)
  else match r with
  | .write off bs => let x := injected s off bs; outsideWrite x.1 off x.2
  | .read off n => peerReply s port (some ((List.range n).map fun i => l2Byte s (off + i)))
  | .atom off op cas ty b cmp =>
    let old := leNat ((List.range q.2).map fun i => l2Byte s (off + i))
    let s := if cas && old != cmp.toNat % 2 ^ tyBits ty then s
      else outsideWrite s off (leBytes q.2 (if cas then b.toNat % 2 ^ tyBits ty else atomNew op ty old b.toNat))
    peerReply s port (some (leBytes q.2 old))
  | .copy cmd base len start off bs =>
    let x := injected s off bs
    copyTaken (outsideWrite x.1 off x.2) port src (copyIn x.1 src cmd base len start) off x.2

/-- A request at a port whose link core has been released (R429): any that is not admitted freezes the port to inbound requests and a record
names the port and the source. -/
def peerInbound (s : State) (port src : Nat) (r : PeerReq) : State :=
  let p := getPort s port
  if p.frozen || p.down || !released s (.link port) then s
  else if peerAdmits s src r then peerPerform s port src r
  else fatalRecord (updPort s port fun p => { p with frozen := true }) 0 none
    ⟨0, 0, 0, 0, 0, 0, 0, BitVec.ofNat 64 (port % 32 + src % 4096 * 2 ^ 16), 0, 0x06⟩

def execPeerInboundRequest (port src : Nat) (req : PeerReq) (s : State) : Outcome := .next (peerInbound s port src req)

/-- A port goes down: a hardware-error record names it, and its unacknowledged requests are sent again, under their identifiers, on the
ports that are left (R306). The requests outstanding on lines that change their port are the earlier ones there (R304). -/
def portDown (s : State) (port : Nat) : State :=
  let old := (getPort s port).sent.map fun f => (f.xid, f.line)
  let t := noteEarly s (updPort s port fun p => { p with down := true, sent := [], again := [] })
  hwRecord (drainUnsent { t with peers := { t.peers with unsent := old ++ t.peers.unsent } }) (BitVec.ofNat 64 port)

/-- Bits [1983:0] of a flit (R305). -/
def flitBits (f : Flit) : Nat := f.hdr.toNat + f.seq.toNat * 2 ^ 40 + f.ack.toNat * 2 ^ 52 + f.payload.toNat * 2 ^ 64

/-- The CRC that a flit must carry. -/
def flitCrc (f : Flit) : BitVec 64 := BitVec.ofNat 64 (crc64 (leBytes 248 (flitBits f)))

/-- The 256 bytes of a flit. -/
def flitBytes (f : Flit) : List Byte := leBytes 248 (flitBits f) ++ leBytes 8 f.crc.toNat

/-- A sequence number at or behind another, of numbers at most 2,048 apart. -/
def seqBy (a b : BitVec 12) : Bool := decide ((b - a).toNat < 2048)

/-- A NAK names a flit to be sent again: those before it have arrived, and it and those behind it are sent again out of the replay buffer.
One that has failed as a first sending and 16 replays takes the port down (R306). -/
def nakTaken (s : State) (port : Nat) (seq : BitVec 12) : State :=
  let p := getPort s port
  let n := if p.nakd = some seq then p.tries + 1 else 1
  let left := p.sent.filter fun f => seqBy seq f.seq
  let s := updPort s port fun p => { p with nakd := some seq, tries := n, sent := left, again := left }
  if 16 < n then portDown s port else drainUnsent s

/-- An acknowledgement: flits up to it leave the replay buffer, among them perhaps the one that was asked for again. -/
def ackTaken (p : LinkPort) (ack : BitVec 12) : LinkPort :=
  let p := { p with sent := p.sent.filter fun f => !seqBy f.seq ack, again := p.again.filter fun f => !seqBy f.seq ack }
  match p.nakd with
  | some n => if seqBy n ack then { p with nakd := none, tries := 0 } else p
  | none => p

/-- What an intact flit carries. A transaction identifier of a source is performed once. -/
def flitBody (s : State) (port : Nat) (b : FlitBody) : State :=
  match b with
  | .req src xid r =>
    if s.peers.seen.contains (src, xid) then s
    else peerInbound { s with peers := { s.peers with seen := s.peers.seen ++ [(src, xid)] } } port src r
  | .nak seq => nakTaken s port seq
  | .other => s

/-- A flit is taken when its CRC holds and its SEQ is the next; else a NAK names the expected SEQ. The first failure and 16 failing
replays of one flit take the port down (R306). -/
def flitReceive (s : State) (port : Nat) (f : Flit) : State :=
  let p := getPort s port
  if p.down || !released s (.link port) then s
  else if f.crc == flitCrc f && f.seq == p.expSeq then
    flitBody (drainUnsent (updPort s port fun p => ackTaken { p with expSeq := p.expSeq + 1, fails := 0, nak := none } f.ack)) port f.body
  else
    let n := if f.crc != flitCrc f then p.fails + 1 else p.fails
    let s := updPort s port fun p => { p with fails := n, nak := some p.expSeq }
    if 16 < n then portDown s port else s

def execFlitReceive (port : Nat) (f : Flit) (s : State) : Outcome := .next (flitReceive s port f)

/-- A VLINJ write by the physical function (R308). -/
def vlinjWrite (s : State) (func : Nat) (v : DWord) : State :=
  if func = 0 then
    let fired := s.peers.vlinj.getLsbD 62 && !v.getLsbD 62
    { s with peers := { s.peers with vlinj := (v &&& 0x800003FFFFFFFFFF#64) ||| (if fired then 0x4000000000000000#64 else 0) } }
  else s

def execVlinjWrite (func : Nat) (v : DWord) (s : State) : Outcome := .next (openWrite s func (vlinjWrite s func v))

/-! ## Plaza, R237, R238 -/

/-- No launch is resident, pre-empted or frozen, and no engine is active. -/
def deviceIdle (s : State) : Bool :=
  s.teams.isEmpty && s.cmds.isEmpty && s.mats.isEmpty && !s.launches.any fun e => e.2.frozen.isSome

def plzcfgWrite (s : State) (func : Nat) (v : Word) : State :=
  let n := (v.extractLsb' 0 4).toNat
  if !running s || func != 0 || decide (8 < n) || n == s.supply.plzSize || !deviceIdle s then s
  else
    let s := l2WriteBack s fun _ => true
    { s with plaza := [], supply := { s.supply with plzSize := n } }

def execPlazaResize (func : Nat) (v : Word) (s : State) : Outcome := .next (plzcfgWrite s func v)

/-- PLZFn: LEN and BASE keep their values where a write is out of range (R436). -/
def plzfWrite (s : State) (func n : Nat) (v : Word) : State :=
  if !running s || func != 0 || !(decide (n < Config.functions)) || !deviceIdle s then s
  else
    let old := tabGet 0#32 s.supply.plzf n
    let len := if (v.extractLsb' 12 12).toNat ≤ 256 then v.extractLsb' 12 12 else old.extractLsb' 12 12
    let base := if (v.extractLsb' 0 12).toNat ≤ 255 then v.extractLsb' 0 12 else old.extractLsb' 0 12
    { s with supply := { s.supply with plzf := tabPut s.supply.plzf n (len.zeroExtend 32 <<< 12 ||| base.zeroExtend 32) } }

def execPlazaRangeWrite (func n : Nat) (v : Word) (s : State) : Outcome := .next (plzfWrite s func n v)

/-! ## PCIe ports, R296, R300, R429 -/

def updPcie (s : State) (p : Nat) (f : PciePort → PciePort) : State :=
  { s with pcie := { s.pcie with ports := tabUpd pcieReset s.pcie.ports p f } }

def execPcieLinkDown (port : Nat) (s : State) : Outcome :=
  .next (if port < 2 then updPcie s port fun p => { p with up := false } else s)

/-- A port trains to what the partner offers: a rate of at most 7 and a width of R296. Port 1 stays down until step 7. -/
def linkTrain (s : State) (port rate width : Nat) : State :=
  if port < 2 && decide (1 ≤ rate) && decide (rate ≤ 7) && [1, 2, 4, 8, 16].contains width && (port == 0 || running s) then
    updPcie s port fun p => { p with up := true, rate := rate, width := width }
  else s

def execLinkTrain (port rate width : Nat) (s : State) : Outcome := .next (linkTrain s port rate width)

/-- The functions of a port, with their BARs (R296, R297, R431). -/
def configRead (s : State) (port func : Nat) : CfgReply :=
  if port = 1 then (if func = 0 then .present true [] else .absent)
  else if func = 0 then .present false (if safeState s then [(0, 2 ^ 26)] else [(0, 2 ^ 26), (2, 2 ^ 23), (4, s.pcie.bar4)])
  else if func ≤ s.pcie.numVfs then .present false [(0, 2 ^ 20), (2, 2 ^ 23)]
  else .absent

/-- A function's ATS is switched: its translations go, and the elements that waited for one walk again. -/
def setAts (s : State) (func : Nat) (on : Bool) : State :=
  let s := { s with pcie := { s.pcie with atc := s.pcie.atc.filter (fun e => e.1 != func), grants := s.pcie.grants.filter fun e => e.1 != func } }
  let es := sortBy (elemRank s) (s.elems.filter fun e => e.pri && e.func == func && !hasPlace e && onCore s e)
  walkEach (updFunc s func fun x => { x with ats := on }) es fun _ => none

/-- What a configuration request of port 0 sets; absent where it names no function or no value that the port has. -/
def configSet (s : State) (r : CfgReq) : Option State :=
  match r with
  | .read _ => none
  | .numVfs n => if n ≤ (if safeState s then 0 else 63) then some { s with pcie := { s.pcie with numVfs := n } } else none
  | .bar4 lg => if !safeState s && decide (30 ≤ lg) && decide (lg ≤ 39) then some { s with pcie := { s.pcie with bar4 := 2 ^ lg } } else none
  | .ats f on => if f ≤ s.pcie.numVfs then some (setAts s f on) else none
  | .pri f on => if f ≤ s.pcie.numVfs then some (updFunc s f fun x => { x with pri := on }) else none

/-- A configuration request: Request Retry Status on port 0 until enumeration is admitted (R429), or the safe state entered (R431);
a port that is down answers nothing. -/
def configRequest (s : State) (ask : CfgAsk) : State :=
  let reply := fun (s : State) (a : CfgReply) => { s with pcie := { s.pcie with cfgReply := s.pcie.cfgReply ++ [(ask.port, a)] } }
  if !portUp s ask.port || !decide (ask.port < 2) then s
  else if !(s.anchor.state == 4 || s.anchor.state == 5) then reply s .retry
  else match ask.req with
    | .read f => reply s (configRead s ask.port f)
    | r => (match (if ask.port = 0 then configSet s r else none) with
      | some s => reply s .taken
      | none => reply s .absent)

def execConfigRequest (ask : CfgAsk) (s : State) : Outcome := .next (configRequest s ask)

end Sys2Proof.Machine
end

