-- ==== Sys2Proof/Machine/Interrupt.lean ====
section
/-! DEFINITION. Pre-emption on request (R406) and precise stops (R422). -/

namespace Sys2Proof.Machine

/-! ## FPRE, R406 -/

/-- A resident team of the function is still to swap. -/
def stillLeaving (s : State) (f : Nat) : Bool :=
  s.teams.any fun e => funcTeam s f e.2 && e.2.place == .resident && e.2.leaving

/-- FPRE by the physical function: GO pre-empts the function's teams below priority 7, and HOLD keeps them and its unplaced launches
off until a GO with HOLD 0. -/
def fpreWrite (s : State) (func : Nat) (v : Word) : State :=
  if func ≠ 0 then s
  else
    let f := (v.extractLsb' 0 6).toNat
    let s := { s with freezer := { s.freezer with fpre := v.extractLsb' 0 6, fhold := v.getLsbD 29 } }
    if v.getLsbD 31 then
      let s := updFunc s f fun x => { x with hold := v.getLsbD 29 }
      let s := markLeaving s fun _ t => funcTeam s f t && decide ((getLaunch s t.launch).pri < 7)
      { s with freezer := { s.freezer with fbusy := stillLeaving s f, fjob := f } }
    else s

def execFprePreempt (func : Nat) (v : Word) (s : State) : Outcome :=
  .next (if v.getLsbD 29 then s else openWrite s func (fpreWrite s func v))

def execFprePreemptHold (func : Nat) (v : Word) (s : State) : Outcome :=
  .next (if v.getLsbD 29 then openWrite s func (fpreWrite s func v) else s)

/-- BUSY falls when every resident team of the function has swapped. -/
def fpreDone (s : State) : State :=
  if s.freezer.fbusy && !stillLeaving s s.freezer.fjob then { s with freezer := { s.freezer with fbusy := false } } else s

/-! ## STOPCTL and RSMCTL, R422 -/

/-- A team named by a write of a KIND: by the label of its launch, and for kinds 1 and 2 by its index. -/
def stopNames (s : State) (kind : Nat) (v : DWord) (t : Team) : Bool :=
  (getLaunch s t.launch).label == s.freezer.slabel &&
    (kind == 0 || decide (t.task = (v.extractLsb' 0 32).toNat))

/-- The KIND that a write of STOPCTL or RSMCTL gives the register: 3 is none of its values, and leaves KIND as it stands (R422, R436). -/
def kindOf (old v : DWord) : Nat := if (v.extractLsb' 61 2).toNat = 3 then (old.extractLsb' 61 2).toNat else (v.extractLsb' 61 2).toNat

/-- The fields of STOPCTL and RSMCTL that are kept: KIND and TEAM. -/
def kindWord (old v : DWord) : DWord := BitVec.ofNat 64 (kindOf old v * 2 ^ 61) ||| (v &&& 0x00000000FFFFFFFF#64)

/-- STOPCTL by the physical function. A GO stops the named teams that are not stopped: each leaves its cores, and its record names the
thread of kind 2, or thread 0; a team that is off its cores already has its record at once. Kind 0 also keeps the launch's unplaced
teams off. -/
def stopWrite (s : State) (func : Nat) (v : DWord) : State :=
  let kind := kindOf s.freezer.stop v
  if func ≠ 0 then s
  else
    let s := { s with freezer := { s.freezer with stop := kindWord s.freezer.stop v } }
    if !v.getLsbD 63 then s
    else
      let ks := (s.teams.filter fun e => stopNames s kind v e.2 && !e.2.stopped && e.2.place != .reserved).map (·.1)
      let tid := if kind = 2 then s.freezer.stid.toNat else 0
      let s := ks.foldl (fun s k => updTeam s k fun t => { t with stopped := true, stopTid := some tid }) s
      let s := if kind = 0 then
          { s with launches := s.launches.map fun e => if e.2.label == s.freezer.slabel && e.2.stage == .accepted then (e.1, { e.2 with held := true }) else e }
        else s
      let s := markLeaving s fun k _ => ks.contains k
      ks.foldl (fun s k => if (getTeam s k).place == .resident then s else dueStop s k) s

/-- RSMCTL by the physical function: the named teams may be placed again. -/
def resumeWrite (s : State) (func : Nat) (v : DWord) : State :=
  let kind := kindOf s.freezer.rsm v
  if func ≠ 0 then s
  else
    let s := { s with freezer := { s.freezer with rsm := kindWord s.freezer.rsm v } }
    if !v.getLsbD 63 then s
    else
      let s := { s with teams := s.teams.map fun e => if stopNames s kind v e.2 then (e.1, { e.2 with stopped := false }) else e }
      if kind = 0 then
        { s with launches := s.launches.map fun e => if e.2.label == s.freezer.slabel then (e.1, { e.2 with held := false }) else e }
      else s

/-- A write of one KIND, as the register then holds it. -/
def ofKind (k func : Nat) (old v : DWord) (s t : State) : Outcome := .next (if kindOf old v = k then openWrite s func t else s)

def execStopLaunch (func : Nat) (v : DWord) (s : State) : Outcome := ofKind 0 func s.freezer.stop v s (stopWrite s func v)

def execStopTeam (func : Nat) (v : DWord) (s : State) : Outcome := ofKind 1 func s.freezer.stop v s (stopWrite s func v)

def execStopThread (func : Nat) (v : DWord) (s : State) : Outcome := ofKind 2 func s.freezer.stop v s (stopWrite s func v)

def execResumeLaunch (func : Nat) (v : DWord) (s : State) : Outcome := ofKind 0 func s.freezer.rsm v s (resumeWrite s func v)

def execResumeTeam (func : Nat) (v : DWord) (s : State) : Outcome := ofKind 1 func s.freezer.rsm v s (resumeWrite s func v)

def execResumeThread (func : Nat) (v : DWord) (s : State) : Outcome := ofKind 2 func s.freezer.rsm v s (resumeWrite s func v)

end Sys2Proof.Machine
end

