-- ==== Sys2Proof/Machine/Freeze.lean ====
section
/-! DEFINITION. FREEZE and THAW (R410 to R414), and the function-level reset. -/

namespace Sys2Proof.Machine

/-! ## The host side -/

/-- The place of a PCIe address (R295). -/
def hostPlace (a : DWord) : Nat := 2 ^ 54 + a.toNat % 2 ^ 54

/-- Bytes that the device reads from the host at system scope. -/
def hostRead (s : State) (a : DWord) (n : Nat) : List Byte := (List.range n).map fun i => sysByte s (hostPlace a + i)

/-- The extent list: local offset and length. -/
def extents (s : State) : List (Nat × Nat) :=
  (List.range s.freezer.next.toNat).map fun i =>
    let b := hostRead s (s.freezer.ext + BitVec.ofNat 64 (16 * i)) 16
    (leNat (b.take 8), leNat (b.drop 8))

/-- Every extent is aligned to 64 KiB and lies in local DRAM. -/
def extentsOk (es : List (Nat × Nat)) : Bool :=
  es.all fun e => decide (e.1 % 65536 = 0) && decide (e.2 % 65536 = 0) && decide (e.1 + e.2 ≤ Config.dramBytes)

/-- A host access of the operation has failed, or its function has no port to make one on (R269, R300). -/
def hostGone (s : State) (f : Nat) : Bool := s.freezer.hostFail || !hostUp s f 0 (hostPlace s.freezer.img)

/-! ## The image, R412 -/

/-- Base and length of a function's plaza range in bytes (R237). -/
def plazaRange (s : State) (f : Nat) : Nat × Nat :=
  let x := tabGet 0#32 s.supply.plzf f
  ((x.extractLsb' 0 12).toNat * 2 ^ 20, (x.extractLsb' 12 12).toNat * 2 ^ 20)

/-- What a FREEZE reads of local memory or of the plaza: a free value where a failed region held the byte or hides it (log entry 96). -/
def frozenByte (s : State) (ticket a : Nat) : Byte := if (homeLost s a).isSome then Config.lostByte ticket a else l2Byte s a
def frozenPlaza (s : State) (ticket o : Nat) : Byte :=
  if (plazaLost s o).isSome then Config.lostByte ticket (2 ^ 57 + o) else memRead s.plaza o

/-- What a function's sections 0x03 to 0x05 hold; its teams stand in the spill area. -/
def frozenOf (s : State) (f : Nat) : FrozenImg :=
  let mine := fun gk => funcTeam s f (teamOf s gk)
  let gs := s.graphs.filter fun e => e.2.gown == f
  let ts := s.teams.filter fun e => funcTeam s f e.2
  { uid := s.uid, sizes := (extents s).map (·.2)
    teams := ts.map fun e => (e.1, bareTeam e.2)
    images := ts.map fun e => (e.1, imageBytes s e.1)
    groups := (s.groups.filter fun e => mine e.1).map fun e => (e.1, bareGroup e.2)
    launches := s.launches.filter fun e => e.2.func == f
    queues := s.queues.filter fun e => e.2.owner == f
    xings := s.xings.filter fun e => e.2.owner == f
    graphs := gs
    fregs := getFunc s f
    elems := s.elems.filter fun e => mine e.gkey
    mats := s.mats.filter fun m => funcTeam s f (getTeam s m.team)
    recs := s.recs.filter fun w => w.func == f && w.held.isSome
    nodes := gs.flatMap fun e => (List.range e.2.nodes).map fun i => (e.2.gbase + i, tabGet 0 s.store (e.2.gbase + i)) }

/-- The five sections. -/
def imageSections (s : State) (f ticket : Nat) : List (List Byte) :=
  let p := plazaRange s f
  let x := frozenOf s f
  [(extents s).flatMap fun e => (List.range e.2).map fun i => frozenByte s ticket (e.1 + i),
   (List.range p.2).map fun i => frozenPlaza s ticket (p.1 + i), ctxSection x, frontSection x, regSection x]

/-- Lengths of sections, and the offset of section i when they follow one another from 4,096 (log entry 51). -/
def sectionAt (lens : List Nat) (i : Nat) : Nat := 4096 + (lens.take i).foldl (· + ·) 0

def imageTotal (lens : List Nat) : Nat := sectionAt lens lens.length + 32

def imageHeader (f : Nat) (lens : List Nat) : List Byte :=
  let h := leBytes 4 0x4D59375A ++ leBytes 4 1 ++ leBytes 4 f ++ leBytes 4 lens.length ++ leBytes 8 (imageTotal lens) ++
    List.replicate 40 0 ++
    (List.range lens.length).flatMap fun i => leBytes 8 (i + 1) ++ leBytes 8 (sectionAt lens i) ++ leBytes 8 (lens.getD i 0)
  h ++ List.replicate (4096 - h.length) 0

/-! ## FREEZE, R411 -/

/-- The function holds resident, pre-empted or frozen launches. -/
def funcBusy (s : State) (f : Nat) : Bool :=
  s.teams.any (fun e => funcTeam s f e.2) || s.launches.any fun e => e.2.func == f && e.2.frozen.isSome

/-- Every team of the function stands in the spill area. -/
def allSpilled (s : State) (f : Nat) : Bool :=
  s.teams.all fun e => !funcTeam s f e.2 || (e.2.place == .spilled && !gridEnded (getLaunch s e.2.launch))

/-- The page-request slots of a function are cleared; its elements walk again at restoration. -/
def clearSlots (s : State) (f : Nat) : State :=
  let s := (List.range 64).foldl (fun s i => setSlot s f i { getSlot s f i with valid := false, waiters := 0 }) s
  { s with elems := s.elems.map fun e => if e.func == f then { e with slot := none } else e }

/-- Words of a digest, R410. -/
def digestWords (d : List Byte) : List (Nat × Word) :=
  (List.range 8).map fun i => (i, BitVec.ofNat 32 (leNat ((d.drop (4 * i)).take 4)))

/-- The function's contexts are all spilled, and every core has released: clear, write the image, store its digest. The status of the
operation. -/
def freezeEnd (s : State) (f : Nat) : State × BitVec 8 :=
  let s := clearSlots s f
  let no := fun (st : BitVec 8) => (updFunc s f fun x => { x with freezing := false }, st)
  if hostGone s f then no 0x07
  else if !extentsOk (extents s) then no 0x02
  else
    let secs := imageSections s f s.fresh
    let lens := secs.map (·.length)
    if s.freezer.len.toNat < imageTotal lens then no 0x01
    else
      let body := imageHeader f lens ++ secs.flatten
      let d := sha256 body
      let s := sysPut { s with fresh := s.fresh + 1 } (hostPlace s.freezer.img) (body ++ d)
      ({ s with
          launches := s.launches.map fun e => if e.2.func == f then (e.1, { e.2 with frozen := some f }) else e
          recs := s.recs.filter fun w => !(w.func == f && w.held.isSome)
          freezer := { s.freezer with len := BitVec.ofNat 64 (imageTotal lens), dig := digestWords d } }, 0)

/-! ## Restored names -/

/-- Launches, teams and what carries their numbers take new numbers, `b` higher. -/
def moveLoc (b : Nat) (l : Loc) : Loc := match l with | .scr t o => .scr (t + b) o | l => l

def moveWork (b : Nat) (w : Work) : Work :=
  match w with
  | .boinit loc k => .boinit (loc.1 + b, loc.2) k
  | .boarr loc k sd => .boarr (loc.1 + b, loc.2) k sd
  | .bowait loc g hit => .bowait (loc.1 + b, loc.2) g hit
  | .botest loc g pd x => .botest (loc.1 + b, loc.2) g pd x
  | .launch recs cyc => .launch (recs.map fun r => if 1000 ≤ r.1 then (r.1 + b, r.2) else r) cyc
  | .ldone _ => .ldone none
  | w => mapAccs w fun as => as.map fun a => { a with locs := a.locs.map fun ls => ls.map (moveLoc b) }

def moveOut (b : Nat) (o : Out) : Out := { o with work := moveWork b o.work }

def moveElem (b f : Nat) (e : Elem) : Elem :=
  { e with gkey := e.gkey + 96 * b, func := f, slot := none, replied := false, act := match e.act with
    | .item o => .item (moveOut b o)
    | .matrix i => .matrix (i + b)
    | a => a }

def moveGroup (b f : Nat) (g : Group) : Group :=
  { g with team := g.team + b, outs := g.outs.map (moveOut b),
           held := g.held.map fun h => { h with elems := h.elems.map (moveElem b f) } }

def moveOrigin (b : Nat) (o : Origin) : Origin :=
  match o with
  | .packet q i x n => .packet q (i + b) x n
  | .node g n is => .node g n is
  | .thread p t n => .thread (p + b) (t + b) n

def moveMat (b : Nat) (m : MatOp) : MatOp :=
  { m with id := m.id + b, team := m.team + b, signers := m.signers.map fun x => { x with gkey := x.gkey + 96 * b } }

def moveReq (b : Nat) (r : RunReq) : RunReq := { r with packet := r.packet.map fun p => (p.1, p.2 + b) }

/-! ## THAW, R413, R414 -/

/-- The section lengths of a well-formed header, else nothing. -/
def headerLens (h : List Byte) : Option (List Nat) :=
  let num := fun (o n : Nat) => leNat ((h.drop o).take n)
  let lens := (List.range 5).map fun i => num (64 + 24 * i + 16) 8
  if num 0 4 = 0x4D59375A ∧ num 4 4 = 1 ∧ num 12 4 = 5 ∧
      ((List.range 5).all fun i => decide (num (64 + 24 * i) 4 = i + 1) && decide (num (64 + 24 * i + 8) 8 = sectionAt lens i)) = true ∧
      num 16 8 = imageTotal lens then some lens else none

/-- The target owns what the image holds, by number, and its plaza range is long enough for the image's. -/
def targetOk (s : State) (f : Nat) (x : FrozenImg) (plz : Nat) : Bool :=
  (x.queues.all fun e => (getQueue s e.1).owner == f) && (x.xings.all fun e => (getXing s e.1).owner == f) &&
    (x.graphs.all fun e => (getGraph s e.1).gown == f) && decide (plz ≤ (plazaRange s f).2)

/-- Put everything back under the target function; its stage 2 is its own (log entry 50). -/
def thawApply (s : State) (f : Nat) (x : FrozenImg) (es : List (Nat × Nat)) (mem plz : List Byte) : State :=
  let b := s.uid
  let s := (es.foldl (fun (r : State × List Byte) e => (sysPut r.1 e.1 (r.2.take e.2), r.2.drop e.2)) (s, mem)).1
  let base := (plazaRange s f).1
  let s := { s with plaza := memWriteList s.plaza base plz, uid := b + x.uid }
  let old := getFunc s f
  let s := setFunc s f { x.fregs with s2root := old.s2root, freezing := false, hold := old.hold, low := old.low, tbusy := false, tdrain := [],
                                       ats := old.ats, pri := old.pri }
  let s := x.queues.foldl (fun s e => setQueue s e.1 { e.2 with owner := f, since := e.2.since + b, open' := e.2.open'.map (· + b) }) s
  let s := x.xings.foldl (fun s e => setXing s e.1 { e.2 with owner := f }) s
  let s := x.graphs.foldl (fun s e => setGraph s e.1 { e.2 with gown := f, pend := e.2.pend.map (moveReq b), run := e.2.run.map (moveReq b) }) s
  let s := { s with store := x.nodes.foldl (fun m e => tabPut m e.1 e.2) s.store }
  let s := x.launches.foldl (fun s e =>
    setLaunch s (e.1 + b) { e.2 with origin := moveOrigin b e.2.origin, func := f, order := e.2.order + b, frozen := none }) s
  let s := x.teams.foldl (fun s e => setTeam s (e.1 + b) { e.2 with launch := e.2.launch + b }) s
  let s := x.groups.foldl (fun s e => setGroup s (e.1 + 96 * b) (moveGroup b f e.2)) s
  { s with elems := s.elems ++ x.elems.map (moveElem b f), mats := s.mats ++ x.mats.map (moveMat b),
           recs := s.recs ++ x.recs.map fun w => { w with func := f, held := w.held.map fun h => (h.1 + 96 * b, h.2) } }

/-- THAW: every check, then the restoration. The status of the operation. -/
def thawEnd (s : State) (f : Nat) : State × BitVec 8 :=
  let h := hostRead s s.freezer.img 4096
  if funcBusy s f then (s, 0x05)
  else if hostGone s f then (s, 0x07)
  else match headerLens h with
    | none => (s, 0x04)
    | some lens =>
      let n := imageTotal lens
      let es := extents s
      if s.freezer.len.toNat < n then (s, 0x01)
      else if !extentsOk es then (s, 0x02)
      else
        let all := hostRead s s.freezer.img n
        let d := all.drop (n - 32)
        let sec := fun i => (all.drop (sectionAt lens i)).take (lens.getD i 0)
        let img := sectionsBack (sec 2) (sec 3) (sec 4)
        let sizes := es.map (·.2)
        if lens.getD 0 0 ≠ sizes.foldl (· + ·) 0 ∨ (img.map (·.sizes)).getD sizes ≠ sizes then (s, 0x06)
        else if sha256 (all.take (n - 32)) ≠ d ∨ digestWords d ≠ (List.range 8).map (fun i => (i, tabGet 0 s.freezer.dig i)) then (s, 0x03)
        else match img.bind imgWhole with
          | none => (s, 0x04)
          | some x => if !targetOk s f x (lens.getD 1 0) then (s, 0x08) else (thawApply s f x es (sec 0) (sec 1), 0)

/-! ## FRZCTL, R410 -/

/-- FRZCTL by the physical function. -/
def frzctlWrite (s : State) (func : Nat) (v : Word) : State :=
  if func ≠ 0 then s
  else
    let op := v.extractLsb' 28 2
    let f := (v.extractLsb' 16 6).toNat
    let s := { s with freezer := { s.freezer with op := op, func := v.extractLsb' 16 6 } }
    if !v.getLsbD 31 || s.freezer.busy || decide (2 ≤ op.toNat) then s
    else
      let s := { s with freezer := { s.freezer with busy := true, phase := op.toNat + 1, job := f, hostFail := false, frees := none } }
      if op = 0 then markLeaving (updFunc s f fun x => { x with freezing := true }) fun _ t => funcTeam s f t else s

def execFreeze (func : Nat) (v : Word) (s : State) : Outcome :=
  .next (if v.extractLsb' 28 2 = 0 then openWrite s func (frzctlWrite s func v) else s)

def execThaw (func : Nat) (v : Word) (s : State) : Outcome :=
  .next (if v.extractLsb' 28 2 = 1 then openWrite s func (frzctlWrite s func v) else s)

/-- The operation ends: BUSY falls, STATUS is set, vector 4 of the physical function is signalled (R298). A FREEZE begins its release on
every core once the function's contexts are spilled, and ends once that has completed. -/
def frzDone (s : State) : State :=
  let f := s.freezer.job
  let done := fun (r : State × BitVec 8) =>
    signal { r.1 with freezer := { r.1.freezer with busy := false, phase := 0, status := r.2, hostFail := false, frees := none } } 0 4
  if s.freezer.phase = 1 then
    if !allSpilled s f then s
    else match s.freezer.frees with
      | none =>
        let r := releaseAll s (List.range Config.cores) .sys
        { r.1 with freezer := { r.1.freezer with frees := some r.2 } }
      | some ids => if relsOver s ids then done (freezeEnd s f) else s
  else if s.freezer.phase = 2 then done (thawEnd s f)
  else s

def execFreezeThawEnd (s : State) : Outcome := .next (frzDone s)

/-! ## Function-level reset -/

/-- The frozen launches of the function go, without completion records; so do the runs of its graphs that waited on them, and its
queues no longer count the packets that they came from (log entry 52). -/
def flr (s : State) (f : Nat) : State :=
  let dead := s.launches.filter fun e => e.2.func == f && e.2.frozen.isSome
  let ts := (s.teams.filter fun e => dead.any fun l => l.1 == e.2.launch).map (·.1)
  let toks := dead.filterMap fun e => match e.2.origin with | .packet q i _ _ => some (q, i) | _ => none
  let runs := (s.graphs.filter fun e => e.2.gown == f && dead.any fun l => match l.2.origin with | .node g _ _ => g == e.1 | _ => false).filterMap
    fun e => e.2.run.bind (·.packet)
  let s := ts.foldl forgetTeam s
  { s with
      launches := s.launches.filter fun e => !(e.2.func == f && e.2.frozen.isSome)
      queues := s.queues.map fun e => (e.1, { e.2 with open' := e.2.open'.filter fun i => !((toks ++ runs).contains (e.1, i)) })
      graphs := s.graphs.map fun e =>
        if e.2.gown == f && dead.any (fun l => match l.2.origin with | .node g _ _ => g == e.1 | _ => false) then
          (e.1, { e.2 with run := none, prog := [], flying := 0, abandoned := false })
        else e
      obs := if dead.any (fun l => s.obs.rlaunch == some l.1) then { s.obs with rlaunch := none } else s.obs
      funcs := tabPut s.funcs f { getFunc s f with freezing := false } }

def execFunctionLevelReset (func : Nat) (s : State) : Outcome := .next (flr s func)

end Sys2Proof.Machine
end

