-- ==== Sys2Proof/Machine/Observe.lean ====
section
/-! DEFINITION. Evictions (R240, R241), the counters and the histogram engine (R416 to R421), and the passes of a replay (R423 to
R425). -/

namespace Sys2Proof.Machine

/-! ## Evictions -/

/-- The L1 of a core writes a 64-byte line's dirty bytes back under their mask, and holds it no more (R240); the line's words leave
the instruction part and the constant cache too. -/
def evictL1 (s : State) (core line : Nat) : State :=
  let s := l1WriteBack s core fun pa => pa / 64 == line
  updCore s core fun x => { x with
    l1 := x.l1.filter fun e => e.1 / 64 != line
    icache := x.icache.filter fun e => e.1 / 8 != line
    kcache := x.kcache.filter fun e => e.1 / 16 != line }

def execL1Eviction (core line : Nat) (s : State) : Outcome := .next (if core < Config.cores then evictL1 s core line else s)

/-- A matrix operation has pinned the line (R323). -/
def linePinned (s : State) (line : Nat) : Bool := s.mats.any fun m => m.chunks.any fun c => c.line == some line

/-- L2 writes a 256-byte line's dirty bytes back to DRAM or the host, merged with what stands there, and holds it no more (R241). A pinned
line stays (R323), and host bytes stay while no port is up. -/
def evictL2 (s : State) (line : Nat) : State :=
  if linePinned s line then s
  else if hostBacked (256 * line) && !portUp s (freePort s (256 * line)) then s
  else l2WriteBack (noteBack s (freePort s) fun pa => pa / 256 == line) fun pa => pa / 256 == line

def execL2Eviction (line : Nat) (s : State) : Outcome := .next (evictL2 s line)

/-! ## Evictions that a full cache forces, R238, R239, R262 (log entry 39) -/

/-- Take lines out of a cache until it holds no more than its capacity: which line makes room is a free value each time. -/
def makeRoom (cap : Nat) (lines : State → List Nat) (evict : State → Nat → State) (s : State) : State :=
  (List.range ((lines s).length - cap)).foldl (fun s _ =>
    let ls := lines s
    if ls.length ≤ cap then s
    else evict { s with fresh := s.fresh + 1 } (ls.getD (Config.victim s.fresh % ls.length) 0)) s

/-- The lines of `n` keys each that a table holds. -/
def lineKeys {α : Type} (t : List (Nat × α)) (n : Nat) : List Nat := (t.map fun e => e.1 / n).eraseDups

/-- A line of the data part of a core's L1 makes room: its dirty bytes are written back (R240). -/
def dropData (c : Nat) (s : State) (line : Nat) : State :=
  updCore (l1WriteBack s c fun pa => pa / 64 == line) c fun x => { x with l1 := x.l1.filter fun e => e.1 / 64 != line }

/-- The caches of a core hold what their capacities allow: data, instruction words, constants. -/
def trimCore (s : State) (c : Nat) : State :=
  let s := if (getCore s c).l1.length ≤ Config.l1Lines then s
    else makeRoom Config.l1Lines (fun s => lineKeys (getCore s c).l1 64) (dropData c) s
  let s := if (getCore s c).icache.length ≤ Config.icacheLines then s
    else makeRoom Config.icacheLines (fun s => lineKeys (getCore s c).icache 8)
      (fun s n => updCore s c fun x => { x with icache := x.icache.filter fun e => e.1 / 8 != n }) s
  if (getCore s c).kcache.length ≤ Config.kcacheLines then s
  else makeRoom Config.kcacheLines (fun s => lineKeys (getCore s c).kcache 16)
    (fun s n => updCore s c fun x => { x with kcache := x.kcache.filter fun e => e.1 / 16 != n }) s

/-- Lines that L2 has left beside the plaza (R238). -/
def l2Room (s : State) : Nat := Config.l2Lines - s.supply.plzSize * 2 ^ 17

/-- L2 holds no more than its capacity, but for pinned lines, and for host lines while no port is up. -/
def trimL2 (s : State) : State :=
  if s.l2.length ≤ l2Room s then s
  else makeRoom (l2Room s) (fun s => (lineKeys s.l2 256).filter fun n =>
    !linePinned s n && !(hostBacked (256 * n) && !portUp s (freePort s (256 * n)))) evictL2 s

def trimCaches (s : State) : State := trimL2 (s.cores.foldl (fun (s : State) (e : Nat × Core) => trimCore s e.1) s)

/-! ## Counters, R416, R417 -/

/-- CNTCLR by the physical function. -/
def cntclrWrite (s : State) (func : Nat) (v : Word) : State :=
  if func = 0 && v.getLsbD 0 then { s with cores := s.cores.map fun e => (e.1, { e.2 with cnt := [] }) } else s

def execCounterClear (func : Nat) (v : Word) (s : State) : Outcome := .next (openWrite s func (cntclrWrite s func v))

/-- The exact value of a Q32 result that the RAT port rounds, for event 0x07 (R219). -/
def resPasses (r : Res) : Nat :=
  match r with
  | .fin _ n d _ => qPasses n d
  | _ => 0

/-- The passes of a word in one lane. -/
def lanePasses (c : Ctx) (i : Instr) (l : Nat) : Nat :=
  let two := fun (ty : FTy) (a b : Spec) (f : Val → Val → Res) =>
    if !actsQ32 c.g.rat ty then 0
    else match fOpnd c l ty a, fOpnd c l ty b with
      | .ok x, .ok y => resPasses (f (qVal x) (qVal y))
      | _, _ => 0
  match i with
  | .fadd _ ty _ _ _ a b => two ty a b resAdd
  | .fsub _ ty _ _ _ a b => two ty a b fun x y => resAdd x (valNeg y)
  | .fmul _ ty _ _ _ a b => two ty a b resMul
  | .fdiv _ ty _ _ _ a b => two ty a b resDiv
  | .fmac h ty _ _ d a b e => (match fOpnd c l ty (thirdOf h d e) with
    | .ok z => two ty a b fun x y => resFma x y (qVal z)
    | .error _ => 0)
  | .cvt _ dty sty _ _ _ sel _ a => (match (if dty = .q32 then readOp c l sty a else .error 0) with
    | .ok x => (match tyVal sty (elemOf sty sel.toNat x) with
      | .fin _ n d => qPasses n d
      | _ => 0)
    | .error _ => 0)
  | .qmake _ ty _ _ a b => (match readOp c l (iTy ty) a, readOp c l (iTy ty) b with
    | .ok x, .ok y => resPasses (resDiv (intVal (readInt ty x)) (intVal (readInt ty y)))
    | _, _ => 0)
  | .qmed _ _ _ a b => (match readOp c l .q32 a, readOp c l .q32 b with
    | .ok x, .ok y => (match qPair x, qPair y with
      | some p, some q => if p.2 + q.2 = 0 then 0 else qPasses (p.1 + q.1).natAbs (p.2 + q.2)
      | _, _ => 0)
    | _, _ => 0)
  | _ => 0

/-- Event 0x07 of a word about to act: the greatest number of passes over its active lanes. -/
def notePasses (s : State) (u : Issue) (i : Instr) : State :=
  if s.obs.evsel = 0 then s
  else
    let c := ctxOf s u i
    countEv s c.core 0x07 ((lanesOf c.active).foldl (fun m l => max m (lanePasses c i l)) 0)

/-! ## The histogram engine, R420, R421 -/

/-- HCTL by the physical function; REQ requests an export, and counting that begins opens an interval. -/
def hctlWrite (s : State) (func : Nat) (v : Word) : State :=
  if func ≠ 0 then s
  else
    let on := v.getLsbD 31 && !s.obs.hctl.getLsbD 31
    { s with obs := { s.obs with hctl := v &&& 0xBFFFFFFF#32, hreq := s.obs.hreq || v.getLsbD 30,
                                 hstart := if on then Config.clockAt s.fresh else s.obs.hstart },
             fresh := if on then s.fresh + 1 else s.fresh }

def execHistogramExportReq (func : Nat) (v : Word) (s : State) : Outcome := .next (openWrite s func (hctlWrite s func v))

def execHistogramExportPeriod (s : State) : Outcome :=
  .next (if s.obs.hctl.extractLsb' 0 20 = 0 then s else { s with obs := { s.obs with hreq := true } })

/-- One entry: a header of 64 bytes, whose layout is not given (log entry 9), and the bins. -/
def histEntry (s : State) (tend : DWord) : List Byte :=
  let h := Config.histHeader s.fresh s.obs.hstart tend s.obs.hsat s.obs.hout
  ((List.range 64).map fun i => h.getD i 0) ++ (List.range 4096).flatMap fun i => leBytes 8 (tabGet 0 s.obs.bins i)

/-- The export, once the sink has a free entry. HSINK is an address of the physical function, as RECBASE is (log entry 53). -/
def histExport (s : State) : State :=
  let o := s.obs
  let n := o.hslen.toNat
  if !o.hreq || decide (n ≤ (o.hstail - o.hshead).toNat) then s
  else
    let tend := Config.clockAt (s.fresh + 1)
    let bs := histEntry s tend
    let base := o.hsink.toNat / 4096 * 4096 + 32832 * (o.hstail.toNat % n)
    let s := (List.range bs.length).foldl (fun s i =>
      match recPlace s 0 (base + i) with
      | some pa => sysPut s pa [bs.getD i 0]
      | none => s) s
    signal { s with fresh := s.fresh + 2,
                    obs := { s.obs with hreq := false, bins := [], hsat := false, hstart := tend, hstail := o.hstail + 1 } } 0 3

def execHistogramExportWrite (s : State) : Outcome := .next (histExport s)

/-! ## Replay, R423 to R425 -/

/-- Device-wide sums of counters 16 to 23. -/
def eventSums (s : State) : List DWord :=
  (List.range 8).map fun i => (List.range Config.cores).foldl (fun n c => n + counterOf s c (16 + i)) 0

/-- The record of a pass (kind 0x04), with the slot that follows it (R419). -/
def passRecord (s : State) (l : Launch) : State :=
  let sums := eventSums s
  let time := Config.clockAt s.fresh
  traceWrite { s with fresh := s.fresh + 1 } l.func fun seq =>
    traceBytes time 0 l.label 0 0 0 s.obs.rpass 0x04 l.func seq ++ sums.flatMap fun x => leBytes 8 x.toNat

/-- What a saved page held: a page of local memory, or of the plaza (numbered from 2^57 / 4096). -/
def savedByte (s : State) (a : Nat) : Byte := if a < 2 ^ 57 then memRead s.obs.rmem a else memRead s.obs.rplaza (a - 2 ^ 57)

/-- Saved pages stand in RPLSAVE, an address of the physical function (log entry 53), in the order in which they were saved. -/
def writeSaved (s : State) : State :=
  (List.range s.obs.rpages.length).foldl (fun s i =>
    match recPlace s 0 (s.obs.rplsave.toNat + 4096 * i) with
    | some pa =>
      if 4096 * (i + 1) ≤ s.obs.rplslen.toNat then
        sysPut s pa ((List.range 4096).map fun k => savedByte s (4096 * s.obs.rpages.getD i 0 + k))
      else s
    | none => s) s

/-- Every L1, L2 and every constant cache are written back and hold nothing; every saved page is restored (R424), its sectors being
recorded in every ACQF first (R364). -/
def restorePages (s : State) : State :=
  let s := (List.range Config.cores).foldl (fun s c => updCore (l1WriteBack s c fun _ => true) c fun x => { x with l1 := [], icache := [], kcache := [] }) s
  let s := l2WriteBack s fun _ => true
  s.obs.rpages.foldl (fun s p => (List.range 4096).foldl (fun s k =>
    let a := 4096 * p + k
    if a < 2 ^ 57 then { s with mem := memWrite s.mem a (savedByte s a) }
    else { s with plaza := memWrite s.plaza (a - 2 ^ 57) (savedByte s a) })
    (if p < 2 ^ 45 then acqAddAll s ((List.range 64).map fun i => 4096 * p + 64 * i) else s)) s

def setStat (s : State) (f : Word → Word) : State := { s with obs := { s.obs with rplstat := f s.obs.rplstat } }

/-- A pass has ended: its record, the comparison of the path signatures, and either the next pass over the same memory or, after the
last, the launch's retirement. -/
def passEnd (s : State) (lk : Nat) : State :=
  let o := s.obs
  let l := getLaunch s lk
  let full := decide (o.rplslen.toNat < 4096 * o.rpages.length)
  let s := passRecord s l
  let s := if o.rpass ≠ 1 && o.rsigs != o.rfirst then setStat s (· ||| 2) else s
  let s := if full then setStat s (· ||| 4) else s
  let stat := (s.obs.rplstat &&& 0xFFFFF0FF#32) ||| BitVec.ofNat 32 (o.rpass % 16 * 2 ^ 8)
  let s := writeSaved s
  let s : State := { s with obs := { s.obs with rplstat := stat, rfirst := if o.rpass = 1 then o.rsigs else o.rfirst, rsigs := [] } }
  if full || decide (o.rnpass ≤ o.rpass) then
    retireLaunch { s with obs := { s.obs with rplstat := stat ||| 1, rlaunch := none, rrec := none, rpages := [], rmem := [], rplaza := [] } }
      lk l.fate.toNat true
  else
    let s := restorePages s
    let s := setLaunch { s with obs := { s.obs with rpass := o.rpass + 1, evsel := tabGet 0 o.rplev o.rpass } } lk
      ((o.rrec.getD l))
    let s := updCores s fun _ x => { x with cnt := x.cnt.filter fun e => decide (e.1 < 16) }
    if l.pri = 7 then urgentPreempt s else s

def execReplayPassEnd (s : State) : Outcome :=
  .next (match s.obs.rlaunch with
  | some lk => if gridDone s lk then passEnd s lk else s
  | none => s)

end Sys2Proof.Machine
end

