-- ==== Sys2Proof/Machine/Anchor.lean ====
section
/-! DEFINITION. The anchor: image sets (R427, R428), the release order (R429, R430), the safe state (R431), the mailbox (R432, R433),
the watchdog (R434), attestation (R435), and device reset. -/

namespace Sys2Proof.Machine

def updAnchor (s : State) (f : Anchor → Anchor) : State := { s with anchor := f s.anchor }

/-! ## Image sets, R427, R428 -/

/-- Bytes of a boot slot. -/
def slotBytes (s : State) (slot off n : Nat) : List Byte := memReadList s.anchor.flash (2 ^ 40 * slot + off) n

def slotHead (s : State) (slot : Nat) : List Byte := slotBytes s slot 0 4096

/-- Image k of a slot: management, front-end, link, microcode. -/
def slotImage (s : State) (slot k : Nat) : List Byte :=
  let x := Config.headRange (slotHead s slot) k
  slotBytes s slot x.1 x.2

def imageHolds (s : State) (slot k : Nat) : Bool :=
  sha256 (slotImage s slot k) == Config.headDigest (slotHead s slot) k

/-- The end of the images: the signature stands there. -/
def slotEnd (s : State) (slot : Nat) : Nat :=
  (List.range 4).foldl (fun n k => let x := Config.headRange (slotHead s slot) k; max n (x.1 + x.2)) 4096

/-- The anchor accepts a slot. -/
def slotHolds (s : State) (slot : Nat) : Bool :=
  let h := slotHead s slot
  Config.headMagic h == 0x41464C42#32 && sha256 (Config.headKey h) == Config.fusedKeyDigest &&
    slhVerify (Config.headKey h) (slotBytes s slot 0 (slotEnd s slot)) (slotBytes s slot (slotEnd s slot) 7856) &&
    (List.range 4).all (imageHolds s slot) && decide (s.anchor.minSvn ≤ (Config.headSvn h).toNat)

/-! ## The safe state, R431 -/

/-- All regions but three gate and none wakes; no work is left, nor a queue, crossing or graph; PCIe port 1 and every link port are down; BAR2
and BAR4 have size zero and there is no virtual function; FUNIT names the first failure. -/
def enterSafe (s : State) (funit : Nat) : State :=
  let regions := (List.range Config.regions).map fun r =>
    (r, if Config.safeRegions.contains r then { getRegion s r with want := false }
        else { getRegion s r with gated := true, stage := 0, waking := false, want := false })
  { updCores s (fun _ x => { coreReset with dark := true, cnt := x.cnt }) with
    groups := [], teams := [], launches := [], elems := [], cmds := [], mats := [], signs := [], rels := [], acqs := [], recs := [],
    gang := none, issued := [], cur := none, l2 := [], queues := [], xings := [], graphs := [], store := [], slots := [], tlb := [],
    supply := { s.supply with regions := regions }
    pcie := { s.pcie with bar4 := 0, numVfs := 0, ports := tabUpd pcieReset s.pcie.ports 1 fun p => { p with up := false } }
    peers := { s.peers with ports := (List.range 18).map (fun p => (p, { portReset with down := true })), unsent := [], early := [] }
    anchor := { s.anchor with state := 5, funit := if s.anchor.funit = 0 then funit else s.anchor.funit } }

/-! ## Boot -/

/-- A slot is taken: its SVN runs, the fused minimum rises to it, and the regions begin to wake. -/
def takeBootSlot (s : State) (slot : Nat) : State :=
  let svn := Config.headSvn (slotHead s slot)
  updAnchor (powerUp s) fun a => { a with state := 2, step := 0, slot := slot, svn := svn, minSvn := max a.minSvn svn.toNat }

/-- The slot of the last SELECT is tried first, then the other; with neither, the safe state (R428). -/
def bootVerify (s : State) : State :=
  let a := s.anchor
  match a.state with
  | 0 => if slotHolds s a.sel then takeBootSlot s a.sel else updAnchor s fun a => { a with state := 1 }
  | 1 => if slotHolds s (1 - a.sel) then takeBootSlot s (1 - a.sel) else enterSafe s 1
  | _ => s

def execBootVerify (s : State) : Outcome := .next (bootVerify s)

/-- The step in progress, by the last one completed, is complete (R429); the self-test (step 2) is judged apart. -/
def stepDone (s : State) : Bool :=
  let has := fun (p : Proc) => s.anchor.ready.contains p
  match s.anchor.step with
  | 0 => (List.range Config.regions).all fun r => (getRegion s r).stage == 8
  | 2 => has .management
  | 3 => (List.range 18).all fun n => has (.link n)
  | 4 => (List.range Config.frontEnds).all fun n => has (.frontEnd n)
  | 5 => (List.range Config.cores).all fun n => has (.compute n)
  | _ => true

/-- The items of the power-on self-test, by the FUNIT codes of R432: SRAMs 2, logic 3, regulators 4, links 5, DRAM 6. What the model holds
decides with the free value: a phase that does not work, or a port that is out of order, fails its item (R430; log entry 55). -/
def testItem (s : State) (item : Nat) : Bool :=
  Config.selfTest s.fresh item && match item with
  | 4 => (List.range Config.regions).all fun r => (getRegion s r).phok == 0xF
  | 5 => portUp s 0 && (List.range 18).all fun p => !(getPort s p).down
  | _ => true

/-- The results, item by item. -/
def selfTests (s : State) : List Bool := (List.range 5).map fun k => testItem s (k + 2)

/-- The next step of the release order. Every item of the self-test is judged and kept; a failed one ends it in the safe state with the unit
of the first (R430, R432, R433). -/
def releaseStep (s : State) : State :=
  let a := s.anchor
  if !(a.state == 2 || a.state == 3) || decide (7 ≤ a.step) || !stepDone s then s
  else if a.step = 1 then
    let ts := selfTests s
    let t := updAnchor { s with fresh := s.fresh + 1 } fun a => { a with tests := ts }
    if ts.all id then updAnchor t fun a => { a with step := 2, state := 2 } else enterSafe t (ts.idxOf false + 2)
  else updAnchor s fun a => { a with step := a.step + 1, state := if a.step = 0 then 3 else if a.step = 6 then 4 else 2 }

def execBootReleaseStep (s : State) : Outcome := .next (releaseStep s)

/-- A released processor writes a heartbeat, R434. -/
def beat (s : State) (p : Proc) : State :=
  if released s p && !s.anchor.ready.contains p then updAnchor s fun a => { a with ready := p :: a.ready } else s

def execHeartbeat (p : Proc) (s : State) : Outcome := .next (beat s p)

/-! ## Watchdog, R434 -/

/-- Every launch of every function ends as a fatal fault. -/
def endAll (s : State) : State :=
  { s with launches := s.launches.map fun e =>
      if e.2.stage = .retired then e else (e.1, endWith 0x07 e.2) }

/-- A compute core is reset: the contexts in its banks are lost and their grids end, which is not stated (log entry 56), and its caches,
filters and swap are as at device reset; what departed teams still held there returns. Its counters stay (R417). -/
def resetCore (s : State) (c : Nat) : State :=
  let ts := s.teams.filter fun e => e.2.groups != 0 && e.2.cores.contains c && (e.2.place == .resident || (getCore s c).shadow.contains e.1)
  let s := ts.foldl (fun s e => loseTeam (endGrid s e.2.launch) e.1) s
  let b := (getCore s c).swapBack
  let s := giveCore s c ⟨b.1, b.2.1, b.2.2.1, b.2.2.2⟩
  { updCore s c fun x => { x with
      l1 := [], icache := [], kcache := [], sigf := 0, acqf := 0, swapAt := none, swapBack := (0, 0, 0, 0), shadow := [] } with
    rels := s.rels.filter fun r => r.core != c, acqs := s.acqs.filter fun a => a.core != c }

/-- The image of a processor in the header's order. -/
def procImage (p : Proc) : Nat :=
  match p with
  | .management => 0
  | .frontEnd _ => 1
  | .link _ => 2
  | .compute _ => 3

/-- A released processor missed two heartbeats in a row, of those since its release: the anchor resets it, measures and verifies its image
again, and releases it. The third such reset since power-up leads to the safe state. One whose image does not verify stays in reset. -/
def watchdog (s : State) (p : Proc) : State :=
  if !released s p then s
  else if 2 ≤ s.anchor.resets then enterSafe (updAnchor s fun a => { a with resets := a.resets + 1 }) 7
  else
    let s := updAnchor s fun a => { a with resets := a.resets + 1, ready := a.ready.filter fun q => q != p }
    let s := match p with
      | .management | .frontEnd _ => hwRecord (endAll s) 0
      | .link n => portDown s n
      | .compute n => resetCore s n
    if imageHolds s s.anchor.slot (procImage p) then s else updAnchor s fun a => { a with dead := p :: a.dead }

def execWatchdogExpiry (p : Proc) (s : State) : Outcome := .next (watchdog s p)

/-! ## Device reset -/

/-- The machine after a restart from the ROM. What lies outside the device stays: host and peer memory, with the contents of images
there; the boot flash and the fused minimum stay; `resets` counts since power-up. -/
def restart (s : State) (resets : Nat) : State :=
  { State.reset with
    agenda := s.agenda, fresh := s.fresh, uid := s.uid
    mem := s.mem.filter fun e => hostBacked e.1
    peers := { State.reset.peers with mem := s.peers.mem, far := s.peers.far }
    anchor := { State.reset.anchor with flash := s.anchor.flash, sel := s.anchor.sel, minSvn := s.anchor.minSvn, resets := resets } }

def execDeviceReset (s : State) : Outcome := .next (restart s 0)

/-! ## The mailbox, R432, R433, R435 -/

def bootstat (s : State) : Word :=
  BitVec.ofNat 32 (s.anchor.state + s.anchor.slot * 2 ^ 7 + s.anchor.step * 2 ^ 8 + s.anchor.funit * 2 ^ 12 + s.anchor.svn.toNat * 2 ^ 16)

def mbWrite (s : State) (bs : List Byte) : State := updAnchor s fun a => { a with mbdata := memWriteList a.mbdata 0 bs }

/-- Digests of the images released, in the header's order. -/
def releasedDigests (s : State) : List Byte :=
  ((List.range 4).filter fun k => [decide (2 ≤ s.anchor.step), decide (4 ≤ s.anchor.step), decide (3 ≤ s.anchor.step),
    decide (5 ≤ s.anchor.step)].getD k false).flatMap fun k => sha256 (slotImage s s.anchor.slot k)

/-- The signed report; refused while STATE is below 4. -/
def attest (s : State) : State × BitVec 8 :=
  if s.anchor.state < 4 then (s, 0x01)
  else
    let r := memReadList s.anchor.mbdata 0 32 ++ leBytes 4 (bootstat s).toNat ++ leBytes 1 s.anchor.minSvn ++ releasedDigests s ++
      Config.fusedKeyDigest ++ Config.identityKey
    (mbWrite s (r ++ Config.slhSign r), 0)

/-- The results of the self-test, item by item, as far as they fit in MBDATA. -/
def readlog (s : State) : State × BitVec 8 :=
  (mbWrite s (((List.range 5).flatMap fun k => Config.logItem (k + 2) s.anchor.tests[k]?).take 65536), 0)

def selectSlot (s : State) : State × BitVec 8 :=
  let b := (memRead s.anchor.mbdata 0).toNat
  if b < 2 then (updAnchor s fun a => { a with sel := b }, 0) else (s, 0x02)

/-- One 64 KiB piece goes to the slot that does not run, after the pieces before it (log entry 57). -/
def stagePiece (s : State) : State × BitVec 8 :=
  let at' := 2 ^ 40 * (1 - s.anchor.slot) + s.anchor.stageOff
  (updAnchor s fun a => { a with flash := memWriteList a.flash at' (memReadList a.mbdata 0 65536), stageOff := a.stageOff + 65536 }, 0)

/-- MBCMD by the physical function: a GO of a listed OP starts that command. -/
def mbcmdWrite (s : State) (func : Nat) (v : Word) : State :=
  let op := v.extractLsb' 0 8
  if func ≠ 0 then s
  else if !v.getLsbD 31 then (if s.anchor.mbbusy then s else updAnchor s fun a => { a with mbop := op })
  else if s.anchor.mbbusy || op = 0 || decide (5 < op.toNat) then s
  else if op = 3 then restart s s.anchor.resets
  else
    let r := match op.toNat with
      | 1 => attest s
      | 2 => readlog s
      | 4 => selectSlot s
      | _ => stagePiece s
    updAnchor r.1 fun a => { a with mbop := op, mbbusy := true, mbnext := r.2 }

/-- The next event of an agenda, whose events fall in one anchor cycle (log entry 56): before a write to MBCMD, a watchdog expiry that
stands behind it (R434). -/
def agendaNext : List Instr → Option (Instr × List Instr)
  | [] => none
  | i :: rest =>
    let mb := match i with
      | .mbAttest _ _ | .mbReadlog _ _ | .mbReboot _ _ | .mbSelect _ _ | .mbStage _ _ => true
      | .registerWrite f o _ _ => f == 0 && o == 0x100008
      | _ => false
    let wd := fun (j : Instr) => match j with | .watchdogExpiry _ => true | _ => false
    match (if mb then rest.find? wd else none) with
    | some w => some (w, i :: rest.erase w)
    | none => some (i, rest)

/-- An MBCMD write of one OP. -/
def mbOp (k : Nat) (s : State) (func : Nat) (v : Word) : Outcome := .next (if (v.extractLsb' 0 8).toNat = k then mbcmdWrite s func v else s)

def execMbAttest (func : Nat) (v : Word) (s : State) : Outcome := mbOp 1 s func v

def execMbReadlog (func : Nat) (v : Word) (s : State) : Outcome := mbOp 2 s func v

def execMbReboot (func : Nat) (v : Word) (s : State) : Outcome := mbOp 3 s func v

def execMbSelect (func : Nat) (v : Word) (s : State) : Outcome := mbOp 4 s func v

def execMbStage (func : Nat) (v : Word) (s : State) : Outcome := mbOp 5 s func v

/-- The command ends: RESULT, BUSY falls, vector 5 (R298). -/
def mbDone (s : State) : State :=
  if s.anchor.mbbusy then signal (updAnchor s fun a => { a with mbbusy := false, mbres := a.mbnext }) 0 5 else s

def execMailboxDone (s : State) : Outcome := .next (mbDone s)

end Sys2Proof.Machine
end

