-- ==== Sys2Proof/Machine/Registers.lean ====
section
/-! DEFINITION. The management BAR (R297, R299, R436): which register stands at an offset, how wide it is, and what a write of it
does. Registers with a meaning of their own are written through it. -/

namespace Sys2Proof.Machine

/-! ## Offsets and widths -/

/-- Registers of a function's own block, by offset, with their widths in bytes. Page-request slots are read-only. -/
def blockRegs : List (Nat × Nat) :=
  [(0x0000, 8), (0x0008, 8), (0x0010, 8), (0x0018, 4), (0x1800, 4), (0x2000, 8), (0x200C, 4), (0x2014, 4), (0x2018, 4), (0x201C, 4),
   (0x2020, 4), (0x3000, 8), (0x3008, 8), (0x3010, 8), (0x3018, 4), (0x3020, 4), (0x3024, 4)]

/-- Single registers of the physical function. -/
def physRegs : List (Nat × Nat) :=
  [(0x100008, 4), (0x100010, 4), (0x120000, 4), (0x120004, 4), (0x120008, 4), (0x121000, 4),
   (0x122000, 4), (0x122008, 8), (0x122010, 8), (0x122018, 8), (0x122020, 4), (0x122080, 4), (0x122088, 8), (0x122090, 8),
   (0x122098, 4), (0x1220A0, 8), (0x123000, 8), (0x123008, 4), (0x123010, 4), (0x123018, 8), (0x123020, 8), (0x123028, 4),
   (0x123030, 4), (0x123038, 8), (0x123040, 4), (0x123048, 8), (0x123050, 8), (0x123058, 8), (0x123100, 8), (0x124400, 8),
   (0x124408, 8), (0x140000, 4)]

/-- A row of equal registers: start, how many, distance, width. -/
def physRows : List (Nat × Nat × Nat × Nat) :=
  [(0x120100, 64, 4, 4), (0x120400, 384, 4, 4), (0x121100, 64, 4, 4), (0x122040, 8, 4, 4), (0x123080, 16, 8, 8), (0x124000, 128, 8, 8),
   (0x124800, 64, 8, 8), (0x130000, 1024, 4, 4), (0x131000, 4096, 4, 4), (0x138000, 1024, 16, 8), (0x138008, 1024, 16, 4)]

/-- The place of an offset in a row. -/
def rowIndex (r : Nat × Nat × Nat × Nat) (off : Nat) : Option Nat :=
  if r.1 ≤ off ∧ off < r.1 + r.2.1 * r.2.2.1 ∧ (off - r.1) % r.2.2.1 = 0 then some ((off - r.1) / r.2.2.1) else none

/-- A function's own block and the offset in it: its own, or through the physical function's view any function's. -/
def blockOf (func off : Nat) : Option (Nat × Nat) :=
  if 0x10000 ≤ off && off < 0x20000 then some (func, off - 0x10000)
  else if func = 0 && decide (0x1000000 ≤ off) && decide (off < 0x1000000 + 64 * 0x10000) then
    some ((off - 0x1000000) / 0x10000, off % 0x10000)
  else none

/-- Bytes of the register at an offset of a function's BAR; 0 where none can be written. -/
def regWidth (func off : Nat) : Nat :=
  if off < 0x8000 then tabGet 0 [(0, 8), (8, 4), (0x10, 4), (0x18, 4)] (off % 32)
  else if off < 0x10000 then (if off % 8 = 0 then 4 else 0)
  else match blockOf func off with
    | some (_, o) => tabGet 0 blockRegs o
    | none =>
      if func ≠ 0 then 0
      else match tabFind physRegs off with
        | some w => w
        | none => ((physRows.find? fun r => (rowIndex r off).isSome).map fun r => r.2.2.2).getD 0

/-! ## Writes -/

/-- Queue registers without a meaning of their own: QRING and QSIZE only while EN is 0, QPASID (R32, R33, R244). -/
def queueReg (s : State) (func q o : Nat) (v : DWord) : State :=
  let x := getQueue s q
  if x.owner ≠ func then s
  else match o with
    | 0x00 => if x.en then s else setQueue s q { x with qring := v &&& 0xFFFFFFFFFFFFF000#64 }
    | 0x08 => if x.en then s else setQueue s q { x with qsize := max 4 (min 16 (v.extractLsb' 0 5).toNat) }
    | 0x10 => qctlWrite s func q (v.extractLsb' 0 32)
    | 0x18 => setQueue s q { x with pasid := v.extractLsb' 0 20 }
    | _ => s

/-- Registers of a function's own block (R244, R248, R251, R402, R404, R407, R419). -/
def blockReg (s : State) (func n o : Nat) (v : DWord) : State :=
  let w : Word := v.extractLsb' 0 32
  let upd := updFunc s n
  match o with
  | 0x0000 => if func = 0 then upd fun x => { x with s2root := v &&& 0x00FFFFFFFFFF8001#64 } else s
  | 0x0008 => upd fun x => { x with ptab := v &&& 0x00FFFFFFFFFFFFFF#64 }
  | 0x0010 => upd fun x => { x with tinva := v &&& 0x00FFFFFFFFFFF000#64 }
  | 0x0018 => tinvWrite s func n w
  | 0x1800 => prrepWrite s func n w
  | 0x2000 => upd fun x => { x with recbase := v &&& 0xFFFFFFFFFFFFF000#64 }
  | 0x200C => recHeadWrite s func n false w
  | 0x2014 => recHeadWrite s func n true w
  | 0x2018 => if w.getLsbD 31 then upd fun x => { x with hwdrop := 0 } else s
  | 0x201C => upd fun x => { x with holdtr := w.getLsbD 1, holdbp := w.getLsbD 0 }
  | 0x2020 => rplrepWrite s func n w
  | 0x3000 => upd fun x => { x with spillbase := v }
  | 0x3008 => upd fun x => { x with spilllen := v }
  | 0x3010 => upd fun x => { x with trcbase := v &&& 0xFFFFFFFFFFFFF000#64 }
  | 0x3018 => if 6 ≤ (w.extractLsb' 0 5).toNat ∧ (w.extractLsb' 0 5).toNat ≤ 20 then upd fun x => { x with trclog := w.extractLsb' 0 5 } else s
  | 0x3020 => upd fun x => { x with trchead := w }
  | 0x3024 => upd fun x => { x with trcdrop := x.trcdrop &&& ~~~w }
  | _ => s

def updSupply (s : State) (f : Supply → Supply) : State := { s with supply := f s.supply }
def updFreezer (s : State) (f : Freezer → Freezer) : State := { s with freezer := f s.freezer }
def updObs (s : State) (f : Observe → Observe) : State := { s with obs := f s.obs }
def updPeers (s : State) (f : Peers → Peers) : State := { s with peers := f s.peers }

/-- RWINBn: LEN and RBASE keep their values where a write is out of range (R302). -/
def rwinb (old v : DWord) : DWord :=
  let len := if (v.extractLsb' 26 9).toNat ≤ 384 then v.extractLsb' 26 9 else old.extractLsb' 26 9
  let base := if (v.extractLsb' 0 26).toNat ≤ 383 then v.extractLsb' 0 26 else old.extractLsb' 0 26
  (len.zeroExtend 64 <<< 26) ||| base.zeroExtend 64

/-- Single registers of the physical function (R87, R308, R410, R417, R420, R422, R423). -/
def physReg (s : State) (func off : Nat) (v : DWord) : State :=
  let w : Word := v.extractLsb' 0 32
  match off with
  | 0x100008 => mbcmdWrite s func w
  | 0x100010 => updPeers s fun p => { p with nodeid := w.extractLsb' 0 12 }
  | 0x120000 => tctlWrite s func w
  | 0x120004 => updSupply s fun u => { u with capw := max 600 (min 2400 (w.extractLsb' 0 12).toNat) }
  | 0x120008 => if w.getLsbD 31 then updSupply s fun u => { u with ktrips := 0 } else s
  | 0x121000 => plzcfgWrite s func w
  | 0x122000 => frzctlWrite s func w
  | 0x122008 => updFreezer s fun f => { f with img := v }
  | 0x122010 => updFreezer s fun f => { f with len := v }
  | 0x122018 => updFreezer s fun f => { f with ext := v }
  | 0x122020 => if 1 ≤ (w.extractLsb' 0 17).toNat ∧ (w.extractLsb' 0 17).toNat ≤ 65536 then updFreezer s fun f => { f with next := w.extractLsb' 0 17 } else s
  | 0x122080 => fpreWrite s func w
  | 0x122088 => stopWrite s func v
  | 0x122090 => updFreezer s fun f => { f with slabel := v }
  | 0x122098 => updFreezer s fun f => { f with stid := w }
  | 0x1220A0 => resumeWrite s func v
  | 0x123000 => updObs s fun o => { o with evsel := v }
  | 0x123008 => cntclrWrite s func w
  | 0x123010 => hctlWrite s func w
  | 0x123018 => updObs s fun o => { o with hbase := v }
  | 0x123020 => updObs s fun o => { o with hsink := v &&& 0xFFFFFFFFFFFFF000#64 }
  | 0x123028 => updObs s fun o => { o with hslen := w.extractLsb' 0 16 }
  | 0x123030 => updObs s fun o => { o with hshead := w }
  | 0x123038 => updObs s fun o => { o with hout := o.hout &&& ~~~v }
  | 0x123040 => updObs s fun o => { o with rplctl := w &&& 0x8F00003F#32 }
  | 0x123048 => updObs s fun o => { o with rpllabel := v }
  | 0x123050 => updObs s fun o => { o with rplsave := v }
  | 0x123058 => updObs s fun o => { o with rplslen := v }
  | 0x123100 => vlinjWrite s func v
  | 0x124400 => updPeers s fun p => { p with impbase := v }
  | 0x124408 => updPeers s fun p => { p with implen := v }
  | 0x140000 => prrepxWrite s func w
  | _ => s

/-- Registers of a row: TSCR, RPWR, PLZF, FRZDIG, RPLEV, peer windows, IMPACL, ownership and graphs. -/
def rowReg (s : State) (func start n : Nat) (v : DWord) : State :=
  let w : Word := v.extractLsb' 0 32
  match start with
  | 0x120100 => updSupply s fun u => { u with tscr := tabPut u.tscr n (w &&& 0x0FFF4FFF#32) }
  | 0x120400 => if w.getLsbD 0 then gateRegion s func n else wakeRegion s func n
  | 0x121100 => plzfWrite s func n w
  | 0x122040 => updFreezer s fun f => { f with dig := tabPut f.dig n w }
  | 0x123080 => updObs s fun o => { o with rplev := tabPut o.rplev n v }
  | 0x124000 => noteEarly s (updPeers s fun p =>
      if n % 2 = 0 then { p with rwina := tabPut p.rwina (n / 2) (v &&& 0xFFFFFFFE00000000#64) }
      else { p with rwinb := tabPut p.rwinb (n / 2) (rwinb (tabGet 0 p.rwinb (n / 2)) v) })
  | 0x124800 => updPeers s fun p =>
      { p with impacl := (p.impacl &&& ~~~(BitVec.ofNat 4096 (2 ^ 64 - 1) <<< (64 * n))) ||| (v.zeroExtend 4096 <<< (64 * n)) }
  | 0x130000 => ownWrite s func false n w
  | 0x131000 => ownWrite s func true n w
  | 0x138000 => graphConfig s func n false v
  | 0x138008 => graphConfig s func n true v
  | _ => s

/-- A write of a whole register. -/
def regWrite (s : State) (func off : Nat) (v : DWord) : State :=
  if off < 0x8000 then queueReg s func (off / 32) (off % 32) v
  else if off < 0x10000 then xcfgWrite s func ((off - 0x8000) / 8) (v.extractLsb' 0 32)
  else match blockOf func off with
    | some (n, o) => blockReg s func n o v
    | none =>
      if (tabFind physRegs off).isSome then physReg s func off v
      else match physRows.find? fun r => (rowIndex r off).isSome with
        | some r => rowReg s func r.1 ((rowIndex r off).getD 0) v
        | none => s

/-! ## The lower half of 64-bit registers -/

/-- The current value of a 64-bit register, whose lower half a write of the upper half alone keeps. -/
def regValue (s : State) (func off : Nat) : DWord :=
  if off < 0x8000 then (getQueue s (off / 32)).qring
  else match blockOf func off with
    | some (n, o) =>
      let x := getFunc s n
      tabGet 0 [(0x0000, x.s2root), (0x0008, x.ptab), (0x0010, x.tinva), (0x2000, x.recbase), (0x3000, x.spillbase), (0x3008, x.spilllen),
        (0x3010, x.trcbase)] o
    | none =>
      let f := s.freezer
      let o := s.obs
      let p := s.peers
      match tabFind [(0x122008, f.img), (0x122010, f.len), (0x122018, f.ext), (0x122088, f.stop), (0x122090, f.slabel), (0x1220A0, f.rsm),
          (0x123000, o.evsel), (0x123018, o.hbase), (0x123020, o.hsink), (0x123038, o.hout), (0x123048, o.rpllabel), (0x123050, o.rplsave),
          (0x123058, o.rplslen), (0x123100, p.vlinj), (0x124400, p.impbase), (0x124408, p.implen)] off with
      | some v => v
      | none =>
        if 0x123080 ≤ off && off < 0x123100 then tabGet 0 o.rplev ((off - 0x123080) / 8)
        else if 0x124000 ≤ off && off < 0x124400 then tabGet 0 (if off % 16 = 0 then p.rwina else p.rwinb) ((off - 0x124000) / 16)
        else if 0x124800 ≤ off && off < 0x124A00 then (p.impacl >>> (8 * (off - 0x124800))).setWidth 64
        else if 0x138000 ≤ off && off < 0x13C000 then
          let g := getGraph s ((off - 0x138000) / 16)
          BitVec.ofNat 64 (g.glen + g.gvec.toNat * 2 ^ 24 + g.gbase * 2 ^ 32 + g.gown * 2 ^ 48 + g.gpri.toNat * 2 ^ 56)
        else 0

/-- The register may be written in this state: until the device runs, and in the safe state, the mailbox only (R429, R431). -/
def regOpen (s : State) (off : Nat) : Bool := running s || off == 0x100008 || (decide (0x110000 ≤ off) && decide (off < 0x120000))

/-- A write of the mailbox buffer, in aligned words of 4 or 8 bytes (log entry 58). -/
def mbdataWrite (s : State) (off width : Nat) (v : DWord) : State :=
  if (width = 4 ∨ width = 8) ∧ off % width = 0 then
    updAnchor s fun a => { a with mbdata := memWriteList a.mbdata (off - 0x110000) (leBytes width v.toNat) }
  else s

/-- A write of `width` bytes at an offset of a function's BAR0. A write of another width, or misaligned, or at an offset with no
register, or by a virtual function that the host has not enabled, is ignored; a lower half is held until the same function writes the
upper half. -/
def registerWrite (s : State) (func off width : Nat) (v : DWord) : State :=
  if !regOpen s off || !(decide (func < Config.functions)) || decide (s.pcie.numVfs < func) then s
  else if func = 0 && decide (0x110000 ≤ off) && decide (off < 0x120000) then mbdataWrite s off width v
  else if width = regWidth func off ∧ off % width = 0 ∧ width ≠ 0 then
    regWrite s func off (if width = 4 then (v.extractLsb' 0 32).zeroExtend 64 else v)
  else if width = 4 ∧ regWidth func off = 8 ∧ off % 8 = 0 then
    updFunc s func fun x => { x with low := tabPut x.low off (v.extractLsb' 0 32) }
  else if width = 4 ∧ off % 8 = 4 ∧ regWidth func (off - 4) = 8 then
    let low := match tabFind (getFunc s func).low (off - 4) with
      | some w => w
      | none => (regValue s func (off - 4)).extractLsb' 0 32
    let s := updFunc s func fun x => { x with low := tabErase x.low (off - 4) }
    regWrite s func (off - 4) ((v.extractLsb' 0 32).zeroExtend 64 <<< 32 ||| low.zeroExtend 64)
  else s

def execRegisterWrite (func off width : Nat) (v : DWord) (s : State) : Outcome := .next (registerWrite s func off width v)

end Sys2Proof.Machine
end

