-- ==== Sys2Proof/Machine/Settle.lean ====
section
/-! DEFINITION. What follows at once from a change of the state: barriers that release (R372, R373), waits whose condition holds
(R228, R279, R378, R380, R286, R383), launches handed over (R382), records that find a slot (R404), queue heads that are read and
checked (R437), groups without a lane left (R137), cores that switch off (R92), and caches that make room (R238, R239). Every step ends with it. -/

namespace Sys2Proof.Machine

/-! ## Barriers -/

/-- Group `gi` of a team is expected at its barriers. -/
def expects (s : State) (tk gi : Nat) : Bool :=
  let g := getGroup s (groupKey tk gi)
  decide (g.live &&& ~~~g.exited &&& ~~~g.parked ≠ 0)

/-- A released group goes on behind its BAR, with the lanes that still stand at it; causes that came meanwhile park their lanes there
(R190). -/
def passBar (n : Nat) (s : State) (gk : Nat) : State :=
  match (getGroup s gk).outs.find? fun o => match o.work with | .bar k r _ => k == n && r | _ => false with
  | some o =>
    let here := fun (g : Group) => lanesMask ((lanesOf o.lanes).filter fun l => pcOf g l == o.pc)
    dueCauses (updGroup s gk fun g => retire (setPcs g (here g) o.next) o.seq) gk o.lanes
  | none => s

/-- Barrier n of a team releases when every expected group has a recorded arrival there. -/
def testBar (s : State) (tk n : Nat) : State :=
  let t := getTeam s tk
  let here := tabGet [] t.bars n
  if here.isEmpty || (List.range t.groups).any fun gi => expects s tk gi && !here.contains gi then s
  else
    let s := here.foldl (fun s gi => passBar n s (groupKey tk gi)) s
    updTeam s tk fun t => { t with bars := tabErase t.bars n }

def settleBars (s : State) : State :=
  s.teams.foldl (fun (s : State) (e : Nat × Team) =>
    if e.2.place == .resident then e.2.bars.foldl (fun (s : State) (b : Nat × List Nat) => testBar s e.1 b.1) s else s) s

/-! ## Waits -/

/-- Every thread of the lanes has no child left (R383). -/
def childless (s : State) (gk : Nat) (m : Lanes) : Bool :=
  let g := getGroup s gk
  (lanesOf m).all fun l => tabGet 0 (teamOf s gk).children (threadNo g l) == 0

/-- Every record of a LAUNCH has been taken by the front end. -/
def allTaken (s : State) (recs : List (Nat × DWord)) : Bool :=
  recs.all fun r => decide (1000 ≤ r.1) && (match tabFind s.launches (r.1 - 1000) with
    | some l => l.stage != .handed
    | none => true)

def setWork (s : State) (gk seq : Nat) (w : Work) : State :=
  updGroup s gk fun g => { g with outs := g.outs.map fun o => if o.seq = seq then { o with work := w } else o }

/-- A fence is over: every access before it has been performed, and at .sys the host has acknowledged its writes (R380). -/
def fenceOver (s : State) (gk seq : Nat) (sys : Bool) : Bool :=
  fenceReady s gk seq && !(sys && hostDirty s)

/-- LAUNCH words whose records wait for room, in the order in which they came: of one cycle the lower core number first (R55, R382). -/
def waitingRecs (s : State) : List (Nat × Nat) :=
  (sortBy (fun (x : Nat × Nat × Nat) => x.1) (s.groups.flatMap fun e => e.2.outs.filterMap fun o => match o.work with
    | .launch recs cyc =>
      if recs.any fun r => decide (r.1 < 1000) then
        some (cyc * (96 * Config.cores + 96) + 96 * coreOf s e.1 + ((e.2.slot).getD 0) % 96, e.1, o.seq) else none
    | _ => none)).map (·.2)

/-- They hand over what the front end has room for (R55, R382), unless their function is being frozen (R411). -/
def handWaiting (s : State) : State :=
  (waitingRecs s).foldl (fun s x =>
    if (getFunc s (launchOf s x.1).func).freezing then s
    else match findOut s x.1 x.2 with
      | some o => (match o.work with
        | .launch recs cyc => let r := handRecs s x.1 recs; setWork r.1 x.1 x.2 (.launch r.2 cyc)
        | _ => s)
      | none => s) s

/-- One item of a group that stands on a core. -/
def settleOut (s : State) (gk : Nat) (o : Out) : State :=
  let t := teamOf s gk
  let done := updGroup s gk fun g => retire g o.seq
  match o.work with
  | .bowait loc g hit =>
    if mayPerform (getGroup s gk) o && (hit || objGen (objRead s loc) != g) then setWork s gk o.seq (.fence false) else s
  | .botest loc g pd true =>
    if mayPerform (getGroup s gk) o && objGen (objRead s loc) != g then setWork s gk o.seq (testTrue o pd).work else s
  | .waitAny m => if m = 0 || t.done &&& m ≠ 0 then done else s
  | .waitAll m => if ~~~t.done &&& m = 0 then done else s
  | .sfw m => if tokensBusy (getGroup s gk) &&& m = 0 then done else s
  | .fence sys => if fenceOver s gk o.seq sys then done else s
  | .release _ id => if s.rels.any fun r => r.id == id then s else releaseOver s gk o
  | .phsync _ id false => if s.rels.any fun r => r.id == id then s else releaseOver s gk o
  | .fenceOpnd => if opndReady s gk o.seq then done else s
  | .launch recs _ => if allTaken s recs then done else s
  | .ldone none =>
    if childless s gk o.lanes then setWork (acquireTake { s with uid := s.uid + 1 } s.uid (coreOf s gk) none) gk o.seq (.ldone (some s.uid)) else s
  | _ => s

/-- Some lane of a chosen set still stands there. -/
def chosenHere (g : Group) : Bool := match g.chosen with | some (pc, m) => decide (m &&& lanesAt g pc ≠ 0) | none => false

/-- A lane set whose word waits at issue under R252 stays chosen (R294); a set all of whose lanes have left for their handler is no longer
one. -/
def keepChosen (s : State) (gk : Nat) : State :=
  let g := getGroup s gk
  if chosenHere g || !parkedAny s gk || !mayRun s gk then s
  else match nextWord s gk with
    | some (u, .instr i) =>
      let parks := match i with | .fence _ _ | .phrel _ _ | .phsync _ _ => decide ((ctxOf s u i).active ≠ 0) | _ => false
      if parks then setGroup s gk { g with chosen := some (u.pc, u.lanes) } else s
    | _ => s

/-- A fence of a group whose team has left its core ends there once its accesses have been performed, and a release whose write-backs the
host has acknowledged (R380, R407). A LAUNCH that has issued still ends when its records are taken (R382). -/
def settleAway (s : State) (gk : Nat) (o : Out) : State :=
  match o.work with
  | .fence _ => settleOut s gk o
  | .release _ _ => settleOut s gk o
  | .phsync _ _ false => settleOut s gk o
  | .fenceOpnd => settleOut s gk o
  | .launch _ _ => settleOut s gk o
  | _ => s

/-- A group: its items and, where it stands on a core, its slot's state and its choice. -/
def settleGroup (s : State) (gk : Nat) : State :=
  let g := getGroup s gk
  if g.slot.isNone then g.outs.foldl (fun s o => settleAway s gk o) s
  else
    let s := g.outs.foldl (fun s o => settleOut s gk o) s
    let s := updGroup s gk fun g => if g.live &&& ~~~g.exited = 0 then { g with sstate := .spent } else g
    keepChosen s gk

/-! ## The front end's heads -/

/-- A WAIT at the head that is not satisfied shows as WAITING, for whatever reason it waits: a freeze or an ORDER hold among them (R33,
R42, R437; log entry 112). -/
def markWaiting (s : State) (q : Nat) : State :=
  let x := getQueue s q
  match x.head with
  | some h =>
    if pktType h == 0x03 && !canStart s q && !x.waiting then updQueue s q fun x => { x with waiting := true } else s
  | none => s

def settleQueues (s : State) : State := s.queues.foldl (fun (s : State) (e : Nat × Queue) => markWaiting (prepHead s e.1) e.1) s

/-- THE END OF EVERY STEP. -/
def settle (s : State) : State :=
  let s := handWaiting (settleBars (replayWaiting s))
  let s := s.groups.foldl (fun (s : State) (e : Nat × Group) => settleGroup s e.1) s
  let s := if s.recs.isEmpty then s else serveRecs s
  trimCaches (invDrain (fpreDone (gateAll (settleQueues s))))

end Sys2Proof.Machine
end

