-- ==== Sys2Proof/Machine/Cycle.lean ====
section
/-! DEFINITION. What the machine does between issues: the next internal event, when one can happen, else the end of a cycle with its
slots counted (R416), its swaps (R139, R140), and its signatures judged (R349). -/

namespace Sys2Proof.Machine

/-! ## Internal events -/

def after (o : Outcome) (s : State) : State := match o with | .next t => t | _ => s

/-- The first of these events that changes the state. -/
def firstChange (s : State) : List (State → Outcome) → Option State
  | [] => none
  | f :: fs => if after (f s) s = s then firstChange s fs else some (after (f s) s)

/-- Boot and firmware (R428, R429, R433, R434), the PF's engines (R410, R421), drained invalidations (R248). -/
def bootEvents (s : State) : List (State → Outcome) :=
  [execBootVerify, execBootReleaseStep, execHeartbeat .management] ++ (List.range 18).map (fun n => execHeartbeat (.link n)) ++
  (List.range Config.frontEnds).map (fun n => execHeartbeat (.frontEnd n)) ++ (List.range Config.cores).map (fun n => execHeartbeat (.compute n)) ++
  [execMailboxDone, execFreezeThawEnd, execHistogramExportWrite] ++ s.funcs.map (fun e => execTinvDrainDone e.1)

/-- The event of a queue's head packet. -/
def headEvent (s : State) (q : Nat) : State → Outcome :=
  match ((getQueue s q).head).map pktType with
  | some 0x00 => execPacketNop q
  | some 0x01 => execPacketLaunch q
  | some 0x02 => execPacketSignal q
  | some 0x03 => if (getQueue s q).waiting then execWaitSatisfied q else execPacketWait q
  | some 0x04 => execPacketGraph q
  | some 0x05 => execPacketGload q
  | _ => execPacketMark q

/-- The event of a graph's node. -/
def nodeEvent (s : State) (g n : Nat) : State → Outcome :=
  match nodeType (nodeAt s g n) with
  | 0x00 => execGraphNodeNop g n
  | 0x01 => execGraphNodeLaunch g n
  | 0x06 => execGraphNodeMark g n
  | 0x10 => execGraphNodeCond g n
  | _ => execGraphNodeLoop g n

/-- The front end: grids that retire, what it starts next, runs and nodes of graphs, passes of a replay. -/
def frontEvents (s : State) : List (State → Outcome) :=
  s.launches.map (fun e => execGridRetire e.1) ++ (match startChoice s with
    | some (.queue q) => [headEvent s q]
    | some (.launch _) => [execLaunchAccept]
    | none => []) ++
  s.graphs.flatMap (fun e => execGraphRunStart e.1 :: e.2.prog.map fun p => nodeEvent s e.1 p.1) ++ [execReplayPassEnd]

/-- Teams and cores: releases, swaps, spills, and the roundabout. -/
def teamEvents (s : State) : List (State → Outcome) :=
  s.teams.map (fun e => execTeamRelease e.1) ++
  (s.teams.flatMap fun e => if e.2.leaving then e.2.cores.map execCoreSwap else []) ++
  (s.cores.filter fun e => e.2.swapAt.isSome).map (fun e => execSwapComplete e.1) ++
  (s.cores.filter fun e => !e.2.shadow.isEmpty).map (fun e => execSpillComplete e.1) ++ [execRoundaboutPlace]

/-- The groups in ascending core number and slot, those off their cores last. -/
def bySlot (s : State) : List (Nat × Group) := sortBy (fun e => (e.2.slot).getD (96 * Config.cores)) s.groups

/-- Engines and matrix operations, then the items of groups in the order of their slots (R375, R385); releases and acquires. -/
def unitEvents (s : State) : List (State → Outcome) :=
  (s.cmds.flatMap fun c => [execEngineAccept c.id, execEngineComplete c.id, execXformComplete c.id]) ++
  (s.mats.flatMap fun m => [execJobOperation m.id, execMmaStep m.id, execJobWalkEnd m.id]) ++
  ((bySlot s).flatMap fun e => e.2.outs.flatMap fun o =>
    [execLongResultWrite e.1 o.seq, execAccessPerformed e.1 o.seq, execSfqEntryComplete e.1 o.seq]) ++
  s.rels.map (fun r => execReleaseComplete r.id) ++ s.acqs.map (fun a => execAcquireComplete a.id) ++
  s.groups.map (fun e => execBarArrivalRecord e.1)

/-- Waking regions (R94). -/
def powerEvents (s : State) : List (State → Outcome) :=
  (s.supply.regions.filter fun e => e.2.waking).map (fun e => execGateStage e.1) ++
  (s.supply.regions.filter fun e => e.2.want).map (fun e => execWakeGrant (segmentOf e.1))

/-- The next internal event: the first that can happen, in a fixed order (log entry 60). -/
def autoEvent (s : State) : Option State :=
  firstChange s (unitEvents s ++ teamEvents s ++ frontEvents s ++ powerEvents s ++ bootEvents s)

/-! ## The slots of a cycle, R416 -/

/-- An entry carried over from an earlier cycle, whose word still takes the first slot (R149, R262). -/
def carried (m : Nat) : Bool := m.testBit 40

/-- Further cycles of an entry. -/
def extraOf (m : Nat) : Nat := m / 2 ^ 12 % 2 ^ 28

/-- A test of the work of a group's outstanding items. -/
def outHas (g : Group) (p : Work → Bool) : Bool := g.outs.any fun o => p o.work

/-- A test of the word that a group would issue next. -/
def nextWordIs (s : State) (gk : Nat) (p : Issue → Instr → Bool) : Bool :=
  match nextWord s gk with
  | some (u, .instr i) => p u i
  | _ => false

/-- The group waits for an acquire, or for a fence or release, to end. -/
def acquiring (g : Group) : Bool := outHas g fun w => match w with | .acquire _ | .phsync _ _ true => true | _ => false
def fencing (g : Group) : Bool := outHas g fun w => match w with | .fence _ | .release _ _ | .phsync _ _ false => true | _ => false

/-- The next word of a group that no item holds. -/
def freeWordIs (s : State) (gk : Nat) (p : Issue → Instr → Bool) : Bool :=
  !(getGroup s gk).outs.any holds && nextWordIs s gk p

/-- The group's next word is an SFQ that waits for its token or for a queue entry (R228). -/
def sfqWaits (s : State) (gk : Nat) : Bool :=
  let g := getGroup s gk
  freeWordIs s gk fun u i => match i with
    | .sfq _ _ _ _ _ _ => !g.rat && decide ((ctxOf s u i).active ≠ 0) &&
        ((tokensBusy g).getLsbD g.sfn.toNat || decide (16 ≤ sfqEntries s (g.slot.getD 0)))
    | _ => false

/-- The group's next word waits on memory: at 63 outstanding items, behind a fence or release, or at issue for its group's accesses (R117,
R252, R377, R382). -/
def memoryWaits (s : State) (gk : Nat) : Bool :=
  let g := getGroup s gk
  freeWordIs s gk fun u i => (isLong g.rat i && decide (63 ≤ g.outs.length)) || (isMemClass i && fencing g) ||
    ((match i with | .fence _ _ | .phrel _ _ | .phsync _ _ | .boarr _ _ _ _ | .launch _ _ => true | _ => false) && waits s u i)

/-- The group's next word names an engine tag whose earlier copy has not completed (R117). -/
def tagWaits (s : State) (gk : Nat) : Bool :=
  freeWordIs s gk fun u i => match copyTag (ctxOf s u i) i with
    | some t => decide ((ctxOf s u i).active ≠ 0) && decide (t < 64) && !(teamOf s gk).done.getLsbD t
    | none => false

/-- The leaf of a group that did not issue: the first condition of R416 that holds. A group held at its JOB by a card's page counts as one
that waits on memory (log entry 48). -/
def groupLeaf (s : State) (gk : Nat) (bank : Bool) : Nat :=
  let g := getGroup s gk
  if g.live &&& ~~~g.exited &&& ~~~g.parked = 0 then 8
  else if g.mark then 5
  else if detHold s gk || outHas g (fun w => match w with | .card _ => true | _ => false) || memoryWaits s gk then 2
  else if outHas g (fun w => match w with | .waitAny _ | .waitAll _ | .sfw _ | .ldone _ => true | _ => false) || tagWaits s gk then 3
  else if sfqWaits s gk then 6
  else if outHas g (fun w => match w with | .bar _ _ _ | .bowait _ _ _ | .botest _ _ _ true | .fuse _ => true | _ => false) ||
      (acquiring g && nextWordIs s gk fun _ i => isMemClass i) || s.acqs.any (fun a => a.team == some g.team) then 7
  else if bank then 4
  else 1

/-- The deciding group of a slice: the active group that has waited longest, without those that issued in this cycle. -/
def deciding (s : State) (sl : Nat) : Option Nat :=
  longest s ((sliceGroups s sl).filter fun g => isActiveG s g && !(decide ((getGroup s g).lastIssue = s.now) && (s.issued.any fun e => e.1 == sl && !carried e.2)))

/-- A slot that issued nothing: its leaf, and the group that decided it. -/
def emptyLeaf (s : State) (sl : Nat) (bank : Bool) : Nat × Option Nat :=
  match deciding s sl with
  | some g => (groupLeaf s g bank, some g)
  | none => (9, none)

/-- The leaves of a slice's two slots; a word's further cycles count as bank stalls (R149, R262). -/
def sliceLeaves (s : State) (sl : Nat) : List (Nat × Option Nat) :=
  let used := (slotsUsed s sl).filter fun m => !carried m
  let carry := (slotsUsed s sl).any carried
  match used with
  | [] => let x := emptyLeaf s sl carry; [x, x]
  | [m] =>
    if carry then [emptyLeaf s sl true, (0, none)] else
    let more := (sliceGroups s sl).any fun g => isActiveG s g && ready s g && (match nextWord s g with
      | some (_, .instr i) => !coissue m (wordMask (getGroup s g).rat i)
      | some (_, _) => !coissue m 0
      | none => false)
    [(0, none), if more then (4, deciding s sl) else emptyLeaf s sl false]
  | _ => [(0, none), (0, none)]

/-- The word to which a slot that a group decided is counted: the group's next one, or, where every lane is parked, the one at which the
first of them in rotation order stands (R420; log entry 48). -/
def binPc (g : Group) : DWord :=
  match issueSet g with
  | some x => x.1
  | none => pcOf g (((rotated g.rot).find? fun l => (g.live &&& ~~~g.exited).getLsbD l).getD 0)

def bump (c n : Nat) (s : State) : State := updCore s c fun x => { x with cnt := tabUpd 0 x.cnt n (· + 1) }

/-- Count the slots of one core: eight per cycle, unless the core is dark or its region gated. -/
def countCore (s : State) (c : Nat) : State :=
  if (getCore s c).dark || (getRegion s c).gated then s
  else
    let ls := (List.range 4).flatMap fun q => sliceLeaves s (4 * c + q)
    let s := ls.foldl (fun s x => bump c 10 (bump c x.1 s)) s
    let s := ls.foldl (fun s x => match x.2 with
      | some g => if x.1 < 9 then histBin s g (binPc (getGroup s g)) x.1 else s
      | none => s) s
    let n := (ls.filter fun x => x.1 == 0).length
    let s := updCore s c fun x => { x with act := match x.act with
      | (a, b) :: t => (a + n, b + 8) :: t
      | [] => [(n, 8)] }
    countEv s c 0x0B (if (getCore s c).clock.cur = 0 then 1 else 0)

/-! ## The end of a cycle -/

/-- Signatures are judged, slots counted, groups swapped, and the next cycle begins; a word with further cycles keeps its slot. -/
def endCycle (s : State) : State :=
  let s := judgeSigns s
  let s := (List.range Config.cores).foldl countCore s
  let s := (liveSlices s).foldl (fun s sl => fillSlice (turnSlice s sl) sl) s
  let s := dropEarly s
  { s with now := s.now + 1, objOps := [],
           issued := s.issued.filterMap fun e => if extraOf e.2 = 0 then none else some (e.1, 2 ^ 40 + 2 ^ 12 * (extraOf e.2 - 1) + e.2 % 2 ^ 12) }

/-- A step in which nothing issues. -/
def idle (s : State) : State := (autoEvent s).getD (endCycle s)

/-! ## The issue of a word -/

/-- The lane for which a lane set was chosen. -/
def chosenLane (g : Group) (m : Lanes) : Nat := ((rotated g.rot).find? fun l => m.getLsbD l).getD 0

/-- The bookkeeping after a word has acted: rotation, slot, spacing, and the yield hint (R109). -/
def finishIssue (s : State) (u : Issue) (i : Instr) (c : Ctx) : State :=
  let s := afterIssue s u c.g.hmask (chosenLane c.g u.lanes) (wordMask c.g.rat i) (extraCycles c i) (spacing i)
  if ((hdrOf i).map (·.yld)).getD false then yieldGroup s u.gkey else s

/-- A word that encodes no instruction: the illegal-instruction cause in its lanes, and its marker (R120). Its Y and SP bits do nothing (R109;
log entry 123). -/
def issueNone (s : State) (u : Issue) (mark : Bool) : State :=
  let g := getGroup s u.gkey
  let s := setMark (raiseAll s u.gkey u.pc u.lanes cILL 0) u.gkey mark
  afterIssue s u g.hmask (chosenLane g u.lanes) 0 0 4

end Sys2Proof.Machine
end

