-- ==== Sys2Proof/Machine/Dispatch.lean ====
section
/-! DEFINITION. One meaning for every instruction and event. -/

namespace Sys2Proof.Machine

open Sys2Proof

/-- The meaning of an instruction word, or of an event of the machine. -/
def exec (i : Instr) (s : State) : Host.Outcome State Fault Refusal :=
  match i with
  | .iadd h ty sat d a b => Sys2Proof.Machine.execIadd h ty sat d a b s
  | .isub h ty sat d a b => Sys2Proof.Machine.execIsub h ty sat d a b s
  | .imul h ty sat d a b => Sys2Proof.Machine.execImul h ty sat d a b s
  | .imulh h ty d a b => Sys2Proof.Machine.execImulh h ty d a b s
  | .imac h ty sat d a b c => Sys2Proof.Machine.execImac h ty sat d a b c s
  | .imin h ty d a b => Sys2Proof.Machine.execImin h ty d a b s
  | .imax h ty d a b => Sys2Proof.Machine.execImax h ty d a b s
  | .iabs h ty sat d a => Sys2Proof.Machine.execIabs h ty sat d a s
  | .ineg h ty sat d a => Sys2Proof.Machine.execIneg h ty sat d a s
  | .and h ty d a b => Sys2Proof.Machine.execAnd h ty d a b s
  | .or h ty d a b => Sys2Proof.Machine.execOr h ty d a b s
  | .xor h ty d a b => Sys2Proof.Machine.execXor h ty d a b s
  | .andn h ty d a b => Sys2Proof.Machine.execAndn h ty d a b s
  | .not h ty d a => Sys2Proof.Machine.execNot h ty d a s
  | .shl h ty d a b => Sys2Proof.Machine.execShl h ty d a b s
  | .shr h ty d a b => Sys2Proof.Machine.execShr h ty d a b s
  | .sar h ty d a b => Sys2Proof.Machine.execSar h ty d a b s
  | .bfe h ty d a b => Sys2Proof.Machine.execBfe h ty d a b s
  | .bfi h ty d a b => Sys2Proof.Machine.execBfi h ty d a b s
  | .popc h ty d a => Sys2Proof.Machine.execPopc h ty d a s
  | .clz h ty d a => Sys2Proof.Machine.execClz h ty d a s
  | .brev h ty d a => Sys2Proof.Machine.execBrev h ty d a s
  | .lea h signed sh d a b => Sys2Proof.Machine.execLea h signed sh d a b s
  | .icmp h cmp ty pd a b => Sys2Proof.Machine.execIcmp h cmp ty pd a b s
  | .isel h ty psel d a b => Sys2Proof.Machine.execIsel h ty psel d a b s
  | .igcd h ty d a b => Sys2Proof.Machine.execIgcd h ty d a b s
  | .mov h ty d a => Sys2Proof.Machine.execMov h ty d a s
  | .movi h ty d val => Sys2Proof.Machine.execMovi h ty d val s
  | .moviHi h d val => Sys2Proof.Machine.execMoviHi h d val s
  | .pand h na nb pd pa pb => Sys2Proof.Machine.execPand h na nb pd pa pb s
  | .por h na nb pd pa pb => Sys2Proof.Machine.execPor h na nb pd pa pb s
  | .pxor h na nb pd pa pb => Sys2Proof.Machine.execPxor h na nb pd pa pb s
  | .pnot h pd pa => Sys2Proof.Machine.execPnot h pd pa s
  | .pmov h pd pa => Sys2Proof.Machine.execPmov h pd pa s
  | .xset h xd a => Sys2Proof.Machine.execXset h xd a s
  | .xget h d xa => Sys2Proof.Machine.execXget h d xa s
  | .xstep h xd a => Sys2Proof.Machine.execXstep h xd a s
  | .xmov h xd xa => Sys2Proof.Machine.execXmov h xd xa s
  | .shfl h mode ty wrel d a b => Sys2Proof.Machine.execShfl h mode ty wrel d a b s
  | .bcast h ty d a => Sys2Proof.Machine.execBcast h ty d a s
  | .vote h mode d pa => Sys2Proof.Machine.execVote h mode d pa s
  | .redx h op ty rnd d a => Sys2Proof.Machine.execRedx h op ty rnd d a s
  | .scanx h op ty rnd d a => Sys2Proof.Machine.execScanx h op ty rnd d a s
  | .lanerd h ty d a b => Sys2Proof.Machine.execLanerd h ty d a b s
  | .bra h ofs => Sys2Proof.Machine.execBra h ofs s
  | .brx h a => Sys2Proof.Machine.execBrx h a s
  | .call h d ofs => Sys2Proof.Machine.execCall h d ofs s
  | .ret h a => Sys2Proof.Machine.execRet h a s
  | .enrol h j ofs => Sys2Proof.Machine.execEnrol h j ofs s
  | .rejoin h j => Sys2Proof.Machine.execRejoin h j s
  | .loop h c ofs => Sys2Proof.Machine.execLoop h c ofs s
  | .exit h => Sys2Proof.Machine.execExit h s
  | .yield h => Sys2Proof.Machine.execYield h s
  | .nop h => Sys2Proof.Machine.execNop h s
  | .trap h code => Sys2Proof.Machine.execTrap h code s
  | .bkpt h code => Sys2Proof.Machine.execBkpt h code s
  | .fadd h ty rnd sat d a b => Sys2Proof.Machine.execFadd h ty rnd sat d a b s
  | .fsub h ty rnd sat d a b => Sys2Proof.Machine.execFsub h ty rnd sat d a b s
  | .fmul h ty rnd sat d a b => Sys2Proof.Machine.execFmul h ty rnd sat d a b s
  | .fmac h ty rnd sat d a b c => Sys2Proof.Machine.execFmac h ty rnd sat d a b c s
  | .fmin h ty d a b => Sys2Proof.Machine.execFmin h ty d a b s
  | .fmax h ty d a b => Sys2Proof.Machine.execFmax h ty d a b s
  | .fabs h ty d a => Sys2Proof.Machine.execFabs h ty d a s
  | .fneg h ty d a => Sys2Proof.Machine.execFneg h ty d a s
  | .fcmp h cmp ty un pd a b => Sys2Proof.Machine.execFcmp h cmp ty un pd a b s
  | .frnd h ty rnd d a => Sys2Proof.Machine.execFrnd h ty rnd d a s
  | .fclass h ty d a => Sys2Proof.Machine.execFclass h ty d a s
  | .fdiv h ty rnd sat d a b => Sys2Proof.Machine.execFdiv h ty rnd sat d a b s
  | .fsqrt h ty rnd d a => Sys2Proof.Machine.execFsqrt h ty rnd d a s
  | .cvt h dty sty rnd sat del sel d a => Sys2Proof.Machine.execCvt h dty sty rnd sat del sel d a s
  | .qmake h ty rnd d a b => Sys2Proof.Machine.execQmake h ty rnd d a b s
  | .qnum h w64 d a => Sys2Proof.Machine.execQnum h w64 d a s
  | .qden h w64 d a => Sys2Proof.Machine.execQden h w64 d a s
  | .qmed h rnd d a b => Sys2Proof.Machine.execQmed h rnd d a b s
  | .sfq h fn ty d a sk => Sys2Proof.Machine.execSfq h fn ty d a sk s
  | .sfw h m => Sys2Proof.Machine.execSfw h m s
  | .sft h d m => Sys2Proof.Machine.execSft h d m s
  | .ld h ty scope count d a b imm => Sys2Proof.Machine.execLd h ty scope count d a b imm s
  | .st h ty scope count d a b imm => Sys2Proof.Machine.execSt h ty scope count d a b imm s
  | .ldk h ty count d a b imm => Sys2Proof.Machine.execLdk h ty count d a b imm s
  | .ldsc h ty scope count d a b imm => Sys2Proof.Machine.execLdsc h ty scope count d a b imm s
  | .pfx h scope a b imm => Sys2Proof.Machine.execPfx h scope a b imm s
  | .atom h op ty scope d a b imm => Sys2Proof.Machine.execAtom h op ty scope d a b imm s
  | .atomCas h ty scope d a b c imm => Sys2Proof.Machine.execAtomCas h ty scope d a b c imm s
  | .atoma h op ty scope d a b imm => Sys2Proof.Machine.execAtoma h op ty scope d a b imm s
  | .red h op ty scope a b imm => Sys2Proof.Machine.execRed h op ty scope a b imm s
  | .xcopy h lay d a len tag => Sys2Proof.Machine.execXcopy h lay d a len tag s
  | .xcopyCrc h lay d a len tag out cont ptag => Sys2Proof.Machine.execXcopyCrc h lay d a len tag out cont ptag s
  | .xcopyChk h lay d a len tag exp cont ptag => Sys2Proof.Machine.execXcopyChk h lay d a len tag exp cont ptag s
  | .xwaita h m => Sys2Proof.Machine.execXwaita h m s
  | .xwaitl h m => Sys2Proof.Machine.execXwaitl h m s
  | .xfind h d m => Sys2Proof.Machine.execXfind h d m s
  | .xform h d a r bo => Sys2Proof.Machine.execXform h d a r bo s
  | .xformDec h d a r bo => Sys2Proof.Machine.execXformDec h d a r bo s
  | .fenceOpnd h => Sys2Proof.Machine.execFenceOpnd h s
  | .tmap h fmt swz smode src td base shape stride sptr => Sys2Proof.Machine.execTmap h fmt swz smode src td base shape stride sptr s
  | .tmset h fld td a => Sys2Proof.Machine.execTmset h fld td a s
  | .accz h ad => Sys2Proof.Machine.execAccz h ad s
  | .accld h ad tm org => Sys2Proof.Machine.execAccld h ad tm org s
  | .accst h rnd sat tm ad org => Sys2Proof.Machine.execAccst h rnd sat tm ad org s
  | .accrd h ty rnd sat d ad e => Sys2Proof.Machine.execAccrd h ty rnd sat d ad e s
  | .accwr h ty ad a e => Sys2Proof.Machine.execAccwr h ty ad a e s
  | .mmaQuad h flt ad ta tb org klen => Sys2Proof.Machine.execMmaQuad h flt ad ta tb org klen s
  | .mmaWide h flt ad ta tb kc org klen => Sys2Proof.Machine.execMmaWide h flt ad ta tb kc org klen s
  | .mmaSquare h flt ad ta tb kc org klen => Sys2Proof.Machine.execMmaSquare h flt ad ta tb kc org klen s
  | .mmaTall h flt ad ta tb kc org klen => Sys2Proof.Machine.execMmaTall h flt ad ta tb kc org klen s
  | .cdecl h kd grp slices => Sys2Proof.Machine.execCdecl h kd grp slices s
  | .job h card bo => Sys2Proof.Machine.execJob h card bo s
  | .bar h n => Sys2Proof.Machine.execBar h n s
  | .boinit h bo count => Sys2Proof.Machine.execBoinit h bo count s
  | .boarr h d bo k => Sys2Proof.Machine.execBoarr h d bo k s
  | .bowait h bo g => Sys2Proof.Machine.execBowait h bo g s
  | .botest h pd bo g => Sys2Proof.Machine.execBotest h pd bo g s
  | .fence h scope => Sys2Proof.Machine.execFence h scope s
  | .phrel h scope => Sys2Proof.Machine.execPhrel h scope s
  | .phacq h scope => Sys2Proof.Machine.execPhacq h scope s
  | .phsync h scope => Sys2Proof.Machine.execPhsync h scope s
  | .launch h a => Sys2Proof.Machine.execLaunch h a s
  | .graphrun h g n => Sys2Proof.Machine.execGraphrun h g n s
  | .ldone h => Sys2Proof.Machine.execLdone h s
  | .tollrd h sel d => Sys2Proof.Machine.execTollrd h sel d s
  | .tollset h abs a => Sys2Proof.Machine.execTollset h abs a s
  | .tollrel h => Sys2Proof.Machine.execTollrel h s
  | .srd h srn d => Sys2Proof.Machine.execSrd h srn d s
  | .swr h srn a => Sys2Proof.Machine.execSwr h srn a s
  | .cclr h m => Sys2Proof.Machine.execCclr h m s
  | .tret h => Sys2Proof.Machine.execTret h s
  | .pmark h a => Sys2Proof.Machine.execPmark h a s
  | .cntrd h d n => Sys2Proof.Machine.execCntrd h d n s
  | .smpl h a => Sys2Proof.Machine.execSmpl h a s
  | .hintWord mark wide => Sys2Proof.Machine.execHintWord mark wide s
  | .pairWord mark h0 h1 => Sys2Proof.Machine.execPairWord mark h0 h1 s
  | .longResultWrite gk seq => Sys2Proof.Machine.execLongResultWrite gk seq s
  | .groupSwap core slice => Sys2Proof.Machine.execGroupSwap core slice s
  | .pendingPromote core slice => Sys2Proof.Machine.execPendingPromote core slice s
  | .sfqEntryComplete gk seq => Sys2Proof.Machine.execSfqEntryComplete gk seq s
  | .qtailWrite func q v => Sys2Proof.Machine.execQtailWrite func q v s
  | .queueReset func q v => Sys2Proof.Machine.execQueueReset func q v s
  | .queueEnable func q v => Sys2Proof.Machine.execQueueEnable func q v s
  | .ownershipWrite func xing n v => Sys2Proof.Machine.execOwnershipWrite func xing n v s
  | .crossingBind func x v => Sys2Proof.Machine.execCrossingBind func x v s
  | .packetNop q => Sys2Proof.Machine.execPacketNop q s
  | .packetLaunch q => Sys2Proof.Machine.execPacketLaunch q s
  | .packetSignal q => Sys2Proof.Machine.execPacketSignal q s
  | .packetWait q => Sys2Proof.Machine.execPacketWait q s
  | .waitSatisfied q => Sys2Proof.Machine.execWaitSatisfied q s
  | .packetGraph q => Sys2Proof.Machine.execPacketGraph q s
  | .packetGload q => Sys2Proof.Machine.execPacketGload q s
  | .packetMark q => Sys2Proof.Machine.execPacketMark q s
  | .launchAccept => Sys2Proof.Machine.execLaunchAccept s
  | .gridRetire grid => Sys2Proof.Machine.execGridRetire grid s
  | .roundaboutPlace => Sys2Proof.Machine.execRoundaboutPlace s
  | .teamRelease team => Sys2Proof.Machine.execTeamRelease team s
  | .coreDark core => Sys2Proof.Machine.execCoreDark core s
  | .gtrigStore func g v => Sys2Proof.Machine.execGtrigStore func g v s
  | .graphConfigWrite func g pasid v => Sys2Proof.Machine.execGraphConfigWrite func g pasid v s
  | .graphRunStart g => Sys2Proof.Machine.execGraphRunStart g s
  | .graphNodeNop g n => Sys2Proof.Machine.execGraphNodeNop g n s
  | .graphNodeLaunch g n => Sys2Proof.Machine.execGraphNodeLaunch g n s
  | .graphNodeMark g n => Sys2Proof.Machine.execGraphNodeMark g n s
  | .graphNodeCond g n => Sys2Proof.Machine.execGraphNodeCond g n s
  | .graphNodeLoop g n => Sys2Proof.Machine.execGraphNodeLoop g n s
  | .tollTick watts => Sys2Proof.Machine.execTollTick watts s
  | .kerbSample ma mv => Sys2Proof.Machine.execKerbSample ma mv s
  | .tollModeLoop func v => Sys2Proof.Machine.execTollModeLoop func v s
  | .tollModePinned func v => Sys2Proof.Machine.execTollModePinned func v s
  | .tollModeScripted func v => Sys2Proof.Machine.execTollModeScripted func v s
  | .sensorFault region sensor mv => Sys2Proof.Machine.execSensorFault region sensor mv s
  | .feedLoss feed => Sys2Proof.Machine.execFeedLoss feed s
  | .phaseFail region phase => Sys2Proof.Machine.execPhaseFail region phase s
  | .regionGate func region => Sys2Proof.Machine.execRegionGate func region s
  | .regionWake func region => Sys2Proof.Machine.execRegionWake func region s
  | .wakeGrant segment => Sys2Proof.Machine.execWakeGrant segment s
  | .gateStage region => Sys2Proof.Machine.execGateStage region s
  | .prrepWrite func block v => Sys2Proof.Machine.execPrrepWrite func block v s
  | .prrepxWrite func v => Sys2Proof.Machine.execPrrepxWrite func v s
  | .tinvStage1All func block v => Sys2Proof.Machine.execTinvStage1All func block v s
  | .tinvStage1Pasid func block v => Sys2Proof.Machine.execTinvStage1Pasid func block v s
  | .tinvStage1Addr func block v => Sys2Proof.Machine.execTinvStage1Addr func block v s
  | .tinvStage2All func block v => Sys2Proof.Machine.execTinvStage2All func block v s
  | .tinvDrainDone block => Sys2Proof.Machine.execTinvDrainDone block s
  | .atsInvalidate func addr len => Sys2Proof.Machine.execAtsInvalidate func addr len s
  | .prgResponse func page success => Sys2Proof.Machine.execPrgResponse func page success s
  | .hostBar4Write off bytes => Sys2Proof.Machine.execHostBar4Write off bytes s
  | .hostBar4Read off len => Sys2Proof.Machine.execHostBar4Read off len s
  | .hostCompletion w st => Sys2Proof.Machine.execHostCompletion w st s
  | .hostCompletionTimeout w => Sys2Proof.Machine.execHostCompletionTimeout w s
  | .peerInboundRequest port src req => Sys2Proof.Machine.execPeerInboundRequest port src req s
  | .flitReceive port f => Sys2Proof.Machine.execFlitReceive port f s
  | .vlinjWrite func v => Sys2Proof.Machine.execVlinjWrite func v s
  | .plazaResize func v => Sys2Proof.Machine.execPlazaResize func v s
  | .plazaRangeWrite func n v => Sys2Proof.Machine.execPlazaRangeWrite func n v s
  | .l1Eviction core line => Sys2Proof.Machine.execL1Eviction core line s
  | .releaseComplete id => Sys2Proof.Machine.execReleaseComplete id s
  | .acquireComplete id => Sys2Proof.Machine.execAcquireComplete id s
  | .barArrivalRecord gk => Sys2Proof.Machine.execBarArrivalRecord gk s
  | .engineAccept id => Sys2Proof.Machine.execEngineAccept id s
  | .engineComplete id => Sys2Proof.Machine.execEngineComplete id s
  | .xformComplete id => Sys2Proof.Machine.execXformComplete id s
  | .mmaStep id => Sys2Proof.Machine.execMmaStep id s
  | .jobOperation id => Sys2Proof.Machine.execJobOperation id s
  | .jobWalkEnd id => Sys2Proof.Machine.execJobWalkEnd id s
  | .rplrepResume func block v => Sys2Proof.Machine.execRplrepResume func block v s
  | .rplrepDeliver func block v => Sys2Proof.Machine.execRplrepDeliver func block v s
  | .rplrepKill func block v => Sys2Proof.Machine.execRplrepKill func block v s
  | .recordHeadWrite func block replayable v => Sys2Proof.Machine.execRecordHeadWrite func block replayable v s
  | .fprePreempt func v => Sys2Proof.Machine.execFprePreempt func v s
  | .fprePreemptHold func v => Sys2Proof.Machine.execFprePreemptHold func v s
  | .coreSwap core => Sys2Proof.Machine.execCoreSwap core s
  | .swapComplete core => Sys2Proof.Machine.execSwapComplete core s
  | .spillComplete core => Sys2Proof.Machine.execSpillComplete core s
  | .freeze func v => Sys2Proof.Machine.execFreeze func v s
  | .thaw func v => Sys2Proof.Machine.execThaw func v s
  | .freezeThawEnd => Sys2Proof.Machine.execFreezeThawEnd s
  | .stopLaunch func v => Sys2Proof.Machine.execStopLaunch func v s
  | .stopTeam func v => Sys2Proof.Machine.execStopTeam func v s
  | .stopThread func v => Sys2Proof.Machine.execStopThread func v s
  | .resumeLaunch func v => Sys2Proof.Machine.execResumeLaunch func v s
  | .resumeTeam func v => Sys2Proof.Machine.execResumeTeam func v s
  | .resumeThread func v => Sys2Proof.Machine.execResumeThread func v s
  | .counterClear func v => Sys2Proof.Machine.execCounterClear func v s
  | .histogramExportReq func v => Sys2Proof.Machine.execHistogramExportReq func v s
  | .histogramExportPeriod => Sys2Proof.Machine.execHistogramExportPeriod s
  | .histogramExportWrite => Sys2Proof.Machine.execHistogramExportWrite s
  | .replayPassEnd => Sys2Proof.Machine.execReplayPassEnd s
  | .bootVerify => Sys2Proof.Machine.execBootVerify s
  | .bootReleaseStep => Sys2Proof.Machine.execBootReleaseStep s
  | .heartbeat p => Sys2Proof.Machine.execHeartbeat p s
  | .watchdogExpiry p => Sys2Proof.Machine.execWatchdogExpiry p s
  | .mbAttest func v => Sys2Proof.Machine.execMbAttest func v s
  | .mbReadlog func v => Sys2Proof.Machine.execMbReadlog func v s
  | .mbReboot func v => Sys2Proof.Machine.execMbReboot func v s
  | .mbSelect func v => Sys2Proof.Machine.execMbSelect func v s
  | .mbStage func v => Sys2Proof.Machine.execMbStage func v s
  | .mailboxDone => Sys2Proof.Machine.execMailboxDone s
  | .configRequest ask => Sys2Proof.Machine.execConfigRequest ask s
  | .linkTrain port rate width => Sys2Proof.Machine.execLinkTrain port rate width s
  | .deviceReset => Sys2Proof.Machine.execDeviceReset s
  | .functionLevelReset func => Sys2Proof.Machine.execFunctionLevelReset func s
  | .registerWrite func off width v => Sys2Proof.Machine.execRegisterWrite func off width v s
  | .translationFault gk lane kind va => Sys2Proof.Machine.execTranslationFault gk lane kind va s
  | .accessPerformed gk seq => Sys2Proof.Machine.execAccessPerformed gk seq s
  | .l2Eviction line => Sys2Proof.Machine.execL2Eviction line s
  | .pcieLinkDown port => Sys2Proof.Machine.execPcieLinkDown port s

end Sys2Proof.Machine
end

