-- ==== Sys2Proof/Machine/Step.lean ====
section
/-! DEFINITION. One step of the machine: the event at the head of the agenda; else the word that issues next, fetched, decoded and
executed; else the next internal event, or the end of a cycle. A step ends with everything that follows at once (`settle`). -/

namespace Sys2Proof.Machine

/-- What follows an outcome that is a next state. -/
def thenDo (o : Outcome) (f : State → State) : Outcome :=
  match o with
  | .next t => .next (f t)
  | .fault r => .fault r
  | .refused r => .refused r

/-- Execute a decoded word for its group and lanes, with the bookkeeping of its issue. -/
def runWord (s : State) (u : Issue) (i : Instr) : Outcome :=
  thenDo (exec i (notePasses { s with cur := some u } u i)) fun t => settle (finishIssue t u i (ctxOf s u i))

/-- The issue of the lane set that stands at `u.pc`. -/
def issueStep (s : State) (u : Issue) : Outcome :=
  match fetchInstr s u.gkey u.pc with
  | (s, .instr i) => runWord s u i
  | (s, .none' mark) => .next (settle (issueNone s u mark))
  | (s, .fails r va) => .next (settle (fetchFails s u r va))

/-- The word that issues next: its group, program counter and lanes. -/
def nextIssue (s : State) : Option Issue :=
  (chooseIssue s).bind fun gk => (issueSet (getGroup s gk)).map fun x => ⟨gk, x.1, x.2⟩

/-- ONE STEP. -/
def step (s : State) : Host.Outcome State Fault Refusal :=
  match agendaNext s.agenda with
  | some (i, rest) => thenDo (exec i { s with agenda := rest }) settle
  | none =>
    match nextIssue s with
    | some u => issueStep s u
    | none => .next (settle (idle s))

/-! ## A word placed where the next step fetches it (log entry 61) -/

/-- One thread, lane 0 of group 0 of team 0, at address 0 on core 0. -/
def placedGroup : Group := { groupReset with live := 1, slot := some 0, sstate := .active }
def placedTeam : Team := { teamReset with cores := [0], groups := 1 }
/-- Its launch, with every register allocated. -/
def placedLaunch : Launch :=
  { launchReset with stage := .accepted, gx := 1, gy := 1, gz := 1, tx := 1, ty := 1, tz := 1,
                     vregs := 256, sregs := 256, accs := 64, scr := 16 }

/-- The first page of local DRAM, mapped at address 0 of function 0 and PASID 0. -/
def placedLeaves : List TlbEnt := [⟨false, 0, 0, 12, 0, 0, 0, true, true, true, none⟩, ⟨true, 0, 0, 12, 0, 0, 0, true, true, true, none⟩]

/-- The state with an instruction where the next step fetches: one resident group at address 0, and its word there. -/
def State.withFetchWord (s : State) (nbits w : Nat) : State :=
  { s with
    agenda := []
    issued := []
    elems := []
    acqs := []
    groups := [(0, placedGroup)]
    teams := tabPut s.teams 0 placedTeam
    launches := tabPut s.launches 0 placedLaunch
    tlb := placedLeaves ++ s.tlb
    supply := { s.supply with regions := s.supply.regions.filter fun e => !e.2.failed }
    cores := tabPut s.cores 0 { getCore s 0 with icache := [] }
    l2 := s.l2.filter fun e => decide (16 ≤ e.1)
    mem := memWriteList s.mem 0 (leBytes 16 (w % 2 ^ nbits)) }

end Sys2Proof.Machine
end

