-- ==== Sys2Proof/Machine/RegRead.lean ====
section
/-! DEFINITION. What the host reads through BAR0 and BAR2 (R34, R58, R295, R299). A read changes nothing: it is a function of the
state. A field that is reserved or write-only reads as zero (R3). -/

namespace Sys2Proof.Machine

/-! ## Fields -/

/-- A register's value from its fields, each at its lowest bit. -/
def fields (fs : List (Nat × Nat)) : Nat := fs.foldl (fun n f => n + f.2 * 2 ^ f.1) 0

def flag (b : Bool) : Nat := if b then 1 else 0

/-- CFREE of a core (R58): what is free there, whether something is held, and whether its region is dark. -/
def cfree (s : State) (c : Nat) : Nat :=
  let x := getCore s c
  fields [(8, x.fslot), (13, x.facc), (20, x.fvreg), (32, x.fscr), (62, flag (coreHeld s c)), (63, flag x.dark)]

/-- RPWR of a region (R90). -/
def rpwr (s : State) (r : Nat) : Nat :=
  let x := getRegion s r
  fields [(0, flag x.gate), (4, x.stage), (8, flag x.gated), (9, flag x.waking), (10, flag x.failed), (11, flag x.bias), (12, x.phok.toNat)]

def kindCode (k : AccKind) : Nat := match k with | .read => 0 | .write => 1 | .fetch => 2 | .atomic => 3

/-- A page-request slot (R250). -/
def slotWord (x : PSlot) : Nat :=
  fields [(0, x.seq.toNat), (8, flag x.valid), (9, flag x.stage), (10, kindCode x.kind), (64, x.label.toNat), (128, x.pasid), (160, x.waiters),
    (192, x.addr)]

/-- QCTL and QSTAT (R33), XCFG (R41), GCFG (R45). -/
def qctlWord (x : Queue) : Nat := fields [(0, flag x.en), (1, x.pmax.toNat), (8, x.qvec.toNat)]
def qstatWord (x : Queue) : Nat := fields [(0, flag x.frozen), (8, x.reason.toNat), (16, flag x.waiting)]
def xcfgWord (x : Crossing) : Nat := fields [(0, x.prod.toNat), (16, x.cons.toNat), (30, flag x.ovf), (31, flag x.en)]
def gcfgWord (g : Graph) : Nat := fields [(0, g.glen), (24, g.gvec.toNat), (32, g.gbase), (48, g.gown), (56, g.gpri.toNat)]


/-! ## Registers -/

/-- Read-only registers, by offset, with their widths: of a function's own block, and single ones of the physical function. -/
def blockReads : List (Nat × Nat) := [(0x2008, 4), (0x2010, 4), (0x301C, 4)]
def physReads : List (Nat × Nat) := [(0x100000, 4), (0x123034, 4), (0x123060, 4)]

/-- Bytes of the register at an offset of a function's BAR0; 0 where there is none. -/
def readWidth (func off : Nat) : Nat :=
  if regWidth func off ≠ 0 then regWidth func off
  else if off < 0x8000 then (if off % 32 = 0x0C ∨ off % 32 = 0x14 then 4 else 0)
  else if off < 0x10000 then (if off % 8 = 4 then 4 else 0)
  else match blockOf func off with
    | some (_, o) => if 0x1000 ≤ o ∧ o < 0x1800 then (if o % 8 = 0 then 8 else 0) else tabGet 0 blockReads o
    | none =>
      if func ≠ 0 then 0
      else if 0x125000 ≤ off ∧ off < 0x125000 + 8 * Config.cores ∧ off % 8 = 0 then 8
      else tabGet 0 physReads off

/-- The common block: zero for a queue or crossing that the function does not own (R34). -/
def queueRead (s : State) (func q o : Nat) : Nat :=
  let x := getQueue s q
  if x.owner ≠ func then 0
  else match o with
    | 0x00 => x.qring.toNat
    | 0x08 => x.qsize
    | 0x0C => x.qhead.toNat
    | 0x10 => qctlWord x
    | 0x14 => qstatWord x
    | 0x18 => x.pasid.toNat
    | _ => 0

def xingRead (s : State) (func n o : Nat) : Nat :=
  let x := getXing s n
  if x.owner ≠ func then 0 else if o = 0 then xcfgWord x else x.tokens.toNat

/-- A function's own block; TINVA, PRREP and RPLREP are write-only. A page-request slot is read by its four 64-bit words (log entry 20). -/
def blockRead (s : State) (n o : Nat) : Nat :=
  let x := getFunc s n
  if 0x1000 ≤ o ∧ o < 0x1800 then slotWord (getSlot s n ((o - 0x1000) / 32)) / 2 ^ (8 * (o % 32)) % 2 ^ 64
  else match o with
  | 0x0000 => x.s2root.toNat
  | 0x0008 => x.ptab.toNat
  | 0x0018 => fields [(0, x.tpasid.toNat), (20, x.tkind.toNat), (30, flag x.tbusy)]
  | 0x2000 => x.recbase.toNat
  | 0x2008 => x.ftail.toNat
  | 0x200C => x.fhead.toNat
  | 0x2010 => x.rtail.toNat
  | 0x2014 => x.rhead.toNat
  | 0x2018 => x.hwdrop.toNat
  | 0x201C => fields [(0, flag x.holdbp), (1, flag x.holdtr)]
  | 0x3000 => x.spillbase.toNat
  | 0x3008 => x.spilllen.toNat
  | 0x3010 => x.trcbase.toNat
  | 0x3018 => x.trclog.toNat
  | 0x301C => x.trctail.toNat
  | 0x3020 => x.trchead.toNat
  | 0x3024 => x.trcdrop.toNat
  | _ => 0

/-- Single registers of the physical function (R87, R308, R410, R417, R420, R422 to R424, R432, R433); CNTCLR and PRREPX are
write-only. -/
def physRead (s : State) (off : Nat) : Nat :=
  let u := s.supply
  let f := s.freezer
  let o := s.obs
  let a := s.anchor
  match off with
  | 0x100000 => (bootstat s).toNat
  | 0x100008 => fields [(0, a.mbop.toNat), (8, a.mbres.toNat), (30, flag a.mbbusy)]
  | 0x100010 => s.peers.nodeid.toNat
  | 0x120000 => fields [(0, u.pinl.toNat), (30, u.mode.toNat)]
  | 0x120004 => u.capw
  | 0x120008 => fields [(0, u.pwr), (16, u.ktrips)]
  | 0x121000 => u.plzSize
  | 0x122000 => fields [(0, f.status.toNat), (16, f.func.toNat), (28, f.op.toNat), (30, flag f.busy)]
  | 0x122008 => f.img.toNat
  | 0x122010 => f.len.toNat
  | 0x122018 => f.ext.toNat
  | 0x122020 => f.next.toNat
  | 0x122080 => fields [(0, f.fpre.toNat), (29, flag f.fhold), (30, flag f.fbusy)]
  | 0x122088 => f.stop.toNat
  | 0x122090 => f.slabel.toNat
  | 0x122098 => f.stid.toNat
  | 0x1220A0 => f.rsm.toNat
  | 0x123000 => o.evsel.toNat
  | 0x123010 => o.hctl.toNat
  | 0x123018 => o.hbase.toNat
  | 0x123020 => o.hsink.toNat
  | 0x123028 => o.hslen.toNat
  | 0x123030 => o.hshead.toNat
  | 0x123034 => o.hstail.toNat
  | 0x123038 => o.hout.toNat
  | 0x123040 => o.rplctl.toNat
  | 0x123048 => o.rpllabel.toNat
  | 0x123050 => o.rplsave.toNat
  | 0x123058 => o.rplslen.toNat
  | 0x123060 => o.rplstat.toNat
  | 0x123100 => s.peers.vlinj.toNat
  | 0x124400 => s.peers.impbase.toNat
  | 0x124408 => s.peers.implen.toNat
  | _ => 0

/-- Registers of a row of the physical function. -/
def rowValue (s : State) (start n : Nat) : Nat :=
  match start with
  | 0x120100 => (tabGet 0#32 s.supply.tscr n).toNat
  | 0x120400 => rpwr s n
  | 0x121100 => (tabGet 0#32 s.supply.plzf n).toNat
  | 0x122040 => (tabGet 0#32 s.freezer.dig n).toNat
  | 0x123080 => (tabGet 0#64 s.obs.rplev n).toNat
  | 0x124000 => (tabGet 0#64 (if n % 2 = 0 then s.peers.rwina else s.peers.rwinb) (n / 2)).toNat
  | 0x124800 => ((s.peers.impacl >>> (64 * n)).setWidth 64).toNat
  | 0x130000 => (getQueue s n).owner
  | 0x131000 => (getXing s n).owner
  | 0x138000 => gcfgWord (getGraph s n)
  | 0x138008 => (getGraph s n).pasid.toNat
  | _ => 0

/-- A whole register. -/
def regRead (s : State) (func off : Nat) : Nat :=
  if off < 0x8000 then queueRead s func (off / 32) (off % 32)
  else if off < 0x10000 then xingRead s func ((off - 0x8000) / 8) (off % 8)
  else match blockOf func off with
    | some (n, o) => blockRead s n o
    | none =>
      if func ≠ 0 then 0
      else if 0x125000 ≤ off ∧ off < 0x125000 + 8 * Config.cores then cfree s ((off - 0x125000) / 8)
      else match physRows.find? fun r => (rowIndex r off).isSome with
        | some r => rowValue s r.1 ((rowIndex r off).getD 0)
        | none => physRead s off

/-- The function's BARs answer: it is enabled, and outside the safe state, where BAR0 holds BOOTSTAT and the mailbox only (R297, R431). -/
def readOpen (s : State) (func off : Nat) : Bool :=
  decide (func ≤ s.pcie.numVfs) && decide (func < Config.functions) && (regOpen s off || off == 0x100000)

/-- The mailbox buffer, in aligned words of 4 or 8 bytes (log entry 58). -/
def mbdataRead (s : State) (off width : Nat) : Nat :=
  if (width = 4 ∨ width = 8) ∧ off % width = 0 then leNat (memReadList s.anchor.mbdata (off - 0x110000) width) else 0

/-- A READ of `width` bytes at an offset of a function's BAR0 (R299): a register by an aligned access of its own width, half of a 64-bit
one by an aligned 4-byte access; anything else reads as zero. -/
def bar0Read (s : State) (func off width : Nat) : Nat :=
  if !readOpen s func off then 0
  else if func = 0 && decide (0x110000 ≤ off) && decide (off < 0x120000) then mbdataRead s off width
  else if width = readWidth func off ∧ off % width = 0 ∧ width ≠ 0 then regRead s func off
  else if width = 4 ∧ off % 4 = 0 ∧ readWidth func (off / 8 * 8) = 8 then regRead s func (off / 8 * 8) / 2 ^ (8 * (off % 8)) % 2 ^ 32
  else 0

/-- A READ of `n` bytes at an offset of a function's BAR2, which has size zero in the safe state: as the device's own loads there (R295,
R431). -/
def bar2Read (s : State) (func off n : Nat) : Nat :=
  if safeState s || decide (s.pcie.numVfs < func) || !(n == 4 || n == 8) || decide (off % n ≠ 0) || !(decide (off < 2 ^ 23)) then 0
  else doorLoad s func off % 2 ^ (8 * n)

end Sys2Proof.Machine
end

