-- ==== Sys2Proof/Safety.lean ====
section
/-! DEFINITION. The terms in which statements about the machine are made: when a word acts, what a word leaves alone, the values
that register words compute, and the invariant of memory. -/

namespace Sys2Proof.Machine

/-! ## Words -/

/-- A word acts: a group issues it, R120 accepts it, and it waits for nothing. -/
def Acts (s : State) (u : Issue) (i : Instr) : Prop :=
  s.cur = some u ∧ wellFormed i = true ∧ waits s u i = false

/-- A lane is among the active lanes of a word. -/
def OnLane (s : State) (u : Issue) (i : Instr) (l : Nat) : Prop := l ∈ lanesOf (ctxOf s u i).active

/-- The group after a word by which its lanes pass: the issued lanes stand behind it but for those that `tgt` sends elsewhere
(R111), the index registers named with a post-step have moved in the lanes that completed (R100), and the marker parks the group
until its outstanding results are written (R112). -/
def passTo (i : Instr) (c : Ctx) (g : Group) (done : Lanes) (tgt : List (Nat × DWord)) : Group :=
  let g := tgt.foldl (fun g e => setPc g e.1 e.2) (postStep i (setPcs g c.lanes c.next) done)
  if markOf i then { g with mark := !g.outs.isEmpty } else g

/-- The same where every lane goes on behind the word. -/
def passOn (i : Instr) (c : Ctx) (g : Group) (done : Lanes) : Group := passTo i c g done []

/-- The fields of a group that a word of registers may change: index registers only by their post-steps (R100), the marker as
R112 says, and the note of which word wrote a uniform register last (`swr`, the model's own); all others are as before. -/
def RegFrame (i : Instr) (c : Ctx) (g g' : Group) : Prop :=
  g' = { g with pc := g'.pc, vreg := g'.vreg, sreg := g'.sreg, pred := g'.pred, flg := g'.flg, outs := g'.outs, swr := g'.swr,
                nextSeq := g'.nextSeq, xreg := (postStep i g c.active).xreg, mark := markOf i && !g'.outs.isEmpty }

/-- The lanes of the word go on behind it, and no other lane moves (R111). -/
def GoOn (c : Ctx) (g g' : Group) : Prop := ∀ l, l < 32 → pcOf g' l = if c.lanes.getLsbD l then c.next else pcOf g l

/-- Outstanding items keep their order and their work; only writes that a later write overtakes are dropped (R116). -/
def KeepsItems (g g' : Group) : Prop :=
  g'.nextSeq = g.nextSeq ∧ (g'.outs.map fun o => { o with live := [] }) = g.outs.map fun o => { o with live := [] }

/-- The vector register that a destination names for a lane (R99, R146). -/
def destReg (c : Ctx) (l : Nat) (wide : Bool) (d : Spec) : Option Nat :=
  match vecReg c l wide 1 d with
  | .ok r => some r
  | .error _ => none

/-- The destination can be written in a lane: a uniform register always, a vector register when it is allocated (R146). -/
def CanWrite (c : Ctx) (l : Nat) (wide : Bool) (d : Spec) : Prop :=
  (∃ n, d = .s n) ∨ ∃ r, destReg c l wide d = some r

/-- A vector register of a lane holds a value, over two registers when it is a pair (R8). -/
def VecHolds (g : Group) (l r : Nat) (wide : Bool) (x : Nat) : Prop :=
  vGet g l r = BitVec.ofNat 32 x ∧ (wide = true → vGet g l (r + 1) = BitVec.ofNat 32 (x / 2 ^ 32))

/-- A uniform register holds a value, where the allocation covers it; above SREGS it reads as zero (R146). -/
def UniHolds (sregs : Nat) (g : Group) (n : Nat) (wide : Bool) (x : Nat) : Prop :=
  sGet sregs g n = (if n < sregs then BitVec.ofNat 32 x else 0) ∧
  (wide = true → sGet sregs g (n + 1) = if n + 1 < sregs then BitVec.ofNat 32 (x / 2 ^ 32) else 0)

/-- A vector register is a destination of the word in a lane. -/
def IsDest (c : Ctx) (l n : Nat) (wide : Bool) (d : Spec) : Prop :=
  l ∈ lanesOf c.active ∧ ∃ r, destReg c l wide d = some r ∧ (n = r ∨ (wide = true ∧ n = r + 1))

/-- A uniform register is a destination of the word. -/
def IsUniDest (n : Nat) (wide : Bool) (d : Spec) : Prop := ∃ k, d = .s k ∧ (n = k.toNat ∨ (wide = true ∧ n = k.toNat + 1))

/-- A word that computes one value in each active lane: whether its destination is a pair, the destination, what it needs of its
group's mode, and the value with its flags, or nothing where an operand cannot be read. -/
structure RegOp where
  wide : Bool
  dest : Spec
  ok   : Group → Bool
  val  : State → Ctx → Nat → Option (Nat × Flags)

/-- What a register word of the short class does when each active lane has a value, a destination it can write, and no flag that
the group traps: it moves its lanes on, writes the values and the flags, and changes nothing else in the machine. -/
def WritesRegs (i : Instr) (op : RegOp) : Prop :=
  ∀ (s : State) (u : Issue), Acts s u i → isLong (getGroup s u.gkey).rat i = false → op.ok (getGroup s u.gkey) = true →
    (∀ l, OnLane s u i l → CanWrite (ctxOf s u i) l op.wide op.dest ∧
      ∃ x fl, op.val s (ctxOf s u i) l = some (x, fl) ∧ fl &&& (getGroup s u.gkey).fen = 0) →
    ∃ g', exec i s = .next (setGroup s u.gkey g') ∧ RegFrame i (ctxOf s u i) (getGroup s u.gkey) g' ∧ g'.pred = (getGroup s u.gkey).pred ∧
      GoOn (ctxOf s u i) (getGroup s u.gkey) g' ∧ KeepsItems (getGroup s u.gkey) g' ∧
      (∀ l, OnLane s u i l → ∀ x fl, op.val s (ctxOf s u i) l = some (x, fl) →
        ∀ r, destReg (ctxOf s u i) l op.wide op.dest = some r → VecHolds g' l r op.wide x) ∧
      (∀ n : BitVec 8, op.dest = .s n → ∀ l t, lanesOf (ctxOf s u i).active = l :: t →
        ∀ x fl, op.val s (ctxOf s u i) l = some (x, fl) → UniHolds (ctxOf s u i).l.sregs g' n.toNat op.wide x) ∧
      (∀ l n, l < 32 → n < 256 → ¬ IsDest (ctxOf s u i) l n op.wide op.dest → vGet g' l n = vGet (getGroup s u.gkey) l n) ∧
      (∀ n, ¬ IsUniDest n op.wide op.dest → tabFind g'.sreg n = tabFind (getGroup s u.gkey).sreg n) ∧
      (∀ k, g'.flg.getLsbD k = true ↔ ((getGroup s u.gkey).flg.getLsbD k = true ∨
        ∃ l x fl, OnLane s u i l ∧ op.val s (ctxOf s u i) l = some (x, fl) ∧ fl.getLsbD k = true))

/-- A write of the value `x` that a word makes for a lane: to the destination's vector register, or for a uniform destination the value
of the lowest active lane, over two registers when it is a pair (R8, R156). -/
def RegWrite (c : Ctx) (wide : Bool) (d : Spec) (l x : Nat) (e : Tgt × Word) : Prop :=
  (∃ r, destReg c l wide d = some r ∧ (e = (.v l r, BitVec.ofNat 32 x) ∨ (wide = true ∧ e = (.v l (r + 1), BitVec.ofNat 32 (x / 2 ^ 32))))) ∨
  (∃ n : BitVec 8, d = .s n ∧ (lanesOf c.active).head? = some l ∧
    (e = (.s n.toNat, BitVec.ofNat 32 x) ∨ (wide = true ∧ e = (.s (n.toNat + 1), BitVec.ofNat 32 (x / 2 ^ 32)))))

/-- The same for a register word of the long class: its values wait in one outstanding item, in the order of its lanes, and are
written when that item completes (R113, R116). The item holds exactly the writes of its lanes' values, each of which still stands,
and exactly the flags that they raise. -/
def QueuesRegs (i : Instr) (op : RegOp) : Prop :=
  ∀ (s : State) (u : Issue), Acts s u i → isLong (getGroup s u.gkey).rat i = true → op.ok (getGroup s u.gkey) = true →
    (ctxOf s u i).active ≠ 0 →
    (∀ l, OnLane s u i l → CanWrite (ctxOf s u i) l op.wide op.dest ∧ ∃ x fl, op.val s (ctxOf s u i) l = some (x, fl)) →
    ∃ g' o, exec i s = .next (setGroup s u.gkey g') ∧ RegFrame i (ctxOf s u i) (getGroup s u.gkey) g' ∧ GoOn (ctxOf s u i) (getGroup s u.gkey) g' ∧
      g'.vreg = (getGroup s u.gkey).vreg ∧ g'.sreg = (getGroup s u.gkey).sreg ∧ g'.pred = (getGroup s u.gkey).pred ∧
      g'.flg = (getGroup s u.gkey).flg ∧
      g'.outs = (getGroup s u.gkey).outs ++ [o] ∧ o.seq = (getGroup s u.gkey).nextSeq ∧ g'.nextSeq = (getGroup s u.gkey).nextSeq + 1 ∧
      o.lanes = (ctxOf s u i).active ∧
      ∃ ws fs, o.work = .result ws fs ∧ o.live = ws.map (·.1) ∧
        (∀ e, e ∈ ws ↔ ∃ l x fl, OnLane s u i l ∧ op.val s (ctxOf s u i) l = some (x, fl) ∧ RegWrite (ctxOf s u i) op.wide op.dest l x e) ∧
        (∀ e, e ∈ fs ↔ ∃ l x fl, OnLane s u i l ∧ op.val s (ctxOf s u i) l = some (x, fl) ∧ fl ≠ 0 ∧ e = (l, fl))

/-! ## The values that register words compute -/

/-- A source operand's value in a lane, when it can be read. -/
def opVal (c : Ctx) (l : Nat) (t : Ty) (sp : Spec) : Option Nat := (readOp c l t sp).toOption

def val1 (t : Ty) (a : Spec) (f : Nat → Nat) : State → Ctx → Nat → Option (Nat × Flags) :=
  fun _ c l => (opVal c l t a).map fun x => (f x, 0)

def val2 (t t' : Ty) (a b : Spec) (f : Nat → Nat → Nat) : State → Ctx → Nat → Option (Nat × Flags) :=
  fun _ c l => (opVal c l t a).bind fun x => (opVal c l t' b).map fun y => (f x y, 0)

def val3 (t t' : Ty) (e a b : Spec) (f : Nat → Nat → Nat → Nat) : State → Ctx → Nat → Option (Nat × Flags) :=
  fun _ c l => (opVal c l t e).bind fun z => (opVal c l t a).bind fun x => (opVal c l t' b).map fun y => (f z x y, 0)

def anyMode : Group → Bool := fun _ => true

/-- Integer and logic words, R159 to R167. -/
def integerOp (i : Instr) : Option RegOp :=
  match i with
  | .iadd _ ty sat d a b => some ⟨intWide ty, d, anyMode, val2 (iTy ty) (iTy ty) a b (iaddRes ty sat)⟩
  | .isub _ ty sat d a b => some ⟨intWide ty, d, anyMode, val2 (iTy ty) (iTy ty) a b (isubRes ty sat)⟩
  | .imul _ ty sat d a b => some ⟨intWide ty, d, anyMode, val2 (iTy ty) (iTy ty) a b (imulRes ty sat)⟩
  | .imulh _ ty d a b => some ⟨intWide ty, d, anyMode, val2 (iTy ty) (iTy ty) a b (imulhRes ty)⟩
  | .imac h ty sat d a b e => some ⟨intWide ty, d, anyMode, val3 (iTy ty) (iTy ty) (thirdOf h d e) a b (imacRes ty sat)⟩
  | .imin _ ty d a b => some ⟨intWide ty, d, anyMode, val2 (iTy ty) (iTy ty) a b (iminRes ty)⟩
  | .imax _ ty d a b => some ⟨intWide ty, d, anyMode, val2 (iTy ty) (iTy ty) a b (imaxRes ty)⟩
  | .iabs _ ty sat d a => some ⟨intWide ty, d, anyMode, val1 (iTy ty) a (iabsRes ty sat)⟩
  | .ineg _ ty sat d a => some ⟨intWide ty, d, anyMode, val1 (iTy ty) a (inegRes ty sat)⟩
  | .and _ ty d a b => some ⟨intWide ty, d, anyMode, val2 (iTy ty) (iTy ty) a b (andRes ty)⟩
  | .or _ ty d a b => some ⟨intWide ty, d, anyMode, val2 (iTy ty) (iTy ty) a b (orRes ty)⟩
  | .xor _ ty d a b => some ⟨intWide ty, d, anyMode, val2 (iTy ty) (iTy ty) a b (xorRes ty)⟩
  | .andn _ ty d a b => some ⟨intWide ty, d, anyMode, val2 (iTy ty) (iTy ty) a b (andnRes ty)⟩
  | .not _ ty d a => some ⟨intWide ty, d, anyMode, val1 (iTy ty) a (notRes ty)⟩
  | .shl _ ty d a b => some ⟨intWide ty, d, anyMode, val2 (iTy ty) .n32 a b (shlRes ty)⟩
  | .shr _ ty d a b => some ⟨intWide ty, d, anyMode, val2 (iTy ty) .n32 a b (shrRes ty)⟩
  | .sar _ ty d a b => some ⟨intWide ty, d, anyMode, val2 (iTy ty) .n32 a b (sarRes ty)⟩
  | .bfe _ ty d a b => some ⟨intWide ty, d, anyMode, val2 (iTy ty) .n32 a b (bfeRes ty)⟩
  | .bfi _ ty d a b => some ⟨intWide ty, d, anyMode, val3 (iTy ty) .n32 d a b (bfiRes ty)⟩
  | .popc _ ty d a => some ⟨false, d, anyMode, val1 (iTy ty) a (popcRes ty)⟩
  | .clz _ ty d a => some ⟨false, d, anyMode, val1 (iTy ty) a (clzRes ty)⟩
  | .brev _ ty d a => some ⟨intWide ty, d, anyMode, val1 (iTy ty) a (brevRes ty)⟩
  | .lea _ sg sh d a b =>
    some ⟨true, d, anyMode, val2 (if sg then .i64 else .n64) (if sg then .i32 else .n32) a b (leaRes sg sh.toNat)⟩
  | .isel _ ty p d a b => some ⟨intWide ty, d, anyMode, fun s c l =>
      val2 (iTy ty) (iTy ty) a b (fun x y => if pGet c.g l p.toNat then x else y) s c l⟩
  | .igcd _ ty d a b => some ⟨intWide ty, d, anyMode, val2 (iTy ty) (iTy ty) a b (igcdRes ty)⟩
  | .mov _ ty d a => some ⟨intWide ty, d, anyMode, val1 (iTy ty) a id⟩
  | .movi _ ty d v => some ⟨intWide ty, d, anyMode, fun _ _ _ => some (moviRes ty v, 0)⟩
  | .xget _ d xa => some ⟨false, d, anyMode, fun _ c l => some ((xGet c.g l xa.toNat).toNat, 0)⟩
  | _ => none

/-- A floating-point source under its acting type, R208, R216. -/
def fVal (c : Ctx) (l : Nat) (ty : FTy) (sp : Spec) : Option Nat := (fOpnd c l ty sp).toOption

def fval1 (ty : FTy) (a : Spec) (f : Ty → Nat → Nat × Flags) : State → Ctx → Nat → Option (Nat × Flags) :=
  fun _ c l => (fVal c l ty a).map fun x => f (fAct c ty) x

def fval2 (ty : FTy) (a b : Spec) (f : Ty → Nat → Nat → Nat × Flags) : State → Ctx → Nat → Option (Nat × Flags) :=
  fun _ c l => (fVal c l ty a).bind fun x => (fVal c l ty b).map fun y => f (fAct c ty) x y

/-- The modes in which a floating-point word raises no cause: .rm needs a Q32 result (R209), .q32 needs RAT, and some words have no
Q32 form (R216, R218). -/
def floatMode (ty : FTy) (rnd : Rnd) (noQ : Bool) (g : Group) : Bool :=
  !(decide (rnd = .rm) && !actsQ32 g.rat ty) && !((decide (ty = .q32) && !g.rat) || (noQ && actsQ32 g.rat ty))

/-- Floating-point words, R209 to R214. -/
def floatOp (i : Instr) : Option RegOp :=
  match i with
  | .fadd _ ty rnd sat d a b => some ⟨fWide ty, d, floatMode ty rnd false, fval2 ty a b (faddRes rnd sat)⟩
  | .fsub _ ty rnd sat d a b => some ⟨fWide ty, d, floatMode ty rnd false, fval2 ty a b (fsubRes rnd sat)⟩
  | .fmul _ ty rnd sat d a b => some ⟨fWide ty, d, floatMode ty rnd false, fval2 ty a b (fmulRes rnd sat)⟩
  | .fdiv _ ty rnd sat d a b => some ⟨fWide ty, d, floatMode ty rnd false, fval2 ty a b (fdivRes rnd sat)⟩
  | .fmac h ty rnd sat d a b e => some ⟨fWide ty, d, floatMode ty rnd false, fun s c l =>
      (fVal c l ty (thirdOf h d e)).bind fun z => fval2 ty a b (fun t x y => fmacRes rnd sat t x y z) s c l⟩
  | .fmin _ ty d a b => some ⟨fWide ty, d, floatMode ty .rn false, fval2 ty a b fun t => fminmax t false⟩
  | .fmax _ ty d a b => some ⟨fWide ty, d, floatMode ty .rn false, fval2 ty a b fun t => fminmax t true⟩
  | .fabs _ ty d a => some ⟨fWide ty, d, floatMode ty .rn false, fval1 ty a fun t x => (fabsRes t x, 0)⟩
  | .fneg _ ty d a => some ⟨fWide ty, d, floatMode ty .rn false, fval1 ty a fun t x => (fnegRes t x, 0)⟩
  | .frnd _ ty rnd d a => some ⟨fWide ty, d, floatMode ty rnd true, fval1 ty a (frndRes rnd)⟩
  | .fclass _ ty d a => some ⟨false, d, floatMode ty .rn false, fval1 ty a fun t x => (fclassMask t x, 0)⟩
  | .fsqrt _ ty rnd d a => some ⟨fWide ty, d, floatMode ty rnd true, fval1 ty a (fsqrtRes rnd)⟩
  | _ => none

/-- Conversions and Q32 words, R220 to R226. -/
def convOp (i : Instr) : Option RegOp :=
  match i with
  | .cvt _ dty sty rnd sat del sel d a =>
    if isNarrow dty then
      some ⟨false, d, anyMode, fun _ c l => (opVal c l sty a).bind fun x => (opVal c l .n32 d).map fun w =>
        (putElem dty del.toNat w (cvtElem dty sty rnd sat 0 (elemOf sty sel.toNat x)).1, (cvtElem dty sty rnd sat 0 (elemOf sty sel.toNat x)).2)⟩
    else some ⟨tyWide dty, d, anyMode, fun _ c l => (opVal c l sty a).map fun x => cvtElem dty sty rnd sat 0 (elemOf sty sel.toNat x)⟩
  | .qmake _ ty rnd d a b => some ⟨false, d, anyMode, fun _ c l =>
      (opVal c l (iTy ty) a).bind fun x => (opVal c l (iTy ty) b).map fun y => qmakeRes ty rnd x y⟩
  | .qmed _ rnd d a b => some ⟨false, d, anyMode, fun _ c l =>
      (opVal c l .q32 a).bind fun x => (opVal c l .q32 b).map fun y => qmedRes rnd x y⟩
  | .qnum _ w d a => some ⟨w, d, anyMode, fun _ c l => (opVal c l .q32 a).map fun x =>
      match qPair x with
      | some q => (ofInt (if w then 64 else 32) q.1, 0)
      | none => (0, fIV)⟩
  | .qden _ w d a => some ⟨w, d, anyMode, fun _ c l => (opVal c l .q32 a).map fun x =>
      match qPair x with
      | some q => (q.2, 0)
      | none => (0, fIV)⟩
  | _ => none

/-- A vector operand of another lane; a lane without a thread reads as zero (R171). -/
def farVal (c : Ctx) (l : Nat) (t : Ty) (a : Spec) : Option Nat :=
  (opVal c l t a).map fun x => if c.g.live.getLsbD l then x else 0

/-- Cross-lane words with a register result, R172 to R176. -/
def laneOp (i : Instr) : Option RegOp :=
  match i with
  | .shfl _ mode ty wrel d a b => some ⟨intWide ty, d, anyMode, fun _ c l =>
      (opVal c l .n32 b).bind fun o => (farVal c (shflSrc mode wrel l o) (iTy ty) a).map fun x => (x, 0)⟩
  | .bcast _ ty d a => some ⟨intWide ty, d, anyMode, fun _ c _ => (farVal c (lowest c) (iTy ty) a).map fun x => (x, 0)⟩
  | .vote _ mode d pa =>
    match mode with
    | .ballot => some ⟨false, d, anyMode, fun _ c _ => some ((voters c pa).toNat, 0)⟩
    | .any => none
    | .all => none
  | .redx _ op ty rnd d a => some ⟨tyWide ty, d, anyMode, fun _ c l =>
      if redMode c ty then none else (opVal c l ty a).map fun _ => redTree (redStep op ty rnd) (redVals c op ty a)⟩
  | .scanx _ op ty rnd d a => some ⟨tyWide ty, d, anyMode, fun _ c l =>
      if redMode c ty then none else (opVal c l ty a).map fun _ => scanAt c op ty rnd a l⟩
  | .lanerd _ ty d a b => some ⟨intWide ty, d, anyMode, fun _ c l =>
      (opVal c l .n32 b).bind fun n => (opVal c l (iTy ty) a).bind fun _ =>
        if n < 32 then (farVal c n (iTy ty) a).map fun x => (x, 0) else some (0, 0)⟩
  | _ => none

/-- Words that read the toll, a counter or an accumulator element, R82, R418, R343. -/
def stateOp (i : Instr) : Option RegOp :=
  match i with
  | .tollrd _ sel d => some ⟨false, d, anyMode, fun s c _ => some (tollRead s c.gk sel, 0)⟩
  | .cntrd _ d n => some ⟨true, d, anyMode, fun s c _ =>
      if readUni c .n32 n ≤ 10 || (16 ≤ readUni c .n32 n && readUni c .n32 n ≤ 23) then
        some (if c.g.det then 0 else (counterOf s c.core (readUni c .n32 n)).toNat, 0)
      else none⟩
  | .accrd _ ty rnd sat d ad e => some ⟨tyWide ty, d, anyMode, fun _ c l =>
      if c.l.accs ≤ ad.toNat then none
      else (opVal c l .n32 e).bind fun x =>
        if x * 32 + l < 256 then some (accrdRes ty rnd sat (aGet c.g ad.toNat (x * 32 + l)).toNat) else none⟩
  | _ => none

/-! ## Predicate and index words -/

/-- A word that computes one predicate in each active lane: the predicate it writes, what it needs of its group's mode, and the
value with its flags, or nothing where an operand cannot be read. -/
structure PredOp where
  dest : Nat
  ok   : Group → Bool
  val  : State → Ctx → Nat → Option (Bool × Flags)

/-- What a predicate word of the short class does when each active lane has a value and no flag that the group traps: it moves its
lanes on, writes the predicates, and changes no other register. Predicate p0 stays true (R146). -/
def WritesPreds (i : Instr) (op : PredOp) : Prop :=
  ∀ (s : State) (u : Issue), Acts s u i → isLong (getGroup s u.gkey).rat i = false → op.ok (getGroup s u.gkey) = true →
    (∀ l, OnLane s u i l → ∃ x fl, op.val s (ctxOf s u i) l = some (x, fl) ∧ fl &&& (getGroup s u.gkey).fen = 0) →
    ∃ g', exec i s = .next (setGroup s u.gkey g') ∧ RegFrame i (ctxOf s u i) (getGroup s u.gkey) g' ∧
      g'.vreg = (getGroup s u.gkey).vreg ∧ g'.sreg = (getGroup s u.gkey).sreg ∧
      GoOn (ctxOf s u i) (getGroup s u.gkey) g' ∧ KeepsItems (getGroup s u.gkey) g' ∧
      (∀ l, OnLane s u i l → ∀ x fl, op.val s (ctxOf s u i) l = some (x, fl) → op.dest ≠ 0 → pGet g' l op.dest = x) ∧
      (∀ l n, l < 32 → n < 16 → ¬ (OnLane s u i l ∧ n = op.dest ∧ n ≠ 0) → pGet g' l n = pGet (getGroup s u.gkey) l n) ∧
      (∀ k, g'.flg.getLsbD k = true ↔ ((getGroup s u.gkey).flg.getLsbD k = true ∨
        ∃ l x fl, OnLane s u i l ∧ op.val s (ctxOf s u i) l = some (x, fl) ∧ fl.getLsbD k = true))

/-- The same for a predicate word of the long class: its predicates wait in one outstanding item (R113, R116). -/
def QueuesPreds (i : Instr) (op : PredOp) : Prop :=
  ∀ (s : State) (u : Issue), Acts s u i → isLong (getGroup s u.gkey).rat i = true → op.ok (getGroup s u.gkey) = true →
    (ctxOf s u i).active ≠ 0 →
    (∀ l, OnLane s u i l → ∃ x fl, op.val s (ctxOf s u i) l = some (x, fl)) →
    ∃ g' o, exec i s = .next (setGroup s u.gkey g') ∧ RegFrame i (ctxOf s u i) (getGroup s u.gkey) g' ∧
      GoOn (ctxOf s u i) (getGroup s u.gkey) g' ∧
      g'.vreg = (getGroup s u.gkey).vreg ∧ g'.sreg = (getGroup s u.gkey).sreg ∧ g'.pred = (getGroup s u.gkey).pred ∧
      g'.flg = (getGroup s u.gkey).flg ∧
      g'.outs = (getGroup s u.gkey).outs ++ [o] ∧ o.seq = (getGroup s u.gkey).nextSeq ∧ g'.nextSeq = (getGroup s u.gkey).nextSeq + 1 ∧
      o.lanes = (ctxOf s u i).active ∧
      ∃ ws fs, o.work = .result ws fs ∧ o.live = ws.map (·.1) ∧
        (∀ e, e ∈ ws ↔ ∃ l x fl, OnLane s u i l ∧ op.val s (ctxOf s u i) l = some (x, fl) ∧ e = (Tgt.p l op.dest, if x then 1 else 0)) ∧
        (∀ e, e ∈ fs ↔ ∃ l x fl, OnLane s u i l ∧ op.val s (ctxOf s u i) l = some (x, fl) ∧ fl ≠ 0 ∧ e = (l, fl))

/-- Comparisons, logic on predicates, and votes, R163, R168, R173, R213. -/
def predOp (i : Instr) : Option PredOp :=
  match i with
  | .icmp _ cmp ty pd a b => some ⟨pd.toNat, anyMode, fun _ c l =>
      (opVal c l (iTy ty) a).bind fun x => (opVal c l (iTy ty) b).map fun y => (cmpInt cmp (readInt ty x) (readInt ty y), 0)⟩
  | .fcmp _ cmp ty un pd a b => some ⟨pd.toNat, floatMode ty .rn false, fun _ c l =>
      (fVal c l ty a).bind fun x => (fVal c l ty b).map fun y => fcmpVal cmp un (tyVal (fAct c ty) x) (tyVal (fAct c ty) y)⟩
  | .pand _ na nb pd pa pb => some ⟨pd.toNat, anyMode, fun _ c l =>
      some ((pGet c.g l pa.toNat != na) && (pGet c.g l pb.toNat != nb), 0)⟩
  | .por _ na nb pd pa pb => some ⟨pd.toNat, anyMode, fun _ c l =>
      some ((pGet c.g l pa.toNat != na) || (pGet c.g l pb.toNat != nb), 0)⟩
  | .pxor _ na nb pd pa pb => some ⟨pd.toNat, anyMode, fun _ c l =>
      some ((pGet c.g l pa.toNat != na) != (pGet c.g l pb.toNat != nb), 0)⟩
  | .pnot _ pd pa => some ⟨pd.toNat, anyMode, fun _ c l => some (!pGet c.g l pa.toNat, 0)⟩
  | .pmov _ pd pa => some ⟨pd.toNat, anyMode, fun _ c l => some (pGet c.g l pa.toNat, 0)⟩
  | .vote _ mode d pa =>
    match mode with
    | .ballot => none
    | .any => some ⟨(voteDest d).toNat, anyMode, fun _ c _ => some (decide (voters c pa ≠ 0), 0)⟩
    | .all => some ⟨(voteDest d).toNat, anyMode, fun _ c _ => some (decide (voters c pa = c.active), 0)⟩
  | _ => none

/-- What a word does that writes an index register in each active lane (R147, R169, R170). -/
def WritesIndex (i : Instr) (xd : BitVec 3) (val : Ctx → Nat → Option Word) : Prop :=
  ∀ (s : State) (u : Issue), Acts s u i → (∀ l, OnLane s u i l → (val (ctxOf s u i) l).isSome) →
    ∃ g', exec i s = .next (setGroup s u.gkey g') ∧
      g' = { getGroup s u.gkey with pc := g'.pc, xreg := g'.xreg, mark := markOf i && !g'.outs.isEmpty } ∧
      GoOn (ctxOf s u i) (getGroup s u.gkey) g' ∧
      (∀ l, OnLane s u i l → ∀ x, val (ctxOf s u i) l = some x → xGet g' l xd.toNat = x &&& 0x3FFFFFFF#32) ∧
      (∀ l k, l < 32 → k < 8 → ¬ (OnLane s u i l ∧ k = xd.toNat) →
        xGet g' l k = xGet (postStep i (getGroup s u.gkey) (ctxOf s u i).active) l k)

/-! ## Words that act once, and words that queue an item -/

/-- A word acts, with an active lane. -/
def ActsOnce (s : State) (u : Issue) (i : Instr) : Prop := Acts s u i ∧ (ctxOf s u i).active ≠ 0

/-- The state `t`, with the group of a word that issued in `s` left as `g` and its lanes behind the word. -/
def passedIn (t s : State) (u : Issue) (i : Instr) (g : Group) : State :=
  setGroup t u.gkey (passOn i (ctxOf s u i) g (ctxOf s u i).active)

/-- The state in which a word leaves its group as `g`, its lanes behind it, and everything else as it was. -/
def passed (s : State) (u : Issue) (i : Instr) (g : Group) : State := passedIn s s u i g

/-- The group of a word with one more outstanding item (R117, R264). -/
def queued (s : State) (u : Issue) (i : Instr) (w : Work) (live : List Tgt) : Group :=
  pushOut (getGroup s u.gkey) u.pc (ctxOf s u i).next (ctxOf s u i).active w live

/-- The value of a uniform operand of a word that acts once. -/
def uniVal (s : State) (u : Issue) (i : Instr) (t : Ty) (sp : Spec) : Option Nat := opVal (ctxOf s u i) 0 t sp

/-- The engine command that a word issues (R272, R273). -/
def newCmd (s : State) (u : Issue) (i : Instr) (dst src : DWord) (len tag : Nat) (kind : CmdKind) (tiles : List TileReg) : Cmd :=
  ⟨s.uid, (getGroup s u.gkey).team, u.gkey, coreOf s u.gkey, (getGroup s u.gkey).nextSeq, (ctxOf s u i).active, u.pc, dst, src, len,
    tag, kind, false, [], 0, tiles, none⟩

/-- A state with one more engine command. -/
def withCmd (s : State) (c : Cmd) : State := { s with uid := s.uid + 1, cmds := s.cmds ++ [c] }

/-- A team's tag is under way: DONE and ERR clear (R273). -/
def tagBegins (s : State) (team tag : Nat) : State :=
  updTeam s team fun t => { t with done := t.done &&& ~~~BitVec.ofNat 64 (2 ^ tag), err := t.err &&& ~~~BitVec.ofNat 64 (2 ^ tag) }

/-! ## Memory words -/

/-- A memory word whose requests all find their places queues one item that holds every access, its lanes go on, and nothing but the
group and what the walks of its addresses change (the translation caches and counters of the state they leave) is different (R256,
R264). -/
def QueuesAccesses (s : State) (u : Issue) (i : Instr) (kind : AccKind) (n : Nat) (mk : List LaneAcc → Work) (live : List Req → List Tgt)
    (det : DWord → Bool) (qs : List Req) : Prop :=
  ∀ (s' : State) (ps : List (Req × List Loc)), ps ≠ [] → resolveReqs (ctxOf s u i) s kind n (mk []) det qs = (s', ps.map fun p => (p.1, .ok p.2)) →
    exec i s = .next (passedIn s' s u i (pushOut (getGroup s' u.gkey) u.pc (ctxOf s u i).next (ctxOf s u i).active
      (mk (ps.map fun p => accOfReq p.1 (some p.2))) (live (ps.map (·.1)))))

/-! ## Bytes that an engine writes -/

/-- The state in which a launch acts: writes count as those of a replay's pass when the launch belongs to it (R424). -/
def actsIn (s : State) (lk : Nat) : State := if inReplay s lk then setActs s true else s

/-- The byte that stands at a place, for whoever reads it at L2 (R233, R359). -/
def placeByte (s : State) (l : Loc) : Byte :=
  match l with
  | .scr t o => scrByte s t o
  | .plaza o => memRead s.plaza o
  | .glob pa mt =>
    match paKind pa with
    | .peer n o => memRead s.peers.mem (peerKey s n o)
    | _ => if mt = 2 then memRead s.mem pa else l2Byte s pa

/-- Two places are one byte: for global bytes by their physical address, behind a peer window by what it names (R303). -/
def samePlace (s : State) (a b : Loc) : Bool :=
  match a, b with
  | .glob p _, .glob q _ =>
    (match paKind p, paKind q with
    | .peer n o, .peer m i => peerKey s n o == peerKey s m i
    | .peer _ _, _ => false
    | _, .peer _ _ => false
    | _, _ => p == q)
  | x, y => decide (x = y)

/-- `t` is `y` with bytes written: each stands at its place, unless another is written there too, and no other byte has changed. -/
def Holds (y t : State) (ws : List (Loc × Byte)) : Prop :=
  (∀ l v, (l, v) ∈ ws → (∀ l' v', (l', v') ∈ ws → samePlace y l' l = true → v' = v) →
    (∀ k o, l = .scr k o → (tabFind y.teams k).isSome) → placeByte t l = v) ∧
  ∀ l, (∀ l' v', (l', v') ∈ ws → samePlace y l' l = false) → placeByte t l = placeByte y l

/-! ## Matrix words -/

/-- A tile element's format code, its row stride for dense rows of `cols` elements (R337). -/
def denseStride (fmt : Ty) (cols : Nat) : Nat := (cols * tyBits fmt + 7) / 8

/-- A group holds its issued lanes at a word with a signature item (R330). -/
def holdsAt (s t : State) (u : Issue) (i : Instr) (w : Work) : State :=
  setGroup t u.gkey (passTo i (ctxOf s u i)
    (pushOut (getGroup t u.gkey) u.pc (ctxOf s u i).next u.lanes w []) 0 ((lanesOf u.lanes).map fun l => (l, u.pc)))

/-! ## Graphs -/

/-- A node of a run that is ready, not as a skip. -/
def ReadyNode (s : State) (g n ty : Nat) : Prop :=
  (getGraph s g).run.isSome ∧ (getGraph s g).abandoned = false ∧ n < (getGraph s g).nodes ∧
    (getNode (getGraph s g) n).ready = true ∧ ((getNode (getGraph s g) n).fwd = 0 ∨ (getNode (getGraph s g) n).ran = true) ∧
    nodeType (nodeAt s g n) = ty

/-- Position `i` of a node is a forward edge to another node, which has no other predecessor and has had no arrival. -/
def EdgeTo (s : State) (g n i m : Nat) : Prop :=
  nodeSucc (nodeAt s g n) i = m ∧ nodeBack (nodeAt s g n) i = false ∧ m ≠ n ∧ nodePred (nodeAt s g m) = 1 ∧
    (getNode (getGraph s g) m).fwd = 0 ∧ (getNode (getGraph s g) m).ran = false

/-! ## Memory -/

/-- The canonical form of a memory: addresses strictly rising, and no entry equal to what an unlisted address reads as. -/
abbrev Memory.wf (m : List (Nat × Byte)) : Bool := memWf m

/-- The invariant of memory: DRAM and host memory, the plaza, and the memory of the peers are in canonical form. -/
def MemoryOk (s : State) : Prop := Memory.wf s.mem = true ∧ Memory.wf s.plaza = true ∧ Memory.wf s.peers.mem = true

end Sys2Proof.Machine
end

