-- ==== Sys2Proof/Certificates/Slice0/Obligations.lean ====
section
/-! DEFINITION. The statements for the provers. -/

open Sys2Proof
open Sys2Proof.Machine

/-! ## Words and steps -/

/-- Decoding what a well-formed instruction is encoded as gives it back, every operand at every value (R95 to R136). -/
def Obligations.DecodeEncode : Prop := ∀ (i : Instr) (ws : List DWord), wellFormed i = true → encode i = some ws →
  decodeWords (ws.getD 0 0) (ws.getD 1 0) = .ok i ∧ ws.length * 8 = lenOf i

/-- What the decoder accepts is well-formed, and it is as long as the class of its first word says (R95, R120). -/
def Obligations.DecodedIsWellFormed : Prop := ∀ (w0 w1 : DWord) (i : Instr), decodeWords w0 w1 = .ok i →
  wellFormed i = true ∧ isEvent i = false ∧ lenOf i = wordLen w0

/-- Words of the spec's worked examples decode to what they stand for (R105, R110, R134, R167, R257, R276, R337, R345, R371). -/
def Obligations.SampleWords : Prop :=
  let f : Hdr := ⟨false, .f 0 false, 0, false, 0⟩
  let x : Hdr := ⟨false, .x 0 false 0 false 0, 0, false, 0⟩
  decodeWords 0x202000051000201C 0 = .ok (.pairWord false ⟨0x01, 0, 0, .v 5⟩ ⟨0x20, 0, 2, .v 7⟩) ∧
  decodeWords 0xD788228002060000 0x0000000000100000 = .ok (.tollset ⟨true, .x 1 false 2 true 0, 0, false, 0⟩ true (.s 3)) ∧
  decodeWords 0x8611C0C013A04100 0 = .ok (.fmul ⟨true, .f 3 true, 0, false, 0⟩ .f32 .rz false (.v 12) (.v 4) (.con 32)) ∧
  decodeWords 0x40D8000018000000 0xF5E1000508000000 = .ok (.movi x .n32 (.v 3) 0x05F5E100) ∧
  decodeWords 0x0A0000440B004000 0 = .ok (.ld f .f32 .core .x1 (.v 4) (.s 2) (.imm 0) 0) ∧
  decodeWords 0x4C000008A2108600 0x0000000000000300 = .ok (.xcopy x 0 (.s 20) (.s 8) (.s 12) (.imm 0)) ∧
  decodeWords 0x0E00000411065B00 0 = .ok (.tmap f .bf16 3 0 0 0 (.s 4) (.s 6) (.v 0) (.v 0)) ∧
  decodeWords 0x4E3C000000000080 0x00002000480C0001 = .ok (.mmaSquare x true 0 0 1 1 (.imm 0) 32) ∧
  decodeWords 0x1018000451030000 0 = .ok (.bowait f (.s 20) (.s 3))

/-- A step performs the first event of the agenda, but before a write of MBCMD a watchdog expiry that stands behind it (R434: the expiry
of an anchor cycle comes before its GO; that the events of an agenda fall in one anchor cycle is the model's choice, log entry 56); else
the word that stands at the program counter of the group that issues next,
decoded from the bytes fetched there, the illegal word or the failed fetch that stands there; else, with no group to issue,
the next internal event or the end of a cycle. What follows at once is done before the step ends. -/
def Obligations.StepRuns : Prop :=
  (∀ (s : State) (i : Instr) (rest : List Instr), s.agenda = i :: rest →
    ((∀ p, Instr.watchdogExpiry p ∉ rest) ∨ ((∀ f v, i ≠ .mbAttest f v ∧ i ≠ .mbReadlog f v ∧ i ≠ .mbReboot f v ∧ i ≠ .mbSelect f v ∧
      i ≠ .mbStage f v) ∧ ∀ f o w v, i ≠ .registerWrite f o w v)) →
    step s = thenDo (exec i { s with agenda := rest }) settle) ∧
  (∀ (s : State) (i : Instr) (p : Proc) (pre post : List Instr) (f : Nat) (v : Word), s.agenda = i :: (pre ++ .watchdogExpiry p :: post) →
    (∀ q, Instr.watchdogExpiry q ∉ pre) →
    i = .mbAttest f v ∨ i = .mbReadlog f v ∨ i = .mbReboot f v ∨ i = .mbSelect f v ∨ i = .mbStage f v →
    step s = thenDo (exec (.watchdogExpiry p) { s with agenda := i :: (pre ++ post) }) settle) ∧
  (∀ (s t : State) (u : Issue) (w : DWord) (i : Instr), s.agenda = [] → nextIssue s = some u →
    fetchWord s u.gkey u.pc = (t, .ok w) → wordLen w = 8 → decodeWords w 0 = .ok i →
    step s = thenDo (exec i (notePasses { t with cur := some u } u i)) fun r => settle (finishIssue r u i (ctxOf t u i))) ∧
  (∀ (s t t' : State) (u : Issue) (w w' : DWord) (i : Instr), s.agenda = [] → nextIssue s = some u →
    fetchWord s u.gkey u.pc = (t, .ok w) → wordLen w = 16 → fetchWord t u.gkey (u.pc + 8) = (t', .ok w') →
    decodeWords w w' = .ok i →
    step s = thenDo (exec i (notePasses { t' with cur := some u } u i)) fun r => settle (finishIssue r u i (ctxOf t' u i))) ∧
  (∀ (s t : State) (u : Issue) (w : DWord) (r : Reject), s.agenda = [] → nextIssue s = some u →
    fetchWord s u.gkey u.pc = (t, .ok w) → wordLen w = 8 → decodeWords w 0 = .error r →
    step s = .next (settle (issueNone t u (w.getLsbD 63)))) ∧
  (∀ (s t t' : State) (u : Issue) (w w' : DWord) (r : Reject), s.agenda = [] → nextIssue s = some u →
    fetchWord s u.gkey u.pc = (t, .ok w) → wordLen w = 16 → fetchWord t u.gkey (u.pc + 8) = (t', .ok w') →
    decodeWords w w' = .error r → step s = .next (settle (issueNone t' u (w.getLsbD 63)))) ∧
  (∀ (s t : State) (u : Issue) (r : AccRes), s.agenda = [] → nextIssue s = some u →
    fetchWord s u.gkey u.pc = (t, .error r) → step s = .next (settle (fetchFails t u r u.pc))) ∧
  (∀ s : State, s.agenda = [] → nextIssue s = none → step s = .next (settle (idle s)))

/-- No step stops the machine, unless the agenda asks for an instruction word that no group is issuing. -/
def Obligations.StepNeverStops : Prop :=
  ∀ s : State, (∀ i rest, s.agenda = i :: rest → isEvent i = true ∨ s.cur.isSome = true) → ∃ t, step s = .next t

/-- Memory keeps its canonical form over every step: local DRAM and host memory, the plaza, and the peers' memory. -/
def Obligations.MemoryStaysCanonical : Prop := ∀ s t : State, MemoryOk s → step s = .next t → MemoryOk t

/-- The machine after device reset: the supply block with the field map of R87 (L = 0x800, NEAR and KERB clear, mode 0, the cap at
2,400 W), no grid, no team and no group, every queue and crossing disabled, the boot ROM about to run; memory in canonical
form, every byte reading as zero (the model's choice for memory that nothing has written, log entry 1). -/
def Obligations.ResetState : Prop :=
  let s := State.reset
  s.supply.l = 0x800 ∧ s.supply.near = false ∧ s.supply.kerb = false ∧ s.supply.mode = 0 ∧ s.supply.capw = 2400 ∧
  s.groups = [] ∧ s.teams = [] ∧ s.launches = [] ∧ (∀ q, (getQueue s q).en = false) ∧ (∀ x, (getXing s x).en = false) ∧
  s.anchor.state = 0 ∧ s.anchor.step = 0 ∧ MemoryOk s ∧ (∀ a, memRead s.mem a = 0)

/-! ## Rules of single words -/

/-- The effective toll of a group (R78). -/
def Obligations.EffectiveToll : Prop :=
  ∀ (s : State) (k : Nat),
    let g := getGroup s k
    let b : Int := regionCode s (coreOf s k)
    let e : Int := max 0 (min 4095 (if g.tabs = true then max (b - 256) (min (b + 255) g.tval) else b + g.tval))
    (groupToll s k : Int) = if s.supply.near = true ∨ s.supply.kerb = true then max e b else e

/-- SHL, SHR and SAR by the count b as a 32-bit unsigned value; the type fixes only the width (R160). -/
def Obligations.Shifts : Prop :=
  ∀ (h : Hdr) (ty : IntTy) (d a b : Spec),
    WritesRegs (.shl h ty d a b) ⟨intWide ty, d, anyMode, val2 (iTy ty) .n32 a b fun x c =>
      if c < widthOf ty then x * 2 ^ c % 2 ^ widthOf ty else 0⟩ ∧
    WritesRegs (.shr h ty d a b) ⟨intWide ty, d, anyMode, val2 (iTy ty) .n32 a b fun x c =>
      if c < widthOf ty then x % 2 ^ widthOf ty / 2 ^ c else 0⟩ ∧
    WritesRegs (.sar h ty d a b) ⟨intWide ty, d, anyMode, val2 (iTy ty) .n32 a b fun x c =>
      (((if c < widthOf ty then toSigned (widthOf ty) x / 2 ^ c else if x.testBit (widthOf ty - 1) = true then -1 else 0) : Int) %
        (2 ^ widthOf ty : Int)).toNat⟩

/-- FABS and FNEG on an IEEE-style type act on bits alone: FABS clears the sign bit and FNEG inverts it, NaNs included, and they
raise no flag (R212). -/
def Obligations.FloatSigns : Prop :=
  ∀ (h : Hdr) (ty : FTy) (d a : Spec), ty ≠ .q32 →
    let abs : RegOp := ⟨fWide ty, d, fun g => !actsQ32 g.rat ty, fval1 ty a fun t x => (x % 2 ^ (tyBits t - 1), 0)⟩
    let neg : RegOp := ⟨fWide ty, d, fun g => !actsQ32 g.rat ty,
      fval1 ty a fun t x => ((x + 2 ^ (tyBits t - 1)) % 2 ^ tyBits t, 0)⟩
    WritesRegs (.fabs h ty d a) abs ∧ QueuesRegs (.fabs h ty d a) abs ∧
    WritesRegs (.fneg h ty d a) neg ∧ QueuesRegs (.fneg h ty d a) neg

/-- XFIND writes the lowest tag that is in both the mask and DONE, with its ERR bit, or 64; in a deterministic launch it first
waits until every tag of the mask is done (R280). -/
def Obligations.XfindResult : Prop :=
  (∀ (s : State) (u : Issue) (h : Hdr) (n : BitVec 8) (m : Spec) (x : Nat), ActsOnce s u (.xfind h (.s n) m) →
    uniVal s u (.xfind h (.s n) m) .i64 m = some x →
    ∃ r : Word,
      exec (.xfind h (.s n) m) s =
        .next (passed s u (.xfind h (.s n) m) (queued s u (.xfind h (.s n) m) (.result [(.s n.toNat, r)] []) [.s n.toNat])) ∧
      (let d := (teamOf s u.gkey).done &&& BitVec.ofNat 64 x
       (∀ k, k < 64 → d.getLsbD k = true → (∀ j, j < k → d.getLsbD j = false) →
         r = BitVec.ofNat 32 k ||| (if (teamOf s u.gkey).err.getLsbD k = true then 0x80000000#32 else 0#32)) ∧
       (d = 0 → r = 64))) ∧
  (∀ (s : State) (u : Issue) (h : Hdr) (d m : Spec), s.cur = some u → wellFormed (.xfind h d m) = true →
    (ctxOf s u (.xfind h d m)).active ≠ 0 → (getGroup s u.gkey).det = true →
    ~~~(teamOf s u.gkey).done &&& BitVec.ofNat 64 (readUni (ctxOf s u (.xfind h d m)) .i64 m) ≠ 0 →
    exec (.xfind h d m) s = .next s)

/-- A lane of an integer word with an operand that cannot be read, or a destination that it cannot write, raises the bound cause
at the word and writes nothing, its index registers included; the lanes beside it complete, write their values and go on behind the
word, and a uniform destination takes the value of the lowest of these (R99, R146, R156, R391, R394). The group's other registers are
untouched. -/
def Obligations.BoundFault : Prop :=
  ∀ (s : State) (u : Issue) (i : Instr) (op : RegOp), integerOp i = some op → Acts s u i → markOf i = false →
    isLong (getGroup s u.gkey).rat i = false → (getGroup s u.gkey).hmask = 0 → (getGroup s u.gkey).rejoin = [] →
    let g := getGroup s u.gkey
    let c := ctxOf s u i
    let bad := fun (l : Nat) => op.val s c l = none ∨ ¬ CanWrite c l op.wide op.dest
    (∃ l, OnLane s u i l ∧ bad l) →
    ∃ t, exec i s = .next t ∧
      (getGroup t u.gkey).cause = g.cause ||| 4 ∧ (getGroup t u.gkey).pred = g.pred ∧ (getGroup t u.gkey).flg = g.flg ∧
      ((launchOf s u.gkey).handler.isSome = true → t.mem = s.mem ∧ t.l2 = s.l2 ∧ t.plaza = s.plaza) ∧
      (∀ l, OnLane s u i l → bad l → tabGet 0 (getGroup t u.gkey).epc l = u.pc ∧ ∀ k, k < 8 → xGet (getGroup t u.gkey) l k = xGet g l k) ∧
      (∀ l, OnLane s u i l → ¬ bad l → pcOf (getGroup t u.gkey) l = c.next ∧
        (∀ k, k < 8 → xGet (getGroup t u.gkey) l k = xGet (postStep i g c.active) l k) ∧
        ∀ x fl, op.val s c l = some (x, fl) →
          (∀ r, destReg c l op.wide op.dest = some r → VecHolds (getGroup t u.gkey) l r op.wide x) ∧
          ((∀ j, OnLane s u i j → j < l → bad j) → ∀ n : BitVec 8, op.dest = .s n → UniHolds c.l.sregs (getGroup t u.gkey) n.toNat op.wide x)) ∧
      (∀ l n, l < 32 → n < 256 → ¬ (IsDest c l n op.wide op.dest ∧ ¬ bad l) → vGet (getGroup t u.gkey) l n = vGet g l n) ∧
      ∀ n, ¬ IsUniDest n op.wide op.dest ∨ (∀ l, OnLane s u i l → bad l) → tabFind (getGroup t u.gkey).sreg n = tabFind g.sreg n

/-! ## Words of registers -/

/-- Integer and logic words write their results in the active lanes and change nothing else (R156, R158, R159). -/
def Obligations.IntegerResults : Prop := ∀ i op, integerOp i = some op → WritesRegs i op ∧ QueuesRegs i op

/-- Floating-point words, on their acting types, with the flags they raise (R190, R208 to R218). -/
def Obligations.FloatResults : Prop := ∀ i op, floatOp i = some op → WritesRegs i op ∧ QueuesRegs i op

/-- Conversions and Q32 words (R220 to R226). -/
def Obligations.ConversionResults : Prop := ∀ i op, convOp i = some op → WritesRegs i op ∧ QueuesRegs i op

/-- Cross-lane words with a register result (R171 to R176). -/
def Obligations.CrossLaneResults : Prop := ∀ i op, laneOp i = some op → WritesRegs i op ∧ QueuesRegs i op

/-- Words that read the toll, a counter or an accumulator element (R82, R343, R418). -/
def Obligations.StateReads : Prop := ∀ i op, stateOp i = some op → WritesRegs i op ∧ QueuesRegs i op

/-- Comparisons, predicate logic and votes write one predicate in each active lane (R163, R168, R173, R213). -/
def Obligations.PredicateResults : Prop := ∀ i op, predOp i = some op → WritesPreds i op ∧ QueuesPreds i op

/-- XSET, XSTEP and XMOV write the index register they name (R169). MOVI with the high bit of its constant's place writes the
upper register of a pair and leaves the lower one (R167). -/
def Obligations.IndexWords : Prop :=
   ((∀ h xd a, WritesIndex (.xset h xd a) xd fun c l => (opVal c l .i32 a).map fun x => BitVec.ofNat 32 x) ∧
    (∀ h xd a, WritesIndex (.xstep h xd a) xd fun c l =>
      (opVal c l .i32 a).map fun x => moveCursor (xGet c.g l xd.toNat) (toSigned 32 x)) ∧
    (∀ h xd xa, WritesIndex (.xmov h xd xa) xd fun c l => some (xGet c.g l xa.toNat))) ∧
   (∀ (s : State) (u : Issue) (h : Hdr) (d : Spec) (v : Word), Acts s u (.moviHi h d v) →
      (∀ l, OnLane s u (.moviHi h d v) l → CanWrite (ctxOf s u (.moviHi h d v)) l true d) →
      ∃ g', exec (.moviHi h d v) s = .next (setGroup s u.gkey g') ∧
        RegFrame (.moviHi h d v) (ctxOf s u (.moviHi h d v)) (getGroup s u.gkey) g' ∧
        g'.pred = (getGroup s u.gkey).pred ∧ g'.flg = (getGroup s u.gkey).flg ∧
        GoOn (ctxOf s u (.moviHi h d v)) (getGroup s u.gkey) g' ∧ KeepsItems (getGroup s u.gkey) g' ∧
        (∀ l, OnLane s u (.moviHi h d v) l → ∀ r, destReg (ctxOf s u (.moviHi h d v)) l true d = some r → vGet g' l (r + 1) = v) ∧
        (∀ n : BitVec 8, d = .s n → (ctxOf s u (.moviHi h d v)).active ≠ 0 →
          sGet (launchOf s u.gkey).sregs g' (n.toNat + 1) = if n.toNat + 1 < (launchOf s u.gkey).sregs then v else 0) ∧
        (∀ l n, l < 32 → n < 256 →
          ¬ (OnLane s u (.moviHi h d v) l ∧ ∃ r, destReg (ctxOf s u (.moviHi h d v)) l true d = some r ∧ n = r + 1) →
          vGet g' l n = vGet (getGroup s u.gkey) l n) ∧
        (∀ n, (∀ k : BitVec 8, d = .s k → n ≠ k.toNat + 1) → tabFind g'.sreg n = tabFind (getGroup s u.gkey).sreg n))

/-- A pair word that keeps the pair rules does both halves from the registers as they stood, each in the lanes whose predicate
holds (R103 to R105, R135). -/
def Obligations.PairResults : Prop :=
  ∀ (s : State) (u : Issue) (mark : Bool) (h0 h1 : Half), Acts s u (.pairWord mark h0 h1) → pairBroken h0 h1 = false →
    (∀ l, OnLane s u (.pairWord mark h0 h1) l → ∀ h, h = h0 ∨ h = h1 → (halfLane (ctxOf s u (.pairWord mark h0 h1)) l h).isOk = true) →
    ∃ g', exec (.pairWord mark h0 h1) s = .next (setGroup s u.gkey g') ∧
      RegFrame (.pairWord mark h0 h1) (ctxOf s u (.pairWord mark h0 h1)) (getGroup s u.gkey) g' ∧
      g'.pred = (getGroup s u.gkey).pred ∧ g'.sreg = (getGroup s u.gkey).sreg ∧ g'.flg = (getGroup s u.gkey).flg ∧
      GoOn (ctxOf s u (.pairWord mark h0 h1)) (getGroup s u.gkey) g' ∧ KeepsItems (getGroup s u.gkey) g' ∧
      (∀ l, OnLane s u (.pairWord mark h0 h1) l → ∀ h, h = h0 ∨ h = h1 →
        (pGet (getGroup s u.gkey) l h.pg.toNat = false → vGet g' l h.d.toNat = vGet (getGroup s u.gkey) l h.d.toNat) ∧
        (pGet (getGroup s u.gkey) l h.pg.toNat = true → ∀ y,
          opVal (ctxOf s u (.pairWord mark h0 h1)) l (popSrcTy h.pop) h.a = some y →
          vGet g' l h.d.toNat = BitVec.ofNat 32 (popRes h.pop (vGet (getGroup s u.gkey) l h.d.toNat).toNat y))) ∧
      (∀ l n, l < 32 → n < 256 → ¬ (OnLane s u (.pairWord mark h0 h1) l ∧ (n = h0.d.toNat ∨ n = h1.d.toNat)) →
        vGet g' l n = vGet (getGroup s u.gkey) l n)

/-! ## Control -/

/-- BRA, BRX, RET and CALL send the active lanes to their targets, the other lanes of the issue on behind the word (R111, R178 to
R180). CALL leaves the address behind it in its link pair. -/
def Obligations.Branches : Prop :=
  (∀ (s : State) (u : Issue) (h : Hdr) (ofs : BitVec 24), Acts s u (.bra h ofs) →
    ∃ g', exec (.bra h ofs) s = .next (setGroup s u.gkey g') ∧
      g' = { getGroup s u.gkey with pc := g'.pc, mark := markOf (.bra h ofs) && !g'.outs.isEmpty } ∧
      ∀ l, l < 32 → pcOf g' l =
        if (ctxOf s u (.bra h ofs)).active.getLsbD l then u.pc + (ofs.signExtend 64 <<< 3)
        else if u.lanes.getLsbD l then (ctxOf s u (.bra h ofs)).next else pcOf (getGroup s u.gkey) l) ∧
  (∀ (s : State) (u : Issue) (i : Instr) (h : Hdr) (a : Spec), i = .brx h a ∨ i = .ret h a → Acts s u i →
    (∀ l, OnLane s u i l → ∃ x, opVal (ctxOf s u i) l .n64 a = some x ∧ x % 8 = 0) →
    ∃ g', exec i s = .next (setGroup s u.gkey g') ∧
      g' = { getGroup s u.gkey with pc := g'.pc, xreg := (postStep i (getGroup s u.gkey) (ctxOf s u i).active).xreg,
                                    mark := markOf i && !g'.outs.isEmpty } ∧
      (∀ l, OnLane s u i l → ∀ x, opVal (ctxOf s u i) l .n64 a = some x → pcOf g' l = BitVec.ofNat 64 x) ∧
      ∀ l, l < 32 → ¬ OnLane s u i l →
        pcOf g' l = if u.lanes.getLsbD l then (ctxOf s u i).next else pcOf (getGroup s u.gkey) l) ∧
  (∀ (s : State) (u : Issue) (h : Hdr) (d : Spec) (ofs : BitVec 24), Acts s u (.call h d ofs) →
    (∀ l, OnLane s u (.call h d ofs) l → CanWrite (ctxOf s u (.call h d ofs)) l true d) →
    ∃ g', exec (.call h d ofs) s = .next (setGroup s u.gkey g') ∧
      RegFrame (.call h d ofs) (ctxOf s u (.call h d ofs)) (getGroup s u.gkey) g' ∧
      g'.pred = (getGroup s u.gkey).pred ∧ g'.flg = (getGroup s u.gkey).flg ∧ KeepsItems (getGroup s u.gkey) g' ∧
      (∀ l, OnLane s u (.call h d ofs) l → ∀ r, destReg (ctxOf s u (.call h d ofs)) l true d = some r →
        VecHolds g' l r true (ctxOf s u (.call h d ofs)).next.toNat) ∧
      (∀ n : BitVec 8, d = .s n → (ctxOf s u (.call h d ofs)).active ≠ 0 →
        UniHolds (launchOf s u.gkey).sregs g' n.toNat true (ctxOf s u (.call h d ofs)).next.toNat) ∧
      ∀ l, l < 32 → pcOf g' l =
        if (ctxOf s u (.call h d ofs)).active.getLsbD l then u.pc + (ofs.signExtend 64 <<< 3)
        else if u.lanes.getLsbD l then (ctxOf s u (.call h d ofs)).next else pcOf (getGroup s u.gkey) l)

/-- ENROL of a free rejoin register takes the active lanes, be they none, and the join address; of one with the same address it adds them
(R148, R181). REJOIN holds the enrolled lanes that arrive at it; when all have arrived it frees the register and lets them on behind
the join word. Lanes that are not enrolled pass (R148, R182). -/
def Obligations.RejoinWords : Prop :=
   (∀ (s : State) (u : Issue) (h : Hdr) (j : BitVec 3) (ofs : BitVec 24), Acts s u (.enrol h j ofs) →
      let r := jGet (getGroup s u.gkey) j.toNat
      let t : DWord := u.pc + (ofs.signExtend 64 <<< 3)
      r.enr = 0 ∨ r.jpc = t →
      exec (.enrol h j ofs) s = .next (passed s u (.enrol h j ofs) { getGroup s u.gkey with
        rejoin := tabPut (getGroup s u.gkey).rejoin j.toNat
          ⟨if r.enr = 0 then 0 else r.arr, r.enr ||| (ctxOf s u (.enrol h j ofs)).active, t⟩ })) ∧
   (∀ (s : State) (u : Issue) (h : Hdr) (j : BitVec 3), Acts s u (.rejoin h j) →
      let g := getGroup s u.gkey
      let c := ctxOf s u (.rejoin h j)
      let r := jGet g j.toNat
      ∃ g', exec (.rejoin h j) s = .next (setGroup s u.gkey g') ∧
        g' = { g with pc := g'.pc, rejoin := g'.rejoin, mark := markOf (.rejoin h j) && !g.outs.isEmpty } ∧
        (∀ k, k ≠ j.toNat → jGet g' k = jGet g k) ∧
        (r.enr = 0 → GoOn c g g' ∧ jGet g' j.toNat = r) ∧
        (r.enr ≠ 0 → r.arr ||| (c.active &&& r.enr) ≠ r.enr →
          jGet g' j.toNat = ⟨r.arr ||| (c.active &&& r.enr), r.enr, r.jpc⟩ ∧
          ∀ l, l < 32 → pcOf g' l =
            if (c.active &&& r.enr).getLsbD l then u.pc else if u.lanes.getLsbD l then c.next else pcOf g l) ∧
        (r.enr ≠ 0 → r.arr ||| (c.active &&& r.enr) = r.enr →
          jGet g' j.toNat = ⟨0, 0, r.jpc⟩ ∧
          ∀ l, l < 32 → pcOf g' l = if r.enr.getLsbD l then r.jpc + 8 else if u.lanes.getLsbD l then c.next else pcOf g l))

/-- LOOP counts down in each active lane and sends those whose count is not zero back (R183). A uniform counter counts once. -/
def Obligations.LoopCounts : Prop :=
  ∀ (s : State) (u : Issue) (h : Hdr) (d : Spec) (ofs : BitVec 24), ActsOnce s u (.loop h d ofs) →
    let g := getGroup s u.gkey
    let c := ctxOf s u (.loop h d ofs)
    let t : DWord := u.pc + (ofs.signExtend 64 <<< 3)
    (∀ n : BitVec 8, d = .s n → n.toNat < c.l.sregs →
      ∃ g', exec (.loop h d ofs) s = .next (setGroup s u.gkey g') ∧
        RegFrame (.loop h d ofs) c g g' ∧ g'.vreg = g.vreg ∧ g'.pred = g.pred ∧ g'.flg = g.flg ∧ KeepsItems g g' ∧
        sGet c.l.sregs g' n.toNat = sGet c.l.sregs g n.toNat - 1 ∧
        (∀ k, k ≠ n.toNat → tabFind g'.sreg k = tabFind g.sreg k) ∧
        ∀ l, l < 32 → pcOf g' l =
          if c.active.getLsbD l ∧ sGet c.l.sregs g n.toNat ≠ 1 then t else if u.lanes.getLsbD l then c.next else pcOf g l) ∧
    (∀ n : BitVec 8, d = .v n → n.toNat < c.l.vregs →
      ∃ g', exec (.loop h d ofs) s = .next (setGroup s u.gkey g') ∧
        RegFrame (.loop h d ofs) c g g' ∧ g'.sreg = g.sreg ∧ g'.pred = g.pred ∧ g'.flg = g.flg ∧ KeepsItems g g' ∧
        (∀ l k, l < 32 → k < 256 →
          vGet g' l k = if c.active.getLsbD l ∧ k = n.toNat then vGet g l k - 1 else vGet g l k) ∧
        ∀ l, l < 32 → pcOf g' l =
          if c.active.getLsbD l ∧ vGet g l n.toNat ≠ 1 then t else if u.lanes.getLsbD l then c.next else pcOf g l)

/-- NOP and hint words complete and only move their lanes on, with their marker (R96, R111, R112). YIELD moves its lanes on and
marks its group as one that leaves its place at the end of the cycle (R139, R186). Nothing else of the machine changes. -/
def Obligations.NoOperation : Prop :=
  (∀ (s : State) (u : Issue) (h : Hdr), Acts s u (.nop h) →
    exec (.nop h) s = .next (passed s u (.nop h) (getGroup s u.gkey))) ∧
  (∀ (s : State) (u : Issue) (mark wide : Bool), Acts s u (.hintWord mark wide) →
    exec (.hintWord mark wide) s = .next (setGroup s u.gkey (passOn (.hintWord mark wide) (ctxOf s u (.hintWord mark wide)) (getGroup s u.gkey) 0))) ∧
  (∀ (s : State) (u : Issue) (h : Hdr), Acts s u (.yield h) →
    exec (.yield h) s = .next (passed s u (.yield h) { getGroup s u.gkey with yields := true }))

/-- EXIT ends the active lanes: they are exited, results still to come for them are discarded, they leave every rejoin register,
and a group without a lane left is spent (R137, R148, R184). -/
def Obligations.ExitEndsLanes : Prop :=
  ∀ (s : State) (u : Issue) (h : Hdr), Acts s u (.exit h) →
    let g := getGroup s u.gkey
    let c := ctxOf s u (.exit h)
    ∃ g', exec (.exit h) s = .next (setGroup s u.gkey g') ∧
      g' = { g with pc := g'.pc, exited := g.exited ||| c.active, rejoin := g'.rejoin, outs := g'.outs, mark := g'.mark,
                    sstate := if g.live &&& ~~~(g.exited ||| c.active) = 0 then .spent else g.sstate } ∧
      (∀ j, j < 8 → (jGet g' j).enr &&& c.active = 0 ∧ (jGet g' j).arr &&& c.active = 0) ∧
      (∀ o, o ∈ g'.outs → ∀ l n, OnLane s u (.exit h) l → Tgt.v l n ∉ o.live ∧ Tgt.p l n ∉ o.live) ∧
      (g'.outs.map fun o => { o with live := [] }) = g.outs.map fun o => { o with live := [] }

/-! ## Exceptions, modes, the toll -/

/-- TRAP and BKPT take their exception: with a handler, outside it, and not held, each active lane stands at the handler with its
HMASK bit, its resume address behind the word in %epc, CODE in %fcode, and the cause bit is set (R185, R391, R392, R394).
Nothing else of the group's registers changes. Without a handler, or in a lane that is already in it, TRAP and BKPT are fatal:
the lanes stay parked at their resume address and the grid's status becomes 0x07 (R394, R405). -/
def Obligations.Traps : Prop :=
   (∀ (s : State) (u : Issue) (i : Instr) (h : Hdr) (code : BitVec 8) (k : Nat) (a : DWord),
      (i = .trap h code ∧ k = 12) ∨ (i = .bkpt h code ∧ k = 11 ∧ (getFunc s (launchOf s u.gkey).func).holdbp = false) →
      ActsOnce s u i → (launchOf s u.gkey).handler = some a → (ctxOf s u i).active &&& (getGroup s u.gkey).hmask = 0 →
      ∃ t, exec i s = .next t ∧
        (∀ l, OnLane s u i l → pcOf (getGroup t u.gkey) l = a ∧ tabGet 0 (getGroup t u.gkey).epc l = (ctxOf s u i).next ∧
          tabGet 0 (getGroup t u.gkey).fadr l = 0 ∧ tabGet 0 (getGroup t u.gkey).fcode l = code.zeroExtend 32) ∧
        (getGroup t u.gkey).hmask = (getGroup s u.gkey).hmask ||| (ctxOf s u i).active ∧
        (getGroup t u.gkey).parked = (getGroup s u.gkey).parked &&& ~~~(ctxOf s u i).active ∧
        (getGroup t u.gkey).cause = (getGroup s u.gkey).cause ||| BitVec.ofNat 32 (2 ^ k) ∧
        ((getGroup s u.gkey).rejoin = [] → ∀ l, l < 32 → ¬ OnLane s u i l → pcOf (getGroup t u.gkey) l =
          if u.lanes.getLsbD l then (ctxOf s u i).next else pcOf (getGroup s u.gkey) l) ∧
        (∀ l, ¬ OnLane s u i l → tabGet 0 (getGroup t u.gkey).epc l = tabGet 0 (getGroup s u.gkey).epc l) ∧
        (getGroup t u.gkey).vreg = (getGroup s u.gkey).vreg ∧ (getGroup t u.gkey).sreg = (getGroup s u.gkey).sreg ∧
        (getGroup t u.gkey).pred = (getGroup s u.gkey).pred ∧ (getGroup t u.gkey).xreg = (getGroup s u.gkey).xreg ∧
        (getGroup t u.gkey).flg = (getGroup s u.gkey).flg ∧ (getGroup t u.gkey).rat = (getGroup s u.gkey).rat ∧
        (getGroup t u.gkey).fen = (getGroup s u.gkey).fen ∧ t.mem = s.mem ∧ t.plaza = s.plaza) ∧
   (∀ (s : State) (u : Issue) (i : Instr) (h : Hdr) (code : BitVec 8),
      i = .trap h code ∨ (i = .bkpt h code ∧ (getFunc s (launchOf s u.gkey).func).holdbp = false) →
      ActsOnce s u i → (launchOf s u.gkey).handler = none ∨ (ctxOf s u i).active &&& (getGroup s u.gkey).hmask ≠ 0 →
      (tabFind s.launches (teamOf s u.gkey).launch).isSome → (launchOf s u.gkey).stage ≠ .retired → (launchOf s u.gkey).fate = 0 →
      ∃ t, exec i s = .next t ∧ (launchOf t u.gkey).fate = 0x07 ∧ (launchOf t u.gkey).unplaced = [] ∧
        (getGroup t u.gkey).parked = (getGroup s u.gkey).parked ||| (ctxOf s u i).active ∧
        (getGroup t u.gkey).hmask = (getGroup s u.gkey).hmask ∧
        ∀ l, OnLane s u i l → pcOf (getGroup t u.gkey) l = (ctxOf s u i).next ∧
          tabGet 0 (getGroup t u.gkey).epc l = (ctxOf s u i).next)

/-- TRET returns the active lanes that are in the handler to their %epc and clears their HMASK bits; with all of them there it
changes nothing else (R400). TRET in lanes outside the handler raises the illegal-instruction cause in them (R400). -/
def Obligations.HandlerReturn : Prop :=
   (∀ (s : State) (u : Issue) (h : Hdr), Acts s u (.tret h) →
      (ctxOf s u (.tret h)).active &&& ~~~(getGroup s u.gkey).hmask = 0 →
      ∃ g', exec (.tret h) s = .next (setGroup s u.gkey g') ∧
        g' = { getGroup s u.gkey with pc := g'.pc, hmask := (getGroup s u.gkey).hmask &&& ~~~(ctxOf s u (.tret h)).active,
                                      mark := markOf (.tret h) && !g'.outs.isEmpty } ∧
        ∀ l, l < 32 → pcOf g' l =
          if (ctxOf s u (.tret h)).active.getLsbD l then tabGet 0 (getGroup s u.gkey).epc l
          else if u.lanes.getLsbD l then (ctxOf s u (.tret h)).next else pcOf (getGroup s u.gkey) l) ∧
   (∀ (s : State) (u : Issue) (h : Hdr) (a : DWord), ActsOnce s u (.tret h) →
      (ctxOf s u (.tret h)).active &&& (getGroup s u.gkey).hmask = 0 → (launchOf s u.gkey).handler = some a →
      ∃ t, exec (.tret h) s = .next t ∧ (getGroup t u.gkey).cause = (getGroup s u.gkey).cause ||| 1 ∧
        ∀ l, OnLane s u (.tret h) l → pcOf (getGroup t u.gkey) l = a ∧ tabGet 0 (getGroup t u.gkey).epc l = u.pc ∧
          (getGroup t u.gkey).hmask.getLsbD l = true)

/-- SRD writes the special register's value in each active lane (R397, R398). The clock register also draws a fresh value. What
the group's own special registers read as (R393, R398). -/
def Obligations.SpecialReads : Prop :=
   (∀ (s : State) (u : Issue) (h : Hdr) (n : BitVec 10) (d : Spec), Acts s u (.srd h n d) →
      (∀ l, OnLane s u (.srd h n d) l → CanWrite (ctxOf s u (.srd h n d)) l (srnWide n) d) →
      ∃ g', exec (.srd h n d) s = .next (setGroup (if n = 0x020 then { s with fresh := s.fresh + 1 } else s) u.gkey g') ∧
        RegFrame (.srd h n d) (ctxOf s u (.srd h n d)) (getGroup s u.gkey) g' ∧ g'.pred = (getGroup s u.gkey).pred ∧
        g'.flg = (getGroup s u.gkey).flg ∧ GoOn (ctxOf s u (.srd h n d)) (getGroup s u.gkey) g' ∧ KeepsItems (getGroup s u.gkey) g' ∧
        (∀ l, OnLane s u (.srd h n d) l → ∀ r, destReg (ctxOf s u (.srd h n d)) l (srnWide n) d = some r →
          VecHolds g' l r (srnWide n) (srnRead s u.gkey l n.toNat)) ∧
        (∀ k : BitVec 8, d = .s k → ∀ l t, lanesOf (ctxOf s u (.srd h n d)).active = l :: t →
          UniHolds (launchOf s u.gkey).sregs g' k.toNat (srnWide n) (srnRead s u.gkey l n.toNat)) ∧
        (∀ l k, l < 32 → k < 256 → ¬ IsDest (ctxOf s u (.srd h n d)) l k (srnWide n) d → vGet g' l k = vGet (getGroup s u.gkey) l k)) ∧
   (∀ (s : State) (k l : Nat), let g := getGroup s k
      srnRead s k l 0x000 = l ∧ srnRead s k l 0x001 = g.gidx ∧ srnRead s k l 0x003 = 32 * g.gidx + l ∧ srnRead s k l 0x007 = 32 ∧
      srnRead s k l 0x010 = g.fen.toNat + g.rat.toNat * 2 ^ 8 + g.flg.toNat * 2 ^ 16 + g.sfn.toNat * 2 ^ 21 + g.det.toNat * 2 ^ 24 ∧
      srnRead s k l 0x011 = g.cause.toNat ∧ srnRead s k l 0x012 = (tabGet 0#64 g.epc l).toNat ∧
      srnRead s k l 0x013 = (tabGet 0#64 g.fadr l).toNat ∧ srnRead s k l 0x014 = (tabGet 0#32 g.fcode l).toNat ∧
      srnRead s k l 0x018 = (teamOf s k).done.toNat ∧ srnRead s k l 0x019 = (teamOf s k).err.toNat ∧
      srnRead s k l 0x01A = (teamOf s k).priv.toNat ∧ (g.det = true → srnRead s k l 0x020 = 0))

/-- SWR of %mode replaces FEN, RAT, FLG and SFN and leaves DET; of %priv it replaces PWORDS and, up to 1,536, PBASE; of %epc it
replaces each active lane's resume address (R235, R393, R399, R436). The value of a group or team register is the lowest
active lane's. -/
def Obligations.SpecialWrites : Prop :=
  ∀ (s : State) (u : Issue) (h : Hdr) (a : Spec),
    (ActsOnce s u (.swr h 0x010 a) → (∀ l, OnLane s u (.swr h 0x010 a) l → (opVal (ctxOf s u (.swr h 0x010 a)) l .n32 a).isSome) →
      ∀ l t x, lanesOf (ctxOf s u (.swr h 0x010 a)).active = l :: t → opVal (ctxOf s u (.swr h 0x010 a)) l .n32 a = some x →
      exec (.swr h 0x010 a) s = .next (passed s u (.swr h 0x010 a) { getGroup s u.gkey with
        fen := BitVec.ofNat 5 x, rat := x.testBit 8, flg := BitVec.ofNat 5 (x / 2 ^ 16), sfn := BitVec.ofNat 3 (x / 2 ^ 21) })) ∧
    (ActsOnce s u (.swr h 0x01A a) → (∀ l, OnLane s u (.swr h 0x01A a) l → (opVal (ctxOf s u (.swr h 0x01A a)) l .n32 a).isSome) →
      ∀ l t x, lanesOf (ctxOf s u (.swr h 0x01A a)).active = l :: t → opVal (ctxOf s u (.swr h 0x01A a)) l .n32 a = some x →
      exec (.swr h 0x01A a) s = .next (passedIn (updTeam s (getGroup s u.gkey).team fun t => { t with
        priv := privAfter t.priv (BitVec.ofNat 32 x) }) s u (.swr h 0x01A a) (getGroup s u.gkey))) ∧
    (ActsOnce s u (.swr h 0x012 a) → (∀ l, OnLane s u (.swr h 0x012 a) l → (opVal (ctxOf s u (.swr h 0x012 a)) l .n64 a).isSome) →
      ∃ g', exec (.swr h 0x012 a) s = .next (passed s u (.swr h 0x012 a) g') ∧ g' = { getGroup s u.gkey with epc := g'.epc } ∧
        (∀ l x, OnLane s u (.swr h 0x012 a) l → opVal (ctxOf s u (.swr h 0x012 a)) l .n64 a = some x →
          tabGet 0 g'.epc l = BitVec.ofNat 64 x) ∧
        ∀ l, ¬ OnLane s u (.swr h 0x012 a) l → tabGet 0 g'.epc l = tabGet 0 (getGroup s u.gkey).epc l)

/-- CCLR clears the named cause bits (R400); TOLLSET replaces the group's toll setting, clamped to its range, and TOLLREL makes it
relative by zero (R78, R83). -/
def Obligations.GroupSettings : Prop :=
  ∀ (s : State) (u : Issue) (h : Hdr),
    (∀ m x, ActsOnce s u (.cclr h m) → opVal (ctxOf s u (.cclr h m)) 0 .n32 m = some x →
      exec (.cclr h m) s = .next (passed s u (.cclr h m) { getGroup s u.gkey with
        cause := (getGroup s u.gkey).cause &&& ~~~(BitVec.ofNat 32 x) })) ∧
    (∀ a x, ActsOnce s u (.tollset h true a) → opVal (ctxOf s u (.tollset h true a)) 0 .i32 a = some x →
      exec (.tollset h true a) s = .next (passed s u (.tollset h true a) { getGroup s u.gkey with
        tabs := true, tval := max 0 (min 4095 (BitVec.ofNat 32 x).toInt) })) ∧
    (∀ a x, ActsOnce s u (.tollset h false a) → opVal (ctxOf s u (.tollset h false a)) 0 .i32 a = some x →
      exec (.tollset h false a) s = .next (passed s u (.tollset h false a) { getGroup s u.gkey with
        tabs := false, tval := max (-256) (min 255 (BitVec.ofNat 32 x).toInt) })) ∧
    (ActsOnce s u (.tollrel h) →
      exec (.tollrel h) s = .next (passed s u (.tollrel h) { getGroup s u.gkey with tabs := false, tval := 0 }))

/-- PMARK and SMPL complete: their lanes go on, and the record of one slot (PMARK) or four (SMPL) goes to the tail of the
function's trace ring when it has the room and each slot translates to memory that can be written; else it is dropped and
counted (R418, R419). A mark's 64 bytes stand in its slot. -/
def Obligations.TraceWords : Prop :=
  ∀ (s : State) (u : Issue) (i : Instr) (h : Hdr) (a : Spec) (x : Nat), i = .pmark h a ∨ i = .smpl h a → ActsOnce s u i →
    uniVal s u i .n32 a = some x →
    let n := if i = .pmark h a then 1 else 4
    let fn := (launchOf s u.gkey).func
    let f := getFunc s fn
    let place := fun (k : Nat) => recPlace s fn (f.trcbase.toNat / 4096 * 4096 + 64 * ((f.trctail.toNat + k) % 2 ^ f.trclog.toNat))
    let fits := (f.trctail - f.trchead).toNat + n ≤ 2 ^ f.trclog.toNat ∧ ∀ k, k < n → (place k).isSome
    ∃ t, exec i s = .next t ∧ getGroup t u.gkey = passOn i (ctxOf s u i) (getGroup s u.gkey) (ctxOf s u i).active ∧
      t.fresh = s.fresh + 1 ∧ t.teams = s.teams ∧ t.launches = s.launches ∧
      (¬ fits → (getFunc t fn).trcdrop = f.trcdrop + 1 ∧ (getFunc t fn).trctail = f.trctail ∧ t.mem = s.mem ∧ t.l2 = s.l2) ∧
      (fits → (getFunc t fn).trctail = f.trctail + BitVec.ofNat 32 n ∧ (getFunc t fn).trcdrop = f.trcdrop ∧
        ∀ pa, place 0 = some pa → i = .pmark h a → ∀ j, j < 64 → sysByte t (pa + j) =
          (traceBytes (Config.clockAt s.fresh) u.pc (launchOf s u.gkey).label (teamOf s u.gkey).task (getGroup s u.gkey).gidx
            (ctxOf s u i).active.toNat x 0x01 fn (tabGet 0 s.obs.trseq fn)).getD j 0)

/-! ## Special function queue, waits, barriers, phases -/

/-- SFQ outside RAT takes the next token: the token number goes to its uniform register, SFN advances, and the results wait in a
queue item (R227 to R229). -/
def Obligations.SfqTakesToken : Prop :=
  ∀ (s : State) (u : Issue) (h : Hdr) (fn : SfqFn) (ty : FTy) (d a : Spec) (n : BitVec 8), ActsOnce s u (.sfq h fn ty d a (.s n)) →
    let i : Instr := .sfq h fn ty d a (.s n)
    let g := getGroup s u.gkey
    let c := ctxOf s u i
    g.rat = false → (∀ l, OnLane s u i l → (opVal c l (fTy ty) a).isSome ∧ CanWrite c l false d) →
    ∃ ws fl, exec i s = .next (passedIn (countEv s c.core 0x08 1) s u i
        (pushOut { writeReg c.l.sregs g (.s n.toNat) (BitVec.ofNat 32 g.sfn.toNat) with sfn := g.sfn + 1 } u.pc c.next c.active
          (.sfq fn ty g.sfn.toNat ws fl) (ws.map (·.1)))) ∧
      ∀ l x r, OnLane s u i l → opVal c l (fTy ty) a = some x → destReg c l false d = some r →
        (Tgt.v l r, BitVec.ofNat 32 (finish (fTy ty) .rn false (sfqRes fn (tyVal (fTy ty) (x % 2 ^ tyBits (fTy ty))))).1) ∈ ws

/-- Words that only queue an item: waits on tokens, tags and children, fences, and reads of tokens and tags (R230, R279, R280, R286,
R380, R383). That the results of SFT and XFIND are those at issue is read from the rules (log entry 32). What completes each item
is for its event or for the end of the step. A wait item leaves the group when its condition holds, and stays while it does not
(R230, R279). -/
def Obligations.WaitWords : Prop :=
   (∀ (s : State) (u : Issue) (h : Hdr),
      (∀ m x, ActsOnce s u (.sfw h m) → uniVal s u (.sfw h m) .n32 m = some x →
        exec (.sfw h m) s = .next (passed s u (.sfw h m) (queued s u (.sfw h m) (.sfw (BitVec.ofNat 8 x)) []))) ∧
      (∀ n m x, ActsOnce s u (.sft h (.s n) m) → uniVal s u (.sft h (.s n) m) .n32 m = some x →
        exec (.sft h (.s n) m) s = .next (passed s u (.sft h (.s n) m) (queued s u (.sft h (.s n) m)
          (.result [(.s n.toNat, (BitVec.ofNat 8 x &&& ~~~(tokensBusy (getGroup s u.gkey))).setWidth 32)] []) [.s n.toNat]))) ∧
      (∀ m x, ActsOnce s u (.xwaita h m) → uniVal s u (.xwaita h m) .i64 m = some x →
        exec (.xwaita h m) s = .next (passed s u (.xwaita h m) (queued s u (.xwaita h m) (.waitAny (BitVec.ofNat 64 x)) []))) ∧
      (∀ m x, ActsOnce s u (.xwaitl h m) → uniVal s u (.xwaitl h m) .i64 m = some x →
        exec (.xwaitl h m) s = .next (passed s u (.xwaitl h m) (queued s u (.xwaitl h m) (.waitAll (BitVec.ofNat 64 x)) []))) ∧
      (∀ n m x, ActsOnce s u (.xfind h (.s n) m) → uniVal s u (.xfind h (.s n) m) .i64 m = some x →
        exec (.xfind h (.s n) m) s = .next (passed s u (.xfind h (.s n) m) (queued s u (.xfind h (.s n) m)
          (.result [(.s n.toNat, xfindRes (teamOf s u.gkey).done (teamOf s u.gkey).err (BitVec.ofNat 64 x))] []) [.s n.toNat]))) ∧
      (ActsOnce s u (.fenceOpnd h) →
        exec (.fenceOpnd h) s = .next (passed s u (.fenceOpnd h) (queued s u (.fenceOpnd h) .fenceOpnd []))) ∧
      (∀ sc, ActsOnce s u (.fence h sc) →
        exec (.fence h sc) s = .next (passed s u (.fence h sc) (queued s u (.fence h sc) (.fence (decide (sc = .sys))) []))) ∧
      (ActsOnce s u (.ldone h) → exec (.ldone h) s = .next (passed s u (.ldone h) (queued s u (.ldone h) (.ldone none) [])))) ∧
   (∀ (s : State) (k : Nat) (o : Out),
      (∀ m, o.work = .waitAny m → settleOut s k o =
        if m = 0 ∨ (teamOf s k).done &&& m ≠ 0 then updGroup s k fun g => retire g o.seq else s) ∧
      (∀ m, o.work = .waitAll m → settleOut s k o =
        if (teamOf s k).done &&& m = m then updGroup s k fun g => retire g o.seq else s) ∧
      (∀ m, o.work = .sfw m → settleOut s k o =
        if tokensBusy (getGroup s k) &&& m = 0 then updGroup s k fun g => retire g o.seq else s))

/-- BAR queues its arrival and holds the issued lanes at the word; the arrival is recorded once every earlier access of the group has been
performed, and the lanes stay held (R372). Words on barrier objects queue their access to the
object that their address names (R374 to R379). -/
def Obligations.BarrierWords : Prop :=
   (∀ (s : State) (k n len : Nat) (o : Out), o ∈ (getGroup s k).outs → o.work = .bar n false len →
      (∀ p n' len', p ∈ (getGroup s k).outs → p.work = .bar n' false len' → p = o) →
      barReady s k o.seq = true → parkedElem s k = false →
      ∃ t, exec (.barArrivalRecord k) s = .next t ∧
        (getGroup s k).gidx ∈ tabGet [] (getTeam t (getGroup s k).team).bars n ∧
        (∀ gi, gi ∈ tabGet [] (getTeam t (getGroup s k).team).bars n →
          gi = (getGroup s k).gidx ∨ gi ∈ tabGet [] (getTeam s (getGroup s k).team).bars n) ∧
        (getGroup t k).pc = (getGroup s k).pc ∧ (getGroup t k).vreg = (getGroup s k).vreg) ∧
   (∀ (s : State) (u : Issue) (h : Hdr),
    (∀ n x, ActsOnce s u (.bar h n) → uniVal s u (.bar h n) .n32 n = some x → x ≤ 7 →
      exec (.bar h n) s = .next (setGroup s u.gkey (passTo (.bar h n) (ctxOf s u (.bar h n))
        (pushOut (getGroup s u.gkey) u.pc (ctxOf s u (.bar h n)).next u.lanes (.bar x false (lenOf (.bar h n))) []) 0
        ((lanesOf u.lanes).map fun l => (l, u.pc))))) ∧
    (∀ bo n x y p, ActsOnce s u (.boinit h bo n) → uniVal s u (.boinit h bo n) .n64 bo = some x → uniVal s u (.boinit h bo n) .n32 n = some y →
      objPlace s u.gkey (BitVec.ofNat 64 x) = some p → y < 2 ^ 24 →
      exec (.boinit h bo n) s = .next (passed s u (.boinit h bo n) (queued s u (.boinit h bo n) (.boinit p y) []))) ∧
    (∀ d bo n x y p, ActsOnce s u (.boarr h (.s d) bo n) → uniVal s u (.boarr h (.s d) bo n) .n64 bo = some x →
      uniVal s u (.boarr h (.s d) bo n) .n32 n = some y → objPlace s u.gkey (BitVec.ofNat 64 x) = some p → y < 2 ^ 24 →
      exec (.boarr h (.s d) bo n) s =
        .next (passed s u (.boarr h (.s d) bo n) (queued s u (.boarr h (.s d) bo n) (.boarr p y d.toNat) [.s d.toNat]))) ∧
    (∀ bo n x y p, ActsOnce s u (.bowait h bo n) → uniVal s u (.bowait h bo n) .n64 bo = some x → uniVal s u (.bowait h bo n) .n32 n = some y →
      objPlace s u.gkey (BitVec.ofNat 64 x) = some p →
      exec (.bowait h bo n) s = .next (passed s u (.bowait h bo n) (queued s u (.bowait h bo n) (.bowait p (y % 65536) false) []))) ∧
    (∀ pd bo n x y p, ActsOnce s u (.botest h pd bo n) → uniVal s u (.botest h pd bo n) .n64 bo = some x →
      uniVal s u (.botest h pd bo n) .n32 n = some y → objPlace s u.gkey (BitVec.ofNat 64 x) = some p →
      exec (.botest h pd bo n) s = .next (passed s u (.botest h pd bo n) (queued s u (.botest h pd bo n)
        (.botest p (y % 65536) pd.toNat (getGroup s u.gkey).det)
        ((lanesOf (ctxOf s u (.botest h pd bo n)).active).map fun l => Tgt.p l pd.toNat)))))

/-- PHREL and PHSYNC begin a release: where the core has none that began in this cycle, it takes every dirty byte of the core's L1
and SIGF, which clears; where it has one, that one is shared and takes nothing more. PHACQ begins an acquire, which takes ACQF
and clears it. Each queues its completion, and its lanes go on (R360, R361, R381). In a deterministic launch all three raise
the determinism cause instead, and begin nothing (R369, R381). A release ends with its bytes at L2 and its signature in the filters
of its cores, an acquire with the matching clean bytes gone from its core's L1; each lets the item of the word that asked for
it go; neither ends in the cycle in which it began, nor before an earlier one of its core (R360, R361, R365). -/
def Obligations.PhaseWords : Prop :=
  (∀ (s : State) (u : Issue) (h : Hdr) (sc : Scope),
    let c := coreOf s u.gkey
    let x := getCore s c
    ((getGroup s u.gkey).det = false →
      (∀ (i : Instr) (w : Nat → Work), (i = .phrel h sc ∧ w = fun id => .release sc id) ∨ (i = .phsync h sc ∧ w = fun id => .phsync sc id false) →
        ActsOnce s u i →
        (s.rels.find? (fun r => r.core == c && r.cyc == s.now) = none →
          ∃ t r, exec i s = .next (passedIn t s u i (queued s u i (w s.uid) [])) ∧
            t = { s with uid := s.uid + 1, cores := t.cores, rels := s.rels ++ [r] } ∧
            getCore t c = { x with sigf := 0 } ∧ (∀ d, d ≠ c → getCore t d = getCore s d) ∧
            r.id = s.uid ∧ r.core = c ∧ r.scope = sc ∧ r.sig = x.sigf ∧ r.cores = scopeCores s u.gkey sc ∧ r.cyc = s.now ∧
            ∀ a b, (a, b) ∈ r.bytes ↔ (a, (true, b)) ∈ x.l1) ∧
        (∀ r, s.rels.find? (fun r => r.core == c && r.cyc == s.now) = some r →
          ∃ t, exec i s = .next (passedIn t s u i (queued s u i (w r.id) [])) ∧ t = { s with rels := t.rels } ∧
            ∀ q, q ∈ t.rels → ∃ p, p ∈ s.rels ∧ q = { p with scope := q.scope, cores := q.cores } ∧
              ∀ d, d ∈ p.cores ∨ (p.id = r.id ∧ d ∈ scopeCores s u.gkey sc) → d ∈ q.cores)) ∧
      (ActsOnce s u (.phacq h sc) →
        ∃ t, exec (.phacq h sc) s = .next (passedIn t s u (.phacq h sc) (queued s u (.phacq h sc) (.acquire s.uid) [])) ∧
          t = { s with uid := s.uid + 1, cores := t.cores, acqs := s.acqs ++ [⟨s.uid, c, x.acqf, s.now, none⟩] } ∧
          getCore t c = { x with acqf := 0 } ∧ ∀ d, d ≠ c → getCore t d = getCore s d)) ∧
    (∀ i a, i = .phrel h sc ∨ i = .phacq h sc ∨ i = .phsync h sc → (getGroup s u.gkey).det = true → ActsOnce s u i →
      (launchOf s u.gkey).handler = some a → (ctxOf s u i).active &&& (getGroup s u.gkey).hmask = 0 →
      ∃ t, exec i s = .next t ∧ t.rels = s.rels ∧ t.acqs = s.acqs ∧
        (getGroup t u.gkey).cause = (getGroup s u.gkey).cause ||| BitVec.ofNat 32 (2 ^ 8) ∧
        ∀ l, OnLane s u i l → pcOf (getGroup t u.gkey) l = a ∧ tabGet 0 (getGroup t u.gkey).epc l = u.pc)) ∧
   (∀ (s : State) (id k c : Nat) (o : Out), o ∈ (getGroup s k).outs →
      (∀ r sc, s.groups = [(k, getGroup s k)] → s.rels.find? (fun r => r.id == id) = some r → s.rels.find? (fun r => r.core == c) = some r →
          r.cyc < s.now → r.scope = sc → sc ≠ .sys → o.work = .release sc id →
        (∀ p, p ∈ (getGroup s k).outs → ∀ sc', p.work = .release sc' id → p = o) →
        (∀ p sc', p ∈ (getGroup s k).outs → p.work ≠ .phsync sc' id false) →
        ∃ t, exec (.releaseComplete id) s = .next t ∧ (getGroup t k).outs = (getGroup s k).outs.filter (fun p => p.seq != o.seq) ∧
          (∀ q, q ∈ t.rels ↔ q ∈ s.rels ∧ q.id ≠ id) ∧
          (∀ a b, (a, b) ∈ r.bytes → (∀ b', (a, b') ∈ r.bytes → b' = b) → l2Byte t a = b) ∧
          (∀ a, (∀ b, (a, b) ∉ r.bytes) → l2Byte t a = l2Byte s a) ∧
          ∀ d n, d ∈ r.cores → d ≠ c → d < 192 → acqNow s d = none → r.sig.getLsbD n = true → (getCore t d).acqf.getLsbD n = true) ∧
      (∀ a f z w, s.groups = [(k, getGroup s k)] → s.acqs = [⟨id, c, f, z, w⟩] → z < s.now → o.work = .acquire id →
        (∀ p, p ∈ (getGroup s k).outs → p ≠ o → p.work ≠ .acquire id ∧ (∀ sc, p.work ≠ .phsync sc id true) ∧ p.work ≠ .ldone (some id)) →
        ∃ t, exec (.acquireComplete id) s = .next t ∧ (getGroup t k).outs = (getGroup s k).outs.filter (fun p => p.seq != o.seq) ∧
          t.acqs = [] ∧ (∀ b, (a, (false, b)) ∈ (getCore t c).l1 → filtHas f a = false) ∧
          (∀ b, (a, (true, b)) ∈ (getCore t c).l1 ↔ (a, (true, b)) ∈ (getCore s c).l1)) ∧
      (∀ r, s.rels.find? (fun r => r.id == id) = some r → s.now ≤ r.cyc → exec (.releaseComplete id) s = .next s) ∧
      (∀ a, s.acqs.find? (fun a => a.id == id) = some a → s.now ≤ a.cyc → exec (.acquireComplete id) s = .next s))

/-! ## Engines -/

/-- A copy that passes its checks clears its tag's DONE and ERR and issues one command; to a frozen engine context it issues none
(R272 to R278). XFORM and XFORM.DEC whose addresses, record and object are in order issue one command; to a frozen engine
context they issue none (R272, R274, R281). -/
def Obligations.CommandWords : Prop :=
   (∀ (s : State) (u : Issue) (h : Hdr) (lay : BitVec 3) (d a len tag : Spec) (dv av lv tv : Nat),
      let issues := fun (i : Instr) (kind : CmdKind) =>
        exec i s = .next (if (teamOf s u.gkey).frozen = true then
            passedIn (tagBegins s (getGroup s u.gkey).team tv) s u i (getGroup s u.gkey)
          else passedIn (withCmd (tagBegins s (getGroup s u.gkey).team tv)
            (newCmd s u i (BitVec.ofNat 64 dv) (BitVec.ofNat 64 av) lv tv kind [])) s u i (queued s u i (.engine s.uid) []))
      (∀ i, i = .xcopy h lay d a len tag → ActsOnce s u i →
        uniVal s u i .n64 d = some dv → uniVal s u i .n64 a = some av → uniVal s u i .n32 len = some lv → uniVal s u i .n32 tag = some tv →
        engineCheck s u.gkey [(BitVec.ofNat 64 dv, lv), (BitVec.ofNat 64 av, lv)] = none → tv ≤ 63 → issues i (.copy lay.toNat)) ∧
      (∀ i out ov cont pt, i = .xcopyCrc h lay d a len tag out cont pt → ActsOnce s u i →
        uniVal s u i .n64 d = some dv → uniVal s u i .n64 a = some av → uniVal s u i .n32 len = some lv → uniVal s u i .n32 tag = some tv →
        uniVal s u i .n64 out = some ov → ov % 4 = 0 → ov < 2 ^ 64 →
        engineCheck s u.gkey ([(BitVec.ofNat 64 dv, lv), (BitVec.ofNat 64 av, lv)] ++ if ov = 0 then [] else [(BitVec.ofNat 64 ov, 4)]) = none →
        tv ≤ 63 → issues i (.copyCrc lay.toNat (BitVec.ofNat 64 ov) cont pt.toNat)) ∧
      (∀ i ex ev cont pt, i = .xcopyChk h lay d a len tag ex cont pt → ActsOnce s u i →
        uniVal s u i .n64 d = some dv → uniVal s u i .n64 a = some av → uniVal s u i .n32 len = some lv → uniVal s u i .n32 tag = some tv →
        uniVal s u i .n32 ex = some ev → engineCheck s u.gkey [(BitVec.ofNat 64 dv, lv), (BitVec.ofNat 64 av, lv)] = none → tv ≤ 63 →
        issues i (.copyChk lay.toNat (BitVec.ofNat 32 ev) cont pt.toNat))) ∧
   (∀ (s : State) (u : Issue) (h : Hdr) (d a r bo : Spec) (dec : Bool) (i : Instr) (dv av rv bv : Nat),
      i = (if dec then .xformDec h d a r bo else .xform h d a r bo) → ActsOnce s u i →
      uniVal s u i .n64 d = some dv → uniVal s u i .n64 a = some av → uniVal s u i .n64 r = some rv → uniVal s u i .n64 bo = some bv →
      rv < 2 ^ 64 → rv % 64 = 0 → (objPlace s u.gkey (BitVec.ofNat 64 bv)).isSome →
      engineCheck s u.gkey [(BitVec.ofNat 64 dv, 1), (BitVec.ofNat 64 av, 1), (BitVec.ofNat 64 rv, 64)] = none →
      exec i s = .next (if (teamOf s u.gkey).frozen = true then passed s u i (getGroup s u.gkey)
        else passedIn (withCmd s (newCmd s u i (BitVec.ofNat 64 dv) (BitVec.ofNat 64 av) 0 0
          (.xform dec (BitVec.ofNat 64 rv) (BitVec.ofNat 64 bv)) [])) s u i (queued s u i (.engine s.uid) [])))

/-- An engine instruction (a copy, with or without an inline check, a transform, a decode, a JOB) that names an invalid space, a
lane-private address or a byte beyond its window is an access violation at the first such byte, in the order in which the rule names
its addresses: no command issues (R272). The first such byte of an address with a length, by `engineBad`, is the first byte of it that is
neither global nor a byte of a window other than the lane-private one; with no byte at all the address itself is looked at. An address that is not a multiple of the access size, or of an unassigned
space, or a window byte beyond the window, resolves to an access violation at the first such address and finds no place (R232,
R258). -/
def Obligations.AddressFaults : Prop :=
   (∀ (s : State) (u : Issue) (i : Instr) (h : Hdr) (lay : BitVec 3) (d a len tag out ex r bo : Spec) (cont : Bool) (pt : BitVec 6)
      (as : List (DWord × Nat)) (x : DWord) (hd : DWord),
      let at' := fun (sp : Spec) => BitVec.ofNat 64 (readUni (ctxOf s u i) .n64 sp)
      let n := readUni (ctxOf s u i) .n32 len
      (i = .xcopy h lay d a len tag ∨ i = .xcopyChk h lay d a len tag ex cont pt) ∧ as = [(at' d, n), (at' a, n)] ∨
        i = .xcopyCrc h lay d a len tag out cont pt ∧ as = [(at' d, n), (at' a, n)] ++ (if at' out = 0 then [] else [(at' out, 4)]) ∨
        (i = .xform h d a r bo ∨ i = .xformDec h d a r bo) ∧ as = [(at' d, 1), (at' a, 1), (at' r, 64)] ∨
        i = .job h a bo ∧ (at' a).toNat % 64 = 0 ∧ as = [(at' a, 64)] →
      ActsOnce s u i → (launchOf s u.gkey).handler = some hd → (ctxOf s u i).active &&& (getGroup s u.gkey).hmask = 0 →
      engineCheck s u.gkey as = some x →
      ∃ t, exec i s = .next t ∧ t.cmds = s.cmds ∧ t.mats = s.mats ∧ (teamOf t u.gkey).done = (teamOf s u.gkey).done ∧ (teamOf t u.gkey).err = (teamOf s u.gkey).err ∧
        (getGroup t u.gkey).cause = (getGroup s u.gkey).cause ||| BitVec.ofNat 32 (2 ^ 5) ∧
        ∀ l, OnLane s u i l → tabGet 0 (getGroup t u.gkey).fadr l = x ∧ tabGet 0 (getGroup t u.gkey).epc l = u.pc) ∧
   (∀ (s : State) (k : Nat) (as : List (DWord × Nat)), engineCheck s k as = as.findSome? fun a => engineBad s k a.1 a.2) ∧
   (∀ (s : State) (k n : Nat) (va : DWord), n ≤ 2 ^ 32 →
      let g := getGroup s k
      let l := launchOf s k
      let bad := fun (y : DWord) => isGlobal y = false ∧ (isWindow y = false ∨ spaceOf y = 0xF0 ∨ winByte s g.team g.gidx 0 y = none)
      spaceOf va ≠ 0xF2 ∨ (∀ i, i < l.nw * l.nh → (nbTeam s g.team i).isSome) →
      (engineBad s k va n = none → ∀ j, j ≤ n - 1 → ¬ bad (va + BitVec.ofNat 64 j)) ∧
      ∀ x, engineBad s k va n = some x → ∃ j, j ≤ n - 1 ∧ x = va + BitVec.ofNat 64 j ∧ bad x ∧
        ∀ i, i < j → ¬ bad (va + BitVec.ofNat 64 i)) ∧
   (∀ (s : State) (k l : Nat) (kind : AccKind) (n : Nat) (va : DWord),
      (va.toNat % n ≠ 0 → resolve s k l kind n va = (s, .bad 5 va 0)) ∧
      (va.toNat % n = 0 → isWindow va = false → isGlobal va = false → resolve s k l kind n va = (s, .bad 5 va 0)) ∧
      (∀ a, va.toNat % n = 0 → isWindow va = true → winBytes s (getGroup s k).team (getGroup s k).gidx l va n = .error a →
        resolve s k l kind n va = (s, .bad 5 a 0)))

/-! ## Memory words -/

/-- LD, ST and LDSC queue their accesses once every lane's address is formed and finds its place (R256 to R261). LDK reads the
words of its global addresses as it issues, past every L1, and queues them as results (R262). PFX changes no memory and queues
an item that returns nothing (R263). -/
def Obligations.LoadStoreWords : Prop :=
   (∀ (s : State) (u : Issue) (h : Hdr) (ty : Ty) (scope : Scope) (count : Count) (d a b : Spec) (imm : BitVec 24),
      (∀ i qs, i = .ld h ty scope count d a b imm → ActsOnce s u i → laneReqs (ctxOf s u i) (ldReq (ctxOf s u i) ty count d a b imm) = (qs, []) →
        QueuesAccesses s u i .read (countOf count * tyBytes ty)
          (fun acc => .load ty (regsOf ty count) false (dstTab qs) scope acc) (vecLive (regsOf ty count)) (detPlain scope) qs) ∧
      (∀ i qs, i = .st h ty scope count d a b imm → ActsOnce s u i → laneReqs (ctxOf s u i) (stReq (ctxOf s u i) ty count d a b imm) = (qs, []) →
        QueuesAccesses s u i .write (countOf count * tyBytes ty)
          (fun acc => .store (countOf count * tyBytes ty) scope acc (wideStores (ctxOf s u i) ty count d qs)) (fun _ => [])
          (detPlain scope) qs) ∧
      (∀ i (n : BitVec 8), i = .ldsc h ty scope count (.s n) a b imm → ActsOnce s u i →
        QueuesAccesses s u i .read (countOf count * tyBytes ty)
          (fun acc => .load ty (regsOf ty count) true [((lanesOf (ctxOf s u i).active).headD 0, n.toNat)] scope acc)
          (fun qs => qs.flatMap fun q => (List.range (regsOf ty count)).map fun k => Tgt.s (q.dst + k)) (detPlain scope)
          [ldscReq (ctxOf s u i) n.toNat a b imm])) ∧
   (∀ (s : State) (u : Issue) (h : Hdr) (a b : Spec) (imm : BitVec 24),
      (∀ i ty count d qs (s' : State) (ps : List (Req × List Loc)), i = .ldk h ty count d a b imm → ActsOnce s u i →
        laneReqs (ctxOf s u i) (ldReq (ctxOf s u i) ty count d a b imm) = (qs, []) →
        (∀ q, q ∈ qs → isGlobal q.va = true) → ps ≠ [] →
        resolveReqs (ctxOf s u i) s .read (countOf count * tyBytes ty) (.ldk ty (regsOf ty count) (dstTab qs) []) (fun _ => false) qs =
          (s', ps.map fun p => (p.1, .ok p.2)) →
        let z := ps.foldl (fun z p => ldkFill z (coreOf s u.gkey) p.2) s'
        let ws := ps.flatMap fun p =>
          (regWrites false p.1.lane p.1.dst (loadWords ty (ldkBytes z (coreOf s u.gkey) p.2))).take (regsOf ty count)
        exec i s = .next (passedIn z s u i (pushOut (getGroup z u.gkey) u.pc (ctxOf s u i).next (ctxOf s u i).active
          (.loaded ws) (ws.map (·.1))))) ∧
      (∀ i scope, i = .pfx h scope a b imm → ActsOnce s u i →
        ∃ t, exec i s = .next t ∧ getGroup t u.gkey = passOn i (ctxOf s u i) (queued s u i .prefetch []) (ctxOf s u i).active ∧
          t.mem = s.mem ∧ t.plaza = s.plaza ∧ t.teams = s.teams))

/-- ATOM, ATOM.CAS, ATOMA and RED queue their accesses (R265 to R271). ATOMA makes one access, at the address of its lowest active
lane, that carries every active lane's operand. -/
def Obligations.Atomics : Prop :=
  ∀ (s : State) (u : Issue) (h : Hdr) (op : AtomOp) (ty : Ty) (scope : Scope) (d a b e : Spec) (imm : BitVec 24),
    (∀ i qs, i = .atom h op ty scope d a b imm → ActsOnce s u i → laneReqs (ctxOf s u i) (atomReq (ctxOf s u i) ty d a b imm) = (qs, []) →
      QueuesAccesses s u i .atomic (tyBytes ty) (fun acc => .atom op false ty (dstTab qs) scope acc)
        (vecLive (if tyWide ty then 2 else 1)) (detAtomic scope) qs) ∧
    (∀ i qs, i = .atomCas h ty scope d a b e imm → ActsOnce s u i → laneReqs (ctxOf s u i) (casReq (ctxOf s u i) ty d a b e imm) = (qs, []) →
      QueuesAccesses s u i .atomic (tyBytes ty) (fun acc => .atom .xch true ty (dstTab qs) scope acc)
        (vecLive (if tyWide ty then 2 else 1)) (detAtomic scope) qs) ∧
    (∀ i q qs, i = .atoma h op ty scope d a b imm → ActsOnce s u i →
      laneReqs (ctxOf s u i) (atomReq (ctxOf s u i) ty d a b imm) = (q :: qs, []) →
      QueuesAccesses s u i .atomic (tyBytes ty)
        (fun acc => .atoma op ty (dstTab (q :: qs)) scope acc ((q :: qs).map fun x => (x.lane, x.data)))
        (fun _ => vecLive (if tyWide ty then 2 else 1) (q :: qs)) (detAtomic scope)
        [{ q with lanes := (ctxOf s u i).active }]) ∧
    (∀ i qs, i = .red h op ty scope a b imm → ActsOnce s u i → laneReqs (ctxOf s u i) (redReq (ctxOf s u i) ty a b imm) = (qs, []) →
      QueuesAccesses s u i .atomic (tyBytes ty) (fun acc => .red op ty scope acc) (fun _ => []) (detAtomic scope) qs)

/-! ## Tiles and matrix words -/

/-- TMAP writes the whole of a tile register, TMSET one field group of it (R337, R338). -/
def Obligations.TileMaps : Prop :=
  ∀ (s : State) (u : Issue) (h : Hdr) (td : BitVec 4),
    (∀ i fmt swz smode src base shape stride sptr bv sv, i = .tmap h fmt swz smode src td base shape stride sptr → ActsOnce s u i →
      uniVal s u i .n64 base = some bv → uniVal s u i .n32 shape = some sv →
      (∀ rv pv, hdrX h = true → uniVal s u i .n32 stride = some rv → uniVal s u i .i64 sptr = some pv →
        exec i s = .next (passed s u i (putMap (getGroup s u.gkey) td.toNat
          ⟨BitVec.ofNat 64 pv, BitVec.ofNat 32 rv, smode, BitVec.ofNat 13 (sv / 2 ^ 16), BitVec.ofNat 13 sv, swz, tyCode fmt, src,
            BitVec.ofNat 64 bv⟩))) ∧
      (hdrX h = false →
        exec i s = .next (passed s u i (putMap (getGroup s u.gkey) td.toNat
          ⟨0, BitVec.ofNat 32 (denseStride fmt (sv / 2 ^ 16 % 2 ^ 13)), smode, BitVec.ofNat 13 (sv / 2 ^ 16), BitVec.ofNat 13 sv, swz,
            tyCode fmt, src, BitVec.ofNat 64 bv⟩)))) ∧
    (∀ i fld a x, i = .tmset h fld td a → ActsOnce s u i → uniVal s u i (if fld = .base ∨ fld = .sptr then .i64 else .n32) a = some x →
      ∃ m, exec i s = .next (passed s u i (putMap (getGroup s u.gkey) td.toNat m)) ∧
        let t := tGet (getGroup s u.gkey) td.toNat
        (fld = .base → m = { t with base := BitVec.ofNat 64 x }) ∧
        (fld = .stride → m = { t with stride := BitVec.ofNat 32 x }) ∧
        (fld = .sptr → m = { t with sptr := BitVec.ofNat 64 x }) ∧
        (fld = .shape → m = { t with rows := BitVec.ofNat 13 x, cols := BitVec.ofNat 13 (x / 2 ^ 16) }) ∧
        (fld = .fmt → m = { t with fmt := BitVec.ofNat 5 x, swz := BitVec.ofNat 3 (x / 2 ^ 8), smode := BitVec.ofNat 2 (x / 2 ^ 12),
                                   src := BitVec.ofNat 2 (x / 2 ^ 16) }) ∧
        (fld = .addb → m = { t with base := t.base + (BitVec.ofNat 32 x).signExtend 64 }) ∧
        (fld = .adds → m = { t with sptr := t.sptr + (BitVec.ofNat 32 x).signExtend 64 }))

/-- ACCZ writes zero to all 256 elements of its accumulator, and to no other; all-zero bits are +0.0 as FP64 and 0 as INT64
(R340). -/
def Obligations.AccumulatorZero : Prop :=
  (∀ (s : State) (u : Issue) (h : Hdr) (ad : BitVec 6), ActsOnce s u (.accz h ad) → ad.toNat < (launchOf s u.gkey).accs →
    ∃ g', exec (.accz h ad) s = .next (passed s u (.accz h ad)
        (pushOut g' u.pc (ctxOf s u (.accz h ad)).next (ctxOf s u (.accz h ad)).active (.result [] []) [])) ∧
      g' = { getGroup s u.gkey with acc := g'.acc } ∧
      (∀ e, e < 256 → aGet g' ad.toNat e = 0) ∧
      ∀ a e, e < 256 → a ≠ ad.toNat → aGet g' a e = aGet (getGroup s u.gkey) a e) ∧
  (∃ n, 0 < n ∧ tyVal .f64 (0 : DWord).toNat = .fin false 0 n) ∧ tyVal .i64 (0 : DWord).toNat = .fin false 0 1

/-- ACCWR writes one accumulator element for each active lane, element 32 e + lane (R343). ACCLD whose map is in order and whose
bytes all translate fills its accumulator from them; ACCST writes the codes of its accumulator to the map (R339, R341, R342). -/
def Obligations.AccumulatorWords : Prop :=
   (∀ (s : State) (u : Issue) (h : Hdr) (ty : Ty) (ad : BitVec 6) (a e : Spec), ActsOnce s u (.accwr h ty ad a e) →
      let i : Instr := .accwr h ty ad a e
      ad.toNat < (launchOf s u.gkey).accs →
      (∀ l, OnLane s u i l → (opVal (ctxOf s u i) l ty a).isSome ∧ ∃ x, opVal (ctxOf s u i) l .n32 e = some x ∧ x < 8) →
      ∃ g' fs, exec i s = .next (passed s u i (pushOut g' u.pc (ctxOf s u i).next (ctxOf s u i).active (.result [] fs) [])) ∧
        g' = { getGroup s u.gkey with acc := g'.acc } ∧
        (∀ l x y, OnLane s u i l → opVal (ctxOf s u i) l .n32 e = some x → opVal (ctxOf s u i) l ty a = some y →
          aGet g' ad.toNat (32 * x + l) = BitVec.ofNat 64 (accwrRes ty y).1) ∧
        ∀ b n, n < 256 → b ≠ ad.toNat → aGet g' b n = aGet (getGroup s u.gkey) b n) ∧
   (∀ (s : State) (u : Issue) (h : Hdr) (ad : BitVec 6) (tm : BitVec 4) (org : Spec) (x : Nat) (ty : Ty),
      let t := tGet (getGroup s u.gkey) tm.toNat
      ad.toNat < (launchOf s u.gkey).accs → mapOk t true = true → tileFmt t = some ty →
      (∀ i r, i = .accld h ad tm org → ActsOnce s u i → uniVal s u i .n32 org = some x →
        r = fetchSome (flushGroup s u.gkey) u.gkey ((lanesOf (ctxOf s u i).active).headD 0) (coreOf s u.gkey) (tagCheck t)
          (tileWindow t ty (BitVec.ofNat 32 x)) → r.2.2 = [] →
        exec i s = .next (passedIn r.1 s u i (pushOut (putTile (getGroup r.1 u.gkey) ad.toNat (tileVals t ty (BitVec.ofNat 32 x) r.2.1))
          u.pc (ctxOf s u i).next (ctxOf s u i).active (.loaded []) []))) ∧
      (∀ i rnd sat b w, i = .accst h rnd sat tm ad org → ActsOnce s u i → uniVal s u i .n32 org = some x →
        b = accstBytes (ctxOf s u i) t ty rnd sat ad.toNat (BitVec.ofNat 32 x) →
        w = writeStops (flushGroup s u.gkey) u.gkey ((lanesOf (ctxOf s u i).active).headD 0) b → w.2 = [] →
        let z := accstWrite w.1 u.gkey ((lanesOf (ctxOf s u i).active).headD 0) b t.swz
        exec i s = .next (passedIn z s u i (pushOut (getGroup z u.gkey) u.pc (ctxOf s u i).next (ctxOf s u i).active (.result [] []) []))))

/-- A quad MMA with a valid pair of maps starts one operation; where its operands lie in windows, no walk can fault and the
operation enters the array as it is (R345 to R347). A fused MMA signs its convergence register, to be judged at the end of the
cycle, and is held at the word until the joint issue (R330, R349). The last step of an MMA writes the
accumulators of its signer and lets its item go, all in one step, while its lines are all pinned (R321, R323, R346). -/
def Obligations.MatrixWords : Prop :=
   (∀ (s : State) (id : Nat) (m : MatOp) (sg : Signer) (z : State) (xs : List DWord) (ch : List Chunk) (tg : List (Nat × BitVec 3)),
      findMat s id = some m → m.signers = [sg] → mayStep s m = true → m.job = none → m.klen ≤ m.k + unitOf m.ta m.tb →
      let k0 := m.koff.toNat + m.k
      let k1 := min (k0 + unitOf m.ta m.tb) (m.koff.toNat + m.klen)
      mixed (flushGroup s sg.gkey) sg.gkey (newChunks m k0 k1) = false →
      unitResult (flushGroup s sg.gkey) m sg k0 k1 = (z, { m with chunks := ch, tags := tg }, .ok xs) →
      (pinned (putMat z { m with chunks := ch, tags := tg }) m.core).length ≤ 1024 →
      ∃ t, exec (.mmaStep id) s = .next t ∧ findMat t id = none ∧
        (∀ e, e < 256 → aGet (getGroup t sg.gkey) sg.acc e = xs.getD e 0) ∧
        (∀ n e, e < 256 → n ≠ sg.acc → aGet (getGroup t sg.gkey) n e = aGet (getGroup z sg.gkey) n e) ∧
        ∀ o, o ∈ (getGroup t sg.gkey).outs → o.seq ≠ sg.seq) ∧
   (∀ (s : State) (u : Issue) (h : Hdr) (flt : Bool) (ad : BitVec 6) (ta tb : BitVec 4) (kc : BitVec 3) (org : Spec) (klen : BitVec 13)
    (x : Nat),
    let g := getGroup s u.gkey
    let a := tGet g ta.toNat
    let b := tGet g tb.toNat
    let o : DWord := BitVec.ofNat 64 x
    (∀ i z, i = .mmaQuad h flt ad ta tb org klen → ActsOnce s u i → uniVal s u i .i64 org = some x →
      ad.toNat < (launchOf s u.gkey).accs → mmaValid a b flt ((o.extractLsb' 32 13).toNat : Int) klen.toNat = true →
      z = flushGroup s u.gkey →
      ∃ m t, exec i s = .next (startMma t m) ∧
        m = ⟨z.uid, g.team, coreOf s u.gkey, u.pc, 0, flt, a, b,
          ((o.extractLsb' 0 13).toNat : Int), ((o.extractLsb' 16 13).toNat : Int), ((o.extractLsb' 32 13).toNat : Int), klen.toNat, 0,
          [⟨u.gkey, (ctxOf s u i).active, 0, ad.toNat, g.nextSeq, 0, u.pc⟩], none, 0, [], false, 0, false, [], []⟩ ∧
        t = passedIn { z with uid := z.uid + 1 } s u i
          (pushOut (getGroup z u.gkey) u.pc (ctxOf s u i).next (ctxOf s u i).active (.mma z.uid) []) ∧
        (isGlobal a.base = false → isGlobal b.base = false → startMma t m = { t with mats := t.mats ++ [m] })) ∧
    (∀ i n, (i = .mmaWide h flt ad ta tb kc org klen ∧ n = 1) ∨ (i = .mmaSquare h flt ad ta tb kc org klen ∧ n = 2) ∨
        (i = .mmaTall h flt ad ta tb kc org klen ∧ n = 3) →
      ActsOnce s u i → uniVal s u i .i64 org = some x →
      exec i s = .next (holdsAt s { s with uid := s.uid + 1, signs := s.signs ++ [⟨s.uid, u.gkey, coreOf s u.gkey, kc.toNat,
          (ctxOf s u i).active, sliceOf g, ad.toNat, n, flt, a, b, o, klen.toNat, (ctxOf s u i).next, u.pc, none, g.nextSeq, false⟩] } u i
        (.fuse s.uid))))

/-- CDECL writes DECL, SLICES and GRP of a register that no group has signed (R329, R348). JOB with a readable card begins a quad
walk, unless its engine context is frozen, and signs with a fused one (R334, R350). That a JOB whose card cannot be read yet hands its
command over and holds its group at the word is read from the rules (log entry 44). A job's next operation begins with its coordinates in
range, zeroing an accumulator that it is told to and has not yet written; the end of its walk arrives at its signer's barrier object,
before the operations of groups on it (R353, R355, R375). -/
def Obligations.DeclarationsAndJobs : Prop :=
   (∀ (s : State) (id : Nat) (m : MatOp) (sg : Signer) (card : List Byte), findMat s id = some m → m.signers = [sg] → m.job = some card →
      m.started = false →
      (m.idx < jobTotal card → behind s m = false → (getTeam s m.team).place = .resident →
        let p := jobAt card m.idx
        let d := p.2.2.2 - (cardBits card 13 8 : Int)
        0 ≤ p.1 → p.1 ≤ 4095 → 0 ≤ p.2.1 → p.2.1 ≤ 4095 → 0 ≤ p.2.2.1 → p.2.2.1 ≤ 4095 →
        0 ≤ (sg.acc : Int) + d → (sg.acc : Int) + d < ((launchOf s sg.gkey).accs : Int) →
        mmaValid m.ta m.tb m.flt p.2.2.1 m.klen = true →
        ∃ t n, exec (.jobOperation id) s = .next t ∧ findMat t id = some n ∧ n.arow = p.1 ∧ n.brow = p.2.1 ∧ n.koff = p.2.2.1 ∧
          n.k = 0 ∧ n.started = true ∧
          (cardBits card 96 96 = 1 → d ∉ m.zeroed → ∀ e, e < 256 → aGet (getGroup t sg.gkey) ((sg.acc : Int) + d).toNat e = 0) ∧
          (cardBits card 96 96 = 0 ∨ d ∈ m.zeroed → t.groups = s.groups)) ∧
      ∀ p, jobTotal card ≤ m.idx → objPlace s sg.gkey sg.bo = some p → (tabFind s.teams p.1).isSome → engineTurn s p = true →
        ∃ t, exec (.jobWalkEnd id) s = .next t ∧ findMat t id = none ∧ objRead t p = objArrive (objRead s p) 1 ∧ t.mem = s.mem) ∧
   (∀ (s : State) (u : Issue) (h : Hdr),
    (∀ i kd grp slices gv sv, i = .cdecl h kd grp slices → ActsOnce s u i →
      uniVal s u i .n32 grp = some gv → uniVal s u i .n32 slices = some sv → sv % 16 = 0 ∨ sv % 16 = 15 →
      (getConv s (getGroup s u.gkey).team (coreOf s u.gkey) kd.toNat).signed = 0 →
      exec i s = .next (passedIn (setConv s (getGroup s u.gkey).team (coreOf s u.gkey) kd.toNat
          { getConv s (getGroup s u.gkey).team (coreOf s u.gkey) kd.toNat with
            slices := BitVec.ofNat 4 sv, decl := decide (sv % 16 = 15), grp := BitVec.ofNat 32 gv &&& 0x7F7F7F7F#32 }) s u i
        (queued s u i (.result [] []) []))) ∧
    (∀ i card bo cv bv bs z, i = .job h card bo → ActsOnce s u i →
      uniVal s u i .n64 card = some cv → uniVal s u i .n64 bo = some bv → cv < 2 ^ 64 → cv % 64 = 0 →
      engineBad s u.gkey (BitVec.ofNat 64 cv) 64 = none → (objPlace s u.gkey (BitVec.ofNat 64 bv)).isSome →
      (∀ e, fetchBytes (flushGroup s u.gkey) u.gkey ((lanesOf (ctxOf s u i).active).headD 0) (coreOf s u.gkey) none
        (rangeAddrs (BitVec.ofNat 64 cv) 64) = (z, .error e) → (teamOf z u.gkey).frozen = false →
        ∃ x : Cmd, exec i s = .next (holdsAt s { z with uid := z.uid + 1, cmds := z.cmds ++ [x] } u i (.card z.uid)) ∧
          x.id = z.uid ∧ x.gkey = u.gkey ∧ x.accepted = false ∧ x.kind = .job (BitVec.ofNat 64 cv) (BitVec.ofNat 64 bv) none ∧
          x.tiles = (List.range 16).map (tGet (getGroup s u.gkey))) ∧
      (fetchBytes (flushGroup s u.gkey) u.gkey ((lanesOf (ctxOf s u i).active).headD 0) (coreOf s u.gkey) none
        (rangeAddrs (BitVec.ofNat 64 cv) 64) = (z, .ok bs) →
      (cardBits bs 15 14 = 0 → (teamOf z u.gkey).frozen = false →
        exec i s = .next (acceptJob (passedIn { z with uid := z.uid + 1 } s u i (getGroup z u.gkey))
          (jobOp z.uid (getGroup s u.gkey).team (coreOf s u.gkey) u.pc bs (tGet (getGroup s u.gkey) (cardBits bs 3 0))
            (tGet (getGroup s u.gkey) (cardBits bs 7 4))
            [⟨u.gkey, (ctxOf s u i).active, 0, cardBits bs 13 8, (getGroup s u.gkey).nextSeq, BitVec.ofNat 64 bv, u.pc⟩]) bs) ∧
        (cardOk bs = true → ∃ t m, exec i s = .next t ∧ t.mats = z.mats ++ [m] ∧ m.id = z.uid ∧ m.job = some bs ∧ t.cmds = z.cmds)) ∧
      (cardBits bs 15 14 ≠ 0 →
        ∃ x : Sign, exec i s = .next (holdsAt s { z with uid := z.uid + 1, signs := z.signs ++ [x] } u i (.fuse z.uid)) ∧
          x.id = z.uid ∧ x.gkey = u.gkey ∧ x.shape = cardBits bs 15 14 ∧ x.k = cardBits bs 18 16 ∧ x.acc = cardBits bs 13 8 ∧
          x.job = some (bs, BitVec.ofNat 64 bv)))))

/-! ## Launches by threads -/

/-- LAUNCH whose records are aligned and global hands them to the front end as far as it has room, and queues an item until all
are taken; GRAPHRUN adds pending runs to a graph of its function (R382, R384). A child that the front end takes enters with
its parent's function, PASID (R244), priority and determinism (R28) and one more level of depth (R27), and counts in its thread and in
its parent's grid (R29, R383). -/
def Obligations.LaunchWords : Prop :=
   (∀ (s : State) (u : Issue) (h : Hdr),
      (∀ i a recs q, i = .launch h a → ActsOnce s u i → (launchOf s u.gkey).depth < 10 →
        (∀ l, OnLane s u i l → ∃ x, opVal (ctxOf s u i) l .n64 a = some x ∧ x < 2 ^ 64 ∧ x % 128 = 0 ∧ isGlobal (BitVec.ofNat 64 x) = true) →
        recs = ((if (match a with | .s _ => true | _ => false) then (lanesOf (ctxOf s u i).active).take 1 else lanesOf (ctxOf s u i).active).map
          fun l => (l, BitVec.ofNat 64 ((opVal (ctxOf s u i) l .n64 a).getD 0))) →
        q = handRecs s u.gkey recs →
        exec i s = .next (passedIn q.1 s u i
          (pushOut (getGroup q.1 u.gkey) u.pc (ctxOf s u i).next (ctxOf s u i).active (.launch q.2 s.now) []))) ∧
      (∀ i g n x y, i = .graphrun h g n → ActsOnce s u i → uniVal s u i .n32 g = some x → uniVal s u i .n32 n = some y → x ≤ 1023 →
        (getGraph s x).gown = (launchOf s u.gkey).func →
        exec i s = .next (passedIn (setGraph s x (addRuns (getGraph s x) (y % 256))) s u i (queued s u i (.result [] []) [])))) ∧
   (∀ (s : State) (k l : Nat) (a : DWord),
      let lk := (getTeam s (getGroup s k).team).launch
      let p := getLaunch s lk
      let r := handChild s k l a
      lk ≠ s.uid →
      r.2 = s.uid ∧ r.1.uid = s.uid + 1 ∧
      (getLaunch r.1 s.uid).origin = .thread lk (getGroup s k).team (32 * (getGroup s k).gidx + l) ∧
      (getLaunch r.1 s.uid).func = p.func ∧ (getLaunch r.1 s.uid).pasid = p.pasid ∧ (getLaunch r.1 s.uid).pri = p.pri ∧
      (getLaunch r.1 s.uid).depth = p.depth + 1 ∧ (getLaunch r.1 s.uid).det = p.det ∧ (getLaunch r.1 s.uid).recAddr = a ∧
      (getLaunch r.1 s.uid).stage = .handed ∧
      getLaunch r.1 lk = { p with childLive := p.childLive + 1 } ∧
      tabGet 0 (getTeam r.1 (getGroup s k).team).children (32 * (getGroup s k).gidx + l) =
        tabGet 0 (getTeam s (getGroup s k).team).children (32 * (getGroup s k).gidx + l) + 1)

/-! ## Events of a core -/

/-- A computed result that returns, from the special function queue or not, is written to the registers where its write still
stands, and its item leaves the group; no other register changes and no lane moves (R113, R116, R229). A store, a load and an
atomic of one thread in a scratchpad, once they may be performed: the store changes its bytes and no others, the load writes
its register with the bytes, extended as its type says, and the atomic does both in one step (R233, R259, R264, R265). -/
def Obligations.ItemCompletions : Prop :=
   (∀ (s : State) (k seq : Nat) (i : Instr) (o : Out) (ws : List (Tgt × Word)), findOut s k seq = some o →
      (i = .longResultWrite k seq ∧ o.work = .result ws []) ∨
        (i = .sfqEntryComplete k seq ∧ ∃ fn ty n, o.work = .sfq fn ty n ws []) →
      (∀ l n w, (Tgt.v l n, w) ∈ ws → n < 256) → (∀ l n w, (Tgt.p l n, w) ∈ ws → n < 16) →
      let g := getGroup s k
      ∃ g', exec i s = .next (setGroup s k g') ∧
        g' = { g with vreg := g'.vreg, sreg := g'.sreg, pred := g'.pred, outs := g'.outs, mark := g'.mark, swr := g'.swr } ∧
        (g'.outs.map fun p => { p with live := [] }) = ((g.outs.filter fun p => p.seq != o.seq).map fun p => { p with live := [] }) ∧
        (∀ l n w, (Tgt.v l n, w) ∈ ws → Tgt.v l n ∈ o.live → (∀ w', (Tgt.v l n, w') ∈ ws → w' = w) → vGet g' l n = w) ∧
        (∀ l n, n < 256 → Tgt.v l n ∉ o.live ∨ (∀ w, (Tgt.v l n, w) ∉ ws) → vGet g' l n = vGet g l n) ∧
        (∀ l n w, (Tgt.p l n, w) ∈ ws → n ≠ 0 → Tgt.p l n ∈ o.live → (∀ w', (Tgt.p l n, w') ∈ ws → w' = w) → pGet g' l n = (w != 0)) ∧
        (∀ l n, n < 16 → Tgt.p l n ∉ o.live ∨ (∀ w, (Tgt.p l n, w) ∉ ws) → pGet g' l n = pGet g l n)) ∧
   (∀ (s : State) (k seq : Nat) (o : Out) (l tk off r n : Nat) (sc : Scope) (va data cmp : DWord), findOut s k seq = some o →
      (tabFind s.teams tk).isSome → mayPerform (getGroup s k) o = true → s.objOps = [] → r < 256 →
      let acc : LaneAcc := ⟨l, va, some ((List.range n).map fun j => .scr tk (off + j)), data, cmp⟩
      let old := leNat ((List.range n).map fun j => scrByte s tk (off + j))
      (o.work = .store n sc [acc] [] →
        ∃ t, exec (.accessPerformed k seq) s = .next t ∧ getGroup t k = retire (getGroup s k) o.seq ∧
          (∀ j, j < n → scrByte t tk (off + j) = BitVec.ofNat 8 (data.toNat / 256 ^ j)) ∧
          (∀ t' a, ¬ (t' = tk ∧ off ≤ a ∧ a < off + n) → scrByte t t' a = scrByte s t' a) ∧
          t.mem = s.mem ∧ t.plaza = s.plaza ∧ t.l2 = s.l2) ∧
      (∀ ty, o.work = .load ty 1 false [(l, r)] sc [acc] → n = tyBytes ty → Tgt.v l r ∈ o.live → (k, o.seq, l) ∉ s.struck →
        ∃ g', exec (.longResultWrite k seq) s = .next (setGroup s k g') ∧
          (∀ l' r', r' < 256 → ¬ (l' = l ∧ r' = r) → vGet g' l' r' = vGet (getGroup s k) l' r') ∧
          (n = 1 → vGet g' l r = if ty = .i8 then (BitVec.ofNat 8 old).signExtend 32 else BitVec.ofNat 32 old) ∧
          (n = 2 → vGet g' l r = if ty = .i16 then (BitVec.ofNat 16 old).signExtend 32 else BitVec.ofNat 32 old) ∧
          (n = 4 → vGet g' l r = BitVec.ofNat 32 old)) ∧
      (∀ op, o.work = .atom op false .n32 [(l, r)] sc [acc] → n = 4 → Tgt.v l r ∈ o.live → (k, o.seq, l) ∉ s.struck →
        ∃ t, exec (.longResultWrite k seq) s = .next t ∧ vGet (getGroup t k) l r = BitVec.ofNat 32 old ∧
          (∀ j, j < 4 → scrByte t tk (off + j) = BitVec.ofNat 8 (atomNew op .n32 old data.toNat / 256 ^ j)) ∧
          (∀ t' a, ¬ (t' = tk ∧ off ≤ a ∧ a < off + 4) → scrByte t t' a = scrByte s t' a) ∧
          t.mem = s.mem ∧ t.plaza = s.plaza ∧ t.l2 = s.l2))

/-- The swap of a slice lets its longest-waiting ready pending group in for an active group that yields, or where none does for an
active group that is not ready; the promotion lets the longest-waiting ready group in that has waited 4,096 cycles, for the
active group that issued last, or into a free place. A group that comes in issues from the second cycle after (R139, R140).
That of several groups which may leave one that yields goes first is the model's choice (log entry 99).
Nothing else of any group changes. Teams that leave go to the shadow banks of their cores, with no group in a slot, and the
swap takes 96 cycles (R407). Then the core returns what its team held (R60), and the spill of the shadow bank begins a release of
the team's cores (R364) and, once that is over, gives the team its place in its function's spill area, or ends the grid when there is
no room. While no launch starves, the roundabout starts the team that is first in rank on the span chosen for it: its groups take
slots with their threads at the launch's entry, behind an acquire of each of its cores (R61, R63, R137, R146, R364). A team that has
ended releases its cores' writes at system scope and then leaves them, and a core whose region is dark takes no placement any more
(R30, R60, R68, R364). -/
def Obligations.Swaps : Prop :=
   (∀ (s : State) (core slice : Nat),
      let sl := 4 * core + slice
      let mine := sliceGroups s sl
      let comes := fun (t : State) (inn : Nat) =>
        getGroup t inn = { getGroup s inn with sstate := .active, nextOk := max (getGroup s inn).nextOk (s.now + 2) }
      let goes := fun (t : State) (out : Nat) => getGroup t out = { getGroup s out with sstate := .pending, yields := false }
      (∀ inn out, entering s sl = some inn → leaving s sl = some out →
        (isPendingG s inn = true ∧ ready s inn = true ∧
          ∀ g, g ∈ mine → isPendingG s g = true → ready s g = true → (getGroup s inn).lastIssue ≤ (getGroup s g).lastIssue) ∧
        (isActiveG s out = true ∧ ((getGroup s out).yields = true ∨
          (readyWord s out = false ∧ ∀ g, g ∈ mine → isActiveG s g = true → (getGroup s g).yields = false))) ∧
        ∃ t, exec (.groupSwap core slice) s = .next t ∧ comes t inn ∧ goes t out ∧ ∀ k, k ≠ inn → k ≠ out → getGroup t k = getGroup s k) ∧
      (∀ inn, longest s (mine.filter fun g => isPendingG s g && ready s g && decide (4096 ≤ s.now - (getGroup s g).lastIssue)) = some inn →
        ((∀ g, g ∈ mine → isActiveG s g = false) →
          ∃ t, exec (.pendingPromote core slice) s = .next t ∧ getGroup t inn = { getGroup s inn with sstate := .active } ∧
            ∀ k, k ≠ inn → getGroup t k = getGroup s k) ∧
        (∀ a, a ∈ mine → isActiveG s a = true →
          ∃ t out, exec (.pendingPromote core slice) s = .next t ∧ out ∈ mine ∧ isActiveG s out = true ∧
            (∀ g, g ∈ mine → isActiveG s g = true → (getGroup s g).lastIssue ≤ (getGroup s out).lastIssue) ∧
            comes t inn ∧ goes t out ∧ ∀ k, k ≠ inn → k ≠ out → getGroup t k = getGroup s k))) ∧
   (∀ (s : State) (core : Nat),
      (∀ cs ts, swapSet s 192 [core] = (cs, ts) → ts ≠ [] → (∀ c, c ∈ cs → (getCore s c).shadow = [] ∧ (getCore s c).swapAt = none) →
        ∃ t, exec (.coreSwap core) s = .next t ∧
          (∀ tk, tk ∈ ts → (getTeam t tk).place = .shadow ∧ (getTeam t tk).leaving = false ∧
            ∀ gi, gi < (getTeam s tk).groups → (getGroup t (96 * tk + gi)).slot = none) ∧
          (∀ c tk, c ∈ cs → tk ∈ ts → c ∈ (getTeam s tk).cores → (getCore t c).swapAt = some (s.now + 96) ∧ tk ∈ (getCore t c).shadow ∧
            (ts = [tk] → ∀ n, n = needOf (getLaunch s (getTeam s tk).launch) ((getTeam s tk).cores.idxOf c) →
              (getCore t c).swapBack = (n.slots, n.vregs, n.accs, n.scr)))) ∧
      (∀ c0 tk, (getCore s core).swapAt = some c0 → c0 ≤ s.now → (getCore s core).shadow = [tk] →
        let n := needOf (getLaunch s (getTeam s tk).launch) ((getTeam s tk).cores.idxOf core)
        let x := getCore s core
        x.swapBack = (n.slots, n.vregs, n.accs, n.scr) → x.dark = false →
        ∃ t, exec (.swapComplete core) s = .next t ∧ getCore t core = { x with
          swapAt := none, swapBack := (0, 0, 0, 0), fslot := x.fslot + n.slots, fvreg := x.fvreg + n.vregs, facc := x.facc + n.accs, fscr := x.fscr + n.scr }) ∧
      (∀ tk, (getCore s core).swapAt = none → (getCore s core).shadow = [tk] → spillWaits s tk = false →
        (∀ c, c ∈ (getTeam s tk).cores → (getCore s c).swapAt = none) →
        let l := getLaunch s (getTeam s tk).launch
        let bs := teamImage s tk
        let n := (bs.length + 4095) / 4096 * 4096
        ((getTeam s tk).frees = none → ∃ t ids, exec (.spillComplete core) s = .next t ∧ getTeam t tk = { getTeam s tk with frees := some ids } ∧
          t.groups = s.groups ∧ ∀ c, c ∈ (getTeam s tk).cores → ∃ r, r ∈ t.rels ∧ r.core = c ∧ r.id ∈ ids) ∧
        (∀ ids o, (getTeam s tk).frees = some ids → relsOver s ids = true → spillPlace s l.func n = some o →
          (∀ i, i < n / 4096 → (s2Place s l.func true (spillBase s l.func + o + 4096 * i)).isSome) →
          ∃ t, exec (.spillComplete core) s = .next t ∧ (getTeam t tk).place = .spilled ∧ (getTeam t tk).image = some (o, n) ∧
            (getCore t core).shadow = []) ∧
        (∀ ids, (getTeam s tk).frees = some ids → relsOver s ids = true → spillPlace s l.func n = none → tabFind s.launches (getTeam s tk).launch = some l → l.stage ≠ .retired → l.fate = 0 →
          ∃ t, exec (.spillComplete core) s = .next t ∧ (getLaunch t (getTeam s tk).launch).fate = 0x07))) ∧
   (∀ (s : State),
      (∀ lk task us cs, s.gang = none → starving s (unitList s) = [] → unitList s = .fresh lk task :: us → (getLaunch s lk).considered = true →
        unitCores s (.fresh lk task) = some cs → isNbhd (getLaunch s lk) = false →
        let l := getLaunch s lk
        ∃ t, exec .roundaboutPlace s = .next t ∧ (getTeam t s.uid).launch = lk ∧ (getTeam t s.uid).task = task ∧
          (getTeam t s.uid).cores = cs ∧ (getTeam t s.uid).place = .resident ∧
          (getLaunch t lk).unplaced = dropTask l.unplaced task ∧
          (∀ c, c ∈ cs → ∃ a, a ∈ t.acqs ∧ a.core = c ∧ a.team = some s.uid) ∧
          ∀ gi, gi < groupsOf (l.tx * l.ty * l.tz) →
            let g := getGroup t (96 * s.uid + gi)
            g.slot.isSome ∧ g.team = s.uid ∧ g.gidx = gi ∧ g.live = liveMask (l.tx * l.ty * l.tz) gi ∧ g.exited = 0 ∧ g.parked = 0 ∧
              g.det = l.det ∧ (∀ j, j ∈ lanesOf g.live → pcOf g j = l.entry) ∧ ∀ j n, vGet g j n = 0) ∧
      (∀ tk c, (tabFind s.teams tk).isSome → teamEnded s tk = true → teamBusy s tk = false → (getTeam s tk).place = .resident →
        (getTeam s tk).cores = [c] → (getCore s c).dark = false →
        let l := getLaunch s (getTeam s tk).launch
        ((getTeam s tk).frees = none → ∃ t id r, exec (.teamRelease tk) s = .next t ∧
          getTeam t tk = { getTeam s tk with frees := some [id] } ∧ r ∈ t.rels ∧ r.id = id ∧ r.core = c ∧ r.scope = .sys ∧ t.groups = s.groups) ∧
        ∀ ids, (getTeam s tk).frees = some ids → relsOver s ids = true →
        ∃ t, exec (.teamRelease tk) s = .next t ∧ tabFind t.teams tk = none ∧ (∀ k g, (k, g) ∈ t.groups → g.team ≠ tk) ∧
          (getLaunch t (getTeam s tk).launch).exited =
            (if (getTeam s tk).groups ≠ 0 ∧ teamExited s tk = true then l.exited + 1 else l.exited) ∧
          (getCore t c).fslot = (getCore s c).fslot + (needOf l 0).slots ∧ (getCore t c).fvreg = (getCore s c).fvreg + (needOf l 0).vregs) ∧
      (∀ c, c < 192 → regionDark s c = true → (getCore s c).dark = false →
        ∃ t, exec (.coreDark c) s = .next t ∧ (getCore t c).dark = true))

/-! ## The front end -/

/-- Writes of queue and crossing registers by the function that owns them: QTAIL, a reset and an enable through QCTL, ownership by
the physical function, and the binding of a crossing (R33, R34, R35, R41, R56). Registers of the physical function that change
while the device is idle: the plaza's size, which empties it, and a function's range in it (R237, R238; that a resize empties all of L2
too, where R238 writes back the lines of the capacity that is taken, is read from the rules, log entry 73); and the injection register
(R308). A register write of the register's own width writes it, with reserved bits as they read; a lower half waits for
its upper half; other widths, and registers while the device does not run, in its release order or in the safe state, are ignored (R299,
R429, R431, R436). PTAB (R244) stands for the registers of a function's block. -/
def Obligations.RegisterBlocks : Prop :=
   (∀ (s : State) (func q : Nat) (v : Word), running s = true → func ≤ s.pcie.numVfs → q < 1024 → (getQueue s q).owner = func →
      let x := getQueue s q
      ((v - x.qhead).toNat ≤ 2 ^ x.qsize → v ≠ x.qhead → exec (.qtailWrite func q v) s = .next (setQueue s q { x with qtail := v })) ∧
      (v = x.qhead → exec (.qtailWrite func q v) s =
        .next (setQueue s q { x with qtail := v, head := none, checked := false, waiting := false })) ∧
      (2 ^ x.qsize < (v - x.qhead).toNat →
        ∃ t, exec (.qtailWrite func q v) s = .next t ∧ getQueue t q = { x with frozen := true, reason := 0x06 }) ∧
      (v.getLsbD 4 = true → x.en = false →
        ∃ t, exec (.queueReset func q v) s = .next t ∧ (getQueue t q).qhead = 0 ∧ (getQueue t q).qtail = 0 ∧
          (getQueue t q).frozen = false ∧ (getQueue t q).reason = 0 ∧ (getQueue t q).en = v.getLsbD 0 ∧
          (getQueue t q).qring = x.qring ∧ (getQueue t q).qsize = x.qsize) ∧
      (v.getLsbD 4 = false ∨ x.en = true →
        ∃ t, exec (.queueEnable func q v) s = .next t ∧ (getQueue t q).en = v.getLsbD 0 ∧ (getQueue t q).qvec = v.extractLsb' 8 6 ∧
          (getQueue t q).pmax = (if func = 0 then v.extractLsb' 1 3 else x.pmax) ∧ (getQueue t q).qhead = x.qhead ∧
          (getQueue t q).qtail = x.qtail ∧ (getQueue t q).frozen = x.frozen) ∧
      (x.en = false → exec (.ownershipWrite 0 false q v) s = .next (setQueue s q { x with owner := (v.extractLsb' 0 6).toNat })) ∧
      (x.en = true → exec (.ownershipWrite 0 false q v) s = .next s) ∧
      (∀ k, k < 4096 → (getXing s k).owner = func → (getXing s k).en = false → v.getLsbD 31 = true →
        func = 0 ∨ ((getQueue s (v.extractLsb' 0 10).toNat).owner = func ∧ (getQueue s (v.extractLsb' 16 10).toNat).owner = func) →
        ∃ t, exec (.crossingBind func k v) s = .next t ∧ (getXing t k).en = true ∧ (getXing t k).tokens = 0 ∧
          (getXing t k).prod = v.extractLsb' 0 10 ∧ (getXing t k).cons = v.extractLsb' 16 10 ∧
          (getXing t k).ovf = ((getXing s k).ovf && !v.getLsbD 30))) ∧
   (∀ (s : State) (n : Nat) (v : Word) (w : DWord), running s = true →
      (deviceIdle s = true → (v.extractLsb' 0 4).toNat ≤ 8 → (v.extractLsb' 0 4).toNat ≠ s.supply.plzSize →
        ∃ t, exec (.plazaResize 0 v) s = .next t ∧ t.supply.plzSize = (v.extractLsb' 0 4).toNat ∧ t.plaza = [] ∧ t.l2 = []) ∧
      (deviceIdle s = true → n < 64 → (v.extractLsb' 0 12).toNat ≤ 255 → (v.extractLsb' 12 12).toNat ≤ 256 →
        ∃ t, exec (.plazaRangeWrite 0 n v) s = .next t ∧ plazaRange t n = ((v.extractLsb' 0 12).toNat * 2 ^ 20, (v.extractLsb' 12 12).toNat * 2 ^ 20)) ∧
      (deviceIdle s = false → exec (.plazaResize 0 v) s = .next s ∧ exec (.plazaRangeWrite 0 n v) s = .next s) ∧
      (∃ t, exec (.vlinjWrite 0 w) s = .next t ∧ t.peers.vlinj.getLsbD 63 = w.getLsbD 63 ∧
        t.peers.vlinj.extractLsb' 0 42 = w.extractLsb' 0 42 ∧
        (t.peers.vlinj.getLsbD 62 = true ↔ s.peers.vlinj.getLsbD 62 = true ∧ w.getLsbD 62 = false))) ∧
   (∀ (s : State) (f : Nat) (v w : DWord), f < 64 → f ≤ s.pcie.numVfs →
      (running s = true →
        exec (.registerWrite f 0x10008 8 v) s = .next (setFunc s f { getFunc s f with ptab := v &&& 0x00FFFFFFFFFFFFFF#64 }) ∧
        exec (.registerWrite f 0x10008 2 v) s = .next s ∧
        ∃ t z, exec (.registerWrite f 0x10008 4 v) s = .next t ∧ (getFunc t f).ptab = (getFunc s f).ptab ∧
          exec (.registerWrite f 0x1000C 4 w) t = .next z ∧
          (getFunc z f).ptab = ((w.extractLsb' 0 32).zeroExtend 64 <<< 32 ||| (v.extractLsb' 0 32).zeroExtend 64) &&& 0x00FFFFFFFFFFFFFF#64) ∧
      (running s = false → exec (.registerWrite f 0x10008 8 v) s = .next s))

/-- What each packet does when it is its queue's checked head and the front end's choice: the queue's head moves on, and NOP does
no more, SIGNAL adds tokens up to 2^32 - 1, WAIT takes them, GRAPH adds a run, GLOAD loads or rejects its image, MARK writes
its value and may signal, LAUNCH hands its record over and accepts it (R37, R39, R42, R48, R54). A WAIT without its tokens
waits. -/
def Obligations.PacketsStart : Prop :=
  ∀ (s : State) (q : Nat) (h : BitVec 512), headReady s q = some h →
    let x := getQueue s q
    let x' : Queue := { x with qhead := x.qhead + 1, head := none, checked := false, waiting := false, since := s.uid }
    let tok := (getXing s (pktXing h)).tokens
    (startChoice s = some (.queue q) →
      (pktType h = 0x00 → exec (.packetNop q) s = .next (setQueue { s with uid := s.uid + 1 } q x')) ∧
      (pktType h = 0x01 → frontRange s x.owner x.pasid.toNat .read (pktAddr h).toNat 128 = true →
        ∃ z, exec (.packetLaunch q) s = .next (acceptLaunch z (s.uid + 1)) ∧
          getQueue z q = { x' with open' := x.open' ++ [s.uid] } ∧
          getLaunch z (s.uid + 1) = { launchReset with
            origin := .packet q s.uid (pktXing h) (pktCount h), func := x.owner, pasid := x.pasid.toNat, pri := pktPri h,
            depth := 1, det := false, recAddr := pktAddr h, order := s.uid + 1 }) ∧
      (pktType h = 0x02 → ∃ t, exec (.packetSignal q) s = .next t ∧ getQueue t q = x' ∧
        (getXing t (pktXing h)).tokens = BitVec.ofNat 32 (min (tok.toNat + pktCount h) (2 ^ 32 - 1)) ∧
        (getXing t (pktXing h)).ovf = ((getXing s (pktXing h)).ovf || decide (2 ^ 32 ≤ tok.toNat + pktCount h))) ∧
      (pktType h = 0x03 → pktCount h ≤ tok.toNat → ∀ i, (i = .packetWait q ∧ x.waiting = false) ∨ (i = .waitSatisfied q ∧ x.waiting = true) →
        ∃ t, exec i s = .next t ∧ getQueue t q = x' ∧ (getXing t (pktXing h)).tokens = tok - BitVec.ofNat 32 (pktCount h)) ∧
      (pktType h = 0x04 → ∃ t, exec (.packetGraph q) s = .next t ∧ getQueue t q = { x' with open' := x.open' ++ [s.uid] } ∧
        getGraph t (pktGraph h) = { getGraph s (pktGraph h) with
          pend := (getGraph s (pktGraph h)).pend ++ [⟨min (pktPri h) (getGraph s (pktGraph h)).gpri.toNat, some (q, s.uid)⟩] }) ∧
      (∀ bs, pktType h = 0x05 → frontRead s x.owner x.pasid.toNat (pktAddr h).toNat (64 * pktNodes h) = some bs →
        let ns := (List.range (pktNodes h)).map fun i => leNat ((bs.drop (64 * i)).take 64)
        let y := getGraph s (pktGraph h)
        let e := imageErr y.gbase y.glen (pktNodes h) ns
        ∃ t, exec (.packetGload q) s = .next t ∧ getQueue t q = x' ∧
          (e = 0 → getGraph t (pktGraph h) = { y with err := 0, ign := false, lost := false, abn := false, nodes := pktNodes h } ∧
            ∀ i, i < pktNodes h → tabFind t.store (y.gbase + i) = some (BitVec.ofNat 512 (ns.getD i 0))) ∧
          (e ≠ 0 → getGraph t (pktGraph h) = { y with err := BitVec.ofNat 4 e } ∧ t.store = s.store)) ∧
      (∀ pa, pktType h = 0x06 → frontPlace s x.owner x.pasid.toNat .write (pktAddr h).toNat = some pa →
        ∃ t, exec (.packetMark q) s = .next t ∧ getQueue t q = x' ∧
          (∀ i, i < 8 → sysByte t (pa + i) = BitVec.ofNat 8 ((pktValue h).toNat / 256 ^ i)) ∧
          t.pcie.irqs = s.pcie.irqs ++ if pktIrq h then [(x.owner, x.qvec.toNat)] else [])) ∧
    (pktType h = 0x03 → tok.toNat < pktCount h → x.waiting = false →
      exec (.packetWait q) s = .next (setQueue s q { x with waiting := true }))

/-- A launch whose record, descriptor and fields pass every check becomes an accepted grid with all its teams to place (R23 to R25).
One that fails a check leaves the device with a completion record that starts with the check's status, and one that has no teams and no
children with a record of status 0 (R13, R25, R26); that both retire inside their acceptance is the model's choice (log entry 70). A
grid with nothing left retires: its completion record starts with its status, it leaves the device, and its packet retires with its
tokens added (R29, R42, R415). -/
def Obligations.GridLife : Prop :=
   (∀ (s : State) (lk : Nat) (bs : List Byte), startChoice s = some (.launch lk) →
      let l := getLaunch s lk
      (∀ p tm th, l.origin ≠ .thread p tm th) → l.recAddr.toNat % 128 = 0 → l.fate = 0 →
      frontRead s l.func l.pasid l.recAddr.toNat 128 = some bs →
      let l1 : Launch := { withRecord l (leNat bs) with tstart := Config.clockAt s.fresh, stage := .accepted }
      let s1 := setLaunch { s with fresh := s.fresh + 1 } lk l1
      let n := l1.gx * l1.gy * l1.gz
      l1.done.toNat % 64 = 0 → (frontPlace s1 l1.func l1.pasid .write l1.done.toNat).isSome →
      (∀ l2, checkLaunch s1 l1 = (l2, 0) → n ≠ 0 → s.obs.rplctl.getLsbD 31 = false → l.pri < 7 →
        ∃ t, exec .launchAccept s = .next t ∧ getLaunch t lk = { l2 with unplaced := [(0, n)], order := s.uid } ∧ t.uid = s.uid + 1 ∧
          t.mem = s.mem ∧ t.teams = s.teams ∧ t.queues = s.queues) ∧
      let left := fun (z : State) (l2 : Launch) (c : Nat) =>
        ∀ pa, frontPlace (if l2.det then z else { z with fresh := z.fresh + 1 }) l2.func l2.pasid .write l2.done.toNat = some pa →
          ∃ t, exec .launchAccept s = .next t ∧ tabFind t.launches lk = none ∧ sysByte t pa = BitVec.ofNat 8 c
      (∀ l2 c, checkLaunch s1 l1 = (l2, c) → c ≠ 0 → left (setLaunch s1 lk l2) l2 c) ∧
      (∀ l2, checkLaunch s1 l1 = (l2, 0) → n = 0 → s.obs.rplctl.getLsbD 31 = false → s.obs.rlaunch ≠ some lk → l.pri < 7 → l.frozen = none →
        l.childLive = 0 → l.closing = false → recWaits s lk = false → (∀ e, e ∈ s.teams → e.2.launch ≠ lk) →
        let l3 := { l2 with unplaced := [], order := s.uid }
        left { setLaunch (setLaunch s1 lk l2) lk l3 with uid := s.uid + 1 } l3 0)) ∧
   (∀ (s : State) (lk q idx xing count pa : Nat),
      let l := getLaunch s lk
      (tabFind s.launches lk).isSome → gridDone s lk = true → s.obs.rlaunch ≠ some lk →
      l.closing = false → l.origin = .packet q idx xing count → l.done.toNat % 64 = 0 →
      frontPlace (if l.det then s else { s with fresh := s.fresh + 1 }) l.func l.pasid .write l.done.toNat = some pa →
      ∃ t, exec (.gridRetire lk) s = .next t ∧ tabFind t.launches lk = none ∧ sysByte t pa = l.fate ∧
        (getQueue t q).open' = (getQueue s q).open'.filter (fun i => i != idx) ∧
        (getXing t xing).tokens = BitVec.ofNat 32 (min ((getXing s xing).tokens.toNat + count) (2 ^ 32 - 1)) ∧
        t.pcie.irqs = s.pcie.irqs)

/-- A store to GTRIG adds runs up to 255; GCFG is written by the physical function while the graph is idle; a pending run of a
valid graph starts with its nodes without predecessors ready, and one of an invalid graph sets IGN (R45, R48, R50, R54). A
node that fires on forward arrivals of which one was a run: NOP, MARK and a counting LOOP make the successor on their list A
ready, COND makes the successor of one list run and of the other skip by the word it reads, and LAUNCH hands its record over
at the run's priority (R50 to R53). A LOOP on its forward arrivals needs its CADDR in order, even where its COUNT decides (R53). A LOOP decides again on each back arrival, by its counter (R51). A node whose arrivals
were all skips passes the skip on (R50). -/
def Obligations.GraphSteps : Prop :=
   (∀ (s : State) (g : Nat) (v : DWord),
      let x := getGraph s g
      (running s = true → x.gown ≤ s.pcie.numVfs → g < 1024 → ∃ t, exec (.gtrigStore x.gown g v) s = .next t ∧
        getGraph t g = { x with pend := x.pend ++ List.replicate (min (v.toNat % 256) (255 - x.pend.length)) ⟨x.gpri.toNat, none⟩,
                                lost := x.lost || decide (255 - x.pend.length < v.toNat % 256) }) ∧
      (running s = true → g < 1024 → x.run = none → x.pend = [] → (v.extractLsb' 0 17).toNat ≤ 65536 →
        ∃ t, exec (.graphConfigWrite 0 g false v) s = .next t ∧ (getGraph t g).gpri = v.extractLsb' 56 3 ∧
          (getGraph t g).gown = (v.extractLsb' 48 6).toNat ∧ (getGraph t g).gbase = (v.extractLsb' 32 16).toNat ∧
          (getGraph t g).gvec = v.extractLsb' 24 6 ∧ (getGraph t g).glen = (v.extractLsb' 0 17).toNat ∧
          (x.gown ≠ (v.extractLsb' 48 6).toNat → (getGraph t g).err = 0xF)) ∧
      (∀ r rest, x.run = none → x.pend = r :: rest → (getFunc s x.gown).freezing = false → x.err ≠ 0 → r.packet = none →
        exec (.graphRunStart g) s = .next (setGraph s g { x with pend := rest, ign := true })) ∧
      (∀ r rest, x.run = none → x.pend = r :: rest → (getFunc s x.gown).freezing = false → x.err = 0 →
        (∃ n, n < x.nodes ∧ nodePred (nodeAt s g n) = 0) →
        ∃ t, exec (.graphRunStart g) s = .next t ∧ (getGraph t g).run = some r ∧ (getGraph t g).pend = rest ∧
          ∀ n, n < x.nodes → (getNode (getGraph t g) n).ready = decide (nodePred (nodeAt s g n) = 0))) ∧
   (∀ (s : State) (g n m : Nat),
      let w := nodeAt s g n
      let x := getGraph s g
      let r := getNode x n
      let s1 := setGraph s g (setNode x n (nodeFired r))
      (ReadyNode s g n 0x00 → nodeNA w = 1 → EdgeTo s g n 0 m →
        ∃ t, exec (.graphNodeNop g n) s = .next t ∧ (getNode (getGraph t g) n).ready = false ∧
          (getNode (getGraph t g) m).ready = true ∧ (getNode (getGraph t g) m).ran = true ∧ (getGraph t g).run = x.run) ∧
      (∀ pa, ReadyNode s g n 0x06 → nodeNA w = 1 → EdgeTo s g n 0 m → nodePlace s1 g .write (nodeAddr w) = some pa →
        ∃ t, exec (.graphNodeMark g n) s = .next t ∧ (getNode (getGraph t g) m).ready = true ∧ (getNode (getGraph t g) m).ran = true ∧
          (∀ i, i < 8 → sysByte t (pa + i) = BitVec.ofNat 8 (nodeValue w / 256 ^ i)) ∧
          t.pcie.irqs = s.pcie.irqs ++ if nodeIrq w then [(x.gown, x.gvec.toNat)] else []) ∧
      (∀ pa k, ReadyNode s g n 0x10 → nodeNA w = 1 → nodeNB w = 1 → EdgeTo s g n 0 m → EdgeTo s g n 1 k → k ≠ m →
        nodePlace s1 g .read (nodeAddr w) = some pa →
        ∃ t, exec (.graphNodeCond g n) s = .next t ∧ (getNode (getGraph t g) m).ready = true ∧ (getNode (getGraph t g) k).ready = true ∧
          (getNode (getGraph t g) m).ran = decide (sysWord s pa ≠ 0) ∧ (getNode (getGraph t g) k).ran = decide (sysWord s pa = 0)) ∧
      (ReadyNode s g n 0x11 → nodeNA w = 1 → EdgeTo s g n 0 m → nodeCount w ≠ 0 → (nodePlace s1 g .read (nodeAddr w)).isSome →
        ∃ t, exec (.graphNodeLoop g n) s = .next t ∧ (getNode (getGraph t g) m).ready = true ∧ (getNode (getGraph t g) n).iter = 1) ∧
      (x.run.isSome → x.abandoned = false → n < x.nodes → nodeType w = 0x11 → r.ready = false → 0 < r.back → nodeNA w = 1 →
        nodeCount w ≠ 0 →
        (r.iter < nodeCount w → EdgeTo s g n 0 m →
          ∃ t, exec (.graphNodeLoop g n) s = .next t ∧ (getNode (getGraph t g) m).ready = true ∧
            (getNode (getGraph t g) n).iter = r.iter + 1 ∧ (getNode (getGraph t g) n).back = r.back - 1) ∧
        (nodeCount w ≤ r.iter → nodeNB w = 1 → EdgeTo s g n 1 m →
          ∃ t, exec (.graphNodeLoop g n) s = .next t ∧ (getNode (getGraph t g) m).ready = true ∧
            (getNode (getGraph t g) n).back = r.back - 1)) ∧
      (∀ q, ReadyNode s g n 0x01 → x.run = some q →
        ∃ t, exec (.graphNodeLaunch g n) s = .next t ∧ (getGraph t g).flying = x.flying + 1 ∧ t.uid = s.uid + 1 ∧
          getLaunch t s.uid = { launchReset with origin := .node g n (nodeEdges w (listA w)), func := x.gown, pasid := x.pasid.toNat,
                                                 pri := q.pri, depth := 1, det := false, recAddr := nodeAddr w, order := s.uid }) ∧
      (∀ i ty, (i, ty) ∈ [(Instr.graphNodeNop g n, 0x00), (.graphNodeLaunch g n, 0x01), (.graphNodeMark g n, 0x06),
          (.graphNodeCond g n, 0x10), (.graphNodeLoop g n, 0x11)] →
        x.run.isSome → x.abandoned = false → n < x.nodes → nodeType w = ty → r.ready = true → 0 < r.fwd → r.ran = false →
        nodeNA w + nodeNB w = 1 → EdgeTo s g n 0 m →
        ∃ t, exec i s = .next t ∧ (getNode (getGraph t g) m).ready = true ∧ (getNode (getGraph t g) m).ran = false ∧
          t.uid = s.uid ∧ t.mem = s.mem ∧ t.l2 = s.l2))

/-! ## Toll and power -/

/-- A tick of the loop: in loop mode L rises by 16, at most to 4,095, when the measured power is at 95 % of the cap or above,
stays when it is at 90 % or above, and falls by 4 otherwise, at least to 0; pinned, L is the pinned code. KERB ends at a tick
that is below 95 % and saw no trip (R71, R73, R86, R88). Eight samples in a row above the cap trip the kerb: KERB and NEAR are
set, L rises by 128, and every core runs at point 0; a sample that is not above it starts the count anew (R85). A write of
TCTL by the physical function sets the mode and the pinned code (R87, R88). -/
def Obligations.TollSteps : Prop :=
   (∀ (s : State) (w : Nat),
      let u := s.supply
      let high := 95 * u.capw ≤ 100 * w
      let near := 90 * u.capw ≤ 100 * w
      ∃ t, exec (.tollTick w) s = .next t ∧ t.supply.tick = u.tick + 1 ∧ t.supply.pwr = min w 8191 ∧
        (t.supply.kerb = true ↔ u.kerb = true ∧ (high ∨ u.tripped = true)) ∧
        (u.mode = 0 → (high → t.supply.l = min 4095 (u.l + 16)) ∧ (¬ high → near → t.supply.l = u.l) ∧ (¬ near → t.supply.l = u.l - 4) ∧
          (t.supply.near = true ↔ near)) ∧
        (u.mode = 1 → t.supply.l = if t.supply.kerb then min 4095 (u.pinl.toNat + 128) else u.pinl.toNat) ∧
        t.supply.capw = u.capw ∧ t.supply.mode = u.mode ∧ t.mem = s.mem ∧ t.teams = s.teams) ∧
   (∀ (s : State) (ma mv : Nat), let u := s.supply
      (ma * mv ≤ 1000000 * u.capw → exec (.kerbSample ma mv) s = .next { s with supply := { u with high := 0 } }) ∧
      (1000000 * u.capw < ma * mv → u.high ≠ 7 → exec (.kerbSample ma mv) s = .next { s with supply := { u with high := u.high + 1 } }) ∧
      (1000000 * u.capw < ma * mv → u.high = 7 → u.tripped = false →
        ∃ t, exec (.kerbSample ma mv) s = .next t ∧ t.supply.kerb = true ∧ t.supply.near = true ∧ t.supply.high = 0 ∧
          t.supply.ktrips = min 65535 (u.ktrips + 1) ∧ (u.mode = 0 → t.supply.l = min 4095 (u.l + 128)) ∧
          ∀ c, c < 192 → (getCore t c).clock.cur = 0)) ∧
   (∀ (s : State) (v : Word) (i : Instr), running s = true →
      (i = .tollModeLoop 0 v ∧ v.extractLsb' 30 2 = 0) ∨ (i = .tollModePinned 0 v ∧ v.extractLsb' 30 2 = 1) ∨
        (i = .tollModeScripted 0 v ∧ v.extractLsb' 30 2 = 2) →
      ∃ t, exec i s = .next t ∧ t.supply.mode = v.extractLsb' 30 2 ∧ t.supply.pinl = v.extractLsb' 0 12 ∧ t.supply.l = s.supply.l ∧
        t.supply.capw = s.supply.capw ∧ (v.extractLsb' 30 2 = 2 → s.supply.mode ≠ 2 → t.supply.fresh = true))

/-- Failures of a region's power: a sensor out of range is excluded, and a region without one is lost; the first phase that fails
biases the region, the second ends it; a lost feed writes a record (R89, R91). The gating of a region: a core goes dark at
once, a region that is off waits for its wake, the lowest waiting region of a segment wakes when its inrush is covered, and
its eight stages switch on one after another (R92, R94). -/
def Obligations.PowerSteps : Prop :=
   (∀ (s : State) (r k p : Nat), r < 384 →
      let x := getRegion s r
      (∀ mv, mv < 300 ∨ 1000 < mv → k ∉ x.lostSensors →
        ∃ t, exec (.sensorFault r k mv) s = .next t ∧ (getRegion t r).lostSensors = x.lostSensors ++ [k] ∧
          (Config.regionSensors r ≤ x.lostSensors.length + 1 → x.failed = false → (getRegion t r).failed = true)) ∧
      (x.phok.getLsbD p = true → x.failed = false →
        ∃ t, exec (.phaseFail r p) s = .next t ∧ (getRegion t r).phok = x.phok &&& ~~~(BitVec.ofNat 4 (2 ^ p)) ∧
          (x.bias = false → (getRegion t r).bias = true ∧ (getRegion t r).failed = false) ∧
          (x.bias = true → (getRegion t r).failed = true ∧ (r < 192 → (getCore t r).dark = true))) ∧
      (fatalFull s 0 = false →
        ∃ t, exec (.feedLoss k) s = .next t ∧ (getFunc t 0).ftail = (getFunc s 0).ftail + 1 ∧ t.supply = s.supply)) ∧
   (∀ (s : State) (r g : Nat), running s = true →
      let x := getRegion s r
      (r < 192 → x.gate = false → ∃ t, exec (.regionGate 0 r) s = .next t ∧ (getRegion t r).gate = true ∧ (getCore t r).dark = true) ∧
      (r < 384 → x.gate = true → exec (.regionGate 0 r) s = .next s) ∧
      (r < 384 → x.failed = false → x.gated = true → x.waking = false →
        ∃ t, exec (.regionWake 0 r) s = .next t ∧ getRegion t r = { x with gate := false, want := true }) ∧
      (((List.range 384).find? fun q => segmentOf q == g && (getRegion s q).want) = some r →
        segmentPeak s g + Config.regionInrush r ≤ Config.segmentRating g →
        ∃ t, exec (.wakeGrant g) s = .next t ∧ getRegion t r = { x with want := false, gated := false, waking := true, stage := 0 }) ∧
      (x.waking = true → x.stage < 7 → ∃ t, exec (.gateStage r) s = .next t ∧ getRegion t r = { x with stage := x.stage + 1 }) ∧
      (x.waking = true → 7 ≤ x.stage →
        ∃ t, exec (.gateStage r) s = .next t ∧ getRegion t r = { x with stage := 8, waking := false } ∧
          (r < 192 → x.gate = false → x.failed = false → (getCore t r).dark = false)))

/-! ## Translation and page requests -/

/-- A reply that names a valid slot's SEQ frees it; a stage-2 request is answered through PRREPX alone, and PRREP to one is ignored. With
FAIL, an element of a group on its core that waits on the slot takes the translation cause at its instruction. Without FAIL it walks
again: where the page is there now, it is performed and its lanes go on; where the walk meets the same fault, its count rises by one, and
the sixteenth fault in a row takes the translation cause (R250, R251). A fetch whose walk finds
no leaf parks the lanes that stand there, and an element waits on the page; in a deterministic launch the lanes keep their
places (R249, R254). A TINVC write with GO removes the cached entries of its kind and keeps every other, is busy until every
access that was outstanding has been performed, replayed ones too, and then is not. An ATS invalidation removes the
translations of its range and is queued with the accesses that must be performed before its completion. An ATS reply and a PRG
Response with Success give the device a translation (R248, R301); that the reply is an event of its own, a host completion that names the
page, and that it leaves a translation with the device, is the model's choice (log entry 103). One that gives no access lists one Page
Request Message, under PRI (R301). -/
def Obligations.TranslationSteps : Prop :=
   (∀ (s : State) (f j func : Nat) (v : Word) (i : Instr), running s = true → func = 0 ∨ func = f → f < 64 → f ≤ s.pcie.numVfs →
      let x := getSlot s f j
      (i = .prrepWrite func f v ∧ x.stage = false ∨ i = .prrepxWrite 0 v ∧ (v.extractLsb' 22 6).toNat = f) →
      (v.extractLsb' 0 6).toNat = j →
      (x.valid = false ∨ x.seq ≠ v.extractLsb' 8 8 → exec i s = .next s) ∧
      (x.valid = true → x.seq = v.extractLsb' 8 8 → s.elems = [] →
        ∃ t, exec i s = .next t ∧ getSlot t f j = { x with valid := false, waiters := 0 } ∧ t.groups = s.groups) ∧
      ∀ e, x.valid = true → x.seq = v.extractLsb' 8 8 → s.elems = [e] → e.func = f → e.slot = some j →
        (getGroup s e.gkey).slot.isSome = true → (getGroup s e.gkey).due = [] →
        let z := { setSlot s f j { x with valid := false, waiters := 0 } with elems := [] }
        let g := getGroup s e.gkey
        let n := faultCount s (faultKey e)
        let meets := fun (y : State) => x.pasid = e.pasid ∧ x.addr = e.page ∧ x.stage = e.stage ∧ elemPlace z e = (y, .wait e.stage e.page)
        (∀ o a y, v.getLsbD 16 = true ∨ (v.getLsbD 16 = false ∧ meets y ∧ 15 ≤ n) → e.act = .item o → e.lanes ≠ 0 →
          (launchOf s e.gkey).handler = some a → e.lanes &&& g.hmask = 0 → (getFunc s (launchOf s e.gkey).func).holdtr = false →
          ∃ t, exec i s = .next t ∧ (v.getLsbD 16 = true → (getSlot t f j).valid = false) ∧ t.elems = [] ∧
            (getGroup t e.gkey).cause = g.cause ||| 16 ∧ (getGroup t e.gkey).hmask = g.hmask ||| e.lanes ∧
            ∀ l, l ∈ lanesOf e.lanes → pcOf (getGroup t e.gkey) l = a ∧ tabGet 0 (getGroup t e.gkey).epc l = o.pc ∧
              tabGet 0 (getGroup t e.gkey).fadr l = e.va) ∧
        (v.getLsbD 16 = false →
          (∀ pc y ls, e.act = .refetch pc → elemPlace z e = (y, .ok ls) →
            ∃ t, exec i s = .next t ∧ t.elems = [] ∧ getGroup t e.gkey = { g with parked := g.parked &&& ~~~e.lanes }) ∧
          (∀ o y l w sc va data cmp tk off, e.act = .item o → o.work = .store w sc [⟨l, va, none, data, cmp⟩] [] → e.post = [] →
            let ls := (List.range w).map fun q => Loc.scr tk (off + q)
            elemPlace z e = (y, .ok ls) → (tabFind s.teams tk).isSome →
            mayReplay y e.gkey { o with work := .store w sc [⟨l, va, some ls, data, cmp⟩] [] } = true →
            ∃ t, exec i s = .next t ∧ t.elems = [] ∧ (getGroup t e.gkey).parked = g.parked &&& ~~~e.lanes ∧
              (∀ q, q ∈ lanesOf (e.lanes &&& g.parked) → pcOf (getGroup t e.gkey) q = o.next) ∧
              ∀ q, q < w → scrByte t tk (off + q) = BitVec.ofNat 8 (data.toNat / 256 ^ q)) ∧
          (∀ y, meets y → n < 15 → ∃ t k, exec i s = .next t ∧ t.elems = [{ e with slot := k, replied := false, pri := false }] ∧
            faultCount t (faultKey e) = n + 1 ∧ t.groups = s.groups))) ∧
   (∀ (s : State) (f func : Nat) (v : Word), (getSlot s f (v.extractLsb' 0 6).toNat).stage = true →
      exec (.prrepWrite func f v) s = .next s) ∧
   (∀ (s : State) (k l : Nat) (pc va : DWord) (m : Lanes) (z : State) (s2 : Bool) (page : Nat),
      s.elems = [] → issueSet (getGroup s k) = some (pc, m) → m.getLsbD l = true → mayRun s k = true →
      fetchInstr s k pc = (z, .fails (.wait s2 page) va) →
      ∃ t, exec (.translationFault k l .fetch va) s = .next t ∧
        (getGroup t k).parked = (if (getGroup z k).det then (getGroup z k).parked else (getGroup z k).parked ||| m) ∧
        (∃ e, t.elems = z.elems ++ [e] ∧ e.gkey = k ∧ e.lanes = m ∧ e.va = va ∧ e.page = page ∧ e.stage = s2) ∧
        (getGroup t k).cause = (getGroup z k).cause) ∧
   (∀ (s : State) (f func : Nat) (v : Word), running s = true → func ≤ s.pcie.numVfs → func = 0 ∨ func = f →
      let x := getFunc s f
      let pasid := (v.extractLsb' 0 20).toNat
      let kind := (v.extractLsb' 20 2).toNat
      let drops := fun (i : Instr) (p : TlbEnt → Prop) =>
        ∃ t, exec i s = .next t ∧ (getFunc t f).tbusy = true ∧ t.mem = s.mem ∧ t.groups = s.groups ∧
          ∀ e, e ∈ t.tlb ↔ e ∈ s.tlb ∧ ¬ (e.func = f ∧ p e)
      (v.getLsbD 31 = true → x.tbusy = false →
        (kind = 0 → drops (.tinvStage1All func f v) fun e => e.s2 = false) ∧
        (kind = 1 → drops (.tinvStage1Pasid func f v) fun e => e.s2 = false ∧ e.pasid = pasid) ∧
        (kind = 2 → drops (.tinvStage1Addr func f v) fun e =>
          e.s2 = false ∧ e.pasid = pasid ∧ e.tag = (x.tinva.toNat / 2 ^ 12 % 2 ^ 44 * 4096) / 2 ^ e.lg) ∧
        (kind = 3 → func = 0 → drops (.tinvStage2All func f v) fun e => e.s2 = true)) ∧
      (v.getLsbD 31 = true → kind = 3 → func ≠ 0 → exec (.tinvStage2All func f v) s = .next s) ∧
      (x.tbusy = true → (∀ d, d ∈ x.tdrain → findOut s d.1 d.2 = none) →
        (∀ d e o, d ∈ x.tdrain → e ∈ s.elems → e.act = .item o → hasPlace e = true → ¬ (e.gkey = d.1 ∧ o.seq = d.2)) →
        exec (.tinvDrainDone f) s = .next (setFunc s f { x with tbusy := false, tdrain := [] })) ∧
      (∀ a n, ∃ t, exec (.atsInvalidate f a n) s = .next t ∧
        (∀ e, e ∈ t.pcie.atc ↔ e ∈ s.pcie.atc ∧ ¬ (e.1 = f ∧ a / 4096 ≤ e.2 ∧ e.2 < (a + n + 4095) / 4096)) ∧
        (∀ e, e ∈ t.pcie.grants ↔ e ∈ s.pcie.grants ∧ ¬ (e.1 = f ∧ a / 4096 ≤ e.2 ∧ e.2 < (a + n + 4095) / 4096)) ∧
        ∃ q, t.pcie.invs = s.pcie.invs ++ [q] ∧ q.func = f ∧ q.addr = a ∧ q.len = n ∧ q.drain = outAccesses s f) ∧
      (∀ page, s.elems = [] → (getFunc s f).ats = true →
        ∃ t, exec (.hostCompletion (.ats f page) .success) s = .next t ∧ (f, page) ∈ t.pcie.grants ∧ ∀ e, e ∈ s.pcie.grants → e ∈ t.pcie.grants) ∧
      (∀ page, s.elems = [] →
        (∃ t, exec (.prgResponse f page true) s = .next t ∧ (f, page) ∈ t.pcie.grants ∧ ∀ e, e ∈ s.pcie.grants → e ∈ t.pcie.grants) ∧
        exec (.prgResponse f page false) s =
          .next { s with pcie := { s.pcie with prms := s.pcie.prms.filter fun e => e != (f, page) } }) ∧
      (∀ page e st, s.elems = [e] → e.pri = true → e.func = f → e.page = page → hasPlace e = false → (getFunc s f).ats = true →
        (getFunc s f).pri = true → (f, page) ∉ s.pcie.prms → st ≠ .success →
        exec (.hostCompletion (.ats f page) st) s = .next { s with pcie := { s.pcie with prms := s.pcie.prms ++ [(f, page)] } }))

/-! ## The host, peers and registers -/

/-- Host accesses through BAR4 act at L2 on local DRAM: a write changes its bytes and no others, and its sectors enter every
core's ACQF, or the acquire that took it in the same cycle (R364, R365); a read answers the bytes (R297). Beyond local DRAM
neither does, and each counts an Unsupported Request (that an access on both sides of its end counts as one beyond it is the model's
choice, log entry 130). A load of host memory under memory type 2 gets its bytes with the host's
completion, which port 0 brings; a failed completion, or none within the timeout, is an access violation in the lane at its
address instead (R269). A PCIe port that is up answers a configuration request, with Request Retry Status before enumeration
is admitted. After that port 0 shows the physical function with its BARs and the virtual functions that the host has enabled,
and port 1 one function without a BAR; the host sets NumVFs, the size of BAR4, and a function's ATS and PRI. A port trains to
the rate and width of its partner, and a port that goes down is down (R296, R297, R429). A peer's request whose target lies in
the import range and whose source is admitted is performed at L2; any other freezes its port (R305). A flit in sequence with a
good CRC is taken, and a request that it carries is performed unless its transaction identifier was seen before; any other
draws a NAK for the sequence number expected (R306; the polynomial of a flit's CRC is taken from outside the spec, log entry 104). That
the first failure of a CRC and 16 failing replays, seventeen in all, take a port down, at either end, is read from the rules (log entry
72). -/
def Obligations.HostAndPeers : Prop :=
   (∀ (s : State) (off n : Nat) (bs : List Byte), running s = true → off < s.pcie.bar4 →
      (off < Config.dramBytes → off + bs.length ≤ Config.dramBytes → rangeLost s off bs.length = false →
        ∃ t, exec (.hostBar4Write off bs) s = .next t ∧ (∀ j, j < bs.length → l2Byte t (off + j) = bs.getD j 0) ∧
          (∀ a, ¬ (off ≤ a ∧ a < off + bs.length) → l2Byte t a = l2Byte s a) ∧ t.mem = s.mem ∧ t.teams = s.teams ∧
          ∀ c a, c < 192 → off / 64 ≤ a / 64 → a < off + bs.length →
            (acqNow s c = none → filtHas (getCore t c).acqf a = true) ∧
            ∀ x, s.acqs = [x] → x.core = c → x.cyc = s.now → ∃ y, t.acqs = [y] ∧ y.id = x.id ∧ filtHas y.filt a = true) ∧
      (off < Config.dramBytes → off + n ≤ Config.dramBytes → rangeLost s off n = false →
        exec (.hostBar4Read off n) s = .next { s with pcie := { s.pcie with
          reads := s.pcie.reads ++ [(off, some ((List.range n).map fun j => l2Byte s (off + j)))] } }) ∧
      (Config.dramBytes ≤ off ∨ Config.dramBytes < off + bs.length →
        exec (.hostBar4Write off bs) s = .next { s with pcie := { s.pcie with urs := s.pcie.urs + 1 } }) ∧
      (Config.dramBytes ≤ off ∨ Config.dramBytes < off + n →
        ∃ t, exec (.hostBar4Read off n) s = .next t ∧ t.pcie.urs = s.pcie.urs + 1 ∧ t.pcie.reads = s.pcie.reads ++ [(off, none)])) ∧
   (∀ (s : State) (k seq : Nat) (o : Out) (l pa r : Nat) (va a : DWord) (sc : Scope), findOut s k seq = some o →
      o.work = .load .n32 1 false [(l, r)] sc [⟨l, va, some ((List.range 4).map fun j => .glob (pa + j) 2), 0, 0⟩] →
      (∀ j, j < 4 → hostBacked (pa + j) = true) → portUp s 0 = true → mayPerform (getGroup s k) o = true → l < 32 → r < 256 → Tgt.v l r ∈ o.live →
      (k, o.seq, l) ∉ s.struck →
      (∃ t, exec (.hostCompletion (.lane k seq) .success) s = .next t ∧
        vGet (getGroup t k) l r = BitVec.ofNat 32 (leNat ((List.range 4).map fun j => memRead s.mem (pa + j))) ∧
        ∀ l' r', r' < 256 → ¬ (l' = l ∧ r' = r) → vGet (getGroup t k) l' r' = vGet (getGroup s k) l' r') ∧
      (∀ i st, (i = .hostCompletion (.lane k seq) st ∧ st ≠ .success) ∨ i = .hostCompletionTimeout (.lane k seq) →
        (launchOf s k).handler = some a → (getGroup s k).slot.isSome = true → (getGroup s k).hmask.getLsbD l = false →
        (getGroup s k).exited.getLsbD l = false →
        ∃ t, exec i s = .next t ∧ (getGroup t k).cause = (getGroup s k).cause ||| 32 ∧ pcOf (getGroup t k) l = a ∧
          tabGet 0 (getGroup t k).epc l = o.pc ∧ tabGet 0 (getGroup t k).fadr l = va ∧
          (getGroup t k).vreg = (getGroup s k).vreg)) ∧
   (∀ (s : State) (p rate width : Nat), p < 2 →
      let answers := fun (r : CfgReq) (u : State) (a : CfgReply) =>
        exec (.configRequest ⟨p, r⟩) s = .next { u with pcie := { u.pcie with cfgReply := u.pcie.cfgReply ++ [(p, a)] } }
      (portUp s p = true → s.anchor.state ≠ 4 → s.anchor.state ≠ 5 → ∀ r, answers r s .retry) ∧
      (portUp s p = true → s.anchor.state = 4 →
        (p = 1 → answers (.read 0) s (.present true []) ∧ ∀ f, f ≠ 0 → answers (.read f) s .absent) ∧
        (p = 0 → answers (.read 0) s (.present false [(0, 2 ^ 26), (2, 2 ^ 23), (4, s.pcie.bar4)]) ∧
          (∀ f, f ≠ 0 → f ≤ s.pcie.numVfs → answers (.read f) s (.present false [(0, 2 ^ 20), (2, 2 ^ 23)])) ∧
          (∀ f, s.pcie.numVfs < f → answers (.read f) s .absent) ∧
          (∀ n, n ≤ 63 → answers (.numVfs n) { s with pcie := { s.pcie with numVfs := n } } .taken) ∧
          (∀ n, 30 ≤ n → n ≤ 39 → answers (.bar4 n) { s with pcie := { s.pcie with bar4 := 2 ^ n } } .taken) ∧
          ∀ f on, f ≤ s.pcie.numVfs →
            (s.elems = [] → ∃ t, exec (.configRequest ⟨p, .ats f on⟩) s = .next t ∧ (getFunc t f).ats = on ∧ t.mem = s.mem) ∧
            answers (.pri f on) (setFunc s f { getFunc s f with pri := on }) .taken)) ∧
      (1 ≤ rate → rate ≤ 7 → width ∈ [1, 2, 4, 8, 16] → p = 0 ∨ s.anchor.state = 4 →
        ∃ t, exec (.linkTrain p rate width) s = .next t ∧ portUp t p = true ∧
          (tabGet pcieReset t.pcie.ports p).rate = rate ∧ (tabGet pcieReset t.pcie.ports p).width = width) ∧
      (∃ t, exec (.pcieLinkDown p) s = .next t ∧ portUp t p = false ∧ ∀ q, q ≠ p → portUp t q = portUp s q)) ∧
   (∀ (s : State) (port src off xid : Nat) (bs : List Byte) (r : PeerReq) (f : Flit), port < 18 → (getPort s port).down = false →
      released s (.link port) = true → s.peers.unsent = [] →
      let p := getPort s port
      let p' := ackTaken { p with expSeq := p.expSeq + 1, fails := 0, nak := none } f.ack
      ((getPort s port).frozen = false → peerAdmits s src (.write off bs) = true → rangeLost s off bs.length = false →
        s.peers.vlinj.getLsbD 63 = false →
        ∃ t, exec (.peerInboundRequest port src (.write off bs)) s = .next t ∧
          (∀ j, j < bs.length → l2Byte t (off + j) = bs.getD j 0) ∧
          (∀ a, ¬ (off ≤ a ∧ a < off + bs.length) → l2Byte t a = l2Byte s a) ∧ t.mem = s.mem ∧ t.peers = s.peers) ∧
      ((getPort s port).frozen = false → peerAdmits s src (.write off bs) = false →
        ∃ t, exec (.peerInboundRequest port src (.write off bs)) s = .next t ∧
          getPort t port = { getPort s port with frozen := true } ∧ t.teams = s.teams ∧ t.plaza = s.plaza) ∧
      ((getPort s port).frozen = true → exec (.peerInboundRequest port src (.write off bs)) s = .next s) ∧
      (f.crc = flitCrc f → f.seq = p.expSeq → f.body = .req src xid r →
        ((src, xid) ∈ s.peers.seen →
          ∃ t, exec (.flitReceive port f) s = .next t ∧ getPort t port = p' ∧ t.mem = s.mem ∧ t.l2 = s.l2 ∧ t.peers.seen = s.peers.seen) ∧
        ((src, xid) ∉ s.peers.seen →
          ∃ u, exec (.flitReceive port f) s = exec (.peerInboundRequest port src r) u ∧ getPort u port = p' ∧ u.mem = s.mem ∧ u.l2 = s.l2 ∧
            u.peers.seen = s.peers.seen ++ [(src, xid)])) ∧
      (∀ n, f.crc = flitCrc f → f.seq = p.expSeq → f.body = .nak n →
        ∃ t, exec (.flitReceive port f) s = .next t ∧ (getPort t port).nakd = some n ∧
          (getPort t port).down = decide (p'.nakd = some n ∧ 16 ≤ p'.tries) ∧
          (¬ (p'.nakd = some n ∧ 16 ≤ p'.tries) → t.mem = s.mem ∧ ∀ x, x ∈ (getPort t port).sent ↔ x ∈ p'.sent ∧ seqBy n x.seq = true)) ∧
      (f.crc = flitCrc f → f.seq ≠ p.expSeq → p.fails ≤ 16 →
        ∃ t, exec (.flitReceive port f) s = .next t ∧ getPort t port = { p with nak := some p.expSeq } ∧ t.mem = s.mem ∧ t.l2 = s.l2) ∧
      (f.crc ≠ flitCrc f →
        ∃ t, exec (.flitReceive port f) s = .next t ∧ (getPort t port).nak = some p.expSeq ∧ (getPort t port).fails = p.fails + 1 ∧
          (getPort t port).expSeq = p.expSeq ∧ (getPort t port).down = decide (16 ≤ p.fails) ∧ t.peers.seen = s.peers.seen))

/-- What the host reads: a function's own queues and crossings, and zero for any other's (R34); CFREE of a core (R58); a 64-bit
register whole or by halves; zero for another width, at an offset with no register, and for a function that the host has not
enabled (R299). -/
def Obligations.RegisterReads : Prop :=
  ∀ (s : State) (f q n c o w : Nat), running s = true → f < 64 → q < 1024 → n < 4096 → c < 192 →
    (s.pcie.numVfs < f → bar0Read s f o w = 0 ∧ bar2Read s f o w = 0) ∧
    (f ≤ s.pcie.numVfs →
      let x := getQueue s q
      let y := getXing s n
      (x.owner ≠ f → o < 32 → bar0Read s f (32 * q + o) w = 0) ∧
      (x.owner = f → bar0Read s f (32 * q) 8 = x.qring.toNat ∧ bar0Read s f (32 * q) 4 = x.qring.toNat % 2 ^ 32 ∧
        bar0Read s f (32 * q + 4) 4 = x.qring.toNat / 2 ^ 32 ∧ bar0Read s f (32 * q) 2 = 0 ∧
        bar0Read s f (32 * q + 0x0C) 4 = x.qhead.toNat ∧ bar0Read s f (32 * q + 0x14) 4 = qstatWord x) ∧
      (y.owner ≠ f → o < 8 → bar0Read s f (0x8000 + 8 * n + o) w = 0) ∧
      (y.owner = f → bar0Read s f (0x8000 + 8 * n) 4 = xcfgWord y ∧ bar0Read s f (0x8000 + 8 * n + 4) 4 = y.tokens.toNat) ∧
      bar0Read s f 0x10008 8 = (getFunc s f).ptab.toNat ∧ bar0Read s f 0x10020 4 = 0 ∧
      (f ≠ 0 → bar0Read s f (0x125000 + 8 * c) 8 = 0)) ∧
    bar0Read s 0 (0x125000 + 8 * c) 8 = cfree s c

/-! ## Caches, engines, the matrix engine -/

/-- An eviction writes a line's dirty bytes back one level down and holds the line no more; other lines stay (R240, R241). That an L1
eviction drops the instruction words of the line too is read from the rules (log entry 36; R239 puts them in a separate part). L2 keeps a
line that a matrix operation has pinned (R323). The engine accepts a command that waits for nothing, a copy's CRC state with it, and the
instruction's item leaves the group. Once its bytes all find their places and no unfenced store would leave a granule of them half
applied, a copy is made: each byte of its destination holds the byte of its source, the out word of XCOPY.CRC the value of the CRC, and no
other byte changes; it ends with DONE set: XCOPY with ERR clear, XCOPY.CHK with ERR set when the CRC of its bytes is another, XCOPY.CRC
with its tag's CRC state. XFORM writes its elements through the conversion and XFORM.DEC its symbols and the count of bits with its error
at byte 60 of the record, no other byte changes, and the engine arrives once at the barrier object. A copy whose CRC chain is broken copies
nothing and ends with DONE and ERR set (R239 to R241, R273, R274, R277, R278, R281 to R283, R285, R287). -/
def Obligations.UnitSteps : Prop :=
   (∀ (s : State) (c line : Nat), c < 192 →
      (∃ t, exec (.l1Eviction c line) s = .next t ∧ t.mem = s.mem ∧ t.teams = s.teams ∧
        (∀ a, a / 64 = line → tabFind (getCore t c).l1 a = none) ∧
        (∀ a, a / 8 = line → tabFind (getCore t c).icache a = none) ∧
        (∀ a, a / 64 ≠ line → tabFind (getCore t c).l1 a = tabFind (getCore s c).l1 a ∧ l2Byte t a = l2Byte s a) ∧
        (∀ a b, a / 64 = line → (a, (true, b)) ∈ (getCore s c).l1 → (∀ b', (a, (true, b')) ∈ (getCore s c).l1 → b' = b) → l2Byte t a = b)) ∧
      (linePinned s line = true → exec (.l2Eviction line) s = .next s) ∧
      (linePinned s line = false → hostBacked (256 * line) = false ∨ portUp s (freePort s (256 * line)) = true →
        ∃ t, exec (.l2Eviction line) s = .next t ∧ t.cores = s.cores ∧ t.teams = s.teams ∧
          (∀ a, a / 256 = line → tabFind t.l2 a = none) ∧
          (∀ a, a / 256 ≠ line → tabFind t.l2 a = tabFind s.l2 a ∧ memRead t.mem a = memRead s.mem a) ∧
          (∀ a b, a / 256 = line → (a, (true, b)) ∈ s.l2 → (∀ b', (a, (true, b')) ∈ s.l2 → b' = b) → memRead t.mem a = b))) ∧
   (∀ (s : State) (id : Nat) (c : Cmd), findCmd s id = some c → c.waits = 0 → c.tag < 64 → engineReach s c = true →
      let z0 := flushGroup (actsIn s (getTeam s c.team).launch) c.gkey
      let src' := rangeAddrs c.src c.len
      let dst' := rangeAddrs c.dst c.len
      let arrives := fun (y z t : State) (bo : DWord) (ws : List (Loc × Byte)) =>
        Holds y z (farBytes y ws).2 ∧ findCmd t id = none ∧
        ∀ p, objPlace y c.gkey bo = some p → (tabFind y.teams p.1).isSome → objRead t p = objArrive (objRead z p) 1 ∧
          ∀ l, (∀ j, j < 8 → l ≠ .scr p.1 (p.2 + j)) → placeByte t l = placeByte z l
      (c.accepted = false → recAddrOf c = none → predDone s c = true →
        ∃ t, exec (.engineAccept id) s = .next t ∧ findCmd t id = some { c with accepted := true, start := crcStart (getTeam s c.team) c.kind } ∧
          getGroup t c.gkey = retire (getGroup s c.gkey) c.seq ∧ t.mem = s.mem ∧ t.teams = s.teams) ∧
      (∀ lay z y src dst w, c.accepted = true → c.kind = .copy lay → mixed z0 c.gkey src' = false →
        cmdPlaces z0 c .read src' = (z, src, []) → cmdPlaces z c .write dst' = (y, dst, []) → w = copyBytes y c none src dst →
        ∃ t, exec (.engineComplete id) s = .next t ∧ findCmd t id = none ∧
          (getTeam t c.team).done.getLsbD c.tag = true ∧ (getTeam t c.team).err.getLsbD c.tag = false ∧
          (∀ n, n < 64 → n ≠ c.tag → (getTeam t c.team).done.getLsbD n = (getTeam y c.team).done.getLsbD n) ∧
          Holds y t (farBytes w.1 w.2.2).2) ∧
      (∀ lay ex cont p x z y src dst w, c.accepted = true → c.kind = .copyChk lay ex cont p → c.start = some x →
        mixed z0 c.gkey src' = false → cmdPlaces z0 c .read src' = (z, src, []) → cmdPlaces z c .write dst' = (y, dst, []) →
        w = copyBytes y c (some x) src dst →
        ∃ t, exec (.engineComplete id) s = .next t ∧ findCmd t id = none ∧ (getTeam t c.team).done.getLsbD c.tag = true ∧
          ((getTeam t c.team).err.getLsbD c.tag = true ↔ crcValue (crcBytes x ((w.2.2.take c.len).map (·.2))) ≠ ex) ∧
          Holds y t (farBytes w.1 w.2.2).2) ∧
      (∀ lay out cont p x z y src dst w, c.accepted = true → c.kind = .copyCrc lay out cont p → c.start = some x →
        mixed z0 c.gkey src' = false → cmdPlaces z0 c .read src' = (z, src, []) →
        cmdPlaces z c .write (dst' ++ (if out = 0 then [] else rangeAddrs out 4)) = (y, dst, []) → w = copyBytes y c (some x) src dst →
        let v := crcBytes x ((w.2.2.take c.len).map (·.2))
        ∃ t, exec (.engineComplete id) s = .next t ∧ findCmd t id = none ∧ (getTeam t c.team).done.getLsbD c.tag = true ∧
          (getTeam t c.team).err.getLsbD c.tag = false ∧ tabGet 0 (getTeam t c.team).crc c.tag = v ∧
          w.2.2.drop c.len = (dst.drop c.len).zip (leBytes 4 (crcValue v).toNat) ∧ Holds y t (farBytes w.1 w.2.2).2) ∧
      (∀ lay ex out p, c.accepted = true → c.kind = .copyChk lay ex true p ∨ c.kind = .copyCrc lay out true p → c.start = none →
        ∃ t, exec (.engineComplete id) s = .next t ∧ findCmd t id = none ∧ t.mem = s.mem ∧ t.l2 = s.l2 ∧ t.groups = s.groups ∧
          getTeam t c.team = { getTeam s c.team with
            done := (getTeam s c.team).done ||| BitVec.ofNat 64 (2 ^ c.tag), err := (getTeam s c.team).err ||| BitVec.ofNat 64 (2 ^ c.tag),
            noChain := (getTeam s c.team).noChain ||| BitVec.ofNat 64 (2 ^ c.tag) }) ∧
      (∀ r bo ls z b x bs ds y, c.accepted = true → c.kind = .xform true r bo → xformReady z0 c bo (decodeAddrs c) = true →
        cmdPlaces z0 c .read (decodeAddrs c) = (z, ls, []) → b = engBytes z c.core ls → x = decodeSyms b.1 c ls b.2 →
        bs = x.1.flatMap (fun v => leBytes (symBytes c) v) →
        cmdPlaces b.1 c .write (rangeAddrs c.dst bs.length ++ rangeAddrs (r + 60) 4) = (y, ds, []) →
        ∃ t z, exec (.xformComplete id) s = .next t ∧
          arrives y z t bo (ds.zip (bs ++ leBytes 4 (x.2.1 % 2 ^ 31 + (if x.2.2 then 2 ^ 31 else 0))))) ∧
      (∀ r bo sty dty rnd z ls y ds, c.accepted = true → c.kind = .xform false r bo → layoutRec c = some (sty, dty, rnd) →
        xformReady z0 c bo ((xformElems c).flatMap (xformSrc c sty)) = true →
        cmdPlaces z0 c .read ((xformElems c).flatMap (xformSrc c sty)) = (z, ls, []) →
        cmdPlaces z c .write ((xformElems c).flatMap (xformDst c dty)) = (y, ds, []) →
        ∃ t u, exec (.xformComplete id) s = .next t ∧
          arrives (layoutBytes y c sty dty rnd).1 u t bo (layoutBytes y c sty dty rnd).2))

/-! ## Records, pre-emption, freezing, stops -/

/-- A reply to a held sub-group that stands on a core: RESUME lets its lanes go on, DELIVER hands them to the handler, KILL ends
the grid (R404). A write of FHEAD or RHEAD moves the head, and a fatal record that waited for a free slot is written (R404).
FPRE marks the resident teams of its function below priority 7 to leave and, with HOLD, keeps the function off (R406). FREEZE
and THAW start when no operation is under way, and end with a status, BUSY clear and vector 4 of the physical function
signalled: a THAW into a function that holds contexts with 0x05; a FREEZE, whose teams leave first and which then releases every
core's writes at system scope, with its launches frozen when it ends with 0 (R410, R411, R413). That a THAW's 0x05 comes before every other status is the model's choice (log entry 64); that a
FREEZE takes priority-7 teams too is read from the rules (log entry 62). A function-level reset discards the frozen launches. A
precise stop by launch, team or thread takes the named teams off their cores and keeps them off until a resume names them (R422); a GO
whose KIND is 3 acts with the KIND that the register holds (R436; read from the rules, log entry 63). -/
def Obligations.RecordsAndFreezing : Prop :=
   (∀ (s : State) (f func k : Nat) (v : Word) (h : Held), running s = true → func ≤ s.pcie.numVfs → func = 0 ∨ func = f →
      heldAt s f (v.extractLsb' 0 10).toNat (v.extractLsb' 10 8) = some (k, h) → h.s2 = false ∨ func = 0 →
      (getGroup s k).slot.isSome → gridEnded (launchOf s k) = false → (getGroup s k).due = [] →
      (v.extractLsb' 30 2 = 0 → h.elems = [] →
        ∃ t, exec (.rplrepResume func f v) s = .next t ∧
          getGroup t k = { getGroup s k with held := (getGroup s k).held.filter (fun x => x != h),
                                             parked := (getGroup s k).parked &&& ~~~h.lanes }) ∧
      (∀ a, v.extractLsb' 30 2 = 1 → (launchOf s k).handler = some a → h.lanes &&& (getGroup s k).hmask = 0 →
        ∃ t, exec (.rplrepDeliver func f v) s = .next t ∧ (getGroup t k).hmask = (getGroup s k).hmask ||| h.lanes ∧
          (getGroup t k).parked = (getGroup s k).parked &&& ~~~h.lanes ∧ h ∉ (getGroup t k).held ∧
          ∀ l, l ∈ lanesOf h.lanes → pcOf (getGroup t k) l = a) ∧
      (v.extractLsb' 30 2 = 2 → (tabFind s.launches (teamOf s k).launch).isSome → (launchOf s k).stage ≠ .retired →
        ∃ t, exec (.rplrepKill func f v) s = .next t ∧ (launchOf t k).fate = 0x07)) ∧
   (∀ (s : State) (f func : Nat) (v : Word), running s = true →
      (func ≤ s.pcie.numVfs → func = 0 ∨ func = f → s.recs = [] →
        exec (.recordHeadWrite func f false v) s = .next (setFunc s f { getFunc s f with fhead := v }) ∧
        exec (.recordHeadWrite func f true v) s = .next (setFunc s f { getFunc s f with rhead := v })) ∧
      (∀ r, func ≤ s.pcie.numVfs → func = 0 ∨ func = f → s.recs = [r] → r.func = f → r.held = none → (getFunc s f).ftail - v ≠ 64#32 →
        (recPlace s f ((getFunc s f).recbase.toNat / 4096 * 4096 + 64 * ((getFunc s f).ftail.toNat % 64))).isSome →
        ∃ t, exec (.recordHeadWrite func f false v) s = .next t ∧ t.recs = [] ∧ (getFunc t f).ftail = (getFunc s f).ftail + 1 ∧
          (getFunc t f).fhead = v) ∧
      (∀ i, v.getLsbD 31 = true → (v.extractLsb' 0 6).toNat = f →
        (i = .fprePreempt 0 v ∧ v.getLsbD 29 = false) ∨ (i = .fprePreemptHold 0 v ∧ v.getLsbD 29 = true) →
        ∃ t, exec i s = .next t ∧ (getFunc t f).hold = v.getLsbD 29 ∧ t.groups = s.groups ∧ t.mem = s.mem ∧
          ∀ k x, tabFind s.teams k = some x → x.place = .resident → (getLaunch s x.launch).func = f → (getLaunch s x.launch).pri < 7 →
            tabFind t.teams k = some { x with leaving := true })) ∧
   (∀ (s : State) (f : Nat) (v : Word), running s = true →
      (v.getLsbD 31 = true → (v.extractLsb' 16 6).toNat = f → s.freezer.busy = false →
        (v.extractLsb' 28 2 = 0 →
          ∃ t, exec (.freeze 0 v) s = .next t ∧ t.freezer.busy = true ∧ t.freezer.job = f ∧ t.freezer.phase = 1 ∧
            (getFunc t f).freezing = true ∧
            ∀ k x, tabFind s.teams k = some x → x.place = .resident → (getLaunch s x.launch).func = f →
              tabFind t.teams k = some { x with leaving := true }) ∧
        (v.extractLsb' 28 2 = 1 →
          ∃ t, exec (.thaw 0 v) s = .next t ∧ t.freezer.busy = true ∧ t.freezer.job = f ∧ t.freezer.phase = 2 ∧ t.teams = s.teams)) ∧
      (s.freezer.phase = 2 → funcBusy s s.freezer.job = true →
        exec .freezeThawEnd s = .next (signal { s with freezer := { s.freezer with
          busy := false, phase := 0, status := 0x05, hostFail := false, frees := none } } 0 4)) ∧
      (s.freezer.phase = 1 → allSpilled s s.freezer.job = true → s.freezer.frees = none →
        ∃ t ids, exec .freezeThawEnd s = .next t ∧ t.freezer = { s.freezer with frees := some ids } ∧ t.launches = s.launches ∧
          ∀ c, c < 192 → ∃ r, r ∈ t.rels ∧ r.core = c ∧ r.id ∈ ids) ∧
      (∀ ids, s.freezer.phase = 1 → allSpilled s s.freezer.job = true → s.freezer.frees = some ids → relsOver s ids = true →
        (freezeEnd s s.freezer.job).2 = 0 →
        ∃ t, exec .freezeThawEnd s = .next t ∧ t.freezer.busy = false ∧ t.freezer.status = 0 ∧
          ∀ lk l, tabFind s.launches lk = some l → l.func = s.freezer.job → (getLaunch t lk).frozen = some s.freezer.job) ∧
      (∃ t, exec (.functionLevelReset f) s = .next t ∧ (getFunc t f).freezing = false ∧
        ∀ lk l, (lk, l) ∈ t.launches → l.func = f → l.frozen = none)) ∧
   (∀ (s : State) (v : DWord) (i j : Instr) (k n : Nat) (x : Team), running s = true → v.getLsbD 63 = true →
      (i = .stopLaunch 0 v ∧ j = .resumeLaunch 0 v ∧ n = 0) ∨ (i = .stopTeam 0 v ∧ j = .resumeTeam 0 v ∧ n = 1) ∨
        (i = .stopThread 0 v ∧ j = .resumeThread 0 v ∧ n = 2) →
      tabFind s.teams k = some x → (getLaunch s x.launch).label = s.freezer.slabel → n = 0 ∨ x.task = (v.extractLsb' 0 32).toNat →
      let kind := fun (old : DWord) => (if v.extractLsb' 61 2 = 3 then old.extractLsb' 61 2 else v.extractLsb' 61 2).toNat
      (kind s.freezer.stop = n → x.place = .resident → x.stopped = false →
        ∃ t, exec i s = .next t ∧ (getTeam t k).stopped = true ∧ (getTeam t k).leaving = true ∧
          (getTeam t k).stopTid = some (if n = 2 then s.freezer.stid.toNat else 0) ∧
          (n = 0 → ∀ lk l, tabFind s.launches lk = some l → l.label = s.freezer.slabel → l.stage = .accepted →
            (getLaunch t lk).held = true)) ∧
      (kind s.freezer.rsm = n → ∃ t, exec j s = .next t ∧ getTeam t k = { x with stopped := false } ∧
        (n = 0 → ∀ lk l, tabFind s.launches lk = some l → l.label = s.freezer.slabel → (getLaunch t lk).held = false)))

/-! ## Observation, bring-up -/

/-- CNTCLR zeroes every counter (R417); a histogram export is requested by REQ or by its period, and once the sink has room it zeroes the
bins, moves HSTAIL and signals vector 3 of the physical function (R420, R421); the last pass of a replay ends it, an earlier one begins the
next (R423, R424). That the pass after pass p loads EVSEL from RPLEV number p, so that pass 1 has RPLEV0, is read from the rules (log entry
48). -/
def Obligations.ObservationEvents : Prop :=
  ∀ (s : State) (v : Word), running s = true →
    (v.getLsbD 0 = true → ∃ t, exec (.counterClear 0 v) s = .next t ∧ (∀ c n, counterOf t c n = 0) ∧ t.groups = s.groups) ∧
    (v.getLsbD 30 = true → ∃ t, exec (.histogramExportReq 0 v) s = .next t ∧ t.obs.hreq = true ∧ t.obs.hctl = v &&& 0xBFFFFFFF#32) ∧
    (s.obs.hctl.extractLsb' 0 20 ≠ 0 → exec .histogramExportPeriod s = .next { s with obs := { s.obs with hreq := true } }) ∧
    (s.obs.hreq = true → (s.obs.hstail - s.obs.hshead).toNat < s.obs.hslen.toNat →
      ∃ t, exec .histogramExportWrite s = .next t ∧ t.obs.hreq = false ∧ t.obs.bins = [] ∧ t.obs.hstail = s.obs.hstail + 1 ∧
        t.pcie.irqs = s.pcie.irqs ++ [(0, 3)]) ∧
    (∀ lk, s.obs.rlaunch = some lk → gridDone s lk = true → 4096 * s.obs.rpages.length ≤ s.obs.rplslen.toNat →
      (s.obs.rnpass ≤ s.obs.rpass → s.recs = [] → fatalFull s (getLaunch s lk).func = false →
        ∃ t, exec .replayPassEnd s = .next t ∧ t.obs.rlaunch = none ∧ t.obs.rplstat.getLsbD 0 = true ∧ tabFind t.launches lk = none) ∧
      (∀ r, s.obs.rpass < s.obs.rnpass → s.obs.rrec = some r →
        ∃ t, exec .replayPassEnd s = .next t ∧ t.obs.rlaunch = some lk ∧ t.obs.rpass = s.obs.rpass + 1 ∧ getLaunch t lk = r ∧
          t.obs.evsel = tabGet 0 s.obs.rplev s.obs.rpass))

/-- Bring-up: the selected slot runs if it verifies, and every power region then wakes by its rule (R94; that all of them are off and
wait for their wake when the boot ROM has verified an image is the model's choice, log entry 105); else the other, else the safe state;
steps follow one another when they are done. The self-test judges its items and keeps their results: with all of them passed the next
step begins, else the safe state names the first unit that failed; a phase that does not work fails its regulator's item (what else an
item depends on is free, log entry 55). A released processor's heartbeat is noted, and the third reset by the watchdog since power-up
leads to the safe state (R427 to R431, R434). The mailbox: a GO of an OP starts its command when none runs, and the command ends with its
result, BUSY clear and vector 5; SELECT picks the slot, STAGE writes the other slot, its pieces one after another (the model's choice, log
entry 57), REBOOT and device reset start again from the ROM; that they keep flash, fuses and host memory and nothing else of the device is
the model's choice (log entry 59) (R428, R429, R432, R433). -/
def Obligations.AnchorSteps : Prop :=
   (∀ (s : State) (p : Proc), let a := s.anchor
      (a.state = 0 → slotHolds s a.sel = true →
        ∃ t, exec .bootVerify s = .next t ∧ t.anchor.state = 2 ∧ t.anchor.step = 0 ∧ t.anchor.slot = a.sel ∧
          t.anchor.minSvn = max a.minSvn (Config.headSvn (slotHead s a.sel)).toNat ∧
          ∀ r, r < 384 → (getRegion t r).gated = true ∧ (getRegion t r).want = true ∧ (getRegion t r).stage = 0) ∧
      (a.state = 0 → slotHolds s a.sel = false → exec .bootVerify s = .next { s with anchor := { a with state := 1 } }) ∧
      (a.state = 1 → slotHolds s (1 - a.sel) = true →
        ∃ t, exec .bootVerify s = .next t ∧ t.anchor.state = 2 ∧ t.anchor.step = 0 ∧ t.anchor.slot = 1 - a.sel) ∧
      (a.state = 1 → slotHolds s (1 - a.sel) = false →
        ∃ t, exec .bootVerify s = .next t ∧ safeState t = true ∧ t.pcie.bar4 = 0 ∧ t.teams = [] ∧ t.launches = [] ∧
          (a.funit = 0 → t.anchor.funit = 1)) ∧
      (a.state = 2 ∨ a.state = 3 → a.step = 1 →
        ∃ t, exec .bootReleaseStep s = .next t ∧ t.anchor.tests = (List.range 5).map (fun k => testItem s (k + 2)) ∧
          ((∀ k, k < 5 → testItem s (k + 2) = true) → t.anchor.step = 2 ∧ t.anchor.state = 2) ∧
          ∀ k, k < 5 → testItem s (k + 2) = false → (∀ j, j < k → testItem s (j + 2) = true) →
            safeState t = true ∧ (a.funit = 0 → t.anchor.funit = k + 2)) ∧
      (∀ r, r < 384 → (getRegion s r).phok ≠ 0xF → testItem s 4 = false) ∧
      (a.state = 2 ∨ a.state = 3 → a.step < 7 → a.step ≠ 1 → stepDone s = true →
        ∃ t, exec .bootReleaseStep s = .next t ∧ t.anchor.step = a.step + 1 ∧
          t.anchor.state = (if a.step = 0 then 3 else if a.step = 6 then 4 else 2)) ∧
      (released s p = true → p ∉ a.ready → exec (.heartbeat p) s = .next { s with anchor := { a with ready := p :: a.ready } }) ∧
      (released s p = true →
        (2 ≤ a.resets → ∃ t, exec (.watchdogExpiry p) s = .next t ∧ safeState t = true ∧ (a.funit = 0 → t.anchor.funit = 7)) ∧
        (a.resets < 2 → ∃ t, exec (.watchdogExpiry p) s = .next t ∧ t.anchor.resets = a.resets + 1 ∧ t.anchor.state = a.state ∧
          (p = .management → ∀ lk l, (lk, l) ∈ t.launches → l.stage ≠ .retired → l.fate ≠ 0)))) ∧
   (∀ (s : State) (v : Word), v.getLsbD 31 = true → s.anchor.mbbusy = false → let a := s.anchor
      (∀ i n, (i = .mbAttest 0 v ∧ n = 1) ∨ (i = .mbReadlog 0 v ∧ n = 2) ∨ (i = .mbSelect 0 v ∧ n = 4) ∨ (i = .mbStage 0 v ∧ n = 5) →
        v.extractLsb' 0 8 = BitVec.ofNat 8 n →
        ∃ t, exec i s = .next t ∧ t.anchor.mbbusy = true ∧ t.anchor.mbop = BitVec.ofNat 8 n ∧ t.teams = s.teams ∧ t.mem = s.mem ∧
          (n = 1 → a.state < 4 → t.anchor.mbnext = 1) ∧
          (n = 4 → (memRead a.mbdata 0).toNat < 2 → t.anchor.sel = (memRead a.mbdata 0).toNat ∧ t.anchor.mbnext = 0) ∧
          (n = 4 → 2 ≤ (memRead a.mbdata 0).toNat → t.anchor.sel = a.sel ∧ t.anchor.mbnext = 2) ∧
          (n = 5 → ∀ j, j < 65536 → memRead t.anchor.flash (2 ^ 40 * (1 - a.slot) + a.stageOff + j) = memRead a.mbdata j)) ∧
      (∀ i, i = .deviceReset ∨ (i = .mbReboot 0 v ∧ v.extractLsb' 0 8 = 3) →
        ∃ t, exec i s = .next t ∧ t.anchor.state = 0 ∧ t.anchor.flash = a.flash ∧ t.anchor.sel = a.sel ∧ t.anchor.minSvn = a.minSvn ∧
          t.groups = [] ∧ t.teams = [] ∧ t.launches = [] ∧ t.queues = [] ∧ t.supply = State.reset.supply ∧
          ∀ x, hostBacked x = true → (x, memRead s.mem x) ∈ s.mem → (x, memRead s.mem x) ∈ t.mem) ∧
      (∀ u : State, u.anchor.mbbusy = true →
        ∃ t, exec .mailboxDone u = .next t ∧ t.anchor.mbbusy = false ∧ t.anchor.mbres = u.anchor.mbnext ∧
          t.pcie.irqs = u.pcie.irqs ++ [(0, 5)]))
end

