-- ==== Sys2Proof/Laws/Exec.lean ====
section
/-! SUPPORT. The meaning that `exec` gives each constructor, one equation per arm. -/

namespace Sys2Proof.Machine

variable (s : State)

@[simp] theorem exec_iadd (h : Hdr) (ty : IntTy) (sat : Bool) (d a b : Spec) : exec (.iadd h ty sat d a b) s = execIadd h ty sat d a b s := rfl
@[simp] theorem exec_isub (h : Hdr) (ty : IntTy) (sat : Bool) (d a b : Spec) : exec (.isub h ty sat d a b) s = execIsub h ty sat d a b s := rfl
@[simp] theorem exec_imul (h : Hdr) (ty : IntTy) (sat : Bool) (d a b : Spec) : exec (.imul h ty sat d a b) s = execImul h ty sat d a b s := rfl
@[simp] theorem exec_imulh (h : Hdr) (ty : IntTy) (d a b : Spec) : exec (.imulh h ty d a b) s = execImulh h ty d a b s := rfl
@[simp] theorem exec_imac (h : Hdr) (ty : IntTy) (sat : Bool) (d a b c : Spec) : exec (.imac h ty sat d a b c) s = execImac h ty sat d a b c s := rfl
@[simp] theorem exec_imin (h : Hdr) (ty : IntTy) (d a b : Spec) : exec (.imin h ty d a b) s = execImin h ty d a b s := rfl
@[simp] theorem exec_imax (h : Hdr) (ty : IntTy) (d a b : Spec) : exec (.imax h ty d a b) s = execImax h ty d a b s := rfl
@[simp] theorem exec_iabs (h : Hdr) (ty : IntTy) (sat : Bool) (d a : Spec) : exec (.iabs h ty sat d a) s = execIabs h ty sat d a s := rfl
@[simp] theorem exec_ineg (h : Hdr) (ty : IntTy) (sat : Bool) (d a : Spec) : exec (.ineg h ty sat d a) s = execIneg h ty sat d a s := rfl
@[simp] theorem exec_and (h : Hdr) (ty : IntTy) (d a b : Spec) : exec (.and h ty d a b) s = execAnd h ty d a b s := rfl
@[simp] theorem exec_or (h : Hdr) (ty : IntTy) (d a b : Spec) : exec (.or h ty d a b) s = execOr h ty d a b s := rfl
@[simp] theorem exec_xor (h : Hdr) (ty : IntTy) (d a b : Spec) : exec (.xor h ty d a b) s = execXor h ty d a b s := rfl
@[simp] theorem exec_andn (h : Hdr) (ty : IntTy) (d a b : Spec) : exec (.andn h ty d a b) s = execAndn h ty d a b s := rfl
@[simp] theorem exec_not (h : Hdr) (ty : IntTy) (d a : Spec) : exec (.not h ty d a) s = execNot h ty d a s := rfl
@[simp] theorem exec_shl (h : Hdr) (ty : IntTy) (d a b : Spec) : exec (.shl h ty d a b) s = execShl h ty d a b s := rfl
@[simp] theorem exec_shr (h : Hdr) (ty : IntTy) (d a b : Spec) : exec (.shr h ty d a b) s = execShr h ty d a b s := rfl
@[simp] theorem exec_sar (h : Hdr) (ty : IntTy) (d a b : Spec) : exec (.sar h ty d a b) s = execSar h ty d a b s := rfl
@[simp] theorem exec_bfe (h : Hdr) (ty : IntTy) (d a b : Spec) : exec (.bfe h ty d a b) s = execBfe h ty d a b s := rfl
@[simp] theorem exec_bfi (h : Hdr) (ty : IntTy) (d a b : Spec) : exec (.bfi h ty d a b) s = execBfi h ty d a b s := rfl
@[simp] theorem exec_popc (h : Hdr) (ty : IntTy) (d a : Spec) : exec (.popc h ty d a) s = execPopc h ty d a s := rfl
@[simp] theorem exec_clz (h : Hdr) (ty : IntTy) (d a : Spec) : exec (.clz h ty d a) s = execClz h ty d a s := rfl
@[simp] theorem exec_brev (h : Hdr) (ty : IntTy) (d a : Spec) : exec (.brev h ty d a) s = execBrev h ty d a s := rfl
@[simp] theorem exec_lea (h : Hdr) (signed : Bool) (sh : BitVec 3) (d a b : Spec) : exec (.lea h signed sh d a b) s = execLea h signed sh d a b s := rfl
@[simp] theorem exec_icmp (h : Hdr) (cmp : Cmp) (ty : IntTy) (pd : BitVec 4) (a b : Spec) : exec (.icmp h cmp ty pd a b) s = execIcmp h cmp ty pd a b s := rfl
@[simp] theorem exec_isel (h : Hdr) (ty : IntTy) (psel : BitVec 4) (d a b : Spec) : exec (.isel h ty psel d a b) s = execIsel h ty psel d a b s := rfl
@[simp] theorem exec_igcd (h : Hdr) (ty : IntTy) (d a b : Spec) : exec (.igcd h ty d a b) s = execIgcd h ty d a b s := rfl
@[simp] theorem exec_mov (h : Hdr) (ty : IntTy) (d a : Spec) : exec (.mov h ty d a) s = execMov h ty d a s := rfl
@[simp] theorem exec_movi (h : Hdr) (ty : IntTy) (d : Spec) (val : Word) : exec (.movi h ty d val) s = execMovi h ty d val s := rfl
@[simp] theorem exec_moviHi (h : Hdr) (d : Spec) (val : Word) : exec (.moviHi h d val) s = execMoviHi h d val s := rfl
@[simp] theorem exec_pand (h : Hdr) (na nb : Bool) (pd pa pb : BitVec 4) : exec (.pand h na nb pd pa pb) s = execPand h na nb pd pa pb s := rfl
@[simp] theorem exec_por (h : Hdr) (na nb : Bool) (pd pa pb : BitVec 4) : exec (.por h na nb pd pa pb) s = execPor h na nb pd pa pb s := rfl
@[simp] theorem exec_pxor (h : Hdr) (na nb : Bool) (pd pa pb : BitVec 4) : exec (.pxor h na nb pd pa pb) s = execPxor h na nb pd pa pb s := rfl
@[simp] theorem exec_pnot (h : Hdr) (pd pa : BitVec 4) : exec (.pnot h pd pa) s = execPnot h pd pa s := rfl
@[simp] theorem exec_pmov (h : Hdr) (pd pa : BitVec 4) : exec (.pmov h pd pa) s = execPmov h pd pa s := rfl
@[simp] theorem exec_xset (h : Hdr) (xd : BitVec 3) (a : Spec) : exec (.xset h xd a) s = execXset h xd a s := rfl
@[simp] theorem exec_xget (h : Hdr) (d : Spec) (xa : BitVec 3) : exec (.xget h d xa) s = execXget h d xa s := rfl
@[simp] theorem exec_xstep (h : Hdr) (xd : BitVec 3) (a : Spec) : exec (.xstep h xd a) s = execXstep h xd a s := rfl
@[simp] theorem exec_xmov (h : Hdr) (xd xa : BitVec 3) : exec (.xmov h xd xa) s = execXmov h xd xa s := rfl
@[simp] theorem exec_shfl (h : Hdr) (mode : ShflMode) (ty : IntTy) (wrel : Bool) (d a b : Spec) : exec (.shfl h mode ty wrel d a b) s = execShfl h mode ty wrel d a b s := rfl
@[simp] theorem exec_bcast (h : Hdr) (ty : IntTy) (d a : Spec) : exec (.bcast h ty d a) s = execBcast h ty d a s := rfl
@[simp] theorem exec_vote (h : Hdr) (mode : VoteMode) (d : Spec) (pa : BitVec 4) : exec (.vote h mode d pa) s = execVote h mode d pa s := rfl
@[simp] theorem exec_redx (h : Hdr) (op : RedOp) (ty : Ty) (rnd : Rnd) (d a : Spec) : exec (.redx h op ty rnd d a) s = execRedx h op ty rnd d a s := rfl
@[simp] theorem exec_scanx (h : Hdr) (op : RedOp) (ty : Ty) (rnd : Rnd) (d a : Spec) : exec (.scanx h op ty rnd d a) s = execScanx h op ty rnd d a s := rfl
@[simp] theorem exec_lanerd (h : Hdr) (ty : IntTy) (d a b : Spec) : exec (.lanerd h ty d a b) s = execLanerd h ty d a b s := rfl
@[simp] theorem exec_bra (h : Hdr) (ofs : BitVec 24) : exec (.bra h ofs) s = execBra h ofs s := rfl
@[simp] theorem exec_brx (h : Hdr) (a : Spec) : exec (.brx h a) s = execBrx h a s := rfl
@[simp] theorem exec_call (h : Hdr) (d : Spec) (ofs : BitVec 24) : exec (.call h d ofs) s = execCall h d ofs s := rfl
@[simp] theorem exec_ret (h : Hdr) (a : Spec) : exec (.ret h a) s = execRet h a s := rfl
@[simp] theorem exec_enrol (h : Hdr) (j : BitVec 3) (ofs : BitVec 24) : exec (.enrol h j ofs) s = execEnrol h j ofs s := rfl
@[simp] theorem exec_rejoin (h : Hdr) (j : BitVec 3) : exec (.rejoin h j) s = execRejoin h j s := rfl
@[simp] theorem exec_loop (h : Hdr) (c : Spec) (ofs : BitVec 24) : exec (.loop h c ofs) s = execLoop h c ofs s := rfl
@[simp] theorem exec_exit (h : Hdr) : exec (.exit h) s = execExit h s := rfl
@[simp] theorem exec_yield (h : Hdr) : exec (.yield h) s = execYield h s := rfl
@[simp] theorem exec_nop (h : Hdr) : exec (.nop h) s = execNop h s := rfl
@[simp] theorem exec_trap (h : Hdr) (code : BitVec 8) : exec (.trap h code) s = execTrap h code s := rfl
@[simp] theorem exec_bkpt (h : Hdr) (code : BitVec 8) : exec (.bkpt h code) s = execBkpt h code s := rfl
@[simp] theorem exec_fadd (h : Hdr) (ty : FTy) (rnd : Rnd) (sat : Bool) (d a b : Spec) : exec (.fadd h ty rnd sat d a b) s = execFadd h ty rnd sat d a b s := rfl
@[simp] theorem exec_fsub (h : Hdr) (ty : FTy) (rnd : Rnd) (sat : Bool) (d a b : Spec) : exec (.fsub h ty rnd sat d a b) s = execFsub h ty rnd sat d a b s := rfl
@[simp] theorem exec_fmul (h : Hdr) (ty : FTy) (rnd : Rnd) (sat : Bool) (d a b : Spec) : exec (.fmul h ty rnd sat d a b) s = execFmul h ty rnd sat d a b s := rfl
@[simp] theorem exec_fmac (h : Hdr) (ty : FTy) (rnd : Rnd) (sat : Bool) (d a b c : Spec) : exec (.fmac h ty rnd sat d a b c) s = execFmac h ty rnd sat d a b c s := rfl
@[simp] theorem exec_fmin (h : Hdr) (ty : FTy) (d a b : Spec) : exec (.fmin h ty d a b) s = execFmin h ty d a b s := rfl
@[simp] theorem exec_fmax (h : Hdr) (ty : FTy) (d a b : Spec) : exec (.fmax h ty d a b) s = execFmax h ty d a b s := rfl
@[simp] theorem exec_fabs (h : Hdr) (ty : FTy) (d a : Spec) : exec (.fabs h ty d a) s = execFabs h ty d a s := rfl
@[simp] theorem exec_fneg (h : Hdr) (ty : FTy) (d a : Spec) : exec (.fneg h ty d a) s = execFneg h ty d a s := rfl
@[simp] theorem exec_fcmp (h : Hdr) (cmp : Cmp) (ty : FTy) (un : Bool) (pd : BitVec 4) (a b : Spec) : exec (.fcmp h cmp ty un pd a b) s = execFcmp h cmp ty un pd a b s := rfl
@[simp] theorem exec_frnd (h : Hdr) (ty : FTy) (rnd : Rnd) (d a : Spec) : exec (.frnd h ty rnd d a) s = execFrnd h ty rnd d a s := rfl
@[simp] theorem exec_fclass (h : Hdr) (ty : FTy) (d a : Spec) : exec (.fclass h ty d a) s = execFclass h ty d a s := rfl
@[simp] theorem exec_fdiv (h : Hdr) (ty : FTy) (rnd : Rnd) (sat : Bool) (d a b : Spec) : exec (.fdiv h ty rnd sat d a b) s = execFdiv h ty rnd sat d a b s := rfl
@[simp] theorem exec_fsqrt (h : Hdr) (ty : FTy) (rnd : Rnd) (d a : Spec) : exec (.fsqrt h ty rnd d a) s = execFsqrt h ty rnd d a s := rfl
@[simp] theorem exec_cvt (h : Hdr) (dty sty : Ty) (rnd : Rnd) (sat : Bool) (del sel : BitVec 3) (d a : Spec) : exec (.cvt h dty sty rnd sat del sel d a) s = execCvt h dty sty rnd sat del sel d a s := rfl
@[simp] theorem exec_qmake (h : Hdr) (ty : IntTy) (rnd : Rnd) (d a b : Spec) : exec (.qmake h ty rnd d a b) s = execQmake h ty rnd d a b s := rfl
@[simp] theorem exec_qnum (h : Hdr) (w64 : Bool) (d a : Spec) : exec (.qnum h w64 d a) s = execQnum h w64 d a s := rfl
@[simp] theorem exec_qden (h : Hdr) (w64 : Bool) (d a : Spec) : exec (.qden h w64 d a) s = execQden h w64 d a s := rfl
@[simp] theorem exec_qmed (h : Hdr) (rnd : Rnd) (d a b : Spec) : exec (.qmed h rnd d a b) s = execQmed h rnd d a b s := rfl
@[simp] theorem exec_sfq (h : Hdr) (fn : SfqFn) (ty : FTy) (d a sk : Spec) : exec (.sfq h fn ty d a sk) s = execSfq h fn ty d a sk s := rfl
@[simp] theorem exec_sfw (h : Hdr) (m : Spec) : exec (.sfw h m) s = execSfw h m s := rfl
@[simp] theorem exec_sft (h : Hdr) (d m : Spec) : exec (.sft h d m) s = execSft h d m s := rfl
@[simp] theorem exec_ld (h : Hdr) (ty : Ty) (scope : Scope) (count : Count) (d a b : Spec) (imm : BitVec 24) : exec (.ld h ty scope count d a b imm) s = execLd h ty scope count d a b imm s := rfl
@[simp] theorem exec_st (h : Hdr) (ty : Ty) (scope : Scope) (count : Count) (d a b : Spec) (imm : BitVec 24) : exec (.st h ty scope count d a b imm) s = execSt h ty scope count d a b imm s := rfl
@[simp] theorem exec_ldk (h : Hdr) (ty : Ty) (count : Count) (d a b : Spec) (imm : BitVec 24) : exec (.ldk h ty count d a b imm) s = execLdk h ty count d a b imm s := rfl
@[simp] theorem exec_ldsc (h : Hdr) (ty : Ty) (scope : Scope) (count : Count) (d a b : Spec) (imm : BitVec 24) : exec (.ldsc h ty scope count d a b imm) s = execLdsc h ty scope count d a b imm s := rfl
@[simp] theorem exec_pfx (h : Hdr) (scope : Scope) (a b : Spec) (imm : BitVec 24) : exec (.pfx h scope a b imm) s = execPfx h scope a b imm s := rfl
@[simp] theorem exec_atom (h : Hdr) (op : AtomOp) (ty : Ty) (scope : Scope) (d a b : Spec) (imm : BitVec 24) : exec (.atom h op ty scope d a b imm) s = execAtom h op ty scope d a b imm s := rfl
@[simp] theorem exec_atomCas (h : Hdr) (ty : Ty) (scope : Scope) (d a b c : Spec) (imm : BitVec 24) : exec (.atomCas h ty scope d a b c imm) s = execAtomCas h ty scope d a b c imm s := rfl
@[simp] theorem exec_atoma (h : Hdr) (op : AtomOp) (ty : Ty) (scope : Scope) (d a b : Spec) (imm : BitVec 24) : exec (.atoma h op ty scope d a b imm) s = execAtoma h op ty scope d a b imm s := rfl
@[simp] theorem exec_red (h : Hdr) (op : AtomOp) (ty : Ty) (scope : Scope) (a b : Spec) (imm : BitVec 24) : exec (.red h op ty scope a b imm) s = execRed h op ty scope a b imm s := rfl
@[simp] theorem exec_xcopy (h : Hdr) (lay : BitVec 3) (d a len tag : Spec) : exec (.xcopy h lay d a len tag) s = execXcopy h lay d a len tag s := rfl
@[simp] theorem exec_xcopyCrc (h : Hdr) (lay : BitVec 3) (d a len tag out : Spec) (cont : Bool) (ptag : BitVec 6) : exec (.xcopyCrc h lay d a len tag out cont ptag) s = execXcopyCrc h lay d a len tag out cont ptag s := rfl
@[simp] theorem exec_xcopyChk (h : Hdr) (lay : BitVec 3) (d a len tag exp : Spec) (cont : Bool) (ptag : BitVec 6) : exec (.xcopyChk h lay d a len tag exp cont ptag) s = execXcopyChk h lay d a len tag exp cont ptag s := rfl
@[simp] theorem exec_xwaita (h : Hdr) (m : Spec) : exec (.xwaita h m) s = execXwaita h m s := rfl
@[simp] theorem exec_xwaitl (h : Hdr) (m : Spec) : exec (.xwaitl h m) s = execXwaitl h m s := rfl
@[simp] theorem exec_xfind (h : Hdr) (d m : Spec) : exec (.xfind h d m) s = execXfind h d m s := rfl
@[simp] theorem exec_xform (h : Hdr) (d a r bo : Spec) : exec (.xform h d a r bo) s = execXform h d a r bo s := rfl
@[simp] theorem exec_xformDec (h : Hdr) (d a r bo : Spec) : exec (.xformDec h d a r bo) s = execXformDec h d a r bo s := rfl
@[simp] theorem exec_fenceOpnd (h : Hdr) : exec (.fenceOpnd h) s = execFenceOpnd h s := rfl
@[simp] theorem exec_tmap (h : Hdr) (fmt : Ty) (swz : BitVec 3) (smode src : BitVec 2) (td : BitVec 4) (base shape stride sptr : Spec) : exec (.tmap h fmt swz smode src td base shape stride sptr) s = execTmap h fmt swz smode src td base shape stride sptr s := rfl
@[simp] theorem exec_tmset (h : Hdr) (fld : TmField) (td : BitVec 4) (a : Spec) : exec (.tmset h fld td a) s = execTmset h fld td a s := rfl
@[simp] theorem exec_accz (h : Hdr) (ad : BitVec 6) : exec (.accz h ad) s = execAccz h ad s := rfl
@[simp] theorem exec_accld (h : Hdr) (ad : BitVec 6) (tm : BitVec 4) (org : Spec) : exec (.accld h ad tm org) s = execAccld h ad tm org s := rfl
@[simp] theorem exec_accst (h : Hdr) (rnd : Rnd) (sat : Bool) (tm : BitVec 4) (ad : BitVec 6) (org : Spec) : exec (.accst h rnd sat tm ad org) s = execAccst h rnd sat tm ad org s := rfl
@[simp] theorem exec_accrd (h : Hdr) (ty : Ty) (rnd : Rnd) (sat : Bool) (d : Spec) (ad : BitVec 6) (e : Spec) : exec (.accrd h ty rnd sat d ad e) s = execAccrd h ty rnd sat d ad e s := rfl
@[simp] theorem exec_accwr (h : Hdr) (ty : Ty) (ad : BitVec 6) (a e : Spec) : exec (.accwr h ty ad a e) s = execAccwr h ty ad a e s := rfl
@[simp] theorem exec_mmaQuad (h : Hdr) (flt : Bool) (ad : BitVec 6) (ta tb : BitVec 4) (org : Spec) (klen : BitVec 13) : exec (.mmaQuad h flt ad ta tb org klen) s = execMmaQuad h flt ad ta tb org klen s := rfl
@[simp] theorem exec_mmaWide (h : Hdr) (flt : Bool) (ad : BitVec 6) (ta tb : BitVec 4) (kc : BitVec 3) (org : Spec) (klen : BitVec 13) : exec (.mmaWide h flt ad ta tb kc org klen) s = execMmaWide h flt ad ta tb kc org klen s := rfl
@[simp] theorem exec_mmaSquare (h : Hdr) (flt : Bool) (ad : BitVec 6) (ta tb : BitVec 4) (kc : BitVec 3) (org : Spec) (klen : BitVec 13) : exec (.mmaSquare h flt ad ta tb kc org klen) s = execMmaSquare h flt ad ta tb kc org klen s := rfl
@[simp] theorem exec_mmaTall (h : Hdr) (flt : Bool) (ad : BitVec 6) (ta tb : BitVec 4) (kc : BitVec 3) (org : Spec) (klen : BitVec 13) : exec (.mmaTall h flt ad ta tb kc org klen) s = execMmaTall h flt ad ta tb kc org klen s := rfl
@[simp] theorem exec_cdecl (h : Hdr) (kd : BitVec 3) (grp slices : Spec) : exec (.cdecl h kd grp slices) s = execCdecl h kd grp slices s := rfl
@[simp] theorem exec_job (h : Hdr) (card bo : Spec) : exec (.job h card bo) s = execJob h card bo s := rfl
@[simp] theorem exec_bar (h : Hdr) (n : Spec) : exec (.bar h n) s = execBar h n s := rfl
@[simp] theorem exec_boinit (h : Hdr) (bo count : Spec) : exec (.boinit h bo count) s = execBoinit h bo count s := rfl
@[simp] theorem exec_boarr (h : Hdr) (d bo k : Spec) : exec (.boarr h d bo k) s = execBoarr h d bo k s := rfl
@[simp] theorem exec_bowait (h : Hdr) (bo g : Spec) : exec (.bowait h bo g) s = execBowait h bo g s := rfl
@[simp] theorem exec_botest (h : Hdr) (pd : BitVec 4) (bo g : Spec) : exec (.botest h pd bo g) s = execBotest h pd bo g s := rfl
@[simp] theorem exec_fence (h : Hdr) (scope : Scope) : exec (.fence h scope) s = execFence h scope s := rfl
@[simp] theorem exec_phrel (h : Hdr) (scope : Scope) : exec (.phrel h scope) s = execPhrel h scope s := rfl
@[simp] theorem exec_phacq (h : Hdr) (scope : Scope) : exec (.phacq h scope) s = execPhacq h scope s := rfl
@[simp] theorem exec_phsync (h : Hdr) (scope : Scope) : exec (.phsync h scope) s = execPhsync h scope s := rfl
@[simp] theorem exec_launch (h : Hdr) (a : Spec) : exec (.launch h a) s = execLaunch h a s := rfl
@[simp] theorem exec_graphrun (h : Hdr) (g n : Spec) : exec (.graphrun h g n) s = execGraphrun h g n s := rfl
@[simp] theorem exec_ldone (h : Hdr) : exec (.ldone h) s = execLdone h s := rfl
@[simp] theorem exec_tollrd (h : Hdr) (sel : TollSel) (d : Spec) : exec (.tollrd h sel d) s = execTollrd h sel d s := rfl
@[simp] theorem exec_tollset (h : Hdr) (abs : Bool) (a : Spec) : exec (.tollset h abs a) s = execTollset h abs a s := rfl
@[simp] theorem exec_tollrel (h : Hdr) : exec (.tollrel h) s = execTollrel h s := rfl
@[simp] theorem exec_srd (h : Hdr) (srn : BitVec 10) (d : Spec) : exec (.srd h srn d) s = execSrd h srn d s := rfl
@[simp] theorem exec_swr (h : Hdr) (srn : BitVec 10) (a : Spec) : exec (.swr h srn a) s = execSwr h srn a s := rfl
@[simp] theorem exec_cclr (h : Hdr) (m : Spec) : exec (.cclr h m) s = execCclr h m s := rfl
@[simp] theorem exec_tret (h : Hdr) : exec (.tret h) s = execTret h s := rfl
@[simp] theorem exec_pmark (h : Hdr) (a : Spec) : exec (.pmark h a) s = execPmark h a s := rfl
@[simp] theorem exec_cntrd (h : Hdr) (d n : Spec) : exec (.cntrd h d n) s = execCntrd h d n s := rfl
@[simp] theorem exec_smpl (h : Hdr) (a : Spec) : exec (.smpl h a) s = execSmpl h a s := rfl
@[simp] theorem exec_hintWord (mark wide : Bool) : exec (.hintWord mark wide) s = execHintWord mark wide s := rfl
@[simp] theorem exec_pairWord (mark : Bool) (h0 h1 : Half) : exec (.pairWord mark h0 h1) s = execPairWord mark h0 h1 s := rfl
@[simp] theorem exec_longResultWrite (at' seq : Nat) : exec (.longResultWrite at' seq) s = execLongResultWrite at' seq s := rfl
@[simp] theorem exec_groupSwap (core slice : Nat) : exec (.groupSwap core slice) s = execGroupSwap core slice s := rfl
@[simp] theorem exec_pendingPromote (core slice : Nat) : exec (.pendingPromote core slice) s = execPendingPromote core slice s := rfl
@[simp] theorem exec_sfqEntryComplete (at' seq : Nat) : exec (.sfqEntryComplete at' seq) s = execSfqEntryComplete at' seq s := rfl
@[simp] theorem exec_qtailWrite (func q : Nat) (v : BitVec 32) : exec (.qtailWrite func q v) s = execQtailWrite func q v s := rfl
@[simp] theorem exec_queueReset (func q : Nat) (v : BitVec 32) : exec (.queueReset func q v) s = execQueueReset func q v s := rfl
@[simp] theorem exec_queueEnable (func q : Nat) (v : BitVec 32) : exec (.queueEnable func q v) s = execQueueEnable func q v s := rfl
@[simp] theorem exec_ownershipWrite (func : Nat) (xing : Bool) (n : Nat) (v : BitVec 32) : exec (.ownershipWrite func xing n v) s = execOwnershipWrite func xing n v s := rfl
@[simp] theorem exec_crossingBind (func x : Nat) (v : BitVec 32) : exec (.crossingBind func x v) s = execCrossingBind func x v s := rfl
@[simp] theorem exec_packetNop (q : Nat) : exec (.packetNop q) s = execPacketNop q s := rfl
@[simp] theorem exec_packetLaunch (q : Nat) : exec (.packetLaunch q) s = execPacketLaunch q s := rfl
@[simp] theorem exec_packetSignal (q : Nat) : exec (.packetSignal q) s = execPacketSignal q s := rfl
@[simp] theorem exec_packetWait (q : Nat) : exec (.packetWait q) s = execPacketWait q s := rfl
@[simp] theorem exec_waitSatisfied (q : Nat) : exec (.waitSatisfied q) s = execWaitSatisfied q s := rfl
@[simp] theorem exec_packetGraph (q : Nat) : exec (.packetGraph q) s = execPacketGraph q s := rfl
@[simp] theorem exec_packetGload (q : Nat) : exec (.packetGload q) s = execPacketGload q s := rfl
@[simp] theorem exec_packetMark (q : Nat) : exec (.packetMark q) s = execPacketMark q s := rfl
@[simp] theorem exec_launchAccept : exec (.launchAccept) s = execLaunchAccept s := rfl
@[simp] theorem exec_gridRetire (grid : Nat) : exec (.gridRetire grid) s = execGridRetire grid s := rfl
@[simp] theorem exec_roundaboutPlace : exec (.roundaboutPlace) s = execRoundaboutPlace s := rfl
@[simp] theorem exec_teamRelease (team : Nat) : exec (.teamRelease team) s = execTeamRelease team s := rfl
@[simp] theorem exec_coreDark (core : Nat) : exec (.coreDark core) s = execCoreDark core s := rfl
@[simp] theorem exec_gtrigStore (func g : Nat) (v : DWord) : exec (.gtrigStore func g v) s = execGtrigStore func g v s := rfl
@[simp] theorem exec_graphConfigWrite (func g : Nat) (pasid : Bool) (v : DWord) : exec (.graphConfigWrite func g pasid v) s = execGraphConfigWrite func g pasid v s := rfl
@[simp] theorem exec_graphRunStart (g : Nat) : exec (.graphRunStart g) s = execGraphRunStart g s := rfl
@[simp] theorem exec_graphNodeNop (g n : Nat) : exec (.graphNodeNop g n) s = execGraphNodeNop g n s := rfl
@[simp] theorem exec_graphNodeLaunch (g n : Nat) : exec (.graphNodeLaunch g n) s = execGraphNodeLaunch g n s := rfl
@[simp] theorem exec_graphNodeMark (g n : Nat) : exec (.graphNodeMark g n) s = execGraphNodeMark g n s := rfl
@[simp] theorem exec_graphNodeCond (g n : Nat) : exec (.graphNodeCond g n) s = execGraphNodeCond g n s := rfl
@[simp] theorem exec_graphNodeLoop (g n : Nat) : exec (.graphNodeLoop g n) s = execGraphNodeLoop g n s := rfl
@[simp] theorem exec_tollTick (watts : Nat) : exec (.tollTick watts) s = execTollTick watts s := rfl
@[simp] theorem exec_kerbSample (ma mv : Nat) : exec (.kerbSample ma mv) s = execKerbSample ma mv s := rfl
@[simp] theorem exec_tollModeLoop (func : Nat) (v : BitVec 32) : exec (.tollModeLoop func v) s = execTollModeLoop func v s := rfl
@[simp] theorem exec_tollModePinned (func : Nat) (v : BitVec 32) : exec (.tollModePinned func v) s = execTollModePinned func v s := rfl
@[simp] theorem exec_tollModeScripted (func : Nat) (v : BitVec 32) : exec (.tollModeScripted func v) s = execTollModeScripted func v s := rfl
@[simp] theorem exec_sensorFault (region sensor mv : Nat) : exec (.sensorFault region sensor mv) s = execSensorFault region sensor mv s := rfl
@[simp] theorem exec_feedLoss (feed : Nat) : exec (.feedLoss feed) s = execFeedLoss feed s := rfl
@[simp] theorem exec_phaseFail (region phase : Nat) : exec (.phaseFail region phase) s = execPhaseFail region phase s := rfl
@[simp] theorem exec_regionGate (func region : Nat) : exec (.regionGate func region) s = execRegionGate func region s := rfl
@[simp] theorem exec_regionWake (func region : Nat) : exec (.regionWake func region) s = execRegionWake func region s := rfl
@[simp] theorem exec_wakeGrant (segment : Nat) : exec (.wakeGrant segment) s = execWakeGrant segment s := rfl
@[simp] theorem exec_gateStage (region : Nat) : exec (.gateStage region) s = execGateStage region s := rfl
@[simp] theorem exec_prrepWrite (func block : Nat) (v : BitVec 32) : exec (.prrepWrite func block v) s = execPrrepWrite func block v s := rfl
@[simp] theorem exec_prrepxWrite (func : Nat) (v : BitVec 32) : exec (.prrepxWrite func v) s = execPrrepxWrite func v s := rfl
@[simp] theorem exec_tinvStage1All (func block : Nat) (v : BitVec 32) : exec (.tinvStage1All func block v) s = execTinvStage1All func block v s := rfl
@[simp] theorem exec_tinvStage1Pasid (func block : Nat) (v : BitVec 32) : exec (.tinvStage1Pasid func block v) s = execTinvStage1Pasid func block v s := rfl
@[simp] theorem exec_tinvStage1Addr (func block : Nat) (v : BitVec 32) : exec (.tinvStage1Addr func block v) s = execTinvStage1Addr func block v s := rfl
@[simp] theorem exec_tinvStage2All (func block : Nat) (v : BitVec 32) : exec (.tinvStage2All func block v) s = execTinvStage2All func block v s := rfl
@[simp] theorem exec_tinvDrainDone (block : Nat) : exec (.tinvDrainDone block) s = execTinvDrainDone block s := rfl
@[simp] theorem exec_atsInvalidate (func : Nat) (addr len : Nat) : exec (.atsInvalidate func addr len) s = execAtsInvalidate func addr len s := rfl
@[simp] theorem exec_prgResponse (func page : Nat) (success : Bool) : exec (.prgResponse func page success) s = execPrgResponse func page success s := rfl
@[simp] theorem exec_hostBar4Write (off : Nat) (bytes : List Byte) : exec (.hostBar4Write off bytes) s = execHostBar4Write off bytes s := rfl
@[simp] theorem exec_hostBar4Read (off len : Nat) : exec (.hostBar4Read off len) s = execHostBar4Read off len s := rfl
@[simp] theorem exec_hostCompletion (w : HostWaiter) (st : HostStatus) : exec (.hostCompletion w st) s = execHostCompletion w st s := rfl
@[simp] theorem exec_hostCompletionTimeout (w : HostWaiter) : exec (.hostCompletionTimeout w) s = execHostCompletionTimeout w s := rfl
@[simp] theorem exec_peerInboundRequest (port src : Nat) (req : PeerReq) : exec (.peerInboundRequest port src req) s = execPeerInboundRequest port src req s := rfl
@[simp] theorem exec_flitReceive (port : Nat) (f : Flit) : exec (.flitReceive port f) s = execFlitReceive port f s := rfl
@[simp] theorem exec_vlinjWrite (func : Nat) (v : DWord) : exec (.vlinjWrite func v) s = execVlinjWrite func v s := rfl
@[simp] theorem exec_plazaResize (func : Nat) (v : BitVec 32) : exec (.plazaResize func v) s = execPlazaResize func v s := rfl
@[simp] theorem exec_plazaRangeWrite (func n : Nat) (v : BitVec 32) : exec (.plazaRangeWrite func n v) s = execPlazaRangeWrite func n v s := rfl
@[simp] theorem exec_l1Eviction (core line : Nat) : exec (.l1Eviction core line) s = execL1Eviction core line s := rfl
@[simp] theorem exec_releaseComplete (id : Nat) : exec (.releaseComplete id) s = execReleaseComplete id s := rfl
@[simp] theorem exec_acquireComplete (id : Nat) : exec (.acquireComplete id) s = execAcquireComplete id s := rfl
@[simp] theorem exec_barArrivalRecord (at' : Nat) : exec (.barArrivalRecord at') s = execBarArrivalRecord at' s := rfl
@[simp] theorem exec_engineAccept (id : Nat) : exec (.engineAccept id) s = execEngineAccept id s := rfl
@[simp] theorem exec_engineComplete (id : Nat) : exec (.engineComplete id) s = execEngineComplete id s := rfl
@[simp] theorem exec_xformComplete (id : Nat) : exec (.xformComplete id) s = execXformComplete id s := rfl
@[simp] theorem exec_mmaStep (id : Nat) : exec (.mmaStep id) s = execMmaStep id s := rfl
@[simp] theorem exec_jobOperation (id : Nat) : exec (.jobOperation id) s = execJobOperation id s := rfl
@[simp] theorem exec_jobWalkEnd (id : Nat) : exec (.jobWalkEnd id) s = execJobWalkEnd id s := rfl
@[simp] theorem exec_rplrepResume (func block : Nat) (v : BitVec 32) : exec (.rplrepResume func block v) s = execRplrepResume func block v s := rfl
@[simp] theorem exec_rplrepDeliver (func block : Nat) (v : BitVec 32) : exec (.rplrepDeliver func block v) s = execRplrepDeliver func block v s := rfl
@[simp] theorem exec_rplrepKill (func block : Nat) (v : BitVec 32) : exec (.rplrepKill func block v) s = execRplrepKill func block v s := rfl
@[simp] theorem exec_recordHeadWrite (func block : Nat) (replayable : Bool) (v : BitVec 32) : exec (.recordHeadWrite func block replayable v) s = execRecordHeadWrite func block replayable v s := rfl
@[simp] theorem exec_fprePreempt (func : Nat) (v : BitVec 32) : exec (.fprePreempt func v) s = execFprePreempt func v s := rfl
@[simp] theorem exec_fprePreemptHold (func : Nat) (v : BitVec 32) : exec (.fprePreemptHold func v) s = execFprePreemptHold func v s := rfl
@[simp] theorem exec_coreSwap (core : Nat) : exec (.coreSwap core) s = execCoreSwap core s := rfl
@[simp] theorem exec_swapComplete (core : Nat) : exec (.swapComplete core) s = execSwapComplete core s := rfl
@[simp] theorem exec_spillComplete (core : Nat) : exec (.spillComplete core) s = execSpillComplete core s := rfl
@[simp] theorem exec_freeze (func : Nat) (v : BitVec 32) : exec (.freeze func v) s = execFreeze func v s := rfl
@[simp] theorem exec_thaw (func : Nat) (v : BitVec 32) : exec (.thaw func v) s = execThaw func v s := rfl
@[simp] theorem exec_freezeThawEnd : exec (.freezeThawEnd) s = execFreezeThawEnd s := rfl
@[simp] theorem exec_stopLaunch (func : Nat) (v : DWord) : exec (.stopLaunch func v) s = execStopLaunch func v s := rfl
@[simp] theorem exec_stopTeam (func : Nat) (v : DWord) : exec (.stopTeam func v) s = execStopTeam func v s := rfl
@[simp] theorem exec_stopThread (func : Nat) (v : DWord) : exec (.stopThread func v) s = execStopThread func v s := rfl
@[simp] theorem exec_resumeLaunch (func : Nat) (v : DWord) : exec (.resumeLaunch func v) s = execResumeLaunch func v s := rfl
@[simp] theorem exec_resumeTeam (func : Nat) (v : DWord) : exec (.resumeTeam func v) s = execResumeTeam func v s := rfl
@[simp] theorem exec_resumeThread (func : Nat) (v : DWord) : exec (.resumeThread func v) s = execResumeThread func v s := rfl
@[simp] theorem exec_counterClear (func : Nat) (v : BitVec 32) : exec (.counterClear func v) s = execCounterClear func v s := rfl
@[simp] theorem exec_histogramExportReq (func : Nat) (v : BitVec 32) : exec (.histogramExportReq func v) s = execHistogramExportReq func v s := rfl
@[simp] theorem exec_histogramExportPeriod : exec (.histogramExportPeriod) s = execHistogramExportPeriod s := rfl
@[simp] theorem exec_histogramExportWrite : exec (.histogramExportWrite) s = execHistogramExportWrite s := rfl
@[simp] theorem exec_replayPassEnd : exec (.replayPassEnd) s = execReplayPassEnd s := rfl
@[simp] theorem exec_bootVerify : exec (.bootVerify) s = execBootVerify s := rfl
@[simp] theorem exec_bootReleaseStep : exec (.bootReleaseStep) s = execBootReleaseStep s := rfl
@[simp] theorem exec_heartbeat (p : Proc) : exec (.heartbeat p) s = execHeartbeat p s := rfl
@[simp] theorem exec_watchdogExpiry (p : Proc) : exec (.watchdogExpiry p) s = execWatchdogExpiry p s := rfl
@[simp] theorem exec_mbAttest (func : Nat) (v : BitVec 32) : exec (.mbAttest func v) s = execMbAttest func v s := rfl
@[simp] theorem exec_mbReadlog (func : Nat) (v : BitVec 32) : exec (.mbReadlog func v) s = execMbReadlog func v s := rfl
@[simp] theorem exec_mbReboot (func : Nat) (v : BitVec 32) : exec (.mbReboot func v) s = execMbReboot func v s := rfl
@[simp] theorem exec_mbSelect (func : Nat) (v : BitVec 32) : exec (.mbSelect func v) s = execMbSelect func v s := rfl
@[simp] theorem exec_mbStage (func : Nat) (v : BitVec 32) : exec (.mbStage func v) s = execMbStage func v s := rfl
@[simp] theorem exec_mailboxDone : exec (.mailboxDone) s = execMailboxDone s := rfl
@[simp] theorem exec_configRequest (ask : CfgAsk) : exec (.configRequest ask) s = execConfigRequest ask s := rfl
@[simp] theorem exec_linkTrain (port rate width : Nat) : exec (.linkTrain port rate width) s = execLinkTrain port rate width s := rfl
@[simp] theorem exec_deviceReset : exec (.deviceReset) s = execDeviceReset s := rfl
@[simp] theorem exec_functionLevelReset (func : Nat) : exec (.functionLevelReset func) s = execFunctionLevelReset func s := rfl
@[simp] theorem exec_registerWrite (func off width : Nat) (v : DWord) : exec (.registerWrite func off width v) s = execRegisterWrite func off width v s := rfl
@[simp] theorem exec_translationFault (at' lane : Nat) (kind : AccKind) (va : DWord) : exec (.translationFault at' lane kind va) s = execTranslationFault at' lane kind va s := rfl
@[simp] theorem exec_accessPerformed (at' seq : Nat) : exec (.accessPerformed at' seq) s = execAccessPerformed at' seq s := rfl
@[simp] theorem exec_l2Eviction (line : Nat) : exec (.l2Eviction line) s = execL2Eviction line s := rfl
@[simp] theorem exec_pcieLinkDown (port : Nat) : exec (.pcieLinkDown port) s = execPcieLinkDown port s := rfl

end Sys2Proof.Machine
end

