-- ==== Sys2Proof/Laws/Tab.lean ====
section
/-! SUPPORT. Laws of finite tables and of memory: reads after writes, and that every memory operation keeps the canonical form. -/

namespace Sys2Proof.Machine

variable {α : Type}

theorem tabFind_tabPut_same (t : List (Nat × α)) (a : Nat) (w : α) : tabFind (tabPut t a w) a = some w := by
  induction t with
  | nil => simp [tabPut, tabFind]
  | cons e t ih =>
    obtain ⟨k, v⟩ := e
    simp only [tabPut]
    split
    · simp [tabFind]
    · split
      · simp [tabFind]
      · simp [tabFind, *]

theorem tabFind_tabPut_other (t : List (Nat × α)) (a b : Nat) (w : α) (h : b ≠ a) :
    tabFind (tabPut t a w) b = tabFind t b := by
  induction t with
  | nil => simp [tabPut, tabFind, h]
  | cons e t ih =>
    obtain ⟨k, v⟩ := e
    simp only [tabPut]
    split
    · simp [tabFind, h]
    · split
      · next hk => subst hk; simp [tabFind, h]
      · simp [tabFind, ih]

@[simp] theorem tabGet_tabPut_same (d : α) (t : List (Nat × α)) (a : Nat) (w : α) : tabGet d (tabPut t a w) a = w := by
  simp [tabGet, tabFind_tabPut_same]

theorem tabGet_tabPut_other (d : α) (t : List (Nat × α)) (a b : Nat) (w : α) (h : b ≠ a) :
    tabGet d (tabPut t a w) b = tabGet d t b := by
  simp [tabGet, tabFind_tabPut_other t a b w h]

theorem tabGet_tabPut (d : α) (t : List (Nat × α)) (a b : Nat) (w : α) :
    tabGet d (tabPut t a w) b = if b = a then w else tabGet d t b := by
  split
  · next h => subst h; simp
  · next h => exact tabGet_tabPut_other d t a b w h

theorem tabFind_none_of_above (t : List (Nat × α)) (lo a : Nat) (h : keysAbove (some lo) t = true) (ha : a ≤ lo) :
    tabFind t a = none := by
  induction t generalizing lo with
  | nil => rfl
  | cons e t ih =>
    obtain ⟨k, v⟩ := e
    simp only [keysAbove, Bool.and_eq_true, decide_eq_true_eq] at h
    have hk : a ≠ k := by omega
    simp [tabFind, hk, ih k h.2 (by omega)]

theorem keysAbove_weaken (t : List (Nat × α)) (lo lo' : Nat) (h : keysAbove (some lo') t = true) (hl : lo ≤ lo') :
    keysAbove (some lo) t = true := by
  cases t with
  | nil => rfl
  | cons e t =>
    obtain ⟨k, v⟩ := e
    simp only [keysAbove, Bool.and_eq_true, decide_eq_true_eq] at h ⊢
    exact ⟨by omega, h.2⟩

theorem keysAbove_none (t : List (Nat × α)) (lo : Nat) (h : keysAbove (some lo) t = true) : keysAbove none t = true := by
  cases t with
  | nil => rfl
  | cons e t =>
    obtain ⟨k, v⟩ := e
    simp only [keysAbove, Bool.and_eq_true, decide_eq_true_eq] at h ⊢
    exact h.2

/-- Erasing a key leaves it unlisted. -/
theorem tabFind_tabErase_same (t : List (Nat × α)) (a : Nat) : tabFind (tabErase t a) a = none := by
  induction t with
  | nil => rfl
  | cons e t ih =>
    obtain ⟨k, v⟩ := e
    simp only [tabErase]
    split
    · exact ih
    · next hk => simp [tabFind, hk, ih]

theorem tabFind_tabErase_other (t : List (Nat × α)) (a b : Nat) (h : b ≠ a) : tabFind (tabErase t a) b = tabFind t b := by
  induction t with
  | nil => rfl
  | cons e t ih =>
    obtain ⟨k, v⟩ := e
    simp only [tabErase]
    split
    · next hk => subst hk; simp [tabFind, h, ih]
    · simp [tabFind, ih]

theorem keysAbove_tabPut (lo : Option Nat) (t : List (Nat × α)) (a : Nat) (w : α) (h : keysAbove lo t = true)
    (hl : ∀ l, lo = some l → l < a) : keysAbove lo (tabPut t a w) = true := by
  induction t generalizing lo with
  | nil => cases lo with
    | none => rfl
    | some l => simp [tabPut, keysAbove, hl l rfl]
  | cons e t ih =>
    obtain ⟨k, v⟩ := e
    have h2 : keysAbove (some k) t = true := by
      cases lo with
      | none => simpa [keysAbove] using h
      | some l => simp only [keysAbove, Bool.and_eq_true] at h; exact h.2
    simp only [tabPut]
    split
    · next hk =>
      cases lo with
      | none => simp [keysAbove, hk, h2]
      | some l => simp [keysAbove, hk, h2, hl l rfl]
    · split
      · next _ hk => subst hk; cases lo with
        | none => simpa [keysAbove] using h2
        | some l => simp [keysAbove, h2, hl l rfl]
      · next h1 h3 =>
        have := ih (some k) h2 (by intro l hl'; cases hl'; omega)
        cases lo with
        | none => simpa [keysAbove] using this
        | some l => simp only [keysAbove, Bool.and_eq_true] at h ⊢; exact ⟨h.1, this⟩

theorem keysAbove_tabErase (lo : Option Nat) (t : List (Nat × α)) (a : Nat) (h : keysAbove lo t = true) :
    keysAbove lo (tabErase t a) = true := by
  induction t generalizing lo with
  | nil => exact h
  | cons e t ih =>
    obtain ⟨k, v⟩ := e
    have h2 : keysAbove (some k) t = true := by
      cases lo with
      | none => simpa [keysAbove] using h
      | some l => simp only [keysAbove, Bool.and_eq_true] at h; exact h.2
    simp only [tabErase]
    split
    · cases lo with
      | none => exact ih none (keysAbove_none t k h2)
      | some l =>
        simp only [keysAbove, Bool.and_eq_true, decide_eq_true_eq] at h
        exact ih (some l) (keysAbove_weaken t l k h2 (by omega))
    · cases lo with
      | none => simpa [keysAbove] using ih (some k) h2
      | some l => simp only [keysAbove, Bool.and_eq_true] at h ⊢; exact ⟨h.1, ih (some k) h2⟩

theorem tabPut_mem (t : List (Nat × α)) (a : Nat) (w : α) (e : Nat × α) (h : e ∈ tabPut t a w) : e = (a, w) ∨ e ∈ t := by
  induction t with
  | nil => simpa [tabPut] using h
  | cons x t ih =>
    obtain ⟨k, v⟩ := x
    simp only [tabPut] at h
    split at h
    · simpa using h
    · split at h
      · rcases List.mem_cons.1 h with h | h
        · exact .inl h
        · exact .inr (List.mem_cons_of_mem _ h)
      · rcases List.mem_cons.1 h with h | h
        · exact .inr (by simp [h])
        · rcases ih h with h | h
          · exact .inl h
          · exact .inr (List.mem_cons_of_mem _ h)

theorem tabErase_mem (t : List (Nat × α)) (a : Nat) (e : Nat × α) (h : e ∈ tabErase t a) : e ∈ t := by
  induction t with
  | nil => exact h
  | cons x t ih =>
    obtain ⟨k, v⟩ := x
    simp only [tabErase] at h
    split at h
    · exact List.mem_cons_of_mem _ (ih h)
    · rcases List.mem_cons.1 h with h | h
      · simp [h]
      · exact List.mem_cons_of_mem _ (ih h)

/-! ## Memory -/

/-- A byte reads as written. -/
theorem memRead_memWrite_same (m : List (Nat × Byte)) (a : Nat) (b : Byte) : memRead (memWrite m a b) a = b := by
  simp only [memRead, memWrite]
  split
  · next hb => simp [tabGet, tabFind_tabErase_same m a, hb]
  · simp

/-- A write leaves every other byte alone. -/
theorem memRead_memWrite_other (m : List (Nat × Byte)) (a c : Nat) (b : Byte) (h : c ≠ a) :
    memRead (memWrite m a b) c = memRead m c := by
  simp only [memRead, memWrite]
  split
  · simp [tabGet, tabFind_tabErase_other m a c h]
  · exact tabGet_tabPut_other _ m a c b h

/-- A write of one byte keeps the canonical form. -/
theorem memWf_memWrite (m : List (Nat × Byte)) (a : Nat) (b : Byte) (h : memWf m = true) : memWf (memWrite m a b) = true := by
  simp only [memWf, Bool.and_eq_true, List.all_eq_true, decide_eq_true_eq] at h ⊢
  simp only [memWrite]
  split
  · exact ⟨keysAbove_tabErase none m a h.1, fun e he => h.2 e (tabErase_mem m a e he)⟩
  · next hb =>
    refine ⟨keysAbove_tabPut none m a b h.1 (by intro l hl; cases hl), fun e he => ?_⟩
    rcases tabPut_mem m a b e he with rfl | he
    · exact hb
    · exact h.2 e he

/-- A write of consecutive bytes keeps the canonical form. -/
theorem memWf_memWriteList (m : List (Nat × Byte)) (a : Nat) (bs : List Byte) (h : memWf m = true) :
    memWf (memWriteList m a bs) = true := by
  induction bs generalizing m a with
  | nil => exact h
  | cons b bs ih => exact ih _ _ (memWf_memWrite m a b h)

/-- Keeping some entries keeps the canonical form. -/
theorem memWf_filter (m : List (Nat × Byte)) (p : Nat × Byte → Bool) (h : memWf m = true) : memWf (m.filter p) = true := by
  simp only [memWf, Bool.and_eq_true, List.all_eq_true, decide_eq_true_eq] at h ⊢
  refine ⟨?_, fun e he => h.2 e (List.mem_filter.1 he).1⟩
  have key : ∀ (lo : Option Nat) (t : List (Nat × Byte)), keysAbove lo t = true → keysAbove lo (t.filter p) = true := by
    intro lo t
    induction t generalizing lo with
    | nil => exact id
    | cons e t ih =>
      obtain ⟨k, v⟩ := e
      intro h
      have h2 : keysAbove (some k) t = true := by
        cases lo with
        | none => simpa [keysAbove] using h
        | some l => simp only [keysAbove, Bool.and_eq_true] at h; exact h.2
      simp only [List.filter]
      split
      · cases lo with
        | none => simpa [keysAbove] using ih (some k) h2
        | some l => simp only [keysAbove, Bool.and_eq_true] at h ⊢; exact ⟨h.1, ih (some k) h2⟩
      · cases lo with
        | none => exact keysAbove_none _ k (ih (some k) h2)
        | some l =>
          simp only [keysAbove, Bool.and_eq_true, decide_eq_true_eq] at h
          exact keysAbove_weaken _ l k (ih (some k) h2) (by omega)
  exact key none m h.1

/-- Writing bytes one after another keeps the canonical form, whichever are written. -/
theorem memWf_foldl {β : Type} (f : List (Nat × Byte) → β → List (Nat × Byte)) (hf : ∀ m x, memWf m = true → memWf (f m x) = true)
    (xs : List β) (m : List (Nat × Byte)) (h : memWf m = true) : memWf (xs.foldl f m) = true := by
  induction xs generalizing m with
  | nil => exact h
  | cons x xs ih => exact ih _ (hf m x h)

end Sys2Proof.Machine
end

