-- ==== Sys2Proof/Laws/State.lean ====
section
/-! SUPPORT. What each update of the state leaves in each field, and reads of a group, team, launch, core, function, queue,
crossing or graph after writes. -/

namespace Sys2Proof.Machine

variable (s : State)

/-! ## setGroup -/
@[simp] theorem setGroup_agenda (k : Nat) (x : Group) : (setGroup s k x).agenda = s.agenda := rfl
@[simp] theorem setGroup_cur (k : Nat) (x : Group) : (setGroup s k x).cur = s.cur := rfl
@[simp] theorem setGroup_now (k : Nat) (x : Group) : (setGroup s k x).now = s.now := rfl
@[simp] theorem setGroup_fresh (k : Nat) (x : Group) : (setGroup s k x).fresh = s.fresh := rfl
@[simp] theorem setGroup_uid (k : Nat) (x : Group) : (setGroup s k x).uid = s.uid := rfl
@[simp] theorem setGroup_issued (k : Nat) (x : Group) : (setGroup s k x).issued = s.issued := rfl
@[simp] theorem setGroup_mem (k : Nat) (x : Group) : (setGroup s k x).mem = s.mem := rfl
@[simp] theorem setGroup_l2 (k : Nat) (x : Group) : (setGroup s k x).l2 = s.l2 := rfl
@[simp] theorem setGroup_plaza (k : Nat) (x : Group) : (setGroup s k x).plaza = s.plaza := rfl
@[simp] theorem setGroup_groups (k : Nat) (x : Group) : (setGroup s k x).groups = tabPut s.groups k x := rfl
@[simp] theorem setGroup_teams (k : Nat) (x : Group) : (setGroup s k x).teams = s.teams := rfl
@[simp] theorem setGroup_launches (k : Nat) (x : Group) : (setGroup s k x).launches = s.launches := rfl
@[simp] theorem setGroup_cores (k : Nat) (x : Group) : (setGroup s k x).cores = s.cores := rfl
@[simp] theorem setGroup_queues (k : Nat) (x : Group) : (setGroup s k x).queues = s.queues := rfl
@[simp] theorem setGroup_xings (k : Nat) (x : Group) : (setGroup s k x).xings = s.xings := rfl
@[simp] theorem setGroup_graphs (k : Nat) (x : Group) : (setGroup s k x).graphs = s.graphs := rfl
@[simp] theorem setGroup_store (k : Nat) (x : Group) : (setGroup s k x).store = s.store := rfl
@[simp] theorem setGroup_funcs (k : Nat) (x : Group) : (setGroup s k x).funcs = s.funcs := rfl
@[simp] theorem setGroup_slots (k : Nat) (x : Group) : (setGroup s k x).slots = s.slots := rfl
@[simp] theorem setGroup_tlb (k : Nat) (x : Group) : (setGroup s k x).tlb = s.tlb := rfl
@[simp] theorem setGroup_elems (k : Nat) (x : Group) : (setGroup s k x).elems = s.elems := rfl
@[simp] theorem setGroup_faults (k : Nat) (x : Group) : (setGroup s k x).faults = s.faults := rfl
@[simp] theorem setGroup_cmds (k : Nat) (x : Group) : (setGroup s k x).cmds = s.cmds := rfl
@[simp] theorem setGroup_mats (k : Nat) (x : Group) : (setGroup s k x).mats = s.mats := rfl
@[simp] theorem setGroup_signs (k : Nat) (x : Group) : (setGroup s k x).signs = s.signs := rfl
@[simp] theorem setGroup_rels (k : Nat) (x : Group) : (setGroup s k x).rels = s.rels := rfl
@[simp] theorem setGroup_acqs (k : Nat) (x : Group) : (setGroup s k x).acqs = s.acqs := rfl
@[simp] theorem setGroup_recs (k : Nat) (x : Group) : (setGroup s k x).recs = s.recs := rfl
@[simp] theorem setGroup_gang (k : Nat) (x : Group) : (setGroup s k x).gang = s.gang := rfl
@[simp] theorem setGroup_supply (k : Nat) (x : Group) : (setGroup s k x).supply = s.supply := rfl
@[simp] theorem setGroup_peers (k : Nat) (x : Group) : (setGroup s k x).peers = s.peers := rfl
@[simp] theorem setGroup_pcie (k : Nat) (x : Group) : (setGroup s k x).pcie = s.pcie := rfl
@[simp] theorem setGroup_freezer (k : Nat) (x : Group) : (setGroup s k x).freezer = s.freezer := rfl
@[simp] theorem setGroup_obs (k : Nat) (x : Group) : (setGroup s k x).obs = s.obs := rfl
@[simp] theorem setGroup_anchor (k : Nat) (x : Group) : (setGroup s k x).anchor = s.anchor := rfl
@[simp] theorem setGroup_struck (k : Nat) (x : Group) : (setGroup s k x).struck = s.struck := rfl
@[simp] theorem setGroup_objOps (k : Nat) (x : Group) : (setGroup s k x).objOps = s.objOps := rfl

/-! ## setTeam -/
@[simp] theorem setTeam_agenda (k : Nat) (x : Team) : (setTeam s k x).agenda = s.agenda := rfl
@[simp] theorem setTeam_cur (k : Nat) (x : Team) : (setTeam s k x).cur = s.cur := rfl
@[simp] theorem setTeam_now (k : Nat) (x : Team) : (setTeam s k x).now = s.now := rfl
@[simp] theorem setTeam_fresh (k : Nat) (x : Team) : (setTeam s k x).fresh = s.fresh := rfl
@[simp] theorem setTeam_uid (k : Nat) (x : Team) : (setTeam s k x).uid = s.uid := rfl
@[simp] theorem setTeam_issued (k : Nat) (x : Team) : (setTeam s k x).issued = s.issued := rfl
@[simp] theorem setTeam_mem (k : Nat) (x : Team) : (setTeam s k x).mem = s.mem := rfl
@[simp] theorem setTeam_l2 (k : Nat) (x : Team) : (setTeam s k x).l2 = s.l2 := rfl
@[simp] theorem setTeam_plaza (k : Nat) (x : Team) : (setTeam s k x).plaza = s.plaza := rfl
@[simp] theorem setTeam_groups (k : Nat) (x : Team) : (setTeam s k x).groups = s.groups := rfl
@[simp] theorem setTeam_teams (k : Nat) (x : Team) : (setTeam s k x).teams = tabPut s.teams k x := rfl
@[simp] theorem setTeam_launches (k : Nat) (x : Team) : (setTeam s k x).launches = s.launches := rfl
@[simp] theorem setTeam_cores (k : Nat) (x : Team) : (setTeam s k x).cores = s.cores := rfl
@[simp] theorem setTeam_queues (k : Nat) (x : Team) : (setTeam s k x).queues = s.queues := rfl
@[simp] theorem setTeam_xings (k : Nat) (x : Team) : (setTeam s k x).xings = s.xings := rfl
@[simp] theorem setTeam_graphs (k : Nat) (x : Team) : (setTeam s k x).graphs = s.graphs := rfl
@[simp] theorem setTeam_store (k : Nat) (x : Team) : (setTeam s k x).store = s.store := rfl
@[simp] theorem setTeam_funcs (k : Nat) (x : Team) : (setTeam s k x).funcs = s.funcs := rfl
@[simp] theorem setTeam_slots (k : Nat) (x : Team) : (setTeam s k x).slots = s.slots := rfl
@[simp] theorem setTeam_tlb (k : Nat) (x : Team) : (setTeam s k x).tlb = s.tlb := rfl
@[simp] theorem setTeam_elems (k : Nat) (x : Team) : (setTeam s k x).elems = s.elems := rfl
@[simp] theorem setTeam_faults (k : Nat) (x : Team) : (setTeam s k x).faults = s.faults := rfl
@[simp] theorem setTeam_cmds (k : Nat) (x : Team) : (setTeam s k x).cmds = s.cmds := rfl
@[simp] theorem setTeam_mats (k : Nat) (x : Team) : (setTeam s k x).mats = s.mats := rfl
@[simp] theorem setTeam_signs (k : Nat) (x : Team) : (setTeam s k x).signs = s.signs := rfl
@[simp] theorem setTeam_rels (k : Nat) (x : Team) : (setTeam s k x).rels = s.rels := rfl
@[simp] theorem setTeam_acqs (k : Nat) (x : Team) : (setTeam s k x).acqs = s.acqs := rfl
@[simp] theorem setTeam_recs (k : Nat) (x : Team) : (setTeam s k x).recs = s.recs := rfl
@[simp] theorem setTeam_gang (k : Nat) (x : Team) : (setTeam s k x).gang = s.gang := rfl
@[simp] theorem setTeam_supply (k : Nat) (x : Team) : (setTeam s k x).supply = s.supply := rfl
@[simp] theorem setTeam_peers (k : Nat) (x : Team) : (setTeam s k x).peers = s.peers := rfl
@[simp] theorem setTeam_pcie (k : Nat) (x : Team) : (setTeam s k x).pcie = s.pcie := rfl
@[simp] theorem setTeam_freezer (k : Nat) (x : Team) : (setTeam s k x).freezer = s.freezer := rfl
@[simp] theorem setTeam_obs (k : Nat) (x : Team) : (setTeam s k x).obs = s.obs := rfl
@[simp] theorem setTeam_anchor (k : Nat) (x : Team) : (setTeam s k x).anchor = s.anchor := rfl
@[simp] theorem setTeam_struck (k : Nat) (x : Team) : (setTeam s k x).struck = s.struck := rfl
@[simp] theorem setTeam_objOps (k : Nat) (x : Team) : (setTeam s k x).objOps = s.objOps := rfl

/-! ## setLaunch -/
@[simp] theorem setLaunch_agenda (k : Nat) (x : Launch) : (setLaunch s k x).agenda = s.agenda := rfl
@[simp] theorem setLaunch_cur (k : Nat) (x : Launch) : (setLaunch s k x).cur = s.cur := rfl
@[simp] theorem setLaunch_now (k : Nat) (x : Launch) : (setLaunch s k x).now = s.now := rfl
@[simp] theorem setLaunch_fresh (k : Nat) (x : Launch) : (setLaunch s k x).fresh = s.fresh := rfl
@[simp] theorem setLaunch_uid (k : Nat) (x : Launch) : (setLaunch s k x).uid = s.uid := rfl
@[simp] theorem setLaunch_issued (k : Nat) (x : Launch) : (setLaunch s k x).issued = s.issued := rfl
@[simp] theorem setLaunch_mem (k : Nat) (x : Launch) : (setLaunch s k x).mem = s.mem := rfl
@[simp] theorem setLaunch_l2 (k : Nat) (x : Launch) : (setLaunch s k x).l2 = s.l2 := rfl
@[simp] theorem setLaunch_plaza (k : Nat) (x : Launch) : (setLaunch s k x).plaza = s.plaza := rfl
@[simp] theorem setLaunch_groups (k : Nat) (x : Launch) : (setLaunch s k x).groups = s.groups := rfl
@[simp] theorem setLaunch_teams (k : Nat) (x : Launch) : (setLaunch s k x).teams = s.teams := rfl
@[simp] theorem setLaunch_launches (k : Nat) (x : Launch) : (setLaunch s k x).launches = tabPut s.launches k x := rfl
@[simp] theorem setLaunch_cores (k : Nat) (x : Launch) : (setLaunch s k x).cores = s.cores := rfl
@[simp] theorem setLaunch_queues (k : Nat) (x : Launch) : (setLaunch s k x).queues = s.queues := rfl
@[simp] theorem setLaunch_xings (k : Nat) (x : Launch) : (setLaunch s k x).xings = s.xings := rfl
@[simp] theorem setLaunch_graphs (k : Nat) (x : Launch) : (setLaunch s k x).graphs = s.graphs := rfl
@[simp] theorem setLaunch_store (k : Nat) (x : Launch) : (setLaunch s k x).store = s.store := rfl
@[simp] theorem setLaunch_funcs (k : Nat) (x : Launch) : (setLaunch s k x).funcs = s.funcs := rfl
@[simp] theorem setLaunch_slots (k : Nat) (x : Launch) : (setLaunch s k x).slots = s.slots := rfl
@[simp] theorem setLaunch_tlb (k : Nat) (x : Launch) : (setLaunch s k x).tlb = s.tlb := rfl
@[simp] theorem setLaunch_elems (k : Nat) (x : Launch) : (setLaunch s k x).elems = s.elems := rfl
@[simp] theorem setLaunch_faults (k : Nat) (x : Launch) : (setLaunch s k x).faults = s.faults := rfl
@[simp] theorem setLaunch_cmds (k : Nat) (x : Launch) : (setLaunch s k x).cmds = s.cmds := rfl
@[simp] theorem setLaunch_mats (k : Nat) (x : Launch) : (setLaunch s k x).mats = s.mats := rfl
@[simp] theorem setLaunch_signs (k : Nat) (x : Launch) : (setLaunch s k x).signs = s.signs := rfl
@[simp] theorem setLaunch_rels (k : Nat) (x : Launch) : (setLaunch s k x).rels = s.rels := rfl
@[simp] theorem setLaunch_acqs (k : Nat) (x : Launch) : (setLaunch s k x).acqs = s.acqs := rfl
@[simp] theorem setLaunch_recs (k : Nat) (x : Launch) : (setLaunch s k x).recs = s.recs := rfl
@[simp] theorem setLaunch_gang (k : Nat) (x : Launch) : (setLaunch s k x).gang = s.gang := rfl
@[simp] theorem setLaunch_supply (k : Nat) (x : Launch) : (setLaunch s k x).supply = s.supply := rfl
@[simp] theorem setLaunch_peers (k : Nat) (x : Launch) : (setLaunch s k x).peers = s.peers := rfl
@[simp] theorem setLaunch_pcie (k : Nat) (x : Launch) : (setLaunch s k x).pcie = s.pcie := rfl
@[simp] theorem setLaunch_freezer (k : Nat) (x : Launch) : (setLaunch s k x).freezer = s.freezer := rfl
@[simp] theorem setLaunch_obs (k : Nat) (x : Launch) : (setLaunch s k x).obs = s.obs := rfl
@[simp] theorem setLaunch_anchor (k : Nat) (x : Launch) : (setLaunch s k x).anchor = s.anchor := rfl
@[simp] theorem setLaunch_struck (k : Nat) (x : Launch) : (setLaunch s k x).struck = s.struck := rfl
@[simp] theorem setLaunch_objOps (k : Nat) (x : Launch) : (setLaunch s k x).objOps = s.objOps := rfl

/-! ## setCore -/
@[simp] theorem setCore_agenda (k : Nat) (x : Core) : (setCore s k x).agenda = s.agenda := rfl
@[simp] theorem setCore_cur (k : Nat) (x : Core) : (setCore s k x).cur = s.cur := rfl
@[simp] theorem setCore_now (k : Nat) (x : Core) : (setCore s k x).now = s.now := rfl
@[simp] theorem setCore_fresh (k : Nat) (x : Core) : (setCore s k x).fresh = s.fresh := rfl
@[simp] theorem setCore_uid (k : Nat) (x : Core) : (setCore s k x).uid = s.uid := rfl
@[simp] theorem setCore_issued (k : Nat) (x : Core) : (setCore s k x).issued = s.issued := rfl
@[simp] theorem setCore_mem (k : Nat) (x : Core) : (setCore s k x).mem = s.mem := rfl
@[simp] theorem setCore_l2 (k : Nat) (x : Core) : (setCore s k x).l2 = s.l2 := rfl
@[simp] theorem setCore_plaza (k : Nat) (x : Core) : (setCore s k x).plaza = s.plaza := rfl
@[simp] theorem setCore_groups (k : Nat) (x : Core) : (setCore s k x).groups = s.groups := rfl
@[simp] theorem setCore_teams (k : Nat) (x : Core) : (setCore s k x).teams = s.teams := rfl
@[simp] theorem setCore_launches (k : Nat) (x : Core) : (setCore s k x).launches = s.launches := rfl
@[simp] theorem setCore_cores (k : Nat) (x : Core) : (setCore s k x).cores = tabPut s.cores k x := rfl
@[simp] theorem setCore_queues (k : Nat) (x : Core) : (setCore s k x).queues = s.queues := rfl
@[simp] theorem setCore_xings (k : Nat) (x : Core) : (setCore s k x).xings = s.xings := rfl
@[simp] theorem setCore_graphs (k : Nat) (x : Core) : (setCore s k x).graphs = s.graphs := rfl
@[simp] theorem setCore_store (k : Nat) (x : Core) : (setCore s k x).store = s.store := rfl
@[simp] theorem setCore_funcs (k : Nat) (x : Core) : (setCore s k x).funcs = s.funcs := rfl
@[simp] theorem setCore_slots (k : Nat) (x : Core) : (setCore s k x).slots = s.slots := rfl
@[simp] theorem setCore_tlb (k : Nat) (x : Core) : (setCore s k x).tlb = s.tlb := rfl
@[simp] theorem setCore_elems (k : Nat) (x : Core) : (setCore s k x).elems = s.elems := rfl
@[simp] theorem setCore_faults (k : Nat) (x : Core) : (setCore s k x).faults = s.faults := rfl
@[simp] theorem setCore_cmds (k : Nat) (x : Core) : (setCore s k x).cmds = s.cmds := rfl
@[simp] theorem setCore_mats (k : Nat) (x : Core) : (setCore s k x).mats = s.mats := rfl
@[simp] theorem setCore_signs (k : Nat) (x : Core) : (setCore s k x).signs = s.signs := rfl
@[simp] theorem setCore_rels (k : Nat) (x : Core) : (setCore s k x).rels = s.rels := rfl
@[simp] theorem setCore_acqs (k : Nat) (x : Core) : (setCore s k x).acqs = s.acqs := rfl
@[simp] theorem setCore_recs (k : Nat) (x : Core) : (setCore s k x).recs = s.recs := rfl
@[simp] theorem setCore_gang (k : Nat) (x : Core) : (setCore s k x).gang = s.gang := rfl
@[simp] theorem setCore_supply (k : Nat) (x : Core) : (setCore s k x).supply = s.supply := rfl
@[simp] theorem setCore_peers (k : Nat) (x : Core) : (setCore s k x).peers = s.peers := rfl
@[simp] theorem setCore_pcie (k : Nat) (x : Core) : (setCore s k x).pcie = s.pcie := rfl
@[simp] theorem setCore_freezer (k : Nat) (x : Core) : (setCore s k x).freezer = s.freezer := rfl
@[simp] theorem setCore_obs (k : Nat) (x : Core) : (setCore s k x).obs = s.obs := rfl
@[simp] theorem setCore_anchor (k : Nat) (x : Core) : (setCore s k x).anchor = s.anchor := rfl
@[simp] theorem setCore_struck (k : Nat) (x : Core) : (setCore s k x).struck = s.struck := rfl
@[simp] theorem setCore_objOps (k : Nat) (x : Core) : (setCore s k x).objOps = s.objOps := rfl

/-! ## setFunc -/
@[simp] theorem setFunc_agenda (k : Nat) (x : Func) : (setFunc s k x).agenda = s.agenda := rfl
@[simp] theorem setFunc_cur (k : Nat) (x : Func) : (setFunc s k x).cur = s.cur := rfl
@[simp] theorem setFunc_now (k : Nat) (x : Func) : (setFunc s k x).now = s.now := rfl
@[simp] theorem setFunc_fresh (k : Nat) (x : Func) : (setFunc s k x).fresh = s.fresh := rfl
@[simp] theorem setFunc_uid (k : Nat) (x : Func) : (setFunc s k x).uid = s.uid := rfl
@[simp] theorem setFunc_issued (k : Nat) (x : Func) : (setFunc s k x).issued = s.issued := rfl
@[simp] theorem setFunc_mem (k : Nat) (x : Func) : (setFunc s k x).mem = s.mem := rfl
@[simp] theorem setFunc_l2 (k : Nat) (x : Func) : (setFunc s k x).l2 = s.l2 := rfl
@[simp] theorem setFunc_plaza (k : Nat) (x : Func) : (setFunc s k x).plaza = s.plaza := rfl
@[simp] theorem setFunc_groups (k : Nat) (x : Func) : (setFunc s k x).groups = s.groups := rfl
@[simp] theorem setFunc_teams (k : Nat) (x : Func) : (setFunc s k x).teams = s.teams := rfl
@[simp] theorem setFunc_launches (k : Nat) (x : Func) : (setFunc s k x).launches = s.launches := rfl
@[simp] theorem setFunc_cores (k : Nat) (x : Func) : (setFunc s k x).cores = s.cores := rfl
@[simp] theorem setFunc_queues (k : Nat) (x : Func) : (setFunc s k x).queues = s.queues := rfl
@[simp] theorem setFunc_xings (k : Nat) (x : Func) : (setFunc s k x).xings = s.xings := rfl
@[simp] theorem setFunc_graphs (k : Nat) (x : Func) : (setFunc s k x).graphs = s.graphs := rfl
@[simp] theorem setFunc_store (k : Nat) (x : Func) : (setFunc s k x).store = s.store := rfl
@[simp] theorem setFunc_funcs (k : Nat) (x : Func) : (setFunc s k x).funcs = tabPut s.funcs k x := rfl
@[simp] theorem setFunc_slots (k : Nat) (x : Func) : (setFunc s k x).slots = s.slots := rfl
@[simp] theorem setFunc_tlb (k : Nat) (x : Func) : (setFunc s k x).tlb = s.tlb := rfl
@[simp] theorem setFunc_elems (k : Nat) (x : Func) : (setFunc s k x).elems = s.elems := rfl
@[simp] theorem setFunc_faults (k : Nat) (x : Func) : (setFunc s k x).faults = s.faults := rfl
@[simp] theorem setFunc_cmds (k : Nat) (x : Func) : (setFunc s k x).cmds = s.cmds := rfl
@[simp] theorem setFunc_mats (k : Nat) (x : Func) : (setFunc s k x).mats = s.mats := rfl
@[simp] theorem setFunc_signs (k : Nat) (x : Func) : (setFunc s k x).signs = s.signs := rfl
@[simp] theorem setFunc_rels (k : Nat) (x : Func) : (setFunc s k x).rels = s.rels := rfl
@[simp] theorem setFunc_acqs (k : Nat) (x : Func) : (setFunc s k x).acqs = s.acqs := rfl
@[simp] theorem setFunc_recs (k : Nat) (x : Func) : (setFunc s k x).recs = s.recs := rfl
@[simp] theorem setFunc_gang (k : Nat) (x : Func) : (setFunc s k x).gang = s.gang := rfl
@[simp] theorem setFunc_supply (k : Nat) (x : Func) : (setFunc s k x).supply = s.supply := rfl
@[simp] theorem setFunc_peers (k : Nat) (x : Func) : (setFunc s k x).peers = s.peers := rfl
@[simp] theorem setFunc_pcie (k : Nat) (x : Func) : (setFunc s k x).pcie = s.pcie := rfl
@[simp] theorem setFunc_freezer (k : Nat) (x : Func) : (setFunc s k x).freezer = s.freezer := rfl
@[simp] theorem setFunc_obs (k : Nat) (x : Func) : (setFunc s k x).obs = s.obs := rfl
@[simp] theorem setFunc_anchor (k : Nat) (x : Func) : (setFunc s k x).anchor = s.anchor := rfl
@[simp] theorem setFunc_struck (k : Nat) (x : Func) : (setFunc s k x).struck = s.struck := rfl
@[simp] theorem setFunc_objOps (k : Nat) (x : Func) : (setFunc s k x).objOps = s.objOps := rfl

/-! ## setQueue -/
@[simp] theorem setQueue_agenda (k : Nat) (x : Queue) : (setQueue s k x).agenda = s.agenda := rfl
@[simp] theorem setQueue_cur (k : Nat) (x : Queue) : (setQueue s k x).cur = s.cur := rfl
@[simp] theorem setQueue_now (k : Nat) (x : Queue) : (setQueue s k x).now = s.now := rfl
@[simp] theorem setQueue_fresh (k : Nat) (x : Queue) : (setQueue s k x).fresh = s.fresh := rfl
@[simp] theorem setQueue_uid (k : Nat) (x : Queue) : (setQueue s k x).uid = s.uid := rfl
@[simp] theorem setQueue_issued (k : Nat) (x : Queue) : (setQueue s k x).issued = s.issued := rfl
@[simp] theorem setQueue_mem (k : Nat) (x : Queue) : (setQueue s k x).mem = s.mem := rfl
@[simp] theorem setQueue_l2 (k : Nat) (x : Queue) : (setQueue s k x).l2 = s.l2 := rfl
@[simp] theorem setQueue_plaza (k : Nat) (x : Queue) : (setQueue s k x).plaza = s.plaza := rfl
@[simp] theorem setQueue_groups (k : Nat) (x : Queue) : (setQueue s k x).groups = s.groups := rfl
@[simp] theorem setQueue_teams (k : Nat) (x : Queue) : (setQueue s k x).teams = s.teams := rfl
@[simp] theorem setQueue_launches (k : Nat) (x : Queue) : (setQueue s k x).launches = s.launches := rfl
@[simp] theorem setQueue_cores (k : Nat) (x : Queue) : (setQueue s k x).cores = s.cores := rfl
@[simp] theorem setQueue_queues (k : Nat) (x : Queue) : (setQueue s k x).queues = tabPut s.queues k x := rfl
@[simp] theorem setQueue_xings (k : Nat) (x : Queue) : (setQueue s k x).xings = s.xings := rfl
@[simp] theorem setQueue_graphs (k : Nat) (x : Queue) : (setQueue s k x).graphs = s.graphs := rfl
@[simp] theorem setQueue_store (k : Nat) (x : Queue) : (setQueue s k x).store = s.store := rfl
@[simp] theorem setQueue_funcs (k : Nat) (x : Queue) : (setQueue s k x).funcs = s.funcs := rfl
@[simp] theorem setQueue_slots (k : Nat) (x : Queue) : (setQueue s k x).slots = s.slots := rfl
@[simp] theorem setQueue_tlb (k : Nat) (x : Queue) : (setQueue s k x).tlb = s.tlb := rfl
@[simp] theorem setQueue_elems (k : Nat) (x : Queue) : (setQueue s k x).elems = s.elems := rfl
@[simp] theorem setQueue_faults (k : Nat) (x : Queue) : (setQueue s k x).faults = s.faults := rfl
@[simp] theorem setQueue_cmds (k : Nat) (x : Queue) : (setQueue s k x).cmds = s.cmds := rfl
@[simp] theorem setQueue_mats (k : Nat) (x : Queue) : (setQueue s k x).mats = s.mats := rfl
@[simp] theorem setQueue_signs (k : Nat) (x : Queue) : (setQueue s k x).signs = s.signs := rfl
@[simp] theorem setQueue_rels (k : Nat) (x : Queue) : (setQueue s k x).rels = s.rels := rfl
@[simp] theorem setQueue_acqs (k : Nat) (x : Queue) : (setQueue s k x).acqs = s.acqs := rfl
@[simp] theorem setQueue_recs (k : Nat) (x : Queue) : (setQueue s k x).recs = s.recs := rfl
@[simp] theorem setQueue_gang (k : Nat) (x : Queue) : (setQueue s k x).gang = s.gang := rfl
@[simp] theorem setQueue_supply (k : Nat) (x : Queue) : (setQueue s k x).supply = s.supply := rfl
@[simp] theorem setQueue_peers (k : Nat) (x : Queue) : (setQueue s k x).peers = s.peers := rfl
@[simp] theorem setQueue_pcie (k : Nat) (x : Queue) : (setQueue s k x).pcie = s.pcie := rfl
@[simp] theorem setQueue_freezer (k : Nat) (x : Queue) : (setQueue s k x).freezer = s.freezer := rfl
@[simp] theorem setQueue_obs (k : Nat) (x : Queue) : (setQueue s k x).obs = s.obs := rfl
@[simp] theorem setQueue_anchor (k : Nat) (x : Queue) : (setQueue s k x).anchor = s.anchor := rfl
@[simp] theorem setQueue_struck (k : Nat) (x : Queue) : (setQueue s k x).struck = s.struck := rfl
@[simp] theorem setQueue_objOps (k : Nat) (x : Queue) : (setQueue s k x).objOps = s.objOps := rfl

/-! ## setXing -/
@[simp] theorem setXing_agenda (k : Nat) (x : Crossing) : (setXing s k x).agenda = s.agenda := rfl
@[simp] theorem setXing_cur (k : Nat) (x : Crossing) : (setXing s k x).cur = s.cur := rfl
@[simp] theorem setXing_now (k : Nat) (x : Crossing) : (setXing s k x).now = s.now := rfl
@[simp] theorem setXing_fresh (k : Nat) (x : Crossing) : (setXing s k x).fresh = s.fresh := rfl
@[simp] theorem setXing_uid (k : Nat) (x : Crossing) : (setXing s k x).uid = s.uid := rfl
@[simp] theorem setXing_issued (k : Nat) (x : Crossing) : (setXing s k x).issued = s.issued := rfl
@[simp] theorem setXing_mem (k : Nat) (x : Crossing) : (setXing s k x).mem = s.mem := rfl
@[simp] theorem setXing_l2 (k : Nat) (x : Crossing) : (setXing s k x).l2 = s.l2 := rfl
@[simp] theorem setXing_plaza (k : Nat) (x : Crossing) : (setXing s k x).plaza = s.plaza := rfl
@[simp] theorem setXing_groups (k : Nat) (x : Crossing) : (setXing s k x).groups = s.groups := rfl
@[simp] theorem setXing_teams (k : Nat) (x : Crossing) : (setXing s k x).teams = s.teams := rfl
@[simp] theorem setXing_launches (k : Nat) (x : Crossing) : (setXing s k x).launches = s.launches := rfl
@[simp] theorem setXing_cores (k : Nat) (x : Crossing) : (setXing s k x).cores = s.cores := rfl
@[simp] theorem setXing_queues (k : Nat) (x : Crossing) : (setXing s k x).queues = s.queues := rfl
@[simp] theorem setXing_xings (k : Nat) (x : Crossing) : (setXing s k x).xings = tabPut s.xings k x := rfl
@[simp] theorem setXing_graphs (k : Nat) (x : Crossing) : (setXing s k x).graphs = s.graphs := rfl
@[simp] theorem setXing_store (k : Nat) (x : Crossing) : (setXing s k x).store = s.store := rfl
@[simp] theorem setXing_funcs (k : Nat) (x : Crossing) : (setXing s k x).funcs = s.funcs := rfl
@[simp] theorem setXing_slots (k : Nat) (x : Crossing) : (setXing s k x).slots = s.slots := rfl
@[simp] theorem setXing_tlb (k : Nat) (x : Crossing) : (setXing s k x).tlb = s.tlb := rfl
@[simp] theorem setXing_elems (k : Nat) (x : Crossing) : (setXing s k x).elems = s.elems := rfl
@[simp] theorem setXing_faults (k : Nat) (x : Crossing) : (setXing s k x).faults = s.faults := rfl
@[simp] theorem setXing_cmds (k : Nat) (x : Crossing) : (setXing s k x).cmds = s.cmds := rfl
@[simp] theorem setXing_mats (k : Nat) (x : Crossing) : (setXing s k x).mats = s.mats := rfl
@[simp] theorem setXing_signs (k : Nat) (x : Crossing) : (setXing s k x).signs = s.signs := rfl
@[simp] theorem setXing_rels (k : Nat) (x : Crossing) : (setXing s k x).rels = s.rels := rfl
@[simp] theorem setXing_acqs (k : Nat) (x : Crossing) : (setXing s k x).acqs = s.acqs := rfl
@[simp] theorem setXing_recs (k : Nat) (x : Crossing) : (setXing s k x).recs = s.recs := rfl
@[simp] theorem setXing_gang (k : Nat) (x : Crossing) : (setXing s k x).gang = s.gang := rfl
@[simp] theorem setXing_supply (k : Nat) (x : Crossing) : (setXing s k x).supply = s.supply := rfl
@[simp] theorem setXing_peers (k : Nat) (x : Crossing) : (setXing s k x).peers = s.peers := rfl
@[simp] theorem setXing_pcie (k : Nat) (x : Crossing) : (setXing s k x).pcie = s.pcie := rfl
@[simp] theorem setXing_freezer (k : Nat) (x : Crossing) : (setXing s k x).freezer = s.freezer := rfl
@[simp] theorem setXing_obs (k : Nat) (x : Crossing) : (setXing s k x).obs = s.obs := rfl
@[simp] theorem setXing_anchor (k : Nat) (x : Crossing) : (setXing s k x).anchor = s.anchor := rfl
@[simp] theorem setXing_struck (k : Nat) (x : Crossing) : (setXing s k x).struck = s.struck := rfl
@[simp] theorem setXing_objOps (k : Nat) (x : Crossing) : (setXing s k x).objOps = s.objOps := rfl

/-! ## setGraph -/
@[simp] theorem setGraph_agenda (k : Nat) (x : Graph) : (setGraph s k x).agenda = s.agenda := rfl
@[simp] theorem setGraph_cur (k : Nat) (x : Graph) : (setGraph s k x).cur = s.cur := rfl
@[simp] theorem setGraph_now (k : Nat) (x : Graph) : (setGraph s k x).now = s.now := rfl
@[simp] theorem setGraph_fresh (k : Nat) (x : Graph) : (setGraph s k x).fresh = s.fresh := rfl
@[simp] theorem setGraph_uid (k : Nat) (x : Graph) : (setGraph s k x).uid = s.uid := rfl
@[simp] theorem setGraph_issued (k : Nat) (x : Graph) : (setGraph s k x).issued = s.issued := rfl
@[simp] theorem setGraph_mem (k : Nat) (x : Graph) : (setGraph s k x).mem = s.mem := rfl
@[simp] theorem setGraph_l2 (k : Nat) (x : Graph) : (setGraph s k x).l2 = s.l2 := rfl
@[simp] theorem setGraph_plaza (k : Nat) (x : Graph) : (setGraph s k x).plaza = s.plaza := rfl
@[simp] theorem setGraph_groups (k : Nat) (x : Graph) : (setGraph s k x).groups = s.groups := rfl
@[simp] theorem setGraph_teams (k : Nat) (x : Graph) : (setGraph s k x).teams = s.teams := rfl
@[simp] theorem setGraph_launches (k : Nat) (x : Graph) : (setGraph s k x).launches = s.launches := rfl
@[simp] theorem setGraph_cores (k : Nat) (x : Graph) : (setGraph s k x).cores = s.cores := rfl
@[simp] theorem setGraph_queues (k : Nat) (x : Graph) : (setGraph s k x).queues = s.queues := rfl
@[simp] theorem setGraph_xings (k : Nat) (x : Graph) : (setGraph s k x).xings = s.xings := rfl
@[simp] theorem setGraph_graphs (k : Nat) (x : Graph) : (setGraph s k x).graphs = tabPut s.graphs k x := rfl
@[simp] theorem setGraph_store (k : Nat) (x : Graph) : (setGraph s k x).store = s.store := rfl
@[simp] theorem setGraph_funcs (k : Nat) (x : Graph) : (setGraph s k x).funcs = s.funcs := rfl
@[simp] theorem setGraph_slots (k : Nat) (x : Graph) : (setGraph s k x).slots = s.slots := rfl
@[simp] theorem setGraph_tlb (k : Nat) (x : Graph) : (setGraph s k x).tlb = s.tlb := rfl
@[simp] theorem setGraph_elems (k : Nat) (x : Graph) : (setGraph s k x).elems = s.elems := rfl
@[simp] theorem setGraph_faults (k : Nat) (x : Graph) : (setGraph s k x).faults = s.faults := rfl
@[simp] theorem setGraph_cmds (k : Nat) (x : Graph) : (setGraph s k x).cmds = s.cmds := rfl
@[simp] theorem setGraph_mats (k : Nat) (x : Graph) : (setGraph s k x).mats = s.mats := rfl
@[simp] theorem setGraph_signs (k : Nat) (x : Graph) : (setGraph s k x).signs = s.signs := rfl
@[simp] theorem setGraph_rels (k : Nat) (x : Graph) : (setGraph s k x).rels = s.rels := rfl
@[simp] theorem setGraph_acqs (k : Nat) (x : Graph) : (setGraph s k x).acqs = s.acqs := rfl
@[simp] theorem setGraph_recs (k : Nat) (x : Graph) : (setGraph s k x).recs = s.recs := rfl
@[simp] theorem setGraph_gang (k : Nat) (x : Graph) : (setGraph s k x).gang = s.gang := rfl
@[simp] theorem setGraph_supply (k : Nat) (x : Graph) : (setGraph s k x).supply = s.supply := rfl
@[simp] theorem setGraph_peers (k : Nat) (x : Graph) : (setGraph s k x).peers = s.peers := rfl
@[simp] theorem setGraph_pcie (k : Nat) (x : Graph) : (setGraph s k x).pcie = s.pcie := rfl
@[simp] theorem setGraph_freezer (k : Nat) (x : Graph) : (setGraph s k x).freezer = s.freezer := rfl
@[simp] theorem setGraph_obs (k : Nat) (x : Graph) : (setGraph s k x).obs = s.obs := rfl
@[simp] theorem setGraph_anchor (k : Nat) (x : Graph) : (setGraph s k x).anchor = s.anchor := rfl
@[simp] theorem setGraph_struck (k : Nat) (x : Graph) : (setGraph s k x).struck = s.struck := rfl
@[simp] theorem setGraph_objOps (k : Nat) (x : Graph) : (setGraph s k x).objOps = s.objOps := rfl

/-! ## setSlot -/
@[simp] theorem setSlot_agenda (f i : Nat) (x : PSlot) : (setSlot s f i x).agenda = s.agenda := rfl
@[simp] theorem setSlot_cur (f i : Nat) (x : PSlot) : (setSlot s f i x).cur = s.cur := rfl
@[simp] theorem setSlot_now (f i : Nat) (x : PSlot) : (setSlot s f i x).now = s.now := rfl
@[simp] theorem setSlot_fresh (f i : Nat) (x : PSlot) : (setSlot s f i x).fresh = s.fresh := rfl
@[simp] theorem setSlot_uid (f i : Nat) (x : PSlot) : (setSlot s f i x).uid = s.uid := rfl
@[simp] theorem setSlot_issued (f i : Nat) (x : PSlot) : (setSlot s f i x).issued = s.issued := rfl
@[simp] theorem setSlot_mem (f i : Nat) (x : PSlot) : (setSlot s f i x).mem = s.mem := rfl
@[simp] theorem setSlot_l2 (f i : Nat) (x : PSlot) : (setSlot s f i x).l2 = s.l2 := rfl
@[simp] theorem setSlot_plaza (f i : Nat) (x : PSlot) : (setSlot s f i x).plaza = s.plaza := rfl
@[simp] theorem setSlot_groups (f i : Nat) (x : PSlot) : (setSlot s f i x).groups = s.groups := rfl
@[simp] theorem setSlot_teams (f i : Nat) (x : PSlot) : (setSlot s f i x).teams = s.teams := rfl
@[simp] theorem setSlot_launches (f i : Nat) (x : PSlot) : (setSlot s f i x).launches = s.launches := rfl
@[simp] theorem setSlot_cores (f i : Nat) (x : PSlot) : (setSlot s f i x).cores = s.cores := rfl
@[simp] theorem setSlot_queues (f i : Nat) (x : PSlot) : (setSlot s f i x).queues = s.queues := rfl
@[simp] theorem setSlot_xings (f i : Nat) (x : PSlot) : (setSlot s f i x).xings = s.xings := rfl
@[simp] theorem setSlot_graphs (f i : Nat) (x : PSlot) : (setSlot s f i x).graphs = s.graphs := rfl
@[simp] theorem setSlot_store (f i : Nat) (x : PSlot) : (setSlot s f i x).store = s.store := rfl
@[simp] theorem setSlot_funcs (f i : Nat) (x : PSlot) : (setSlot s f i x).funcs = s.funcs := rfl
@[simp] theorem setSlot_slots (f i : Nat) (x : PSlot) : (setSlot s f i x).slots = tabPut s.slots (slotKey f i) x := rfl
@[simp] theorem setSlot_tlb (f i : Nat) (x : PSlot) : (setSlot s f i x).tlb = s.tlb := rfl
@[simp] theorem setSlot_elems (f i : Nat) (x : PSlot) : (setSlot s f i x).elems = s.elems := rfl
@[simp] theorem setSlot_faults (f i : Nat) (x : PSlot) : (setSlot s f i x).faults = s.faults := rfl
@[simp] theorem setSlot_cmds (f i : Nat) (x : PSlot) : (setSlot s f i x).cmds = s.cmds := rfl
@[simp] theorem setSlot_mats (f i : Nat) (x : PSlot) : (setSlot s f i x).mats = s.mats := rfl
@[simp] theorem setSlot_signs (f i : Nat) (x : PSlot) : (setSlot s f i x).signs = s.signs := rfl
@[simp] theorem setSlot_rels (f i : Nat) (x : PSlot) : (setSlot s f i x).rels = s.rels := rfl
@[simp] theorem setSlot_acqs (f i : Nat) (x : PSlot) : (setSlot s f i x).acqs = s.acqs := rfl
@[simp] theorem setSlot_recs (f i : Nat) (x : PSlot) : (setSlot s f i x).recs = s.recs := rfl
@[simp] theorem setSlot_gang (f i : Nat) (x : PSlot) : (setSlot s f i x).gang = s.gang := rfl
@[simp] theorem setSlot_supply (f i : Nat) (x : PSlot) : (setSlot s f i x).supply = s.supply := rfl
@[simp] theorem setSlot_peers (f i : Nat) (x : PSlot) : (setSlot s f i x).peers = s.peers := rfl
@[simp] theorem setSlot_pcie (f i : Nat) (x : PSlot) : (setSlot s f i x).pcie = s.pcie := rfl
@[simp] theorem setSlot_freezer (f i : Nat) (x : PSlot) : (setSlot s f i x).freezer = s.freezer := rfl
@[simp] theorem setSlot_obs (f i : Nat) (x : PSlot) : (setSlot s f i x).obs = s.obs := rfl
@[simp] theorem setSlot_anchor (f i : Nat) (x : PSlot) : (setSlot s f i x).anchor = s.anchor := rfl
@[simp] theorem setSlot_struck (f i : Nat) (x : PSlot) : (setSlot s f i x).struck = s.struck := rfl
@[simp] theorem setSlot_objOps (f i : Nat) (x : PSlot) : (setSlot s f i x).objOps = s.objOps := rfl

/-! ## signal -/
@[simp] theorem signal_agenda (f v : Nat) : (signal s f v).agenda = s.agenda := rfl
@[simp] theorem signal_cur (f v : Nat) : (signal s f v).cur = s.cur := rfl
@[simp] theorem signal_now (f v : Nat) : (signal s f v).now = s.now := rfl
@[simp] theorem signal_fresh (f v : Nat) : (signal s f v).fresh = s.fresh := rfl
@[simp] theorem signal_uid (f v : Nat) : (signal s f v).uid = s.uid := rfl
@[simp] theorem signal_issued (f v : Nat) : (signal s f v).issued = s.issued := rfl
@[simp] theorem signal_mem (f v : Nat) : (signal s f v).mem = s.mem := rfl
@[simp] theorem signal_l2 (f v : Nat) : (signal s f v).l2 = s.l2 := rfl
@[simp] theorem signal_plaza (f v : Nat) : (signal s f v).plaza = s.plaza := rfl
@[simp] theorem signal_groups (f v : Nat) : (signal s f v).groups = s.groups := rfl
@[simp] theorem signal_teams (f v : Nat) : (signal s f v).teams = s.teams := rfl
@[simp] theorem signal_launches (f v : Nat) : (signal s f v).launches = s.launches := rfl
@[simp] theorem signal_cores (f v : Nat) : (signal s f v).cores = s.cores := rfl
@[simp] theorem signal_queues (f v : Nat) : (signal s f v).queues = s.queues := rfl
@[simp] theorem signal_xings (f v : Nat) : (signal s f v).xings = s.xings := rfl
@[simp] theorem signal_graphs (f v : Nat) : (signal s f v).graphs = s.graphs := rfl
@[simp] theorem signal_store (f v : Nat) : (signal s f v).store = s.store := rfl
@[simp] theorem signal_funcs (f v : Nat) : (signal s f v).funcs = s.funcs := rfl
@[simp] theorem signal_slots (f v : Nat) : (signal s f v).slots = s.slots := rfl
@[simp] theorem signal_tlb (f v : Nat) : (signal s f v).tlb = s.tlb := rfl
@[simp] theorem signal_elems (f v : Nat) : (signal s f v).elems = s.elems := rfl
@[simp] theorem signal_faults (f v : Nat) : (signal s f v).faults = s.faults := rfl
@[simp] theorem signal_cmds (f v : Nat) : (signal s f v).cmds = s.cmds := rfl
@[simp] theorem signal_mats (f v : Nat) : (signal s f v).mats = s.mats := rfl
@[simp] theorem signal_signs (f v : Nat) : (signal s f v).signs = s.signs := rfl
@[simp] theorem signal_rels (f v : Nat) : (signal s f v).rels = s.rels := rfl
@[simp] theorem signal_acqs (f v : Nat) : (signal s f v).acqs = s.acqs := rfl
@[simp] theorem signal_recs (f v : Nat) : (signal s f v).recs = s.recs := rfl
@[simp] theorem signal_gang (f v : Nat) : (signal s f v).gang = s.gang := rfl
@[simp] theorem signal_supply (f v : Nat) : (signal s f v).supply = s.supply := rfl
@[simp] theorem signal_peers (f v : Nat) : (signal s f v).peers = s.peers := rfl
@[simp] theorem signal_pcie (f v : Nat) : (signal s f v).pcie = { s.pcie with irqs := s.pcie.irqs ++ [(f, v)] } := rfl
@[simp] theorem signal_freezer (f v : Nat) : (signal s f v).freezer = s.freezer := rfl
@[simp] theorem signal_obs (f v : Nat) : (signal s f v).obs = s.obs := rfl
@[simp] theorem signal_anchor (f v : Nat) : (signal s f v).anchor = s.anchor := rfl
@[simp] theorem signal_struck (f v : Nat) : (signal s f v).struck = s.struck := rfl
@[simp] theorem signal_objOps (f v : Nat) : (signal s f v).objOps = s.objOps := rfl

/-! ## updAnchor -/
@[simp] theorem updAnchor_agenda (f : Anchor → Anchor) : (updAnchor s f).agenda = s.agenda := rfl
@[simp] theorem updAnchor_cur (f : Anchor → Anchor) : (updAnchor s f).cur = s.cur := rfl
@[simp] theorem updAnchor_now (f : Anchor → Anchor) : (updAnchor s f).now = s.now := rfl
@[simp] theorem updAnchor_fresh (f : Anchor → Anchor) : (updAnchor s f).fresh = s.fresh := rfl
@[simp] theorem updAnchor_uid (f : Anchor → Anchor) : (updAnchor s f).uid = s.uid := rfl
@[simp] theorem updAnchor_issued (f : Anchor → Anchor) : (updAnchor s f).issued = s.issued := rfl
@[simp] theorem updAnchor_mem (f : Anchor → Anchor) : (updAnchor s f).mem = s.mem := rfl
@[simp] theorem updAnchor_l2 (f : Anchor → Anchor) : (updAnchor s f).l2 = s.l2 := rfl
@[simp] theorem updAnchor_plaza (f : Anchor → Anchor) : (updAnchor s f).plaza = s.plaza := rfl
@[simp] theorem updAnchor_groups (f : Anchor → Anchor) : (updAnchor s f).groups = s.groups := rfl
@[simp] theorem updAnchor_teams (f : Anchor → Anchor) : (updAnchor s f).teams = s.teams := rfl
@[simp] theorem updAnchor_launches (f : Anchor → Anchor) : (updAnchor s f).launches = s.launches := rfl
@[simp] theorem updAnchor_cores (f : Anchor → Anchor) : (updAnchor s f).cores = s.cores := rfl
@[simp] theorem updAnchor_queues (f : Anchor → Anchor) : (updAnchor s f).queues = s.queues := rfl
@[simp] theorem updAnchor_xings (f : Anchor → Anchor) : (updAnchor s f).xings = s.xings := rfl
@[simp] theorem updAnchor_graphs (f : Anchor → Anchor) : (updAnchor s f).graphs = s.graphs := rfl
@[simp] theorem updAnchor_store (f : Anchor → Anchor) : (updAnchor s f).store = s.store := rfl
@[simp] theorem updAnchor_funcs (f : Anchor → Anchor) : (updAnchor s f).funcs = s.funcs := rfl
@[simp] theorem updAnchor_slots (f : Anchor → Anchor) : (updAnchor s f).slots = s.slots := rfl
@[simp] theorem updAnchor_tlb (f : Anchor → Anchor) : (updAnchor s f).tlb = s.tlb := rfl
@[simp] theorem updAnchor_elems (f : Anchor → Anchor) : (updAnchor s f).elems = s.elems := rfl
@[simp] theorem updAnchor_faults (f : Anchor → Anchor) : (updAnchor s f).faults = s.faults := rfl
@[simp] theorem updAnchor_cmds (f : Anchor → Anchor) : (updAnchor s f).cmds = s.cmds := rfl
@[simp] theorem updAnchor_mats (f : Anchor → Anchor) : (updAnchor s f).mats = s.mats := rfl
@[simp] theorem updAnchor_signs (f : Anchor → Anchor) : (updAnchor s f).signs = s.signs := rfl
@[simp] theorem updAnchor_rels (f : Anchor → Anchor) : (updAnchor s f).rels = s.rels := rfl
@[simp] theorem updAnchor_acqs (f : Anchor → Anchor) : (updAnchor s f).acqs = s.acqs := rfl
@[simp] theorem updAnchor_recs (f : Anchor → Anchor) : (updAnchor s f).recs = s.recs := rfl
@[simp] theorem updAnchor_gang (f : Anchor → Anchor) : (updAnchor s f).gang = s.gang := rfl
@[simp] theorem updAnchor_supply (f : Anchor → Anchor) : (updAnchor s f).supply = s.supply := rfl
@[simp] theorem updAnchor_peers (f : Anchor → Anchor) : (updAnchor s f).peers = s.peers := rfl
@[simp] theorem updAnchor_pcie (f : Anchor → Anchor) : (updAnchor s f).pcie = s.pcie := rfl
@[simp] theorem updAnchor_freezer (f : Anchor → Anchor) : (updAnchor s f).freezer = s.freezer := rfl
@[simp] theorem updAnchor_obs (f : Anchor → Anchor) : (updAnchor s f).obs = s.obs := rfl
@[simp] theorem updAnchor_anchor (f : Anchor → Anchor) : (updAnchor s f).anchor = f s.anchor := rfl

/-! ## updSupply -/
@[simp] theorem updSupply_agenda (f : Supply → Supply) : (updSupply s f).agenda = s.agenda := rfl
@[simp] theorem updSupply_cur (f : Supply → Supply) : (updSupply s f).cur = s.cur := rfl
@[simp] theorem updSupply_now (f : Supply → Supply) : (updSupply s f).now = s.now := rfl
@[simp] theorem updSupply_fresh (f : Supply → Supply) : (updSupply s f).fresh = s.fresh := rfl
@[simp] theorem updSupply_uid (f : Supply → Supply) : (updSupply s f).uid = s.uid := rfl
@[simp] theorem updSupply_issued (f : Supply → Supply) : (updSupply s f).issued = s.issued := rfl
@[simp] theorem updSupply_mem (f : Supply → Supply) : (updSupply s f).mem = s.mem := rfl
@[simp] theorem updSupply_l2 (f : Supply → Supply) : (updSupply s f).l2 = s.l2 := rfl
@[simp] theorem updSupply_plaza (f : Supply → Supply) : (updSupply s f).plaza = s.plaza := rfl
@[simp] theorem updSupply_groups (f : Supply → Supply) : (updSupply s f).groups = s.groups := rfl
@[simp] theorem updSupply_teams (f : Supply → Supply) : (updSupply s f).teams = s.teams := rfl
@[simp] theorem updSupply_launches (f : Supply → Supply) : (updSupply s f).launches = s.launches := rfl
@[simp] theorem updSupply_cores (f : Supply → Supply) : (updSupply s f).cores = s.cores := rfl
@[simp] theorem updSupply_queues (f : Supply → Supply) : (updSupply s f).queues = s.queues := rfl
@[simp] theorem updSupply_xings (f : Supply → Supply) : (updSupply s f).xings = s.xings := rfl
@[simp] theorem updSupply_graphs (f : Supply → Supply) : (updSupply s f).graphs = s.graphs := rfl
@[simp] theorem updSupply_store (f : Supply → Supply) : (updSupply s f).store = s.store := rfl
@[simp] theorem updSupply_funcs (f : Supply → Supply) : (updSupply s f).funcs = s.funcs := rfl
@[simp] theorem updSupply_slots (f : Supply → Supply) : (updSupply s f).slots = s.slots := rfl
@[simp] theorem updSupply_tlb (f : Supply → Supply) : (updSupply s f).tlb = s.tlb := rfl
@[simp] theorem updSupply_elems (f : Supply → Supply) : (updSupply s f).elems = s.elems := rfl
@[simp] theorem updSupply_faults (f : Supply → Supply) : (updSupply s f).faults = s.faults := rfl
@[simp] theorem updSupply_cmds (f : Supply → Supply) : (updSupply s f).cmds = s.cmds := rfl
@[simp] theorem updSupply_mats (f : Supply → Supply) : (updSupply s f).mats = s.mats := rfl
@[simp] theorem updSupply_signs (f : Supply → Supply) : (updSupply s f).signs = s.signs := rfl
@[simp] theorem updSupply_rels (f : Supply → Supply) : (updSupply s f).rels = s.rels := rfl
@[simp] theorem updSupply_acqs (f : Supply → Supply) : (updSupply s f).acqs = s.acqs := rfl
@[simp] theorem updSupply_recs (f : Supply → Supply) : (updSupply s f).recs = s.recs := rfl
@[simp] theorem updSupply_gang (f : Supply → Supply) : (updSupply s f).gang = s.gang := rfl
@[simp] theorem updSupply_supply (f : Supply → Supply) : (updSupply s f).supply = f s.supply := rfl
@[simp] theorem updSupply_peers (f : Supply → Supply) : (updSupply s f).peers = s.peers := rfl
@[simp] theorem updSupply_pcie (f : Supply → Supply) : (updSupply s f).pcie = s.pcie := rfl
@[simp] theorem updSupply_freezer (f : Supply → Supply) : (updSupply s f).freezer = s.freezer := rfl
@[simp] theorem updSupply_obs (f : Supply → Supply) : (updSupply s f).obs = s.obs := rfl
@[simp] theorem updSupply_anchor (f : Supply → Supply) : (updSupply s f).anchor = s.anchor := rfl
@[simp] theorem updSupply_struck (f : Supply → Supply) : (updSupply s f).struck = s.struck := rfl
@[simp] theorem updSupply_objOps (f : Supply → Supply) : (updSupply s f).objOps = s.objOps := rfl

/-! ## updFreezer -/
@[simp] theorem updFreezer_agenda (f : Freezer → Freezer) : (updFreezer s f).agenda = s.agenda := rfl
@[simp] theorem updFreezer_cur (f : Freezer → Freezer) : (updFreezer s f).cur = s.cur := rfl
@[simp] theorem updFreezer_now (f : Freezer → Freezer) : (updFreezer s f).now = s.now := rfl
@[simp] theorem updFreezer_fresh (f : Freezer → Freezer) : (updFreezer s f).fresh = s.fresh := rfl
@[simp] theorem updFreezer_uid (f : Freezer → Freezer) : (updFreezer s f).uid = s.uid := rfl
@[simp] theorem updFreezer_issued (f : Freezer → Freezer) : (updFreezer s f).issued = s.issued := rfl
@[simp] theorem updFreezer_mem (f : Freezer → Freezer) : (updFreezer s f).mem = s.mem := rfl
@[simp] theorem updFreezer_l2 (f : Freezer → Freezer) : (updFreezer s f).l2 = s.l2 := rfl
@[simp] theorem updFreezer_plaza (f : Freezer → Freezer) : (updFreezer s f).plaza = s.plaza := rfl
@[simp] theorem updFreezer_groups (f : Freezer → Freezer) : (updFreezer s f).groups = s.groups := rfl
@[simp] theorem updFreezer_teams (f : Freezer → Freezer) : (updFreezer s f).teams = s.teams := rfl
@[simp] theorem updFreezer_launches (f : Freezer → Freezer) : (updFreezer s f).launches = s.launches := rfl
@[simp] theorem updFreezer_cores (f : Freezer → Freezer) : (updFreezer s f).cores = s.cores := rfl
@[simp] theorem updFreezer_queues (f : Freezer → Freezer) : (updFreezer s f).queues = s.queues := rfl
@[simp] theorem updFreezer_xings (f : Freezer → Freezer) : (updFreezer s f).xings = s.xings := rfl
@[simp] theorem updFreezer_graphs (f : Freezer → Freezer) : (updFreezer s f).graphs = s.graphs := rfl
@[simp] theorem updFreezer_store (f : Freezer → Freezer) : (updFreezer s f).store = s.store := rfl
@[simp] theorem updFreezer_funcs (f : Freezer → Freezer) : (updFreezer s f).funcs = s.funcs := rfl
@[simp] theorem updFreezer_slots (f : Freezer → Freezer) : (updFreezer s f).slots = s.slots := rfl
@[simp] theorem updFreezer_tlb (f : Freezer → Freezer) : (updFreezer s f).tlb = s.tlb := rfl
@[simp] theorem updFreezer_elems (f : Freezer → Freezer) : (updFreezer s f).elems = s.elems := rfl
@[simp] theorem updFreezer_faults (f : Freezer → Freezer) : (updFreezer s f).faults = s.faults := rfl
@[simp] theorem updFreezer_cmds (f : Freezer → Freezer) : (updFreezer s f).cmds = s.cmds := rfl
@[simp] theorem updFreezer_mats (f : Freezer → Freezer) : (updFreezer s f).mats = s.mats := rfl
@[simp] theorem updFreezer_signs (f : Freezer → Freezer) : (updFreezer s f).signs = s.signs := rfl
@[simp] theorem updFreezer_rels (f : Freezer → Freezer) : (updFreezer s f).rels = s.rels := rfl
@[simp] theorem updFreezer_acqs (f : Freezer → Freezer) : (updFreezer s f).acqs = s.acqs := rfl
@[simp] theorem updFreezer_recs (f : Freezer → Freezer) : (updFreezer s f).recs = s.recs := rfl
@[simp] theorem updFreezer_gang (f : Freezer → Freezer) : (updFreezer s f).gang = s.gang := rfl
@[simp] theorem updFreezer_supply (f : Freezer → Freezer) : (updFreezer s f).supply = s.supply := rfl
@[simp] theorem updFreezer_peers (f : Freezer → Freezer) : (updFreezer s f).peers = s.peers := rfl
@[simp] theorem updFreezer_pcie (f : Freezer → Freezer) : (updFreezer s f).pcie = s.pcie := rfl
@[simp] theorem updFreezer_freezer (f : Freezer → Freezer) : (updFreezer s f).freezer = f s.freezer := rfl
@[simp] theorem updFreezer_obs (f : Freezer → Freezer) : (updFreezer s f).obs = s.obs := rfl
@[simp] theorem updFreezer_anchor (f : Freezer → Freezer) : (updFreezer s f).anchor = s.anchor := rfl
@[simp] theorem updFreezer_struck (f : Freezer → Freezer) : (updFreezer s f).struck = s.struck := rfl
@[simp] theorem updFreezer_objOps (f : Freezer → Freezer) : (updFreezer s f).objOps = s.objOps := rfl

/-! ## updObs -/
@[simp] theorem updObs_agenda (f : Observe → Observe) : (updObs s f).agenda = s.agenda := rfl
@[simp] theorem updObs_cur (f : Observe → Observe) : (updObs s f).cur = s.cur := rfl
@[simp] theorem updObs_now (f : Observe → Observe) : (updObs s f).now = s.now := rfl
@[simp] theorem updObs_fresh (f : Observe → Observe) : (updObs s f).fresh = s.fresh := rfl
@[simp] theorem updObs_uid (f : Observe → Observe) : (updObs s f).uid = s.uid := rfl
@[simp] theorem updObs_issued (f : Observe → Observe) : (updObs s f).issued = s.issued := rfl
@[simp] theorem updObs_mem (f : Observe → Observe) : (updObs s f).mem = s.mem := rfl
@[simp] theorem updObs_l2 (f : Observe → Observe) : (updObs s f).l2 = s.l2 := rfl
@[simp] theorem updObs_plaza (f : Observe → Observe) : (updObs s f).plaza = s.plaza := rfl
@[simp] theorem updObs_groups (f : Observe → Observe) : (updObs s f).groups = s.groups := rfl
@[simp] theorem updObs_teams (f : Observe → Observe) : (updObs s f).teams = s.teams := rfl
@[simp] theorem updObs_launches (f : Observe → Observe) : (updObs s f).launches = s.launches := rfl
@[simp] theorem updObs_cores (f : Observe → Observe) : (updObs s f).cores = s.cores := rfl
@[simp] theorem updObs_queues (f : Observe → Observe) : (updObs s f).queues = s.queues := rfl
@[simp] theorem updObs_xings (f : Observe → Observe) : (updObs s f).xings = s.xings := rfl
@[simp] theorem updObs_graphs (f : Observe → Observe) : (updObs s f).graphs = s.graphs := rfl
@[simp] theorem updObs_store (f : Observe → Observe) : (updObs s f).store = s.store := rfl
@[simp] theorem updObs_funcs (f : Observe → Observe) : (updObs s f).funcs = s.funcs := rfl
@[simp] theorem updObs_slots (f : Observe → Observe) : (updObs s f).slots = s.slots := rfl
@[simp] theorem updObs_tlb (f : Observe → Observe) : (updObs s f).tlb = s.tlb := rfl
@[simp] theorem updObs_elems (f : Observe → Observe) : (updObs s f).elems = s.elems := rfl
@[simp] theorem updObs_faults (f : Observe → Observe) : (updObs s f).faults = s.faults := rfl
@[simp] theorem updObs_cmds (f : Observe → Observe) : (updObs s f).cmds = s.cmds := rfl
@[simp] theorem updObs_mats (f : Observe → Observe) : (updObs s f).mats = s.mats := rfl
@[simp] theorem updObs_signs (f : Observe → Observe) : (updObs s f).signs = s.signs := rfl
@[simp] theorem updObs_rels (f : Observe → Observe) : (updObs s f).rels = s.rels := rfl
@[simp] theorem updObs_acqs (f : Observe → Observe) : (updObs s f).acqs = s.acqs := rfl
@[simp] theorem updObs_recs (f : Observe → Observe) : (updObs s f).recs = s.recs := rfl
@[simp] theorem updObs_gang (f : Observe → Observe) : (updObs s f).gang = s.gang := rfl
@[simp] theorem updObs_supply (f : Observe → Observe) : (updObs s f).supply = s.supply := rfl
@[simp] theorem updObs_peers (f : Observe → Observe) : (updObs s f).peers = s.peers := rfl
@[simp] theorem updObs_pcie (f : Observe → Observe) : (updObs s f).pcie = s.pcie := rfl
@[simp] theorem updObs_freezer (f : Observe → Observe) : (updObs s f).freezer = s.freezer := rfl
@[simp] theorem updObs_obs (f : Observe → Observe) : (updObs s f).obs = f s.obs := rfl
@[simp] theorem updObs_anchor (f : Observe → Observe) : (updObs s f).anchor = s.anchor := rfl
@[simp] theorem updObs_struck (f : Observe → Observe) : (updObs s f).struck = s.struck := rfl
@[simp] theorem updObs_objOps (f : Observe → Observe) : (updObs s f).objOps = s.objOps := rfl

/-! ## updPeers -/
@[simp] theorem updPeers_agenda (f : Peers → Peers) : (updPeers s f).agenda = s.agenda := rfl
@[simp] theorem updPeers_cur (f : Peers → Peers) : (updPeers s f).cur = s.cur := rfl
@[simp] theorem updPeers_now (f : Peers → Peers) : (updPeers s f).now = s.now := rfl
@[simp] theorem updPeers_fresh (f : Peers → Peers) : (updPeers s f).fresh = s.fresh := rfl
@[simp] theorem updPeers_uid (f : Peers → Peers) : (updPeers s f).uid = s.uid := rfl
@[simp] theorem updPeers_issued (f : Peers → Peers) : (updPeers s f).issued = s.issued := rfl
@[simp] theorem updPeers_mem (f : Peers → Peers) : (updPeers s f).mem = s.mem := rfl
@[simp] theorem updPeers_l2 (f : Peers → Peers) : (updPeers s f).l2 = s.l2 := rfl
@[simp] theorem updPeers_plaza (f : Peers → Peers) : (updPeers s f).plaza = s.plaza := rfl
@[simp] theorem updPeers_groups (f : Peers → Peers) : (updPeers s f).groups = s.groups := rfl
@[simp] theorem updPeers_teams (f : Peers → Peers) : (updPeers s f).teams = s.teams := rfl
@[simp] theorem updPeers_launches (f : Peers → Peers) : (updPeers s f).launches = s.launches := rfl
@[simp] theorem updPeers_cores (f : Peers → Peers) : (updPeers s f).cores = s.cores := rfl
@[simp] theorem updPeers_queues (f : Peers → Peers) : (updPeers s f).queues = s.queues := rfl
@[simp] theorem updPeers_xings (f : Peers → Peers) : (updPeers s f).xings = s.xings := rfl
@[simp] theorem updPeers_graphs (f : Peers → Peers) : (updPeers s f).graphs = s.graphs := rfl
@[simp] theorem updPeers_store (f : Peers → Peers) : (updPeers s f).store = s.store := rfl
@[simp] theorem updPeers_funcs (f : Peers → Peers) : (updPeers s f).funcs = s.funcs := rfl
@[simp] theorem updPeers_slots (f : Peers → Peers) : (updPeers s f).slots = s.slots := rfl
@[simp] theorem updPeers_tlb (f : Peers → Peers) : (updPeers s f).tlb = s.tlb := rfl
@[simp] theorem updPeers_elems (f : Peers → Peers) : (updPeers s f).elems = s.elems := rfl
@[simp] theorem updPeers_faults (f : Peers → Peers) : (updPeers s f).faults = s.faults := rfl
@[simp] theorem updPeers_cmds (f : Peers → Peers) : (updPeers s f).cmds = s.cmds := rfl
@[simp] theorem updPeers_mats (f : Peers → Peers) : (updPeers s f).mats = s.mats := rfl
@[simp] theorem updPeers_signs (f : Peers → Peers) : (updPeers s f).signs = s.signs := rfl
@[simp] theorem updPeers_rels (f : Peers → Peers) : (updPeers s f).rels = s.rels := rfl
@[simp] theorem updPeers_acqs (f : Peers → Peers) : (updPeers s f).acqs = s.acqs := rfl
@[simp] theorem updPeers_recs (f : Peers → Peers) : (updPeers s f).recs = s.recs := rfl
@[simp] theorem updPeers_gang (f : Peers → Peers) : (updPeers s f).gang = s.gang := rfl
@[simp] theorem updPeers_supply (f : Peers → Peers) : (updPeers s f).supply = s.supply := rfl
@[simp] theorem updPeers_peers (f : Peers → Peers) : (updPeers s f).peers = f s.peers := rfl
@[simp] theorem updPeers_pcie (f : Peers → Peers) : (updPeers s f).pcie = s.pcie := rfl
@[simp] theorem updPeers_freezer (f : Peers → Peers) : (updPeers s f).freezer = s.freezer := rfl
@[simp] theorem updPeers_obs (f : Peers → Peers) : (updPeers s f).obs = s.obs := rfl
@[simp] theorem updPeers_anchor (f : Peers → Peers) : (updPeers s f).anchor = s.anchor := rfl
@[simp] theorem updPeers_struck (f : Peers → Peers) : (updPeers s f).struck = s.struck := rfl
@[simp] theorem updPeers_objOps (f : Peers → Peers) : (updPeers s f).objOps = s.objOps := rfl

/-! ## Changes are writes -/
@[simp] theorem updGroup_eq (k : Nat) (f : Group → Group) : updGroup s k f = setGroup s k (f (getGroup s k)) := rfl
@[simp] theorem updTeam_eq (k : Nat) (f : Team → Team) : updTeam s k f = setTeam s k (f (getTeam s k)) := rfl
@[simp] theorem updLaunch_eq (k : Nat) (f : Launch → Launch) : updLaunch s k f = setLaunch s k (f (getLaunch s k)) := rfl
@[simp] theorem updCore_eq (k : Nat) (f : Core → Core) : updCore s k f = setCore s k (f (getCore s k)) := rfl
@[simp] theorem updFunc_eq (k : Nat) (f : Func → Func) : updFunc s k f = setFunc s k (f (getFunc s k)) := rfl
@[simp] theorem updQueue_eq (k : Nat) (f : Queue → Queue) : updQueue s k f = setQueue s k (f (getQueue s k)) := rfl
@[simp] theorem updXing_eq (k : Nat) (f : Crossing → Crossing) : updXing s k f = setXing s k (f (getXing s k)) := rfl
@[simp] theorem updGraph_eq (k : Nat) (f : Graph → Graph) : updGraph s k f = setGraph s k (f (getGraph s k)) := rfl

/-! ## Reads after writes -/
@[simp] theorem getGroup_setGroup_same (k : Nat) (x : Group) : getGroup (setGroup s k x) k = x := by simp [getGroup]
theorem getGroup_setGroup_other (k j : Nat) (x : Group) (h : j ≠ k) : getGroup (setGroup s k x) j = getGroup s j := by
  simp [getGroup, tabGet_tabPut_other _ _ _ _ _ h]
@[simp] theorem getTeam_setGroup (k j : Nat) (x : Group) : getTeam (setGroup s k x) j = getTeam s j := rfl
@[simp] theorem getLaunch_setGroup (k j : Nat) (x : Group) : getLaunch (setGroup s k x) j = getLaunch s j := rfl
@[simp] theorem getCore_setGroup (k j : Nat) (x : Group) : getCore (setGroup s k x) j = getCore s j := rfl
@[simp] theorem getFunc_setGroup (k j : Nat) (x : Group) : getFunc (setGroup s k x) j = getFunc s j := rfl
@[simp] theorem getQueue_setGroup (k j : Nat) (x : Group) : getQueue (setGroup s k x) j = getQueue s j := rfl
@[simp] theorem getXing_setGroup (k j : Nat) (x : Group) : getXing (setGroup s k x) j = getXing s j := rfl
@[simp] theorem getGraph_setGroup (k j : Nat) (x : Group) : getGraph (setGroup s k x) j = getGraph s j := rfl
@[simp] theorem getTeam_setTeam_same (k : Nat) (x : Team) : getTeam (setTeam s k x) k = x := by simp [getTeam]
theorem getTeam_setTeam_other (k j : Nat) (x : Team) (h : j ≠ k) : getTeam (setTeam s k x) j = getTeam s j := by
  simp [getTeam, tabGet_tabPut_other _ _ _ _ _ h]
@[simp] theorem getGroup_setTeam (k j : Nat) (x : Team) : getGroup (setTeam s k x) j = getGroup s j := rfl
@[simp] theorem getLaunch_setTeam (k j : Nat) (x : Team) : getLaunch (setTeam s k x) j = getLaunch s j := rfl
@[simp] theorem getCore_setTeam (k j : Nat) (x : Team) : getCore (setTeam s k x) j = getCore s j := rfl
@[simp] theorem getFunc_setTeam (k j : Nat) (x : Team) : getFunc (setTeam s k x) j = getFunc s j := rfl
@[simp] theorem getQueue_setTeam (k j : Nat) (x : Team) : getQueue (setTeam s k x) j = getQueue s j := rfl
@[simp] theorem getXing_setTeam (k j : Nat) (x : Team) : getXing (setTeam s k x) j = getXing s j := rfl
@[simp] theorem getGraph_setTeam (k j : Nat) (x : Team) : getGraph (setTeam s k x) j = getGraph s j := rfl
@[simp] theorem getLaunch_setLaunch_same (k : Nat) (x : Launch) : getLaunch (setLaunch s k x) k = x := by simp [getLaunch]
theorem getLaunch_setLaunch_other (k j : Nat) (x : Launch) (h : j ≠ k) : getLaunch (setLaunch s k x) j = getLaunch s j := by
  simp [getLaunch, tabGet_tabPut_other _ _ _ _ _ h]
@[simp] theorem getGroup_setLaunch (k j : Nat) (x : Launch) : getGroup (setLaunch s k x) j = getGroup s j := rfl
@[simp] theorem getTeam_setLaunch (k j : Nat) (x : Launch) : getTeam (setLaunch s k x) j = getTeam s j := rfl
@[simp] theorem getCore_setLaunch (k j : Nat) (x : Launch) : getCore (setLaunch s k x) j = getCore s j := rfl
@[simp] theorem getFunc_setLaunch (k j : Nat) (x : Launch) : getFunc (setLaunch s k x) j = getFunc s j := rfl
@[simp] theorem getQueue_setLaunch (k j : Nat) (x : Launch) : getQueue (setLaunch s k x) j = getQueue s j := rfl
@[simp] theorem getXing_setLaunch (k j : Nat) (x : Launch) : getXing (setLaunch s k x) j = getXing s j := rfl
@[simp] theorem getGraph_setLaunch (k j : Nat) (x : Launch) : getGraph (setLaunch s k x) j = getGraph s j := rfl
@[simp] theorem getCore_setCore_same (k : Nat) (x : Core) : getCore (setCore s k x) k = x := by simp [getCore]
theorem getCore_setCore_other (k j : Nat) (x : Core) (h : j ≠ k) : getCore (setCore s k x) j = getCore s j := by
  simp [getCore, tabGet_tabPut_other _ _ _ _ _ h]
@[simp] theorem getGroup_setCore (k j : Nat) (x : Core) : getGroup (setCore s k x) j = getGroup s j := rfl
@[simp] theorem getTeam_setCore (k j : Nat) (x : Core) : getTeam (setCore s k x) j = getTeam s j := rfl
@[simp] theorem getLaunch_setCore (k j : Nat) (x : Core) : getLaunch (setCore s k x) j = getLaunch s j := rfl
@[simp] theorem getFunc_setCore (k j : Nat) (x : Core) : getFunc (setCore s k x) j = getFunc s j := rfl
@[simp] theorem getQueue_setCore (k j : Nat) (x : Core) : getQueue (setCore s k x) j = getQueue s j := rfl
@[simp] theorem getXing_setCore (k j : Nat) (x : Core) : getXing (setCore s k x) j = getXing s j := rfl
@[simp] theorem getGraph_setCore (k j : Nat) (x : Core) : getGraph (setCore s k x) j = getGraph s j := rfl
@[simp] theorem getFunc_setFunc_same (k : Nat) (x : Func) : getFunc (setFunc s k x) k = x := by simp [getFunc]
theorem getFunc_setFunc_other (k j : Nat) (x : Func) (h : j ≠ k) : getFunc (setFunc s k x) j = getFunc s j := by
  simp [getFunc, tabGet_tabPut_other _ _ _ _ _ h]
@[simp] theorem getGroup_setFunc (k j : Nat) (x : Func) : getGroup (setFunc s k x) j = getGroup s j := rfl
@[simp] theorem getTeam_setFunc (k j : Nat) (x : Func) : getTeam (setFunc s k x) j = getTeam s j := rfl
@[simp] theorem getLaunch_setFunc (k j : Nat) (x : Func) : getLaunch (setFunc s k x) j = getLaunch s j := rfl
@[simp] theorem getCore_setFunc (k j : Nat) (x : Func) : getCore (setFunc s k x) j = getCore s j := rfl
@[simp] theorem getQueue_setFunc (k j : Nat) (x : Func) : getQueue (setFunc s k x) j = getQueue s j := rfl
@[simp] theorem getXing_setFunc (k j : Nat) (x : Func) : getXing (setFunc s k x) j = getXing s j := rfl
@[simp] theorem getGraph_setFunc (k j : Nat) (x : Func) : getGraph (setFunc s k x) j = getGraph s j := rfl
@[simp] theorem getQueue_setQueue_same (k : Nat) (x : Queue) : getQueue (setQueue s k x) k = x := by simp [getQueue]
theorem getQueue_setQueue_other (k j : Nat) (x : Queue) (h : j ≠ k) : getQueue (setQueue s k x) j = getQueue s j := by
  simp [getQueue, tabGet_tabPut_other _ _ _ _ _ h]
@[simp] theorem getGroup_setQueue (k j : Nat) (x : Queue) : getGroup (setQueue s k x) j = getGroup s j := rfl
@[simp] theorem getTeam_setQueue (k j : Nat) (x : Queue) : getTeam (setQueue s k x) j = getTeam s j := rfl
@[simp] theorem getLaunch_setQueue (k j : Nat) (x : Queue) : getLaunch (setQueue s k x) j = getLaunch s j := rfl
@[simp] theorem getCore_setQueue (k j : Nat) (x : Queue) : getCore (setQueue s k x) j = getCore s j := rfl
@[simp] theorem getFunc_setQueue (k j : Nat) (x : Queue) : getFunc (setQueue s k x) j = getFunc s j := rfl
@[simp] theorem getXing_setQueue (k j : Nat) (x : Queue) : getXing (setQueue s k x) j = getXing s j := rfl
@[simp] theorem getGraph_setQueue (k j : Nat) (x : Queue) : getGraph (setQueue s k x) j = getGraph s j := rfl
@[simp] theorem getXing_setXing_same (k : Nat) (x : Crossing) : getXing (setXing s k x) k = x := by simp [getXing]
theorem getXing_setXing_other (k j : Nat) (x : Crossing) (h : j ≠ k) : getXing (setXing s k x) j = getXing s j := by
  simp [getXing, tabGet_tabPut_other _ _ _ _ _ h]
@[simp] theorem getGroup_setXing (k j : Nat) (x : Crossing) : getGroup (setXing s k x) j = getGroup s j := rfl
@[simp] theorem getTeam_setXing (k j : Nat) (x : Crossing) : getTeam (setXing s k x) j = getTeam s j := rfl
@[simp] theorem getLaunch_setXing (k j : Nat) (x : Crossing) : getLaunch (setXing s k x) j = getLaunch s j := rfl
@[simp] theorem getCore_setXing (k j : Nat) (x : Crossing) : getCore (setXing s k x) j = getCore s j := rfl
@[simp] theorem getFunc_setXing (k j : Nat) (x : Crossing) : getFunc (setXing s k x) j = getFunc s j := rfl
@[simp] theorem getQueue_setXing (k j : Nat) (x : Crossing) : getQueue (setXing s k x) j = getQueue s j := rfl
@[simp] theorem getGraph_setXing (k j : Nat) (x : Crossing) : getGraph (setXing s k x) j = getGraph s j := rfl
@[simp] theorem getGraph_setGraph_same (k : Nat) (x : Graph) : getGraph (setGraph s k x) k = x := by simp [getGraph]
theorem getGraph_setGraph_other (k j : Nat) (x : Graph) (h : j ≠ k) : getGraph (setGraph s k x) j = getGraph s j := by
  simp [getGraph, tabGet_tabPut_other _ _ _ _ _ h]
@[simp] theorem getGroup_setGraph (k j : Nat) (x : Graph) : getGroup (setGraph s k x) j = getGroup s j := rfl
@[simp] theorem getTeam_setGraph (k j : Nat) (x : Graph) : getTeam (setGraph s k x) j = getTeam s j := rfl
@[simp] theorem getLaunch_setGraph (k j : Nat) (x : Graph) : getLaunch (setGraph s k x) j = getLaunch s j := rfl
@[simp] theorem getCore_setGraph (k j : Nat) (x : Graph) : getCore (setGraph s k x) j = getCore s j := rfl
@[simp] theorem getFunc_setGraph (k j : Nat) (x : Graph) : getFunc (setGraph s k x) j = getFunc s j := rfl
@[simp] theorem getQueue_setGraph (k j : Nat) (x : Graph) : getQueue (setGraph s k x) j = getQueue s j := rfl
@[simp] theorem getXing_setGraph (k j : Nat) (x : Graph) : getXing (setGraph s k x) j = getXing s j := rfl

end Sys2Proof.Machine
end

