-- ==== Sys2Proof/Laws/Groups.lean ====
section
/-! SUPPORT. Laws of lanes, registers and program counters of a group. -/

namespace Sys2Proof.Machine

theorem tabPut_tabPut {α : Type} (t : List (Nat × α)) (a : Nat) (x y : α) : tabPut (tabPut t a x) a y = tabPut t a y := by
  induction t with
  | nil => simp [tabPut]
  | cons e t ih =>
    obtain ⟨k, v⟩ := e
    simp only [tabPut]
    split
    · simp [tabPut]
    · split
      · simp [tabPut]
      · next h1 h2 => simp [tabPut, h1, h2, ih]

@[simp] theorem setGroup_setGroup (s : State) (k : Nat) (x y : Group) : setGroup (setGroup s k x) k y = setGroup s k y := by
  simp [setGroup, tabPut_tabPut]

/-! ## Lane sets -/

theorem mem_lanesOf (m : Lanes) (l : Nat) : l ∈ lanesOf m ↔ l < 32 ∧ m.getLsbD l = true := by
  simp [lanesOf, List.mem_filter]

theorem getLsbD_lanesMask (ls : List Nat) (l : Nat) (hl : l < 32) (m : Lanes) :
    (ls.foldl (fun m l => m ||| BitVec.ofNat 32 (2 ^ l)) m).getLsbD l = (m.getLsbD l || decide (l ∈ ls)) := by
  induction ls generalizing m with
  | nil => simp
  | cons x xs ih =>
    rw [List.foldl_cons, ih]
    have : (BitVec.ofNat 32 (2 ^ x)).getLsbD l = decide (l = x) := by
      rw [BitVec.getLsbD_ofNat, Nat.testBit_two_pow]
      by_cases h : l = x
      · simp [h, show x < 32 by omega]
      · simp [h, show ¬ x = l by omega]
    rw [BitVec.getLsbD_or, this]
    by_cases h : l = x <;> simp [h]

theorem mem_lanesMask (ls : List Nat) (l : Nat) : l ∈ lanesOf (lanesMask ls) ↔ l < 32 ∧ l ∈ ls := by
  rw [mem_lanesOf]
  constructor
  · rintro ⟨h, hb⟩
    refine ⟨h, ?_⟩
    rw [lanesMask, getLsbD_lanesMask ls l h] at hb
    simpa using hb
  · rintro ⟨h, hm⟩
    refine ⟨h, ?_⟩
    rw [lanesMask, getLsbD_lanesMask ls l h]
    simp [hm]

theorem lanesMask_lanesOf (m : Lanes) : lanesMask (lanesOf m) = m := by
  apply BitVec.eq_of_getLsbD_eq
  intro i hi
  rw [lanesMask, getLsbD_lanesMask _ i hi]
  simp [mem_lanesOf, hi]

theorem lanesOf_nodup (m : Lanes) : (lanesOf m).Nodup := List.Pairwise.filter _ List.nodup_range

theorem lanesOf_eq_nil (m : Lanes) : lanesOf m = [] ↔ m = 0 := by
  constructor
  · intro h
    rw [← lanesMask_lanesOf m, h]; rfl
  · rintro rfl; decide

/-! ## Program counters -/

theorem pcOf_foldl_put (ls : List Nat) (a : DWord) (t : List (Nat × DWord)) (l : Nat) :
    tabGet 0 (ls.foldl (fun t k => tabPut t k a) t) l = if l ∈ ls then a else tabGet 0 t l := by
  induction ls generalizing t with
  | nil => simp
  | cons x xs ih =>
    rw [List.foldl_cons, ih, tabGet_tabPut]
    by_cases h1 : l ∈ xs
    · simp [h1]
    · by_cases h2 : l = x <;> simp [h1, h2]

/-- Moving a set of lanes moves exactly those lanes. -/
theorem pcOf_setPcs (g : Group) (m : Lanes) (a : DWord) (l : Nat) (hl : l < 32) :
    pcOf (setPcs g m a) l = if m.getLsbD l then a else pcOf g l := by
  simp only [pcOf, setPcs, pcOf_foldl_put]
  by_cases h : m.getLsbD l <;> simp [mem_lanesOf, h, hl]

/-! ## Registers -/

theorem vGet_putReg_v (sr : Nat) (g : Group) (l n l' n' : Nat) (w : Word) (hn : n < 256) (hn' : n' < 256) :
    vGet (putReg sr g (.v l' n') w) l n = if l = l' ∧ n = n' then w else vGet g l n := by
  simp only [vGet, putReg, tabGet_tabPut]
  by_cases h : l = l' ∧ n = n'
  · simp [h]
  · have : 256 * l + n ≠ 256 * l' + n' := by omega
    simp [h, this]

theorem vGet_putReg_other (sr : Nat) (g : Group) (l n : Nat) (t : Tgt) (w : Word) (ht : ∀ l' n', t ≠ .v l' n') :
    vGet (putReg sr g t w) l n = vGet g l n := by
  cases t with
  | v l' n' => exact absurd rfl (ht l' n')
  | s k => simp only [putReg]; split <;> rfl
  | p k q => simp only [putReg]; split <;> rfl

@[simp] theorem writeReg_vreg (sr : Nat) (g : Group) (t : Tgt) (w : Word) :
    (writeReg sr g t w).vreg = (putReg sr g t w).vreg := by cases t <;> simp only [writeReg, putReg] <;> split <;> rfl
@[simp] theorem writeReg_sreg (sr : Nat) (g : Group) (t : Tgt) (w : Word) :
    (writeReg sr g t w).sreg = (putReg sr g t w).sreg := by cases t <;> simp only [writeReg, putReg] <;> split <;> rfl
@[simp] theorem writeReg_pred (sr : Nat) (g : Group) (t : Tgt) (w : Word) :
    (writeReg sr g t w).pred = (putReg sr g t w).pred := by cases t <;> simp only [writeReg, putReg] <;> split <;> rfl

theorem vGet_writeReg (sr : Nat) (g : Group) (l n : Nat) (t : Tgt) (w : Word) :
    vGet (writeReg sr g t w) l n = vGet (putReg sr g t w) l n := by simp [vGet]

/-- Writes that name no such vector register leave it alone. -/
theorem vGet_writeRegs_other (sr : Nat) (ws : List (Tgt × Word)) (g : Group) (l n : Nat) (hn : n < 256)
    (hb : ∀ e ∈ ws, ∀ l' n', e.1 = .v l' n' → n' < 256) (h : ∀ e ∈ ws, e.1 ≠ .v l n) :
    vGet (writeRegs sr g ws) l n = vGet g l n := by
  induction ws generalizing g with
  | nil => rfl
  | cons e ws ih =>
    simp only [writeRegs, List.foldl_cons]
    have h1 := ih (writeReg sr g e.1 e.2) (fun x hx => hb x (List.mem_cons_of_mem _ hx)) (fun x hx => h x (List.mem_cons_of_mem _ hx))
    rw [writeRegs] at h1
    rw [h1, vGet_writeReg]
    by_cases hv : ∃ l' n', e.1 = .v l' n'
    · obtain ⟨l', n', he⟩ := hv
      have hne := h e (by simp)
      have hb' := hb e (by simp) l' n' he
      rw [he, vGet_putReg_v sr g l n l' n' e.2 hn hb']
      rw [he] at hne
      have : ¬ (l = l' ∧ n = n') := by rintro ⟨rfl, rfl⟩; exact hne rfl
      simp [this]
    · exact vGet_putReg_other sr g l n e.1 e.2 (fun l' n' he => hv ⟨l', n', he⟩)

/-- A vector register holds what the writes agree on. -/
theorem vGet_writeRegs_same (sr : Nat) (ws : List (Tgt × Word)) (g : Group) (l n : Nat) (w : Word) (hn : n < 256)
    (hb : ∀ e ∈ ws, ∀ l' n', e.1 = .v l' n' → n' < 256) (hm : (Tgt.v l n, w) ∈ ws) (hu : ∀ e ∈ ws, e.1 = .v l n → e.2 = w) :
    vGet (writeRegs sr g ws) l n = w := by
  induction ws generalizing g with
  | nil => cases hm
  | cons e ws ih =>
    simp only [writeRegs, List.foldl_cons]
    by_cases hin : ∃ x ∈ ws, x.1 = .v l n
    · obtain ⟨x, hx, hxe⟩ := hin
      have hx2 : x.2 = w := hu x (List.mem_cons_of_mem _ hx) hxe
      have hx' : (Tgt.v l n, w) ∈ ws := by rw [← hxe, ← hx2]; exact hx
      exact ih (writeReg sr g e.1 e.2) (fun y hy => hb y (List.mem_cons_of_mem _ hy)) hx'
        (fun y hy => hu y (List.mem_cons_of_mem _ hy))
    · have hhead : e = (Tgt.v l n, w) := by
        rcases List.mem_cons.1 hm with h | h
        · exact h.symm
        · exact absurd ⟨_, h, rfl⟩ hin
      have h1 := vGet_writeRegs_other sr ws (writeReg sr g e.1 e.2) l n hn (fun y hy => hb y (List.mem_cons_of_mem _ hy))
        (fun y hy hye => hin ⟨y, hy, hye⟩)
      rw [writeRegs] at h1
      rw [h1, vGet_writeReg, hhead, vGet_putReg_v sr g l n l n w hn hn]
      simp

theorem sreg_putReg (sr : Nat) (g : Group) (n : Nat) (t : Tgt) (w : Word) :
    tabFind (putReg sr g t w).sreg n = if t = .s n ∧ n < sr then some w else tabFind g.sreg n := by
  cases t with
  | v l' n' => simp [putReg]
  | s k =>
    simp only [putReg]
    by_cases hk : k = n
    · subst hk
      by_cases h : k < sr
      · simp [h, tabFind_tabPut_same]
      · simp [h]
    · have hk' : n ≠ k := fun h => hk h.symm
      split
      · simp [hk, tabFind_tabPut_other _ _ _ _ hk']
      · simp [hk]
  | p k q => simp only [putReg]; split <;> simp

theorem sreg_writeRegs_other (sr : Nat) (ws : List (Tgt × Word)) (g : Group) (n : Nat) (h : ∀ e ∈ ws, e.1 ≠ .s n) :
    tabFind (writeRegs sr g ws).sreg n = tabFind g.sreg n := by
  induction ws generalizing g with
  | nil => rfl
  | cons e ws ih =>
    simp only [writeRegs, List.foldl_cons]
    have h1 := ih (writeReg sr g e.1 e.2) (fun x hx => h x (List.mem_cons_of_mem _ hx))
    rw [writeRegs] at h1
    rw [h1, writeReg_sreg, sreg_putReg]
    simp [h e (by simp)]

theorem sreg_writeRegs_same (sr : Nat) (ws : List (Tgt × Word)) (g : Group) (n : Nat) (w : Word) (hn : n < sr)
    (hm : (Tgt.s n, w) ∈ ws) (hu : ∀ e ∈ ws, e.1 = .s n → e.2 = w) : tabFind (writeRegs sr g ws).sreg n = some w := by
  induction ws generalizing g with
  | nil => cases hm
  | cons e ws ih =>
    simp only [writeRegs, List.foldl_cons]
    by_cases hin : ∃ x ∈ ws, x.1 = .s n
    · obtain ⟨x, hx, hxe⟩ := hin
      have hx2 : x.2 = w := hu x (List.mem_cons_of_mem _ hx) hxe
      have hx' : (Tgt.s n, w) ∈ ws := by rw [← hxe, ← hx2]; exact hx
      exact ih (writeReg sr g e.1 e.2) hx' (fun y hy => hu y (List.mem_cons_of_mem _ hy))
    · have hhead : e = (Tgt.s n, w) := by
        rcases List.mem_cons.1 hm with h | h
        · exact h.symm
        · exact absurd ⟨_, h, rfl⟩ hin
      have h1 := sreg_writeRegs_other sr ws (writeReg sr g e.1 e.2) n (fun y hy hye => hin ⟨y, hy, hye⟩)
      rw [writeRegs] at h1
      rw [h1, writeReg_sreg, sreg_putReg, hhead]
      simp [hn]

theorem pGet_putReg (sr : Nat) (g : Group) (l n : Nat) (t : Tgt) (w : Word) (hn : n < 16)
    (ht : ∀ l' n', t = .p l' n' → n' < 16) :
    pGet (putReg sr g t w) l n = if t = .p l n ∧ n ≠ 0 then (w != 0) else pGet g l n := by
  cases t with
  | v l' n' => simp [putReg, pGet]
  | s k => simp only [putReg]; split <;> simp [pGet]
  | p k q =>
    have hq := ht k q rfl
    simp only [putReg]
    by_cases hq0 : q = 0
    · subst hq0
      by_cases hn0 : n = 0
      · simp [hn0, pGet]
      · simp [show ¬ (0 = n) by omega]
    · simp only [hq0, if_false, pGet]
      by_cases hn0 : n = 0
      · simp [hn0]
      · simp only [hn0, if_false, tabGet_tabPut]
        by_cases h : k = l ∧ q = n
        · simp [h, hn0]
        · have : ¬ (16 * l + n = 16 * k + q) := by omega
          have h2 : ¬ (Tgt.p k q = Tgt.p l n) := by simpa using h
          simp [this, h2]

/-- Fields of a group that register writes never touch, all but registers and pending writes. -/
theorem writeRegs_frame (sr : Nat) (ws : List (Tgt × Word)) (g : Group) :
    writeRegs sr g ws = { g with vreg := (writeRegs sr g ws).vreg, sreg := (writeRegs sr g ws).sreg,
                                 pred := (writeRegs sr g ws).pred, outs := (writeRegs sr g ws).outs,
                                 swr := (writeRegs sr g ws).swr } := by
  induction ws generalizing g with
  | nil => rfl
  | cons e ws ih =>
    have h1 : writeReg sr g e.1 e.2 = { g with vreg := (writeReg sr g e.1 e.2).vreg, sreg := (writeReg sr g e.1 e.2).sreg,
                                               pred := (writeReg sr g e.1 e.2).pred, outs := (writeReg sr g e.1 e.2).outs,
                                               swr := (writeReg sr g e.1 e.2).swr } := by
      cases e.1 <;> simp only [writeReg, putReg] <;> (try split) <;> rfl
    have h2 := ih (writeReg sr g e.1 e.2)
    simp only [writeRegs, List.foldl_cons] at h2 ⊢
    rw [h2, h1]

theorem writeRegs_items (sr : Nat) (ws : List (Tgt × Word)) (g : Group) :
    ((writeRegs sr g ws).outs.map fun o => { o with live := [] }) = g.outs.map fun o => { o with live := [] } := by
  induction ws generalizing g with
  | nil => rfl
  | cons e ws ih =>
    have h2 := ih (writeReg sr g e.1 e.2)
    simp only [writeRegs, List.foldl_cons] at h2 ⊢
    rw [h2]
    have : (writeReg sr g e.1 e.2).outs = cancel e.1 g.outs := by
      cases e.1 <;> simp only [writeReg, putReg] <;> (try split) <;> rfl
    rw [this, cancel, List.map_map]
    rfl

theorem writeRegs_pred_none (sr : Nat) (ws : List (Tgt × Word)) (g : Group) (h : ∀ e ∈ ws, ∀ l n, e.1 ≠ .p l n) :
    (writeRegs sr g ws).pred = g.pred := by
  induction ws generalizing g with
  | nil => rfl
  | cons e ws ih =>
    have h2 := ih (writeReg sr g e.1 e.2) (fun x hx => h x (List.mem_cons_of_mem _ hx))
    simp only [writeRegs, List.foldl_cons] at h2 ⊢
    rw [h2, writeReg_pred]
    have := h e (by simp)
    cases he : e.1 with
    | v l n => rfl
    | s n => simp only [putReg]; split <;> rfl
    | p l n => exact absurd he (this l n)

end Sys2Proof.Machine
end

