-- ==== Sys2Proof/Laws/Ports.lean ====
section
/-! SUPPORT. Link ports: reads after a write of a port, what a write of a port leaves alone, sequence numbers, and the replay buffer. -/

namespace Sys2Proof.Machine

variable (s : State) (n m : Nat) (f : LinkPort → LinkPort)

@[simp] theorem getPort_updPort_same : getPort (updPort s n f) n = f (getPort s n) := by simp [getPort, updPort]
theorem getPort_updPort_other (h : m ≠ n) : getPort (updPort s n f) m = getPort s m := by
  simp [getPort, updPort, tabGet_tabPut_other _ _ _ _ _ h]
@[simp] theorem updPort_mem : (updPort s n f).mem = s.mem := rfl
@[simp] theorem updPort_l2 : (updPort s n f).l2 = s.l2 := rfl
@[simp] theorem updPort_groups : (updPort s n f).groups = s.groups := rfl
@[simp] theorem updPort_teams : (updPort s n f).teams = s.teams := rfl
@[simp] theorem updPort_anchor : (updPort s n f).anchor = s.anchor := rfl
@[simp] theorem updPort_seen : (updPort s n f).peers.seen = s.peers.seen := rfl
@[simp] theorem updPort_unsent : (updPort s n f).peers.unsent = s.peers.unsent := rfl

/-- With no request that waits for room nothing is sent. -/
theorem drainUnsent_none (h : s.peers.unsent = []) : drainUnsent s = s := by
  have hp : { s.peers with unsent := [] } = s.peers := by rw [← h]
  simp only [drainUnsent, h, List.foldl_nil]
  rw [hp]

/-- A sequence number stands at or behind itself. -/
@[simp] theorem seqBy_self (a : BitVec 12) : seqBy a a = true := by simp [seqBy]

/-- An acknowledgement takes flits out of the replay buffer, and perhaps the one that was asked for again (R306); nothing else changes. -/
theorem ackTaken_eq (p : LinkPort) (a : BitVec 12) : ackTaken p a = { p with
    sent := p.sent.filter (fun f => !seqBy f.seq a), again := p.again.filter (fun f => !seqBy f.seq a)
    nakd := (ackTaken p a).nakd, tries := (ackTaken p a).tries } := by
  obtain ⟨_, _, _, _, _, k, _, _, _, _⟩ := p
  cases k with
  | none => rfl
  | some n => simp only [ackTaken]; split <;> rfl

@[simp] theorem ackTaken_expSeq (p : LinkPort) (a : BitVec 12) : (ackTaken p a).expSeq = p.expSeq := by rw [ackTaken_eq]
@[simp] theorem ackTaken_down (p : LinkPort) (a : BitVec 12) : (ackTaken p a).down = p.down := by rw [ackTaken_eq]
@[simp] theorem ackTaken_frozen (p : LinkPort) (a : BitVec 12) : (ackTaken p a).frozen = p.frozen := by rw [ackTaken_eq]

/-- A request that is sent takes a place in the buffer of its line's port; without a working port it needs none. -/
theorem sendFlit_cases {s t : State} {xid line : Nat} (h : sendFlit s xid line = some t) :
    (portOf s line = none ∧ t = s) ∨
    ∃ p, portOf s line = some p ∧ (getPort s p).sent.length < 128 ∧
      t = updPort s p fun x => { x with outSeq := x.outSeq + 1, sent := x.sent ++ [⟨x.outSeq, xid, line⟩] } := by
  simp only [sendFlit] at h
  split at h
  · next hp => exact .inl ⟨hp, by simpa using h.symm⟩
  · next p hp =>
    split at h
    · next hl => exact .inr ⟨p, hp, hl, by simpa using h.symm⟩
    · cases h

end Sys2Proof.Machine
end

