-- ==== Sys2Proof/Laws/Records.lean ====
section
/-! SUPPORT. What the shared operations on memory, records and causes can change: each frame says that every other field of the
state stays. -/

namespace Sys2Proof.Machine

/-! ## Cores -/

theorem tabFind_map_range {α : Type} (f : Nat → α) (n c : Nat) (lo : Nat) :
    tabFind ((List.range' lo n).map fun i => (i, f i)) c = if lo ≤ c ∧ c < lo + n then some (f c) else none := by
  induction n generalizing lo with
  | zero => simp [tabFind]
  | succ n ih =>
    simp only [List.range'_succ, List.map_cons, tabFind]
    split
    · subst c; simp
    · rw [ih]
      by_cases h : lo + 1 ≤ c ∧ c < lo + 1 + n
      · rw [if_pos h, if_pos (by omega)]
      · rw [if_neg h, if_neg (by omega)]

theorem getCore_updCores (s : State) (f : Nat → Core → Core) (c : Nat) :
    getCore (updCores s f) c = if c < 192 then f c (getCore s c) else coreReset := by
  have h := tabFind_map_range (fun i => f i (getCore s i)) 192 c 0
  unfold getCore tabGet updCores
  simp only [List.range_eq_range', Config.cores]
  rw [show (fun c => (c, f c (getCore s c))) = fun i => (i, f i (getCore s i)) from rfl, h]
  by_cases hc : c < 192 <;> simp [hc, getCore, tabGet]

@[simp] theorem updCore_frame (s : State) (c : Nat) (f : Core → Core) :
    updCore s c f = { s with cores := tabPut s.cores c (f (getCore s c)) } := rfl

theorem getCore_updCore (s : State) (c d : Nat) (f : Core → Core) :
    getCore (updCore s c f) d = if d = c then f (getCore s c) else getCore s d := by
  by_cases h : d = c
  · subst h; simp [updCore]
  · rw [if_neg h]; exact getCore_setCore_other s c d _ h

/-! ## Frames: every field that is not named stays -/

/-- Only memory, L2, the caches and filters of cores, the filters of acquires in progress, and the notes of a replay change. -/
def WriteFrame (s t : State) : Prop := t = { s with mem := t.mem, l2 := t.l2, cores := t.cores, acqs := t.acqs, obs := t.obs }

theorem WriteFrame.refl (s : State) : WriteFrame s s := rfl
theorem WriteFrame.trans {a b c : State} (h : WriteFrame a b) (k : WriteFrame b c) : WriteFrame a c := by
  unfold WriteFrame at *; exact k.trans (by rw [h])

/-- Besides, record registers, interrupt vectors and waiting records change. -/
def RecordFrame (s t : State) : Prop :=
  t = { s with mem := t.mem, l2 := t.l2, cores := t.cores, acqs := t.acqs, obs := t.obs, funcs := t.funcs, pcie := t.pcie, recs := t.recs }

theorem RecordFrame.refl (s : State) : RecordFrame s s := rfl
theorem RecordFrame.trans {a b c : State} (h : RecordFrame a b) (k : RecordFrame b c) : RecordFrame a c := by
  unfold RecordFrame at *; exact k.trans (by rw [h])
theorem WriteFrame.record {s t : State} (h : WriteFrame s t) : RecordFrame s t := by
  unfold WriteFrame at h; unfold RecordFrame; rw [h]

/-- Besides, groups, teams, launches and signatures change: what taking an exception can change. -/
def CauseFrame (s t : State) : Prop :=
  t = { s with mem := t.mem, l2 := t.l2, cores := t.cores, acqs := t.acqs, obs := t.obs, funcs := t.funcs, pcie := t.pcie, recs := t.recs,
               groups := t.groups, teams := t.teams, launches := t.launches, signs := t.signs }

theorem CauseFrame.refl (s : State) : CauseFrame s s := rfl
theorem CauseFrame.trans {a b c : State} (h : CauseFrame a b) (k : CauseFrame b c) : CauseFrame a c := by
  unfold CauseFrame at *; exact k.trans (by rw [h])
theorem RecordFrame.cause {s t : State} (h : RecordFrame s t) : CauseFrame s t := by
  unfold RecordFrame at h; unfold CauseFrame; rw [h]

theorem foldl_rel {β : Type} {fr : State → State → Prop} (hr : ∀ s, fr s s) (ht : ∀ {a b c}, fr a b → fr b c → fr a c)
    {f : State → β → State} (hf : ∀ s x, fr s (f s x)) (l : List β) (s : State) : fr s (l.foldl f s) := by
  induction l generalizing s with
  | nil => exact hr s
  | cons x t ih => exact ht (hf s x) (ih _)

theorem RecordFrame.updFunc (s : State) (n : Nat) (f : Func → Func) : RecordFrame s (updFunc s n f) := rfl
theorem RecordFrame.signal (s : State) (f v : Nat) : RecordFrame s (signal s f v) := rfl
theorem CauseFrame.updGroup (s : State) (n : Nat) (f : Group → Group) : CauseFrame s (updGroup s n f) := rfl
theorem CauseFrame.updTeam (s : State) (n : Nat) (f : Team → Team) : CauseFrame s (updTeam s n f) := rfl
theorem CauseFrame.launches (s : State) (l : List (Nat × Launch)) : CauseFrame s { s with launches := l } := rfl
theorem CauseFrame.signs (s : State) (l : List Sign) : CauseFrame s { s with signs := l } := rfl
theorem WriteFrame.cores (s : State) (l : List (Nat × Core)) : WriteFrame s { s with cores := l } := rfl
theorem RecordFrame.recs (s : State) (l : List WaitRec) : RecordFrame s { s with recs := l } := rfl

/-! ## Writes at system scope -/

theorem acqAddAll_frame (s : State) (ps : List Nat) :
    acqAddAll s ps = { s with cores := (acqAddAll s ps).cores, acqs := (acqAddAll s ps).acqs } := rfl

/-- A signature enters a core's ACQF, unless an acquire of this cycle takes it (R364, R365). -/
theorem getCore_acqAddAll (s : State) (ps : List Nat) (c : Nat) (hc : c < 192) :
    getCore (acqAddAll s ps) c =
      if (acqNow s c).isNone then { getCore s c with acqf := (getCore s c).acqf ||| ps.foldl filtAdd 0 } else getCore s c := by
  have h : getCore (acqAddAll s ps) c =
      getCore (updCores s fun c x => if true && (acqNow s c).isNone then { x with acqf := x.acqf ||| ps.foldl filtAdd 0 } else x) c := rfl
  rw [h, getCore_updCores, if_pos hc, Bool.true_and]

theorem noteWrite_frame (s : State) (k : Nat) (o : Bool) : noteWrite s k o = { s with obs := (noteWrite s k o).obs } := by
  unfold noteWrite; split
  · rfl
  · split
    · rfl
    · split <;> rfl

theorem l2Put_frame (s : State) (pa : Nat) (b : Byte) :
    l2Put s pa b = { s with l2 := (l2Put s pa b).l2, obs := (l2Put s pa b).obs } := by
  have h := noteWrite_frame s pa (hostBacked pa)
  unfold l2Put
  rw [h]

theorem hostPut_frame (s : State) (pa : Nat) (b : Byte) :
    hostPut s pa b = { s with mem := (hostPut s pa b).mem, l2 := (hostPut s pa b).l2, obs := (hostPut s pa b).obs } := by
  have h := noteWrite_frame s pa true
  unfold hostPut
  rw [h]

/-- The bytes of a write at system scope change memory, L2 and the notes of a replay alone. -/
theorem sysBytes_frame (pa : Nat) (bs : List Byte) (l : List Nat) (s : State) :
    (l.foldl (fun s i => let b := bs.getD i 0
      if hostBacked (pa + i) then hostPut s (pa + i) b else l2Put s (pa + i) b) s) =
    { s with
      mem := (l.foldl (fun s i => let b := bs.getD i 0
        if hostBacked (pa + i) then hostPut s (pa + i) b else l2Put s (pa + i) b) s).mem
      l2 := (l.foldl (fun s i => let b := bs.getD i 0
        if hostBacked (pa + i) then hostPut s (pa + i) b else l2Put s (pa + i) b) s).l2
      obs := (l.foldl (fun s i => let b := bs.getD i 0
        if hostBacked (pa + i) then hostPut s (pa + i) b else l2Put s (pa + i) b) s).obs } := by
  refine foldl_rel (fr := fun a b => b = { a with mem := b.mem, l2 := b.l2, obs := b.obs }) (fun _ => rfl)
    (fun h k => k.trans (by rw [h])) (fun s x => ?_) l s
  dsimp only
  split
  · exact hostPut_frame _ _ _
  · rw [l2Put_frame]

theorem sysPut_cores (s : State) (pa : Nat) (bs : List Byte) : (sysPut s pa bs).cores =
    (acqAddAll s ((List.range ((pa % 64 + bs.length + 63) / 64)).map fun i => pa / 64 * 64 + 64 * i)).cores := by
  unfold sysPut
  rw [sysBytes_frame]

theorem sysPut_frame (s : State) (pa : Nat) (bs : List Byte) : WriteFrame s (sysPut s pa bs) := by
  unfold WriteFrame sysPut
  dsimp only
  rw [sysBytes_frame]
  rfl

theorem getCore_sysPut (s : State) (pa : Nat) (bs : List Byte) (c : Nat) (hc : c < 192) :
    getCore (sysPut s pa bs) c = { getCore s c with acqf := (getCore (sysPut s pa bs) c).acqf } := by
  have h : getCore (sysPut s pa bs) c = getCore (acqAddAll s ((List.range ((pa % 64 + bs.length + 63) / 64)).map fun i => pa / 64 * 64 + 64 * i)) c := by
    unfold getCore; rw [sysPut_cores]
  rw [h, getCore_acqAddAll s _ c hc]
  split <;> rfl

/-! ## Records -/

theorem signal_frame (s : State) (f v : Nat) : signal s f v = { s with pcie := { s.pcie with irqs := s.pcie.irqs ++ [(f, v)] } } := rfl

theorem putFatal_frame (s : State) (func : Nat) (f : RecF) : RecordFrame s (putFatal s func f).1 := by
  unfold putFatal
  dsimp only
  split
  · exact ((sysPut_frame s _ _).record.trans (.updFunc _ _ _)).trans (.signal _ _ _)
  · exact (RecordFrame.updFunc _ _ _).trans (.signal _ _ _)

theorem dropHw_frame (s : State) : RecordFrame s (dropHw s) := rfl

theorem hwRecord_frame (s : State) (d : DWord) : RecordFrame s (hwRecord s d) := by
  unfold hwRecord
  split
  · exact dropHw_frame s
  · dsimp only
    split
    · exact (putFatal_frame s 0 _).trans (dropHw_frame _)
    · exact putFatal_frame s 0 _

theorem lostRecord_frame (s : State) (f : Nat) : RecordFrame s (lostRecord s f) := hwRecord_frame s _

theorem fatalRecord_frame (s : State) (func : Nat) (lk : Option Nat) (f : RecF) : RecordFrame s (fatalRecord s func lk f) := by
  unfold fatalRecord
  split
  · exact RecordFrame.recs _ _
  · dsimp only
    split
    · exact (putFatal_frame s func f).trans (lostRecord_frame _ _)
    · exact putFatal_frame s func f

theorem putReplay_frame (s : State) (func gk : Nat) (m : Lanes) (f : RecF) : CauseFrame s (putReplay s func gk m f) := by
  unfold putReplay
  cases h : recPlace s func ((getFunc s func).recbase.toNat / 4096 * 4096 + 4096 + 64 * ((getFunc s func).rtail.toNat % 1024)) with
  | some pa =>
    simp only [h, Option.isNone_some, Bool.false_eq_true, if_false]
    refine CauseFrame.trans ?_ (CauseFrame.updGroup _ _ _)
    refine RecordFrame.cause (RecordFrame.trans ?_ (RecordFrame.signal _ _ _))
    exact (sysPut_frame s _ _).record.trans (RecordFrame.updFunc _ _ _)
  | none =>
    simp only [h, Option.isNone_none, if_true]
    refine CauseFrame.trans ?_ (lostRecord_frame _ _).cause
    refine CauseFrame.trans ?_ (CauseFrame.updGroup _ _ _)
    exact RecordFrame.cause ((RecordFrame.updFunc _ _ _).trans (RecordFrame.signal _ _ _))

theorem replayRecord_frame (s : State) (func gk : Nat) (m : Lanes) (f : RecF) : CauseFrame s (replayRecord s func gk m f) := by
  unfold replayRecord
  split
  · exact (RecordFrame.recs _ _).cause
  · exact putReplay_frame s func gk m f

/-! ## Causes -/

theorem cancelSigns_frame (s : State) (c : Nat) : CauseFrame s (cancelSigns s c) := by
  unfold cancelSigns
  dsimp only
  split
  · exact CauseFrame.refl s
  · refine CauseFrame.trans ?_ (CauseFrame.signs _ _)
    refine CauseFrame.trans ?_ (foldl_rel CauseFrame.refl CauseFrame.trans (fun _ _ => CauseFrame.updTeam _ _ _) _ _)
    exact foldl_rel CauseFrame.refl CauseFrame.trans (fun _ _ => CauseFrame.updGroup _ _ _) _ _

theorem endGrid_frame (s : State) (lk : Nat) : endGrid s lk = { s with launches := (endGrid s lk).launches } := rfl

theorem fatal_frame (s : State) (lk : Nat) (f : RecF) : CauseFrame s (fatal s lk f) :=
  (fatalRecord_frame s _ _ f).cause.trans (.launches _ _)

theorem deliver_frame (s : State) (gk : Nat) (m : Lanes) (pc : DWord) (trn bkp s2 nh : Bool) :
    CauseFrame s (deliver s gk m pc trn bkp s2 nh) := by
  unfold deliver
  dsimp only
  split
  · exact fatal_frame _ _ _
  · split
    · exact (CauseFrame.updGroup _ _ _).trans (replayRecord_frame _ _ _ _ _)
    · split
      · exact (CauseFrame.updGroup _ _ _).trans (cancelSigns_frame _ _)
      · exact fatal_frame _ _ _

theorem parkCauses_frame (s : State) (gk : Nat) (rs : List Raise) : CauseFrame s (parkCauses s gk rs) := by
  refine (CauseFrame.updGroup s gk fun g => parkLanes g rs).trans ?_
  simp only [parkCauses]
  split
  · exact (hwRecord_frame _ _).cause
  · exact CauseFrame.refl _

theorem deliverAll_frame (gk : Nat) (os : List Owed) (s : State) : CauseFrame s (os.foldl (deliverOne gk) s) :=
  foldl_rel CauseFrame.refl CauseFrame.trans (fun _ _ => deliver_frame _ _ _ _ _ _ _ _) _ _

/-- TAKING AN EXCEPTION changes groups, teams, launches and signatures, and what records change; nothing else. -/
theorem takeCauses_frame (s : State) (gk : Nat) (pc : DWord) (s2 : Bool) (rs : List Raise) : CauseFrame s (takeCauses s gk pc s2 rs) := by
  unfold takeCauses
  split
  · exact CauseFrame.refl s
  · exact (parkCauses_frame s gk rs).trans (deliverAll_frame gk _ _)

theorem takeLate_frame (s : State) (gk : Nat) (pc : DWord) (s2 : Bool) (rs : List Raise) : CauseFrame s (takeLate s gk pc s2 rs) := by
  unfold takeLate
  split
  · exact takeCauses_frame s gk pc s2 rs
  · exact (parkCauses_frame s gk rs).trans (CauseFrame.updGroup _ _ _)

theorem payOwed_frame (s : State) (gk : Nat) : CauseFrame s (payOwed s gk) := by
  unfold payOwed
  dsimp only
  split
  · exact CauseFrame.refl s
  · exact (CauseFrame.updGroup _ _ _).trans (deliverAll_frame gk _ _)

theorem raiseAll_frame (s : State) (gk : Nat) (pc : DWord) (m : Lanes) (c : Nat) (a : DWord) : CauseFrame s (raiseAll s gk pc m c a) :=
  takeCauses_frame _ _ _ _ _

end Sys2Proof.Machine
end

