-- ==== Sys2Proof/Laws/Words.lean ====
section
/-! SUPPORT. What the shared operations of words do: when a word acts its body runs, how lanes are evaluated, and what a word of
registers leaves behind. -/

namespace Sys2Proof.Machine

/-! ## The word acts -/

theorem issueWord_acts {s : State} {u : Issue} {i : Instr} (body : Ctx → State → State) (h : Acts s u i) :
    issueWord i s body = .next (body (ctxOf s u i) s) := by
  obtain ⟨h1, h2, h3⟩ := h
  simp only [wellFormed] at h2
  simp [issueWord, h1, h2, h3]

theorem onceWord_acts {s : State} {u : Issue} {i : Instr} (body : Ctx → State → State) (h : Acts s u i)
    (ha : (ctxOf s u i).active ≠ 0) : onceWord i s body = .next (body (ctxOf s u i) s) := by
  rw [onceWord, issueWord_acts _ h]
  simp only [ha, if_false]

theorem onceWord_idle {s : State} {u : Issue} {i : Instr} (body : Ctx → State → State) (h : Acts s u i)
    (ha : (ctxOf s u i).active = 0) : onceWord i s body = .next (closeWord i (ctxOf s u i) s 0 [] []) := by
  rw [onceWord, issueWord_acts _ h]
  simp [ha]

theorem laneWord_acts {s : State} {u : Issue} {i : Instr} (f : Ctx → Nat → Except Nat LaneRes) (h : Acts s u i) :
    laneWord i s f = .next (classWord i (ctxOf s u i) s (evalLanes (ctxOf s u i) (f (ctxOf s u i)))) :=
  issueWord_acts _ h

/-- A word that no group issues is the one fault of the machine. -/
theorem issueWord_none {s : State} {i : Instr} (body : Ctx → State → State) (h : s.cur = none) :
    issueWord i s body = .fault .noIssue := by simp [issueWord, h]

/-- While a group issues it, a word always leaves a next state. -/
theorem issueWord_next {s : State} {u : Issue} {i : Instr} (body : Ctx → State → State) (h : s.cur = some u) :
    ∃ t, issueWord i s body = .next t := by
  simp only [issueWord, h]
  split
  · exact ⟨_, rfl⟩
  · split <;> exact ⟨_, rfl⟩

/-! ## Lanes -/

/-- When every active lane completes, the results stand in lane order and no cause is raised. -/
theorem evalLanes_ok (c : Ctx) (f : Nat → Except Nat LaneRes) (r : Nat → LaneRes) (h : ∀ l ∈ lanesOf c.active, f l = .ok (r l)) :
    evalLanes c f = ((lanesOf c.active).map fun l => (l, r l), []) := by
  have key : ∀ (ls : List Nat) (acc : List (Nat × LaneRes) × List Raise), (∀ l ∈ ls, f l = .ok (r l)) →
      ls.foldl (fun (q : List (Nat × LaneRes) × List Raise) l =>
        match f l with
        | .ok x => (q.1 ++ [(l, x)], q.2)
        | .error k => (q.1, q.2 ++ [⟨l, k, c.pc, 0, 0, 0⟩])) acc = (acc.1 ++ ls.map fun l => (l, r l), acc.2) := by
    intro ls
    induction ls with
    | nil => intro acc _; simp
    | cons x xs ih =>
      intro acc hx
      rw [List.foldl_cons, hx x (by simp)]
      rw [ih _ (fun l hl => hx l (List.mem_cons_of_mem _ hl))]
      simp
  exact (key (lanesOf c.active) ([], []) h).trans (by simp)

theorem mem_allWrites {rs : List (Nat × LaneRes)} {e : Tgt × Word} (h : e ∈ allWrites rs) : ∃ x ∈ rs, e ∈ x.2.1 := by
  cases rs with
  | nil => simp [allWrites] at h
  | cons r t =>
    simp only [allWrites, List.mem_append, List.mem_flatMap, List.mem_filter] at h
    rcases h with h | ⟨x, hx, he, _⟩
    · exact ⟨r, by simp, h⟩
    · exact ⟨x, List.mem_cons_of_mem _ hx, he⟩

theorem allWrites_mem {rs : List (Nat × LaneRes)} {x : Nat × LaneRes} {e : Tgt × Word} (hx : x ∈ rs) (he : e ∈ x.2.1)
    (hu : isUni e.1 = false) : e ∈ allWrites rs := by
  cases rs with
  | nil => cases hx
  | cons r t =>
    simp only [allWrites, List.mem_append, List.mem_flatMap, List.mem_filter]
    rcases List.mem_cons.1 hx with h | h
    · exact .inl (h ▸ he)
    · exact .inr ⟨x, h, he, by simp [hu]⟩

/-- Uniform writes come from the first completing lane alone. -/
theorem allWrites_uni {r : Nat × LaneRes} {t : List (Nat × LaneRes)} {e : Tgt × Word} (he : e ∈ allWrites (r :: t))
    (hu : isUni e.1 = true) : e ∈ r.2.1 := by
  simp only [allWrites, List.mem_append, List.mem_flatMap, List.mem_filter] at he
  rcases he with h | ⟨x, _, _, hn⟩
  · exact h
  · simp [hu] at hn

theorem orFlags_bit (fs : List (Nat × Flags)) (k : Nat) :
    (orFlags fs).getLsbD k = true ↔ ∃ e ∈ fs, e.2.getLsbD k = true := by
  have key : ∀ (fs : List (Nat × Flags)) (a : Flags),
      (fs.foldl (fun a e => a ||| e.2) a).getLsbD k = true ↔ (a.getLsbD k = true ∨ ∃ e ∈ fs, e.2.getLsbD k = true) := by
    intro fs
    induction fs with
    | nil => intro a; simp
    | cons x xs ih =>
      intro a
      rw [List.foldl_cons, ih]
      simp only [BitVec.getLsbD_or, Bool.or_eq_true, List.mem_cons, exists_eq_or_imp, or_assoc]
  simpa [orFlags] using key fs 0

theorem arfRaises_none (fen : Flags) (a : Nat → DWord) (fs : List (Nat × Flags)) (h : ∀ e ∈ fs, e.2 &&& fen = 0) :
    arfRaises fen a fs = [] := by
  have : fs.filter (fun e => decide (e.2 &&& fen ≠ 0)) = [] := by
    rw [List.filter_eq_nil_iff]; intro e he; simp [h e he]
  simp only [arfRaises, this, List.map_nil]

/-! ## Destinations -/

/-- A pair that is not indexed names an even register (R101). -/
def EvenPair (wide : Bool) (d : Spec) : Prop := ∀ n, d = .v n → wide = true → n.toNat % 2 = 0

theorem destReg_some {c : Ctx} {l r : Nat} {wide : Bool} {d : Spec} (h : destReg c l wide d = some r) :
    vecReg c l wide 1 d = .ok r := by
  simp only [destReg] at h
  split at h
  · next y hy => cases h; exact hy
  · cases h

theorem destReg_lt {c : Ctx} {l r : Nat} {wide : Bool} {d : Spec} (he : EvenPair wide d) (h : destReg c l wide d = some r) :
    r < 256 ∧ (wide = true → r + 1 < 256) := by
  have hv := destReg_some h
  cases d with
  | v n =>
    have hr : r = n.toNat := by
      simp only [vecReg] at hv
      by_cases hc : n.toNat + (if wide then 2 else 1) * 1 ≤ c.l.vregs
      · rw [if_pos hc] at hv; cases hv; rfl
      · rw [if_neg hc] at hv; cases hv
    have := n.isLt
    exact ⟨by omega, fun hw => by have := he n rfl hw; omega⟩
  | x p i k =>
    have hi : ∃ x, indexReg x k wide = some r := by
      simp only [vecReg] at hv
      cases hx : indexReg (xGet c.g l i.toNat) k wide with
      | none => rw [hx] at hv; cases hv
      | some r' =>
        rw [hx] at hv
        simp only [] at hv
        by_cases hc : r' + (if (wide || (xGet c.g l i.toNat).getLsbD 29) = true then 2 else 1) ≤ c.l.vregs
        · rw [if_pos hc] at hv; cases hv; exact ⟨_, hx⟩
        · rw [if_neg hc] at hv; cases hv
    obtain ⟨x, hr⟩ := hi
    simp only [indexReg] at hr
    split at hr
    · cases hr
    · simp only [Option.ite_none_left_eq_some, Option.some.injEq] at hr
      obtain ⟨hc, rfl⟩ := hr
      simp only [Bool.or_eq_true, Bool.and_eq_true, decide_eq_true_eq, not_or, Nat.not_lt] at hc
      have hc1 := hc.1
      refine ⟨by omega, fun hw => ?_⟩
      subst hw
      simp only [or_true, if_true] at hc1
      omega
  | s n => simp [vecReg] at hv
  | imm n => simp [vecReg] at hv
  | con n => simp [vecReg] at hv

/-- The writes of one value. -/
def valWrites (c : Ctx) (l : Nat) (wide : Bool) (d : Spec) (x : Nat) : List (Tgt × Word) :=
  match d with
  | .s n => if wide then [(.s n.toNat, BitVec.ofNat 32 x), (.s (n.toNat + 1), BitVec.ofNat 32 (x / 2 ^ 32))]
      else [(.s n.toNat, BitVec.ofNat 32 x)]
  | _ => match destReg c l wide d with
    | some r => if wide then [(.v l r, BitVec.ofNat 32 x), (.v l (r + 1), BitVec.ofNat 32 (x / 2 ^ 32))]
      else [(.v l r, BitVec.ofNat 32 x)]
    | none => []

theorem writesTo_ok {c : Ctx} {l : Nat} {wide : Bool} {d : Spec} (x : Nat) (h : CanWrite c l wide d) :
    writesTo c l wide d x = .ok (valWrites c l wide d x) := by
  rcases h with ⟨n, rfl⟩ | ⟨r, hr⟩
  · simp [writesTo, valWrites]
  · have hv : vecReg c l wide 1 d = .ok r := by
      simp only [destReg] at hr
      split at hr
      · next y hy => cases hr; exact hy
      · cases hr
    cases d with
    | s n => simp [vecReg] at hv
    | v n => simp only [writesTo, valWrites, hv, hr]; rfl
    | x p i k => simp only [writesTo, valWrites, hv, hr]; rfl
    | imm n => simp [vecReg] at hv
    | con n => simp [vecReg] at hv

theorem valWrites_v {c : Ctx} {l : Nat} {wide : Bool} {d : Spec} {x : Nat} {e : Tgt × Word} {l' n : Nat}
    (he : e ∈ valWrites c l wide d x) (hv : e.1 = .v l' n) :
    l' = l ∧ ∃ r, destReg c l wide d = some r ∧
      ((n = r ∧ e.2 = BitVec.ofNat 32 x) ∨ (wide = true ∧ n = r + 1 ∧ e.2 = BitVec.ofNat 32 (x / 2 ^ 32))) := by
  simp only [valWrites] at he
  split at he
  · split at he <;> simp at he <;> (try rcases he with rfl | rfl) <;> simp_all
  · split at he
    · next r hr =>
      split at he
      · simp at he
        rcases he with rfl | rfl <;> simp at hv <;> simp_all
      · simp at he
        subst he
        simp at hv
        simp_all
    · cases he

theorem valWrites_s {c : Ctx} {l : Nat} {wide : Bool} {d : Spec} {x : Nat} {e : Tgt × Word} {n : Nat}
    (he : e ∈ valWrites c l wide d x) (hv : e.1 = .s n) :
    ∃ k, d = .s k ∧
      ((n = k.toNat ∧ e.2 = BitVec.ofNat 32 x) ∨ (wide = true ∧ n = k.toNat + 1 ∧ e.2 = BitVec.ofNat 32 (x / 2 ^ 32))) := by
  simp only [valWrites] at he
  split at he
  · next k =>
    refine ⟨k, rfl, ?_⟩
    split at he <;> simp at he <;> (try rcases he with rfl | rfl) <;> simp at hv <;> simp_all
  · split at he
    · split at he <;> simp at he <;> (try rcases he with rfl | rfl) <;> simp_all
    · cases he

theorem valWrites_p {c : Ctx} {l : Nat} {wide : Bool} {d : Spec} {x : Nat} {e : Tgt × Word} (he : e ∈ valWrites c l wide d x)
    (a n : Nat) : e.1 ≠ .p a n := by
  simp only [valWrites] at he
  split at he
  · split at he <;> simp at he <;> (try rcases he with rfl | rfl) <;> simp_all
  · split at he
    · split at he <;> simp at he <;> (try rcases he with rfl | rfl) <;> simp_all
    · cases he

theorem valWrites_lo {c : Ctx} {l r : Nat} {wide : Bool} {d : Spec} (x : Nat) (h : destReg c l wide d = some r) :
    (Tgt.v l r, BitVec.ofNat 32 x) ∈ valWrites c l wide d x := by
  cases d with
  | s n => simp [destReg, vecReg] at h
  | v n => simp only [valWrites, h]; split <;> simp
  | x p i k => simp only [valWrites, h]; split <;> simp
  | imm n => simp [destReg, vecReg] at h
  | con n => simp [destReg, vecReg] at h

theorem valWrites_hi {c : Ctx} {l r : Nat} {d : Spec} (x : Nat) (h : destReg c l true d = some r) :
    (Tgt.v l (r + 1), BitVec.ofNat 32 (x / 2 ^ 32)) ∈ valWrites c l true d x := by
  cases d with
  | s n => simp [destReg, vecReg] at h
  | v n => simp [valWrites, h]
  | x p i k => simp [valWrites, h]
  | imm n => simp [destReg, vecReg] at h
  | con n => simp [destReg, vecReg] at h

/-- All that a lane writes of its value. -/
theorem mem_valWrites {c : Ctx} {l : Nat} {wide : Bool} {d : Spec} {x : Nat} {e : Tgt × Word} :
    e ∈ valWrites c l wide d x ↔
      (∃ r, destReg c l wide d = some r ∧ (e = (.v l r, BitVec.ofNat 32 x) ∨ (wide = true ∧ e = (.v l (r + 1), BitVec.ofNat 32 (x / 2 ^ 32))))) ∨
      (∃ n : BitVec 8, d = .s n ∧ (e = (.s n.toNat, BitVec.ofNat 32 x) ∨ (wide = true ∧ e = (.s (n.toNat + 1), BitVec.ofNat 32 (x / 2 ^ 32))))) := by
  cases d with
  | s n => cases wide <;> simp [valWrites, destReg, vecReg]
  | v n => cases h : destReg c l wide (.v n) <;> cases wide <;> simp [valWrites, h]
  | x p i k => cases h : destReg c l wide (.x p i k) <;> cases wide <;> simp [valWrites, h]
  | imm n => simp [valWrites, destReg, vecReg]
  | con n => simp [valWrites, destReg, vecReg]

/-- What a list of lanes writes in all: each lane its vector registers, the lowest its uniform registers too. -/
theorem mem_allWrites_map {r : Nat → LaneRes} {ls : List Nat} {e : Tgt × Word} :
    e ∈ allWrites (ls.map fun l => (l, r l)) ↔ ∃ l ∈ ls, e ∈ (r l).1 ∧ (isUni e.1 = true → ls.head? = some l) := by
  cases ls with
  | nil => simp [allWrites]
  | cons a t =>
    simp only [allWrites, List.map_cons, List.mem_append, List.mem_flatMap, List.mem_filter, List.mem_map, List.mem_cons, List.head?_cons,
      Option.some.injEq]
    constructor
    · rintro (h | ⟨_, ⟨l, hl, rfl⟩, he, hu⟩)
      · exact ⟨a, .inl rfl, h, fun _ => rfl⟩
      · exact ⟨l, .inr hl, he, fun h => absurd hu (by simp [h])⟩
    · rintro ⟨l, rfl | hl, he, hu⟩
      · exact .inl he
      · cases h : isUni e.1 with
        | true => cases hu h; exact .inl he
        | false => exact .inr ⟨_, ⟨l, hl, rfl⟩, he, by simp⟩

/-! ## Closing a word in which no lane raises a cause -/

@[simp] theorem takeCauses_nil (s : State) (gk : Nat) (pc : DWord) (s2 : Bool) : takeCauses s gk pc s2 [] = s := rfl

theorem setMark_setGroup (s : State) (gk : Nat) (g : Group) (m : Bool) :
    setMark (setGroup s gk g) gk m = setGroup s gk (if m then { g with mark := !g.outs.isEmpty } else g) := by
  simp only [setMark, updGroup_eq, getGroup_setGroup_same, setGroup_setGroup]
  split <;> rfl

theorem closeWord_to (i : Instr) (c : Ctx) (s : State) (g : Group) (done : Lanes) (tgt : List (Nat × DWord)) :
    closeWord i c (setGroup s c.gk g) done tgt [] = setGroup s c.gk (passTo i c g done tgt) := by
  have hm : c.lanes &&& ~~~(lanesMask ([].map fun (r : Raise) => r.lane)) = c.lanes := by
    have : lanesMask ([].map fun (r : Raise) => r.lane) = 0 := rfl
    rw [this]; exact BitVec.and_allOnes
  simp only [closeWord, hm, updGroup_eq, getGroup_setGroup_same, takeCauses_nil, passTo, setGroup_setGroup, setMark_setGroup]

theorem closeWord_ok (i : Instr) (c : Ctx) (s : State) (g : Group) (done : Lanes) :
    closeWord i c (setGroup s c.gk g) done [] [] = setGroup s c.gk (passOn i c g done) := closeWord_to i c s g done []

theorem stepIndex_frame (g : Group) (l i : Nat) : stepIndex g l i = { g with xreg := (stepIndex g l i).xreg } := rfl

theorem postStep_frame (i : Instr) (g : Group) (m : Lanes) : postStep i g m = { g with xreg := (postStep i g m).xreg } := by
  have inner : ∀ (rs : List (BitVec 3)) (l : Nat) (g : Group),
      rs.foldl (fun g r => stepIndex g l r.toNat) g = { g with xreg := (rs.foldl (fun g r => stepIndex g l r.toNat) g).xreg } := by
    intro rs l
    induction rs with
    | nil => intro g; rfl
    | cons r rs ih => intro g; rw [List.foldl_cons, ih, stepIndex_frame]
  have outer : ∀ (ls : List Nat) (rs : List (BitVec 3)) (g : Group),
      ls.foldl (fun g l => rs.foldl (fun g r => stepIndex g l r.toNat) g) g =
        { g with xreg := (ls.foldl (fun g l => rs.foldl (fun g r => stepIndex g l r.toNat) g) g).xreg } := by
    intro ls rs
    induction ls with
    | nil => intro g; rfl
    | cons l ls ih => intro g; rw [List.foldl_cons, ih, inner]
  exact outer _ _ g

/-- Post-steps read and change index registers only. -/
theorem postStep_xreg (i : Instr) {g g0 : Group} (m : Lanes) (h : g.xreg = g0.xreg) : (postStep i g m).xreg = (postStep i g0 m).xreg := by
  have one : ∀ (l k : Nat) (g g0 : Group), g.xreg = g0.xreg → (stepIndex g l k).xreg = (stepIndex g0 l k).xreg := by
    intro l k g g0 h; simp [stepIndex, xGet, h]
  have inner : ∀ (rs : List (BitVec 3)) (l : Nat) (g g0 : Group), g.xreg = g0.xreg →
      (rs.foldl (fun g r => stepIndex g l r.toNat) g).xreg = (rs.foldl (fun g r => stepIndex g l r.toNat) g0).xreg := by
    intro rs l
    induction rs with
    | nil => intro g g0 h; exact h
    | cons r rs ih => intro g g0 h; rw [List.foldl_cons, List.foldl_cons]; exact ih _ _ (one _ _ _ _ h)
  have outer : ∀ (ls : List Nat) (rs : List (BitVec 3)) (g g0 : Group), g.xreg = g0.xreg →
      (ls.foldl (fun g l => rs.foldl (fun g r => stepIndex g l r.toNat) g) g).xreg =
        (ls.foldl (fun g l => rs.foldl (fun g r => stepIndex g l r.toNat) g) g0).xreg := by
    intro ls rs
    induction ls with
    | nil => intro g g0 h; exact h
    | cons l ls ih => intro g g0 h; rw [List.foldl_cons, List.foldl_cons]; exact ih _ _ (inner _ _ _ _ h)
  exact outer _ _ g g0 h

theorem passOn_frame (i : Instr) (c : Ctx) (g : Group) (done : Lanes) :
    passOn i c g done = { g with pc := (setPcs g c.lanes c.next).pc, xreg := (postStep i g done).xreg,
                                 mark := if markOf i then !g.outs.isEmpty else g.mark } := by
  have h : (postStep i (setPcs g c.lanes c.next) done).xreg = (postStep i g done).xreg := postStep_xreg i done rfl
  simp only [passOn, passTo, List.foldl_nil]
  rw [postStep_frame i (setPcs g c.lanes c.next) done, h]
  split <;> rfl

theorem passOn_goOn (i : Instr) (c : Ctx) (g g0 : Group) (done : Lanes) (h : g.pc = g0.pc) :
    GoOn c g0 (passOn i c g done) := by
  intro l hl
  have h1 : pcOf (passOn i c g done) l = pcOf (setPcs g c.lanes c.next) l := by
    rw [passOn_frame]; rfl
  rw [h1, pcOf_setPcs g c.lanes c.next l hl]
  simp [pcOf, h]

/-- A word that acts does not wait for a marker. -/
theorem acts_mark {s : State} {u : Issue} {i : Instr} (h : Acts s u i) : (getGroup s u.gkey).mark = false := by
  have h3 := h.2.2
  unfold waits at h3
  simp only [Bool.or_eq_false_iff] at h3
  exact h3.1.1.1.1.1.1.1

/-! ## Register words -/

/-- A lane result read as one value with flags. -/
def valRes (c : Ctx) (l : Nat) (wide : Bool) (d : Spec) (v : Option (Nat × Flags)) : LaneRes :=
  match v with
  | some (x, fl) => (valWrites c l wide d x, fl)
  | none => ([], 0)

theorem map_fst_lanes (c : Ctx) (r : Nat → LaneRes) : lanesMask (((lanesOf c.active).map fun l => (l, r l)).map (·.1)) = c.active := by
  rw [List.map_map]
  exact (congrArg lanesMask (List.map_id _)).trans (lanesMask_lanesOf _)

theorem shortWord_writes {i : Instr} {c : Ctx} {s : State} {wide : Bool} {d : Spec} {v : Nat → Option (Nat × Flags)}
    (hg : c.g = getGroup s c.gk) (hmk : c.g.mark = false) (he : EvenPair wide d)
    (hv : ∀ l ∈ lanesOf c.active, CanWrite c l wide d ∧ ∃ x fl, v l = some (x, fl) ∧ fl &&& c.g.fen = 0) :
    ∃ g', shortWord i c s ((lanesOf c.active).map fun l => (l, valRes c l wide d (v l)), []) = setGroup s c.gk g' ∧
      RegFrame i c c.g g' ∧ g'.pred = c.g.pred ∧ GoOn c c.g g' ∧ KeepsItems c.g g' ∧
      (∀ l ∈ lanesOf c.active, ∀ x fl, v l = some (x, fl) → ∀ r, destReg c l wide d = some r → VecHolds g' l r wide x) ∧
      (∀ n : BitVec 8, d = .s n → ∀ l t, lanesOf c.active = l :: t → ∀ x fl, v l = some (x, fl) →
        UniHolds c.l.sregs g' n.toNat wide x) ∧
      (∀ l n, l < 32 → n < 256 → ¬ IsDest c l n wide d → vGet g' l n = vGet c.g l n) ∧
      (∀ n, ¬ IsUniDest n wide d → tabFind g'.sreg n = tabFind c.g.sreg n) ∧
      (∀ k, g'.flg.getLsbD k = true ↔ (c.g.flg.getLsbD k = true ∨
        ∃ l ∈ lanesOf c.active, ∃ x fl, v l = some (x, fl) ∧ fl.getLsbD k = true)) := by
  let rs : List (Nat × LaneRes) := (lanesOf c.active).map fun l => (l, valRes c l wide d (v l))
  let fl : List (Nat × Flags) := rs.map fun x => (x.1, x.2.2)
  let ws := allWrites rs
  let g1 := writeRegs c.l.sregs c.g ws
  let done := lanesMask (rs.map (·.1))
  have hflag : ∀ e ∈ fl, e.2 &&& c.g.fen = 0 := by
    intro e hm
    simp only [fl, rs, List.map_map, List.mem_map, Function.comp] at hm
    obtain ⟨l, hl, rfl⟩ := hm
    obtain ⟨_, x, f, h1, h2⟩ := hv l hl
    simp [valRes, h1, h2]
  have hsh : shortWord i c s (rs, []) = setGroup s c.gk (passOn i c (addFlags g1 (orFlags fl)) done) := by
    have h0 : arfRaises c.g.fen (fun _ => c.next) (rs.map fun x => (x.1, x.2.2)) = [] := arfRaises_none _ _ _ hflag
    simp only [shortWord, updGroup_eq, ← hg, h0, List.append_nil]
    exact closeWord_ok i c s (addFlags g1 (orFlags fl)) done
  have hmem : ∀ e ∈ ws, ∃ l ∈ lanesOf c.active, ∃ x f, v l = some (x, f) ∧ e ∈ valWrites c l wide d x := by
    intro e hm
    obtain ⟨y, hy, hey⟩ := mem_allWrites hm
    simp only [rs, List.mem_map] at hy
    obtain ⟨l, hl, rfl⟩ := hy
    obtain ⟨_, x, f, h1, _⟩ := hv l hl
    simp only [valRes, h1] at hey
    exact ⟨l, hl, x, f, h1, hey⟩
  have hbound : ∀ e ∈ ws, ∀ l' n', e.1 = Tgt.v l' n' → n' < 256 := by
    intro e hm l' n' hen
    obtain ⟨l, hl, x, f, h1, h2⟩ := hmem e hm
    obtain ⟨_, r, hr, h3⟩ := valWrites_v h2 hen
    obtain ⟨h4, h5⟩ := destReg_lt he hr
    rcases h3 with ⟨rfl, _⟩ | ⟨hw, rfl, _⟩
    · exact h4
    · exact h5 hw
  have hnop : ∀ e ∈ ws, ∀ l n, e.1 ≠ Tgt.p l n := by
    intro e hm l n
    obtain ⟨_, _, _, _, _, h2⟩ := hmem e hm
    exact valWrites_p h2 l n
  have hfr := writeRegs_frame c.l.sregs ws c.g
  let g' := passOn i c (addFlags g1 (orFlags fl)) done
  have hdone : done = c.active := map_fst_lanes c fun l => valRes c l wide d (v l)
  have hxr : (addFlags g1 (orFlags fl)).xreg = c.g.xreg := by
    have h1 : g1 = { c.g with vreg := g1.vreg, sreg := g1.sreg, pred := g1.pred, outs := g1.outs, swr := g1.swr } := hfr
    rw [h1]; rfl
  have hmk1 : (addFlags g1 (orFlags fl)).mark = false := by
    have h1 : g1 = { c.g with vreg := g1.vreg, sreg := g1.sreg, pred := g1.pred, outs := g1.outs, swr := g1.swr } := hfr
    rw [h1]; exact hmk
  have hcl : g' = { addFlags g1 (orFlags fl) with
      pc := (setPcs (addFlags g1 (orFlags fl)) c.lanes c.next).pc, xreg := (postStep i c.g c.active).xreg,
      mark := markOf i && !(addFlags g1 (orFlags fl)).outs.isEmpty } := by
    have h2 := passOn_frame i c (addFlags g1 (orFlags fl)) done
    rw [hdone, postStep_xreg i c.active hxr, hmk1] at h2
    have h3 : g' = passOn i c (addFlags g1 (orFlags fl)) c.active := by simp only [g', hdone]
    rw [h3, h2]
    cases markOf i <;> simp
  have hvreg : g'.vreg = g1.vreg := by rw [hcl]; rfl
  have hsreg : g'.sreg = g1.sreg := by rw [hcl]; rfl
  have hpred : g'.pred = g1.pred := by rw [hcl]; rfl
  have houts : g'.outs = g1.outs := by rw [hcl]; rfl
  have hflg : g'.flg = c.g.flg ||| orFlags fl := by
    rw [hcl]
    have : g1.flg = c.g.flg := by simp only [g1]; rw [hfr]
    simp only [addFlags, this]
  have hvget : ∀ l n, vGet g' l n = vGet g1 l n := by intro l n; simp [vGet, hvreg]
  refine ⟨g', hsh, ?_, ?_, ?_, ?_, ?_, ?_, ?_, ?_, ?_⟩
  · have h1 : g1 = { c.g with vreg := g1.vreg, sreg := g1.sreg, pred := g1.pred, outs := g1.outs, swr := g1.swr } := hfr
    simp only [RegFrame]
    rw [hcl, h1]
    rfl
  · rw [hpred]; exact writeRegs_pred_none _ _ _ hnop
  · refine passOn_goOn i c (addFlags g1 (orFlags fl)) c.g done ?_
    have : g1.pc = c.g.pc := by simp only [g1]; rw [hfr]
    simpa [addFlags] using this
  · refine ⟨?_, ?_⟩
    · rw [hcl]
      have : g1.nextSeq = c.g.nextSeq := by simp only [g1]; rw [hfr]
      simpa [addFlags] using this
    · rw [houts]; exact writeRegs_items _ _ _
  · intro l hl x f hx r hr
    obtain ⟨hr1, hr2⟩ := destReg_lt he hr
    have hin : (l, valRes c l wide d (v l)) ∈ rs := List.mem_map.2 ⟨l, hl, rfl⟩
    have huniq : ∀ n w, (∀ e ∈ valWrites c l wide d x, e.1 = Tgt.v l n → e.2 = w) → ∀ e ∈ ws, e.1 = Tgt.v l n → e.2 = w := by
      intro n w h e hm hen
      obtain ⟨l2, hl2, x2, f2, h1, h2⟩ := hmem e hm
      obtain ⟨h3, _⟩ := valWrites_v h2 hen
      subst h3
      rw [hx] at h1
      cases h1
      exact h e h2 hen
    constructor
    · rw [hvget]
      refine vGet_writeRegs_same _ _ _ _ _ _ hr1 hbound ?_ (huniq r _ ?_)
      · refine allWrites_mem hin ?_ rfl
        simp only [valRes, hx]
        exact valWrites_lo x hr
      · intro e hm hen
        obtain ⟨_, r2, h4, h5⟩ := valWrites_v hm hen
        rw [hr] at h4; cases h4
        rcases h5 with ⟨_, h⟩ | ⟨_, h, _⟩
        · exact h
        · omega
    · intro hw
      subst hw
      rw [hvget]
      refine vGet_writeRegs_same _ _ _ _ _ _ (hr2 rfl) hbound ?_ (huniq (r + 1) _ ?_)
      · refine allWrites_mem hin ?_ rfl
        simp only [valRes, hx]
        exact valWrites_hi x hr
      · intro e hm hen
        obtain ⟨_, r2, h4, h5⟩ := valWrites_v hm hen
        rw [hr] at h4; cases h4
        rcases h5 with ⟨h, _⟩ | ⟨_, _, h⟩
        · omega
        · exact h
  · intro n hd l t hlt x f hx
    subst hd
    have hrs : rs = (l, valRes c l wide (.s n) (v l)) :: t.map fun l => (l, valRes c l wide (.s n) (v l)) := by
      simp only [rs, hlt, List.map_cons]
    have hfirst : ∀ e ∈ ws, ∀ k, e.1 = Tgt.s k → e ∈ valWrites c l wide (.s n) x := by
      intro e hm k hk
      have hm' : e ∈ allWrites rs := hm
      rw [hrs] at hm'
      have := allWrites_uni hm' (by simp [hk, isUni])
      simpa [valRes, hx] using this
    have hall : ∀ e ∈ valWrites c l wide (.s n) x, e ∈ ws := by
      intro e hm
      have h2 : e ∈ allWrites ((l, valRes c l wide (.s n) (v l)) :: t.map fun l => (l, valRes c l wide (.s n) (v l))) := by
        simp only [allWrites, List.mem_append]
        left
        simpa [valRes, hx] using hm
      rw [← hrs] at h2
      exact h2
    have hs : ∀ k w, (Tgt.s k, w) ∈ valWrites c l wide (.s n) x → (∀ e ∈ valWrites c l wide (.s n) x, e.1 = Tgt.s k → e.2 = w) →
        sGet c.l.sregs g' k = if k < c.l.sregs then w else 0 := by
      intro k w h1 h2
      simp only [sGet, hsreg]
      by_cases hk : k < c.l.sregs
      · simp only [hk, if_true, tabGet]
        have h3 : tabFind g1.sreg k = some w := sreg_writeRegs_same c.l.sregs ws c.g k w hk (hall _ h1) (fun e hm hek => h2 e (hfirst e hm k hek) hek)
        rw [h3]; rfl
      · simp [hk]
    constructor
    · refine hs n.toNat _ ?_ ?_
      · simp only [valWrites]; split <;> simp
      · intro e hm hek
        obtain ⟨k, hk, h⟩ := valWrites_s hm hek
        cases hk
        rcases h with ⟨_, h⟩ | ⟨_, h, _⟩
        · exact h
        · omega
    · intro hw
      subst hw
      refine hs (n.toNat + 1) _ ?_ ?_
      · simp [valWrites]
      · intro e hm hek
        obtain ⟨k, hk, h⟩ := valWrites_s hm hek
        cases hk
        rcases h with ⟨h, _⟩ | ⟨_, _, h⟩
        · omega
        · exact h
  · intro l n hl hn hnd
    rw [hvget]
    refine vGet_writeRegs_other _ _ _ _ _ hn hbound ?_
    intro e hm hen
    obtain ⟨l2, hl2, x, f, h1, h2⟩ := hmem e hm
    obtain ⟨h3, r, hr, h4⟩ := valWrites_v h2 hen
    subst h3
    refine hnd ⟨hl2, r, hr, ?_⟩
    rcases h4 with ⟨h, _⟩ | ⟨hw, h, _⟩
    · exact .inl h
    · exact .inr ⟨hw, h⟩
  · intro n hnd
    rw [hsreg]
    refine sreg_writeRegs_other _ _ _ _ ?_
    intro e hm hen
    obtain ⟨l2, hl2, x, f, h1, h2⟩ := hmem e hm
    obtain ⟨k, hk, h4⟩ := valWrites_s h2 hen
    refine hnd ⟨k, hk, ?_⟩
    rcases h4 with ⟨h, _⟩ | ⟨hw, h, _⟩
    · exact .inl h
    · exact .inr ⟨hw, h⟩
  · intro k
    rw [hflg]
    simp only [BitVec.getLsbD_or, Bool.or_eq_true, orFlags_bit]
    refine or_congr Iff.rfl ?_
    constructor
    · rintro ⟨e, hm, hk⟩
      simp only [fl, rs, List.map_map, List.mem_map, Function.comp] at hm
      obtain ⟨l, hl, rfl⟩ := hm
      obtain ⟨_, x, f, h1, _⟩ := hv l hl
      exact ⟨l, hl, x, f, h1, by simpa [valRes, h1] using hk⟩
    · rintro ⟨l, hl, x, f, h1, hk⟩
      refine ⟨(l, f), ?_, hk⟩
      simp only [fl, rs, List.map_map, List.mem_map, Function.comp]
      exact ⟨l, hl, by simp [valRes, h1]⟩

/-- A word of per-lane values does what `WritesRegs` says, when its lanes compute `val`. -/
theorem laneWord_writes {i : Instr} {wide : Bool} {d : Spec} {ok : Group → Bool} {val : State → Ctx → Nat → Option (Nat × Flags)}
    (f : State → Ctx → Nat → Except Nat LaneRes)
    (hx : ∀ s u, Acts s u i → ok (getGroup s u.gkey) = true → (∀ l, OnLane s u i l → (val s (ctxOf s u i) l).isSome) →
      exec i s = .next (classWord i (ctxOf s u i) s (evalLanes (ctxOf s u i) (f s (ctxOf s u i)))))
    (he : wellFormed i = true → EvenPair wide d)
    (hf : ∀ s c l x fl, val s c l = some (x, fl) → CanWrite c l wide d → f s c l = .ok (valWrites c l wide d x, fl)) :
    WritesRegs i ⟨wide, d, ok, val⟩ := by
  intro s u ha hl hok hv
  dsimp only at hok hv ⊢
  have h1 : ∀ l ∈ lanesOf (ctxOf s u i).active,
      f s (ctxOf s u i) l = .ok (valRes (ctxOf s u i) l wide d (val s (ctxOf s u i) l)) := by
    intro l hm
    obtain ⟨hc, x, fl, h2, _⟩ := hv l hm
    rw [hf s _ l x fl h2 hc]
    simp [valRes, h2]
  have h3 := hx s u ha hok (fun l hm => by obtain ⟨_, x, fl, h2, _⟩ := hv l hm; simp [h2])
  rw [evalLanes_ok _ _ _ h1, classWord] at h3
  have hlong : isLong (ctxOf s u i).g.rat i = false := hl
  rw [if_neg (by simp [hlong])] at h3
  obtain ⟨g', h4, h5⟩ := shortWord_writes (i := i) (c := ctxOf s u i) (s := s) (wide := wide) (d := d)
    (v := fun l => val s (ctxOf s u i) l) rfl (acts_mark ha) (he ha.2.1) hv
  rw [h4] at h3
  obtain ⟨a1, a2, a3, a4, a5, a6, a7, a8, a9⟩ := h5
  refine ⟨g', h3, a1, a2, a3, a4, a5, a6, a7, a8, ?_⟩
  intro k
  rw [a9 k]
  refine or_congr Iff.rfl ⟨?_, ?_⟩
  · rintro ⟨l, hl, x, fl, h⟩; exact ⟨l, x, fl, hl, h⟩
  · rintro ⟨l, x, fl, hl, h⟩; exact ⟨l, hl, x, fl, h⟩

/-- A word of the long class does what `QueuesRegs` says, when its lanes compute `val`. -/
theorem laneWord_queues {i : Instr} {wide : Bool} {d : Spec} {ok : Group → Bool} {val : State → Ctx → Nat → Option (Nat × Flags)}
    (f : State → Ctx → Nat → Except Nat LaneRes)
    (hx : ∀ s u, Acts s u i → ok (getGroup s u.gkey) = true → (∀ l, OnLane s u i l → (val s (ctxOf s u i) l).isSome) →
      exec i s = .next (classWord i (ctxOf s u i) s (evalLanes (ctxOf s u i) (f s (ctxOf s u i)))))
    (hf : ∀ s c l x fl, val s c l = some (x, fl) → CanWrite c l wide d → f s c l = .ok (valWrites c l wide d x, fl)) :
    QueuesRegs i ⟨wide, d, ok, val⟩ := by
  intro s u ha hl hok hact hv
  dsimp only at hok hv ⊢
  let c := ctxOf s u i
  let r : Nat → LaneRes := fun l => valRes c l wide d (val s c l)
  have h1 : ∀ l ∈ lanesOf c.active, f s c l = .ok (r l) := by
    intro l hm
    obtain ⟨hc, x, fl, h2⟩ := hv l hm
    rw [hf s _ l x fl h2 hc]
    simp only [r, valRes, c, h2]
  have h3 := hx s u ha hok (fun l hm => by obtain ⟨_, x, fl, h2⟩ := hv l hm; simp [h2])
  rw [evalLanes_ok _ _ _ h1, classWord] at h3
  have hlong : isLong (ctxOf s u i).g.rat i = true := hl
  rw [if_pos hlong] at h3
  let rs : List (Nat × LaneRes) := (lanesOf c.active).map fun l => (l, r l)
  have hne : rs.isEmpty = false := by
    cases h : lanesOf c.active with
    | nil => exact absurd ((lanesOf_eq_nil _).1 h) hact
    | cons a b => simp only [rs, h]; rfl
  let fs := (rs.map fun x => (x.1, x.2.2)).filter fun e => e.2 ≠ 0
  let g1 := pushOut c.g c.pc c.next c.active (.result (allWrites rs) fs) ((allWrites rs).map (·.1))
  have hgk : c.gk = u.gkey := rfl
  have h4 : longWord i c s (rs, []) = setGroup s u.gkey (passOn i c g1 c.active) := by
    simp only [longWord, hne, Bool.false_eq_true, if_false, updGroup_eq]
    have hm : lanesMask (rs.map (·.1)) = c.active := map_fst_lanes c r
    rw [hm]
    exact closeWord_ok i c s g1 c.active
  rw [h4] at h3
  let g' := passOn i c g1 c.active
  have hcl : g' = { g1 with pc := (setPcs g1 c.lanes c.next).pc, xreg := (postStep i c.g c.active).xreg,
                            mark := markOf i && !g1.outs.isEmpty } := by
    have h2 := passOn_frame i c g1 c.active
    have h5 : g1.mark = false := acts_mark ha
    rw [postStep_xreg i c.active (show g1.xreg = c.g.xreg from rfl), h5] at h2
    have h3 : g' = passOn i c g1 c.active := rfl
    rw [h3, h2]
    cases markOf i <;> simp
  refine ⟨g', ⟨c.g.nextSeq, c.pc, c.next, c.active, .result (allWrites rs) fs, (allWrites rs).map (·.1)⟩, h3, ?_, ?_, ?_, ?_, ?_, ?_, ?_,
    rfl, ?_, rfl, allWrites rs, fs, rfl, rfl, ?_, ?_⟩
  · simp only [RegFrame]; rw [hcl]; rfl
  · exact passOn_goOn i c g1 c.g c.active rfl
  · rw [hcl]; rfl
  · rw [hcl]; rfl
  · rw [hcl]; rfl
  · rw [hcl]; rfl
  · rw [hcl]; rfl
  · rw [hcl]; rfl
  · intro e
    have hr : ∀ l ∈ lanesOf c.active, ∃ x fl, val s c l = some (x, fl) ∧ r l = (valWrites c l wide d x, fl) := by
      intro l hm
      obtain ⟨_, x, fl, h⟩ := hv l hm
      exact ⟨x, fl, h, by simp only [r, valRes, c, h]⟩
    rw [mem_allWrites_map]
    constructor
    · rintro ⟨l, hl, he, hu⟩
      obtain ⟨x, fl, hx, h⟩ := hr l hl
      rw [h] at he
      refine ⟨l, x, fl, hl, hx, (mem_valWrites.1 he).imp id ?_⟩
      rintro ⟨n, hd, h⟩
      exact ⟨n, hd, hu (by rcases h with rfl | ⟨_, rfl⟩ <;> rfl), h⟩
    · rintro ⟨l, x, fl, hl, hx, h⟩
      obtain ⟨x', fl', hx', h'⟩ := hr l hl
      cases hx.symm.trans hx'
      refine ⟨l, hl, ?_, ?_⟩
      · rw [h']
        exact mem_valWrites.2 (h.imp id fun ⟨n, hd, _, h⟩ => ⟨n, hd, h⟩)
      · intro hu
        rcases h with ⟨_, _, rfl | ⟨_, rfl⟩⟩ | ⟨_, _, hh, _⟩
        · simp [isUni] at hu
        · simp [isUni] at hu
        · exact hh
  · rintro ⟨l, fl⟩
    simp only [fs, rs, List.mem_filter, List.mem_map, decide_eq_true_eq]
    constructor
    · rintro ⟨⟨_, ⟨j, hj, rfl⟩, h⟩, hf⟩
      obtain ⟨_, x, fl', hx⟩ := hv j hj
      simp only [r, valRes, c, hx, Prod.mk.injEq] at h hf
      obtain ⟨rfl, rfl⟩ := h
      exact ⟨_, x, _, hj, hx, hf, rfl⟩
    · rintro ⟨j, x, fl', hj, hx, hf, h⟩
      cases h
      exact ⟨⟨_, ⟨_, hj, rfl⟩, by simp only [r, valRes, c, hx]⟩, hf⟩

end Sys2Proof.Machine
end

