-- ==== Sys2Proof/Tests/Slice0.lean ====
section
/-! SUPPORT. The author's own tests: words of the spec decode to what they stand for, ill-formed terms are refused, witnesses for the
hypotheses of the statements, single steps. -/

open Sys2Proof
open Sys2Proof.Machine

namespace Sys2Proof.Tests

set_option Elab.async false

/-! ## Words of the spec's worked examples, and words written out from its layouts -/

def H0 : Hdr := ⟨false, .f 0 false, 0, false, 0⟩
def HX : Hdr := ⟨false, .x 0 false 0 false 0, 0, false, 0⟩
def HM : Hdr := ⟨true, .f 0 false, 0, false, 0⟩
def HG (p : BitVec 4) : Hdr := ⟨false, .f p false, 0, false, 0⟩
def HMG (p : BitVec 4) : Hdr := ⟨true, .f p false, 0, false, 0⟩

-- R81: `tollrd.e s4 ^`
theorem test_decode_tollrd : decodeWords 0x9780104000000010 0 = .ok (.tollrd HM .e (.s 4)) := by rfl
-- R105: `iadd v0, v5 || fadd v2, v7`
theorem test_decode_pair : decodeWords 0x202000051000201C 0 =
    .ok (.pairWord false ⟨0x01, 0, 0, .v 5⟩ ⟨0x20, 0, 2, .v 7⟩) := by rfl
-- R110: `?p1&!p2 tollset.abs s3 ^`
theorem test_decode_tollset_x : decodeWords 0xD788228002060000 0x0000000000100000 =
    .ok (.tollset ⟨true, .x 1 false 2 true 0, 0, false, 0⟩ true (.s 3)) := by rfl
-- R124: `iadd v4, 1 || iadd v9, v14`
theorem test_decode_pair_imm : decodeWords 0x2020130100809038 0 =
    .ok (.pairWord false ⟨0x01, 0, 4, .imm 1⟩ ⟨0x01, 0, 9, .v 14⟩) := by rfl
-- R134: `?!p3 fmul.f32.rz v12, v4, c32 ^`
theorem test_decode_fmul : decodeWords 0x8611C0C013A04100 0 =
    .ok (.fmul ⟨true, .f 3 true, 0, false, 0⟩ .f32 .rz false (.v 12) (.v 4) (.con 32)) := by rfl
-- R167: `movi v3, 100000000`, and the same word read from bytes in memory order (R1)
theorem test_decode_movi : decodeWords 0x40D8000018000000 0xF5E1000508000000 = .ok (.movi HX .n32 (.v 3) 0x05F5E100) := by rfl
theorem test_decode_bytes : decode [0, 0, 0, 0x18, 0, 0, 0xD8, 0x40, 0, 0, 0, 0x08, 0x05, 0, 0xE1, 0xF5, 7] =
    .ok (.movi HX .n32 (.v 3) 0x05F5E100, [7]) := by rfl
-- R167: `icmp.lt.i32 p1, v9, v3`
theorem test_decode_icmp : decodeWords 0x00B8001024030020 0 = .ok (.icmp H0 .lt .i32 1 (.v 9) (.v 3)) := by rfl
-- R186: `enrol j0, done` and `?p1 bra negv`
theorem test_decode_enrol : decodeWords 0x0420000000000060 0 = .ok (.enrol H0 0 6) := by rfl
theorem test_decode_bra : decodeWords 0x0400800000000030 0 = .ok (.bra (HG 1) 3) := by rfl
-- R221: CVT of FP32 to E4M3 with SAT into byte 2 of v5
theorem test_decode_cvt : decodeWords 0x080000500C0860A0 0 = .ok (.cvt H0 .e4m3 .f32 .rn true 2 0 (.v 5) (.v 3)) := by rfl
-- R257: `ld.f32 v4, [s2 + 0]`; R289: `ld.f32 v[x1]+, [v2.d + 0]`; R294: the gather
theorem test_decode_ld : decodeWords 0x0A0000440B004000 0 = .ok (.ld H0 .f32 .core .x1 (.v 4) (.s 2) (.imm 0) 0) := by rfl
theorem test_decode_ld_indexed : decodeWords 0x0A0029000B004000 0 =
    .ok (.ld H0 .f32 .core .x1 (.x true 1 0) (.v 2) (.imm 0) 0) := by rfl
theorem test_decode_gather : decodeWords 0x8A00006013004000 0 = .ok (.ld HM .f32 .core .x1 (.v 6) (.v 4) (.imm 0) 0) := by rfl
-- R289: `fdiv.f32 v27, v27, v26`
theorem test_decode_fdiv : decodeWords 0x065801B06C1A4000 0 = .ok (.fdiv H0 .f32 .rn false (.v 27) (.v 27) (.v 26)) := by rfl
-- R271: `?p5 atoma.add.n32 v6, [s30], 1 ^`
theorem test_decode_atoma : decodeWords 0x8A3280647B010800 0 = .ok (.atoma (HMG 5) .add .n32 .core (.v 6) (.s 30) (.imm 1) 0) := by rfl
-- R388: `?p5 ldk.n32 v11, [s6 + v8] ^`
theorem test_decode_ldk : decodeWords 0x8A1280B418080800 0 = .ok (.ldk (HMG 5) .n32 .x1 (.v 11) (.s 6) (.v 8) 0) := by rfl
-- R276: `xcopy [s20], [s8], s12, 0`; R311: `xcopy.chk` at rung3
theorem test_decode_xcopy : decodeWords 0x4C000008A2108600 0x0000000000000300 =
    .ok (.xcopy HX 0 (.s 20) (.s 8) (.s 12) (.imm 0)) := by rfl
theorem test_decode_xcopy_chk : decodeWords 0x4C040008D2208F00 0x0000008200042F03 =
    .ok (.xcopyChk HX 0 (.s 26) (.s 16) (.s 30) (.imm 3) (.s 11) true 2) := by rfl
-- R337: `tmap.bf16.sw3.sp t0, s4.d, s6`; R345: `mma.square.f64 a0, t0, t1, k1, 0, 32`
theorem test_decode_tmap : decodeWords 0x0E00000411065B00 0 = .ok (.tmap H0 .bf16 3 0 0 0 (.s 4) (.s 6) (.v 0) (.v 0)) := by rfl
theorem test_decode_mma : decodeWords 0x4E3C000000000080 0x00002000480C0001 = .ok (.mmaSquare HX true 0 0 1 1 (.imm 0) 32) := by rfl
-- R371: `bar`, `phrel`, `bowait [s20], s3`
theorem test_decode_bar : decodeWords 0x1000000C00000000 0 = .ok (.bar H0 (.imm 0)) := by rfl
theorem test_decode_phrel : decodeWords 0x1030000000000200 0 = .ok (.phrel H0 .dev) := by rfl
theorem test_decode_bowait : decodeWords 0x1018000451030000 0 = .ok (.bowait H0 (.s 20) (.s 3)) := by rfl
-- R314: `?p2 tollset.abs c64`
theorem test_decode_tollset : decodeWords 0x1789000F00000010 0 = .ok (.tollset (HG 2) true (.con 64)) := by rfl
-- R397: `srd s2.d, %args`, `swr %mode, s5`, `cclr 4`, `tret`; R418: `pmark 5`, `cntrd s4.d, 0`, `smpl 0`
theorem test_decode_srd : decodeWords 0x18001020000000A0 0 = .ok (.srd H0 0x00A (.s 2)) := by rfl
theorem test_decode_swr : decodeWords 0x1808000414000100 0 = .ok (.swr H0 0x010 (.s 5)) := by rfl
theorem test_decode_cclr : decodeWords 0x1810000C10000000 0 = .ok (.cclr H0 (.imm 4)) := by rfl
theorem test_decode_tret : decodeWords 0x1818000000000000 0 = .ok (.tret H0) := by rfl
theorem test_decode_pmark : decodeWords 0x1820000C14000000 0 = .ok (.pmark H0 (.imm 5)) := by rfl
theorem test_decode_cntrd : decodeWords 0x1828104C00000000 0 = .ok (.cntrd H0 (.s 4) (.imm 0)) := by rfl
theorem test_decode_smpl : decodeWords 0x1830000C00000000 0 = .ok (.smpl H0 (.imm 0)) := by rfl
-- R102, R168: `pand p3, !p1, p2`: OP 0x040, D 3, A 1, B 2, NA at bit 1 of the modifier
theorem test_decode_pand : decodeWords
    (0#1 ++ (0b00#2 ++ (0b0001000000#10 ++ (0#4 ++ (0#1 ++ (0b0000000011#10 ++ (0b0000000001#10 ++ (0b0000000010#10 ++
      (0b000000000010#12 ++ 0#4))))))))) 0 = .ok (.pand H0 true false 3 1 2) := by rfl
-- R102, R169: `xset x2, s5`: OP 0x050
theorem test_decode_xset : decodeWords
    (0#1 ++ (0b00#2 ++ (0b0001010000#10 ++ (0#4 ++ (0#1 ++ (0b0000000010#10 ++ (0b0100000101#10 ++ (0#10 ++ (0#12 ++ 0#4))))))))) 0 =
    .ok (.xset H0 2 (.s 5)) := by rfl
-- R102, R172: `shfl.down.n32.wrel v5, v2, 1`: OP 0x060, TYPE 0x01, SAT (.wrel) at bit 3, OPSEL 1
theorem test_decode_shfl : decodeWords
    (0#1 ++ (0b00#2 ++ (0b0001100000#10 ++ (0#4 ++ (0#1 ++ (0b0000000101#10 ++ (0b0000000010#10 ++ (0b1100000001#10 ++
      (0b000010001001#12 ++ 0#4))))))))) 0 = .ok (.shfl H0 .down .n32 true (.v 5) (.v 2) (.imm 1)) := by rfl
-- R102, R224: `qmake.i32 v4, v6, v7`: OP 0x110
theorem test_decode_qmake : decodeWords
    (0#1 ++ (0b00#2 ++ (0b0100010000#10 ++ (0#4 ++ (0#1 ++ (0b0000000100#10 ++ (0b0000000110#10 ++ (0b0000000111#10 ++ (0#12 ++ 0#4))))))))) 0 =
    .ok (.qmake H0 .i32 .rn (.v 4) (.v 6) (.v 7)) := by rfl
-- R102, R228: `sfq.ex2.f32 v4, v6, s3`: OP 0x120, TYPE 0x08, OPSEL 2
theorem test_decode_sfq : decodeWords
    (0#1 ++ (0b00#2 ++ (0b0100100000#10 ++ (0#4 ++ (0#1 ++ (0b0000000100#10 ++ (0b0000000110#10 ++ (0b0100000011#10 ++
      (0b010000000010#12 ++ 0#4))))))))) 0 = .ok (.sfq H0 .ex2 .f32 (.v 4) (.v 6) (.s 3)) := by rfl
-- R102, R371: `launch s2.d`: OP 0x240
theorem test_decode_launch : decodeWords
    (0#1 ++ (0b00#2 ++ (0b1001000000#10 ++ (0#4 ++ (0#1 ++ (0#10 ++ (0b0100000010#10 ++ (0#10 ++ (0#12 ++ 0#4))))))))) 0 =
    .ok (.launch H0 (.s 2)) := by rfl
-- R96, R120: hint words, whatever else they hold
theorem test_decode_hint : decodeWords 0xFFFFFFFFFFFFFFFF 0 = .ok (.hintWord true false) ∧
    decodeWords 0x1E00000000000000 0 = .ok (.hintWord false false) := by constructor <;> rfl
-- R120, R129: unassigned opcodes, X-only opcodes in F form, undefined variants, reserved guard combinations
theorem test_decode_unassigned : decodeWords 0x00E0000000000000 0 = .error .unassigned := by rfl
theorem test_decode_x_only : decodeWords 0x00D8000000000000 0 = .error .xOnly := by rfl
theorem test_decode_variant : decodeWords 0x4002000000000000 0 = .error .variant := by rfl
-- R101: an immediate destination, an odd register of a pair (`iadd.i64 v3.d, v4.d, v6.d`)
theorem test_decode_imm_dest : decodeWords 0x0000300000000000 0 = .error .kind := by rfl
theorem test_decode_odd_pair : decodeWords 0x0000003010061000 0 = .error .kind := by rfl
-- R95: bytes too few for a word
theorem test_decode_short : decode [0, 0, 0] = .error .short := by rfl
/-! ## States for the tests: one thread in lane 0 of group 0 of team 0, every register zero, at address 0 -/

def U : Issue := ⟨0, 0, 1⟩
/-- The machine after its release order (R429). -/
def RS : State := { State.reset with anchor := { State.reset.anchor with state := 4, step := 7 } }
def S0 : State := { RS.withFetchWord 0 0 with cur := some U }
/-- The same with the group, the team or the launch changed. -/
def withG (f : Group → Group) : State := { S0 with groups := [(0, f placedGroup)] }
def withT (f : Team → Team) : State := { S0 with teams := [(0, f placedTeam)] }
def withL (f : Launch → Launch) : State := { S0 with launches := [(0, f placedLaunch)] }
def handlerAt (a : DWord) (g : Group) : State := { S0 with groups := [(0, g)], launches := [(0, { placedLaunch with handler := some a })] }

/-- Lane 0 is the only active lane of each word of these tests. -/
theorem lane_zero {s : State} {u : Issue} {i : Instr} (h : (ctxOf s u i).active = 1) {l : Nat} (hl : OnLane s u i l) : l = 0 := by
  rw [OnLane, h] at hl
  exact List.mem_singleton.1 (show l ∈ [0] from hl)

def actsB (s : State) (u : Issue) (i : Instr) : Bool := decide (s.cur = some u) && wellFormed i && !waits s u i
theorem acts_of {s : State} {u : Issue} {i : Instr} (h : actsB s u i = true) : Acts s u i := by
  simp only [actsB, Bool.and_eq_true, decide_eq_true_eq, Bool.not_eq_true'] at h
  exact ⟨h.1.1, h.1.2, h.2⟩

/-- What the statements over register words ask of a word. -/
def MeetsRegs (s : State) (i : Instr) (op : RegOp) (long : Bool) : Prop :=
  Acts s U i ∧ isLong (getGroup s 0).rat i = long ∧ op.ok (getGroup s 0) = true ∧ (ctxOf s U i).active ≠ 0 ∧
    ∀ l, OnLane s U i l → CanWrite (ctxOf s U i) l op.wide op.dest ∧
      ∃ x fl, op.val s (ctxOf s U i) l = some (x, fl) ∧ fl &&& (getGroup s 0).fen = 0
def regsB (s : State) (i : Instr) (op : RegOp) (long : Bool) : Bool :=
  actsB s U i && decide (isLong (getGroup s 0).rat i = long) && op.ok (getGroup s 0) && decide ((ctxOf s U i).active = 1) &&
    ((match op.dest with | .s _ => true | _ => false) || (destReg (ctxOf s U i) 0 op.wide op.dest).isSome) &&
    (match op.val s (ctxOf s U i) 0 with | some r => decide (r.2 &&& (getGroup s 0).fen = 0) | none => false)
theorem regs_of {s : State} {i : Instr} {op : RegOp} {long : Bool} (h : regsB s i op long = true) : MeetsRegs s i op long := by
  simp only [regsB, Bool.and_eq_true, decide_eq_true_eq, Bool.or_eq_true] at h
  obtain ⟨⟨⟨⟨⟨h1, h2⟩, h3⟩, h4⟩, h5⟩, h6⟩ := h
  refine ⟨acts_of h1, h2, h3, by rw [h4]; decide, fun l hl => ?_⟩
  cases lane_zero h4 hl
  constructor
  · rcases h5 with h5 | h5
    · left; cases hd : op.dest <;> simp_all
    · exact .inr (Option.isSome_iff_exists.1 h5)
  · split at h6
    · next r hr => exact ⟨r.1, r.2, hr, of_decide_eq_true h6⟩
    · cases h6

def opB (f : Instr → Option RegOp) (i : Instr) (long : Bool) : Bool := match f i with | some op => regsB S0 i op long | none => false
theorem op_of {f : Instr → Option RegOp} {i : Instr} {long : Bool} (h : opB f i long = true) : ∃ op, f i = some op ∧ MeetsRegs S0 i op long := by
  simp only [opB] at h
  split at h
  · next op ho => exact ⟨op, ho, regs_of h⟩
  · cases h

/-! ## Witnesses for the statements on words: a state and operands that meet the hypotheses -/

theorem wit_decodeEncode : wellFormed (.pairWord true ⟨0x43, 7, 255, .con 127⟩ ⟨0x17, 0, 0, .imm 64⟩) = true ∧
    (encode (.pairWord true ⟨0x43, 7, 255, .con 127⟩ ⟨0x17, 0, 0, .imm 64⟩)).isSome = true := by decide
theorem wit_decodedIsWellFormed : decodeWords 0 0 = .ok (.iadd H0 .i32 false (.v 0) (.v 0) (.v 0)) := by rfl

/-- A state about to fetch a word. -/
def F (w : Nat) : State := State.reset.withFetchWord 128 w
theorem wit_stepRuns_event : ({ S0 with agenda := [.tollTick 0] } : State).agenda = .tollTick 0 :: [] := rfl
/-- A watchdog expiry behind a write of MBCMD, and behind another event. -/
theorem wit_stepRuns_watchdog : let s : State := { S0 with agenda := [.mbStage 0 5, .tollTick 0, .watchdogExpiry .management] }
    s.agenda = .mbStage 0 5 :: ([.tollTick 0] ++ .watchdogExpiry .management :: []) ∧ (∀ q, Instr.watchdogExpiry q ∉ [Instr.tollTick 0]) ∧
    (∀ p, Instr.watchdogExpiry p ∉ ([] : List Instr)) ∧
    (∀ f v, Instr.tollTick 0 ≠ .mbAttest f v ∧ Instr.tollTick 0 ≠ .mbReadlog f v ∧ Instr.tollTick 0 ≠ .mbReboot f v ∧
      Instr.tollTick 0 ≠ .mbSelect f v ∧ Instr.tollTick 0 ≠ .mbStage f v) ∧ ∀ f o w v, Instr.tollTick 0 ≠ .registerWrite f o w v := by simp
theorem wit_stepRuns_f : (F 0x0450000000000000).agenda = [] ∧ nextIssue (F 0x0450000000000000) = some U ∧
    ∃ t, fetchWord (F 0x0450000000000000) 0 0 = (t, .ok 0x0450000000000000) ∧ wordLen 0x0450000000000000 = 8 ∧
      decodeWords 0x0450000000000000 0 = .ok (.trap H0 0) := by refine ⟨rfl, by rfl, _, rfl, by rfl, by rfl⟩
theorem wit_stepRuns_x : let w := 0xF5E100050800000040D8000018000000
    (F w).agenda = [] ∧ nextIssue (F w) = some U ∧
    ∃ t t', fetchWord (F w) 0 0 = (t, .ok 0x40D8000018000000) ∧ fetchWord t 0 8 = (t', .ok 0xF5E1000508000000) ∧
      wordLen 0x40D8000018000000 = 16 ∧ decodeWords 0x40D8000018000000 0xF5E1000508000000 = .ok (.movi HX .n32 (.v 3) 0x05F5E100) := by
  refine ⟨rfl, by rfl, _, _, rfl, rfl, by rfl, by rfl⟩
theorem wit_stepRuns_none : let w := 0x00E0000000000000
    (F w).agenda = [] ∧ nextIssue (F w) = some U ∧
    ∃ t, fetchWord (F w) 0 0 = (t, .ok 0x00E0000000000000) ∧ wordLen 0x00E0000000000000 = 8 ∧
      decodeWords 0x00E0000000000000 0 = .error .unassigned := by refine ⟨rfl, by rfl, _, rfl, by rfl, by rfl⟩
theorem wit_stepRuns_idle : State.reset.agenda = [] ∧ nextIssue State.reset = none := ⟨rfl, by rfl⟩
theorem wit_stepNeverStops : ∀ i rest, ({ S0 with agenda := [.tollTick 0, .trap H0 0] } : State).agenda = i :: rest →
    isEvent i = true ∨ ({ S0 with agenda := [.tollTick 0, .trap H0 0] } : State).cur.isSome = true := fun _ _ _ => .inr rfl
theorem wit_memoryStaysCanonical : MemoryOk State.reset ∧ ∃ t, step State.reset = .next t := ⟨⟨rfl, rfl, rfl⟩, _, rfl⟩
theorem wit_shifts : MeetsRegs S0 (.sar H0 .i32 (.v 1) (.imm 64) (.imm 31))
    ⟨false, .v 1, anyMode, val2 .i32 .n32 (.imm 64) (.imm 31) (sarRes .i32)⟩ false := regs_of (by decide +kernel)
theorem wit_floatSigns : (∃ op, floatOp (.fabs H0 .f16 (.v 1) (.v 2)) = some op ∧ MeetsRegs S0 (.fabs H0 .f16 (.v 1) (.v 2)) op false) ∧
    ∃ op, floatOp (.fneg H0 .f64 (.v 254) (.v 2)) = some op ∧ MeetsRegs S0 (.fneg H0 .f64 (.v 254) (.v 2)) op true :=
  ⟨op_of (by decide +kernel), op_of (by decide +kernel)⟩
theorem wit_integerResults :
    (∃ op, integerOp (.iadd H0 .i64 true (.v 254) (.v 0) (.imm 63)) = some op ∧ MeetsRegs S0 (.iadd H0 .i64 true (.v 254) (.v 0) (.imm 63)) op false) ∧
    (∃ op, integerOp (.mov H0 .n32 (.s 127) (.con 127)) = some op ∧ MeetsRegs S0 (.mov H0 .n32 (.s 127) (.con 127)) op false) ∧
    (∃ op, integerOp (.igcd H0 .i32 (.v 255) (.v 0) (.v 0)) = some op ∧ MeetsRegs S0 (.igcd H0 .i32 (.v 255) (.v 0) (.v 0)) op true) ∧
    ∃ op, integerOp (.igcd H0 .i64 (.s 126) (.v 0) (.v 0)) = some op ∧ MeetsRegs S0 (.igcd H0 .i64 (.s 126) (.v 0) (.v 0)) op true :=
  ⟨op_of (by decide +kernel), op_of (by decide +kernel), op_of (by decide +kernel), op_of (by decide +kernel)⟩
theorem wit_floatResults :
    (∃ op, floatOp (.fadd H0 .f32 .ru false (.v 1) (.con 63) (.imm 64)) = some op ∧ MeetsRegs S0 (.fadd H0 .f32 .ru false (.v 1) (.con 63) (.imm 64)) op false) ∧
    ∃ op, floatOp (.fdiv H0 .f64 .rn true (.v 0) (.v 2) (.con 0)) = some op ∧ MeetsRegs S0 (.fdiv H0 .f64 .rn true (.v 0) (.v 2) (.con 0)) op true :=
  ⟨op_of (by decide +kernel), op_of (by decide +kernel)⟩
theorem wit_conversionResults :
    (∃ op, convOp (.cvt H0 .e4m3 .f32 .rn true 3 0 (.v 5) (.v 3)) = some op ∧ MeetsRegs S0 (.cvt H0 .e4m3 .f32 .rn true 3 0 (.v 5) (.v 3)) op false) ∧
    ∃ op, convOp (.qmake H0 .i64 .rm (.v 1) (.imm 1) (.imm 3)) = some op ∧ MeetsRegs S0 (.qmake H0 .i64 .rm (.v 1) (.imm 1) (.imm 3)) op true :=
  ⟨op_of (by decide +kernel), op_of (by decide +kernel)⟩
theorem wit_crossLaneResults :
    (∃ op, laneOp (.shfl H0 .down .n32 true (.v 5) (.v 2) (.imm 1)) = some op ∧ MeetsRegs S0 (.shfl H0 .down .n32 true (.v 5) (.v 2) (.imm 1)) op false) ∧
    (∃ op, laneOp (.lanerd H0 .n32 (.s 5) (.v 2) (.imm 32)) = some op ∧ MeetsRegs S0 (.lanerd H0 .n32 (.s 5) (.v 2) (.imm 32)) op false) ∧
    ∃ op, laneOp (.redx H0 .min .f64 .rn (.v 4) (.v 2)) = some op ∧ MeetsRegs S0 (.redx H0 .min .f64 .rn (.v 4) (.v 2)) op true :=
  ⟨op_of (by decide +kernel), op_of (by decide +kernel), op_of (by decide +kernel)⟩
theorem wit_stateReads :
    (∃ op, stateOp (.tollrd H0 .l (.s 4)) = some op ∧ MeetsRegs S0 (.tollrd H0 .l (.s 4)) op false) ∧
    ∃ op, stateOp (.accrd H0 .f64 .rn false (.v 4) 7 (.imm 7)) = some op ∧ MeetsRegs S0 (.accrd H0 .f64 .rn false (.v 4) 7 (.imm 7)) op true :=
  ⟨op_of (by decide +kernel), op_of (by decide +kernel)⟩

/-- The same for predicate words. -/
def MeetsPreds (i : Instr) (op : PredOp) (long : Bool) : Prop :=
  Acts S0 U i ∧ isLong (getGroup S0 0).rat i = long ∧ op.ok (getGroup S0 0) = true ∧ (ctxOf S0 U i).active ≠ 0 ∧
    ∀ l, OnLane S0 U i l → ∃ x fl, op.val S0 (ctxOf S0 U i) l = some (x, fl) ∧ fl &&& (getGroup S0 0).fen = 0
theorem preds_of {i : Instr} {op : PredOp} {long : Bool} {x : Bool} (h : (actsB S0 U i && decide (isLong (getGroup S0 0).rat i = long) &&
    op.ok (getGroup S0 0) && decide ((ctxOf S0 U i).active = 1)) = true) (hv : op.val S0 (ctxOf S0 U i) 0 = some (x, 0)) :
    MeetsPreds i op long := by
  simp only [Bool.and_eq_true, decide_eq_true_eq] at h
  obtain ⟨⟨⟨h1, h2⟩, h3⟩, h4⟩ := h
  refine ⟨acts_of h1, h2, h3, by rw [h4]; decide, fun l hl => ?_⟩
  cases lane_zero h4 hl
  exact ⟨x, 0, hv, by simp⟩
theorem wit_predicateResults :
    (∃ op, predOp (.icmp H0 .ge .i64 0 (.v 254) (.imm 64)) = some op ∧ MeetsPreds (.icmp H0 .ge .i64 0 (.v 254) (.imm 64)) op false) ∧
    (∃ op, predOp (.vote H0 .all (.v 15) 0) = some op ∧ MeetsPreds (.vote H0 .all (.v 15) 0) op false) ∧
    ∃ op, predOp (.fcmp H0 .lt .f64 true 15 (.v 0) (.con 32)) = some op ∧ MeetsPreds (.fcmp H0 .lt .f64 true 15 (.v 0) (.con 32)) op true :=
  ⟨⟨_, rfl, preds_of (x := true) (by decide +kernel) (by decide +kernel)⟩, ⟨_, rfl, preds_of (x := true) (by decide +kernel) (by decide +kernel)⟩, ⟨_, rfl, preds_of (x := true) (by decide +kernel) (by decide +kernel)⟩⟩
theorem once_of {s : State} {i : Instr} (h : (actsB s U i && decide ((ctxOf s U i).active = 1)) = true) :
    ActsOnce s U i ∧ (ctxOf s U i).active = 1 := by
  simp only [Bool.and_eq_true, decide_eq_true_eq] at h
  exact ⟨⟨acts_of h.1, by rw [h.2]; decide⟩, h.2⟩
/-- Every word of a list acts in a state, in lane 0. -/
def OnceAll (s : State) (is : List Instr) : Prop := ∀ i, i ∈ is → ActsOnce s U i ∧ (ctxOf s U i).active = 1
theorem onceAll_of {s : State} {is : List Instr} (h : (is.all fun i => actsB s U i && decide ((ctxOf s U i).active = 1)) = true) : OnceAll s is :=
  fun i hi => once_of (List.all_eq_true.1 h i hi)

theorem wit_xfindResult : OnceAll S0 [.xfind H0 (.s 255) (.imm 127)] ∧ uniVal S0 U (.xfind H0 (.s 255) (.imm 127)) .i64 (.imm 127) = some (2 ^ 64 - 1) ∧
    let s := withG fun g => { g with det := true }
    let s := { s with teams := [(0, { placedTeam with done := 0x7FFFFFFFFFFFFFFF })] }
    s.cur = some U ∧ wellFormed (.xfind H0 (.s 0) (.imm 127)) = true ∧ (ctxOf s U (.xfind H0 (.s 0) (.imm 127))).active ≠ 0 ∧
      (getGroup s 0).det = true ∧
      ~~~(teamOf s 0).done &&& BitVec.ofNat 64 (readUni (ctxOf s U (.xfind H0 (.s 0) (.imm 127))) .i64 (.imm 127)) ≠ 0 :=
  ⟨onceAll_of (by decide +kernel), by decide +kernel, rfl, by decide +kernel, by decide +kernel, rfl, by decide +kernel⟩
theorem wit_boundFault : let i : Instr := .iadd H0 .i32 false (.v 0) (.x false 0 8) (.v 0)
    ∃ op, integerOp i = some op ∧ Acts S0 U i ∧ markOf i = false ∧ isLong (getGroup S0 0).rat i = false ∧ (getGroup S0 0).hmask = 0 ∧
      (getGroup S0 0).rejoin = [] ∧ (∀ l, OnLane S0 U i l → op.val S0 (ctxOf S0 U i) l = none ∨ ¬ CanWrite (ctxOf S0 U i) l op.wide op.dest) ∧
      (ctxOf S0 U i).active ≠ 0 := by
  refine ⟨_, rfl, (once_of (by decide +kernel)).1.1, rfl, by decide +kernel, rfl, rfl, fun l hl => ?_, by decide +kernel⟩
  cases lane_zero (by decide +kernel) hl
  exact .inl (by decide +kernel)
/-- Two lanes, of which lane 1 has its cursor below its registers. -/
def U2 : Issue := ⟨0, 0, 3⟩
def S2 : State := { withG (fun g => { g with live := 3, xreg := [(0, 0x00080000)] }) with cur := some U2 }
theorem wit_boundFault_mixed (d : Spec) (hd : d = .v 0 ∨ d = .s 127) : let i : Instr := .iadd H0 .i32 false d (.x false 0 8) (.v 0)
    ∃ op, integerOp i = some op ∧ Acts S2 U2 i ∧ markOf i = false ∧ isLong (getGroup S2 0).rat i = false ∧ (getGroup S2 0).hmask = 0 ∧
      (getGroup S2 0).rejoin = [] ∧ (∃ l, OnLane S2 U2 i l ∧ (op.val S2 (ctxOf S2 U2 i) l = none ∨ ¬ CanWrite (ctxOf S2 U2 i) l op.wide op.dest)) ∧
      ∃ l, OnLane S2 U2 i l ∧ (op.val S2 (ctxOf S2 U2 i) l).isSome ∧ CanWrite (ctxOf S2 U2 i) l op.wide op.dest := by
  simp only [OnLane]
  rcases hd with rfl | rfl
  · exact ⟨_, rfl, acts_of (by decide +kernel), rfl, by decide +kernel, rfl, rfl, ⟨1, by decide +kernel, .inl (by decide +kernel)⟩,
      0, by decide +kernel, by decide +kernel, .inr ⟨0, by decide +kernel⟩⟩
  · exact ⟨_, rfl, acts_of (by decide +kernel), rfl, by decide +kernel, rfl, rfl, ⟨1, by decide +kernel, .inl (by decide +kernel)⟩,
      0, by decide +kernel, by decide +kernel, .inl ⟨127, rfl⟩⟩
theorem wit_indexWords : OnceAll S0 [.xset H0 7 (.imm 64), .xstep H0 0 (.imm 63), .xmov H0 3 7] ∧
    opVal (ctxOf S0 U (.xset H0 7 (.imm 64))) 0 .i32 (.imm 64) = some (2 ^ 32 - 64) ∧
    opVal (ctxOf S0 U (.xstep H0 0 (.imm 63))) 0 .i32 (.imm 63) = some 63 ∧
    OnceAll S0 [.moviHi HX (.v 254) 0xFFFFFFFF, .moviHi HX (.s 126) 1] ∧
    (destReg (ctxOf S0 U (.moviHi HX (.v 254) 0xFFFFFFFF)) 0 true (.v 254)).isSome = true :=
  ⟨onceAll_of (by decide +kernel), by decide +kernel, by decide +kernel, onceAll_of (by decide +kernel), by decide +kernel⟩
theorem wit_pairResults : let h0 : Half := ⟨0x01, 0, 0, .v 5⟩
    let h1 : Half := ⟨0x20, 7, 254, .con 127⟩
    OnceAll S0 [.pairWord false ⟨0x01, 0, 0, .v 5⟩ ⟨0x20, 7, 254, .con 127⟩] ∧ pairBroken h0 h1 = false ∧
    ∀ l, OnLane S0 U (.pairWord false h0 h1) l → ∀ h, h = h0 ∨ h = h1 → (halfLane (ctxOf S0 U (.pairWord false h0 h1)) l h).isOk = true := by
  refine ⟨onceAll_of (by decide +kernel), by decide +kernel, fun l hl h hh => ?_⟩
  cases lane_zero (by decide +kernel) hl
  rcases hh with rfl | rfl <;> decide +kernel
theorem wit_branches : OnceAll S0 [.bra H0 0x1FFFFF, .brx H0 (.v 254), .ret H0 (.s 126), .call H0 (.v 254) 0xE00000] ∧
    opVal (ctxOf S0 U (.brx H0 (.v 254))) 0 .n64 (.v 254) = some 0 ∧ opVal (ctxOf S0 U (.ret H0 (.s 126))) 0 .n64 (.s 126) = some 0 ∧
    (destReg (ctxOf S0 U (.call H0 (.v 254) 0xE00000)) 0 true (.v 254)).isSome = true :=
  ⟨onceAll_of (by decide +kernel), by decide +kernel, by decide +kernel, by decide +kernel⟩
theorem wit_rejoinWords : OnceAll S0 [.enrol H0 0 6, .enrol H0 7 0, .rejoin H0 7] ∧ (jGet (getGroup S0 0) 7).enr = 0 ∧
    (let s := withG fun g => { g with rejoin := [(0, ⟨0, 2, 48⟩)] }
     OnceAll s [.enrol H0 0 6] ∧ (jGet (getGroup s 0) 0).enr ≠ 0 ∧ (jGet (getGroup s 0) 0).jpc = U.pc + ((6#24).signExtend 64 <<< 3)) ∧
    (let s := withG fun g => { g with rejoin := [(7, ⟨0, 3, 0⟩)] }
     let r := jGet (getGroup s 0) 7
     OnceAll s [.rejoin H0 7] ∧ r.enr ≠ 0 ∧ r.arr ||| ((ctxOf s U (.rejoin H0 7)).active &&& r.enr) ≠ r.enr) ∧
    (let s := withG fun g => { g with rejoin := [(7, ⟨2, 3, 0⟩)] }
     let r := jGet (getGroup s 0) 7
     OnceAll s [.rejoin H0 7] ∧ r.enr ≠ 0 ∧ r.arr ||| ((ctxOf s U (.rejoin H0 7)).active &&& r.enr) = r.enr) :=
  ⟨onceAll_of (by decide +kernel), by decide +kernel, ⟨onceAll_of (by decide +kernel), by decide +kernel, by decide +kernel⟩,
    ⟨onceAll_of (by decide +kernel), by decide +kernel, by decide +kernel⟩, ⟨onceAll_of (by decide +kernel), by decide +kernel, by decide +kernel⟩⟩
theorem wit_loopCounts : OnceAll S0 [.loop H0 (.s 127) 0xFFFFFF, .loop H0 (.v 255) 0] ∧
    (127#8).toNat < (ctxOf S0 U (.loop H0 (.s 127) 0xFFFFFF)).l.sregs ∧ (255#8).toNat < (ctxOf S0 U (.loop H0 (.v 255) 0)).l.vregs :=
  ⟨onceAll_of (by decide +kernel), by decide +kernel, by decide +kernel⟩
theorem wit_noOperation : OnceAll S0 [.nop H0, .yield H0, .exit H0] ∧ Acts S0 U (.hintWord true true) ∧
    (getGroup (withG fun g => { g with slot := none }) 0).slot = none := ⟨onceAll_of (by decide +kernel), acts_of (by decide +kernel), rfl⟩
theorem wit_exitEndsLanes : OnceAll S0 [.exit HM] := onceAll_of (by decide +kernel)

/-! ## Exceptions, modes, the toll -/

theorem wit_traps : let s := handlerAt 0x1000 placedGroup
    OnceAll s [.trap H0 255, .bkpt H0 0] ∧ (launchOf s 0).handler = some 0x1000 ∧ (ctxOf s U (.trap H0 255)).active &&& (getGroup s 0).hmask = 0 ∧
    (getFunc s (launchOf s 0).func).holdbp = false ∧ (getGroup s 0).rejoin = [] ∧
    OnceAll S0 [.trap H0 255, .bkpt H0 0] ∧ (launchOf S0 0).handler = none ∧ (tabFind S0.launches (teamOf S0 0).launch).isSome = true ∧
    (launchOf S0 0).stage ≠ .retired ∧ (launchOf S0 0).fate = 0 ∧
    (let s := handlerAt 0x1000 { placedGroup with hmask := 1 }
     OnceAll s [.trap H0 0] ∧ (ctxOf s U (.trap H0 0)).active &&& (getGroup s 0).hmask ≠ 0) :=
  ⟨onceAll_of (by decide +kernel), rfl, by decide +kernel, rfl, rfl, onceAll_of (by decide +kernel), rfl, rfl, by decide +kernel, rfl,
    onceAll_of (by decide +kernel), by decide +kernel⟩
theorem wit_handlerReturn : (let s := handlerAt 0x1000 { placedGroup with hmask := 1 }
    OnceAll s [.tret H0] ∧ (ctxOf s U (.tret H0)).active &&& ~~~(getGroup s 0).hmask = 0) ∧
    (let s := handlerAt 0x1000 placedGroup
     OnceAll s [.tret H0] ∧ (ctxOf s U (.tret H0)).active &&& (getGroup s 0).hmask = 0 ∧ (launchOf s 0).handler = some 0x1000) :=
  ⟨⟨onceAll_of (by decide +kernel), by decide +kernel⟩, onceAll_of (by decide +kernel), by decide +kernel, rfl⟩
theorem wit_specialReads : OnceAll S0 [.srd H0 0x000 (.v 255), .srd H0 0x020 (.s 126), .srd H0 0x012 (.v 254)] ∧
    (destReg (ctxOf S0 U (.srd H0 0x000 (.v 255))) 0 (srnWide 0x000) (.v 255)).isSome = true ∧
    (destReg (ctxOf S0 U (.srd H0 0x012 (.v 254))) 0 (srnWide 0x012) (.v 254)).isSome = true :=
  ⟨onceAll_of (by decide +kernel), by decide +kernel, by decide +kernel⟩
theorem wit_specialWrites : OnceAll S0 [.swr H0 0x010 (.s 5), .swr H0 0x01A (.imm 63), .swr H0 0x012 (.v 254)] ∧
    lanesOf (ctxOf S0 U (.swr H0 0x010 (.s 5))).active = [0] ∧ opVal (ctxOf S0 U (.swr H0 0x010 (.s 5))) 0 .n32 (.s 5) = some 0 ∧
    lanesOf (ctxOf S0 U (.swr H0 0x01A (.imm 63))).active = [0] ∧ opVal (ctxOf S0 U (.swr H0 0x01A (.imm 63))) 0 .n32 (.imm 63) = some 63 ∧
    (opVal (ctxOf S0 U (.swr H0 0x012 (.v 254))) 0 .n64 (.v 254)).isSome = true :=
  ⟨onceAll_of (by decide +kernel), by decide +kernel, by decide +kernel, by decide +kernel, by decide +kernel, by decide +kernel⟩
theorem wit_groupSettings : OnceAll S0 [.cclr H0 (.imm 127), .tollset H0 true (.imm 64), .tollset H0 false (.s 3), .tollrel H0] ∧
    opVal (ctxOf S0 U (.cclr H0 (.imm 127))) 0 .n32 (.imm 127) = some (2 ^ 32 - 1) ∧
    opVal (ctxOf S0 U (.tollset H0 true (.imm 64))) 0 .i32 (.imm 64) = some (2 ^ 32 - 64) ∧
    opVal (ctxOf S0 U (.tollset H0 false (.s 3))) 0 .i32 (.s 3) = some 0 :=
  ⟨onceAll_of (by decide +kernel), by decide +kernel, by decide +kernel, by decide +kernel⟩
theorem wit_traceWords : OnceAll S0 [.pmark H0 (.imm 5), .smpl H0 (.s 0)] ∧
    ((getFunc S0 0).trctail - (getFunc S0 0).trchead).toNat + 4 ≤ 2 ^ (getFunc S0 0).trclog.toNat ∧
    (∀ k, k < 4 → (recPlace S0 0 ((getFunc S0 0).trcbase.toNat / 4096 * 4096 +
      64 * (((getFunc S0 0).trctail.toNat + k) % 2 ^ (getFunc S0 0).trclog.toNat))).isSome = true) ∧
    (let s : State := { S0 with funcs := [(0, { getFunc S0 0 with trctail := 64, trclog := 6 })] }
     OnceAll s [.pmark H0 (.imm 5)] ∧ 2 ^ (getFunc s 0).trclog.toNat < ((getFunc s 0).trctail - (getFunc s 0).trchead).toNat + 1) :=
  ⟨onceAll_of (by decide +kernel), by decide +kernel, by decide +kernel, onceAll_of (by decide +kernel), by decide +kernel⟩

/-! ## Queue, waits, barriers, phases, engines -/

theorem wit_sfqTakesToken : OnceAll S0 [.sfq H0 .rcp .f32 (.v 255) (.v 0) (.s 127)] ∧ (getGroup S0 0).rat = false ∧
    (opVal (ctxOf S0 U (.sfq H0 .rcp .f32 (.v 255) (.v 0) (.s 127))) 0 (fTy .f32) (.v 0)).isSome = true ∧
    (destReg (ctxOf S0 U (.sfq H0 .rcp .f32 (.v 255) (.v 0) (.s 127))) 0 false (.v 255)).isSome = true :=
  ⟨onceAll_of (by decide +kernel), rfl, by decide +kernel, by decide +kernel⟩
theorem wit_waitWords : OnceAll S0 [.sfw H0 (.imm 127), .sft H0 (.s 0) (.imm 0), .xwaita H0 (.imm 127), .xwaitl H0 (.s 2), .xfind H0 (.s 1) (.imm 1),
      .fenceOpnd H0, .fence H0 .sys, .ldone H0] ∧
    uniVal S0 U (.sfw H0 (.imm 127)) .n32 (.imm 127) = some (2 ^ 32 - 1) ∧ uniVal S0 U (.sft H0 (.s 0) (.imm 0)) .n32 (.imm 0) = some 0 ∧
    uniVal S0 U (.xwaita H0 (.imm 127)) .i64 (.imm 127) = some (2 ^ 64 - 1) ∧ uniVal S0 U (.xwaitl H0 (.s 2)) .i64 (.s 2) = some 0 ∧
    uniVal S0 U (.xfind H0 (.s 1) (.imm 1)) .i64 (.imm 1) = some 1 :=
  ⟨onceAll_of (by decide +kernel), by decide +kernel, by decide +kernel, by decide +kernel, by decide +kernel, by decide +kernel⟩
/-- A barrier object in the last word of the scratchpad, its address in s2.d. -/
def SO : State := withG fun g => { g with sreg := [(2, 0x3FF8), (3, 0xF1000000)] }
theorem wit_barrierWords : OnceAll SO [.bar H0 (.imm 7), .boinit H0 (.s 2) (.imm 63), .boarr H0 (.s 0) (.s 2) (.imm 1), .bowait H0 (.s 2) (.imm 0),
      .botest H0 15 (.s 2) (.imm 127)] ∧
    uniVal SO U (.bar H0 (.imm 7)) .n32 (.imm 7) = some 7 ∧
    uniVal SO U (.boinit H0 (.s 2) (.imm 63)) .n64 (.s 2) = some 0xF100000000003FF8 ∧ uniVal SO U (.boinit H0 (.s 2) (.imm 63)) .n32 (.imm 63) = some 63 ∧
    uniVal SO U (.boarr H0 (.s 0) (.s 2) (.imm 1)) .n32 (.imm 1) = some 1 ∧ uniVal SO U (.bowait H0 (.s 2) (.imm 0)) .n32 (.imm 0) = some 0 ∧
    uniVal SO U (.botest H0 15 (.s 2) (.imm 127)) .n32 (.imm 127) = some (2 ^ 32 - 1) ∧
    objPlace SO 0 (BitVec.ofNat 64 0xF100000000003FF8) = some (0, 0x3FF8) :=
  ⟨onceAll_of (by decide +kernel), by decide +kernel, by decide +kernel, by decide +kernel, by decide +kernel, by decide +kernel, by decide +kernel,
    by decide +kernel⟩
theorem wit_phaseWords : OnceAll S0 [.phrel H0 .core, .phacq H0 .dev, .phsync H0 .sys] ∧ (getGroup S0 0).det = false :=
  ⟨onceAll_of (by decide +kernel), rfl⟩
/-- s2.d = offset 0 of the scratchpad, s4.d = its last 64 bytes, s6.d = 0 in global memory. -/
def SE : State := withG fun g => { g with sreg := [(3, 0xF1000000), (4, 0x3FC0), (5, 0xF1000000)] }
def iCrc : Instr := .xcopyCrc HX 7 (.s 2) (.s 4) (.imm 63) (.imm 63) (.imm 0) true 63
def iChk : Instr := .xcopyChk HX 0 (.s 2) (.s 4) (.imm 0) (.imm 0) (.s 9) false 0
def iCopy : Instr := .xcopy HX 7 (.s 2) (.s 4) (.imm 63) (.imm 63)
theorem wit_commandWords : OnceAll SE [iCopy, iCrc, iChk, .xform HX (.s 2) (.s 4) (.s 6) (.s 2), .xformDec HX (.s 2) (.s 4) (.s 6) (.s 2)] ∧
    uniVal SE U iCopy .n64 (.s 2) = some 0xF100000000000000 ∧ uniVal SE U iCopy .n64 (.s 4) = some 0xF100000000003FC0 ∧
    uniVal SE U iCopy .n32 (.imm 63) = some 63 ∧ uniVal SE U iCrc .n64 (.imm 0) = some 0 ∧ uniVal SE U iChk .n32 (.s 9) = some 0 ∧
    engineCheck SE 0 [(0xF100000000000000, 63), (0xF100000000003FC0, 63)] = none ∧
    engineCheck SE 0 [(0xF100000000000000, 1), (0xF100000000003FC0, 1), (0, 64)] = none ∧
    (objPlace SE 0 (BitVec.ofNat 64 0xF100000000000000)).isSome = true :=
  ⟨onceAll_of (by decide +kernel), by decide +kernel, by decide +kernel, by decide +kernel, by decide +kernel, by decide +kernel, by decide +kernel,
    by decide +kernel, by decide +kernel⟩
/-- s2.d = offset 0 of the scratchpad, s4.d = 62 bytes before its end, s6.d in an unassigned space. -/
def SAf : State := handlerAt 0x1000 { placedGroup with sreg := [(3, 0xF1000000), (4, 0x3FC2), (5, 0xF1000000), (7, 0x02000000)] }
def iCrcBad : Instr := .xcopyCrc HX 7 (.s 2) (.s 2) (.imm 63) (.imm 63) (.s 6) true 63
def iChkBad : Instr := .xcopyChk HX 0 (.s 6) (.s 2) (.imm 0) (.imm 0) (.s 9) false 0
theorem wit_addressFaults : let s := SAf
    let at' := fun (i : Instr) (sp : Spec) => BitVec.ofNat 64 (readUni (ctxOf s U i) .n64 sp)
    let n := fun (i : Instr) (sp : Spec) => readUni (ctxOf s U i) .n32 sp
    OnceAll s [iCopy, iCrcBad, iChkBad, .xform HX (.s 2) (.s 2) (.s 6) (.s 2), .xformDec HX (.s 6) (.s 2) (.s 2) (.s 2), .job H0 (.s 6) (.s 2)] ∧
    (launchOf s 0).handler = some 0x1000 ∧ (ctxOf s U iCopy).active &&& (getGroup s 0).hmask = 0 ∧
    engineCheck s 0 [(at' iCopy (.s 2), n iCopy (.imm 63)), (at' iCopy (.s 4), n iCopy (.imm 63))] = some 0xF100000000004000 ∧
    engineCheck s 0 ([(at' iCrcBad (.s 2), n iCrcBad (.imm 63)), (at' iCrcBad (.s 2), n iCrcBad (.imm 63))] ++
      if at' iCrcBad (.s 6) = 0 then [] else [(at' iCrcBad (.s 6), 4)]) = some 0x0200000000000000 ∧
    engineCheck s 0 [(at' iChkBad (.s 6), n iChkBad (.imm 0)), (at' iChkBad (.s 2), n iChkBad (.imm 0))] = some 0x0200000000000000 ∧
    engineCheck s 0 [(0xF100000000000000, 1), (0xF100000000000000, 1), (0x0200000000000000, 64)] = some 0x0200000000000000 ∧
    (at' (.job H0 (.s 6) (.s 2)) (.s 6)).toNat % 64 = 0 ∧ engineCheck s 0 [(0x0200000000000000, 64)] = some 0x0200000000000000 ∧
    -- the last byte of a window, the first behind it, the last global byte, and a neighbourhood whose team stands
    engineBad s 0 0xF100000000003FFF 1 = none ∧ engineBad s 0 0xF100000000003FFF 2 = some 0xF100000000004000 ∧
    engineBad s 0 0x01FFFFFFFFFFFFFF 1 = none ∧ engineBad s 0 0x01FFFFFFFFFFFFFF (2 ^ 32) = some 0x0200000000000000 ∧
    engineBad s 0 0xF000000000000000 0 = some 0xF000000000000000 ∧
    (let s := withL fun l => { l with nw := 1, nh := 1, nbhd := 1 }
     (∀ i, i < (launchOf s 0).nw * (launchOf s 0).nh → (nbTeam s (getGroup s 0).team i).isSome = true) ∧
       engineBad s 0 0xF200000000000000 1025 = some 0xF200000000000400) ∧
    (0xF100000000000001#64).toNat % 4 ≠ 0 ∧ isWindow 0x0200000000000000 = false ∧ isGlobal 0x0200000000000000 = false ∧
    isWindow 0xF100000000004000 = true ∧ winBytes s 0 0 0 0xF100000000004000 4 = .error 0xF100000000004000 :=
  ⟨onceAll_of (by decide +kernel), rfl, by decide +kernel, by decide +kernel, by decide +kernel, by decide +kernel, by decide +kernel,
    by decide +kernel, by decide +kernel, by decide +kernel, by decide +kernel, by decide +kernel, by decide +kernel, by decide +kernel,
    ⟨by decide +kernel, by decide +kernel⟩, by decide +kernel, by decide +kernel, by decide +kernel, by decide +kernel, by rfl⟩

/-! ## Memory words, tiles, matrix, launches -/

/-- v0.d = offset 0 of the scratchpad in lane 0. -/
def SM : State := withG fun g => { g with vreg := [(1, 0xF1000000)] }
def iLd : Instr := .ld H0 .i8 .core .x1 (.v 255) (.v 0) (.imm 63) 0
def iSt : Instr := .st H0 .f64 .core .x2 (.v 4) (.v 0) (.imm 0) 0
def iLdsc : Instr := .ldsc H0 .n32 .core .x4 (.s 124) (.s 4) (.imm 0) 0
def okPairs (r : List (Req × AccRes)) : List (Req × List Loc) := r.filterMap fun p => match p.2 with | .ok ls => some (p.1, ls) | _ => none
/-- Every request of a word finds its place. -/
def FindsPlaces (s : State) (i : Instr) (kind : AccKind) (n : Nat) (w : Work) (det : DWord → Bool) (qs : List Req) : Prop :=
  ∃ (s' : State) (ps : List (Req × List Loc)), ps ≠ [] ∧ resolveReqs (ctxOf s U i) s kind n w det qs = (s', ps.map fun p => (p.1, .ok p.2))
theorem finds_of {s : State} {i : Instr} {kind : AccKind} {n : Nat} {w : Work} {det : DWord → Bool} {qs : List Req}
    (h : let r := (resolveReqs (ctxOf s U i) s kind n w det qs).2
      (!(okPairs r).isEmpty && decide (r = (okPairs r).map fun (p : Req × List Loc) => (p.1, AccRes.ok p.2))) = true) : FindsPlaces s i kind n w det qs := by
  simp only [Bool.and_eq_true, decide_eq_true_eq, Bool.not_eq_true', List.isEmpty_eq_false_iff] at h
  exact ⟨_, _, h.1, Prod.ext rfl h.2⟩

def iLdk : Instr := .ldk H0 .n32 .x1 (.v 2) (.v 4) (.imm 0) 0
theorem wit_loadStoreWords : OnceAll SM [iLd, iSt, iLdsc, iLdk, .pfx H0 .core (.v 4) (.imm 0) 0] ∧
    (∃ qs, laneReqs (ctxOf SM U iLd) (ldReq (ctxOf SM U iLd) .i8 .x1 (.v 255) (.v 0) (.imm 63) 0) = (qs, []) ∧
      FindsPlaces SM iLd .read 1 (.load .i8 1 false (dstTab qs) .core []) (detPlain .core) qs) ∧
    (∃ qs, laneReqs (ctxOf SM U iSt) (stReq (ctxOf SM U iSt) .f64 .x2 (.v 4) (.v 0) (.imm 0) 0) = (qs, []) ∧
      FindsPlaces SM iSt .write 16 (.store 16 .core [] (wideStores (ctxOf SM U iSt) .f64 .x2 (.v 4) qs)) (detPlain .core) qs) ∧
    FindsPlaces SM iLdsc .read 16 (.load .n32 4 true [(0, 124)] .core []) (detPlain .core) [ldscReq (ctxOf SM U iLdsc) 124 (.s 4) (.imm 0) 0] ∧
    ∃ qs, laneReqs (ctxOf SM U iLdk) (ldReq (ctxOf SM U iLdk) .n32 .x1 (.v 2) (.v 4) (.imm 0) 0) = (qs, []) ∧
      (∀ q, q ∈ qs → isGlobal q.va = true) ∧ FindsPlaces SM iLdk .read 4 (.ldk .n32 1 (dstTab qs) []) (fun _ => false) qs :=
  ⟨onceAll_of (by decide +kernel), ⟨_, rfl, finds_of (by decide +kernel)⟩, ⟨_, rfl, finds_of (by decide +kernel)⟩, finds_of (by decide +kernel),
    ⟨_, rfl, by decide +kernel, finds_of (by decide +kernel)⟩⟩
def iAtom : Instr := .atom H0 .max .i64 .core (.v 254) (.v 0) (.imm 1) 0
def iCas : Instr := .atomCas HX .f32 .core (.v 5) (.v 0) (.imm 1) (.imm 0) 0
def iAtoma : Instr := .atoma H0 .add .n32 .core (.v 6) (.s 4) (.imm 1) 0
def iRed : Instr := .red H0 .xor .n32 .core (.v 0) (.imm 1) 0
theorem wit_atomics : OnceAll SM [iAtom, iCas, iAtoma, iRed] ∧
    (∃ qs, laneReqs (ctxOf SM U iAtom) (atomReq (ctxOf SM U iAtom) .i64 (.v 254) (.v 0) (.imm 1) 0) = (qs, []) ∧
      FindsPlaces SM iAtom .atomic 8 (.atom .max false .i64 (dstTab qs) .core []) (detAtomic .core) qs) ∧
    (∃ qs, laneReqs (ctxOf SM U iCas) (casReq (ctxOf SM U iCas) .f32 (.v 5) (.v 0) (.imm 1) (.imm 0) 0) = (qs, []) ∧
      FindsPlaces SM iCas .atomic 4 (.atom .xch true .f32 (dstTab qs) .core []) (detAtomic .core) qs) ∧
    (∃ q qs, laneReqs (ctxOf SM U iAtoma) (atomReq (ctxOf SM U iAtoma) .n32 (.v 6) (.s 4) (.imm 1) 0) = (q :: qs, []) ∧
      FindsPlaces SM iAtoma .atomic 4 (.atoma .add .n32 (dstTab (q :: qs)) .core [] ((q :: qs).map fun x => (x.lane, x.data))) (detAtomic .core)
        [{ q with lanes := (ctxOf SM U iAtoma).active }]) ∧
    ∃ qs, laneReqs (ctxOf SM U iRed) (redReq (ctxOf SM U iRed) .n32 (.v 0) (.imm 1) 0) = (qs, []) ∧
      FindsPlaces SM iRed .atomic 4 (.red .xor .n32 .core []) (detAtomic .core) qs :=
  ⟨onceAll_of (by decide +kernel), ⟨_, rfl, finds_of (by decide +kernel)⟩, ⟨_, rfl, finds_of (by decide +kernel)⟩, ⟨_, _, rfl, finds_of (by decide +kernel)⟩,
    ⟨_, rfl, finds_of (by decide +kernel)⟩⟩
def iTmap : Instr := .tmap H0 .bf16 3 0 0 15 (.s 4) (.s 6) (.v 0) (.v 0)
def iTmapX : Instr := .tmap HX .t6 7 2 3 0 (.s 4) (.s 6) (.imm 63) (.imm 127)
theorem wit_tileMaps : OnceAll S0 [iTmap, iTmapX, .tmset H0 .base 0 (.imm 127), .tmset H0 .shape 15 (.s 0)] ∧
    uniVal S0 U iTmap .n64 (.s 4) = some 0 ∧ uniVal S0 U iTmap .n32 (.s 6) = some 0 ∧ hdrX H0 = false ∧ hdrX HX = true ∧
    uniVal S0 U iTmapX .n32 (.imm 63) = some 63 ∧ uniVal S0 U iTmapX .i64 (.imm 127) = some (2 ^ 64 - 1) ∧
    uniVal S0 U (.tmset H0 .base 0 (.imm 127)) .i64 (.imm 127) = some (2 ^ 64 - 1) ∧
    uniVal S0 U (.tmset H0 .shape 15 (.s 0)) .n32 (.s 0) = some 0 :=
  ⟨onceAll_of (by decide +kernel), by decide +kernel, by decide +kernel, rfl, rfl, by decide +kernel, by decide +kernel, by decide +kernel, by decide +kernel⟩
theorem wit_accumulatorZero : OnceAll S0 [.accz H0 7] ∧ (7#6).toNat < (launchOf S0 0).accs := ⟨onceAll_of (by decide +kernel), by decide +kernel⟩
/-- t0 maps 16 by 16 elements of FP64 at offset 0 of the scratchpad, t1 the same at offset 2,048, t2 16 by 16 of .i8 at offset 0. -/
def tileAt (a : DWord) : TileReg := ⟨0, 128, 0, 16, 16, 0, 0x09, 0, a⟩
def ST : State := withG fun g => { g with tile := [(0, tileAt 0xF100000000000000), (1, tileAt 0xF100000000000800), (2, ⟨0, 16, 0, 16, 16, 0, 0x06, 0, 0xF100000000000000⟩)] }
theorem wit_accumulatorWords : OnceAll ST [.accwr H0 .f32 7 (.con 32) (.imm 7), .accld H0 0 2 (.imm 0), .accst H0 .sr true 2 7 (.imm 0)] ∧
    (opVal (ctxOf ST U (.accwr H0 .f32 7 (.con 32) (.imm 7))) 0 .f32 (.con 32)).isSome = true ∧
    opVal (ctxOf ST U (.accwr H0 .f32 7 (.con 32) (.imm 7))) 0 .n32 (.imm 7) = some 7 ∧ (7#6).toNat < (launchOf ST 0).accs ∧
    mapOk (tGet (getGroup ST 0) 2) true = true ∧ tileFmt (tGet (getGroup ST 0) 2) = some .i8 ∧
    uniVal ST U (.accld H0 0 2 (.imm 0)) .n32 (.imm 0) = some 0 ∧
    (fetchSome (flushGroup ST 0) 0 0 0 (tagCheck (tGet (getGroup ST 0) 2)) (tileWindow (tGet (getGroup ST 0) 2) .i8 0)).2.2 = [] ∧
    (let b := accstBytes (ctxOf ST U (.accst H0 .sr true 2 7 (.imm 0))) (tGet (getGroup ST 0) 2) .i8 .sr true 7 0
     (writeStops (flushGroup ST 0) 0 0 b).2 = []) :=
  ⟨onceAll_of (by decide +kernel), by decide +kernel, by decide +kernel, by decide +kernel, by decide +kernel, by decide +kernel, by decide +kernel,
    by decide +kernel, by decide +kernel⟩
def iQuad : Instr := .mmaQuad HX true 7 0 1 (.imm 0) 16
theorem wit_matrixWords : OnceAll ST [iQuad, .mmaWide HX true 0 0 1 7 (.imm 0) 1, .mmaSquare HX false 0 0 1 1 (.imm 0) 4096, .mmaTall HX true 0 0 1 0 (.imm 0) 32] ∧
    uniVal ST U iQuad .i64 (.imm 0) = some 0 ∧ (7#6).toNat < (launchOf ST 0).accs ∧
    mmaValid (tGet (getGroup ST 0) 0) (tGet (getGroup ST 0) 1) true 0 16 = true :=
  ⟨onceAll_of (by decide +kernel), by decide +kernel, by decide +kernel, by decide +kernel⟩
def iJob : Instr := .job H0 (.s 4) (.s 2)
def SCd : State := { SO with tlb := [] }
def SJ : State := { SO with mem := [(1, 0x40)], l2 := [] }
theorem wit_declarationsAndJobs : OnceAll SO [.cdecl H0 7 (.imm 127) (.imm 15), iJob] ∧
    uniVal SO U (.cdecl H0 7 (.imm 127) (.imm 15)) .n32 (.imm 127) = some (2 ^ 32 - 1) ∧
    uniVal SO U (.cdecl H0 7 (.imm 127) (.imm 15)) .n32 (.imm 15) = some 15 ∧ (getConv SO 0 0 7).signed = 0 ∧
    uniVal SO U iJob .n64 (.s 4) = some 0 ∧ uniVal SO U iJob .n64 (.s 2) = some 0xF100000000003FF8 ∧ engineBad SO 0 0 64 = none ∧
    (objPlace SO 0 (BitVec.ofNat 64 0xF100000000003FF8)).isSome = true ∧
    (∃ z bs, fetchBytes (flushGroup SO 0) 0 0 0 none (rangeAddrs 0 64) = (z, .ok bs) ∧ cardBits bs 15 14 = 0) ∧
    ∃ z bs, fetchBytes (flushGroup SJ 0) 0 0 0 none (rangeAddrs 0 64) = (z, .ok bs) ∧ cardBits bs 15 14 ≠ 0 :=
  ⟨onceAll_of (by decide +kernel), by decide +kernel, by decide +kernel, by decide +kernel, by decide +kernel, by decide +kernel, by decide +kernel,
    by decide +kernel, ⟨_, _, rfl, by decide +kernel⟩, ⟨_, _, rfl, by decide +kernel⟩⟩
theorem error_of {r : State × Except Stop (List Byte)} (h : (match r.2 with | .error _ => true | .ok _ => false) = true) :
    ∃ z e, r = (z, .error e) := by
  obtain ⟨z, _ | e⟩ := r
  · exact ⟨_, _, rfl⟩
  · simp at h
/-- A card on a page that nothing maps. -/
theorem wit_declarationsAndJobs_waits : OnceAll SCd [iJob] ∧ (teamOf SCd 0).frozen = false ∧
    ∃ z e, fetchBytes (flushGroup SCd 0) 0 0 0 none (rangeAddrs 0 64) = (z, .error e) :=
  ⟨onceAll_of (by decide +kernel), by decide +kernel, error_of (by decide +kernel)⟩
theorem wit_launchWords : OnceAll S0 [.launch H0 (.v 254), .graphrun H0 (.imm 0) (.imm 127)] ∧ (launchOf S0 0).depth < 10 ∧
    opVal (ctxOf S0 U (.launch H0 (.v 254))) 0 .n64 (.v 254) = some 0 ∧ isGlobal (BitVec.ofNat 64 0) = true ∧
    uniVal S0 U (.graphrun H0 (.imm 0) (.imm 127)) .n32 (.imm 0) = some 0 ∧ uniVal S0 U (.graphrun H0 (.imm 0) (.imm 127)) .n32 (.imm 127) = some (2 ^ 32 - 1) ∧
    (getGraph S0 0).gown = (launchOf S0 0).func ∧ (getTeam { S0 with uid := 1 } (getGroup { S0 with uid := 1 } 0).team).launch ≠ ({ S0 with uid := 1 } : State).uid :=
  ⟨onceAll_of (by decide +kernel), by decide +kernel, by decide +kernel, by decide +kernel, by decide +kernel, by decide +kernel, by decide +kernel,
    by decide +kernel⟩

/-! ## Witnesses for the statements on events -/

/-- Lane 0's group with outstanding items. -/
def withOuts (os : List Out) : State := withG fun g => { g with outs := os, nextSeq := 9 }
def oRes : Out := ⟨0, 0, 8, 1, .result [(.v 0 255, 7), (.p 0 15, 1), (.s 127, 3)] [], [.v 0 255, .p 0 15]⟩
def oSfq : Out := ⟨1, 0, 8, 1, .sfq .rcp .f32 0 [(.v 0 0, 7)] [], [.v 0 0]⟩
def accS : LaneAcc := ⟨0, 0xF100000000000000, some ((List.range 4).map fun j => .scr 0 (16380 + j)), 5, 0⟩
def oSt : Out := ⟨0, 0, 8, 1, .store 4 .core [accS] [], []⟩
def oLd : Out := ⟨1, 0, 8, 1, .load .n32 1 false [(0, 255)] .core [accS], [.v 0 255]⟩
def oAt : Out := ⟨2, 0, 8, 1, .atom .add false .n32 [(0, 0)] .core [accS], [.v 0 0]⟩
theorem wit_itemCompletions : findOut (withOuts [oRes, oSfq]) 0 0 = some oRes ∧ findOut (withOuts [oRes, oSfq]) 0 1 = some oSfq ∧
    (∀ l n w, (Tgt.v l n, w) ∈ [(Tgt.v 0 255, 7#32), (.p 0 15, 1), (.s 127, 3)] → n < 256) ∧
    (∀ l n w, (Tgt.p l n, w) ∈ [(Tgt.v 0 255, 7#32), (.p 0 15, 1), (.s 127, 3)] → n < 16) ∧
    (tabFind S0.teams 0).isSome = true ∧ (withOuts [oSt]).objOps = [] ∧
    (findOut (withOuts [oSt]) 0 0 = some oSt ∧ mayPerform (getGroup (withOuts [oSt]) 0) oSt = true) ∧
    (findOut (withOuts [oLd]) 0 1 = some oLd ∧ mayPerform (getGroup (withOuts [oLd]) 0) oLd = true ∧ 4 = tyBytes .n32 ∧ Tgt.v 0 255 ∈ oLd.live ∧ (0, oLd.seq, 0) ∉ (withOuts [oLd]).struck) ∧
    (findOut (withOuts [oAt]) 0 2 = some oAt ∧ mayPerform (getGroup (withOuts [oAt]) 0) oAt = true ∧ Tgt.v 0 0 ∈ oAt.live) := by
  refine ⟨by decide +kernel, by decide +kernel, ?_, ?_, rfl, rfl, ⟨by decide +kernel, by decide +kernel⟩, ⟨by decide +kernel, by decide +kernel, rfl, by decide, by decide⟩,
    by decide +kernel, by decide +kernel, by decide⟩ <;> (intro l n w h; simp at h; omega)

/-- Two groups of one slice: group 0 active and waiting at a marker, group 1 pending, with a word to issue. -/
def SG : State := { S0 with
  groups := [(0, { placedGroup with mark := true, outs := [oRes] }), (1, { placedGroup with gidx := 1, slot := some 1, sstate := .pending, live := 1 })]
  now := 5000 }
theorem wit_swaps_groups : entering SG 0 = some 1 ∧ leaving SG 0 = some 0 ∧ 0 ∈ sliceGroups SG 0 ∧ isActiveG SG 0 = true ∧
    longest SG ((sliceGroups SG 0).filter fun g => isPendingG SG g && ready SG g && decide (4096 ≤ SG.now - (getGroup SG g).lastIssue)) = some 1 ∧
    (let s : State := { SG with groups := SG.groups.drop 1 }
     (∀ g, g ∈ sliceGroups s 0 → isActiveG s g = false) ∧
       longest s ((sliceGroups s 0).filter fun g => isPendingG s g && ready s g && decide (4096 ≤ s.now - (getGroup s g).lastIssue)) = some 1) := by
  decide +kernel
def SL : State := withT fun t => { t with leaving := true }
/-- Team 0 in the shadow bank of core 0, its swap over; a spill area of 1 MiB at 0, which function 0 maps. -/
def SP : State := { withT (fun t => { t with place := .shadow }) with
  cores := [(0, { getCore S0 0 with shadow := [0], swapAt := some 0, swapBack := (1, 256, 64, 16) })]
  groups := [(0, { placedGroup with slot := none, sstate := .pending })] }
def SQ : State := { SP with cores := [(0, { getCore S0 0 with shadow := [0] })]
                            launches := [(0, { placedLaunch with vregs := 8, sregs := 8, accs := 0, scr := 0 })] }
def SR : State := { SQ with funcs := [(0, { getFunc S0 0 with spilllen := 2 ^ 20 })]
                            tlb := [⟨true, 0, 0, 30, 0, 0, 0, true, true, true, none⟩] }
/-- The same with a release that is over. -/
def freesOver (s : State) : State := { s with teams := s.teams.map fun e => (e.1, { e.2 with frees := some [] }) }
theorem wit_swaps_banks : swapSet SL 192 [0] = ([0], [0]) ∧ (getCore SL 0).shadow = [] ∧ (getCore SL 0).swapAt = none ∧
    (getCore SP 0).swapAt = some 0 ∧ (getCore SP 0).shadow = [0] ∧ (getCore SP 0).dark = false ∧
    (let n := needOf (getLaunch SP (getTeam SP 0).launch) ((getTeam SP 0).cores.idxOf 0)
     (getCore SP 0).swapBack = (n.slots, n.vregs, n.accs, n.scr)) ∧
    (getCore SR 0).swapAt = none ∧ spillWaits SR 0 = false ∧ (getCore SR 0).shadow = [0] ∧ (∀ c, c ∈ (getTeam SR 0).cores → (getCore SR c).swapAt = none) ∧
    (getTeam SR 0).frees = none ∧
    (let s := freesOver SR
     (getCore s 0).swapAt = none ∧ (getCore s 0).shadow = [0] ∧ spillWaits s 0 = false ∧ (getTeam s 0).cores = [0] ∧ (getTeam s 0).frees = some [] ∧
       relsOver s [] = true ∧ spillPlace s 0 (((teamImage s 0).length + 4095) / 4096 * 4096) = some 0 ∧ ((teamImage s 0).length + 4095) / 4096 = 1 ∧
       (s2Place s 0 true (spillBase s 0)).isSome = true) ∧
    (let s := freesOver SQ
     (getCore s 0).swapAt = none ∧ (getCore s 0).shadow = [0] ∧ spillWaits s 0 = false ∧ (getTeam s 0).frees = some [] ∧
       spillPlace s 0 (((teamImage s 0).length + 4095) / 4096 * 4096) = none ∧
       tabFind s.launches 0 = some (getLaunch s 0) ∧ (getLaunch s 0).stage ≠ .retired ∧ (getLaunch s 0).fate = 0) :=
  by and_intros <;> decide +kernel
/-- Queue 1023 of function 0 with a checked head packet. -/
def withHead (h : BitVec 512) : State := { S0 with
  queues := [(1023, { queueReset with en := true, qtail := 1, checked := true, head := some h })]
  xings := [(4095, { xingReset with en := true, tokens := 5 })] }
theorem wit_registerBlocks : running S0 = true ∧ 0 ≤ S0.pcie.numVfs ∧ (getQueue S0 1023).owner = 0 ∧ (1023 : Nat) < 1024 ∧
    ((16#32 - (getQueue S0 1023).qhead).toNat ≤ 2 ^ (getQueue S0 1023).qsize) ∧ (2 ^ (getQueue S0 1023).qsize < (17#32 - (getQueue S0 1023).qhead).toNat) ∧
    (16#32).getLsbD 4 = true ∧ (getQueue S0 1023).en = false ∧ (getQueue (withHead 0) 1023).en = true ∧ (getQueue (withHead 0) 1023).owner = 0 ∧
    (getXing S0 4095).owner = 0 ∧ (getXing S0 4095).en = false ∧ (0x80000000#32).getLsbD 31 = true ∧
    (let s := RS
     deviceIdle s = true ∧ ((8#32).extractLsb' 0 4).toNat ≤ 8 ∧ ((8#32).extractLsb' 0 4).toNat ≠ s.supply.plzSize ∧ running s = true ∧
     ((0x1000FF#32).extractLsb' 0 12).toNat ≤ 255 ∧ ((0x1000FF#32).extractLsb' 12 12).toNat ≤ 256) ∧
    deviceIdle S0 = false ∧ running { S0 with anchor := { S0.anchor with state := 5 } } = false ∧
    running State.reset = false := by decide +kernel
/-- Heads of each packet type: CROSSING 4,095 with COUNT 5, GRAPH 0, addresses on the first page. -/
def packetOf (ty : Nat) : BitVec 512 := BitVec.ofNat 512 (ty + (if ty = 4 ∨ ty = 5 then 0 else if ty = 6 then 2 ^ 32 else 4095 * 2 ^ 32 + 5 * 2 ^ 48) +
  128 * 2 ^ 64 + (if ty = 5 then 2 ^ 128 else 0))
def SK (ty : Nat) : State := { withHead (packetOf ty) with graphs := [(0, { graphReset with glen := 1 })] }
theorem wit_packetsStart : (∀ ty, ty ∈ [0, 1, 2, 3, 4, 5, 6] → headReady (SK ty) 1023 = some (packetOf ty) ∧ startChoice (SK ty) = some (.queue 1023) ∧
      pktType (packetOf ty) = ty) ∧
    frontRange (SK 1) 0 0 .read 128 128 = true ∧ pktCount (packetOf 3) ≤ (getXing (SK 3) (pktXing (packetOf 3))).tokens.toNat ∧
    (let s : State := { SK 3 with queues := [(1023, { getQueue (SK 3) 1023 with waiting := true })] }
     headReady s 1023 = some (packetOf 3) ∧ startChoice s = some (.queue 1023) ∧ (getQueue s 1023).waiting = true) ∧
    (let s : State := { SK 3 with xings := [] }
     headReady s 1023 = some (packetOf 3) ∧ (getXing s (pktXing (packetOf 3))).tokens.toNat < pktCount (packetOf 3) ∧ (getQueue s 1023).waiting = false) ∧
    (frontPlace (SK 6) 0 0 .write 128).isSome = true ∧ (frontRead (SK 5) 0 0 128 64).isSome = true ∧
    imageErr 0 1 1 [0] = 0 ∧ imageErr 0 1 1 [0xFF] ≠ 0 := by decide +kernel
/-- A record at 128 whose descriptor, at 256, has VREGS 8; one team of one thread, completion record at 512. -/
def recordNat : Nat := 256 + 512 * 2 ^ 128 + 2 ^ 384 + 2 ^ 416 + 2 ^ 448 + 2 ^ 480 + 2 ^ 496 + 2 ^ 512
def SA (desc : Nat) : State := { S0 with
  launches := [(1, { launchReset with recAddr := 128 })]
  mem := memWriteList (memWriteList [] 128 (leBytes 128 recordNat)) 256 (leBytes 64 desc) }
def recBytesA : List Byte := leBytes 128 recordNat
def l1A (s : State) : Launch := { withRecord (getLaunch s 1) (leNat recBytesA) with tstart := Config.clockAt s.fresh, stage := .accepted }
def checked (s : State) : Launch × Nat := checkLaunch (setLaunch { s with fresh := s.fresh + 1 } 1 (l1A s)) (l1A s)
theorem checked_of {s : State} {n : Nat} (h : (checked s).2 = n) : ∃ l2, checked s = (l2, n) := ⟨(checked s).1, by rw [← h]⟩
theorem wit_gridLife_accept : startChoice (SA (8 * 2 ^ 128)) = some (.launch 1) ∧ (∀ p tm th, (getLaunch (SA (8 * 2 ^ 128)) 1).origin ≠ .thread p tm th) ∧
    (getLaunch (SA (8 * 2 ^ 128)) 1).recAddr.toNat % 128 = 0 ∧ (getLaunch (SA (8 * 2 ^ 128)) 1).fate = 0 ∧
    frontRead (SA (8 * 2 ^ 128)) 0 0 128 128 = some recBytesA ∧ (l1A (SA (8 * 2 ^ 128))).done.toNat % 64 = 0 ∧
    (frontPlace (setLaunch { SA (8 * 2 ^ 128) with fresh := 1 } 1 (l1A (SA (8 * 2 ^ 128)))) 0 0 .write 512).isSome = true ∧
    (∃ l2, checked (SA (8 * 2 ^ 128)) = (l2, 0)) ∧
    (SA (8 * 2 ^ 128)).obs.rplctl.getLsbD 31 = false ∧ (getLaunch (SA (8 * 2 ^ 128)) 1).pri < 7 ∧
    (∃ l2, checked (SA 0) = (l2, 2)) ∧
    -- a record of no teams (R13)
    (let s : State := { SA (8 * 2 ^ 128) with mem := memWriteList (SA (8 * 2 ^ 128)).mem 128 (leBytes 128 (recordNat - 2 ^ 384)) }
     let bs := leBytes 128 (recordNat - 2 ^ 384)
     let l1 : Launch := { withRecord (getLaunch s 1) (leNat bs) with tstart := Config.clockAt s.fresh, stage := .accepted }
     startChoice s = some (.launch 1) ∧ frontRead s 0 0 128 128 = some bs ∧ l1.gx * l1.gy * l1.gz = 0 ∧ l1.done.toNat % 64 = 0 ∧
     (checkLaunch (setLaunch { s with fresh := s.fresh + 1 } 1 l1) l1).2 = 0 ∧ s.obs.rlaunch ≠ some 1 ∧ (getLaunch s 1).frozen = none ∧
     (getLaunch s 1).childLive = 0 ∧ (getLaunch s 1).closing = false ∧ recWaits s 1 = false ∧ (s.teams.all fun e => e.2.launch != 1) = true) :=
  ⟨by decide +kernel, fun p tm th => by rw [show (getLaunch (SA (8 * 2 ^ 128)) 1).origin = .packet 0 0 0 0 from rfl]; simp, by decide +kernel, by decide +kernel, by decide +kernel, by decide +kernel, by decide +kernel,
    checked_of (by decide +kernel), by decide +kernel, by decide +kernel, checked_of (by decide +kernel), by decide +kernel⟩
/-- A grid with nothing left, from queue 1023. -/
def SD : State := { RS with
  launches := [(7, { placedLaunch with origin := .packet 1023 3 4095 2 })]
  queues := [(1023, { queueReset with open' := [3] })]
  tlb := placedLeaves }
theorem wit_gridLife_retire : (tabFind SD.launches 7).isSome = true ∧ gridDone SD 7 = true ∧ (getLaunch SD 7).closing = false ∧ (getLaunch SD 7).closing = false ∧ SD.obs.rlaunch ≠ some 7 ∧
    (getLaunch SD 7).origin = .packet 1023 3 4095 2 ∧ (getLaunch SD 7).done.toNat % 64 = 0 ∧
    (frontPlace { SD with fresh := SD.fresh + 1 } 0 0 .write 0).isSome = true := by decide +kernel
/-- A grid of one team of 33 threads to place; a team whose thread has exited. -/
def SU : State := { RS with uid := 1, launches := [(0, { placedLaunch with vregs := 8, sregs := 8, accs := 0, scr := 0, tx := 33, unplaced := [(0, 1)], considered := true })] }
def SX : State := withG fun g => { g with exited := 1, sstate := .spent }
def SDk : State := { S0 with supply := { S0.supply with regions := [(191, { getRegion S0 191 with gate := true })] } }
theorem wit_gridLife_place : SU.gang = none ∧ starving SU (unitList SU) = [] ∧ starving SU (unitList SU) = [] ∧ unitList SU = [.fresh 0 0] ∧ (getLaunch SU 0).considered = true ∧
    (unitCores SU (.fresh 0 0)).isSome = true ∧ isNbhd (getLaunch SU 0) = false ∧
    (tabFind SX.teams 0).isSome = true ∧ teamEnded SX 0 = true ∧ teamBusy SX 0 = false ∧ (getTeam SX 0).place = .resident ∧ (getTeam SX 0).cores = [0] ∧ (getCore SX 0).dark = false ∧ (getTeam SX 0).frees = none ∧
    (getTeam (freesOver SX) 0).frees = some [] ∧ relsOver (freesOver SX) [] = true ∧
    regionDark SDk 191 = true ∧ (getCore SDk 191).dark = false := by decide +kernel
/-- Graph 0: node 0 of a type sends to node 1 by list A, and to node 2 by list B. -/
def node0 (ty : Nat) : BitVec 512 := BitVec.ofNat 512 (ty + 2 ^ 16 + (if ty = 0x10 then 2 ^ 20 else 0) + (if ty = 0x11 then 3 * 2 ^ 32 else 0) + 2 ^ 64 + 2 * 2 ^ 80)
def SN (ty : Nat) : State := { S0 with
  store := [(0, node0 ty), (1, 0x100#512), (2, 0x100#512)]
  graphs := [(0, { graphReset with glen := 3, nodes := 3, err := 0, run := some ⟨3, none⟩, prog := [(0, { nodeReset with ready := true })] })] }
theorem wit_graphSteps : running S0 = true ∧ (getGraph S0 1023).run = none ∧ (getGraph S0 1023).pend = [] ∧
    ((65536#64).extractLsb' 0 17).toNat ≤ 65536 ∧
    (let s : State := { S0 with graphs := [(0, { graphReset with pend := [⟨0, none⟩] })] }
     (getGraph s 0).run = none ∧ (getFunc s 0).freezing = false ∧ (getGraph s 0).err ≠ 0) ∧
    (let s : State := { SN 0 with graphs := [(0, { getGraph (SN 0) 0 with run := none, prog := [], pend := [⟨7, none⟩] })] }
     (getGraph s 0).err = 0 ∧ (getFunc s 0).freezing = false ∧ nodePred (nodeAt s 0 0) = 0 ∧ 0 < (getGraph s 0).nodes) := by decide +kernel
theorem ready_of {s : State} {g n ty : Nat} (h : ((getGraph s g).run.isSome && !(getGraph s g).abandoned && decide (n < (getGraph s g).nodes) &&
    (getNode (getGraph s g) n).ready && (decide ((getNode (getGraph s g) n).fwd = 0) || (getNode (getGraph s g) n).ran) && decide (nodeType (nodeAt s g n) = ty)) = true) : ReadyNode s g n ty := by
  simp only [Bool.and_eq_true, Bool.or_eq_true, Bool.not_eq_true', decide_eq_true_eq] at h
  obtain ⟨⟨⟨⟨⟨h1, h2⟩, h3⟩, h4⟩, h5⟩, h6⟩ := h
  exact ⟨h1, h2, h3, h4, h5, h6⟩
theorem edge_of {s : State} {g n i m : Nat} (h : (decide (nodeSucc (nodeAt s g n) i = m) && !nodeBack (nodeAt s g n) i && decide (m ≠ n) &&
    decide (nodePred (nodeAt s g m) = 1) && decide ((getNode (getGraph s g) m).fwd = 0) && !(getNode (getGraph s g) m).ran) = true) : EdgeTo s g n i m := by
  simp only [Bool.and_eq_true, Bool.not_eq_true', decide_eq_true_eq] at h
  obtain ⟨⟨⟨⟨⟨h1, h2⟩, h3⟩, h4⟩, h5⟩, h6⟩ := h
  exact ⟨h1, h2, h3, h4, h5, h6⟩
def firedAt (s : State) : State := setGraph s 0 (setNode (getGraph s 0) 0 (nodeFired (getNode (getGraph s 0) 0)))
theorem wit_graphSteps_nodes :
    (ReadyNode (SN 0) 0 0 0x00 ∧ nodeNA (nodeAt (SN 0) 0 0) = 1 ∧ EdgeTo (SN 0) 0 0 0 1) ∧
    (ReadyNode (SN 6) 0 0 0x06 ∧ nodeNA (nodeAt (SN 6) 0 0) = 1 ∧ EdgeTo (SN 6) 0 0 0 1 ∧
      (nodePlace (firedAt (SN 6)) 0 .write
        (nodeAddr (nodeAt (SN 6) 0 0))).isSome = true) ∧
    (ReadyNode (SN 16) 0 0 0x10 ∧ nodeNA (nodeAt (SN 16) 0 0) = 1 ∧ nodeNB (nodeAt (SN 16) 0 0) = 1 ∧ EdgeTo (SN 16) 0 0 0 1 ∧ EdgeTo (SN 16) 0 0 1 2 ∧
      (nodePlace (firedAt (SN 16)) 0 .read
        (nodeAddr (nodeAt (SN 16) 0 0))).isSome = true) ∧
    (ReadyNode (SN 17) 0 0 0x11 ∧ nodeNA (nodeAt (SN 17) 0 0) = 1 ∧ EdgeTo (SN 17) 0 0 0 1 ∧ nodeCount (nodeAt (SN 17) 0 0) = 3 ∧
      (nodePlace (firedAt (SN 17)) 0 .read (nodeAddr (nodeAt (SN 17) 0 0))).isSome = true) ∧
    (ReadyNode (SN 1) 0 0 0x01 ∧ (getGraph (SN 1) 0).run = some ⟨3, none⟩) :=
  ⟨⟨ready_of (by decide +kernel), by decide +kernel, edge_of (by decide +kernel)⟩,
    ⟨ready_of (by decide +kernel), by decide +kernel, edge_of (by decide +kernel), by decide +kernel⟩,
    ⟨ready_of (by decide +kernel), by decide +kernel, by decide +kernel, edge_of (by decide +kernel), edge_of (by decide +kernel), by decide +kernel⟩,
    ⟨ready_of (by decide +kernel), by decide +kernel, edge_of (by decide +kernel), by decide +kernel, by decide +kernel⟩,
    ⟨ready_of (by decide +kernel), by decide +kernel⟩⟩
/-- A LOOP node that a back arrival has reached, before and after its third pass; a node of a type whose one arrival was a skip. -/
def loopNode : BitVec 512 := BitVec.ofNat 512 (0x11 + 2 ^ 16 + 2 ^ 20 + 3 * 2 ^ 32 + 2 ^ 64 + 2 * 2 ^ 80)
def SLp (iter : Nat) : State := { SN 0 with
  store := [(0, loopNode), (1, 0x100#512), (2, 0x100#512)]
  graphs := [(0, { getGraph (SN 0) 0 with prog := [(0, { nodeReset with back := 1, iter := iter })] })] }
def SSk (ty : Nat) : State := { SN 0 with
  store := [(0, BitVec.ofNat 512 (ty + 2 ^ 16 + 2 ^ 64)), (1, 0x100#512)]
  graphs := [(0, { getGraph (SN 0) 0 with prog := [(0, { nodeReset with fwd := 1, ready := true })] })] }
theorem wit_graphSteps_more :
    (∀ k, k ∈ [2, 3] → let x := getGraph (SLp k) 0
      x.run.isSome = true ∧ x.abandoned = false ∧ 0 < x.nodes ∧ nodeType (nodeAt (SLp k) 0 0) = 0x11 ∧ (getNode x 0).ready = false ∧
        0 < (getNode x 0).back ∧ nodeNA (nodeAt (SLp k) 0 0) = 1 ∧ nodeNB (nodeAt (SLp k) 0 0) = 1 ∧ nodeCount (nodeAt (SLp k) 0 0) = 3 ∧
        (getNode x 0).iter = k) ∧
    (∀ ty, ty ∈ [0x00, 0x01, 0x06, 0x10, 0x11] → let x := getGraph (SSk ty) 0
      x.run.isSome = true ∧ x.abandoned = false ∧ 0 < x.nodes ∧ nodeType (nodeAt (SSk ty) 0 0) = ty ∧ (getNode x 0).ready = true ∧
        0 < (getNode x 0).fwd ∧ (getNode x 0).ran = false ∧ nodeNA (nodeAt (SSk ty) 0 0) + nodeNB (nodeAt (SSk ty) 0 0) = 1) := by decide +kernel
theorem wit_graphSteps_edges : EdgeTo (SLp 2) 0 0 0 1 ∧ EdgeTo (SLp 3) 0 0 1 2 ∧ EdgeTo (SSk 0) 0 0 0 1 :=
  ⟨edge_of (by decide +kernel), edge_of (by decide +kernel), edge_of (by decide +kernel)⟩
/-- Region `r` in a given condition. -/
def withR (r : Nat) (f : Region → Region) : State := { S0 with supply := { S0.supply with regions := [(r, f (getRegion S0 r))] } }
theorem wit_tollSteps : (5 * 200000 ≤ 1000000 * S0.supply.capw) ∧ (1000000 * S0.supply.capw < 2400001 * 1000 ∧ S0.supply.high ≠ 7) ∧
    (({ S0.supply with high := 7 } : Supply).high = 7 ∧ ({ S0.supply with high := 7 } : Supply).tripped = false) ∧ running S0 = true ∧
    (0x00000FFF#32).extractLsb' 30 2 = 0 ∧ (0x40000800#32).extractLsb' 30 2 = 1 ∧ (0x80000000#32).extractLsb' 30 2 = 2 := by decide +kernel
theorem wit_powerSteps : (299 < 300 ∨ 1000 < 299) ∧ 3 ∉ (getRegion S0 383).lostSensors ∧
    (getRegion S0 383).phok.getLsbD 3 = true ∧ (getRegion S0 383).failed = false ∧ fatalFull S0 0 = false ∧
    (getRegion S0 191).gate = false ∧ (let s := withR 383 fun x => { x with gate := true }; (getRegion s 383).gate = true) ∧
    (let s := withR 383 fun x => { x with gated := true }
     (getRegion s 383).failed = false ∧ (getRegion s 383).gated = true ∧ (getRegion s 383).waking = false) ∧
    (let s := withR 191 fun x => { x with waking := true, stage := 6 }; (getRegion s 191).waking = true ∧ (getRegion s 191).stage < 7) ∧
    (let s := withR 191 fun x => { x with waking := true, stage := 7 }; (getRegion s 191).waking = true ∧ 7 ≤ (getRegion s 191).stage) := by decide +kernel
/-- Whether a segment covers an inrush rests on ratings that the spec does not give; they are taken as covering it here. -/
theorem wit_powerSteps_grant (h : segmentPeak (withR 0 fun x => { x with want := true, gated := true }) 0 + Config.regionInrush 0 ≤ Config.segmentRating 0) :
    ∃ s, ((List.range 384).find? fun q => segmentOf q == 0 && (getRegion s q).want) = some 0 ∧
      segmentPeak s 0 + Config.regionInrush 0 ≤ Config.segmentRating 0 := ⟨_, by decide +kernel, h⟩

/-- Slot 63 of function 63 waits for a page of a load of group 0. -/
def slotEl : Elem := ⟨0, 1, .read, 0x5000, 63, 0, 0, false, 5, some 63, false, false, 4, [], .item oLd⟩
def SS : State := { handlerAt 0x1000 placedGroup with pcie := { S0.pcie with numVfs := 63 }, slots := [(64 * 63 + 63, ⟨true, 7, false, .read, 0, 0, 1, 0x5000⟩)], elems := [slotEl] }
theorem wit_translationSteps : running SS = true ∧ (getSlot SS 63 63).stage = false ∧ ((0x1073F#32).extractLsb' 0 6).toNat = 63 ∧
    (getSlot SS 63 63).valid = true ∧ (getSlot SS 63 63).seq = (0x1073F#32).extractLsb' 8 8 ∧ (0x1073F#32).getLsbD 16 = true ∧
    ((0xFC1073F#32).extractLsb' 22 6).toNat = 63 ∧ (getSlot SS 63 0).valid = false ∧
    SS.elems = [slotEl] ∧ slotEl.func = 63 ∧ slotEl.slot = some 63 ∧ slotEl.act = .item oLd ∧ slotEl.lanes ≠ 0 ∧ (launchOf SS 0).handler = some 0x1000 ∧
    slotEl.lanes &&& (getGroup SS 0).hmask = 0 ∧ (getGroup SS 0).slot.isSome = true ∧ 63 ≤ SS.pcie.numVfs ∧ (getFunc SS (launchOf SS 0).func).holdtr = false ∧
    (0x80000000#32).getLsbD 31 = true ∧ (getFunc S0 63).tbusy = false ∧ ((0x80000000#32).extractLsb' 20 2).toNat = 0 ∧
    ((0x801FFFFF#32).extractLsb' 20 2).toNat = 1 ∧ ((0x80200000#32).extractLsb' 20 2).toNat = 2 ∧ ((0x80300000#32).extractLsb' 20 2).toNat = 3 ∧
    (let s : State := { S0 with funcs := [(5, { getFunc S0 5 with tbusy := true, tdrain := [(0, 3)] })] }
     (getFunc s 5).tbusy = true ∧ (∀ d, d ∈ (getFunc s 5).tdrain → findOut s d.1 d.2 = none) ∧ s.elems = []) ∧
    (let s : State := { S0 with funcs := [(0, { getFunc S0 0 with ats := true })] }; (getFunc s 0).ats = true ∧ s.elems = []) ∧
    (getGroup SS 0).due = [] ∧ (let s : State := { SS with slots := [(64 * 63 + 63, ⟨true, 7, true, .read, 0, 0, 1, 0x5000⟩)] }
     (getSlot s 63 63).stage = true) := by decide +kernel
/-- The same slot with one element, which walks again at a reply without FAIL. -/
def SRe (e : Elem) (n : Nat) : State := { SS with
  mem := [(0, 2)], elems := [e], funcs := [(0, { getFunc S0 0 with ptab := 1 })]
  slots := [(64 * 63 + 63, ⟨true, 7, false, .read, 0, 0, 1, 0x1000⟩)]
  faults := if n = 0 then [] else [((63, 0, 0x1000, false), n)] }
/-- The state in which it walks. -/
def walksIn (e : Elem) (n : Nat) : State := { setSlot (SRe e n) 63 63 ⟨false, 7, false, .read, 0, 0, 0, 0x1000⟩ with elems := [] }
def elFetch : Elem := { slotEl with va := 0, page := 0, kind := .fetch, bytes := 8, act := .refetch 0 }
def elStore : Elem := { slotEl with va := 0xF100000000000000, kind := .write, act := .item ⟨0, 0, 8, 1, .store 4 .core [⟨0, 0xF100000000000000, none, 5, 0⟩] [], []⟩ }
def elAgain : Elem := { slotEl with va := 0x1000, page := 0x1000 }
theorem walks_of {e : Elem} {n : Nat} {r : AccRes} (h : (elemPlace (walksIn e n) e).2 = r) : ∃ y, elemPlace (walksIn e n) e = (y, r) := ⟨_, Prod.ext rfl h⟩
theorem wit_translationSteps_again : (0x73F#32).getLsbD 16 = false ∧ (0x73F#32).extractLsb' 8 8 = 7 ∧
    (∃ y ls, elemPlace (walksIn elFetch 0) elFetch = (y, .ok ls)) ∧
    (∃ y, elemPlace (walksIn elStore 0) elStore = (y, .ok ((List.range 4).map fun q => Loc.scr 0 (0 + q))) ∧
      mayReplay y 0 ⟨0, 0, 8, 1, .store 4 .core [⟨0, 0xF100000000000000, some ((List.range 4).map fun q => Loc.scr 0 (0 + q)), 5, 0⟩] [], []⟩ = true) ∧
    (tabFind (SRe elStore 0).teams 0).isSome = true ∧ elStore.post = [] ∧
    (∀ n, n ∈ [14, 15] → (getSlot (SRe elAgain n) 63 63).addr = elAgain.page ∧ (getSlot (SRe elAgain n) 63 63).stage = elAgain.stage ∧
      faultCount (SRe elAgain n) (faultKey elAgain) = n ∧ ∃ y, elemPlace (walksIn elAgain n) elAgain = (y, .wait false 0x1000)) := by
  refine ⟨by decide, by decide, ⟨_, _, (walks_of (by rfl)).choose_spec⟩, ⟨_, Prod.ext rfl (by decide +kernel), by decide +kernel⟩, by decide +kernel, rfl, ?_⟩
  intro n hn
  simp only [List.mem_cons, List.not_mem_nil, or_false] at hn
  rcases hn with rfl | rfl <;> exact ⟨by decide +kernel, by decide +kernel, by decide +kernel, walks_of (by decide +kernel)⟩
/-- An element that has asked the host for page 5 of its function. -/
def elAsk : Elem := { slotEl with func := 0, page := 5, slot := none, pri := true, act := .item { oLd with work := .load .n32 1 false [(0, 255)] .core [⟨0, 0x5000, none, 0, 0⟩] } }
theorem wit_translationSteps_ask : let s : State := { S0 with elems := [elAsk], funcs := [(0, { getFunc S0 0 with ats := true, pri := true })] }
    s.elems = [elAsk] ∧ elAsk.pri = true ∧ elAsk.func = 0 ∧ elAsk.page = 5 ∧ hasPlace elAsk = false ∧ (getFunc s 0).ats = true ∧
      (getFunc s 0).pri = true ∧ (0, 5) ∉ s.pcie.prms ∧ HostStatus.unsupported ≠ .success := by decide +kernel
/-- An instruction in a page whose descriptor is of TYPE 0: the tables of PASID 0 stand at 0, and each entry 0 names them again. -/
def SF : State := { withG (fun g => { g with pc := [(0, 0x1000)] }) with mem := [(0, 2)], funcs := [(0, { getFunc S0 0 with ptab := 1 })] }
theorem wit_translationSteps_fetch : SF.elems = [] ∧ issueSet (getGroup SF 0) = some (0x1000, 1) ∧ (1#32).getLsbD 0 = true ∧ mayRun SF 0 = true ∧
    ∃ z page, fetchInstr SF 0 0x1000 = (z, .fails (.wait false page) 0x1000) :=
  ⟨rfl, by decide +kernel, by decide, by decide +kernel, (fetchInstr SF 0 0x1000).1, 0x1000, Prod.ext rfl (by decide +kernel)⟩
def oHost : Out := ⟨4, 16, 24, 1, .load .n32 1 false [(0, 9)] .core [⟨0, 0x40, some ((List.range 4).map fun j => .glob (2 ^ 54 + j) 2), 0, 0⟩], [.v 0 9]⟩
def withPort1 : State := { S0 with anchor := { S0.anchor with state := 4 }, pcie := { S0.pcie with ports := [(1, pcieReset)] } }
theorem wit_hostAndPeers : running S0 = true ∧ 0 < S0.pcie.bar4 ∧ Config.dramBytes - 1 < Config.dramBytes ∧ Config.dramBytes - 1 < S0.pcie.bar4 ∧
    rangeLost S0 (Config.dramBytes - 1) 1 = false ∧ (Config.dramBytes - 1 + 1 ≤ Config.dramBytes ∧ Config.dramBytes < Config.dramBytes - 1 + 2) ∧
    released S0 (.link 17) = true ∧ S0.peers.unsent = [] ∧
    (let s : State := { S0 with pcie := { S0.pcie with bar4 := Config.dramBytes + 1 } }; running s = true ∧ Config.dramBytes < s.pcie.bar4) ∧
    (let s := handlerAt 0x1000 { placedGroup with outs := [oHost] }
     findOut s 0 4 = some oHost ∧ portUp s 0 = true ∧ (getGroup s 0).exited.getLsbD 0 = false ∧ (∀ j, j < 4 → hostBacked (2 ^ 54 + j) = true) ∧ mayPerform (getGroup s 0) oHost = true ∧ Tgt.v 0 9 ∈ oHost.live ∧
       (launchOf s 0).handler = some 0x1000 ∧ (getGroup s 0).slot.isSome = true ∧ (0, oHost.seq, 0) ∉ s.struck ∧ (getGroup s 0).hmask.getLsbD 0 = false) ∧
    portUp S0 0 = true ∧ (let s : State := { S0 with anchor := { S0.anchor with state := 4 } }; s.anchor.state = 4 ∧ (7 : Nat) ≤ 7 ∧ 16 ∈ [1, 2, 4, 8, 16]) ∧
    (getPort S0 17).down = false ∧ (getPort S0 17).frozen = false ∧ peerAdmits S0 4095 (.write 0 [1]) = false ∧
    (let s : State := { S0 with peers := { S0.peers with implen := 1, impacl := BitVec.ofNat 4096 (2 ^ 4095) } }
     peerAdmits s 4095 (.write (2 ^ 30 - 1) [1]) = true ∧ rangeLost s (2 ^ 30 - 1) 1 = false ∧ s.peers.vlinj.getLsbD 63 = false ∧ (getPort s 17).frozen = false) ∧
    (let s : State := { S0 with peers := { S0.peers with ports := [(17, { getPort S0 17 with frozen := true })] } }
     (getPort s 17).down = false ∧ (getPort s 17).frozen = true) ∧
    (let s : State := { S0 with peers := { S0.peers with seen := [(3, 4)] } }
     (getPort s 17).down = false ∧ (3, 4) ∈ s.peers.seen ∧ (3, 5) ∉ s.peers.seen) ∧ (getPort S0 17).expSeq = 0 ∧ (getPort S0 17).fails ≤ 16 ∧
    (let s : State := { S0 with anchor := { S0.anchor with state := 4 } }
     s.elems = [] ∧ 0 ≤ s.pcie.numVfs ∧ portUp s 0 = true) ∧ (let s := withPort1; s.anchor.state = 4 ∧ portUp s 1 = true) ∧
    portUp State.reset 0 = true ∧ State.reset.anchor.state ≠ 4 ∧ State.reset.anchor.state ≠ 5 := by and_intros <;> decide +kernel
/-- A flit with a good CRC for any contents, and one with another. -/
def flitA (seq : BitVec 12) (b : FlitBody) : Flit := { hdr := 0, seq := seq, ack := 0, payload := 0, crc := flitCrc ⟨0, seq, 0, 0, 0, b⟩, body := b }
theorem wit_hostAndPeers_flits : (∀ n b, (flitA n b).crc = flitCrc (flitA n b)) ∧ (∀ b, (flitA 0 b).seq = 0 ∧ (flitA 1 b).seq ≠ 0) ∧
    (∀ f : Flit, ({ f with crc := flitCrc f + 1 } : Flit).crc ≠ flitCrc { f with crc := flitCrc f + 1 }) :=
  ⟨fun _ _ => by simp [flitA, flitCrc, flitBits], fun _ => ⟨rfl, by simp [flitA]⟩, fun f h => by simp [flitCrc, flitBits] at h⟩
/-! ## Witnesses: caches, engines, the matrix engine, interruption, observation, the anchor -/

def SC : State := { S0 with
  cores := [(191, { getCore S0 191 with l1 := [(64, (false, 1)), (65, (true, 2))] })]
  l2 := [(64, (true, 3)), (2 ^ 54, (true, 4))] }
def oRel : Out := ⟨1, 0, 8, 1, .release .dev 5, []⟩
def oAcq : Out := ⟨1, 0, 8, 1, .acquire 5, []⟩
def oBar : Out := ⟨1, 0, 8, 1, .bar 7 false 8, []⟩
def relA : Release := ⟨5, 0, .dev, [(64, 9)], [], 1, [0, 191], 0⟩
def SRel : State := { withOuts [oRel] with rels := [relA], now := 1 }
def SAcq : State := { withOuts [oAcq] with acqs := [⟨5, 0, 0, 0, none⟩], now := 1 }
/-- A quad operation on 16 by 4 elements of .i8 at offset 0 of the scratchpad, with its last unit to come. -/
def mA (job : Option (List Byte)) (started : Bool) (idx : Nat) : MatOp :=
  ⟨5, 0, 0, 0, 0, false, ⟨0, 4, 0, 4, 16, 0, 0x06, 0, 0xF100000000000000⟩, ⟨0, 4, 0, 4, 16, 0, 0x06, 0, 0xF100000000000000⟩, 0, 0, 0, 1, 0,
    [⟨0, 1, 0, 7, 3, 0xF100000000003FF8, 0⟩], job, idx, [], started, 0, false, [], []⟩
def cmdA (k : CmdKind) (acc : Bool) : Cmd :=
  ⟨5, 0, 0, 0, 0, 1, 0, 0xF100000000000000, 0xF100000000003FC0, 64, 63, k, acc, [], 0, [], none⟩
def SCm (k : CmdKind) (acc : Bool) : State := { S0 with cmds := [cmdA k acc], teams := [(0, { placedTeam with noChain := 1 })] }
/-- A command that has been accepted with a CRC state. -/
def cmdS (k : CmdKind) : Cmd := { cmdA k true with start := some 0 }
def SCs (k : CmdKind) : State := { S0 with cmds := [cmdS k] }
/-- The places of a copy's bytes are all found. -/
def placesFound (s : State) (c : Cmd) (out : List DWord) : Bool :=
  let z := flushGroup (actsIn s (getTeam s c.team).launch) c.gkey
  let r := cmdPlaces z c .read (rangeAddrs c.src c.len)
  engineReach s c && !mixed z c.gkey (rangeAddrs c.src c.len) && r.2.2.isEmpty && (cmdPlaces r.1 c .write (rangeAddrs c.dst c.len ++ out)).2.2.isEmpty
/-- The evictions of UnitSteps, the endings of PhaseWords and the arrival of BarrierWords. -/
theorem wit_unitSteps : (191 : Nat) < 192 ∧ (65, (true, 2#8)) ∈ (getCore SC 191).l1 ∧ (64, (true, 3#8)) ∈ SC.l2 ∧ hostBacked (256 * (64 / 256)) = false ∧
    portUp SC (freePort SC (256 * (2 ^ 54 / 256))) = true ∧ linePinned SC 0 = false ∧
    (let s : State := { SC with mats := [{ mA none true 0 with chunks := [⟨0, some 0, []⟩] }] }; linePinned s 0 = true) ∧
    (oRel ∈ (getGroup SRel 0).outs ∧ relA.scope ≠ .sys ∧ (0 : Nat) ∈ relA.cores ∧ SRel.groups = [(0, getGroup SRel 0)] ∧ SRel.rels.find? (fun r => r.id == 5) = some relA ∧
      SRel.rels.find? (fun r => r.core == 0) = some relA ∧ relA.cyc < SRel.now ∧ acqNow SRel 191 = none ∧ ({ SRel with now := 0 } : State).now ≤ relA.cyc ∧
      relA.scope ≠ .sys ∧ oRel.work = .release .dev 5 ∧ (∀ p, p ∈ (getGroup SRel 0).outs → p = oRel)) ∧
    (oAcq ∈ (getGroup SAcq 0).outs ∧ SAcq.groups = [(0, getGroup SAcq 0)] ∧ SAcq.acqs = [⟨5, 0, 0, 0, none⟩] ∧ 0 < SAcq.now ∧ oAcq.work = .acquire 5 ∧
      (∀ p, p ∈ (getGroup SAcq 0).outs → p = oAcq)) ∧
    (oBar ∈ (getGroup (withOuts [oBar]) 0).outs ∧ oBar.work = .bar 7 false 8 ∧ (∀ p, p ∈ (getGroup (withOuts [oBar]) 0).outs → p = oBar) ∧
      barReady (withOuts [oBar]) 0 1 = true ∧ parkedElem (withOuts [oBar]) 0 = false) := by decide +kernel
theorem wit_unitSteps_copies :
    (let s := SCm (.copy 0) false
     let c := cmdA (.copy 0) false
     findCmd s 5 = some c ∧ c.waits = 0 ∧ c.tag < 64 ∧ engineReach s c = true ∧ c.accepted = false ∧ recAddrOf c = none ∧ predDone s c = true) ∧
    (let s := SCm (.copy 0) true
     let c := cmdA (.copy 0) true
     findCmd s 5 = some c ∧ c.accepted = true ∧ placesFound s c [] = true) ∧
    (let c := cmdS (.copyChk 0 0 false 0); findCmd (SCs c.kind) 5 = some c ∧ c.start = some 0 ∧ placesFound (SCs c.kind) c [] = true) ∧
    (let out : DWord := 0xF100000000001000
     let c := cmdS (.copyCrc 0 out true 62)
     findCmd (SCs c.kind) 5 = some c ∧ c.start = some 0 ∧ placesFound (SCs c.kind) c (rangeAddrs out 4) = true) ∧
    (let s := SCm (.copyChk 0 0 true 0) true
     findCmd s 5 = some (cmdA (.copyChk 0 0 true 0) true) ∧ (cmdA (.copyChk 0 0 true 0) true).start = none ∧
       engineReach s (cmdA (.copyChk 0 0 true 0) true) = true) := by decide +kernel
def xRec : List Byte := List.replicate 64 0
def xCmd : Cmd := { cmdA (.xform true 0xF100000000000000 0xF100000000003FF8) true with recd := xRec }
def SXf : State := { S0 with cmds := [xCmd] }
/-- A decode command is ready and the places of all that it reads and writes are found. -/
def decodeFound (s : State) (c : Cmd) (bo r : DWord) : Bool :=
  let z0 := flushGroup (actsIn s (getTeam s c.team).launch) c.gkey
  let q := cmdPlaces z0 c .read (decodeAddrs c)
  let b := engBytes q.1 c.core q.2.1
  let x := decodeSyms b.1 c q.2.1 b.2
  engineReach s c && xformReady z0 c bo (decodeAddrs c) && q.2.2.isEmpty &&
    (cmdPlaces b.1 c .write (rangeAddrs c.dst (x.1.flatMap fun v => leBytes (symBytes c) v).length ++ rangeAddrs (r + 60) 4)).2.2.isEmpty
theorem wit_unitSteps_xform : findCmd SXf 5 = some xCmd ∧ xCmd.waits = 0 ∧ xCmd.tag < 64 ∧ xCmd.accepted = true ∧
    decodeFound SXf xCmd 0xF100000000003FF8 0xF100000000000000 = true ∧
    objPlace SXf xCmd.gkey 0xF100000000003FF8 = some (0, 0x3FF8) ∧ (tabFind SXf.teams 0).isSome = true := by decide +kernel
def cardA (b : Nat) : List Byte := leBytes 64 (7 * 2 ^ 8 + 1 * 2 ^ 32 + b * 2 ^ 96)
/-- The steps of MatrixWords and of DeclarationsAndJobs. -/
theorem wit_matrixSteps :
    (let s : State := { S0 with mats := [mA none true 0] }
     let m := mA none true 0
     let r := unitResult (flushGroup s 0) m ⟨0, 1, 0, 7, 3, 0xF100000000003FF8, 0⟩ 0 (min (unitOf m.ta m.tb) 1)
     findMat s 5 = some m ∧ m.signers = [⟨0, 1, 0, 7, 3, 0xF100000000003FF8, 0⟩] ∧ mayStep s m = true ∧ m.klen ≤ m.k + unitOf m.ta m.tb ∧
       mixed (flushGroup s 0) 0 (newChunks m 0 (min (unitOf m.ta m.tb) 1)) = false ∧ r.2.1 = { m with chunks := r.2.1.chunks, tags := r.2.1.tags } ∧
       (pinned (putMat r.1 r.2.1) 0).length ≤ 1024 ∧ (match r.2.2 with | .ok xs => xs.length | .error _ => 0) = 256) ∧
    (∀ b, b ∈ [0, 1] →
      let s : State := { S0 with mats := [mA (some (cardA b)) false 0] }
      let m := mA (some (cardA b)) false 0
      findMat s 5 = some m ∧ m.idx < jobTotal (cardA b) ∧ behind s m = false ∧ (getTeam s 0).place = .resident ∧
        jobAt (cardA b) 0 = (0, 0, 0, 7) ∧ (cardBits (cardA b) 13 8 : Int) = 7 ∧ (7 : Int) < (launchOf s 0).accs ∧
        mmaValid m.ta m.tb m.flt 0 m.klen = true ∧ cardBits (cardA b) 96 96 = b) ∧
    (let s : State := { S0 with mats := [mA (some (cardA 0)) false 1] }
     let m := mA (some (cardA 0)) false 1
     findMat s 5 = some m ∧ jobTotal (cardA 0) ≤ m.idx ∧ objPlace s 0 0xF100000000003FF8 = some (0, 0x3FF8) ∧ (tabFind s.teams 0).isSome = true ∧
       engineTurn s (0, 0x3FF8) = true ∧ m.started = false) := by
  decide +kernel
def heldA : Held := ⟨1, true, false, 0, 1023, 255, true, none, []⟩
def SH : State := handlerAt 0x1000 { placedGroup with parked := 1, held := [heldA] }
def recA : WaitRec := ⟨0, none, none, ⟨0, 0, 0, 0, 0, 0, 0, 0, 0, 3⟩⟩
theorem wit_recordsAndFreezing : running SH = true ∧
    ((0x0003FFFF#32).extractLsb' 0 10).toNat = 1023 ∧ (0x4003FFFF#32).extractLsb' 10 8 = 255 ∧ heldAt SH 0 1023 255 = some (0, heldA) ∧
    heldA.s2 = false ∧ (getGroup SH 0).slot.isSome = true ∧ gridEnded (launchOf SH 0) = false ∧ (getGroup SH 0).due = [] ∧ (0x0003FFFF#32).extractLsb' 30 2 = 0 ∧ heldA.elems = [] ∧
    (0x4003FFFF#32).extractLsb' 30 2 = 1 ∧ (launchOf SH 0).handler = some 0x1000 ∧ heldA.lanes &&& (getGroup SH 0).hmask = 0 ∧
    (0x8003FFFF#32).extractLsb' 30 2 = 2 ∧ (tabFind SH.launches (teamOf SH 0).launch).isSome = true ∧ (launchOf SH 0).stage ≠ .retired ∧
    S0.recs = [] ∧
    (let s : State := { S0 with recs := [recA], funcs := [(0, { getFunc S0 0 with ftail := 64 })] }
     s.recs = [recA] ∧ recA.held = none ∧ (getFunc s 0).ftail - 1 ≠ 64#32 ∧
       (recPlace s 0 ((getFunc s 0).recbase.toNat / 4096 * 4096 + 64 * ((getFunc s 0).ftail.toNat % 64))).isSome = true) ∧
    (0x80000000#32).getLsbD 31 = true ∧ (0x80000000#32).getLsbD 29 = false ∧ (0xA000003F#32).getLsbD 29 = true ∧ ((0xA000003F#32).extractLsb' 0 6).toNat = 63 ∧
    tabFind S0.teams 0 = some placedTeam ∧ placedTeam.place = .resident ∧ (getLaunch S0 placedTeam.launch).func = 0 ∧ (getLaunch S0 placedTeam.launch).pri < 7 ∧
    S0.freezer.busy = false ∧ (0x803F0000#32).extractLsb' 28 2 = 0 ∧ ((0x803F0000#32).extractLsb' 16 6).toNat = 63 ∧ (0x90000000#32).extractLsb' 28 2 = 1 ∧
    (let s : State := { S0 with freezer := { S0.freezer with busy := true, phase := 2 } }; s.freezer.phase = 2 ∧ funcBusy s s.freezer.job = true) := by
  decide +kernel
/-- A FREEZE of function 0, which holds no context, with no extents and room for its image; its release is over. -/
def SFz (frees : Option (List Nat)) : State := { RS with freezer := { RS.freezer with busy := true, phase := 1, len := 2 ^ 40, frees := frees } }
theorem wit_recordsAndFreezing_end : (SFz none).freezer.phase = 1 ∧ allSpilled (SFz none) 0 = true ∧ (SFz none).freezer.frees = none ∧
    (SFz (some [])).freezer.phase = 1 ∧ allSpilled (SFz (some [])) 0 = true ∧ relsOver (SFz (some [])) [] = true ∧
    (freezeEnd (SFz (some [])) 0).2 = 0 := by and_intros <;> decide +kernel
theorem wit_swaps_stops : running S0 = true ∧ (0x8000000000000000#64).getLsbD 63 = true ∧ (0x8000000000000000#64).extractLsb' 61 2 = 0 ∧
    (0xA000000000000000#64).extractLsb' 61 2 = 1 ∧ (0xC000000000000000#64).extractLsb' 61 2 = 2 ∧ tabFind S0.teams 0 = some placedTeam ∧
    (getLaunch S0 placedTeam.launch).label = S0.freezer.slabel ∧ placedTeam.task = ((0xC000000000000000#64).extractLsb' 0 32).toNat ∧
    placedTeam.place = .resident ∧ placedTeam.stopped = false := by decide +kernel
/-- A replay of launch 7 of 2 passes, its grid done. -/
def SRp (pass : Nat) : State := { SD with obs := { SD.obs with rlaunch := some 7, rnpass := 2, rpass := pass, rrec := some placedLaunch } }
theorem wit_observationEvents : running S0 = true ∧ (1#32).getLsbD 0 = true ∧ (0x40000000#32).getLsbD 30 = true ∧
    (let s : State := { S0 with obs := { S0.obs with hctl := 1, hreq := true, hslen := 1 } }
     s.obs.hctl.extractLsb' 0 20 ≠ 0 ∧ s.obs.hreq = true ∧ (s.obs.hstail - s.obs.hshead).toNat < s.obs.hslen.toNat) ∧
    (SRp 1).obs.rlaunch = some 7 ∧ gridDone (SRp 1) 7 = true ∧ 4096 * (SRp 1).obs.rpages.length ≤ (SRp 1).obs.rplslen.toNat ∧
    (SRp 1).obs.rpass < (SRp 1).obs.rnpass ∧ (SRp 1).obs.rrec = some placedLaunch ∧
    gridDone (SRp 2) 7 = true ∧ (SRp 2).obs.rnpass ≤ (SRp 2).obs.rpass ∧ (SRp 2).recs = [] ∧ fatalFull (SRp 2) (getLaunch (SRp 2) 7).func = false := by decide +kernel
def withA (f : Anchor → Anchor) : State := { State.reset with anchor := f State.reset.anchor }
/-- Whether a slot verifies rests on its signature, whose algorithm stands outside the spec. -/
theorem wit_anchorSteps_boot (a b : Nat) (h : slotHolds State.reset a = true ∧ slotHolds State.reset b = false) :
    ∃ s : State, slotHolds s a = true ∧ slotHolds s b = false := ⟨_, h⟩
/-- The self-test is next; in the second state a regulator's phase does not work. -/
def SSt (phok : BitVec 4) : State := { withA (fun a => { a with state := 3, step := 1 }) with
  supply := { State.reset.supply with regions := [(383, { regionReset with phok := phok })] } }
theorem wit_anchorSteps_item : (SSt 7).anchor.state = 3 ∧ (SSt 7).anchor.step = 1 ∧ (getRegion (SSt 7) 383).phok ≠ 0xF ∧ testItem (SSt 7) 4 = false := by
  have h : ((List.range Config.regions).all fun r => (getRegion (SSt 7) r).phok == 0xF) = false := by decide +kernel
  refine ⟨rfl, rfl, by decide +kernel, ?_⟩
  rw [testItem, h, Bool.and_false]
/-- Whatever the free part of the test answers, some item is the first to fail there. -/
theorem wit_anchorSteps_fails : ∃ k, k < 5 ∧ testItem (SSt 7) (k + 2) = false ∧ ∀ j, j < k → testItem (SSt 7) (j + 2) = true := by
  have h4 := wit_anchorSteps_item.2.2.2
  cases h2 : testItem (SSt 7) 2 with
  | false => exact ⟨0, by decide, h2, fun j hj => absurd hj (by omega)⟩
  | true =>
    cases h3 : testItem (SSt 7) 3 with
    | false => exact ⟨1, by decide, h3, fun j hj => by cases (by omega : j = 0); exact h2⟩
    | true => exact ⟨2, by decide, h4, fun j hj => by rcases (by omega : j = 0 ∨ j = 1) with rfl | rfl <;> assumption⟩
/-- Every item passes where what the spec leaves open passes. -/
theorem wit_anchorSteps_passes (h : ∀ n k, Config.selfTest n k = true) : ∀ k, k < 5 → testItem (SSt 15) (k + 2) = true := by
  have h4 : (List.range Config.regions).all (fun r => (getRegion (SSt 15) r).phok == 0xF) = true := by decide +kernel
  have h5 : (portUp (SSt 15) 0 && (List.range 18).all fun p => !(getPort (SSt 15) p).down) = true := by decide +kernel
  intro k hk
  obtain rfl | rfl | rfl | rfl | rfl : k = 0 ∨ k = 1 ∨ k = 2 ∨ k = 3 ∨ k = 4 := by omega
  all_goals simp only [testItem, h, Bool.true_and]
  · exact h4
  · exact h5
theorem wit_anchorSteps : State.reset.anchor.state = 0 ∧ (withA fun a => { a with state := 1 }).anchor.state = 1 ∧
    (let s := withA fun a => { a with state := 2, step := 6 }
     s.anchor.state = 2 ∧ s.anchor.step < 7 ∧ s.anchor.step ≠ 1 ∧ stepDone s = true) ∧
    (let s := withA fun a => { a with state := 4, step := 7 }
     released s .management = true ∧ .management ∉ s.anchor.ready ∧ released s (.compute 191) = true) ∧
    (let s := withA fun a => { a with state := 4, step := 7, ready := [.management], resets := 2 }
     released s .management = true ∧ .management ∈ s.anchor.ready ∧ 2 ≤ s.anchor.resets) ∧
    (0x80000001#32).getLsbD 31 = true ∧ State.reset.anchor.mbbusy = false ∧ (0x80000001#32).extractLsb' 0 8 = BitVec.ofNat 8 1 ∧
    (0x80000003#32).extractLsb' 0 8 = 3 ∧ (0x80000005#32).extractLsb' 0 8 = BitVec.ofNat 8 5 ∧ (memRead State.reset.anchor.mbdata 0).toNat < 2 ∧
    2 ≤ (memRead (withA fun a => { a with mbdata := [(0, 2)] }).anchor.mbdata 0).toNat ∧
    (withA fun a => { a with mbbusy := true }).anchor.mbbusy = true := by decide +kernel
/-! ## Ill-formed terms, one for each check -/

theorem smoke_guard_combine : wellFormed (.nop ⟨false, .x 0 false 0 false 3, 0, false, 0⟩) = false := by rfl
theorem smoke_f_carries_no_hint : wellFormed (.nop ⟨false, .f 0 false, 1, false, 0⟩) = false ∧ wellFormed (.nop ⟨false, .f 0 false, 0, true, 0⟩) = false ∧
    wellFormed (.nop ⟨false, .f 0 false, 0, false, 1⟩) = false := by decide
theorem smoke_x_only : wellFormed (.movi H0 .n32 (.v 0) 0) = false ∧ wellFormed (.mmaQuad H0 true 0 0 1 (.imm 0) 16) = false := by decide
theorem smoke_fields : ([
    .imac H0 .i32 false (.v 0) (.v 1) (.v 2) (.v 3), .iabs H0 .n32 false (.v 0) (.v 1), .vote H0 .any (.v 16) 0, .redx H0 .add .f16 .rn (.v 0) (.v 1),
    .scanx H0 .add .i32 .rz (.v 0) (.v 1), .bra H0 0x200000, .fadd H0 .f64 .rm false (.v 0) (.v 2) (.v 4), .fmul H0 .f32 .sr false (.v 0) (.v 1) (.v 2),
    .frnd H0 .f32 .rm (.v 0) (.v 1), .cvt H0 .e4m3 .f32 .rn false 4 0 (.v 0) (.v 1), .qmake H0 .i32 .sr (.v 0) (.v 1) (.v 2),
    .sfq H0 .rcp .f64 (.v 0) (.v 2) (.s 0), .ld H0 .f64 .core .x4 (.v 0) (.v 4) (.imm 0) 0, .ld H0 .n32 .core .x1 (.v 0) (.v 4) (.imm 0) 1,
    .atom H0 .and .f32 .core (.v 0) (.v 2) (.v 4) 0, .atoma H0 .xch .n32 .core (.v 0) (.s 2) (.v 4) 0, .red H0 .xch .n32 .core (.v 2) (.v 4) 0,
    .xcopyCrc HX 0 (.s 2) (.s 4) (.imm 1) (.imm 0) (.imm 1) false 0, .tmap H0 .q32 0 0 0 0 (.s 0) (.s 2) (.v 0) (.v 0), .tmap H0 .i8 0 3 0 0 (.s 0) (.s 2) (.v 0) (.v 0),
    .accst H0 .rm false 0 0 (.imm 0), .accrd H0 .f16 .rn false (.v 0) 0 (.imm 0), .accwr H0 .i16 0 (.v 0) (.imm 0), .mmaQuad HX true 0 0 1 (.imm 0) 0,
    .mmaTall HX true 0 0 1 0 (.imm 0) 4097, .srd H0 0x3FF (.v 0), .swr H0 0x000 (.v 0), .pairWord false ⟨0x18, 0, 0, .v 1⟩ ⟨0, 0, 2, .v 3⟩] : List Instr).all
    (fun i => !wellFormed i) = true := by decide +kernel
theorem smoke_operands : ([
    .iadd H0 .i32 false (.imm 0) (.v 0) (.v 0), .iadd H0 .i64 false (.v 1) (.v 2) (.v 4), .bcast H0 .n32 (.v 0) (.s 1), .lanerd H0 .n32 (.v 0) (.v 1) (.imm 0),
    .boinit H0 (.v 2) (.imm 0), .bowait H0 (.s 3) (.imm 0), .pairWord false ⟨0, 0, 0, .x false 0 0⟩ ⟨0, 0, 2, .v 3⟩, .launch H0 (.imm 0)] : List Instr).all
    (fun i => !wellFormed i) = true := by decide +kernel

/-! ## Single steps: worked examples of the spec, and results worked by hand from its formulas -/

def withV (rs : List (Nat × Word)) : State := withG fun g => { g with vreg := rs }
def regAfter (s : State) (i : Instr) (n : Nat) : Option Word := match exec i s with | .next t => some (vGet (getGroup t 0) 0 n) | _ => none
def flagsAfter (s : State) (i : Instr) : Option (BitVec 5) := match exec i s with | .next t => some (getGroup t 0).flg | _ => none
def pcAfter (s : State) (i : Instr) : Option DWord := match exec i s with | .next t => some (pcOf (getGroup t 0) 0) | _ => none

-- R159: addition wraps, and saturates with SAT
theorem test_iadd_wraps : regAfter (withV [(1, 0x7FFFFFFF)]) (.iadd H0 .i32 false (.v 0) (.v 1) (.imm 1)) 0 = some 0x80000000 := by decide +kernel
theorem test_iadd_sat : regAfter (withV [(1, 0x7FFFFFFF)]) (.iadd H0 .i32 true (.v 1) (.v 1) (.imm 1)) 1 = some 0x7FFFFFFF := by decide +kernel
-- R160: a count of the width or more
theorem test_sar_over : regAfter (withV [(1, 0x80000000), (2, 0x80000000)]) (.sar H0 .n32 (.v 0) (.v 1) (.v 2)) 0 = some 0xFFFFFFFF := by decide +kernel
theorem test_shl_over : regAfter (withV [(1, 1), (2, 32)]) (.shl H0 .i32 (.v 0) (.v 1) (.v 2)) 0 = some 0 := by decide +kernel
-- R161: a signed field of one bit
theorem test_bfe_signed : regAfter (withV [(1, 0x80), (2, 0x107)]) (.bfe H0 .i32 (.v 0) (.v 1) (.v 2)) 0 = some 0xFFFFFFFF := by decide +kernel
theorem test_bfi : regAfter (withV [(0, 0xFFFFFFFF), (1, 0), (2, 0x0804)]) (.bfi H0 .n32 (.v 0) (.v 1) (.v 2)) 0 = some 0xFFFFF00F := by decide +kernel
-- R162: an index is scaled after its sign extension
theorem test_lea : regAfter (withV [(2, 8), (4, 0xFFFFFFFF)]) (.lea H0 true 2 (.v 0) (.v 2) (.v 4)) 0 = some 4 := by decide +kernel
-- R167: the worked example
theorem test_movi : regAfter S0 (.movi HX .n32 (.v 3) 0x05F5E100) 3 = some 0x05F5E100 := by decide +kernel
-- R105: both halves read before either writes
theorem test_pair_reads_first : regAfter (withV [(0, 1), (1, 2)]) (.pairWord false ⟨0x01, 0, 0, .v 4⟩ ⟨0x00, 0, 1, .v 7⟩) 0 = some 1 := by decide +kernel
-- R134: the worked example, v4 unchanged
theorem test_fmul : regAfter (withV [(4, 0x7F7FFFFF)]) (.fmul H0 .f32 .rz false (.v 12) (.v 4) (.con 32)) 12 = some 0x7F7FFFFF := by decide +kernel
-- R197: 1 + 2^-24 is a tie and goes to even, raising NX
theorem test_fadd_tie : regAfter (withV [(1, 0x3F800000), (2, 0x33800000)]) (.fadd H0 .f32 .rn false (.v 0) (.v 1) (.v 2)) 0 = some 0x3F800000 := by decide +kernel
theorem test_fadd_tie_flag : flagsAfter (withV [(1, 0x3F800000), (2, 0x33800000)]) (.fadd H0 .f32 .rn false (.v 0) (.v 1) (.v 2)) = some fNX := by decide +kernel
-- R211: −0 is below +0; one NaN gives the other source
theorem test_fmin_zeros : regAfter (withV [(2, 0x80000000)]) (.fmin H0 .f32 (.v 0) (.v 1) (.v 2)) 0 = some 0x80000000 := by decide +kernel
theorem test_fmax_nan : regAfter (withV [(1, 0x7FC00000), (2, 0xBF800000)]) (.fmax H0 .f32 (.v 0) (.v 1) (.v 2)) 0 = some 0xBF800000 := by decide +kernel
-- R212: the sign bit of a NaN
theorem test_fneg_nan : regAfter (withV [(1, 0x7F800001)]) (.fneg H0 .f32 (.v 0) (.v 1)) 0 = some 0xFF800001 := by decide +kernel
-- R221: the worked example, 1000.0 to E4M3 with SAT into byte 2, with OF and NX
theorem test_cvt : regAfter (withV [(3, 0x447A0000), (5, 0x11111111)]) (.cvt H0 .e4m3 .f32 .rn true 2 0 (.v 5) (.v 3)) 5 = some 0x117E1111 := by decide +kernel
theorem test_cvt_flags : flagsAfter (withV [(3, 0x447A0000), (5, 0x11111111)]) (.cvt H0 .e4m3 .f32 .rn true 2 0 (.v 5) (.v 3)) = some (fOF ||| fNX) := by decide +kernel
theorem test_cvt_no_sat : regAfter (withV [(3, 0x447A0000), (5, 0x11111111)]) (.cvt H0 .e4m3 .f32 .rn false 2 0 (.v 5) (.v 3)) 5 = some 0x117F1111 := by decide +kernel
-- R172, R173, R176: an offset past the group keeps the lane's own value; a lane of 32 reads as 0
theorem test_shfl_past : regAfter (withV [(2, 9)]) (.shfl H0 .up .n32 false (.v 5) (.v 2) (.imm 1)) 5 = some 9 := by decide +kernel
theorem test_ballot : regAfter S0 (.vote H0 .ballot (.v 5) 0) 5 = some 1 := by decide +kernel
-- R178, R180, R183: branch offsets count words of 8 bytes
theorem test_bra_back : pcAfter S0 (.bra H0 0xFFFFFF) = some 0xFFFFFFFFFFFFFFF8 := by decide +kernel
theorem test_call_link : regAfter S0 (.call H0 (.v 254) 4) 254 = some 8 := by decide +kernel
theorem test_loop_ends : pcAfter (withV [(1, 1)]) (.loop H0 (.v 1) 0xFFFFFF) = some 8 := by decide +kernel
theorem test_loop_wraps : regAfter S0 (.loop H0 (.v 1) 4) 1 = some 0xFFFFFFFF := by decide +kernel
-- R185, R392: TRAP with a handler
theorem test_trap_epc : pcAfter (handlerAt 0x1000 placedGroup) (.trap H0 255) = some 0x1000 := by decide +kernel
-- R169: CURSOR moves modulo BOUND under WRAP (bound 4, cursor 3)
theorem test_xstep_wraps : (match exec (.xstep H0 0 (.imm 2)) (withG fun g => { g with xreg := [(0, 0x10030400)] }) with
    | .next t => some (xGet (getGroup t 0) 0 0) | _ => none) = some 0x10010400 := by decide +kernel
-- R337: the worked example, 16 rows by 32 columns of BF16, STRIDE 64
theorem test_tmap : (match exec iTmap (withG fun g => { g with sreg := [(6, 0x00200010)] }) with
    | .next t => some ((tGet (getGroup t 0) 15).rows, (tGet (getGroup t 0) 15).cols, (tGet (getGroup t 0) 15).stride) | _ => none) = some (16, 32, 64) := by
  decide +kernel
-- R264: a store and a load of a scratchpad word as one step each
theorem test_store_bytes : (match exec (.accessPerformed 0 0) (withOuts [oSt]) with | .next t => some ((getTeam t 0).scr, (getGroup t 0).outs) | _ => none) =
    some ([(16380, 5)], []) := by decide +kernel
-- R48, R42: a WAIT of 5 takes 5 tokens
theorem test_packet_wait : (match exec (.packetWait 1023) (SK 3) with | .next t => some ((getXing t 4095).tokens, (getQueue t 1023).qhead) | _ => none) = some (0, 1) := by
  decide +kernel
-- R86: at 95 % of the cap L rises by 16; below 90 % it falls by 4
theorem test_toll_tick : (match exec (.tollTick 2280) State.reset with | .next t => some t.supply.l | _ => none) = some 0x810 := by decide +kernel
theorem test_toll_falls : (match exec (.tollTick 2159) State.reset with | .next t => some t.supply.l | _ => none) = some 0x7FC := by decide +kernel
-- A step runs the word that stands at the program counter: `movi v3, 100000000`
theorem test_step_movi : (match step (F 0xF5E100050800000040D8000018000000) with | .next t => some (vGet (getGroup t 0) 0 3, pcOf (getGroup t 0) 0) | _ => none) =
    some (0x05F5E100, 16) := by decide +kernel

/-! ## More witnesses: the boundary clauses of the statements above -/

/-- A word of two that no row of the table gives; an instruction on a page that nothing maps. -/
theorem wit_stepRuns_none_x : let w := 0x40E0000000000000
    (F w).agenda = [] ∧ nextIssue (F w) = some U ∧
    ∃ t t', fetchWord (F w) 0 0 = (t, .ok 0x40E0000000000000) ∧ fetchWord t 0 8 = (t', .ok 0) ∧
      wordLen 0x40E0000000000000 = 16 ∧ ∃ r, decodeWords 0x40E0000000000000 0 = .error r := by
  refine ⟨rfl, by rfl, _, _, rfl, rfl, by rfl, _, by rfl⟩
theorem wit_stepRuns_fails : let s : State := { F 0 with tlb := [] }
    s.agenda = [] ∧ nextIssue s = some U ∧ ∃ t r, fetchWord s 0 0 = (t, .error r) := by refine ⟨rfl, by rfl, _, _, rfl⟩
theorem wit_phaseWords_more :
    S0.rels.find? (fun r => r.core == coreOf S0 0 && r.cyc == S0.now) = none ∧
    (let s : State := { S0 with rels := [⟨5, 0, .dev, [], [], 0, [], 0⟩] }
     OnceAll s [.phrel H0 .core, .phsync H0 .sys] ∧ (getGroup s 0).det = false ∧
      s.rels.find? (fun r => r.core == coreOf s 0 && r.cyc == s.now) = some ⟨5, 0, .dev, [], [], 0, [], 0⟩) ∧
    (let s := handlerAt 0x1000 { placedGroup with det := true }
     OnceAll s [.phrel H0 .core, .phacq H0 .dev, .phsync H0 .sys] ∧ (getGroup s 0).det = true ∧ (launchOf s 0).handler = some 0x1000 ∧
      (ctxOf s U (.phacq H0 .dev)).active &&& (getGroup s 0).hmask = 0) :=
  ⟨by decide +kernel, ⟨onceAll_of (by decide +kernel), rfl, by decide +kernel⟩, onceAll_of (by decide +kernel), rfl, rfl, by decide +kernel⟩
/-- The same copies with their engine context frozen. -/
theorem wit_commandWords_frozen : let s : State := { SE with teams := [(0, { placedTeam with frozen := true })] }
    OnceAll s [iCopy, iCrc, iChk, .xformDec HX (.s 2) (.s 4) (.s 6) (.s 2)] ∧ (teamOf s 0).frozen = true ∧
    engineCheck s 0 [(0xF100000000000000, 63), (0xF100000000003FC0, 63)] = none ∧
    (objPlace s 0 (BitVec.ofNat 64 0xF100000000000000)).isSome = true :=
  ⟨onceAll_of (by decide +kernel), rfl, by decide +kernel, by decide +kernel⟩
theorem wit_matrixWords_windows : isGlobal (tGet (getGroup ST 0) 0).base = false ∧ isGlobal (tGet (getGroup ST 0) 1).base = false := by decide +kernel
/-- An XFORM of one row of one .i8 element to .i8, from offset 0 to the last 64 bytes of the scratchpad. -/
def xLay : Cmd := { cmdA (.xform false 0xF100000000000000 0xF100000000003FF8) true with
  recd := leBytes 64 (1 + 2 ^ 32 + 2 ^ 64 + 2 ^ 80 + 6 * 2 ^ 96 + 6 * 2 ^ 104) }
/-- A layout command is ready and the places of all that it reads and writes are found. -/
def layoutFound (s : State) (c : Cmd) (bo : DWord) (sty dty : Ty) : Bool :=
  let z0 := flushGroup (actsIn s (getTeam s c.team).launch) c.gkey
  let q := cmdPlaces z0 c .read ((xformElems c).flatMap (xformSrc c sty))
  engineReach s c && xformReady z0 c bo ((xformElems c).flatMap (xformSrc c sty)) && q.2.2.isEmpty &&
    (cmdPlaces q.1 c .write ((xformElems c).flatMap (xformDst c dty))).2.2.isEmpty
theorem wit_unitSteps_layout : let s : State := { S0 with cmds := [xLay] }
    findCmd s 5 = some xLay ∧ xLay.waits = 0 ∧ xLay.tag < 64 ∧ xLay.accepted = true ∧
      layoutRec xLay = some (.i8, .i8, .rn) ∧ layoutFound s xLay 0xF100000000003FF8 .i8 .i8 = true ∧
      objPlace s xLay.gkey 0xF100000000003FF8 = some (0, 0x3FF8) := by decide +kernel
theorem wit_hostAndPeers_acquire : let s : State := { S0 with acqs := [⟨1, 0, 0, 0, none⟩] }
    running s = true ∧ ∃ x, s.acqs = [x] ∧ x.core = 0 ∧ x.cyc = s.now := ⟨by decide +kernel, _, rfl, rfl, rfl⟩
theorem wit_registerReads : running RS = true ∧ RS.pcie.numVfs < 63 ∧
    (let s : State := { RS with pcie := { RS.pcie with numVfs := 1 }, queues := [(1023, { queueReset with owner := 1 })] }
     running s = true ∧ 1 ≤ s.pcie.numVfs ∧ (getQueue s 1023).owner = 1 ∧ (getQueue s 0).owner ≠ 1 ∧ (getXing s 4095).owner ≠ 1 ∧
       (getXing s 4095).owner = 0) := by decide +kernel
-- R58: a core after reset has 24 slots, 64 accumulator units, 3,072 vector and 384 scratchpad units free; R34: another's queue reads as zero
theorem test_read_cfree : bar0Read RS 0 0x125000 8 = 24 * 2 ^ 8 + 64 * 2 ^ 13 + 3072 * 2 ^ 20 + 384 * 2 ^ 32 := by decide +kernel
theorem test_read_unowned : bar0Read { RS with queues := [(3, { queueReset with owner := 1, qring := 0x1000 })] } 0 (32 * 3) 8 = 0 := by decide +kernel
-- R391, R392: data with a soft error; the lane takes the hardware error and nothing is written
theorem test_struck_load : (match exec (.longResultWrite 0 1) { handlerAt 0x1000 { placedGroup with outs := [oLd] } with struck := [(0, 1, 0)] } with
    | .next t => some ((getGroup t 0).cause, pcOf (getGroup t 0) 0, vGet (getGroup t 0) 0 255) | _ => none) = some (0x2000, 0x1000, 0) := by decide +kernel
-- R396: an arithmetic flag that comes while the group is off its core leaves the lane parked, not delivered
theorem test_late_off_core : (match exec (.longResultWrite 0 0) (handlerAt 0x1000 { placedGroup with slot := none, fen := 1, outs := [⟨0, 0, 8, 1, .result [] [(0, 1)], []⟩] }) with
    | .next t => some ((getGroup t 0).parked, (getGroup t 0).hmask, (getGroup t 0).cause, (getGroup t 0).owed.length) | _ => none) =
    some (1, 0, 0x400, 1) := by decide +kernel
/-- A context with outstanding words of many kinds, a parked element and operation, a held record, and a queue, crossing, graph and launch. -/
def SImg : State :=
  let la : LaneAcc := ⟨31, 0xF100000000000040, some [.scr 0 64, .plaza 3, .glob 0x5000 1], 0x8000000000000001, 7⟩
  let ws : List Work := [.result [(.v 31 255, 5), (.s 9, 0xFFFFFFFF), (.p 0 7, 1)] [(31, 16)], .loaded [(.v 0 1, 2)], .load .q32 1 true [(31, 254)] .nbhd [la],
    .store 2 .sys [la] [(31, [1, 255])], .atom .xch true .n64 [(1, 2)] .dev [la], .atoma .add .i32 [(0, 3)] .core [la] [(31, 4)], .red .max .i64 .dev [la],
    .ldk .n32 2 [(0, 4)] [la], .prefetch, .sfq .tanh .bf16 3 [(.v 0 0, 1)] [(0, 2)], .fence true, .fenceOpnd, .release .nbhd 3, .acquire 4,
    .phsync .sys 5 true, .bar 7 true 8, .boinit (0, 8) 9, .boarr (0, 16) 3 2, .bowait (0, 24) 5 true, .botest (0, 32) 6 1 true, .waitAny 5,
    .waitAll 6, .sfw 255, .engine 2, .mma 3, .fuse 4, .card 5, .accld 63 (tGet placedGroup 0) 7 [(0x5000, 9)], .accst [(0x5000, 1, 8)] 3 2,
    .launch [(2, 0x40)] 5, .ldone (some 3)]
  { withOuts (ws.map fun w => ⟨4, 8, 16, 0x80000001, w, [.v 31 255, .s 9, .p 0 7]⟩) with
    elems := [slotEl, elFetch, elStore], mats := [mA (some [1, 2]) true 3], queues := [(1023, { queueReset with qring := 0x1000 })],
    recs := [{ recA with held := some (0, 0x80000000) }], xings := [(4095, xingReset)], graphs := [(7, graphReset)] }
-- R412, R413: the sections of an image are read back as they were written
theorem test_image_back : let x := { frozenOf SImg 0 with elems := SImg.elems, mats := SImg.mats, recs := SImg.recs, nodes := [(3, 2 ^ 511 + 1)], images := [(0, [7, 8])] }
    x.groups.length = 1 ∧ x.queues.length = 1 ∧ x.launches.length = 1 ∧ sectionsBack (ctxSection x) (frontSection x) (regSection x) = some x := by decide +kernel

end Sys2Proof.Tests
end

section
/-! SUPPORT. What the host reads in BAR0 (R34, R58, R299): where a read answers a whole register, a half or zero, which register
stands at an offset and how wide it is, and the statement RegisterReads. -/

namespace Sys2Proof.Machine

section
variable {s : State} {f q n c o off w : Nat}

/-! ## Reads that answer -/

theorem readOpen_of_running (off : Nat) (hs : running s = true) (hf : f < 64) (he : f ≤ s.pcie.numVfs) : readOpen s f off = true := by
  simp [readOpen, regOpen, hs, he, Config.functions, hf]

theorem readOpen_of_not_enabled (off : Nat) (h : s.pcie.numVfs < f) : readOpen s f off = false := by
  simp only [readOpen, Nat.not_le.mpr h, decide_false, Bool.false_and]

theorem bar0Read_of_not_open (h : readOpen s f off = false) : bar0Read s f off w = 0 := by simp [bar0Read, h]

theorem bar2Read_of_not_enabled (h : s.pcie.numVfs < f) : bar2Read s f off w = 0 := by simp [bar2Read, h]

/-- The offset lies outside the mailbox buffer. -/
def outsideMailbox (off : Nat) : Prop := off < 0x110000 ∨ 0x120000 ≤ off

/-- Outside the mailbox buffer an open read is decided by the widths of the register at the offset and at the word of 8 bytes around it. -/
theorem bar0Read_of_open (ho : readOpen s f off = true) (hm : outsideMailbox off) :
    bar0Read s f off w =
      if w = readWidth f off ∧ off % w = 0 ∧ w ≠ 0 then regRead s f off
      else if w = 4 ∧ off % 4 = 0 ∧ readWidth f (off / 8 * 8) = 8 then regRead s f (off / 8 * 8) / 2 ^ (8 * (off % 8)) % 2 ^ 32
      else 0 := by
  have hn : ¬ (0x110000 ≤ off ∧ off < 0x120000) := by unfold outsideMailbox at hm; omega
  have hb : (f = 0 && decide (0x110000 ≤ off) && decide (off < 0x120000)) = false := by
    simp only [← Bool.decide_and]
    exact decide_eq_false fun ⟨⟨_, hlo⟩, hhi⟩ => hn ⟨hlo, hhi⟩
  simp [bar0Read, ho, hb]

theorem bar0Read_whole (ho : readOpen s f off = true) (hm : outsideMailbox off) (hw : readWidth f off = w) (ha : off % w = 0)
    (h0 : w ≠ 0) : bar0Read s f off w = regRead s f off := by
  rw [bar0Read_of_open ho hm, if_pos ⟨hw.symm, ha, h0⟩]

/-- An aligned 4-byte read inside a 64-bit register answers the half that it names. -/
theorem bar0Read_half (ho : readOpen s f off = true) (hm : outsideMailbox off) (hn : readWidth f off ≠ 4) (ha : off % 4 = 0)
    (hw : readWidth f (off / 8 * 8) = 8) :
    bar0Read s f off 4 = regRead s f (off / 8 * 8) / 2 ^ (8 * (off % 8)) % 2 ^ 32 := by
  rw [bar0Read_of_open ho hm, if_neg fun h => hn h.1.symm, if_pos ⟨rfl, ha, hw⟩]

/-- A width that the register does not have, and that is not a half of one, reads as zero. -/
theorem bar0Read_other_width (ho : readOpen s f off = true) (hm : outsideMailbox off) (hw : readWidth f off ≠ w)
    (h4 : w ≠ 4 ∨ readWidth f (off / 8 * 8) ≠ 8) : bar0Read s f off w = 0 := by
  rw [bar0Read_of_open ho hm, if_neg fun h => hw h.1.symm, if_neg fun ⟨h, _, h8⟩ => h4.elim (· h) (· h8)]

/-- Where the registers that a read can reach hold zero, it answers zero at every width. -/
theorem bar0Read_of_regRead_zero (ho : readOpen s f off = true) (hm : outsideMailbox off) (h1 : regRead s f off = 0)
    (h2 : regRead s f (off / 8 * 8) = 0) : bar0Read s f off w = 0 := by
  simp only [bar0Read_of_open ho hm, h1, h2, Nat.zero_div, Nat.zero_mod, ite_self]

/-! ## The common block -/

/-- Widths of a queue's registers in the management BAR, by offset. -/
def queueWidths : List (Nat × Nat) := [(0x00, 8), (0x08, 4), (0x0C, 4), (0x10, 4), (0x14, 4), (0x18, 4)]

theorem regRead_queue (hq : q < 1024) (ho : o < 32) : regRead s f (32 * q + o) = queueRead s f q o := by
  have hlt : 32 * q + o < 0x8000 := by omega
  have hdiv : (32 * q + o) / 32 = q := by omega
  have hmod : (32 * q + o) % 32 = o := by omega
  simp only [regRead, hlt, if_true, hdiv, hmod]

theorem readWidth_queue (hq : q < 1024) (ho : o < 32) : readWidth f (32 * q + o) = tabGet 0 queueWidths o := by
  have hlt : 32 * q + o < 0x8000 := by omega
  have hmod : (32 * q + o) % 32 = o := by omega
  have hall : ∀ o < 32, (if tabGet 0 [(0, 8), (8, 4), (0x10, 4), (0x18, 4)] o ≠ 0 then tabGet 0 [(0, 8), (8, 4), (0x10, 4), (0x18, 4)] o
      else if o = 0x0C ∨ o = 0x14 then 4 else 0) = tabGet 0 queueWidths o := by decide
  simp only [readWidth, regWidth, hlt, if_true, hmod, hall o ho]

theorem queueRead_of_not_owner (h : (getQueue s q).owner ≠ f) : queueRead s f q o = 0 := by simp [queueRead, h]

theorem regRead_xing (hn : n < 4096) (ho : o < 8) : regRead s f (0x8000 + 8 * n + o) = xingRead s f n o := by
  have hge : ¬ 0x8000 + 8 * n + o < 0x8000 := by omega
  have hlt : 0x8000 + 8 * n + o < 0x10000 := by omega
  have hdiv : (0x8000 + 8 * n + o - 0x8000) / 8 = n := by omega
  have hmod : (0x8000 + 8 * n + o) % 8 = o := by omega
  simp only [regRead, hge, hlt, if_true, if_false, hdiv, hmod]

theorem readWidth_xing (hn : n < 4096) (ho : o < 8) : readWidth f (0x8000 + 8 * n + o) = if o = 0 ∨ o = 4 then 4 else 0 := by
  have hge : ¬ 0x8000 + 8 * n + o < 0x8000 := by omega
  have hlt : 0x8000 + 8 * n + o < 0x10000 := by omega
  have hmod : (0x8000 + 8 * n + o) % 8 = o := by omega
  simp only [readWidth, regWidth, hge, hlt, if_true, if_false, hmod]
  by_cases h0 : o = 0
  · simp [h0]
  · simp [h0]

theorem xingRead_of_not_owner (h : (getXing s n).owner ≠ f) : xingRead s f n o = 0 := by simp [xingRead, h]

/-! ## A function's own block, and CFREE -/

theorem blockOf_own (f : Nat) (ho : o < 0x10000) : blockOf f (0x10000 + o) = some (f, o) := by
  have hlt : 0x10000 + o < 0x20000 := by omega
  simp [blockOf, hlt]

theorem regRead_block (ho : o < 0x10000) : regRead s f (0x10000 + o) = blockRead s f o := by
  have h1 : ¬ 0x10000 + o < 0x8000 := by omega
  have h2 : ¬ 0x10000 + o < 0x10000 := by omega
  simp only [regRead, h1, h2, if_false, blockOf_own f ho]

/-- Below the page-request slots, the width is that of the block's own tables. -/
theorem readWidth_block (ho : o < 0x1000) :
    readWidth f (0x10000 + o) = if tabGet 0 blockRegs o ≠ 0 then tabGet 0 blockRegs o else tabGet 0 blockReads o := by
  have h1 : ¬ 0x10000 + o < 0x8000 := by omega
  have h2 : ¬ 0x10000 + o < 0x10000 := by omega
  have h3 : ¬ (0x1000 ≤ o ∧ o < 0x1800) := by omega
  simp only [readWidth, regWidth, h1, h2, h3, if_false, blockOf_own f (show o < 0x10000 by omega)]

theorem blockOf_cfree (f : Nat) (hc : c < 192) : blockOf f (0x125000 + 8 * c) = none := by
  have h1 : ¬ 0x125000 + 8 * c < 0x20000 := by omega
  have h2 : ¬ 0x1000000 ≤ 0x125000 + 8 * c := by omega
  simp [blockOf, h1, h2]

theorem tabFind_of_unlisted {α : Type} {t : List (Nat × α)} {a : Nat} (h : ∀ e ∈ t, a ≠ e.1) : tabFind t a = none := by
  induction t with
  | nil => rfl
  | cons e t ih =>
    rw [List.forall_mem_cons] at h
    simp [tabFind, h.1, ih h.2]

theorem rowIndex_of_outside {r : Nat × Nat × Nat × Nat} (h : off < r.1 ∨ r.1 + r.2.1 * r.2.2.1 ≤ off) : rowIndex r off = none :=
  if_neg fun ⟨hlo, hhi, _⟩ => h.elim (by omega) (by omega)

/-- No register that can be written stands among the free records. -/
theorem regWidth_cfree (f : Nat) (hc : c < 192) : regWidth f (0x125000 + 8 * c) = 0 := by
  have h1 : ¬ 0x125000 + 8 * c < 0x8000 := by omega
  have h2 : ¬ 0x125000 + 8 * c < 0x10000 := by omega
  have hreg : tabFind physRegs (0x125000 + 8 * c) = none := by
    have hgap : ∀ e ∈ physRegs, e.1 < 0x125000 ∨ 0x125600 ≤ e.1 := by decide
    exact tabFind_of_unlisted fun e he => (hgap e he).elim (by omega) (by omega)
  have hrow : (physRows.find? fun r => (rowIndex r (0x125000 + 8 * c)).isSome) = none := by
    have hgap : ∀ r ∈ physRows, r.1 + r.2.1 * r.2.2.1 ≤ 0x125000 ∨ 0x125600 ≤ r.1 := by decide
    refine List.find?_eq_none.mpr fun r hr => ?_
    rw [rowIndex_of_outside ((hgap r hr).elim (fun h => .inr (by omega)) fun h => .inl (by omega))]
    decide
  simp [regWidth, h1, h2, blockOf_cfree f hc, hreg, hrow]

theorem readWidth_cfree (f : Nat) (hc : c < 192) : readWidth f (0x125000 + 8 * c) = if f = 0 then 8 else 0 := by
  have h1 : ¬ 0x125000 + 8 * c < 0x8000 := by omega
  have h2 : ¬ 0x125000 + 8 * c < 0x10000 := by omega
  have hin : 0x125000 ≤ 0x125000 + 8 * c ∧ 0x125000 + 8 * c < 0x125000 + 8 * Config.cores ∧ (0x125000 + 8 * c) % 8 = 0 := by
    simp only [Config.cores]
    omega
  simp [readWidth, regWidth_cfree f hc, h1, h2, blockOf_cfree f hc, hin]

theorem regRead_cfree (hc : c < 192) : regRead s 0 (0x125000 + 8 * c) = cfree s c := by
  have h1 : ¬ 0x125000 + 8 * c < 0x8000 := by omega
  have h2 : ¬ 0x125000 + 8 * c < 0x10000 := by omega
  have hin : 0x125000 ≤ 0x125000 + 8 * c ∧ 0x125000 + 8 * c < 0x125000 + 8 * Config.cores := by
    simp only [Config.cores]
    omega
  simp [regRead, h1, h2, blockOf_cfree 0 hc, hin]

theorem bar0Read_cfree (ho : readOpen s 0 (0x125000 + 8 * c) = true) (hc : c < 192) : bar0Read s 0 (0x125000 + 8 * c) 8 = cfree s c := by
  rw [bar0Read_whole ho (.inr (by omega)) ((readWidth_cfree 0 hc).trans (if_pos rfl)) (by omega) (by decide), regRead_cfree hc]

/-! ## What the clauses of the statement say -/

variable (hopen : ∀ off, readOpen s f off = true)
include hopen

/-- All reads at offset `o` of queue `q`'s registers answer zero to a function that does not own it. -/
theorem bar0Read_other_queue (hq : q < 1024) (ho : o < 32) (hne : (getQueue s q).owner ≠ f) :
    bar0Read s f (32 * q + o) w = 0 := by
  have hword : (32 * q + o) / 8 * 8 = 32 * q + o / 8 * 8 := by omega
  refine bar0Read_of_regRead_zero (hopen _) (.inl (by omega)) ?_ ?_
  · rw [regRead_queue hq ho, queueRead_of_not_owner hne]
  · rw [hword, regRead_queue hq (by omega), queueRead_of_not_owner hne]

theorem bar0Read_other_xing (hn : n < 4096) (ho : o < 8) (hne : (getXing s n).owner ≠ f) :
    bar0Read s f (0x8000 + 8 * n + o) w = 0 := by
  have hword : (0x8000 + 8 * n + o) / 8 * 8 = 0x8000 + 8 * n + 0 := by omega
  refine bar0Read_of_regRead_zero (hopen _) (.inl (by omega)) ?_ ?_
  · rw [regRead_xing hn ho, xingRead_of_not_owner hne]
  · rw [hword, regRead_xing hn (by omega), xingRead_of_not_owner hne]

/-- A queue's register, read by an aligned access of its own width. -/
theorem bar0Read_queue (hq : q < 1024) (ho : o < 32) (hw : tabGet 0 queueWidths o = w)
    (ha : (32 * q + o) % w = 0) (h0 : w ≠ 0) : bar0Read s f (32 * q + o) w = queueRead s f q o := by
  rw [bar0Read_whole (hopen _) (.inl (by omega)) ((readWidth_queue hq ho).trans hw) ha h0, regRead_queue hq ho]

/-- QRING by halves: the lower at offset 0, the upper at offset 4. -/
theorem bar0Read_qring_half (hq : q < 1024) (ho : o = 0 ∨ o = 4) :
    bar0Read s f (32 * q + o) 4 = queueRead s f q 0 / 2 ^ (8 * o) % 2 ^ 32 := by
  have hword : (32 * q + o) / 8 * 8 = 32 * q + 0 := by omega
  have hbyte : (32 * q + o) % 8 = o := by omega
  have hn : readWidth f (32 * q + o) ≠ 4 := by
    rw [readWidth_queue hq (by omega)]
    obtain rfl | rfl := ho <;> decide
  rw [bar0Read_half (hopen _) (.inl (by omega)) hn (by omega) (by rw [hword, readWidth_queue hq (by omega)]; rfl),
    hword, hbyte, regRead_queue hq (by omega)]

theorem bar0Read_xing (hn : n < 4096) (ho : o = 0 ∨ o = 4) :
    bar0Read s f (0x8000 + 8 * n + o) 4 = xingRead s f n o := by
  have hw : readWidth f (0x8000 + 8 * n + o) = 4 := by rw [readWidth_xing hn (by omega), if_pos ho]
  rw [bar0Read_whole (hopen _) (.inl (by omega)) hw (by omega) (by decide), regRead_xing hn (by omega)]

/-- An owner reads its queue's registers; QRING whole or by halves, and zero by a width that it does not have (R299). -/
theorem bar0Read_own_queue (hq : q < 1024) (he : (getQueue s q).owner = f) :
    bar0Read s f (32 * q) 8 = (getQueue s q).qring.toNat ∧
      bar0Read s f (32 * q) 4 = (getQueue s q).qring.toNat % 2 ^ 32 ∧
      bar0Read s f (32 * q + 4) 4 = (getQueue s q).qring.toNat / 2 ^ 32 ∧ bar0Read s f (32 * q) 2 = 0 ∧
      bar0Read s f (32 * q + 0x0C) 4 = (getQueue s q).qhead.toNat ∧ bar0Read s f (32 * q + 0x14) 4 = qstatWord (getQueue s q) := by
  have hring : queueRead s f q 0 = (getQueue s q).qring.toNat := by simp [queueRead, he]
  have hlow := bar0Read_qring_half hopen hq (.inl rfl)
  have hupp := bar0Read_qring_half hopen hq (.inr rfl)
  have hlt : (getQueue s q).qring.toNat / 2 ^ 32 < 2 ^ 32 := by have := (getQueue s q).qring.isLt; omega
  have hw : readWidth f (32 * q) = 8 := readWidth_queue (o := 0) hq (by decide)
  refine ⟨?_, ?_, ?_, ?_, ?_, ?_⟩
  · rw [← hring]
    exact bar0Read_queue (o := 0) hopen hq (by decide) rfl (by omega) (by decide)
  · simpa [hring] using hlow
  · rw [hupp, hring, Nat.mod_eq_of_lt hlt]
  · exact bar0Read_other_width (hopen _) (.inl (by omega)) (by simp [hw]) (.inl (by decide))
  · rw [bar0Read_queue (o := 0x0C) (w := 4) hopen hq (by decide) rfl (by omega) (by decide)]
    simp [queueRead, he]
  · rw [bar0Read_queue (o := 0x14) (w := 4) hopen hq (by decide) rfl (by omega) (by decide)]
    simp [queueRead, he]

theorem bar0Read_own_xing (hn : n < 4096) (he : (getXing s n).owner = f) :
    bar0Read s f (0x8000 + 8 * n) 4 = xcfgWord (getXing s n) ∧ bar0Read s f (0x8000 + 8 * n + 4) 4 = (getXing s n).tokens.toNat := by
  constructor
  · refine (bar0Read_xing hopen hn (.inl rfl)).trans ?_
    simp [xingRead, he]
  · rw [bar0Read_xing hopen hn (.inr rfl)]
    simp [xingRead, he]

theorem bar0Read_ptab : bar0Read s f 0x10008 8 = (getFunc s f).ptab.toNat := by
  have hw : readWidth f 0x10008 = 8 := readWidth_block (o := 8) (by decide)
  rw [bar0Read_whole (hopen _) (.inl (by decide)) hw (by decide) (by decide)]
  exact regRead_block (o := 8) (by decide)

/-- No register stands at offset 0x20 of a function's own block. -/
theorem bar0Read_block_hole : bar0Read s f 0x10020 4 = 0 := by
  have hw : readWidth f 0x10020 = 0 := readWidth_block (o := 0x20) (by decide)
  exact bar0Read_other_width (hopen _) (.inl (by decide)) (by simp [hw]) (.inr (by simp [hw]))

/-- The free records stand in the physical function's BAR alone (R58). -/
theorem bar0Read_cfree_virtual (hc : c < 192) (hf : f ≠ 0) :
    bar0Read s f (0x125000 + 8 * c) 8 = 0 :=
  bar0Read_other_width (hopen _) (.inr (by omega)) (by simp [readWidth_cfree f hc, hf]) (.inl (by decide))

end

/-- Settles O56: a read is closed, or it reaches the register at its offset whole, by halves or not at all, clause by clause. -/
theorem registerReads : Obligations.RegisterReads := by
  intro s f q n c o w hs hf hq hn hc
  refine ⟨fun h => ⟨bar0Read_of_not_open (readOpen_of_not_enabled o h), bar2Read_of_not_enabled h⟩, fun he => ?_,
    bar0Read_cfree (readOpen_of_running _ hs (by decide) (Nat.zero_le _)) hc⟩
  have hopen : ∀ off, readOpen s f off = true := fun off => readOpen_of_running off hs hf he
  exact ⟨fun hne ho => bar0Read_other_queue hopen hq ho hne, bar0Read_own_queue hopen hq,
    fun hne ho => bar0Read_other_xing hopen hn ho hne, bar0Read_own_xing hopen hn, bar0Read_ptab hopen, bar0Read_block_hole hopen,
    bar0Read_cfree_virtual hopen hc⟩

end Sys2Proof.Machine
end

section
/-! SUPPORT. Launches by threads (R382 to R384): what the hand-over of a child makes, and the statement LaunchWords. -/

namespace Sys2Proof.Machine

/-! ## Operands that can be read -/

theorem readOp_of_opVal {c : Ctx} {l x : Nat} {t : Ty} {a : Spec} (h : opVal c l t a = some x) : readOp c l t a = .ok x := by
  unfold opVal at h
  cases hr : readOp c l t a with
  | ok y => rw [hr] at h; cases h; rfl
  | error k => rw [hr] at h; cases h

theorem readUni_of_opVal {c : Ctx} {x : Nat} {t : Ty} {a : Spec} (h : opVal c 0 t a = some x) : readUni c t a = x := by
  simp [readUni, readOp_of_opVal h]

theorem readAddr_of_opVal {c : Ctx} {l x : Nat} {a : Spec} (h : opVal c l .n64 a = some x) : readAddr c l a = .ok (BitVec.ofNat 64 x) := by
  simp [readAddr, readOp_of_opVal h, Except.map]

/-! ## LAUNCH -/

/-- The lanes for which a LAUNCH hands a record over: every active one, or the lowest for a uniform address (R156, R382). -/
def launchLanes (c : Ctx) (a : Spec) : List Nat :=
  if (match a with | .s _ => true | _ => false) then (lanesOf c.active).take 1 else lanesOf c.active

/-- The record that a lane of a LAUNCH names. -/
def launchRec (c : Ctx) (a : Spec) (l : Nat) : Nat × DWord := (l, BitVec.ofNat 64 ((opVal c l .n64 a).getD 0))

theorem mem_launchLanes {c : Ctx} {a : Spec} {l : Nat} (h : l ∈ launchLanes c a) : l ∈ lanesOf c.active := by
  unfold launchLanes at h
  split at h
  · exact List.mem_of_mem_take h
  · exact h

theorem launchLanes_ne_nil {c : Ctx} (a : Spec) (h : c.active ≠ 0) : launchLanes c a ≠ [] := by
  have hne : lanesOf c.active ≠ [] := fun h0 => h ((lanesOf_eq_nil _).1 h0)
  unfold launchLanes
  split
  · simpa using hne
  · exact hne

/-- A lane's address names a record that a LAUNCH may hand over: aligned and global (R382). -/
def NamesRecord (c : Ctx) (a : Spec) (l : Nat) : Prop :=
  ∃ x, opVal c l .n64 a = some x ∧ x < 2 ^ 64 ∧ x % 128 = 0 ∧ isGlobal (BitVec.ofNat 64 x) = true

/-- What a LAUNCH adds for one lane: its record, or the cause that the lane raises (R382). -/
def launchStep (c : Ctx) (a : Spec) (r : List (Nat × DWord) × List Raise) (l : Nat) : List (Nat × DWord) × List Raise :=
  match readAddr c l a with
  | .error k => (r.1, r.2 ++ [⟨l, k, c.pc, 0, 0, 0⟩])
  | .ok va =>
    if va.toNat % 128 ≠ 0 || !isGlobal va then (r.1, r.2 ++ [⟨l, cACV, c.pc, va, 0, 0⟩])
    else if 11 ≤ c.l.depth + 1 then (r.1, r.2 ++ [⟨l, cDEP, c.pc, 0, 0, 0⟩])
    else (r.1 ++ [(l, va)], r.2)

/-- LAUNCH collects its lanes' records and hands them over, unless every lane raises a cause. -/
theorem exec_launch_eq (h : Hdr) (a : Spec) (s : State) :
    exec (.launch h a) s = onceWord (.launch h a) s fun c s =>
      let r := (launchLanes c a).foldl (launchStep c a) ([], [])
      let done := c.active &&& ~~~(lanesMask (r.2.map (·.lane)))
      if r.1.isEmpty then closeWord (.launch h a) c s done [] r.2
      else
        let q := handRecs s c.gk r.1
        closeWord (.launch h a) c (setGroup q.1 c.gk (pushOut (getGroup q.1 c.gk) c.pc c.next c.active (.launch q.2 s.now) [])) done [] r.2 :=
  rfl

theorem launchStep_ok {c : Ctx} {a : Spec} {l : Nat} (hd : c.l.depth < 10) (h : NamesRecord c a l) (r : List (Nat × DWord) × List Raise) :
    launchStep c a r l = (r.1 ++ [launchRec c a l], r.2) := by
  obtain ⟨x, hv, hlt, hal, hg⟩ := h
  have hx : (BitVec.ofNat 64 x).toNat = x := by rw [BitVec.toNat_ofNat, Nat.mod_eq_of_lt hlt]
  simp only [launchStep, readAddr_of_opVal hv, hx]
  rw [if_neg (by simp [hal, hg]), if_neg (by omega)]
  simp [launchRec, hv]

/-- Lanes whose addresses all name records raise no cause. -/
theorem launchSteps_ok {c : Ctx} {a : Spec} (hd : c.l.depth < 10) (ls : List Nat) (h : ∀ l ∈ ls, NamesRecord c a l)
    (r : List (Nat × DWord) × List Raise) : ls.foldl (launchStep c a) r = (r.1 ++ ls.map (launchRec c a), r.2) := by
  induction ls generalizing r with
  | nil => simp
  | cons l ls ih =>
    rw [List.foldl_cons, launchStep_ok hd (h l (by simp)), ih fun k hk => h k (List.mem_cons_of_mem _ hk)]
    simp

theorem exec_launch_ok {s : State} {u : Issue} {h : Hdr} {a : Spec} (ha : ActsOnce s u (.launch h a))
    (hd : (launchOf s u.gkey).depth < 10) (hn : ∀ l, OnLane s u (.launch h a) l → NamesRecord (ctxOf s u (.launch h a)) a l) :
    let c := ctxOf s u (.launch h a)
    let q := handRecs s u.gkey ((launchLanes c a).map (launchRec c a))
    exec (.launch h a) s = .next (passedIn q.1 s u (.launch h a)
      (pushOut (getGroup q.1 u.gkey) u.pc c.next c.active (.launch q.2 s.now) [])) := by
  intro c q
  have hf := launchSteps_ok (a := a) (c := c) hd (launchLanes c a) (fun l hl => hn l (mem_launchLanes hl)) ([], [])
  have hne : ((launchLanes c a).map (launchRec c a)).isEmpty = false := by
    simpa using launchLanes_ne_nil a ha.2
  have hall : c.active &&& ~~~(lanesMask (([] : List Raise).map (·.lane))) = c.active := BitVec.and_allOnes
  rw [exec_launch_eq, onceWord_acts _ ha.1 ha.2]
  simp only [c] at hf hne hall
  simp only [hf, List.nil_append, hne, hall]
  exact congrArg Host.Outcome.next (closeWord_ok _ c q.1 _ _)

/-! ## GRAPHRUN -/

theorem exec_graphrun_ok {s : State} {u : Issue} {h : Hdr} {g n : Spec} {x y : Nat} (ha : ActsOnce s u (.graphrun h g n))
    (hx : uniVal s u (.graphrun h g n) .n32 g = some x) (hy : uniVal s u (.graphrun h g n) .n32 n = some y) (hlt : x ≤ 1023)
    (hown : (getGraph s x).gown = (launchOf s u.gkey).func) :
    exec (.graphrun h g n) s = .next (passedIn (setGraph s x (addRuns (getGraph s x) (y % 256))) s u (.graphrun h g n)
      (queued s u (.graphrun h g n) (.result [] []) [])) := by
  have htrig : gtrigStore s (launchOf s u.gkey).func x (BitVec.ofNat 64 y) = setGraph s x (addRuns (getGraph s x) (y % 256)) := by
    have hg : x < Config.graphs := Nat.lt_succ_of_le hlt
    simp [gtrigStore, hg, hown]
  rw [exec_graphrun, execGraphrun, onceWord_acts _ ha.1 ha.2]
  have hc : (ctxOf s u (.graphrun h g n)).l = launchOf s u.gkey := rfl
  simp only [readUni_of_opVal hx, readUni_of_opVal hy, hc]
  rw [if_neg (by omega), if_neg (by simp [hown]), htrig]
  exact congrArg Host.Outcome.next (closeWord_ok _ (ctxOf s u (.graphrun h g n)) _ _ _)

/-! ## Children -/

/-- The launch that enters the front end as a child, before what a replay or the end of its parent's grid adds. -/
def childOf (s : State) (k l : Nat) (a : DWord) : Launch :=
  let lk := (getTeam s (getGroup s k).team).launch
  let p := getLaunch s lk
  { launchReset with
    origin := .thread lk (getGroup s k).team (threadNo (getGroup s k) l), func := p.func, pasid := p.pasid, pri := p.pri
    depth := p.depth + 1, det := p.det, recAddr := a, order := s.uid }

/-- A child takes the next number. -/
theorem handChild_uid (s : State) (k l : Nat) (a : DWord) : (handChild s k l a).1.uid = s.uid + 1 := by
  simp only [handChild, handLaunch, updTeam_eq, updLaunch_eq]
  split <;> split <;> rfl

/-- The parent's grid counts one more live child. -/
theorem handChild_parent (s : State) (k l : Nat) (a : DWord) (h : (getTeam s (getGroup s k).team).launch ≠ s.uid) :
    let lk := (getTeam s (getGroup s k).team).launch
    getLaunch (handChild s k l a).1 lk = { getLaunch s lk with childLive := (getLaunch s lk).childLive + 1 } := by
  simp only [handChild, handLaunch, updTeam_eq, updLaunch_eq, getLaunch_setLaunch_same]
  split <;> split <;> simp [getLaunch, tabGet_tabPut, h]

/-- The parent's thread counts one more child. -/
theorem handChild_children (s : State) (k l : Nat) (a : DWord) :
    let g := getGroup s k
    tabGet 0 (getTeam (handChild s k l a).1 g.team).children (threadNo g l) = tabGet 0 (getTeam s g.team).children (threadNo g l) + 1 := by
  simp only [handChild, handLaunch, updTeam_eq, updLaunch_eq, getTeam_setLaunch]
  split <;> split <;> simp [tabUpd, getTeam]

/-- A child enters under the next number; of its record's fields only what a replay or the end of its parent's grid adds differs. -/
theorem handChild_child (s : State) (k l : Nat) (a : DWord) (h : (getTeam s (getGroup s k).team).launch ≠ s.uid) :
    ∃ x, getLaunch (handChild s k l a).1 s.uid = x ∧
      x = { childOf s k l a with replay := x.replay, path := x.path, fate := x.fate, unplaced := x.unplaced } := by
  refine ⟨_, rfl, ?_⟩
  simp only [handChild, handLaunch, updTeam_eq, updLaunch_eq]
  rw [getLaunch_setLaunch_other _ _ _ _ (Ne.symm h)]
  split <;> split <;> simp [childOf, getLaunch, setLaunch, setTeam, endWith]

/-- Settles O45: LAUNCH and GRAPHRUN close as words whose lanes all complete, and a child is entered field by field. -/
theorem launchWords : Obligations.LaunchWords := by
  refine ⟨fun s u h => ⟨?_, ?_⟩, ?_⟩
  · rintro _ a _ _ rfl ha hd hn rfl rfl
    exact exec_launch_ok ha hd hn
  · rintro _ g n x y rfl ha hx hy hlt hown
    exact exec_graphrun_ok ha hx hy hlt hown
  · intro s k l a lk p r hlk
    obtain ⟨x, hx, hc⟩ := handChild_child s k l a hlk
    rw [hx, hc]
    exact ⟨rfl, handChild_uid s k l a, rfl, rfl, rfl, rfl, rfl, rfl, rfl, rfl, handChild_parent s k l a hlk, handChild_children s k l a⟩

end Sys2Proof.Machine
end

section
/-! SUPPORT. Acceptance of launches and retirement of grids (R25, R26, R29, R42, R415): what a retirement leaves alone, the bytes of a
write at system scope, and the statement GridLife. -/

namespace Sys2Proof.Machine

/-! ## Tables -/

theorem tabFind_filter_ne {α : Type} (t : List (Nat × α)) (a : Nat) : tabFind (t.filter fun e => e.1 != a) a = none := by
  refine tabFind_of_unlisted fun e he => ?_
  have h := (List.mem_filter.1 he).2
  simp only [bne_iff_ne] at h
  exact Ne.symm h

/-! ## Bytes written at system scope -/

/-- One byte of a write at system scope (R438). -/
def sysPutByte (s : State) (a : Nat) (b : Byte) : State := if hostBacked a then hostPut s a b else l2Put s a b

theorem sysPut_eq (s : State) (pa : Nat) (bs : List Byte) : sysPut s pa bs =
    (List.range bs.length).foldl (fun s i => sysPutByte s (pa + i) (bs.getD i 0))
      (acqAddAll s ((List.range ((pa % 64 + bs.length + 63) / 64)).map fun i => pa / 64 * 64 + 64 * i)) := rfl

theorem hostPut_mem (s : State) (a : Nat) (b : Byte) : (hostPut s a b).mem = memWrite s.mem a b := by
  unfold hostPut; rw [noteWrite_frame]

theorem hostPut_l2 (s : State) (a : Nat) (b : Byte) :
    (hostPut s a b).l2 = if (tabFind s.l2 a).isSome then tabPut s.l2 a (false, b) else s.l2 := by
  unfold hostPut
  rw [noteWrite_frame]
  dsimp only
  cases tabFind s.l2 a <;> rfl

theorem l2Put_mem (s : State) (a : Nat) (b : Byte) : (l2Put s a b).mem = s.mem := by
  unfold l2Put; rw [noteWrite_frame]

theorem l2Put_l2 (s : State) (a : Nat) (b : Byte) : (l2Put s a b).l2 = tabPut s.l2 a (true, b) := by
  unfold l2Put; rw [noteWrite_frame]

/-- A byte written at system scope reads as written, at the host or at L2. -/
theorem sysByte_sysPutByte_same (s : State) (a : Nat) (b : Byte) : sysByte (sysPutByte s a b) a = b := by
  cases h : hostBacked a with
  | true =>
    simp only [sysByte, sysPutByte, h, if_true, hostPut_mem, hostPut_l2, memRead_memWrite_same]
    cases hl : tabFind s.l2 a with
    | none => simp [hl]
    | some e => simp [tabFind_tabPut_same]
  | false => simp [sysByte, sysPutByte, h, l2Byte, l2Put_l2, tabFind_tabPut_same]

theorem sysByte_sysPutByte_other (s : State) {a c : Nat} (b : Byte) (hne : c ≠ a) : sysByte (sysPutByte s a b) c = sysByte s c := by
  have hl : tabFind (sysPutByte s a b).l2 c = tabFind s.l2 c := by
    unfold sysPutByte
    split
    · rw [hostPut_l2]
      split
      · exact tabFind_tabPut_other _ _ _ _ hne
      · rfl
    · rw [l2Put_l2]; exact tabFind_tabPut_other _ _ _ _ hne
  have hm : memRead (sysPutByte s a b).mem c = memRead s.mem c := by
    unfold sysPutByte
    split
    · rw [hostPut_mem]; exact memRead_memWrite_other _ _ _ _ hne
    · rw [l2Put_mem]
  simp only [sysByte, l2Byte, hl, hm]

/-- After a write at system scope each of its bytes reads as written. -/
theorem sysByte_sysPut (s : State) (pa : Nat) (bs : List Byte) {i : Nat} (hi : i < bs.length) :
    sysByte (sysPut s pa bs) (pa + i) = bs.getD i 0 := by
  have key : ∀ n (z : State), i < n →
      sysByte ((List.range n).foldl (fun s i => sysPutByte s (pa + i) (bs.getD i 0)) z) (pa + i) = bs.getD i 0 := by
    intro n z
    induction n with
    | zero => intro h; omega
    | succ n ih =>
      intro h
      rw [List.range_succ, List.foldl_append, List.foldl_cons, List.foldl_nil]
      rcases Nat.lt_or_eq_of_le (Nat.lt_succ_iff.1 h) with hlt | rfl
      · rw [sysByte_sysPutByte_other _ _ (by omega), ih hlt]
      · exact sysByte_sysPutByte_same _ _ _
  rw [sysPut_eq]
  exact key _ _ hi

/-! ## What a retirement leaves alone -/

/-- Launches, queues, crossings, graphs and teams change: what the end of a launch can give back. -/
def RetireFrame (s t : State) : Prop :=
  t = { s with launches := t.launches, queues := t.queues, xings := t.xings, graphs := t.graphs, teams := t.teams }

theorem RetireFrame.refl (s : State) : RetireFrame s s := rfl
theorem RetireFrame.trans {a b c : State} (h : RetireFrame a b) (k : RetireFrame b c) : RetireFrame a c := by
  unfold RetireFrame at *; exact k.trans (by rw [h])

theorem RetireFrame.sysByte {s t : State} (h : RetireFrame s t) (pa : Nat) : sysByte t pa = sysByte s pa := by
  unfold RetireFrame at h; rw [h]; rfl
theorem RetireFrame.pcie {s t : State} (h : RetireFrame s t) : t.pcie = s.pcie := by
  unfold RetireFrame at h; rw [h]

theorem RetireFrame.graphs (s : State) (l : List (Nat × Graph)) : RetireFrame s { s with graphs := l } := rfl

theorem packetRetire_frame (s : State) (p : Option (Nat × Nat)) : RetireFrame s (packetRetire s p) := by
  cases p <;> rfl

theorem runDone_frame (s : State) (g : Nat) : RetireFrame s (runDone s g) := by
  unfold runDone
  dsimp only
  split
  · split
    · exact RetireFrame.trans (b := setGraph s g _) rfl (packetRetire_frame _ _)
    · exact .refl s
  · exact .refl s

theorem sendAlong_frame (s : State) (g : Nat) (es : List (Nat × Bool)) (run : Bool) : RetireFrame s (sendAlong s g es run) :=
  foldl_rel RetireFrame.refl RetireFrame.trans (fun s _ => RetireFrame.graphs s _) es s

theorem retireOrigin_frame (s : State) (lk : Nat) : RetireFrame s (retireOrigin s lk) := by
  unfold retireOrigin
  split
  · dsimp only
    split
    · exact packetRetire_frame _ _
    · exact (packetRetire_frame s _).trans rfl
  · refine RetireFrame.trans ?_ (runDone_frame _ _)
    split
    · rfl
    · exact (RetireFrame.graphs _ _).trans (sendAlong_frame _ _ _ _)
  · dsimp only
    split <;> rfl

theorem dropLaunch_frame (s : State) (lk : Nat) : RetireFrame s (dropLaunch s lk) :=
  RetireFrame.trans (b := updLaunch s lk fun l => { l with stage := .retired }) rfl
    ((retireOrigin_frame _ lk).trans rfl)

theorem noteFailed_frame (label : DWord) (fuel : Nat) (s : State) (lk : Nat) : RetireFrame s (noteFailed s label fuel lk) := by
  induction fuel generalizing s lk with
  | zero => exact .refl s
  | succ n ih =>
    unfold noteFailed
    split
    · exact RetireFrame.trans (b := updLaunch s _ _) rfl (ih _ _)
    · exact .refl s

/-- A launch that no thread submitted has no ancestor. -/
theorem noteFailed_of_not_thread {s : State} {lk : Nat} (label : DWord) (fuel : Nat)
    (h : ∀ p tm th, (getLaunch s lk).origin ≠ .thread p tm th) : noteFailed s label fuel lk = s := by
  cases fuel with
  | zero => rfl
  | succ n =>
    unfold noteFailed
    split
    · next heq => exact absurd heq (h _ _ _)
    · rfl

/-- A launch that is dropped is listed no more. -/
theorem dropLaunch_unlisted (s : State) (lk : Nat) : tabFind (dropLaunch s lk).launches lk = none := tabFind_filter_ne _ _

theorem addTokens_tokens (s : State) (x n : Nat) :
    (getXing (addTokens s x n) x).tokens = BitVec.ofNat 32 (min ((getXing s x).tokens.toNat + n) (2 ^ 32 - 1)) := by
  simp [addTokens]

theorem retireOrigin_packet {s : State} {lk q idx xing count : Nat} (h : (getLaunch s lk).origin = .packet q idx xing count) :
    retireOrigin s lk =
      if count = 0 then packetRetire s (some (q, idx)) else addTokens (packetRetire s (some (q, idx))) xing count := by
  simp only [retireOrigin, h]

/-- The packet of a launch that is dropped retires (R29). -/
theorem dropLaunch_open {s : State} {lk q idx xing count : Nat} (h : (getLaunch s lk).origin = .packet q idx xing count) :
    (getQueue (dropLaunch s lk) q).open' = (getQueue s q).open'.filter (fun i => i != idx) := by
  let z := updLaunch s lk fun l => { l with stage := .retired }
  have ho : (getLaunch z lk).origin = .packet q idx xing count := by simp [z, h]
  have hq : getQueue (dropLaunch s lk) q = getQueue (retireOrigin z lk) q := rfl
  rw [hq, retireOrigin_packet ho]
  have hw : (getQueue (packetRetire z (some (q, idx))) q).open' = (getQueue s q).open'.filter fun i => i != idx := by
    simp [z, packetRetire]
  split <;> exact hw

/-- The tokens of its packet are added (R42). -/
theorem dropLaunch_tokens {s : State} {lk q idx xing count : Nat} (h : (getLaunch s lk).origin = .packet q idx xing count) :
    (getXing (dropLaunch s lk) xing).tokens = BitVec.ofNat 32 (min ((getXing s xing).tokens.toNat + count) (2 ^ 32 - 1)) := by
  let z := updLaunch s lk fun l => { l with stage := .retired }
  have ho : (getLaunch z lk).origin = .packet q idx xing count := by simp [z, h]
  have hx : getXing (dropLaunch s lk) xing = getXing (retireOrigin z lk) xing := rfl
  rw [hx, retireOrigin_packet ho]
  by_cases hc : count = 0
  · have hlt := (getXing s xing).tokens.isLt
    have hm : min ((getXing s xing).tokens.toNat + count) (2 ^ 32 - 1) = (getXing s xing).tokens.toNat := by omega
    rw [if_pos hc, hm, BitVec.ofNat_toNat, BitVec.setWidth_eq]
    rfl
  · rw [if_neg hc]
    exact addTokens_tokens _ _ _

/-! ## The completion record, R415 -/

/-- The state in which a launch's TEND has been drawn: one of a deterministic launch needs none. -/
def timed (s : State) (lk : Nat) : State := if (getLaunch s lk).det then s else { s with fresh := s.fresh + 1 }

/-- The state with a launch's completion record written. -/
def recorded (s : State) (lk status pa : Nat) : State :=
  actsFor (timed s lk) lk fun z => sysPut z pa (completionBytes (getLaunch s lk) status (Config.clockAt s.fresh))

/-- A launch whose DONE can be written retires with its record, as a failed descendant of its ancestors unless its status is 0. -/
theorem retireLaunch_written {s : State} {lk status pa : Nat} (ha : (getLaunch s lk).done.toNat % 64 = 0)
    (hp : frontPlace (timed s lk) (getLaunch s lk).func (getLaunch s lk).pasid .write (getLaunch s lk).done.toNat = some pa) :
    retireLaunch s lk status true = dropLaunch
      (if status ≠ 0 then noteFailed (recorded s lk status pa) (getLaunch s lk).label 11 lk else recorded s lk status pa) lk := by
  unfold timed at hp
  simp only [retireLaunch]
  rw [if_neg (by simp [ha]), hp]
  rfl

theorem timed_fields (s : State) (lk : Nat) : timed s lk = { s with fresh := (timed s lk).fresh } := by
  unfold timed; split <;> rfl

theorem actsFor_cases (s : State) (lk : Nat) (f : State → State) :
    actsFor s lk f = f s ∨ actsFor s lk f = setActs (f (setActs s true)) s.obs.racts := by
  unfold actsFor; split
  · exact .inr rfl
  · exact .inl rfl

theorem WriteFrame.setActs (s : State) (b : Bool) : WriteFrame s (setActs s b) := rfl

@[simp] theorem sysByte_setActs (s : State) (b : Bool) (pa : Nat) : sysByte (setActs s b) pa = sysByte s pa := rfl

theorem recorded_frame (s : State) (lk status pa : Nat) : WriteFrame (timed s lk) (recorded s lk status pa) := by
  unfold recorded
  rcases actsFor_cases (timed s lk) lk fun z => sysPut z pa (completionBytes (getLaunch s lk) status (Config.clockAt s.fresh)) with h | h
  · rw [h]; exact sysPut_frame _ _ _
  · rw [h]; exact ((WriteFrame.setActs _ _).trans (sysPut_frame _ _ _)).trans (WriteFrame.setActs _ _)

/-- A completion record starts with its status (R415). -/
theorem completionBytes_head (l : Launch) (status : Nat) (tend : DWord) :
    0 < (completionBytes l status tend).length ∧ (completionBytes l status tend).getD 0 0 = BitVec.ofNat 8 status := by
  refine ⟨by simp [completionBytes, leBytes], ?_⟩
  show BitVec.ofNat 8 (status + (if l.dfail then 2 ^ 8 else 0) + (if l.replay then 2 ^ 9 else 0)) = _
  apply BitVec.eq_of_toNat_eq
  simp only [BitVec.toNat_ofNat]
  split <;> split <;> omega

theorem recorded_byte (s : State) (lk status pa : Nat) : sysByte (recorded s lk status pa) pa = BitVec.ofNat 8 status := by
  obtain ⟨hlen, hhead⟩ := completionBytes_head (getLaunch s lk) status (Config.clockAt s.fresh)
  have hbyte : ∀ z : State, sysByte (sysPut z pa (completionBytes (getLaunch s lk) status (Config.clockAt s.fresh))) pa = BitVec.ofNat 8 status :=
    fun z => (sysByte_sysPut z pa _ hlen).trans hhead
  unfold recorded
  rcases actsFor_cases (timed s lk) lk fun z => sysPut z pa (completionBytes (getLaunch s lk) status (Config.clockAt s.fresh)) with h | h
  · rw [h]; exact hbyte _
  · rw [h, sysByte_setActs]; exact hbyte _

/-- A launch that retires with a record is listed no more, and its record starts with its status. -/
theorem retireLaunch_left {s : State} {lk status pa : Nat} (ha : (getLaunch s lk).done.toNat % 64 = 0)
    (hp : frontPlace (timed s lk) (getLaunch s lk).func (getLaunch s lk).pasid .write (getLaunch s lk).done.toNat = some pa) :
    tabFind (retireLaunch s lk status true).launches lk = none ∧ sysByte (retireLaunch s lk status true) pa = BitVec.ofNat 8 status := by
  rw [retireLaunch_written ha hp]
  refine ⟨dropLaunch_unlisted _ _, ((dropLaunch_frame _ _).sysByte pa).trans ?_⟩
  split
  · exact ((noteFailed_frame _ _ _ _).sysByte pa).trans (recorded_byte _ _ _ _)
  · exact recorded_byte _ _ _ _

/-! ## Retirement of a grid, R29 -/

/-- A grid with nothing left that is not closing retires with its status. -/
theorem gridRetire_done {s : State} {lk : Nat} (hf : (tabFind s.launches lk).isSome) (hd : gridDone s lk = true)
    (hr : s.obs.rlaunch ≠ some lk) (hc : (getLaunch s lk).closing = false) :
    gridRetire s lk = retireLaunch s lk (getLaunch s lk).fate.toNat true := by
  have hdue : retireDue s lk = true := by simp [retireDue, hf, hd, hr]
  simp [gridRetire, hdue, hc]

theorem gridRetire_packet {s : State} {lk q idx xing count pa : Nat} (hf : (tabFind s.launches lk).isSome) (hd : gridDone s lk = true)
    (hr : s.obs.rlaunch ≠ some lk) (hc : (getLaunch s lk).closing = false) (ho : (getLaunch s lk).origin = .packet q idx xing count)
    (ha : (getLaunch s lk).done.toNat % 64 = 0)
    (hp : frontPlace (timed s lk) (getLaunch s lk).func (getLaunch s lk).pasid .write (getLaunch s lk).done.toNat = some pa) :
    let t := gridRetire s lk
    tabFind t.launches lk = none ∧ sysByte t pa = (getLaunch s lk).fate ∧
      (getQueue t q).open' = (getQueue s q).open'.filter (fun i => i != idx) ∧
      (getXing t xing).tokens = BitVec.ofNat 32 (min ((getXing s xing).tokens.toNat + count) (2 ^ 32 - 1)) ∧
      t.pcie.irqs = s.pcie.irqs := by
  intro t
  have ht : t = retireLaunch s lk (getLaunch s lk).fate.toNat true := gridRetire_done hf hd hr hc
  let z := recorded s lk (getLaunch s lk).fate.toNat pa
  have hz : z = { s with fresh := z.fresh, mem := z.mem, l2 := z.l2, cores := z.cores, acqs := z.acqs, obs := z.obs } := by
    have h : z = { timed s lk with mem := z.mem, l2 := z.l2, cores := z.cores, acqs := z.acqs, obs := z.obs } := recorded_frame _ _ _ _
    rw [timed_fields] at h
    rw [h]
  have hzl : getLaunch z lk = getLaunch s lk := by rw [hz]; rfl
  have hzo : (getLaunch z lk).origin = .packet q idx xing count := by rw [hzl, ho]
  have hd' : t = dropLaunch z lk := by
    rw [ht, retireLaunch_written ha hp, noteFailed_of_not_thread _ _ (by simp [show getLaunch (recorded s lk (getLaunch s lk).fate.toNat pa) lk = _ from hzl, ho])]
    split <;> rfl
  obtain ⟨hgone, hbyte⟩ := retireLaunch_left (status := (getLaunch s lk).fate.toNat) ha hp
  refine ⟨ht ▸ hgone, ht ▸ (by simpa using hbyte), ?_, ?_, ?_⟩
  · rw [hd', dropLaunch_open hzo, hz]; rfl
  · rw [hd', dropLaunch_tokens hzo, hz]; rfl
  · rw [hd', (dropLaunch_frame z lk).pcie, hz]

/-! ## Acceptance, R25 -/

/-- The fields of a launch that its checks may fill in, from its descriptor (R21, R24). -/
def DescFrame (l m : Launch) : Prop :=
  m = { l with entry := m.entry, handler := m.handler, vregs := m.vregs, sregs := m.sregs, accs := m.accs, scr := m.scr, nbhd := m.nbhd
               det := m.det, consts := m.consts, shape := m.shape }

theorem checkLaunch_frame (s : State) (l : Launch) : DescFrame l (checkLaunch s l).1 := by
  unfold checkLaunch
  split
  · rfl
  · split
    · rfl
    · dsimp only
      split
      · rfl
      · repeat' split
        all_goals rfl

/-- A launch as its record leaves it, before its checks. -/
def readLaunch (s : State) (lk r : Nat) : Launch :=
  { withRecord (getLaunch s lk) r with tstart := Config.clockAt s.fresh, stage := .accepted }

/-- The state in which a launch's record has been read. -/
def withRead (s : State) (lk r : Nat) : State := setLaunch { s with fresh := s.fresh + 1 } lk (readLaunch s lk r)

/-- DONE of a launch whose record has been read can be written (R26). -/
def DoneOk (s : State) (lk r : Nat) : Prop :=
  (readLaunch s lk r).done.toNat % 64 = 0 ∧
    (frontPlace (withRead s lk r) (readLaunch s lk r).func (readLaunch s lk r).pasid .write (readLaunch s lk r).done.toNat).isSome

/-- What the checks' answer makes of a launch whose record has been read (R25). -/
def afterChecks (s : State) (lk : Nat) (c : Launch × Nat) : State :=
  let s := setLaunch s lk c.1
  if c.2 ≠ 0 then retireLaunch s lk c.2 true
  else
    let n := c.1.gx * c.1.gy * c.1.gz
    let s := armReplay (setLaunch s lk { c.1 with unplaced := if n = 0 then [] else [(0, n)], order := s.uid }) lk
    let s := { s with uid := s.uid + 1 }
    let s := if c.1.pri = 7 then urgentPreempt s else s
    if n = 0 then gridRetire s lk else s

/-- A record whose DONE can be written, of a launch that no ancestor's end has overtaken, goes to the checks (R26, R31). -/
theorem acceptRecord_checks {s : State} {lk r : Nat} (hd : DoneOk s lk r) (hf : (getLaunch s lk).fate = 0) :
    acceptRecord s lk r = afterChecks (withRead s lk r) lk (checkLaunch (withRead s lk r) (readLaunch s lk r)) := by
  obtain ⟨ha, hp⟩ := hd
  let l := readLaunch s lk r
  have hcond : (decide (l.done.toNat % 64 ≠ 0) || (frontPlace (withRead s lk r) l.func l.pasid .write l.done.toNat).isNone) = false := by
    simpa [l, ha] using hp
  have hfate : l.fate = 0 := hf
  unfold acceptRecord
  show (if (decide (l.done.toNat % 64 ≠ 0) || (frontPlace (withRead s lk r) l.func l.pasid .write l.done.toNat).isNone) = true
    then _ else if l.fate ≠ 0 then _ else _) = _
  rw [hcond, if_neg (by simp), if_neg (by simp [hfate])]
  rfl

theorem afterChecks_fails (s : State) (lk : Nat) {l : Launch} {c : Nat} (hc : c ≠ 0) :
    afterChecks s lk (l, c) = retireLaunch (setLaunch s lk l) lk c true := by
  simp [afterChecks, hc]

/-- A replay that is not armed begins with no launch (R423). -/
theorem armReplay_off {s : State} (lk : Nat) (h : s.obs.rplctl.getLsbD 31 = false) : armReplay s lk = s := by
  simp only [armReplay, h, Bool.false_and, Bool.false_eq_true, if_false]

/-- The state in which a launch has passed its checks, with all its teams to place. -/
def acceptedIn (s : State) (lk : Nat) (l : Launch) : State :=
  let n := l.gx * l.gy * l.gz
  { setLaunch (setLaunch s lk l) lk { l with unplaced := if n = 0 then [] else [(0, n)], order := s.uid } with uid := s.uid + 1 }

theorem afterChecks_passes {s : State} (lk : Nat) {l : Launch} (hr : s.obs.rplctl.getLsbD 31 = false) (hp : l.pri < 7) :
    afterChecks s lk (l, 0) = if l.gx * l.gy * l.gz = 0 then gridRetire (acceptedIn s lk l) lk else acceptedIn s lk l := by
  have hpri : ¬ l.pri = 7 := by omega
  have harm : ∀ x, armReplay (setLaunch (setLaunch s lk l) lk x) lk = setLaunch (setLaunch s lk l) lk x := fun x => armReplay_off lk hr
  simp only [afterChecks, harm, hpri, if_false, ne_eq, not_true]
  rfl

/-- A launch that no thread submitted counts in no grid. -/
theorem countChild_of_not_thread {s : State} {lk : Nat} (h : ∀ p tm th, (getLaunch s lk).origin ≠ .thread p tm th) : countChild s lk = s := by
  unfold countChild
  split
  · next heq => exact absurd heq (h _ _ _)
  · rfl

/-- The launch that the front end chooses is accepted with its record, when that can be read (R25). -/
theorem exec_launchAccept_read {s : State} {lk : Nat} {bs : List Byte} (hs : startChoice s = some (.launch lk))
    (ho : ∀ p tm th, (getLaunch s lk).origin ≠ .thread p tm th) (ha : (getLaunch s lk).recAddr.toNat % 128 = 0)
    (hb : frontRead s (getLaunch s lk).func (getLaunch s lk).pasid (getLaunch s lk).recAddr.toNat 128 = some bs) :
    exec .launchAccept s = .next (acceptRecord s lk (leNat bs)) := by
  simp only [exec_launchAccept, execLaunchAccept, hs, acceptLaunch, countChild_of_not_thread ho, ha, ne_eq, not_true, if_false, hb]

/-! ## The statement -/

section
variable {s : State} {lk r : Nat} {l2 : Launch}

theorem acceptedIn_empty (hn : l2.gx * l2.gy * l2.gz = 0) :
    acceptedIn s lk l2 = { setLaunch (setLaunch s lk l2) lk { l2 with unplaced := [], order := s.uid } with uid := s.uid + 1 } := by
  simp only [acceptedIn, hn, if_true]

/-- A launch whose checks have answered keeps what its record says of its grid, and what it was handed over with. -/
theorem DescFrame.kept {l m : Launch} (h : DescFrame l m) :
    m.gx * m.gy * m.gz = l.gx * l.gy * l.gz ∧ m.done = l.done ∧ m.pri = l.pri ∧ m.fate = l.fate ∧ m.stage = l.stage ∧
      m.frozen = l.frozen ∧ m.childLive = l.childLive ∧ m.closing = l.closing := by
  unfold DescFrame at h; rw [h]; exact ⟨rfl, rfl, rfl, rfl, rfl, rfl, rfl, rfl⟩

/-- An accepted grid without teams or children has nothing left. -/
theorem gridDone_acceptedIn (hn : l2.gx * l2.gy * l2.gz = 0) (hs : l2.stage = .accepted) (hf : l2.frozen = none) (hc : l2.childLive = 0)
    (hr : recWaits s lk = false) (ht : ∀ e, e ∈ s.teams → e.2.launch ≠ lk) : gridDone (acceptedIn s lk l2) lk = true := by
  have hrec : recWaits (acceptedIn s lk l2) lk = false := hr
  have hteams : (acceptedIn s lk l2).teams.any (fun e => e.2.launch == lk) = false := by
    rw [List.any_eq_false]
    exact fun e he => by simpa using ht e he
  have hl : getLaunch (acceptedIn s lk l2) lk = { l2 with unplaced := [], order := s.uid } := by
    rw [acceptedIn_empty hn]
    exact getLaunch_setLaunch_same _ _ _
  simp [gridDone, hrec, hteams, hl, hs, hf, hc]

/-- A launch that retires inside its acceptance leaves the device with a record that starts with its status. -/
theorem left_of_retireLaunch {z : State} {c : Nat} (hl : getLaunch z lk = l2) (hd : l2.done.toNat % 64 = 0)
    (hex : exec .launchAccept s = .next (retireLaunch z lk c true)) (pa : Nat)
    (hp : frontPlace (if l2.det then z else { z with fresh := z.fresh + 1 }) l2.func l2.pasid .write l2.done.toNat = some pa) :
    ∃ t, exec .launchAccept s = .next t ∧ tabFind t.launches lk = none ∧ sysByte t pa = BitVec.ofNat 8 c := by
  subst hl
  exact ⟨_, hex, retireLaunch_left hd hp⟩

theorem exec_launchAccept_accepted (hex : exec .launchAccept s = .next (afterChecks (withRead s lk r) lk (l2, 0)))
    (hn : l2.gx * l2.gy * l2.gz ≠ 0) (hr : s.obs.rplctl.getLsbD 31 = false) (hp : l2.pri < 7) :
    ∃ t, exec .launchAccept s = .next t ∧ getLaunch t lk = { l2 with unplaced := [(0, l2.gx * l2.gy * l2.gz)], order := s.uid } ∧
      t.uid = s.uid + 1 ∧ t.mem = s.mem ∧ t.teams = s.teams ∧ t.queues = s.queues := by
  rw [afterChecks_passes (s := withRead s lk r) lk hr hp, if_neg hn] at hex
  refine ⟨_, hex, ?_, rfl, rfl, rfl, rfl⟩
  have hl : getLaunch (acceptedIn (withRead s lk r) lk l2) lk =
      { l2 with unplaced := if l2.gx * l2.gy * l2.gz = 0 then [] else [(0, l2.gx * l2.gy * l2.gz)], order := s.uid } :=
    getLaunch_setLaunch_same _ _ _
  rw [hl, if_neg hn]

/-- A grid without teams retires inside its acceptance with the status 0 (R13; log entry 70). -/
theorem exec_launchAccept_empty (hex : exec .launchAccept s = .next (afterChecks (withRead s lk r) lk (l2, 0)))
    (hn : l2.gx * l2.gy * l2.gz = 0) (hr : s.obs.rplctl.getLsbD 31 = false) (hp : l2.pri < 7) (hrl : s.obs.rlaunch ≠ some lk)
    (hf : l2.fate = 0) (hcl : l2.closing = false) (hd : gridDone (acceptedIn (withRead s lk r) lk l2) lk = true) :
    exec .launchAccept s = .next (retireLaunch (acceptedIn (withRead s lk r) lk l2) lk 0 true) := by
  have hl : getLaunch (acceptedIn (withRead s lk r) lk l2) lk = { l2 with unplaced := [], order := s.uid } := by
    rw [acceptedIn_empty hn]
    exact getLaunch_setLaunch_same _ _ _
  have hlist : (tabFind (acceptedIn (withRead s lk r) lk l2).launches lk).isSome := by
    rw [acceptedIn_empty hn]
    exact Option.isSome_iff_exists.2 ⟨_, tabFind_tabPut_same _ _ _⟩
  rw [hex, afterChecks_passes (s := withRead s lk r) lk hr hp, if_pos hn, gridRetire_done hlist hd hrl (by rw [hl]; exact hcl), hl]
  simp [hf]

end

/-- Settles O50: what the checks answer decides whether a launch is accepted or retires, and a retirement writes its record, drops the
launch and gives back to its packet. -/
theorem gridLife : Obligations.GridLife := by
  refine ⟨?_, ?_⟩
  · intro s lk bs hs l ho ha hf hb l1 s1 n hd hp
    have hex : ∀ l2 c, checkLaunch s1 l1 = (l2, c) →
        exec .launchAccept s = .next (afterChecks (withRead s lk (leNat bs)) lk (l2, c)) ∧ DescFrame l1 l2 := by
      intro l2 c hc
      have h := exec_launchAccept_read hs ho ha hb
      rw [acceptRecord_checks ⟨hd, hp⟩ hf] at h
      have hframe := checkLaunch_frame s1 l1
      rw [hc] at hframe
      exact ⟨h.trans (congrArg (fun c => Host.Outcome.next (afterChecks (withRead s lk (leNat bs)) lk c)) hc), hframe⟩
    refine ⟨?_, ?_, ?_⟩
    · intro l2 hc hn hr hpri
      obtain ⟨h, hframe⟩ := hex l2 0 hc
      obtain ⟨hgrid, -, hp2, -⟩ := hframe.kept
      have hn2 : n = l2.gx * l2.gy * l2.gz := hgrid.symm
      rw [hn2] at hn ⊢
      exact exec_launchAccept_accepted h hn hr (hp2 ▸ hpri)
    · intro l2 c hc hne
      obtain ⟨h, hframe⟩ := hex l2 c hc
      obtain ⟨-, hdone, -⟩ := hframe.kept
      rw [afterChecks_fails _ _ hne] at h
      exact left_of_retireLaunch (getLaunch_setLaunch_same _ _ _) (hdone ▸ hd) h
    · intro l2 hc hn hr hrl hpri hfrz hch hcl hrec hteams l3
      obtain ⟨h, hframe⟩ := hex l2 0 hc
      obtain ⟨hgrid, hdone, hp2, hfate, hstage, hfrz2, hch2, hcl2⟩ := hframe.kept
      have hn2 : l2.gx * l2.gy * l2.gz = 0 := hgrid.trans hn
      have hg := gridDone_acceptedIn (s := s1) hn2 hstage (hfrz2.trans hfrz) (hch2.trans hch) hrec hteams
      have h0 := exec_launchAccept_empty h hn2 hr (hp2 ▸ hpri) hrl (hfate.trans hf) (hcl2.trans hcl) hg
      rw [acceptedIn_empty hn2] at h0
      exact left_of_retireLaunch (getLaunch_setLaunch_same _ _ _) (hdone ▸ hd) h0
  · intro s lk q idx xing count pa l hl hg hr hc ho ha hp
    exact ⟨_, rfl, gridRetire_packet hl hg hr hc ho ha hp⟩

end Sys2Proof.Machine
end

section
/-! SUPPORT. Groups that swap and promote (R139, R140): the best of a list by a fold, and the exchange of two groups. -/

namespace Sys2Proof.Machine

/-! ## The best of a list -/

/-- Keep the better of what has been found and the next number. -/
def pick (p : Nat → Nat → Prop) [DecidableRel p] (b : Option Nat) (g : Nat) : Option Nat :=
  match b with
  | none => some g
  | some x => if p g x then some g else some x

section
variable {p R : Nat → Nat → Prop} [DecidableRel p]

/-- What a fold has picked is in the list, or was there before, and is as good as all of them. -/
theorem foldl_pick (htr : ∀ {a b c}, R a b → R b c → R a c) (hrf : ∀ a, R a a) (hp : ∀ g x, p g x → R g x) (hn : ∀ g x, ¬ p g x → R x g)
    (gs : List Nat) (b : Option Nat) {x : Nat} (h : gs.foldl (pick p) b = some x) :
    (x ∈ gs ∨ b = some x) ∧ (∀ g ∈ gs, R x g) ∧ ∀ y, b = some y → R x y := by
  induction gs generalizing b with
  | nil =>
    subst h
    exact ⟨.inr rfl, by simp, fun y hy => by cases hy; exact hrf _⟩
  | cons g gs ih =>
    obtain ⟨hmem, hall, hb⟩ := ih (pick p b g) h
    have hg : R x g ∧ (∀ y, b = some y → R x y) ∧ (pick p b g = some x → x = g ∨ b = some x) := by
      cases b with
      | none => exact ⟨hb g rfl, by simp, fun h => .inl (by simpa [pick] using h.symm)⟩
      | some y =>
        by_cases hpy : p g y
        · have hpk : pick p (some y) g = some g := by simp [pick, hpy]
          refine ⟨hb g hpk, fun z hz => ?_, fun h => .inl (by rw [hpk] at h; simpa using h.symm)⟩
          cases hz
          exact htr (hb g hpk) (hp g y hpy)
        · have hpk : pick p (some y) g = some y := by simp [pick, hpy]
          refine ⟨htr (hb y hpk) (hn g y hpy), fun z hz => ?_, fun h => .inr (by rw [hpk] at h; exact h)⟩
          cases hz
          exact hb y hpk
    obtain ⟨hxg, hxb, hx⟩ := hg
    refine ⟨?_, ?_, hxb⟩
    · rcases hmem with hm | hm
      · exact .inl (List.mem_cons_of_mem _ hm)
      · rcases hx hm with rfl | h
        · exact .inl (by simp)
        · exact .inr h
    · intro k hk
      rcases List.mem_cons.1 hk with rfl | hk
      · exact hxg
      · exact hall k hk

/-- From a list that is not empty something is picked. -/
theorem foldl_pick_isSome (gs : List Nat) (b : Option Nat) (h : gs ≠ [] ∨ b.isSome) : (gs.foldl (pick p) b).isSome := by
  induction gs generalizing b with
  | nil => simpa using h
  | cons g gs ih =>
    refine ih _ (.inr ?_)
    cases b with
    | none => rfl
    | some y => simp only [pick]; split <;> rfl

end

/-- The group that has waited longest is in the list, and none has waited longer. -/
theorem longest_spec {s : State} {gs : List Nat} {x : Nat} (h : longest s gs = some x) :
    x ∈ gs ∧ ∀ g ∈ gs, (getGroup s x).lastIssue ≤ (getGroup s g).lastIssue := by
  have hf : gs.foldl (pick fun g x => (getGroup s g).lastIssue < (getGroup s x).lastIssue) none = some x := h
  obtain ⟨hm, hall, -⟩ := foldl_pick (R := fun a b => (getGroup s a).lastIssue ≤ (getGroup s b).lastIssue) Nat.le_trans (fun _ => Nat.le_refl _)
    (fun _ _ h => Nat.le_of_lt h) (fun _ _ h => Nat.le_of_not_lt h) gs none hf
  exact ⟨by simpa using hm, hall⟩

/-! ## Who enters and who leaves, R139 -/

theorem entering_spec {s : State} {sl inn : Nat} (h : entering s sl = some inn) :
    isPendingG s inn = true ∧ ready s inn = true ∧
      ∀ g, g ∈ sliceGroups s sl → isPendingG s g = true → ready s g = true → (getGroup s inn).lastIssue ≤ (getGroup s g).lastIssue := by
  obtain ⟨hm, hall⟩ := longest_spec h
  simp only [List.mem_filter, Bool.and_eq_true] at hm hall
  exact ⟨hm.2.1, hm.2.2, fun g hg hp hr => hall g ⟨hg, hp, hr⟩⟩

theorem leaving_spec {s : State} {sl out : Nat} (h : leaving s sl = some out) :
    isActiveG s out = true ∧ ((getGroup s out).yields = true ∨
      (readyWord s out = false ∧ ∀ g, g ∈ sliceGroups s sl → isActiveG s g = true → (getGroup s g).yields = false)) := by
  let act := (sliceGroups s sl).filter fun g => isActiveG s g
  have h' : ((act.filter fun g => (getGroup s g).yields) ++ (act.filter fun g => !readyWord s g)).head? = some out := h
  rw [List.head?_append] at h'
  cases hy : (act.filter fun g => (getGroup s g).yields).head? with
  | some x =>
    rw [hy] at h'
    cases h'
    have hm := List.mem_of_head? hy
    simp only [act, List.mem_filter] at hm
    exact ⟨hm.1.2, .inl hm.2⟩
  | none =>
    rw [hy] at h'
    have hm := List.mem_of_head? h'
    simp only [act, List.mem_filter, Bool.not_eq_true'] at hm
    refine ⟨hm.1.2, .inr ⟨hm.2, fun g hg ha => ?_⟩⟩
    have hnil := List.filter_eq_nil_iff.1 (List.head?_eq_none_iff.1 hy) g (List.mem_filter.2 ⟨hg, ha⟩)
    simpa using hnil

/-- A group that enters is pending and one that leaves is active, so they are two. -/
theorem pending_ne_active {s : State} {inn out : Nat} (hi : isPendingG s inn = true) (ho : isActiveG s out = true) : inn ≠ out := by
  rintro rfl
  simp only [isPendingG, isActiveG, beq_iff_eq] at hi ho
  rw [hi] at ho
  cases ho

/-! ## The exchange -/

/-- What an exchange does: the group that enters is active and issues from the second cycle after, the one that leaves is pending and
yields no more, and no other group changes. -/
theorem exchange_spec {s : State} {inn out : Nat} (hne : inn ≠ out) :
    getGroup (exchange s out inn) inn = { getGroup s inn with sstate := .active, nextOk := max (getGroup s inn).nextOk (s.now + 2) } ∧
      getGroup (exchange s out inn) out = { getGroup s out with sstate := .pending, yields := false } ∧
      ∀ k, k ≠ inn → k ≠ out → getGroup (exchange s out inn) k = getGroup s k := by
  simp only [exchange, updGroup_eq]
  refine ⟨?_, ?_, fun k hi ho => ?_⟩
  · rw [getGroup_setGroup_same, getGroup_setGroup_other _ _ _ _ hne, setGroup_now]
  · rw [getGroup_setGroup_other _ _ _ _ (Ne.symm hne), getGroup_setGroup_same]
  · rw [getGroup_setGroup_other _ _ _ _ hi, getGroup_setGroup_other _ _ _ _ ho]

theorem swapSlice_exchange {s : State} {sl inn out : Nat} (hi : entering s sl = some inn) (ho : leaving s sl = some out) :
    swapSlice s sl = exchange s out inn := by simp only [swapSlice, hi, ho]

/-! ## Promotion, R140 -/

/-- The ready pending groups of a slice that have not issued for 4,096 cycles. -/
def overdue (s : State) (sl : Nat) : List Nat :=
  (sliceGroups s sl).filter fun g => isPendingG s g && ready s g && decide (4096 ≤ s.now - (getGroup s g).lastIssue)

/-- The active group of a slice that issued last. -/
def lastIssued (s : State) (sl : Nat) : Option Nat :=
  ((sliceGroups s sl).filter fun g => isActiveG s g).foldl (pick fun g x => (getGroup s x).lastIssue ≤ (getGroup s g).lastIssue) none

theorem promoteSlice_eq {s : State} {sl inn : Nat} (h : longest s (overdue s sl) = some inn) :
    promoteSlice s sl = match lastIssued s sl with | some out => exchange s out inn | none => setSState s inn .active := by
  have h' : longest s ((sliceGroups s sl).filter fun g => isPendingG s g && ready s g &&
      decide (Config.promoteAfter ≤ s.now - (getGroup s g).lastIssue)) = some inn := h
  simp only [promoteSlice, h']
  rfl

theorem overdue_pending {s : State} {sl inn : Nat} (h : longest s (overdue s sl) = some inn) : isPendingG s inn = true := by
  have hm := (longest_spec h).1
  simp only [overdue, List.mem_filter, Bool.and_eq_true] at hm
  exact hm.2.1.1

theorem lastIssued_none {s : State} {sl : Nat} (h : ∀ g, g ∈ sliceGroups s sl → isActiveG s g = false) : lastIssued s sl = none := by
  have hnil : (sliceGroups s sl).filter (fun g => isActiveG s g) = [] :=
    List.filter_eq_nil_iff.2 fun g hg => by simp [h g hg]
  rw [lastIssued, hnil]; rfl

theorem lastIssued_spec {s : State} {sl a : Nat} (hm : a ∈ sliceGroups s sl) (ha : isActiveG s a = true) :
    ∃ out, lastIssued s sl = some out ∧ out ∈ sliceGroups s sl ∧ isActiveG s out = true ∧
      ∀ g, g ∈ sliceGroups s sl → isActiveG s g = true → (getGroup s g).lastIssue ≤ (getGroup s out).lastIssue := by
  have hmem : a ∈ (sliceGroups s sl).filter fun g => isActiveG s g := List.mem_filter.2 ⟨hm, ha⟩
  have hsome : (lastIssued s sl).isSome := foldl_pick_isSome _ none (.inl (List.ne_nil_of_mem hmem))
  obtain ⟨out, hout⟩ := Option.isSome_iff_exists.1 hsome
  obtain ⟨ho, hall, -⟩ := foldl_pick (R := fun a b => (getGroup s b).lastIssue ≤ (getGroup s a).lastIssue) (fun h k => Nat.le_trans k h)
    (fun _ => Nat.le_refl _) (fun _ _ h => h) (fun _ _ h => Nat.le_of_not_le h) _ none hout
  have ho' := List.mem_filter.1 (ho.resolve_right (by simp))
  exact ⟨out, hout, ho'.1, ho'.2, fun g hg hga => hall g (List.mem_filter.2 ⟨hg, hga⟩)⟩

/-- Into a free place a group is promoted without the delay of a swap (log entry 126). -/
theorem setSState_spec (s : State) (inn : Nat) (x : SlotState) :
    getGroup (setSState s inn x) inn = { getGroup s inn with sstate := x } ∧
      ∀ k, k ≠ inn → getGroup (setSState s inn x) k = getGroup s k := by
  simp only [setSState, updGroup_eq]
  exact ⟨getGroup_setGroup_same _ _ _, fun k hk => getGroup_setGroup_other _ _ _ _ hk⟩

end Sys2Proof.Machine
end

section
/-! SUPPORT. Teams leave their cores (R364, R407): the swap of the banks, the end of a swap, the releases that the device asks for, and the
spill of a shadow bank. -/

namespace Sys2Proof.Machine

/-! ## Tables and folds -/

theorem tabFind_map {α : Type} (f : Nat × α → Nat × α) (hf : ∀ e, (f e).1 = e.1) (t : List (Nat × α)) (a : Nat) :
    tabFind (t.map f) a = (tabFind t a).map fun v => (f (a, v)).2 := by
  induction t with
  | nil => rfl
  | cons e t ih =>
    obtain ⟨k, v⟩ := e
    have hk : f (k, v) = (k, (f (k, v)).2) := Prod.ext (hf _) rfl
    rw [List.map_cons, hk]
    simp only [tabFind]
    by_cases h : a = k
    · subst h; simp
    · simp [h, ih]

/-- Changing every listed core alike changes an unlisted one as little as its reset. -/
theorem getCore_mapCores (s : State) (f : Core → Core) (hf : f coreReset = coreReset) (c : Nat) :
    getCore { s with cores := s.cores.map fun e => (e.1, f e.2) } c = f (getCore s c) := by
  simp only [getCore, tabGet, tabFind_map (fun e => (e.1, f e.2)) (fun _ => rfl)]
  cases tabFind s.cores c with
  | none => exact hf.symm
  | some x => rfl

/-- What a step makes true of its own number, and of no number makes false, a fold makes true of every number in its list. -/
theorem foldl_each {β : Type} {I : State → Prop} {P : β → State → Prop} {f : State → β → State} (hI : ∀ s x, I s → I (f s x))
    (hset : ∀ s x, I s → P x (f s x)) (hkeep : ∀ s x y, I s → P y s → P y (f s x)) (l : List β) {s : State} (hs : I s) :
    I (l.foldl f s) ∧ ∀ x ∈ l, P x (l.foldl f s) := by
  have keep : ∀ (l : List β) (s : State) (y : β), I s → P y s → P y (l.foldl f s) := by
    intro l
    induction l with
    | nil => exact fun _ _ _ h => h
    | cons x l ih => exact fun s y hs h => ih _ _ (hI s x hs) (hkeep s x y hs h)
  induction l generalizing s with
  | nil => exact ⟨hs, by simp⟩
  | cons x l ih =>
    obtain ⟨h1, h2⟩ := ih (hI s x hs)
    refine ⟨h1, fun y hy => ?_⟩
    rcases List.mem_cons.1 hy with rfl | hy
    · exact keep l _ _ (hI s _ hs) (hset s _ hs)
    · exact h2 y hy

/-! ## The swap of the banks, R407 -/

/-- The clock, the launches, and what a team holds of its cores are as before. -/
def SpanFrame (s t : State) : Prop :=
  t.now = s.now ∧ t.launches = s.launches ∧
    ∀ k, (getTeam t k).cores = (getTeam s k).cores ∧ (getTeam t k).groups = (getTeam s k).groups ∧ (getTeam t k).launch = (getTeam s k).launch

theorem SpanFrame.refl (s : State) : SpanFrame s s := ⟨rfl, rfl, fun _ => ⟨rfl, rfl, rfl⟩⟩
theorem SpanFrame.trans {a b c : State} (h : SpanFrame a b) (k : SpanFrame b c) : SpanFrame a c := by
  obtain ⟨h1, h2, h3⟩ := h
  obtain ⟨k1, k2, k3⟩ := k
  refine ⟨k1.trans h1, k2.trans h2, fun n => ?_⟩
  obtain ⟨x1, x2, x3⟩ := h3 n
  obtain ⟨y1, y2, y3⟩ := k3 n
  exact ⟨y1.trans x1, y2.trans x2, y3.trans x3⟩

theorem SpanFrame.of_fields {s t : State} (hn : t.now = s.now) (hl : t.launches = s.launches) (ht : t.teams = s.teams) : SpanFrame s t :=
  ⟨hn, hl, fun k => by simp [getTeam, ht]⟩

theorem SpanFrame.signs (s : State) (l : List Sign) : SpanFrame s { s with signs := l } := .of_fields rfl rfl rfl
theorem SpanFrame.mats (s : State) (l : List MatOp) : SpanFrame s { s with mats := l } := .of_fields rfl rfl rfl
theorem SpanFrame.updGroup (s : State) (k : Nat) (f : Group → Group) : SpanFrame s (updGroup s k f) := .of_fields rfl rfl rfl

theorem SpanFrame.updTeam (s : State) (k : Nat) (f : Team → Team)
    (hf : ∀ t, (f t).cores = t.cores ∧ (f t).groups = t.groups ∧ (f t).launch = t.launch) : SpanFrame s (updTeam s k f) := by
  refine ⟨rfl, rfl, fun j => ?_⟩
  by_cases h : j = k
  · subst h; simpa using hf (getTeam s j)
  · rw [updTeam_eq, getTeam_setTeam_other _ _ _ _ h]; exact ⟨rfl, rfl, rfl⟩

/-- No group without a slot gets one. -/
def StaysOff (s t : State) : Prop := ∀ k, (getGroup s k).slot = none → (getGroup t k).slot = none

theorem StaysOff.refl (s : State) : StaysOff s s := fun _ h => h
theorem StaysOff.trans {a b c : State} (h : StaysOff a b) (k : StaysOff b c) : StaysOff a c := fun n hn => k n (h n hn)

theorem StaysOff.of_groups {s t : State} (h : t.groups = s.groups) : StaysOff s t := fun k hk => by simpa [getGroup, h] using hk

theorem StaysOff.leaveSlot (s : State) (k : Nat) : StaysOff s (updGroup s k leaveSlot) := by
  intro j hj
  by_cases h : j = k
  · subst h; rw [updGroup_eq, getGroup_setGroup_same]; rfl
  · rw [updGroup_eq, getGroup_setGroup_other _ _ _ _ h]; exact hj

/-- A signer's item goes (R332). -/
def signerLeaves (s : State) (x : Sign) : State :=
  updGroup s x.gkey fun g =>
    let os := g.outs.filter fun o => o.seq != x.seq
    { g with outs := os, mark := g.mark && !os.isEmpty }

/-- SIGNED of a signed convergence register clears. -/
def clearSigned (c : Nat) (s : State) (x : Sign) : State :=
  updTeam s (getGroup s x.gkey).team fun t =>
    { t with kreg := tabUpd ⟨false, 0, 0, 0, 0⟩ t.kreg (8 * c + x.k) fun k => { k with signed := 0 } }

theorem cancelSigns_eq (s : State) (c : Nat) : cancelSigns s c =
    let mine := s.signs.filter fun x => x.core == c
    if mine.isEmpty then s
    else
      let s := mine.foldl (clearSigned c) (mine.foldl signerLeaves s)
      { s with signs := s.signs.filter fun x => x.core != c } := rfl

theorem cancelSigns_span (s : State) (c : Nat) : SpanFrame s (cancelSigns s c) := by
  rw [cancelSigns_eq]
  dsimp only
  split
  · exact .refl s
  · have h1 := foldl_rel SpanFrame.refl SpanFrame.trans (f := signerLeaves) (fun s x => SpanFrame.updGroup s x.gkey _)
      (s.signs.filter fun x => x.core == c) s
    have h2 := foldl_rel SpanFrame.refl SpanFrame.trans (f := clearSigned c) (fun s x => SpanFrame.updTeam s _ _ fun _ => ⟨rfl, rfl, rfl⟩)
      (s.signs.filter fun x => x.core == c) ((s.signs.filter fun x => x.core == c).foldl signerLeaves s)
    exact (h1.trans h2).trans (SpanFrame.signs _ _)

/-- A trace record changes what a record changes. -/
theorem traceWrite_frame (s : State) (func : Nat) (mk : Word → List Byte) : RecordFrame s (traceWrite s func mk) := by
  unfold traceWrite
  dsimp only
  split
  · exact .updFunc _ _ _
  · split
    · exact .updFunc _ _ _
    · refine RecordFrame.trans (RecordFrame.trans ?_ (.updFunc _ _ _)) (WriteFrame.record rfl)
      refine foldl_rel RecordFrame.refl RecordFrame.trans (fun s i => ?_) _ _
      split
      · exact (sysPut_frame _ _ _).record
      · exact .refl s

theorem dueStop_frame (s : State) (tk : Nat) :
    SpanFrame s (dueStop s tk) ∧ (dueStop s tk).groups = s.groups ∧
      ∀ k, (getTeam (dueStop s tk) k).place = (getTeam s k).place ∧ (getTeam (dueStop s tk) k).leaving = (getTeam s k).leaving := by
  unfold dueStop
  split
  · next tid _ =>
    have hr : RecordFrame { s with fresh := s.fresh + 1 } (stopRecord s tk tid) := traceWrite_frame _ _ _
    unfold RecordFrame at hr
    have ht : (stopRecord s tk tid).teams = s.teams := by rw [hr]
    have hsp : SpanFrame s (stopRecord s tk tid) := .of_fields (by rw [hr]) (by rw [hr]) ht
    refine ⟨hsp.trans (SpanFrame.updTeam _ _ _ fun _ => ⟨rfl, rfl, rfl⟩), ?_, fun k => ?_⟩
    · rw [updTeam_eq, setTeam_groups, hr]
    · have hk : getTeam (stopRecord s tk tid) k = getTeam s k := by simp [getTeam, ht]
      by_cases h : k = tk
      · subst h; rw [updTeam_eq, getTeam_setTeam_same, hk]; exact ⟨rfl, rfl⟩
      · rw [updTeam_eq, getTeam_setTeam_other _ _ _ _ h, hk]; exact ⟨rfl, rfl⟩
  · exact ⟨.refl s, rfl, fun _ => ⟨rfl, rfl⟩⟩

/-- A team's groups leave their slots. -/
def emptySlots (s : State) (tk : Nat) : State := (List.range (getTeam s tk).groups).foldl (fun s gi => updGroup s (groupKey tk gi) leaveSlot) s

/-- A team in the shadow banks of its cores. -/
def shadowed (t : Team) : Team := { t with place := .shadow, leaving := false, frees := none }

/-- A team leaves its cores for their shadow banks. -/
def toShadow (s : State) (tk : Nat) : State :=
  dueStop (updTeam (emptySlots s tk) tk shadowed) tk

/-- A core's banks exchange, when one of the teams stands on it. -/
def turnBank (ts : List Nat) (s : State) (c : Nat) : State :=
  let mine := ts.filter fun tk => (getTeam s tk).cores.contains c
  if mine.isEmpty then s
  else updCore s c fun x => { x with swapAt := some (s.now + 96), swapBack := spanNeeds s c mine, shadow := mine }

theorem swapBanks_eq (s : State) (cs ts : List Nat) : swapBanks s cs ts =
    cs.foldl (turnBank ts) (ts.foldl toShadow (cs.foldl cancelSigns { s with mats := s.mats.map (pauseJob ts) })) := rfl

theorem emptySlots_spec (s : State) (tk : Nat) :
    (emptySlots s tk).teams = s.teams ∧ SpanFrame s (emptySlots s tk) ∧ StaysOff s (emptySlots s tk) ∧
      ∀ gi, gi < (getTeam s tk).groups → (getGroup (emptySlots s tk) (96 * tk + gi)).slot = none := by
  have ht : (emptySlots s tk).teams = s.teams :=
    foldl_rel (fr := fun a b => b.teams = a.teams) (f := fun s gi => updGroup s (groupKey tk gi) leaveSlot) (fun _ => rfl)
      (fun h k => k.trans h) (fun _ _ => rfl) _ _
  refine ⟨ht, ?_, ?_, fun gi hgi => ?_⟩
  · exact foldl_rel SpanFrame.refl SpanFrame.trans (fun s _ => SpanFrame.updGroup s _ _) _ _
  · exact foldl_rel StaysOff.refl StaysOff.trans (fun s gi => StaysOff.leaveSlot s _) _ _
  · refine (foldl_each (I := fun _ => True) (P := fun gi s => (getGroup s (96 * tk + gi)).slot = none)
      (fun _ _ _ => trivial) (fun s gi _ => ?_) (fun s gi j _ h => StaysOff.leaveSlot s _ _ h) _ trivial).2 gi (List.mem_range.2 hgi)
    have hk : groupKey tk gi = 96 * tk + gi := rfl
    rw [updGroup_eq, hk, getGroup_setGroup_same]; rfl

/-- A team is off its cores: in their shadow banks, with none of `n` groups in a slot. -/
def OffCores (n tk : Nat) (s : State) : Prop :=
  (getTeam s tk).place = .shadow ∧ (getTeam s tk).leaving = false ∧ ∀ gi, gi < n → (getGroup s (96 * tk + gi)).slot = none

theorem toShadow_span (s : State) (tk : Nat) : SpanFrame s (toShadow s tk) := by
  obtain ⟨-, hsp, -, -⟩ := emptySlots_spec s tk
  exact (hsp.trans (SpanFrame.updTeam _ tk shadowed fun _ => ⟨rfl, rfl, rfl⟩)).trans (dueStop_frame _ tk).1

theorem toShadow_off (s : State) (tk : Nat) : OffCores (getTeam s tk).groups tk (toShadow s tk) := by
  obtain ⟨-, -, -, hall⟩ := emptySlots_spec s tk
  obtain ⟨-, hg, ht⟩ := dueStop_frame (updTeam (emptySlots s tk) tk shadowed) tk
  obtain ⟨hp, hl⟩ := ht tk
  refine ⟨hp.trans (by simp [shadowed]), hl.trans (by simp [shadowed]), fun gi hgi => StaysOff.of_groups hg _ (hall gi hgi)⟩

theorem toShadow_keeps {s : State} (n tk k : Nat) (h : OffCores n k s) : OffCores n k (toShadow s tk) := by
  obtain ⟨hteams, -, hoff, -⟩ := emptySlots_spec s tk
  obtain ⟨-, hg, ht⟩ := dueStop_frame (updTeam (emptySlots s tk) tk shadowed) tk
  obtain ⟨hp, hl⟩ := ht k
  obtain ⟨h1, h2, h3⟩ := h
  have hk : getTeam (emptySlots s tk) k = getTeam s k := by simp [getTeam, hteams]
  refine ⟨hp.trans ?_, hl.trans ?_, fun gi hgi => StaysOff.of_groups hg _ (hoff _ (h3 gi hgi))⟩
  · by_cases he : k = tk
    · subst he; simp [shadowed]
    · rw [updTeam_eq, getTeam_setTeam_other _ _ _ _ he, hk, h1]
  · by_cases he : k = tk
    · subst he; simp [shadowed]
    · rw [updTeam_eq, getTeam_setTeam_other _ _ _ _ he, hk, h2]

/-- A core's banks have exchanged: its swap takes 96 cycles, the teams of `ts` that stood on it are in its shadow bank, and it knows what to
give back. -/
def BankTurned (s0 : State) (ts : List Nat) (c : Nat) (t : State) : Prop :=
  ∀ tk, tk ∈ ts → c ∈ (getTeam s0 tk).cores → (getCore t c).swapAt = some (s0.now + 96) ∧ tk ∈ (getCore t c).shadow ∧
    (ts = [tk] → ∀ n, n = needOf (getLaunch s0 (getTeam s0 tk).launch) ((getTeam s0 tk).cores.idxOf c) →
      (getCore t c).swapBack = (n.slots, n.vregs, n.accs, n.scr))

theorem turnBank_cases (ts : List Nat) (s : State) (c : Nat) : turnBank ts s c = s ∨ ∃ x, turnBank ts s c = setCore s c x := by
  unfold turnBank
  dsimp only
  split
  · exact .inl rfl
  · exact .inr ⟨_, rfl⟩

theorem turnBank_turned {s0 s : State} (ts : List Nat) (c : Nat) (h : SpanFrame s0 s) : BankTurned s0 ts c (turnBank ts s c) := by
  intro tk htk hc
  obtain ⟨hnow, hl, ht⟩ := h
  have hc' : c ∈ (getTeam s tk).cores := by rw [(ht tk).1]; exact hc
  have hmem : tk ∈ ts.filter fun tk => (getTeam s tk).cores.contains c := List.mem_filter.2 ⟨htk, by simpa using hc'⟩
  have hne : (ts.filter fun tk => (getTeam s tk).cores.contains c).isEmpty = false := by
    simpa using List.ne_nil_of_mem hmem
  have heq : turnBank ts s c = updCore s c fun x => { x with
      swapAt := some (s.now + 96), swapBack := spanNeeds s c (ts.filter fun tk => (getTeam s tk).cores.contains c)
      shadow := ts.filter fun tk => (getTeam s tk).cores.contains c } := by
    simp only [turnBank, hne, Bool.false_eq_true, if_false]
  rw [heq, updCore_eq, getCore_setCore_same]
  refine ⟨by rw [hnow], hmem, ?_⟩
  rintro rfl n rfl
  have hone : ([tk].filter fun tk => (getTeam s tk).cores.contains c) = [tk] := by simp [hc']
  obtain ⟨h1, -, h3⟩ := ht tk
  show spanNeeds s c ([tk].filter fun tk => (getTeam s tk).cores.contains c) = _
  rw [hone]
  simp [spanNeeds, h1, h3, getLaunch, hl]

theorem turnBank_keeps {s0 s : State} (ts : List Nat) (c d : Nat) (h : SpanFrame s0 s) (hd : BankTurned s0 ts d s) :
    BankTurned s0 ts d (turnBank ts s c) := by
  by_cases he : d = c
  · subst he; exact turnBank_turned ts d h
  · rcases turnBank_cases ts s c with heq | ⟨x, heq⟩
    · rw [heq]; exact hd
    · intro tk htk hc
      rw [heq, getCore_setCore_other _ _ _ _ he]
      exact hd tk htk hc

theorem turnBank_fields (ts : List Nat) (s : State) (c : Nat) :
    (turnBank ts s c).teams = s.teams ∧ (turnBank ts s c).groups = s.groups ∧ SpanFrame s (turnBank ts s c) := by
  rcases turnBank_cases ts s c with h | ⟨x, h⟩
  · rw [h]; exact ⟨rfl, rfl, .refl s⟩
  · rw [h]; exact ⟨rfl, rfl, .of_fields rfl rfl rfl⟩

/-- The swap of the banks: every team is in the shadow banks of its cores with no group in a slot, and every core of one exchanges. -/
theorem swapBanks_spec (s : State) (cs ts : List Nat) :
    (∀ tk, tk ∈ ts → OffCores (getTeam s tk).groups tk (swapBanks s cs ts)) ∧ ∀ c, c ∈ cs → BankTurned s ts c (swapBanks s cs ts) := by
  let z := cs.foldl cancelSigns { s with mats := s.mats.map (pauseJob ts) }
  let w := ts.foldl toShadow z
  have hz : SpanFrame s z :=
    (SpanFrame.mats s _).trans (foldl_rel SpanFrame.refl SpanFrame.trans cancelSigns_span _ _)
  obtain ⟨hw, hoff⟩ := foldl_each (I := SpanFrame s) (P := fun tk t => OffCores (getTeam s tk).groups tk t)
    (fun t tk h => h.trans (toShadow_span t tk)) (fun t tk h => by rw [← (h.2.2 tk).2.1]; exact toShadow_off t tk)
    (fun t tk k _ h => toShadow_keeps _ tk k h) ts hz
  obtain ⟨-, hturn⟩ := foldl_each (I := SpanFrame s) (P := BankTurned s ts) (fun t c h => h.trans (turnBank_fields ts t c).2.2)
    (fun t c h => turnBank_turned ts c h) (fun t c d h hd => turnBank_keeps ts c d h hd) cs hw
  have hkeep : (cs.foldl (turnBank ts) w).teams = w.teams ∧ (cs.foldl (turnBank ts) w).groups = w.groups :=
    foldl_rel (fr := fun a b => b.teams = a.teams ∧ b.groups = a.groups) (fun _ => ⟨rfl, rfl⟩)
      (fun h k => ⟨k.1.trans h.1, k.2.trans h.2⟩) (fun t c => ⟨(turnBank_fields ts t c).1, (turnBank_fields ts t c).2.1⟩) cs w
  rw [swapBanks_eq]
  refine ⟨fun tk htk => ?_, hturn⟩
  obtain ⟨h1, h2, h3⟩ := hoff tk htk
  have ht : getTeam (cs.foldl (turnBank ts) w) tk = getTeam w tk := by simp [getTeam, hkeep.1]
  exact ⟨by rw [ht]; exact h1, by rw [ht]; exact h2, fun gi hgi => StaysOff.of_groups hkeep.2 _ (h3 gi hgi)⟩

theorem exec_coreSwap_banks {s : State} {core : Nat} {cs ts : List Nat} (hset : swapSet s 192 [core] = (cs, ts)) (hne : ts ≠ [])
    (hfree : ∀ c, c ∈ cs → (getCore s c).shadow = [] ∧ (getCore s c).swapAt = none) :
    exec (.coreSwap core) s = .next (swapBanks s cs ts) := by
  have hall : cs.all (bankFree s) = true := List.all_eq_true.2 fun c hc => by simp [bankFree, hfree c hc]
  have hset' : swapSet s Config.cores [core] = (cs, ts) := hset
  simp only [exec_coreSwap, execCoreSwap, hset', hall, List.isEmpty_iff, hne, Bool.not_true, Bool.or_false,
    if_false]

/-! ## The end of a swap, R407, R60 -/

theorem giveCore_light {s : State} {c : Nat} (n : Need) (h : (getCore s c).dark = false) :
    giveCore s c n = setCore s c { getCore s c with
      fslot := (getCore s c).fslot + n.slots, fvreg := (getCore s c).fvreg + n.vregs, facc := (getCore s c).facc + n.accs
      fscr := (getCore s c).fscr + n.scr } := by
  simp only [giveCore, h, Bool.false_eq_true, if_false, updCore_eq]

theorem exec_swapComplete_gives {s : State} {core c0 : Nat} {n : Need} (hat : (getCore s core).swapAt = some c0) (hle : c0 ≤ s.now)
    (hback : (getCore s core).swapBack = (n.slots, n.vregs, n.accs, n.scr)) (hd : (getCore s core).dark = false) :
    ∃ t, exec (.swapComplete core) s = .next t ∧ getCore t core = { getCore s core with
      swapAt := none, swapBack := (0, 0, 0, 0), fslot := (getCore s core).fslot + n.slots, fvreg := (getCore s core).fvreg + n.vregs
      facc := (getCore s core).facc + n.accs, fscr := (getCore s core).fscr + n.scr } := by
  refine ⟨_, rfl, ?_⟩
  simp only [hat, hback]
  rw [if_neg (by omega), giveCore_light _ (by simp [hd])]
  simp

end Sys2Proof.Machine
end

section
/-! SUPPORT. The releases that the device asks for (R364), the spill of a shadow bank (R407), and the release of a team that has ended (R30,
R60). -/

namespace Sys2Proof.Machine

/-! ## Releases, R360, R364 -/

/-- Releases, the core's signature and the numbering change: what the beginning of a release can change. -/
def AskFrame (s t : State) : Prop := t = { s with rels := t.rels, uid := t.uid, cores := t.cores }

theorem AskFrame.refl (s : State) : AskFrame s s := rfl
theorem AskFrame.trans {a b c : State} (h : AskFrame a b) (k : AskFrame b c) : AskFrame a c := by
  unfold AskFrame at *; exact k.trans (by rw [h])

/-- Every release that was under way is still. -/
def RelsStay (s t : State) : Prop := ∀ r, r ∈ s.rels → ∃ q, q ∈ t.rels ∧ q.id = r.id ∧ q.core = r.core

theorem RelsStay.refl (s : State) : RelsStay s s := fun r h => ⟨r, h, rfl, rfl⟩
theorem RelsStay.trans {a b c : State} (h : RelsStay a b) (k : RelsStay b c) : RelsStay a c := by
  intro r hr
  obtain ⟨q, hq, hid, hc⟩ := h r hr
  obtain ⟨p, hp, hid', hc'⟩ := k q hq
  exact ⟨p, hp, hid'.trans hid, hc'.trans hc⟩

/-- A release that is asked for is under way on its core, at .sys when it was asked for there. -/
theorem releaseAsk_spec (s : State) (c : Nat) (sc : Scope) (cs : List Nat) :
    AskFrame s (releaseAsk s c sc cs).1 ∧ RelsStay s (releaseAsk s c sc cs).1 ∧
      ∃ r, r ∈ (releaseAsk s c sc cs).1.rels ∧ r.id = (releaseAsk s c sc cs).2 ∧ r.core = c ∧ (sc = .sys → r.scope = .sys) := by
  unfold releaseAsk
  cases hf : s.rels.find? fun r => r.core == c && r.cyc == s.now with
  | some r =>
    have hr := List.find?_some hf
    simp only [Bool.and_eq_true, beq_iff_eq] at hr
    refine ⟨rfl, fun q hq => ?_, _, List.mem_map_of_mem (List.mem_of_find?_eq_some hf), ?_⟩
    · refine ⟨_, List.mem_map_of_mem hq, ?_⟩
      split <;> exact ⟨rfl, rfl⟩
    · simp only [beq_self_eq_true, if_true, hr.1, true_and]
      intro hsc
      rw [if_pos hsc]
  | none =>
    exact ⟨rfl, fun q hq => ⟨q, List.mem_append_left _ hq, rfl, rfl⟩, _, List.mem_append_right _ (List.mem_singleton_self _), rfl, rfl, id⟩

/-- One release of those that the device performs itself. -/
def askNext (sc : Scope) (r : State × List Nat) (c : Nat) : State × List Nat :=
  let q := releaseAsk r.1 c sc (List.range Config.cores)
  (q.1, r.2 ++ [q.2])

theorem releaseAll_eq (s : State) (cs : List Nat) (sc : Scope) : releaseAll s cs sc = cs.foldl (askNext sc) (s, []) := rfl

theorem askNexts_spec (sc : Scope) (cs : List Nat) (r : State × List Nat) :
    AskFrame r.1 (cs.foldl (askNext sc) r).1 ∧ RelsStay r.1 (cs.foldl (askNext sc) r).1 ∧
      (∀ id ∈ r.2, id ∈ (cs.foldl (askNext sc) r).2) ∧
      ∀ c ∈ cs, ∃ q, q ∈ (cs.foldl (askNext sc) r).1.rels ∧ q.core = c ∧ q.id ∈ (cs.foldl (askNext sc) r).2 := by
  induction cs generalizing r with
  | nil => exact ⟨.refl _, .refl _, fun _ h => h, by simp⟩
  | cons c cs ih =>
    obtain ⟨hf, hs, q, hq, hid, hc, -⟩ := releaseAsk_spec r.1 c sc (List.range Config.cores)
    obtain ⟨jf, js, ji, jc⟩ := ih (askNext sc r c)
    rw [List.foldl_cons]
    refine ⟨hf.trans jf, hs.trans js, fun id h => ji id (List.mem_append_left _ h), fun d hd => ?_⟩
    rcases List.mem_cons.1 hd with rfl | hd
    · obtain ⟨p, hp, hpid, hpc⟩ := js q hq
      refine ⟨p, hp, hpc.trans hc, ji _ ?_⟩
      rw [hpid, hid]
      exact List.mem_append_right _ (by simp)
    · exact jc d hd

/-- The device's releases have begun on every core that it names. -/
theorem releaseAll_spec (s : State) (cs : List Nat) (sc : Scope) :
    AskFrame s (releaseAll s cs sc).1 ∧
      ∀ c ∈ cs, ∃ r, r ∈ (releaseAll s cs sc).1.rels ∧ r.core = c ∧ r.id ∈ (releaseAll s cs sc).2 := by
  rw [releaseAll_eq]
  obtain ⟨hf, -, -, hc⟩ := askNexts_spec sc cs (s, [])
  exact ⟨hf, hc⟩

/-! ## Spilling, R407 -/

section
variable {s : State} {core tk : Nat}

/-- A core's swap is over, and the one team in its shadow bank has nothing in flight. -/
def SpillDue (s : State) (core tk : Nat) : Prop :=
  (getCore s core).swapAt = none ∧ (getCore s core).shadow = [tk] ∧ spillWaits s tk = false ∧
    ∀ c, c ∈ (getTeam s tk).cores → (getCore s c).swapAt = none

theorem spillCore_due (h : SpillDue s core tk) : spillCore s core =
    if (getTeam s tk).frees.isNone then spillRelease s [tk]
    else if relsOver s ((getTeam s tk).frees.getD []) then spillTeam s tk else s := by
  obtain ⟨hat, hsh, hw, hcs⟩ := h
  have hany : (getTeam s tk).cores.any (fun c => (getCore s c).swapAt.isSome) = false := by
    rw [List.any_eq_false]
    exact fun c hc => by simp [hcs c hc]
  simp only [spillCore, hat, hsh, hw, hany, List.any_cons, List.any_nil, List.all_cons, List.all_nil, Option.isSome_none, Bool.or_false,
    Bool.and_true, Bool.false_eq_true, if_false, List.foldl_cons, List.foldl_nil]

theorem spillRelease_spec (s : State) (tk : Nat) :
    ∃ ids, getTeam (spillRelease s [tk]) tk = { getTeam s tk with frees := some ids } ∧ (spillRelease s [tk]).groups = s.groups ∧
      ∀ c, c ∈ (getTeam s tk).cores → ∃ r, r ∈ (spillRelease s [tk]).rels ∧ r.core = c ∧ r.id ∈ ids := by
  let cs := ([tk].flatMap fun tk => (getTeam s tk).cores).eraseDups
  obtain ⟨hf, hall⟩ := releaseAll_spec s cs .dev
  have heq : spillRelease s [tk] = updTeam (releaseAll s cs .dev).1 tk fun t => { t with frees := some (releaseAll s cs .dev).2 } := rfl
  rw [heq, updTeam_eq]
  unfold AskFrame at hf
  refine ⟨(releaseAll s cs .dev).2, ?_, ?_, fun c hc => hall c ?_⟩
  · rw [getTeam_setTeam_same, hf]; rfl
  · rw [setTeam_groups, hf]
  · simpa [cs] using hc

/-- The state without a team in any shadow bank. -/
def offShadows (s : State) (tk : Nat) : State :=
  { s with cores := s.cores.map fun e => (e.1, { e.2 with shadow := e.2.shadow.filter fun x => x != tk }) }

theorem getCore_offShadows (s : State) (tk c : Nat) :
    getCore (offShadows s tk) c = { getCore s c with shadow := (getCore s c).shadow.filter fun x => x != tk } :=
  getCore_mapCores s (fun x => { x with shadow := x.shadow.filter fun x => x != tk }) rfl c

/-- The length of a team's image in whole pages. -/
def imageLen (s : State) (tk : Nat) : Nat := ((teamImage s tk).length + 4095) / 4096 * 4096

/-- The function whose spill area a team's image goes to. -/
def spillFunc (s : State) (tk : Nat) : Nat := (getLaunch s (getTeam s tk).launch).func

/-- The shadow banks have no part in where an image goes. -/
theorem spillPlace_offShadows (s : State) (tk f n : Nat) : spillPlace (offShadows s tk) f n = spillPlace s f n := rfl
theorem s2Place_offShadows (s : State) (tk f ipa : Nat) (w : Bool) : s2Place (offShadows s tk) f w ipa = s2Place s f w ipa := rfl
theorem spillBase_offShadows (s : State) (tk f : Nat) : spillBase (offShadows s tk) f = spillBase s f := rfl

/-- The pages of a team's image at an offset of its function's spill area. -/
def imagePages (s : State) (tk o : Nat) : List (Option Nat) :=
  (List.range (imageLen s tk / 4096)).map fun i =>
    s2Place (offShadows s tk) (spillFunc s tk) true (spillBase (offShadows s tk) (spillFunc s tk) + o + 4096 * i)

/-- One page of a team's image is written. -/
def putPage (s0 : State) (tk o : Nat) (s : State) (i : Nat) : State :=
  match (imagePages s0 tk o).getD i none with
  | some pa => sysPut s pa (((teamImage s0 tk).drop (4096 * i)).take 4096)
  | none => s

/-- The record of a team whose spill finds no place (R407). -/
def spillLost (s : State) (tk : Nat) : RecF :=
  ⟨0, 0, (getLaunch s (getTeam s tk).launch).label, BitVec.ofNat 32 (getTeam s tk).task, 0, 0, 0, 0, 0, 0x08⟩

theorem spillTeam_eq (s : State) (tk : Nat) : spillTeam s tk =
    match spillPlace (offShadows s tk) (spillFunc s tk) (imageLen s tk) with
    | some o =>
      if (imagePages s tk o).any (·.isNone) then fatal (offShadows s tk) (getTeam s tk).launch (spillLost s tk)
      else updTeam ((List.range (imageLen s tk / 4096)).foldl (putPage s tk o) (offShadows s tk)) tk
        fun t => { t with place := .spilled, image := some (o, imageLen s tk), frees := none }
    | none => fatal (offShadows s tk) (getTeam s tk).launch (spillLost s tk) := rfl

/-- A write at system scope puts no team into a shadow bank. -/
theorem shadow_sysPut {s : State} {c : Nat} (pa : Nat) (bs : List Byte) (h : (getCore s c).shadow = []) : (getCore (sysPut s pa bs) c).shadow = [] := by
  by_cases hc : c < 192
  · rw [getCore_sysPut s pa bs c hc]; exact h
  · have hr : getCore (sysPut s pa bs) c = coreReset := by
      have hcores : getCore (sysPut s pa bs) c =
          getCore (updCores s fun c x => if true && (acqNow s c).isNone then { x with acqf := x.acqf |||
            (((List.range ((pa % 64 + bs.length + 63) / 64)).map fun i => pa / 64 * 64 + 64 * i).foldl filtAdd 0) } else x) c := by
        simp only [getCore, sysPut_cores]; rfl
      rw [hcores, getCore_updCores, if_neg hc]
    rw [hr]; rfl

theorem spillTeam_placed {o : Nat} (hp : spillPlace s (spillFunc s tk) (imageLen s tk) = some o)
    (hpages : ∀ i, i < imageLen s tk / 4096 → (s2Place s (spillFunc s tk) true (spillBase s (spillFunc s tk) + o + 4096 * i)).isSome)
    (hsh : (getCore s core).shadow = [tk]) :
    (getTeam (spillTeam s tk) tk).place = .spilled ∧ (getTeam (spillTeam s tk) tk).image = some (o, imageLen s tk) ∧
      (getCore (spillTeam s tk) core).shadow = [] := by
  have hany : (imagePages s tk o).any (·.isNone) = false := by
    rw [List.any_eq_false]
    intro p hm
    obtain ⟨i, hi, rfl⟩ := List.mem_map.1 hm
    rw [s2Place_offShadows, spillBase_offShadows]
    simpa [Option.isSome_iff_ne_none] using hpages i (List.mem_range.1 hi)
  have heq : spillTeam s tk = updTeam ((List.range (imageLen s tk / 4096)).foldl (putPage s tk o) (offShadows s tk)) tk
      fun t => { t with place := .spilled, image := some (o, imageLen s tk), frees := none } := by
    rw [spillTeam_eq, spillPlace_offShadows, hp]
    simp only [hany, Bool.false_eq_true, if_false]
  rw [heq, updTeam_eq, getTeam_setTeam_same, getCore_setTeam]
  refine ⟨rfl, rfl, ?_⟩
  have h0 : (getCore (offShadows s tk) core).shadow = [] := by rw [getCore_offShadows, hsh]; simp
  refine foldl_rel (fr := fun a b => (getCore a core).shadow = [] → (getCore b core).shadow = []) (fun _ h => h) (fun h k x => k (h x))
    (fun s i h => ?_) _ _ h0
  unfold putPage
  split
  · exact shadow_sysPut _ _ h
  · exact h

/-- What the end of a grid makes of one launch (R405, R31). -/
def endEntry (s : State) (lk : Nat) (e : Nat × Launch) : Nat × Launch :=
  if e.2.stage = .retired then e
  else if e.1 = lk then (e.1, endWith 0x07 e.2)
  else if descends s lk 11 e.1 then (e.1, endWith 0x08 e.2)
  else e

theorem endGrid_eq (s : State) (lk : Nat) : endGrid s lk = { s with launches := s.launches.map (endEntry s lk) } := rfl

theorem endEntry_key (s : State) (lk : Nat) (e : Nat × Launch) : (endEntry s lk e).1 = e.1 := by
  unfold endEntry
  split
  · rfl
  · split
    · rfl
    · split <;> rfl

/-- A fatal fault of a grid that has not ended gives it the status of one (R405). -/
theorem fatal_fate {lk : Nat} {l : Launch} (f : RecF) (hl : tabFind s.launches lk = some l) (hs : l.stage ≠ .retired) (hf : l.fate = 0) :
    (getLaunch (fatal s lk f) lk).fate = 0x07 := by
  let z := fatalRecord s (getLaunch s lk).func (some lk) f
  have hz : z.launches = s.launches := by
    have hr := fatalRecord_frame s (getLaunch s lk).func (some lk) f
    unfold RecordFrame at hr
    rw [show z = _ from hr]
  have hfind : tabFind (fatal s lk f).launches lk = some (endEntry z lk (lk, l)).2 := by
    show tabFind (endGrid z lk).launches lk = _
    rw [endGrid_eq]
    dsimp only
    rw [tabFind_map _ (endEntry_key z lk), hz, hl]; rfl
  simp [getLaunch, tabGet, hfind, endEntry, hs, endWith, gridEnded, hf]

theorem spillTeam_lost {l : Launch} (hp : spillPlace s (spillFunc s tk) (imageLen s tk) = none)
    (hl : tabFind s.launches (getTeam s tk).launch = some l) (hs : l.stage ≠ .retired) (hf : l.fate = 0) :
    (getLaunch (spillTeam s tk) (getTeam s tk).launch).fate = 0x07 := by
  rw [spillTeam_eq, spillPlace_offShadows, hp]
  exact fatal_fate (s := offShadows s tk) _ hl hs hf

end

/-! ## The release of an ended team, R30, R60, R364 -/

section
variable {s : State} {tk c : Nat}

theorem exec_teamRelease_ended (hf : (tabFind s.teams tk).isSome) (he : teamEnded s tk = true) (hb : teamBusy s tk = false) :
    exec (.teamRelease tk) s = .next (releaseTeam s tk) := by
  simp only [exec_teamRelease, execTeamRelease, hf, he, hb, Bool.not_false, Bool.and_self, if_true]

/-- An ended team on one core begins that core's release at .sys. -/
theorem releaseTeam_begins (hn : (getTeam s tk).frees = none) (hp : (getTeam s tk).place = .resident) (hc : (getTeam s tk).cores = [c])
    (hd : (getCore s c).dark = false) :
    ∃ id r, getTeam (releaseTeam s tk) tk = { getTeam s tk with frees := some [id] } ∧ r ∈ (releaseTeam s tk).rels ∧ r.id = id ∧ r.core = c ∧
      r.scope = .sys ∧ (releaseTeam s tk).groups = s.groups := by
  let q := releaseAsk s c .sys (List.range Config.cores)
  have hone : ([c].filter fun c => !coreDark s c) = [c] := by simp [coreDark, hd]
  have heq : releaseTeam s tk = updTeam q.1 tk fun t => { t with frees := some [q.2] } := by
    simp only [releaseTeam, hn, hp, hc, hone, beq_self_eq_true, if_true]; rfl
  obtain ⟨hf, -, r, hr, hid, hrc, hsc⟩ := releaseAsk_spec s c .sys (List.range Config.cores)
  have hq : q.1 = { s with rels := q.1.rels, uid := q.1.uid, cores := q.1.cores } := hf
  rw [heq, updTeam_eq]
  refine ⟨q.2, r, ?_, hr, hid, hrc, hsc rfl, ?_⟩
  · rw [getTeam_setTeam_same, hq]; rfl
  · rw [setTeam_groups, hq]

theorem forgetTeam_gone (s : State) (tk : Nat) :
    tabFind (forgetTeam s tk).teams tk = none ∧ ∀ k g, (k, g) ∈ (forgetTeam s tk).groups → g.team ≠ tk := by
  refine ⟨tabFind_filter_ne _ _, fun k g h => ?_⟩
  have hm := (List.mem_filter.1 (show (k, g) ∈ s.groups.filter fun e => e.2.team != tk from h)).2
  simpa using hm

theorem getCore_forgetTeam (s : State) (tk c : Nat) :
    getCore (forgetTeam s tk) c = { getCore s c with shadow := (getCore s c).shadow.filter fun x => x != tk } :=
  getCore_mapCores s (fun x => { x with shadow := x.shadow.filter fun x => x != tk }) rfl c

/-- Once its release is over a team on one core leaves it, which gets the team's resources back, and its grid counts it. -/
theorem teamGone_spec (hp : (getTeam s tk).place = .resident) (hc : (getTeam s tk).cores = [c]) (hd : (getCore s c).dark = false) :
    let l := getLaunch s (getTeam s tk).launch
    let t := teamGone s tk
    tabFind t.teams tk = none ∧ (∀ k g, (k, g) ∈ t.groups → g.team ≠ tk) ∧
      (getLaunch t (getTeam s tk).launch).exited = (if (getTeam s tk).groups ≠ 0 ∧ teamExited s tk = true then l.exited + 1 else l.exited) ∧
      (getCore t c).fslot = (getCore s c).fslot + (needOf l 0).slots ∧ (getCore t c).fvreg = (getCore s c).fvreg + (needOf l 0).vregs := by
  intro l t
  let z := giveCore s c (needOf l 0)
  have hz : z = setCore s c { getCore s c with
      fslot := (getCore s c).fslot + (needOf l 0).slots, fvreg := (getCore s c).fvreg + (needOf l 0).vregs
      facc := (getCore s c).facc + (needOf l 0).accs, fscr := (getCore s c).fscr + (needOf l 0).scr } := giveCore_light _ hd
  have ht : t = updLaunch (forgetTeam z tk) (getTeam s tk).launch fun x =>
      { x with exited := if (getTeam s tk).groups != 0 && teamExited s tk then x.exited + 1 else x.exited } := by
    simp only [t, teamGone, hp, hc, beq_self_eq_true, if_true, Bool.true_and]; rfl
  obtain ⟨h1, h2⟩ := forgetTeam_gone z tk
  have hl : getLaunch (forgetTeam z tk) (getTeam s tk).launch = l := by rw [hz]; rfl
  have hcore : getCore t c = getCore (forgetTeam z tk) c := by rw [ht]; rfl
  refine ⟨by rw [ht]; exact h1, by rw [ht]; exact h2, ?_, ?_, ?_⟩
  · rw [ht, updLaunch_eq, getLaunch_setLaunch_same, hl]
    simp
  · rw [hcore, getCore_forgetTeam, hz, getCore_setCore_same]
  · rw [hcore, getCore_forgetTeam, hz, getCore_setCore_same]

theorem releaseTeam_over {ids : List Nat} (hf : (getTeam s tk).frees = some ids) (ho : relsOver s ids = true) : releaseTeam s tk = teamGone s tk := by
  simp only [releaseTeam, hf, ho, if_true]

end

end Sys2Proof.Machine
end

section
/-! SUPPORT. The roundabout starts a team (R61, R63, R137, R146, R364), a core goes dark (R68), and the statement Swaps. -/

namespace Sys2Proof.Machine

/-! ## A team starts on its cores, R137, R146, R364 -/

/-- Only cores change. -/
def CoreFrame (s t : State) : Prop := t = { s with cores := t.cores }

theorem CoreFrame.refl (s : State) : CoreFrame s s := rfl
theorem CoreFrame.trans {a b c : State} (h : CoreFrame a b) (k : CoreFrame b c) : CoreFrame a c := by
  unfold CoreFrame at *; exact k.trans (by rw [h])

theorem CoreFrame.updCore (s : State) (c : Nat) (f : Core → Core) : CoreFrame s (updCore s c f) := rfl

theorem takeSpan_frame (s : State) (l : Launch) (cs : List Nat) : CoreFrame s (takeSpan s l cs) :=
  foldl_rel CoreFrame.refl CoreFrame.trans (fun s j => CoreFrame.updCore s (cs.getD j 0) _) (List.range cs.length) s

theorem dropWait_frame (s : State) (key : Nat) : CoreFrame s (dropWait s key) := by
  unfold dropWait; split <;> rfl

/-- The cores of a team that starts: each acquires, and its constant cache is empty. -/
def acquireSpan (s : State) (tk : Nat) (cs : List Nat) : State := cs.foldl emptyConst (cs.foldl (acquireFor tk) s)

/-- Cores, acquires and the numbering change. -/
def AcquireFrame (s t : State) : Prop := t = { s with cores := t.cores, acqs := t.acqs, uid := t.uid }

theorem AcquireFrame.refl (s : State) : AcquireFrame s s := rfl
theorem AcquireFrame.trans {a b c : State} (h : AcquireFrame a b) (k : AcquireFrame b c) : AcquireFrame a c := by
  unfold AcquireFrame at *; exact k.trans (by rw [h])

/-- An acquire of a core for a team is under way (R364). -/
def Acquires (tk c : Nat) (s : State) : Prop := ∃ a, a ∈ s.acqs ∧ a.core = c ∧ a.team = some tk

theorem acquireFor_acqs (tk : Nat) (s : State) (c : Nat) :
    (acquireFor tk s c).acqs = s.acqs ++ [⟨s.uid, c, (getCore s c).acqf, s.now, some tk⟩] := rfl

theorem acquireSpan_spec (s : State) (tk : Nat) (cs : List Nat) :
    AcquireFrame s (acquireSpan s tk cs) ∧ ∀ c ∈ cs, Acquires tk c (acquireSpan s tk cs) := by
  obtain ⟨hf, ha⟩ := foldl_each (I := AcquireFrame s) (P := Acquires tk) (f := acquireFor tk) (fun _ _ h => h.trans rfl)
    (fun s c _ => ⟨_, by rw [acquireFor_acqs]; exact List.mem_append_right _ (List.mem_singleton_self _), rfl, rfl⟩)
    (fun s c d _ ⟨a, hm, h⟩ => ⟨a, by rw [acquireFor_acqs]; exact List.mem_append_left _ hm, h⟩) cs (AcquireFrame.refl s)
  have he : CoreFrame (cs.foldl (acquireFor tk) s) (acquireSpan s tk cs) :=
    foldl_rel CoreFrame.refl CoreFrame.trans (fun s c => CoreFrame.updCore s c _) cs _
  unfold CoreFrame at he
  refine ⟨hf.trans (by unfold AcquireFrame; rw [he]), fun c hc => ?_⟩
  obtain ⟨a, hm, h⟩ := ha c hc
  exact ⟨a, by rw [he]; exact hm, h⟩

/-- A group that has taken a slot with its threads at its launch's entry, as R146 leaves it. -/
def Seated (l : Launch) (tk gi : Nat) (g : Group) : Prop :=
  g.slot.isSome ∧ g.team = tk ∧ g.gidx = gi ∧ g.live = liveMask (l.tx * l.ty * l.tz) gi ∧ g.exited = 0 ∧ g.parked = 0 ∧
    g.det = l.det ∧ (∀ j, j ∈ lanesOf g.live → pcOf g j = l.entry) ∧ ∀ j n, vGet g j n = 0

/-- A new group of a team takes its slot. -/
def seatNew (l : Launch) (tk : Nat) (s : State) (gi : Nat) : State := seatGroup (setGroup s (groupKey tk gi) (newGroup l tk gi)) tk gi

theorem seatGroup_eq (s : State) (tk gi : Nat) : ∃ slot away st, seatGroup s tk gi = setGroup s (groupKey tk gi)
    { getGroup s (groupKey tk gi) with slot := some slot, away := away, lastIssue := s.now, nextOk := s.now, sstate := st
                                       eng := ⟨2, -8⟩, pre := ⟨2, -8⟩, eff := ⟨2, -8⟩ } := ⟨_, _, _, rfl⟩

theorem seatNew_eq (l : Launch) (tk : Nat) (s : State) (gi : Nat) : ∃ slot away st, seatNew l tk s gi = setGroup s (groupKey tk gi)
    { newGroup l tk gi with slot := some slot, away := away, lastIssue := s.now, nextOk := s.now, sstate := st
                            eng := ⟨2, -8⟩, pre := ⟨2, -8⟩, eff := ⟨2, -8⟩ } := by
  obtain ⟨slot, away, st, h⟩ := seatGroup_eq (setGroup s (groupKey tk gi) (newGroup l tk gi)) tk gi
  rw [getGroup_setGroup_same, setGroup_setGroup] at h
  exact ⟨slot, away, st, h⟩

theorem newGroup_pc (l : Launch) (tk gi j : Nat) (hj : j ∈ lanesOf (liveMask (l.tx * l.ty * l.tz) gi)) : pcOf (newGroup l tk gi) j = l.entry := by
  obtain ⟨hlt, hbit⟩ := (mem_lanesOf _ _).1 hj
  simp only [newGroup]
  rw [pcOf_setPcs _ _ _ _ hlt, if_pos hbit]

theorem seatNew_seated (l : Launch) (tk : Nat) (s : State) (gi : Nat) : Seated l tk gi (getGroup (seatNew l tk s gi) (96 * tk + gi)) := by
  obtain ⟨slot, away, st, h⟩ := seatNew_eq l tk s gi
  have hk : groupKey tk gi = 96 * tk + gi := rfl
  rw [h, hk, getGroup_setGroup_same]
  exact ⟨rfl, rfl, rfl, rfl, rfl, rfl, rfl, newGroup_pc l tk gi, fun _ _ => rfl⟩

/-- Only groups change. -/
def GroupFrame (s t : State) : Prop := t = { s with groups := t.groups }

theorem GroupFrame.refl (s : State) : GroupFrame s s := rfl
theorem GroupFrame.trans {a b c : State} (h : GroupFrame a b) (k : GroupFrame b c) : GroupFrame a c := by
  unfold GroupFrame at *; exact k.trans (by rw [h])

theorem seatNews_spec (l : Launch) (tk n : Nat) (s : State) :
    GroupFrame s ((List.range n).foldl (seatNew l tk) s) ∧
      ∀ gi, gi < n → Seated l tk gi (getGroup ((List.range n).foldl (seatNew l tk) s) (96 * tk + gi)) := by
  obtain ⟨hf, hall⟩ := foldl_each (I := GroupFrame s) (P := fun gi s => Seated l tk gi (getGroup s (96 * tk + gi))) (f := seatNew l tk)
    (fun z gi h => h.trans (by obtain ⟨_, _, _, h⟩ := seatNew_eq l tk z gi; rw [h]; rfl)) (fun z gi _ => seatNew_seated l tk z gi)
    (fun z gi gj _ hj => by
      by_cases he : gj = gi
      · subst he; exact seatNew_seated l tk z gj
      · obtain ⟨_, _, _, h⟩ := seatNew_eq l tk z gi
        have hk : 96 * tk + gj ≠ groupKey tk gi := fun h => he (Nat.add_left_cancel h)
        rw [h, getGroup_setGroup_other _ _ _ _ hk]
        exact hj) (List.range n) (GroupFrame.refl s)
  exact ⟨hf, fun gi hgi => hall gi (List.mem_range.2 hgi)⟩

theorem startTeam_eq (s : State) (tk : Nat) : startTeam s tk =
    (List.range (getTeam s tk).groups).foldl (seatNew (getLaunch s (getTeam s tk).launch) tk)
      (updTeam (acquireSpan s tk (getTeam s tk).cores) tk fun t => { t with place := .resident }) := rfl

/-- A team that starts is resident, each of its cores acquires, and each of its groups takes a slot. -/
theorem startTeam_spec (s : State) (tk : Nat) :
    (startTeam s tk).launches = s.launches ∧ getTeam (startTeam s tk) tk = { getTeam s tk with place := .resident } ∧
      (∀ c, c ∈ (getTeam s tk).cores → Acquires tk c (startTeam s tk)) ∧
      ∀ gi, gi < (getTeam s tk).groups → Seated (getLaunch s (getTeam s tk).launch) tk gi (getGroup (startTeam s tk) (96 * tk + gi)) := by
  obtain ⟨haf, ha⟩ := acquireSpan_spec s tk (getTeam s tk).cores
  let z := updTeam (acquireSpan s tk (getTeam s tk).cores) tk fun t => { t with place := .resident }
  obtain ⟨hgf, hg⟩ := seatNews_spec (getLaunch s (getTeam s tk).launch) tk (getTeam s tk).groups z
  unfold AcquireFrame at haf
  unfold GroupFrame at hgf
  rw [startTeam_eq]
  refine ⟨?_, ?_, fun c hc => ?_, hg⟩
  · rw [hgf]; show (acquireSpan s tk (getTeam s tk).cores).launches = _; rw [haf]
  · have hz : getTeam z tk = { getTeam s tk with place := .resident } := by
      simp only [z, updTeam_eq, getTeam_setTeam_same]; rw [haf]; rfl
    rw [hgf]; exact hz
  · obtain ⟨a, hm, h⟩ := ha c hc
    exact ⟨a, by rw [hgf]; exact hm, h⟩

/-! ## One decision of the roundabout, R63 -/

/-- A launch of which a unit is placed has not been passed over. -/
theorem getLaunch_countPassed (s : State) (lk : Nat) : getLaunch (countPassed s lk) lk = getLaunch s lk := by
  simp only [getLaunch, tabGet, countPassed]
  rw [tabFind_map _ fun e => by split <;> rfl]
  cases tabFind s.launches lk with
  | none => rfl
  | some l => simp

theorem reserveTeam_spec (s : State) (lk task : Nat) (cs : List Nat) :
    (reserveTeam s lk task cs none).2 = s.uid ∧ (reserveTeam s lk task cs none).1.launches = s.launches ∧
      getTeam (reserveTeam s lk task cs none).1 s.uid = { teamReset with
        launch := lk, task := task, cores := cs, place := .reserved, gang := none
        groups := groupsOf ((getLaunch s lk).tx * (getLaunch s lk).ty * (getLaunch s lk).tz) } := by
  have hf : CoreFrame _ (reserveTeam s lk task cs none).1 := takeSpan_frame _ _ _
  unfold CoreFrame at hf
  refine ⟨rfl, ?_, ?_⟩
  · rw [hf]; rfl
  · rw [hf]; exact getTeam_setTeam_same _ _ _

section
variable {s : State} {lk task : Nat} {us : List Unit'} {cs : List Nat}

/-- While no gang is under way and no launch starves, the first unit is placed, when it has cores. -/
theorem roundabout_places (hg : s.gang = none) (hs : starving s (unitList s) = []) (hu : unitList s = .fresh lk task :: us)
    (hc : (getLaunch s lk).considered = true) (hcs : unitCores s (.fresh lk task) = some cs) :
    roundabout s = placeUnit (countPassed s lk) (.fresh lk task) cs := by
  rw [hu] at hs
  simp only [roundabout, hg, hu, hs, considerUnits, unitLaunch, hc, Bool.not_true, Bool.false_and, Bool.false_eq_true, if_false, heldBack,
    List.any_nil, hcs]

/-- The unit of one team is reserved and starts at once. -/
theorem placeUnit_fresh (hn : isNbhd (getLaunch s lk) = false) : placeUnit s (.fresh lk task) cs =
    let z := dropWait s (waitKey lk task)
    let r := reserveTeam z lk task cs none
    updLaunch (updLaunch (startTeam r.1 r.2) lk fun l => { l with unplaced := dropTask l.unplaced task }) lk
      fun l => { l with waiting := false, passed := 0 } := by
  simp only [placeUnit, unitLaunch, unitTask, hn, Bool.false_eq_true, if_false]

/-- The team of a unit that is placed runs on its cores. -/
theorem placeUnit_fresh_spec (hn : isNbhd (getLaunch s lk) = false) :
    let l := getLaunch s lk
    let t := placeUnit s (.fresh lk task) cs
    (getTeam t s.uid).launch = lk ∧ (getTeam t s.uid).task = task ∧ (getTeam t s.uid).cores = cs ∧ (getTeam t s.uid).place = .resident ∧
      (getLaunch t lk).unplaced = dropTask l.unplaced task ∧ (∀ c, c ∈ cs → Acquires s.uid c t) ∧
      ∀ gi, gi < groupsOf (l.tx * l.ty * l.tz) → Seated l s.uid gi (getGroup t (96 * s.uid + gi)) := by
  intro l t
  let z := dropWait s (waitKey lk task)
  have hz : z = { s with cores := z.cores } := dropWait_frame _ _
  have huid : z.uid = s.uid := by rw [hz]
  have hzl : getLaunch z lk = l := by rw [hz]; rfl
  let r := reserveTeam z lk task cs none
  obtain ⟨hr, hrl, hrt⟩ := reserveTeam_spec z lk task cs
  rw [huid] at hr hrt
  rw [hzl] at hrt
  have hlr : getLaunch r.1 lk = l := by rw [← hzl]; simp only [getLaunch]; rw [hrl]
  obtain ⟨hsl, hst, hsa, hsg⟩ := startTeam_spec r.1 s.uid
  rw [hrt] at hst hsa hsg
  have ht : t = updLaunch (updLaunch (startTeam r.1 s.uid) lk fun l => { l with unplaced := dropTask l.unplaced task }) lk
      fun l => { l with waiting := false, passed := 0 } := by rw [← hr]; exact placeUnit_fresh hn
  have htt : getTeam t s.uid = getTeam (startTeam r.1 s.uid) s.uid := by rw [ht]; rfl
  have hls : getLaunch (startTeam r.1 s.uid) lk = l := by rw [← hlr]; simp only [getLaunch]; rw [hsl]
  rw [htt, hst]
  refine ⟨rfl, rfl, rfl, rfl, ?_, fun c hc => ?_, fun gi hgi => ?_⟩
  · rw [ht]; simp [hls]
  · obtain ⟨a, hm, h⟩ := hsa c hc
    exact ⟨a, by rw [ht]; exact hm, h⟩
  · have h := hsg gi hgi
    rw [show getLaunch r.1 lk = l from hlr] at h
    rw [ht]
    exact h

end

/-! ## Dark cores, R68 -/

/-- No core's DARK changes. -/
def DarkFrame (s t : State) : Prop := ∀ c, (getCore t c).dark = (getCore s c).dark

theorem DarkFrame.refl (s : State) : DarkFrame s s := fun _ => rfl
theorem DarkFrame.trans {a b c : State} (h : DarkFrame a b) (k : DarkFrame b c) : DarkFrame a c := fun n => (k n).trans (h n)

theorem DarkFrame.held (s : State) (f : List Nat → List Nat) (h : f [] = []) :
    DarkFrame s { s with cores := s.cores.map fun e => (e.1, { e.2 with heldTeam := f e.2.heldTeam }) } := by
  intro c
  rw [getCore_mapCores s (fun x => { x with heldTeam := f x.heldTeam }) (by simp only [coreReset, h]) c]

theorem holdKey_dark (s : State) (key : Nat) : DarkFrame s (holdKey s key) := by
  refine foldl_rel DarkFrame.refl DarkFrame.trans (fun z c d => ?_) (waitCores s key) s
  rw [getCore_updCore]
  split
  · next h => rw [h]
  · rfl

theorem moveHeld_dark (s : State) : DarkFrame s (moveHeld s) :=
  (DarkFrame.held s (fun _ => []) rfl).trans (foldl_rel DarkFrame.refl DarkFrame.trans holdKey_dark _ _)

theorem unplaceable_dark (s : State) (lk : Nat) : DarkFrame s (unplaceable s lk) :=
  DarkFrame.held s (fun ks => ks.filter fun k => k / 2 ^ 32 != lk) rfl

/-- A core that goes dark is dark, whatever launches that costs their places. -/
theorem goDark_dark (s : State) (c : Nat) : (getCore (goDark s c) c).dark = true := by
  have h0 : (getCore (updCore s c fun x => { x with dark := true }) c).dark = true := by simp
  have h1 : (getCore (moveHeld (updCore s c fun x => { x with dark := true })) c).dark = true := (moveHeld_dark _ c).trans h0
  refine Eq.trans ?_ h1
  refine foldl_rel DarkFrame.refl DarkFrame.trans (fun z e => ?_) _ _ c
  split
  · exact unplaceable_dark _ _
  · exact .refl z

theorem exec_coreDark_dark {s : State} {c : Nat} (hc : c < 192) (hr : regionDark s c = true) (hd : (getCore s c).dark = false) :
    exec (.coreDark c) s = .next (goDark s c) := by
  have hlt : c < Config.cores := hc
  simp only [exec_coreDark, execCoreDark, coreDark, hlt, hr, hd, decide_true, Bool.not_false, Bool.and_self, if_true]

/-! ## The statement -/

/-- Settles O47: each event does what its own lemma says: the exchange of two groups, the banks of cores, the end of a swap, the spill, one
placement, the release of a team, and a dark core. -/
theorem swaps : Obligations.Swaps := by
  refine ⟨?_, ?_, ?_⟩
  · intro s core slice sl mine comes goes
    refine ⟨?_, ?_⟩
    · intro inn out hi ho
      obtain ⟨hpend, hready, hlong⟩ := entering_spec hi
      obtain ⟨hact, hwhy⟩ := leaving_spec ho
      refine ⟨⟨hpend, hready, hlong⟩, ⟨hact, hwhy⟩, exchange s out inn, ?_, exchange_spec (pending_ne_active hpend hact)⟩
      exact congrArg Host.Outcome.next (swapSlice_exchange hi ho)
    · intro inn hi
      have heq := promoteSlice_eq (sl := sl) hi
      refine ⟨fun hnone => ⟨setSState s inn .active, ?_, setSState_spec s inn .active⟩, fun a hm ha => ?_⟩
      · rw [lastIssued_none hnone] at heq
        exact congrArg Host.Outcome.next heq
      · obtain ⟨out, ho, hmem, hact, hlast⟩ := lastIssued_spec hm ha
        rw [ho] at heq
        exact ⟨exchange s out inn, out, congrArg Host.Outcome.next heq, hmem, hact, hlast,
          exchange_spec (pending_ne_active (overdue_pending hi) hact)⟩
  · intro s core
    refine ⟨?_, ?_, ?_⟩
    · intro cs ts hset hne hfree
      obtain ⟨hoff, hturn⟩ := swapBanks_spec s cs ts
      exact ⟨_, exec_coreSwap_banks hset hne hfree, hoff, fun c tk hc htk hcore => hturn c hc tk htk hcore⟩
    · intro c0 tk hat hle _ n x hback hd
      exact exec_swapComplete_gives hat hle hback hd
    · intro tk hat hsh hw hcs l bs n
      have hdue := spillCore_due (tk := tk) (core := core) (s := s) ⟨hat, hsh, hw, hcs⟩
      refine ⟨fun hf => ?_, fun ids o hf ho hp hpages => ?_, fun ids hf ho hp hl hst hfate => ?_⟩
      · obtain ⟨ids, ht, hg, hr⟩ := spillRelease_spec s tk
        rw [hf] at hdue
        exact ⟨_, ids, congrArg Host.Outcome.next hdue, ht, hg, hr⟩
      · simp only [hf, Option.isNone_some, Bool.false_eq_true, if_false, Option.getD_some, ho, if_true] at hdue
        exact ⟨_, congrArg Host.Outcome.next hdue, spillTeam_placed hp hpages hsh⟩
      · simp only [hf, Option.isNone_some, Bool.false_eq_true, if_false, Option.getD_some, ho, if_true] at hdue
        exact ⟨_, congrArg Host.Outcome.next hdue, spillTeam_lost hp hl hst hfate⟩
  · intro s
    refine ⟨?_, ?_, ?_⟩
    · intro lk task us cs hg hs hu hc hcs hn l
      have hn' : isNbhd (getLaunch (countPassed s lk) lk) = false := by rw [getLaunch_countPassed]; exact hn
      have h := placeUnit_fresh_spec (task := task) (cs := cs) hn'
      rw [getLaunch_countPassed] at h
      exact ⟨_, congrArg Host.Outcome.next (roundabout_places hg hs hu hc hcs), h⟩
    · intro tk c hf he hb hp hc hd l
      have hex := exec_teamRelease_ended hf he hb
      refine ⟨fun hn => ?_, fun ids hfr ho => ?_⟩
      · obtain ⟨id, r, h⟩ := releaseTeam_begins hn hp hc hd
        exact ⟨_, id, r, hex, h⟩
      · rw [releaseTeam_over hfr ho] at hex
        exact ⟨_, hex, teamGone_spec hp hc hd⟩
    · intro c hc hr hd
      exact ⟨_, exec_coreDark_dark hc hr hd, goDark_dark s c⟩

end Sys2Proof.Machine
end

section
/-! SUPPORT. Writes of queue, crossing and device registers (R33 to R35, R41, R56, R237, R238, R244, R299, R308): what a write through a
function's BAR makes of the register that it names, and the statement RegisterBlocks. -/

namespace Sys2Proof.Machine

/-- Once the device runs, a write by a function that the host has enabled takes effect (R297, R429). -/
theorem openWrite_open {s : State} {f : Nat} (t : State) (hs : running s = true) (he : f ≤ s.pcie.numVfs) : openWrite s f t = t := by
  simp [openWrite, hs, Nat.not_lt.mpr he]

/-! ## Queues and crossings -/

/-- Of its queue a freeze changes the state and the reason alone (R56). -/
theorem getQueue_freezeQueue (s : State) (q idx : Nat) (reason : BitVec 8) :
    getQueue (freezeQueue s q idx reason) q = { getQueue s q with frozen := true, reason := reason } := by
  let z := updQueue s q fun x => { x with frozen := true, reason := reason }
  have hq : (freezeQueue s q idx reason).queues = z.queues := by
    have h : RecordFrame z (freezeQueue s q idx reason) := fatalRecord_frame _ _ _ _
    rw [h]
  have hz : getQueue (freezeQueue s q idx reason) q = getQueue z q := by rw [getQueue, hq]; rfl
  rw [hz]
  exact getQueue_setQueue_same _ _ _

section
variable {s : State} {f q k : Nat} {v : Word}

/-- A tail within the queue's capacity is taken, and one at the head leaves no packet pending; one beyond it freezes the queue (R35, R56). -/
theorem qtailWrite_owned (hq : q < 1024) (ho : (getQueue s q).owner = f) :
    let x := getQueue s q
    qtailWrite s f q v =
      if 2 ^ x.qsize < (v - x.qhead).toNat then freezeQueue s q v.toNat 0x06
      else setQueue s q (if v = x.qhead then { x with qtail := v, head := none, checked := false, waiting := false } else { x with qtail := v }) := by
  intro x
  have hg : (decide (q < Config.queues) && decide (x.owner = f)) = true := by simp [x, Config.queues, hq, ho]
  exact if_pos hg

/-- What a QCTL write sets whether or not it resets the queue (R33). -/
def qctlFields (x : Queue) (f since : Nat) (v : Word) : Queue :=
  { x with qvec := v.extractLsb' 8 6, pmax := if f = 0 then v.extractLsb' 1 3 else x.pmax, en := v.getLsbD 0
           since := if v.getLsbD 0 && !x.en then since else x.since }

/-- A QCTL write by the queue's function; it resets the queue when it asks for that while EN is 0 (R33). -/
theorem qctlWrite_owned (hs : running s = true) (hq : q < 1024) (ho : (getQueue s q).owner = f) :
    let x := getQueue s q
    let y := qctlFields x f s.uid v
    qctlWrite s f q v = setQueue { s with uid := s.uid + 1 } q (if v.getLsbD 4 && !x.en
      then { y with qhead := 0, qtail := 0, frozen := false, reason := 0, waiting := false, head := none, checked := false } else y) := by
  intro x y
  have hg : ¬ (!running s || !(decide (q < Config.queues)) || x.owner != f) = true := by simp [x, Config.queues, hs, hq, ho]
  exact if_neg hg

/-- The owner of a queue changes only while the queue is not enabled (R34). -/
theorem ownWrite_queue (hs : running s = true) (hq : q < 1024) : ownWrite s 0 false q v =
    if (getQueue s q).en then s else setQueue s q { getQueue s q with owner := (v.extractLsb' 0 6).toNat } := by
  cases he : (getQueue s q).en <;> simp [ownWrite, Config.queues, hs, hq, he]

/-- A crossing that is not bound binds to two queues of the function; the physical function may bind any (R41). -/
theorem xcfgWrite_binds (hs : running s = true) (hk : k < 4096) (ho : (getXing s k).owner = f) (he : (getXing s k).en = false)
    (hb : v.getLsbD 31 = true)
    (hown : f = 0 ∨ ((getQueue s (v.extractLsb' 0 10).toNat).owner = f ∧ (getQueue s (v.extractLsb' 16 10).toNat).owner = f)) :
    xcfgWrite s f k v = setXing s k { getXing s k with
      ovf := (getXing s k).ovf && !v.getLsbD 30, prod := v.extractLsb' 0 10, cons := v.extractLsb' 16 10, en := true, tokens := 0 } := by
  have hbind : (v.getLsbD 31 && (f == 0 || ((getQueue s (v.extractLsb' 0 10).toNat).owner == f &&
      (getQueue s (v.extractLsb' 16 10).toNat).owner == f))) = true := by
    simpa [hb] using hown
  simp only [xcfgWrite, hs, hk, ho, he, Config.crossings, hbind]
  simp

end

/-! ## The plaza and the injection register -/

/-- A write-back of every line leaves L2 empty. -/
theorem l2WriteBack_all (s : State) : (l2WriteBack s fun _ => true).l2 = [] := by simp [l2WriteBack]

section
variable {s : State} {n : Nat} {v : Word}

theorem plzcfgWrite_resizes (hs : running s = true) (hi : deviceIdle s = true) (hle : (v.extractLsb' 0 4).toNat ≤ 8)
    (hne : (v.extractLsb' 0 4).toNat ≠ s.supply.plzSize) : plzcfgWrite s 0 v =
      { l2WriteBack s (fun _ => true) with plaza := [], supply := { s.supply with plzSize := (v.extractLsb' 0 4).toNat } } := by
  simp only [plzcfgWrite, hs, hi, Nat.not_lt.mpr hle, beq_false_of_ne hne]
  rfl

/-- LEN and BASE of a plaza register, each read back from the word that holds both. -/
theorem plzf_fields (len base : BitVec 12) :
    (len.zeroExtend 32 <<< 12 ||| base.zeroExtend 32).extractLsb' 0 12 = base ∧
      (len.zeroExtend 32 <<< 12 ||| base.zeroExtend 32).extractLsb' 12 12 = len := by
  constructor
  · ext i hi
    have hlt : i < 32 := by omega
    simp [hi, hlt]
  · ext i hi
    have hlt : 12 + i < 32 := by omega
    simp [hi, hlt]

theorem plzfWrite_in_range (hs : running s = true) (hi : deviceIdle s = true) (hn : n < 64) (hb : (v.extractLsb' 0 12).toNat ≤ 255)
    (hl : (v.extractLsb' 12 12).toNat ≤ 256) :
    plazaRange (plzfWrite s 0 n v) n = ((v.extractLsb' 0 12).toNat * 2 ^ 20, (v.extractLsb' 12 12).toNat * 2 ^ 20) := by
  obtain ⟨hbase, hlen⟩ := plzf_fields (v.extractLsb' 12 12) (v.extractLsb' 0 12)
  simp only [plzfWrite, hs, hi, hn, hb, hl, Config.functions, if_true, plazaRange]
  simp [hbase, hlen]

/-- While a launch is resident or an engine is active, neither the plaza's size nor a range changes (R237, R238). -/
theorem plaza_writes_busy (hi : deviceIdle s = false) : plzcfgWrite s 0 v = s ∧ plzfWrite s 0 n v = s := by
  simp [plzcfgWrite, plzfWrite, hi]

end

/-- The word that a VLINJ write leaves: FIRED as given, ARM, BIT and OFF from the write (R308). -/
theorem vlinj_word (v : DWord) (b : Bool) :
    let r := (v &&& 0x800003FFFFFFFFFF#64) ||| (if b then 0x4000000000000000#64 else 0)
    r.getLsbD 63 = v.getLsbD 63 ∧ r.extractLsb' 0 42 = v.extractLsb' 0 42 ∧ r.getLsbD 62 = b := by
  have hmask : ∀ i < 42, (0x800003FFFFFFFFFF#64).getLsbD i = true ∧ (0x4000000000000000#64).getLsbD i = false := by decide
  have hlow : ∀ i < 42, ((v &&& 0x800003FFFFFFFFFF#64) ||| (if b then 0x4000000000000000#64 else 0)).getLsbD i = v.getLsbD i := by
    intro i hi
    obtain ⟨hm, hb⟩ := hmask i hi
    cases b <;> simp [BitVec.getLsbD_or, BitVec.getLsbD_and, hm, hb]
  refine ⟨?_, ?_, ?_⟩
  · cases b <;> simp
  · ext i hi
    simpa [hi] using hlow i hi
  · cases b <;> simp

/-- A write sets ARM, BIT and OFF; FIRED stays until a one is written to it, and no write sets it (R308). -/
theorem vlinjWrite_fields (s : State) (w : DWord) :
    let r := (vlinjWrite s 0 w).peers.vlinj
    r.getLsbD 63 = w.getLsbD 63 ∧ r.extractLsb' 0 42 = w.extractLsb' 0 42 ∧
      (r.getLsbD 62 = true ↔ s.peers.vlinj.getLsbD 62 = true ∧ w.getLsbD 62 = false) := by
  obtain ⟨harm, hlow, hfired⟩ := vlinj_word w (s.peers.vlinj.getLsbD 62 && !w.getLsbD 62)
  refine ⟨harm, hlow, ?_⟩
  rw [← Bool.not_eq_true', ← Bool.and_eq_true, ← hfired]
  rfl

/-! ## Writes through BAR0 -/

section
variable {s : State} {f off w : Nat} {v : DWord}

/-- Neither gate of a BAR0 write closes once the device runs: the function is enabled, and the offset is not the mailbox buffer's. -/
theorem writeGates_open (hs : running s = true) (hf : f < 64) (he : f ≤ s.pcie.numVfs) (hm : outsideMailbox off) :
    (!regOpen s off || !(decide (f < Config.functions)) || decide (s.pcie.numVfs < f)) = false ∧
      (decide (f = 0) && decide (0x110000 ≤ off) && decide (off < 0x120000)) = false := by
  have hn : ¬ (0x110000 ≤ off ∧ off < 0x120000) := by unfold outsideMailbox at hm; omega
  constructor
  · simp [regOpen, hs, Config.functions, hf, he]
  · simp only [← Bool.decide_and]
    exact decide_eq_false fun ⟨⟨_, hlo⟩, hhi⟩ => hn ⟨hlo, hhi⟩

theorem registerWrite_whole (hs : running s = true) (hf : f < 64) (he : f ≤ s.pcie.numVfs) (hm : outsideMailbox off)
    (hw : regWidth f off = 8) (ha : off % 8 = 0) : registerWrite s f off 8 v = regWrite s f off v := by
  obtain ⟨hopen, hbuf⟩ := writeGates_open hs hf he hm
  simp [registerWrite, hopen, hbuf, hw, ha]

/-- A lower half waits for its upper half (R299). -/
theorem registerWrite_low_half (hs : running s = true) (hf : f < 64) (he : f ≤ s.pcie.numVfs) (hm : outsideMailbox off)
    (hw : regWidth f off = 8) (ha : off % 8 = 0) : registerWrite s f off 4 v =
      setFunc s f { getFunc s f with low := tabPut (getFunc s f).low off (v.extractLsb' 0 32) } := by
  obtain ⟨hopen, hbuf⟩ := writeGates_open hs hf he hm
  simp [registerWrite, hopen, hbuf, hw, ha]

/-- The upper half writes the register, with the lower half that waits (R299). -/
theorem registerWrite_high_half {low : Word} (hs : running s = true) (hf : f < 64) (he : f ≤ s.pcie.numVfs) (hm : outsideMailbox (off + 4))
    (hw : regWidth f off = 8) (hn : regWidth f (off + 4) = 0) (ha : off % 8 = 0) (hl : tabFind (getFunc s f).low off = some low) :
    registerWrite s f (off + 4) 4 v =
      regWrite (setFunc s f { getFunc s f with low := tabErase (getFunc s f).low off }) f off
        ((v.extractLsb' 0 32).zeroExtend 64 <<< 32 ||| low.zeroExtend 64) := by
  obtain ⟨hopen, hbuf⟩ := writeGates_open hs hf he hm
  have ha4 : (off + 4) % 8 = 4 := by omega
  simp only [registerWrite, hopen, hbuf, Bool.false_eq_true, if_false, hw, hn, ha4, hl, Nat.add_sub_cancel]
  simp

/-- A write of a width that the register does not have, and that is not a half of it, is ignored (R299). -/
theorem registerWrite_other_width (hs : running s = true) (hf : f < 64) (he : f ≤ s.pcie.numVfs) (hm : outsideMailbox off)
    (hw : regWidth f off ≠ w) (h4 : w ≠ 4) : registerWrite s f off w v = s := by
  obtain ⟨hopen, hbuf⟩ := writeGates_open hs hf he hm
  simp [registerWrite, hopen, hbuf, Ne.symm hw, h4]

/-- While the device does not run, only the mailbox can be written (R429, R431). -/
theorem registerWrite_closed (hs : running s = false) (hc : off ≠ 0x100008) (hm : outsideMailbox off) : registerWrite s f off w v = s := by
  have hn : ¬ (0x110000 ≤ off ∧ off < 0x120000) := by unfold outsideMailbox at hm; omega
  have hopen : regOpen s off = false := by
    simp only [regOpen, hs, beq_false_of_ne hc, ← Bool.decide_and]
    simpa using hn
  simp [registerWrite, hopen]

/-- The registers of a function's own block stand behind its offset 0x10000. -/
theorem regWidth_block {o : Nat} (ho : o < 0x10000) : regWidth f (0x10000 + o) = tabGet 0 blockRegs o := by
  have h1 : ¬ 0x10000 + o < 0x8000 := by omega
  have h2 : ¬ 0x10000 + o < 0x10000 := by omega
  simp only [regWidth, h1, h2, if_false, blockOf_own f ho]

theorem regWrite_block {o : Nat} (ho : o < 0x10000) : regWrite s f (0x10000 + o) v = blockReg s f f o v := by
  have h1 : ¬ 0x10000 + o < 0x8000 := by omega
  have h2 : ¬ 0x10000 + o < 0x10000 := by omega
  simp only [regWrite, h1, h2, if_false, blockOf_own f ho]

theorem regWrite_ptab (s : State) (f : Nat) (v : DWord) :
    regWrite s f 0x10008 v = setFunc s f { getFunc s f with ptab := v &&& 0x00FFFFFFFFFFFFFF#64 } :=
  regWrite_block (o := 8) (by decide)

/-- PTAB by halves: the lower half leaves it as it was, and the upper half then writes it (R244, R299). -/
theorem ptab_halves (w : DWord) (hs : running s = true) (hf : f < 64) (he : f ≤ s.pcie.numVfs) :
    let t := registerWrite s f 0x10008 4 v
    (getFunc t f).ptab = (getFunc s f).ptab ∧ (getFunc (registerWrite t f 0x1000C 4 w) f).ptab =
      ((w.extractLsb' 0 32).zeroExtend 64 <<< 32 ||| (v.extractLsb' 0 32).zeroExtend 64) &&& 0x00FFFFFFFFFFFFFF#64 := by
  intro t
  have hw : regWidth f 0x10008 = 8 := regWidth_block (o := 8) (by decide)
  have hn : regWidth f 0x1000C = 0 := regWidth_block (o := 0xC) (by decide)
  have ht : t = setFunc s f { getFunc s f with low := tabPut (getFunc s f).low 0x10008 (v.extractLsb' 0 32) } :=
    registerWrite_low_half hs hf he (.inl (by decide)) hw (by decide)
  have hlow : tabFind (getFunc t f).low 0x10008 = some (v.extractLsb' 0 32) := by
    rw [ht, getFunc_setFunc_same]; exact tabFind_tabPut_same _ _ _
  have hst : running t = true := by rw [ht]; exact hs
  have het : f ≤ t.pcie.numVfs := by rw [ht]; exact he
  refine ⟨by rw [ht, getFunc_setFunc_same], ?_⟩
  rw [registerWrite_high_half hst hf het (.inl (by decide)) hw hn (by decide) hlow, regWrite_ptab, getFunc_setFunc_same]

end

/-! ## The statement -/

/-- Settles O48: a write that is admitted is the write of its register, which the lemma about that register describes. -/
theorem registerBlocks : Obligations.RegisterBlocks := by
  refine ⟨?_, ?_, ?_⟩
  · intro s f q v hs he hq ho x
    have htail : exec (.qtailWrite f q v) s = .next (qtailWrite s f q v) := congrArg Host.Outcome.next (openWrite_open _ hs he)
    have hctl : exec (.queueEnable f q v) s = .next (qctlWrite s f q v) := congrArg Host.Outcome.next (openWrite_open _ hs he)
    have hown : exec (.ownershipWrite 0 false q v) s = .next (ownWrite s 0 false q v) := rfl
    rw [htail, hctl, hown, qtailWrite_owned hq ho, qctlWrite_owned hs hq ho, ownWrite_queue hs hq]
    refine ⟨fun hc hne => ?_, fun hv => ?_, fun hc => ?_, fun hr hen => ?_, fun hn => ?_, fun hen => ?_, fun hen => ?_,
      fun k hk hko hke hb hown => ?_⟩
    · rw [if_neg (Nat.not_lt.mpr hc), if_neg hne]
    · have hc : ¬ 2 ^ x.qsize < (v - x.qhead).toNat := by simp [hv]
      rw [if_neg hc, if_pos hv]
    · rw [if_pos hc]
      exact ⟨_, rfl, getQueue_freezeQueue _ _ _ _⟩
    · have hreset : exec (.queueReset f q v) s = .next (qctlWrite s f q v) :=
        congrArg Host.Outcome.next ((if_pos hr).trans (openWrite_open _ hs he))
      refine ⟨_, hreset, ?_⟩
      rw [qctlWrite_owned hs hq ho, getQueue_setQueue_same, if_pos (by simp [hr, x, hen])]
      exact ⟨rfl, rfl, rfl, rfl, rfl, rfl, rfl⟩
    · have hb : ¬ (v.getLsbD 4 && !x.en) = true := by rcases hn with h | h <;> simp only [x, h] <;> simp
      rw [if_neg hb]
      exact ⟨_, rfl, by simp [qctlFields, x]⟩
    · rw [if_neg (by simp [x, hen])]
    · rw [if_pos hen]
    · have hx : exec (.crossingBind f k v) s = .next (xcfgWrite s f k v) := congrArg Host.Outcome.next (openWrite_open _ hs he)
      rw [hx, xcfgWrite_binds hs hk hko hke hb hown]
      exact ⟨_, rfl, by simp⟩
  · intro s n v w hs
    refine ⟨fun hi hle hne => ?_, fun hi hn hb hl => ⟨_, rfl, plzfWrite_in_range hs hi hn hb hl⟩, fun hi => ?_, ?_⟩
    · refine ⟨_, congrArg Host.Outcome.next (plzcfgWrite_resizes hs hi hle hne), rfl, rfl, l2WriteBack_all s⟩
    · obtain ⟨hsize, hrange⟩ := plaza_writes_busy (v := v) (n := n) hi
      exact ⟨congrArg Host.Outcome.next hsize, congrArg Host.Outcome.next hrange⟩
    · exact ⟨_, congrArg Host.Outcome.next (openWrite_open _ hs (Nat.zero_le _)), vlinjWrite_fields s w⟩
  · intro s f v w hf he
    have hw : regWidth f 0x10008 = 8 := regWidth_block (o := 8) (by decide)
    refine ⟨fun hs => ⟨?_, ?_, ?_⟩, fun hs => congrArg Host.Outcome.next (registerWrite_closed hs (by decide) (.inl (by decide)))⟩
    · exact congrArg Host.Outcome.next
        ((registerWrite_whole hs hf he (.inl (by decide)) hw (by decide)).trans (regWrite_ptab s f v))
    · exact congrArg Host.Outcome.next (registerWrite_other_width hs hf he (.inl (by decide)) (by simp [hw]) (by decide))
    · obtain ⟨hlow, hhigh⟩ := ptab_halves (v := v) w hs hf he
      exact ⟨_, _, rfl, hlow, rfl, hhigh⟩

end Sys2Proof.Machine
end

section
/-! SUPPORT. Packets that start (R37 to R43, R48, R54): the head that the front end chooses is a head that may start, what its start
leaves of its queue, and the statement PacketsStart. -/

namespace Sys2Proof.Machine

/-! ## Bytes and images -/

theorem leBytes_length (n v : Nat) : (leBytes n v).length = n := by
  induction n generalizing v with
  | zero => rfl
  | succ n ih => simp [leBytes, ih]

theorem leBytes_getD {n i : Nat} (v : Nat) (hi : i < n) : (leBytes n v).getD i 0 = BitVec.ofNat 8 (v / 256 ^ i) := by
  induction n generalizing v i with
  | zero => omega
  | succ n ih =>
    cases i with
    | zero => simp [leBytes]
    | succ i =>
      have hdiv : v / 256 / 256 ^ i = v / 256 ^ (i + 1) := by rw [Nat.div_div_eq_div_mul, Nat.pow_succ']
      simpa [leBytes, hdiv] using ih (v / 256) (Nat.lt_of_succ_lt_succ hi)

/-- Each byte of a word written at system scope reads as that byte of the word. -/
theorem sysByte_sysPut_leBytes (s : State) (pa v : Nat) {n i : Nat} (hi : i < n) :
    sysByte (sysPut s pa (leBytes n v)) (pa + i) = BitVec.ofNat 8 (v / 256 ^ i) := by
  rw [sysByte_sysPut _ _ _ (by rwa [leBytes_length]), leBytes_getD v hi]

/-- Entries put at consecutive keys are all found. -/
theorem tabFind_foldl_tabPut {α : Type} (t : List (Nat × α)) (base : Nat) (f : Nat → α) {n i : Nat} (hi : i < n) :
    tabFind ((List.range n).foldl (fun m i => tabPut m (base + i) (f i)) t) (base + i) = some (f i) := by
  induction n with
  | zero => omega
  | succ n ih =>
    rw [List.range_succ, List.foldl_append, List.foldl_cons, List.foldl_nil]
    rcases Nat.lt_or_eq_of_le (Nat.lt_succ_iff.1 hi) with hlt | rfl
    · rw [tabFind_tabPut_other _ _ _ _ (by omega), ih hlt]
    · exact tabFind_tabPut_same _ _ _

section
variable {s : State} {g nodes : Nat} {ns : List Nat}

/-- An image that passes every check is in the store, and its graph is valid (R48). -/
theorem loadImage_accepted (h : imageErr (getGraph s g).gbase (getGraph s g).glen nodes ns = 0) :
    getGraph (loadImage s g nodes ns) g = { getGraph s g with err := 0, ign := false, lost := false, abn := false, nodes := nodes } ∧
      ∀ i, i < ns.length → tabFind (loadImage s g nodes ns).store ((getGraph s g).gbase + i) = some (BitVec.ofNat 512 (ns.getD i 0)) := by
  simp only [loadImage, h, if_true]
  exact ⟨getGraph_setGraph_same _ _ _, fun i hi => tabFind_foldl_tabPut _ _ (fun i => BitVec.ofNat 512 (ns.getD i 0)) hi⟩

theorem loadImage_rejected (h : imageErr (getGraph s g).gbase (getGraph s g).glen nodes ns ≠ 0) :
    loadImage s g nodes ns =
      setGraph s g { getGraph s g with err := BitVec.ofNat 4 (imageErr (getGraph s g).gbase (getGraph s g).glen nodes ns) } := by
  simp only [loadImage, h, if_false]

theorem loadImage_queues (s : State) (g nodes : Nat) (ns : List Nat) : (loadImage s g nodes ns).queues = s.queues := by
  unfold loadImage; dsimp only; split <;> rfl

end

/-! ## Heads that may start -/

section
variable {s : State} {q : Nat} {h : BitVec 512}

theorem headReady_spec (hh : headReady s q = some h) : (getQueue s q).checked = true ∧ (getQueue s q).head = some h := by
  simp only [headReady] at hh
  split at hh
  · next hc =>
    simp only [Bool.and_eq_true] at hc
    obtain ⟨⟨⟨⟨-, hchk⟩, -⟩, -⟩, -⟩ := hc
    exact ⟨hchk, hh⟩
  · cases hh

/-- A head that may start has been read and checked already. -/
theorem prepHead_ready (hh : headReady s q = some h) : prepHead s q = s := by
  obtain ⟨hchk, hhead⟩ := headReady_spec hh
  have hread : readHead s q = s := by simp [readHead, hhead]
  simp [prepHead, hread, checkHead, hhead, hchk]

/-- The queue that the front end looks at next is one whose head can start (R40). -/
theorem nextQueue_canStart {x : Nat × Nat} (hn : nextQueue s = some x) : canStart s x.1 = true := by
  suffices hall : ∀ x, nextQueue s = some x → canStart s x.1 = true from hall x hn
  refine List.foldlRecOn (motive := fun (b : Option (Nat × Nat)) => ∀ x, b = some x → canStart s x.1 = true) _ _
    (fun x (hx : none = some x) => by cases hx) ?_
  intro b hb e he x hx
  have hstart : canStart s e.1 = true := (List.mem_filter.1 he).2
  cases b with
  | none => cases hx; exact hstart
  | some y =>
    dsimp only at hx
    split at hx
    · cases hx; exact hstart
    · cases hx; exact hb _ rfl

theorem canStart_of_choice (hc : startChoice s = some (.queue q)) : canStart s q = true := by
  unfold startChoice at hc
  cases hq : nextQueue s with
  | none => cases hl : nextHanded s <;> rw [hq, hl] at hc <;> cases hc
  | some x =>
    have hx : x.1 = q := by
      cases hl : nextHanded s with
      | none => rw [hq, hl] at hc; cases hc; rfl
      | some y =>
        rw [hq, hl] at hc
        dsimp only at hc
        split at hc <;> cases hc
        rfl
    exact hx ▸ nextQueue_canStart hq

/-- A checked head of its type that the front end chooses does what its packet does. -/
theorem packet_starts {ty : Nat} (f : State → BitVec 512 → State) (hh : headReady s q = some h) (hc : startChoice s = some (.queue q))
    (ht : pktType h = ty) : packet s q ty f = f s h := by
  simp [packet, prepHead_ready hh, hh, ht, hc]

/-! ## What a start leaves of its queue -/

/-- A queue whose head has started (R37). -/
def headTaken (s : State) (q : Nat) : Queue :=
  { getQueue s q with qhead := (getQueue s q).qhead + 1, head := none, checked := false, waiting := false, since := s.uid }

theorem started_eq (s : State) (q : Nat) : started s q = setQueue { s with uid := s.uid + 1 } q (headTaken s q) := rfl

theorem getQueue_started (s : State) (q : Nat) : getQueue (started s q) q = headTaken s q := getQueue_setQueue_same _ _ _

theorem getXing_started (s : State) (q k : Nat) : getXing (started s q) k = getXing s k := rfl

theorem getGraph_started (s : State) (q g : Nat) : getGraph (started s q) g = getGraph s g := rfl

/-- A LAUNCH is handed over, stays open in its queue, and is accepted at once (R39). -/
theorem startLaunch_handed (s : State) (q : Nat) (h : BitVec 512) : ∃ z, startLaunch s q h = acceptLaunch z (s.uid + 1) ∧
    getQueue z q = { headTaken s q with open' := (getQueue s q).open' ++ [s.uid] } ∧
    getLaunch z (s.uid + 1) = { launchReset with
      origin := .packet q s.uid (pktXing h) (pktCount h), func := (getQueue s q).owner, pasid := (getQueue s q).pasid.toNat, pri := pktPri h
      depth := 1, det := false, recAddr := pktAddr h, order := s.uid + 1 } := by
  let r := handLaunch (started s q) (.packet q s.uid (pktXing h) (pktCount h)) (getQueue s q).owner (getQueue s q).pasid.toNat (pktPri h) 1
    false (pktAddr h)
  have hqueue : getQueue r.1 q = headTaken s q := getQueue_started s q
  refine ⟨updQueue r.1 q fun x => { x with open' := x.open' ++ [s.uid] }, rfl, ?_, getLaunch_setLaunch_same _ _ _⟩
  rw [updQueue_eq, getQueue_setQueue_same, hqueue]
  rfl

theorem addTokens_started (s : State) (q k n : Nat) :
    let t := addTokens (started s q) k n
    getQueue t q = headTaken s q ∧
      (getXing t k).tokens = BitVec.ofNat 32 (min ((getXing s k).tokens.toNat + n) (2 ^ 32 - 1)) ∧
      (getXing t k).ovf = ((getXing s k).ovf || decide (2 ^ 32 ≤ (getXing s k).tokens.toNat + n)) := by
  refine ⟨getQueue_started s q, addTokens_tokens _ _ _, ?_⟩
  rw [addTokens, updXing_eq, getXing_setXing_same, getXing_started]

theorem takeTokens_taken (s : State) (q : Nat) (h : BitVec 512) :
    getQueue (takeTokens s q h) q = headTaken s q ∧
      (getXing (takeTokens s q h) (pktXing h)).tokens = (getXing s (pktXing h)).tokens - BitVec.ofNat 32 (pktCount h) := by
  refine ⟨getQueue_started s q, ?_⟩
  simp only [takeTokens, updXing_eq, getXing_setXing_same, getXing_started]

/-- A WAIT that is the front end's choice takes its tokens, whether it reaches the head now or has waited there (R42). -/
theorem exec_wait_starts (hh : headReady s q = some h) (hc : startChoice s = some (.queue q)) (ht : pktType h = 0x03) {i : Instr}
    (hi : (i = .packetWait q ∧ (getQueue s q).waiting = false) ∨ (i = .waitSatisfied q ∧ (getQueue s q).waiting = true)) :
    exec i s = .next (takeTokens s q h) := by
  have hcan := canStart_of_choice hc
  rcases hi with ⟨rfl, hw⟩ | ⟨rfl, hw⟩
  · simp [execPacketWait, prepHead_ready hh, hh, ht, hw, hcan, hc]
  · simp [execWaitSatisfied, hw, hcan, packet_starts _ hh hc ht]

/-- A WAIT whose crossing holds too few tokens cannot start (R42). -/
theorem exec_wait_waits (hh : headReady s q = some h) (ht : pktType h = 0x03) (hw : (getQueue s q).waiting = false)
    (hlt : (getXing s (pktXing h)).tokens.toNat < pktCount h) :
    exec (.packetWait q) s = .next (setQueue s q { getQueue s q with waiting := true }) := by
  have hcan : canStart s q = false := by
    simp only [canStart, hh, ht, decide_eq_false (Nat.not_le.mpr hlt), Bool.false_and]
  simp [execPacketWait, prepHead_ready hh, hh, ht, hw, hcan]

theorem exec_packetGraph_adds (hh : headReady s q = some h) (hc : startChoice s = some (.queue q)) (ht : pktType h = 0x04) :
    ∃ t, exec (.packetGraph q) s = .next t ∧ getQueue t q = { headTaken s q with open' := (getQueue s q).open' ++ [s.uid] } ∧
      getGraph t (pktGraph h) = { getGraph s (pktGraph h) with
        pend := (getGraph s (pktGraph h)).pend ++ [⟨min (pktPri h) (getGraph s (pktGraph h)).gpri.toNat, some (q, s.uid)⟩] } := by
  have hrank : pktRank s h = min (pktPri h) (getGraph s (pktGraph h)).gpri.toNat := by simp [pktRank, ht]
  refine ⟨_, congrArg Host.Outcome.next (packet_starts _ hh hc ht), ?_, ?_⟩
  · simp [started_eq, headTaken]
  · simp [getGraph_started, hrank]

theorem exec_packetGload_read {bs : List Byte} (hh : headReady s q = some h) (hc : startChoice s = some (.queue q)) (ht : pktType h = 0x05)
    (hb : frontRead s (getQueue s q).owner (getQueue s q).pasid.toNat (pktAddr h).toNat (64 * pktNodes h) = some bs) :
    exec (.packetGload q) s = .next (loadImage (started s q) (pktGraph h) (pktNodes h)
      ((List.range (pktNodes h)).map fun i => leNat ((bs.drop (64 * i)).take 64))) := by
  simp only [exec_packetGload, execPacketGload, packet_starts _ hh hc ht, hb]

/-- A MARK leaves a write at system scope, and perhaps a signal of its queue's vector (R39). -/
theorem exec_packetMark_writes {pa : Nat} (hh : headReady s q = some h) (hc : startChoice s = some (.queue q)) (ht : pktType h = 0x06)
    (hp : frontPlace s (getQueue s q).owner (getQueue s q).pasid.toNat .write (pktAddr h).toNat = some pa) :
    ∃ t, exec (.packetMark q) s = .next t ∧ getQueue t q = headTaken s q ∧
      (∀ i, i < 8 → sysByte t (pa + i) = BitVec.ofNat 8 ((pktValue h).toNat / 256 ^ i)) ∧
      t.pcie.irqs = s.pcie.irqs ++ if pktIrq h then [((getQueue s q).owner, (getQueue s q).qvec.toNat)] else [] := by
  let z := sysPut (started s q) pa (leBytes 8 (pktValue h).toNat)
  let t := if pktIrq h then signal z (getQueue s q).owner (getQueue s q).qvec.toNat else z
  have hex : exec (.packetMark q) s = .next t := by
    simp only [exec_packetMark, execPacketMark, packet_starts _ hh hc ht, hp]
    rfl
  have hframe : WriteFrame (started s q) z := sysPut_frame _ _ _
  have hqueue : getQueue z q = headTaken s q := by rw [hframe]; exact getQueue_started s q
  have hbytes : ∀ i, i < 8 → sysByte z (pa + i) = BitVec.ofNat 8 ((pktValue h).toNat / 256 ^ i) :=
    fun i hi => sysByte_sysPut_leBytes _ _ _ hi
  have hirqs : z.pcie.irqs = s.pcie.irqs := by rw [hframe]; rfl
  refine ⟨t, hex, ?_⟩
  by_cases hq : pktIrq h
  · simp only [t, hq, if_true]
    exact ⟨hqueue, hbytes, congrArg (· ++ _) hirqs⟩
  · simp only [t, hq]
    exact ⟨hqueue, hbytes, by simpa using hirqs⟩

end

/-- Settles O49: a checked head that the front end chooses starts, and each packet's own lemma says what its start does. -/
theorem packetsStart : Obligations.PacketsStart := by
  intro s q h hh x x' tok
  refine ⟨fun hc => ⟨fun ht => ?_, fun ht hr => ?_, fun ht => ?_, fun ht _ i hi => ?_, fun ht => exec_packetGraph_adds hh hc ht,
    fun bs ht hb => ?_, fun pa ht hp => exec_packetMark_writes hh hc ht hp⟩, fun ht hlt hw => exec_wait_waits hh ht hw hlt⟩
  · exact congrArg Host.Outcome.next (packet_starts _ hh hc ht)
  · obtain ⟨z, hz, hqueue, hlaunch⟩ := startLaunch_handed s q h
    refine ⟨z, ?_, hqueue, hlaunch⟩
    rw [← hz]
    exact congrArg Host.Outcome.next ((packet_starts _ hh hc ht).trans (if_pos hr))
  · exact ⟨_, congrArg Host.Outcome.next (packet_starts _ hh hc ht), addTokens_started s q (pktXing h) (pktCount h)⟩
  · exact ⟨_, exec_wait_starts hh hc ht hi, takeTokens_taken s q h⟩
  · intro ns y e
    refine ⟨_, exec_packetGload_read hh hc ht hb, ?_, fun he => ?_, fun he => ?_⟩
    · rw [getQueue, loadImage_queues]
      exact getQueue_started s q
    · obtain ⟨hgraph, hstore⟩ := loadImage_accepted (s := started s q) he
      exact ⟨hgraph, fun i hi => hstore i (by simpa [ns] using hi)⟩
    · rw [loadImage_rejected (s := started s q) he]
      exact ⟨getGraph_setGraph_same _ _ _, rfl⟩

end Sys2Proof.Machine
end

section
/-! SUPPORT. Resident graphs (R45 to R54): what one arrival changes of a graph, when a run goes on, what each node does when it fires, and
the statement GraphSteps. -/

namespace Sys2Proof.Machine

/-! ## Tables of nodes -/

theorem mem_of_tabFind {α : Type} {t : List (Nat × α)} {a : Nat} {v : α} (h : tabFind t a = some v) : (a, v) ∈ t := by
  induction t with
  | nil => cases h
  | cons e t ih =>
    obtain ⟨k, w⟩ := e
    simp only [tabFind] at h
    split at h
    · next hk => cases h; simp [hk]
    · exact List.mem_cons_of_mem _ (ih h)

theorem tabFind_map_const {α : Type} (l : List Nat) (v : α) (a : Nat) :
    tabFind (l.map fun k => (k, v)) a = if a ∈ l then some v else none := by
  induction l with
  | nil => rfl
  | cons k l ih =>
    by_cases h : a = k
    · simp [tabFind, h]
    · simp [tabFind, h, ih]

/-- The progress of a node in its graph's run. -/
abbrev nodeRun (s : State) (g n : Nat) : NodeRun := getNode (getGraph s g) n

theorem nodeRun_setNode_same (s : State) (g n : Nat) (x : Graph) (r : NodeRun) : nodeRun (setGraph s g (setNode x n r)) g n = r := by
  rw [nodeRun, getGraph_setGraph_same]
  exact tabGet_tabPut_same _ _ _ _

theorem nodeRun_setNode_other (s : State) (g : Nat) (x : Graph) (r : NodeRun) {n m : Nat} (h : m ≠ n) :
    nodeRun (setGraph s g (setNode x n r)) g m = getNode x m := by
  rw [nodeRun, getGraph_setGraph_same]
  exact tabGet_tabPut_other _ _ _ _ _ h

/-! ## What a run leaves of its graph -/

/-- Of graph `g` only the progress of its nodes changes, and no stored image does. -/
def ProgFrame (g : Nat) (s t : State) : Prop :=
  t.store = s.store ∧ getGraph t g = { getGraph s g with prog := (getGraph t g).prog }

section
variable {s t : State} {g n m i : Nat}

theorem ProgFrame.refl (s : State) : ProgFrame g s s := ⟨rfl, rfl⟩
theorem ProgFrame.trans {a b c : State} (h : ProgFrame g a b) (k : ProgFrame g b c) : ProgFrame g a c := by
  obtain ⟨hstore, hgraph⟩ := h
  obtain ⟨kstore, kgraph⟩ := k
  exact ⟨kstore.trans hstore, kgraph.trans (by rw [hgraph])⟩

theorem ProgFrame.ofSetNode (s : State) (n : Nat) (r : NodeRun) : ProgFrame g s (setGraph s g (setNode (getGraph s g) n r)) :=
  ⟨rfl, by rw [getGraph_setGraph_same]; rfl⟩

/-- A write at system scope leaves every graph as it was. -/
theorem WriteFrame.prog {s t : State} (h : WriteFrame s t) : ProgFrame g s t := by
  unfold WriteFrame at h
  rw [h]
  exact ⟨rfl, rfl⟩

theorem ProgFrame.nodeAt_eq (h : ProgFrame g s t) (n : Nat) : nodeAt t g n = nodeAt s g n := by
  obtain ⟨hstore, hgraph⟩ := h
  rw [nodeAt, hgraph, hstore]
  rfl

theorem ProgFrame.run (h : ProgFrame g s t) : (getGraph t g).run = (getGraph s g).run := by rw [h.2]
theorem ProgFrame.abandoned (h : ProgFrame g s t) : (getGraph t g).abandoned = (getGraph s g).abandoned := by rw [h.2]

theorem EdgeTo.ne (he : EdgeTo s g n i m) : m ≠ n := by
  obtain ⟨-, -, hne, -⟩ := he
  exact hne

theorem ReadyNode.ready {ty : Nat} (h : ReadyNode s g n ty) : (nodeRun s g n).ready = true := by
  obtain ⟨-, -, -, hready, -⟩ := h
  exact hready

theorem ReadyNode.not_abandoned {ty : Nat} (h : ReadyNode s g n ty) : (getGraph s g).abandoned = false := by
  obtain ⟨-, hab, -⟩ := h
  exact hab

/-- An edge to a node stays one while that node has no arrival. -/
theorem EdgeTo.kept (he : EdgeTo s g n i m) (hf : ProgFrame g s t) (hm : nodeRun t g m = nodeRun s g m) : EdgeTo t g n i m := by
  simpa only [EdgeTo, nodeRun, hf.nodeAt_eq, hm] using he

/-! ## Arrivals, R50 -/

theorem arrive_eq (s : State) (g n : Nat) (back run : Bool) : ∃ r, arrive s g n back run = setGraph s g (setNode (getGraph s g) n r) :=
  ⟨_, rfl⟩

/-- Arrivals along the edges at some positions of a node change progress alone. -/
theorem sendTo_frame (s : State) (g n : Nat) (is : List Nat) (run : Bool) : ProgFrame g s (sendTo s g n is run) :=
  foldl_rel ProgFrame.refl ProgFrame.trans (fun s _ => ProgFrame.ofSetNode s _ _) _ _

/-- The first arrival at a node with one predecessor makes it ready, to run or to skip. -/
theorem sendTo_edge (he : EdgeTo s g n i m) (run : Bool) :
    let t := sendTo s g n [i] run
    (nodeRun t g m).ready = true ∧ (nodeRun t g m).ran = run ∧ ∀ k, k ≠ m → nodeRun t g k = nodeRun s g k := by
  obtain ⟨hsucc, hback, -, hpred, hfwd, hran⟩ := he
  have hsend : sendTo s g n [i] run = arrive s g m false run := by rw [← hsucc, ← hback]; rfl
  dsimp only
  rw [hsend]
  refine ⟨?_, ?_, fun k hk => ?_⟩
  · rw [arrive, updGraph_eq, nodeRun_setNode_same]
    simp [hpred, hfwd]
  · rw [arrive, updGraph_eq, nodeRun_setNode_same]
    simp [hran]
  · rw [arrive, updGraph_eq, nodeRun_setNode_other _ _ _ _ hk]

/-! ## Runs that go on, R52 -/

/-- A run with a node that is ready goes on. -/
theorem runDone_ready (ha : (getGraph s g).abandoned = false) (hr : (nodeRun s g m).ready = true) : runDone s g = s := by
  have hdue : (getGraph s g).prog.any (fun e => nodeDue e.2) = true := by
    rw [List.any_eq_true]
    cases hf : tabFind (getGraph s g).prog m with
    | none => simp [nodeRun, getNode, tabGet, hf, nodeReset] at hr
    | some r =>
      refine ⟨_, mem_of_tabFind hf, ?_⟩
      have hready : r.ready = true := by simpa [nodeRun, getNode, tabGet, hf] using hr
      simp [nodeDue, hready]
  cases hrun : (getGraph s g).run <;> simp [runDone, hrun, ha, hdue]

theorem runDone_flying (hf : (getGraph s g).flying ≠ 0) : runDone s g = s := by
  cases hrun : (getGraph s g).run <;> simp [runDone, hrun, hf]

/-! ## Nodes that fire, R50, R51 -/

/-- The state in which a node that fires has taken its arrivals. -/
def firedIn (s : State) (g n : Nat) : State := setGraph s g (setNode (getGraph s g) n (nodeFired (nodeRun s g n)))

theorem firedIn_frame (s : State) (g n : Nat) : ProgFrame g s (firedIn s g n) := ProgFrame.ofSetNode s _ _

theorem firedIn_self (s : State) (g n : Nat) : nodeRun (firedIn s g n) g n = nodeFired (nodeRun s g n) := nodeRun_setNode_same _ _ _ _ _

theorem firedIn_other (s : State) (g : Nat) (h : m ≠ n) : nodeRun (firedIn s g n) g m = nodeRun s g m := nodeRun_setNode_other _ _ _ _ h

theorem EdgeTo.fired (he : EdgeTo s g n i m) : EdgeTo (firedIn s g n) g n i m :=
  he.kept (firedIn_frame s g n) (firedIn_other s g he.ne)

theorem nodeFired_ready {r : NodeRun} (h : r.ready = true) : nodeFired r = { r with fwd := 0, ran := false, ready := false } := by
  simp [nodeFired, h]

theorem nodeFired_back {r : NodeRun} (h : r.ready = false) : nodeFired r = { r with back := r.back - 1 } := by simp [nodeFired, h]

/-- A ready node that is no skip does what its type says. -/
theorem fireNode_ready {ty : Nat} (h : ReadyNode s g n ty) (f : State → Nat → State) :
    fireNode s g n ty f = runDone (f (firedIn s g n) (nodeAt s g n)) g := by
  obtain ⟨hrun, hab, hn, hready, harr, hty⟩ := h
  have hskip : (decide (0 < (nodeRun s g n).fwd) && !(nodeRun s g n).ran) = false := by
    rcases harr with h0 | h1
    · simp [nodeRun, h0]
    · simp [nodeRun, h1]
  simp only [nodeRun] at hskip
  simp [fireNode, hrun, hab, hn, nodeDue, hready, hty, hskip, firedIn]

/-- A node whose arrivals were all skips passes the skip on. -/
theorem fireNode_skips {ty : Nat} (hrun : (getGraph s g).run.isSome) (hab : (getGraph s g).abandoned = false) (hn : n < (getGraph s g).nodes)
    (hty : nodeType (nodeAt s g n) = ty) (hready : (nodeRun s g n).ready = true) (hfwd : 0 < (nodeRun s g n).fwd)
    (hran : (nodeRun s g n).ran = false) (f : State → Nat → State) :
    fireNode s g n ty f = runDone (sendTo (firedIn s g n) g n (listAll (nodeAt s g n)) false) g := by
  simp only [nodeRun] at hready hfwd hran
  simp [fireNode, hrun, hab, hn, nodeDue, hready, hty, hfwd, hran, firedIn]

/-- A LOOP that is not ready decides on a back arrival. -/
theorem fireNode_back (hrun : (getGraph s g).run.isSome) (hab : (getGraph s g).abandoned = false) (hn : n < (getGraph s g).nodes)
    (hty : nodeType (nodeAt s g n) = 0x11) (hready : (nodeRun s g n).ready = false) (hback : 0 < (nodeRun s g n).back)
    (f : State → Nat → State) : fireNode s g n 0x11 f = runDone (f (firedIn s g n) (nodeAt s g n)) g := by
  simp only [nodeRun] at hready hback
  simp [fireNode, hrun, hab, hn, nodeDue, hready, hty, hback, firedIn]

theorem listA_one {w : Nat} (h : nodeNA w = 1) : listA w = [0] := by simp [listA, h]
theorem listB_one {w : Nat} (ha : nodeNA w = 1) (hb : nodeNB w = 1) : listB w = [1] := by simp [listB, ha, hb]
theorem listAll_one {w : Nat} (h : nodeNA w + nodeNB w = 1) : listAll w = [0] := by simp [listAll, h]

/-- A run goes on after an arrival that makes a node ready. -/
theorem runDone_sendTo (he : EdgeTo s g n i m) (run : Bool) (ha : (getGraph s g).abandoned = false) :
    runDone (sendTo s g n [i] run) g = sendTo s g n [i] run :=
  runDone_ready (m := m) ((sendTo_frame s g n [i] run).abandoned.trans ha) (sendTo_edge he run).1

end

/-! ## Each type of node, R50 to R53 -/

section
variable {s : State} {g n m : Nat}

theorem exec_graphNodeNop_runs (hr : ReadyNode s g n 0x00) (ha : nodeNA (nodeAt s g n) = 1) (he : EdgeTo s g n 0 m) :
    exec (.graphNodeNop g n) s = .next (sendTo (firedIn s g n) g n [0] true) := by
  have hab : (getGraph (firedIn s g n) g).abandoned = false := (firedIn_frame s g n).abandoned.trans hr.not_abandoned
  refine congrArg Host.Outcome.next ((fireNode_ready hr _).trans ?_)
  rw [listA_one ha, runDone_sendTo he.fired true hab]

/-- What a MARK node writes and signals before its successors have their arrivals (R50). -/
def markedIn (s : State) (g n pa : Nat) : State :=
  let z := sysPut (firedIn s g n) pa (leBytes 8 (nodeValue (nodeAt s g n)))
  if nodeIrq (nodeAt s g n) then signal z (getGraph s g).gown (getGraph s g).gvec.toNat else z

theorem markedIn_spec (s : State) (g n pa : Nat) :
    let z := markedIn s g n pa
    ProgFrame g (firedIn s g n) z ∧ (getGraph z g).prog = (getGraph (firedIn s g n) g).prog ∧
      (∀ i, i < 8 → sysByte z (pa + i) = BitVec.ofNat 8 (nodeValue (nodeAt s g n) / 256 ^ i)) ∧
      z.pcie.irqs = s.pcie.irqs ++ if nodeIrq (nodeAt s g n) then [((getGraph s g).gown, (getGraph s g).gvec.toNat)] else [] := by
  let y := sysPut (firedIn s g n) pa (leBytes 8 (nodeValue (nodeAt s g n)))
  have hframe : WriteFrame (firedIn s g n) y := sysPut_frame _ _ _
  have hprog : (getGraph y g).prog = (getGraph (firedIn s g n) g).prog := by rw [hframe]; rfl
  have hbytes : ∀ i, i < 8 → sysByte y (pa + i) = BitVec.ofNat 8 (nodeValue (nodeAt s g n) / 256 ^ i) :=
    fun i hi => sysByte_sysPut_leBytes _ _ _ hi
  have hirqs : y.pcie.irqs = s.pcie.irqs := by rw [hframe]; rfl
  intro z
  by_cases hq : nodeIrq (nodeAt s g n)
  · have hz : z = signal y (getGraph s g).gown (getGraph s g).gvec.toNat := if_pos hq
    rw [hz, if_pos hq]
    exact ⟨hframe.prog, hprog, hbytes, congrArg (· ++ _) hirqs⟩
  · have hz : z = y := if_neg hq
    rw [hz, if_neg hq, List.append_nil]
    exact ⟨hframe.prog, hprog, hbytes, hirqs⟩

/-- A MARK node writes, and its successor has a running arrival. -/
theorem exec_graphNodeMark_runs {pa : Nat} (hr : ReadyNode s g n 0x06) (ha : nodeNA (nodeAt s g n) = 1) (he : EdgeTo s g n 0 m)
    (hp : nodePlace (firedIn s g n) g .write (nodeAddr (nodeAt s g n)) = some pa) :
    exec (.graphNodeMark g n) s = .next (sendTo (markedIn s g n pa) g n [0] true) ∧ EdgeTo (markedIn s g n pa) g n 0 m := by
  obtain ⟨hframe, hprog, -, -⟩ := markedIn_spec s g n pa
  have hedge : EdgeTo (markedIn s g n pa) g n 0 m := by
    refine he.fired.kept hframe ?_
    simp only [nodeRun, getNode, hprog]
  have hab : (getGraph (markedIn s g n pa) g).abandoned = false :=
    (hframe.abandoned.trans (firedIn_frame s g n).abandoned).trans hr.not_abandoned
  have hx : (getGraph (firedIn s g n) g).gown = (getGraph s g).gown ∧ (getGraph (firedIn s g n) g).gvec = (getGraph s g).gvec := by
    rw [(firedIn_frame s g n).2]; exact ⟨rfl, rfl⟩
  have hmark : nodeMark (firedIn s g n) g n (nodeAt s g n) = sendTo (markedIn s g n pa) g n [0] true := by
    simp only [nodeMark, hp, listA_one ha, hx.1, hx.2]
    rfl
  refine ⟨congrArg Host.Outcome.next ((fireNode_ready hr _).trans ?_), hedge⟩
  rw [hmark, runDone_sendTo hedge true hab]

/-- A COND node makes the successor of one list run and of the other skip (R51). -/
theorem exec_graphNodeCond_runs {pa k : Nat} (hr : ReadyNode s g n 0x10) (ha : nodeNA (nodeAt s g n) = 1) (hb : nodeNB (nodeAt s g n) = 1)
    (he : EdgeTo s g n 0 m) (hk : EdgeTo s g n 1 k) (hne : k ≠ m)
    (hp : nodePlace (firedIn s g n) g .read (nodeAddr (nodeAt s g n)) = some pa) :
    let z := sendTo (firedIn s g n) g n [0] (decide (sysWord s pa ≠ 0))
    exec (.graphNodeCond g n) s = .next (sendTo z g n [1] (decide (sysWord s pa = 0))) ∧ EdgeTo z g n 1 k := by
  intro z
  obtain ⟨-, -, hother⟩ := sendTo_edge he.fired (decide (sysWord s pa ≠ 0))
  have hedge : EdgeTo z g n 1 k := hk.fired.kept (sendTo_frame _ _ _ _ _) (hother k hne)
  have hab : (getGraph z g).abandoned = false :=
    ((sendTo_frame _ _ _ _ _).abandoned.trans (firedIn_frame s g n).abandoned).trans hr.not_abandoned
  have hcond : nodeCond (firedIn s g n) g n (nodeAt s g n) = sendTo z g n [1] (decide (sysWord s pa = 0)) := by
    have hw : sysWord (firedIn s g n) pa = sysWord s pa := rfl
    simp only [nodeCond, hp, listA_one ha, listB_one ha hb, hw, z, ne_eq, Classical.not_not]
  refine ⟨congrArg Host.Outcome.next ((fireNode_ready hr _).trans ?_), hedge⟩
  rw [hcond, runDone_sendTo hedge _ hab]

/-! ### LOOP -/

/-- The state in which a LOOP node that fires has its counter set. -/
def countedIn (s : State) (g n i : Nat) : State :=
  setGraph (firedIn s g n) g (setNode (getGraph (firedIn s g n) g) n { nodeRun (firedIn s g n) g n with iter := i })

theorem countedIn_frame (s : State) (g n i : Nat) : ProgFrame g s (countedIn s g n i) :=
  (firedIn_frame s g n).trans (ProgFrame.ofSetNode _ _ _)

theorem countedIn_self (s : State) (g n i : Nat) : nodeRun (countedIn s g n i) g n = { nodeFired (nodeRun s g n) with iter := i } := by
  rw [countedIn, nodeRun_setNode_same, firedIn_self]

theorem countedIn_edge {i j : Nat} (he : EdgeTo s g n i m) : EdgeTo (countedIn s g n j) g n i m :=
  he.fired.kept (ProgFrame.ofSetNode _ _ _) (nodeRun_setNode_other _ _ _ _ he.ne)

/-- A LOOP that counts takes its list A while its counter is below COUNT, and its list B then; on its forward arrivals its counter starts
at 0, and its CADDR must be in order (R51, R53). -/
theorem nodeLoop_counts {back : Bool} (hc : nodeCount (nodeAt s g n) ≠ 0)
    (hp : back = false → (nodePlace (firedIn s g n) g .read (nodeAddr (nodeAt s g n))).isSome) :
    let w := nodeAt s g n
    let i := if back then (nodeRun (firedIn s g n) g n).iter else 0
    nodeLoop (firedIn s g n) g n w back =
      if i < nodeCount w then sendTo (countedIn s g n (i + 1)) g n (listA w) true else sendTo (countedIn s g n i) g n (listB w) true := by
  intro w i
  have hgo : ((if back then some 0 else nodePlace (firedIn s g n) g .read (nodeAddr w)).map fun _ => decide (i < nodeCount w)) =
      some (decide (i < nodeCount w)) := by
    cases back with
    | true => rfl
    | false =>
      obtain ⟨pa, hpa⟩ := Option.isSome_iff_exists.1 (hp rfl)
      simp [w, hpa]
  simp only [nodeLoop, if_pos hc, w, i] at hgo ⊢
  rw [hgo]
  by_cases hi : (if back then (nodeRun (firedIn s g n) g n).iter else 0) < nodeCount (nodeAt s g n)
  · rw [if_pos hi, decide_eq_true hi]; rfl
  · rw [if_neg hi, decide_eq_false hi]; rfl

/-- The arrival that a LOOP sends goes to a node that is then ready, and leaves its own counter. -/
theorem loop_sends {i j : Nat} (hab : (getGraph s g).abandoned = false) (he : EdgeTo s g n i m) :
    let t := sendTo (countedIn s g n j) g n [i] true
    runDone t g = t ∧ (nodeRun t g m).ready = true ∧ nodeRun t g n = { nodeFired (nodeRun s g n) with iter := j } := by
  intro t
  obtain ⟨hready, -, hother⟩ := sendTo_edge (countedIn_edge (j := j) he) true
  refine ⟨runDone_sendTo (countedIn_edge he) true ((countedIn_frame s g n j).abandoned.trans hab), hready, ?_⟩
  rw [hother n he.ne.symm, countedIn_self]

theorem exec_graphNodeLoop_starts (hr : ReadyNode s g n 0x11) (ha : nodeNA (nodeAt s g n) = 1) (he : EdgeTo s g n 0 m)
    (hc : nodeCount (nodeAt s g n) ≠ 0) (hp : (nodePlace (firedIn s g n) g .read (nodeAddr (nodeAt s g n))).isSome) :
    ∃ t, exec (.graphNodeLoop g n) s = .next t ∧ (nodeRun t g m).ready = true ∧ (nodeRun t g n).iter = 1 := by
  obtain ⟨hdone, hm, hn⟩ := loop_sends (j := 1) hr.not_abandoned he
  refine ⟨_, congrArg Host.Outcome.next ((fireNode_ready hr _).trans ?_), hm, by rw [hn]⟩
  have hpos : 0 < nodeCount (nodeAt s g n) := Nat.pos_of_ne_zero hc
  have hready : (getNode (getGraph s g) n).ready = true := hr.ready
  simp only [hready, Bool.not_true]
  rw [nodeLoop_counts hc fun _ => hp]
  simp only [Bool.false_eq_true, if_false, hpos, if_true, listA_one ha]
  exact hdone

/-- A LOOP decides on a back arrival by its counter alone (R51). -/
theorem exec_graphNodeLoop_decides (hrun : (getGraph s g).run.isSome) (hab : (getGraph s g).abandoned = false)
    (hn : n < (getGraph s g).nodes) (hty : nodeType (nodeAt s g n) = 0x11) (hready : (nodeRun s g n).ready = false)
    (hback : 0 < (nodeRun s g n).back) (ha : nodeNA (nodeAt s g n) = 1) (hc : nodeCount (nodeAt s g n) ≠ 0) :
    ((nodeRun s g n).iter < nodeCount (nodeAt s g n) → EdgeTo s g n 0 m →
      ∃ t, exec (.graphNodeLoop g n) s = .next t ∧ (nodeRun t g m).ready = true ∧
        (nodeRun t g n).iter = (nodeRun s g n).iter + 1 ∧ (nodeRun t g n).back = (nodeRun s g n).back - 1) ∧
    (nodeCount (nodeAt s g n) ≤ (nodeRun s g n).iter → nodeNB (nodeAt s g n) = 1 → EdgeTo s g n 1 m →
      ∃ t, exec (.graphNodeLoop g n) s = .next t ∧ (nodeRun t g m).ready = true ∧ (nodeRun t g n).back = (nodeRun s g n).back - 1) := by
  have hiter : (nodeRun (firedIn s g n) g n).iter = (nodeRun s g n).iter := by rw [firedIn_self, nodeFired_back hready]
  have hex : exec (.graphNodeLoop g n) s = .next (runDone (nodeLoop (firedIn s g n) g n (nodeAt s g n) true) g) := by
    refine congrArg Host.Outcome.next ((fireNode_back hrun hab hn hty hready hback _).trans ?_)
    simp only [hready, Bool.not_false]
  rw [hex, nodeLoop_counts hc (fun h => by cases h)]
  simp only [if_true, hiter]
  refine ⟨fun hlt he => ?_, fun hge hb he => ?_⟩
  · obtain ⟨hdone, hm, hself⟩ := loop_sends (j := (nodeRun s g n).iter + 1) hab he
    rw [if_pos hlt, listA_one ha, hdone]
    exact ⟨_, rfl, hm, by rw [hself], by rw [hself, nodeFired_back hready]⟩
  · obtain ⟨hdone, hm, hself⟩ := loop_sends (j := (nodeRun s g n).iter) hab he
    rw [if_neg (Nat.not_lt.mpr hge), listB_one ha hb, hdone]
    exact ⟨_, rfl, hm, by rw [hself, nodeFired_back hready]⟩

/-! ### LAUNCH and skips -/

/-- A LAUNCH node hands its record over at the run's priority, and its run goes on while that launch is outstanding (R50, R52). -/
theorem exec_graphNodeLaunch_hands {q : RunReq} (hr : ReadyNode s g n 0x01) (hq : (getGraph s g).run = some q) :
    ∃ t, exec (.graphNodeLaunch g n) s = .next t ∧ (getGraph t g).flying = (getGraph s g).flying + 1 ∧ t.uid = s.uid + 1 ∧
      getLaunch t s.uid = { launchReset with
        origin := .node g n (nodeEdges (nodeAt s g n) (listA (nodeAt s g n))), func := (getGraph s g).gown
        pasid := (getGraph s g).pasid.toNat, pri := q.pri, depth := 1, det := false, recAddr := nodeAddr (nodeAt s g n), order := s.uid } := by
  let t := nodeLaunch (firedIn s g n) g n (nodeAt s g n)
  have hx : getGraph (firedIn s g n) g = setNode (getGraph s g) n (nodeFired (nodeRun s g n)) := getGraph_setGraph_same _ _ _
  have hrun : (setNode (getGraph s g) n (nodeFired (nodeRun s g n))).run = some q := hq
  have hfly : (getGraph t g).flying = (getGraph s g).flying + 1 := by
    simp only [t, nodeLaunch, updGraph_eq, getGraph_setGraph_same]
    simp only [handLaunch, getGraph_setLaunch]
    rw [show getGraph { firedIn s g n with uid := (firedIn s g n).uid + 1 } g = getGraph (firedIn s g n) g from rfl, hx]
    rfl
  have hdone : runDone t g = t := runDone_flying (by omega)
  refine ⟨t, congrArg Host.Outcome.next ((fireNode_ready hr _).trans hdone), hfly, rfl, ?_⟩
  have hlaunch : getLaunch t s.uid = _ := getLaunch_setLaunch_same _ _ _
  rw [hlaunch, hx, hrun]
  rfl

/-- Each event of a node is the firing of a node of its type. -/
theorem exec_graphNode_fires {e : Instr} {ty : Nat} (h : (e, ty) ∈ [(Instr.graphNodeNop g n, 0x00), (.graphNodeLaunch g n, 0x01),
    (.graphNodeMark g n, 0x06), (.graphNodeCond g n, 0x10), (.graphNodeLoop g n, 0x11)]) (s : State) :
    ∃ f, exec e s = .next (fireNode s g n ty f) := by
  simp only [List.mem_cons, List.not_mem_nil, or_false, Prod.mk.injEq] at h
  rcases h with ⟨rfl, rfl⟩ | ⟨rfl, rfl⟩ | ⟨rfl, rfl⟩ | ⟨rfl, rfl⟩ | ⟨rfl, rfl⟩ <;> exact ⟨_, rfl⟩

theorem sendTo_retireFrame (s : State) (g n : Nat) (is : List Nat) (run : Bool) : RetireFrame s (sendTo s g n is run) :=
  sendAlong_frame s g _ run

theorem firedIn_retireFrame (s : State) (g n : Nat) : RetireFrame s (firedIn s g n) := RetireFrame.graphs s _

end

/-! ## Triggers, configuration and runs -/

section
variable {s : State} {g : Nat} {v : DWord}

theorem exec_gtrigStore_adds (hs : running s = true) (he : (getGraph s g).gown ≤ s.pcie.numVfs) (hg : g < 1024) :
    exec (.gtrigStore (getGraph s g).gown g v) s = .next (setGraph s g (addRuns (getGraph s g) (v.toNat % 256))) := by
  have htrig : gtrigStore s (getGraph s g).gown g v = setGraph s g (addRuns (getGraph s g) (v.toNat % 256)) := by
    simp [gtrigStore, Config.graphs, hg]
  exact congrArg Host.Outcome.next ((openWrite_open _ hs he).trans htrig)

/-- GCFG of an idle graph takes its fields; a new owner, base or length leaves no valid image (R45). -/
theorem exec_graphConfig_idle (hs : running s = true) (hg : g < 1024) (hr : (getGraph s g).run = none) (hp : (getGraph s g).pend = [])
    (hl : (v.extractLsb' 0 17).toNat ≤ 65536) : exec (.graphConfigWrite 0 g false v) s =
      let x := getGraph s g
      .next (setGraph s g { x with
        gpri := v.extractLsb' 56 3, gown := (v.extractLsb' 48 6).toNat, gbase := (v.extractLsb' 32 16).toNat, gvec := v.extractLsb' 24 6
        glen := (v.extractLsb' 0 17).toNat
        err := if (v.extractLsb' 48 6).toNat = x.gown ∧ (v.extractLsb' 32 16).toNat = x.gbase ∧ (v.extractLsb' 0 17).toNat = x.glen
          then x.err else 0xF }) := by
  refine congrArg Host.Outcome.next ((openWrite_open _ hs (Nat.zero_le _)).trans ?_)
  have hgate : (decide (0 = 0) && decide (g < Config.graphs) && (getGraph s g).run.isNone && (getGraph s g).pend.isEmpty) = true := by
    simp [Config.graphs, hg, hr, hp]
  refine (if_pos hgate).trans ?_
  simp only [Bool.false_eq_true, if_false, gt_iff_lt, if_neg (Nat.not_lt.mpr hl)]

variable {r : RunReq} {rest : List RunReq}

theorem runStart_invalid (hr : (getGraph s g).run = none) (hp : (getGraph s g).pend = r :: rest)
    (hf : (getFunc s (getGraph s g).gown).freezing = false) (he : (getGraph s g).err ≠ 0) (hn : r.packet = none) :
    runStart s g = setGraph s g { getGraph s g with pend := rest, ign := true } := by
  simp only [runStart, hr, hp, hf, he, hn, packetRetire, Bool.false_eq_true, if_false, ne_eq, not_false_eq_true, if_true]

/-- The progress of a graph whose run has started: its nodes without predecessors are ready (R50). -/
def startNodes (s : State) (g : Nat) : List (Nat × NodeRun) :=
  ((List.range (getGraph s g).nodes).filter fun n => nodePred (nodeAt s g n) = 0).map fun n => (n, { nodeReset with ready := true })

theorem startNodes_ready {n : Nat} (hn : n < (getGraph s g).nodes) :
    (tabGet nodeReset (startNodes s g) n).ready = decide (nodePred (nodeAt s g n) = 0) := by
  by_cases h : nodePred (nodeAt s g n) = 0 <;> simp [startNodes, tabGet, tabFind_map_const, hn, h, nodeReset]

/-- A pending run of a valid graph with a node to start from starts (R50, R54). -/
theorem runStart_valid (hr : (getGraph s g).run = none) (hp : (getGraph s g).pend = r :: rest)
    (hf : (getFunc s (getGraph s g).gown).freezing = false) (he : (getGraph s g).err = 0)
    (hn : ∃ n, n < (getGraph s g).nodes ∧ nodePred (nodeAt s g n) = 0) :
    runStart s g = setGraph s g { getGraph s g with
      pend := rest, run := some r, abandoned := false, flying := 0, prog := startNodes s g } := by
  obtain ⟨n, hlt, hpred⟩ := hn
  simp only [runStart, hr, hp, hf, he, Bool.false_eq_true, if_false, ne_eq, not_true_eq_false]
  refine runDone_ready (m := n) ?_ ?_
  · rw [getGraph_setGraph_same]
  · rw [nodeRun, getGraph_setGraph_same]
    exact (startNodes_ready hlt).trans (decide_eq_true hpred)

end

/-- Settles O51: a trigger, a configuration and a run's start are each one write of the graph; a node that fires sends its arrivals from the
state that its type leaves, and the run goes on, since a node is ready or a launch outstanding. -/
theorem graphSteps : Obligations.GraphSteps := by
  refine ⟨fun s g v => ⟨fun hs he hg => ?_, fun hs hg hr hp hl => ?_, fun r rest hr hp hf he hn => ?_, fun r rest hr hp hf he hn => ?_⟩,
    fun s g n m => ⟨fun hr ha he => ?_, fun pa hr ha he hp => ?_, fun pa k hr ha hb he hk hne hp => ?_, exec_graphNodeLoop_starts,
      exec_graphNodeLoop_decides, fun q => exec_graphNodeLaunch_hands, fun e ty hmem hrun hab hlt hty hready hfwd hran hone he => ?_⟩⟩
  · exact ⟨_, exec_gtrigStore_adds hs he hg, getGraph_setGraph_same _ _ _⟩
  · refine ⟨_, exec_graphConfig_idle hs hg hr hp hl, ?_⟩
    rw [getGraph_setGraph_same]
    exact ⟨rfl, rfl, rfl, rfl, rfl, fun hne => if_neg fun h => hne h.1.symm⟩
  · exact congrArg Host.Outcome.next (runStart_invalid hr hp hf he hn)
  · refine ⟨_, congrArg Host.Outcome.next (runStart_valid hr hp hf he hn), ?_⟩
    rw [getGraph_setGraph_same]
    exact ⟨rfl, rfl, fun n hlt => startNodes_ready hlt⟩
  · obtain ⟨hready, hran, hother⟩ := sendTo_edge he.fired true
    have hself : nodeRun (sendTo (firedIn s g n) g n [0] true) g n = nodeFired (nodeRun s g n) := (hother n he.ne.symm).trans (firedIn_self s g n)
    refine ⟨_, exec_graphNodeNop_runs hr ha he, ?_, hready, hran, (sendTo_frame _ _ _ _ _).run.trans (firedIn_frame s g n).run⟩
    exact (congrArg NodeRun.ready hself).trans (by rw [nodeFired_ready hr.ready])
  · obtain ⟨hex, hedge⟩ := exec_graphNodeMark_runs hr ha he hp
    obtain ⟨-, -, hbytes, hirqs⟩ := markedIn_spec s g n pa
    obtain ⟨hready, hran, -⟩ := sendTo_edge hedge true
    have hframe := sendTo_retireFrame (markedIn s g n pa) g n [0] true
    exact ⟨_, hex, hready, hran, fun i hi => (hframe.sysByte _).trans (hbytes i hi), by rw [hframe.pcie, hirqs]⟩
  · obtain ⟨hex, hedge⟩ := exec_graphNodeCond_runs hr ha hb he hk hne hp
    obtain ⟨hkready, hkran, hother⟩ := sendTo_edge hedge (decide (sysWord s pa = 0))
    obtain ⟨hready, hran, -⟩ := sendTo_edge he.fired (decide (sysWord s pa ≠ 0))
    have hkept := hother m hne.symm
    exact ⟨_, hex, (congrArg NodeRun.ready hkept).trans hready, hkready, (congrArg NodeRun.ran hkept).trans hran, hkran⟩
  · obtain ⟨f, hf⟩ := exec_graphNode_fires hmem s
    have hab2 : (getGraph (firedIn s g n) g).abandoned = false := (firedIn_frame s g n).abandoned.trans hab
    rw [hf, fireNode_skips hrun hab hlt hty hready hfwd hran, listAll_one hone, runDone_sendTo he.fired false hab2]
    obtain ⟨hmready, hmran, -⟩ := sendTo_edge he.fired false
    have hframe := (firedIn_retireFrame s g n).trans (sendTo_retireFrame _ g n [0] false)
    exact ⟨_, rfl, hmready, hmran, by rw [hframe], by rw [hframe], by rw [hframe]⟩

end Sys2Proof.Machine
end

section
/-! SUPPORT. Words that read the state (R82, R343, R418): TOLLRD, CNTRD and ACCRD, and the statement StateReads. -/

namespace Sys2Proof.Machine

/-- The position of a pair in an accepted word names an even register (R101). -/
theorem evenPair_of_wellFormed {i : Instr} {o : Opnd} (ho : o ∈ opnds i) (hw : wellFormed i = true) : EvenPair o.wide o.sp := by
  intro n hsp hwide
  simp only [wellFormed, acceptsInstr, Bool.and_eq_true, List.all_eq_true] at hw
  obtain ⟨-, hopnds⟩ := hw
  have hok := hopnds o ho
  simp only [opndOk, hsp, hwide, Bool.not_true, Bool.false_or, Bool.and_eq_true, beq_iff_eq] at hok
  obtain ⟨⟨-, heven⟩, -⟩ := hok
  exact heven

/-- A word of per-lane values does what both statements about words of registers say, whichever class it has. -/
theorem laneWord_results {i : Instr} {wide : Bool} {d : Spec} {val : State → Ctx → Nat → Option (Nat × Flags)}
    (f : State → Ctx → Nat → Except Nat LaneRes) (hx : ∀ s, exec i s = laneWord i s (f s))
    (he : wellFormed i = true → EvenPair wide d)
    (hf : ∀ s c l x fl, val s c l = some (x, fl) → CanWrite c l wide d → f s c l = .ok (valWrites c l wide d x, fl)) :
    WritesRegs i ⟨wide, d, anyMode, val⟩ ∧ QueuesRegs i ⟨wide, d, anyMode, val⟩ :=
  have hacts : ∀ s u, Acts s u i → exec i s = .next (classWord i (ctxOf s u i) s (evalLanes (ctxOf s u i) (f s (ctxOf s u i)))) :=
    fun s _ ha => (hx s).trans (laneWord_acts (f s) ha)
  ⟨laneWord_writes f (fun s u ha _ _ => hacts s u ha) he hf, laneWord_queues f (fun s u ha _ _ => hacts s u ha) hf⟩

/-- A lane's result of one value, where the destination can be written. -/
theorem laneValue_ok {c : Ctx} {l : Nat} {wide : Bool} {d : Spec} (x : Nat) (fl : Flags) (h : CanWrite c l wide d) :
    (do let ws ← writesTo c l wide d x; return (ws, fl) : Except Nat LaneRes) = .ok (valWrites c l wide d x, fl) := by
  rw [writesTo_ok x h]; rfl

theorem tollrd_results (h : Hdr) (sel : TollSel) (d : Spec) {op : RegOp} (ho : stateOp (.tollrd h sel d) = some op) :
    WritesRegs (.tollrd h sel d) op ∧ QueuesRegs (.tollrd h sel d) op := by
  cases ho
  refine laneWord_results (fun s c l => do let ws ← writesTo c l false d (tollRead s c.gk sel); return (ws, 0)) (fun _ => rfl)
    (fun _ _ _ hw => by cases hw) fun s c l x fl hv hc => ?_
  cases hv
  exact laneValue_ok _ _ hc

/-- What CNTRD computes for a lane (R418). -/
def cntrdLane (s : State) (c : Ctx) (l : Nat) (d n : Spec) : Except Nat LaneRes :=
  if readUni c .n32 n ≤ 10 || (16 ≤ readUni c .n32 n && readUni c .n32 n ≤ 23) then do
    let ws ← writesTo c l true d (if c.g.det then 0 else (counterOf s c.core (readUni c .n32 n)).toNat)
    return (ws, 0)
  else .error cBND

theorem cntrd_results (h : Hdr) (d n : Spec) {op : RegOp} (ho : stateOp (.cntrd h d n) = some op) :
    WritesRegs (.cntrd h d n) op ∧ QueuesRegs (.cntrd h d n) op := by
  cases ho
  refine laneWord_results (fun s c l => cntrdLane s c l d n) (fun _ => rfl) (evenPair_of_wellFormed (o := wrO kVS true d) (by simp [opnds])) fun s c l x fl hv hc => ?_
  split at hv
  · next hk =>
    cases hv
    exact (if_pos hk).trans (laneValue_ok _ _ hc)
  · cases hv

/-- What ACCRD computes for a lane (R343). -/
def accrdLane (c : Ctx) (l : Nat) (ty : Ty) (rnd : Rnd) (sat : Bool) (d : Spec) (ad : BitVec 6) (e : Spec) : Except Nat LaneRes :=
  if c.l.accs ≤ ad.toNat then .error cBND
  else do
    let x ← accElem c l e
    let ws ← writesTo c l (tyWide ty) d (accrdRes ty rnd sat (aGet c.g ad.toNat x).toNat).1
    return (ws, (accrdRes ty rnd sat (aGet c.g ad.toNat x).toNat).2)

/-- The element that a lane names, when its operand can be read and stands for one of the tile's 256 (R343). -/
theorem accElem_ok {c : Ctx} {l x : Nat} {e : Spec} (he : opVal c l .n32 e = some x) (hx : x * 32 + l < 256) :
    accElem c l e = .ok (x * 32 + l) := by
  have hlt : x * Config.W + l < 256 := hx
  simp only [accElem, readOp_of_opVal he]
  exact if_pos hlt

theorem accrd_results (h : Hdr) (ty : Ty) (rnd : Rnd) (sat : Bool) (d : Spec) (ad : BitVec 6) (e : Spec) {op : RegOp}
    (ho : stateOp (.accrd h ty rnd sat d ad e) = some op) :
    WritesRegs (.accrd h ty rnd sat d ad e) op ∧ QueuesRegs (.accrd h ty rnd sat d ad e) op := by
  cases ho
  refine laneWord_results (fun _ c l => accrdLane c l ty rnd sat d ad e) (fun _ => rfl)
    (evenPair_of_wellFormed (o := wrO (if tyWide ty then kV else kVX) (tyWide ty) d) (by simp [opnds])) fun s c l x fl hv hc => ?_
  split at hv
  · cases hv
  · next hacc =>
    obtain ⟨y, hy, hv⟩ := Option.bind_eq_some_iff.1 hv
    split at hv
    · next hlt =>
      have hr := Option.some.inj hv
      rw [accrdLane, if_neg hacc, accElem_ok hy hlt]
      exact (laneValue_ok _ _ hc).trans (by rw [hr])
    · cases hv

/-- Settles O17: each word evaluates its lanes to the value that `stateOp` gives it, and a word of such lanes writes or queues its results. -/
theorem stateReads : Obligations.StateReads := by
  intro i op ho
  cases i with
  | tollrd h sel d => exact tollrd_results h sel d ho
  | cntrd h d n => exact cntrd_results h d n ho
  | accrd h ty rnd sat d ad e => exact accrd_results h ty rnd sat d ad e ho
  | _ => cases ho

end Sys2Proof.Machine
end

section
/-! SUPPORT. The toll (R71 to R88): the machine after device reset, the effective toll of a group, the ticks of the loop, the samples of the
kerb and the writes of TCTL, and the statements ResetState, EffectiveToll and TollSteps. -/

namespace Sys2Proof.Machine

/-! ## Device reset, R33, R41, R87, R427 -/

/-- Nothing is listed in memory after device reset, so every byte reads as what an unlisted one reads as. -/
theorem memRead_reset (a : Nat) : memRead State.reset.mem a = 0 := rfl

theorem memoryOk_reset : MemoryOk State.reset := ⟨rfl, rfl, rfl⟩

/-- Settles O7: each table of the reset state is empty, so that each queue, crossing and byte is the one that an unlisted key stands for. -/
theorem resetState : Obligations.ResetState :=
  ⟨rfl, rfl, rfl, rfl, rfl, rfl, rfl, rfl, fun _ => rfl, fun _ => rfl, rfl, rfl, memoryOk_reset, memRead_reset⟩

/-! ## The effective toll, R78 -/

/-- A setting's toll before its clamp: the value on the broadcast code, or the absolute value no further from it than an offset reaches. -/
def settingToll (abs : Bool) (v : Int) (b : Nat) : Int :=
  max 0 (min 4095 (if abs = true then max ((b : Int) - 256) (min (b + 255) v) else b + v))

theorem effToll_eq (abs : Bool) (v : Int) (b : Nat) (clamp : Bool) :
    (effToll abs v b clamp : Int) = if clamp = true then max (settingToll abs v b) b else settingToll abs v b := by
  have hpos : 0 ≤ settingToll abs v b := Int.le_max_left _ _
  cases clamp with
  | false => exact Int.toNat_of_nonneg hpos
  | true =>
    have hmax : ((max (settingToll abs v b).toNat b : Nat) : Int) = max (settingToll abs v b) b := by omega
    exact hmax

/-- Settles O8: the group's toll is `effToll` of its setting, whose clamp is NEAR or KERB. -/
theorem effectiveToll : Obligations.EffectiveToll := by
  intro s k g b e
  refine (effToll_eq g.tabs g.tval (regionCode s (coreOf s k)) (s.supply.near || s.supply.kerb)).trans ?_
  simp only [Bool.or_eq_true]
  rfl

/-! ## A tick of the loop, R73, R86, R88 -/

theorem scriptEnter_frame (u : Supply) (n : Nat) :
    scriptEnter u n = { u with sidx := (scriptEnter u n).sidx, sleft := (scriptEnter u n).sleft, base := (scriptEnter u n).base
                               snear := (scriptEnter u n).snear } := by
  simp only [scriptEnter]
  split <;> rfl

/-- A tick of the script moves in it and changes nothing else (R88). -/
theorem scriptTick_frame (u : Supply) :
    scriptTick u = { u with fresh := (scriptTick u).fresh, sidx := (scriptTick u).sidx, sleft := (scriptTick u).sleft
                            base := (scriptTick u).base, snear := (scriptTick u).snear } := by
  simp only [scriptTick]
  split
  · rw [scriptEnter_frame]
  · split
    · rfl
    · split
      · rfl
      · rw [scriptEnter_frame]

/-- The measured power is at 95 % of the cap or above (R73). -/
abbrev powerHigh (u : Supply) (w : Nat) : Prop := 95 * u.capw ≤ 100 * w

/-- The measured power is at 90 % of the cap or above (R73). -/
abbrev powerNear (u : Supply) (w : Nat) : Prop := 90 * u.capw ≤ 100 * w

theorem powerNear_of_high {u : Supply} {w : Nat} (h : powerHigh u w) : powerNear u w := by omega

/-- What a tick makes of the supply block in every mode (R73, R86). -/
theorem supplyTick_fields (u : Supply) (w : Nat) :
    (supplyTick u w).tick = u.tick + 1 ∧ (supplyTick u w).pwr = min w 8191 ∧ (supplyTick u w).capw = u.capw ∧
      (supplyTick u w).mode = u.mode ∧ ((supplyTick u w).kerb = true ↔ u.kerb = true ∧ (powerHigh u w ∨ u.tripped = true)) := by
  have hk : (u.kerb && (decide (95 * u.capw ≤ 100 * w) || u.tripped)) = true ↔ u.kerb = true ∧ (powerHigh u w ∨ u.tripped = true) := by
    simp [powerHigh]
  simp only [supplyTick]
  split
  · exact ⟨rfl, rfl, rfl, rfl, hk⟩
  · rw [scriptTick_frame]
    exact ⟨rfl, rfl, rfl, rfl, hk⟩
  · exact ⟨rfl, rfl, rfl, rfl, hk⟩

/-- In loop mode the code rises, stays or falls with the measured power (R73). -/
theorem supplyTick_loop {u : Supply} (w : Nat) (hm : u.mode = 0) :
    (powerHigh u w → (supplyTick u w).l = min 4095 (u.l + 16)) ∧ (¬ powerHigh u w → powerNear u w → (supplyTick u w).l = u.l) ∧
      (¬ powerNear u w → (supplyTick u w).l = u.l - 4) ∧ ((supplyTick u w).near = true ↔ powerNear u w) := by
  have hl : (supplyTick u w).l = if decide (powerHigh u w) = true then min 4095 (u.l + 16)
      else if decide (powerNear u w) = true then u.l else u.l - 4 := by
    simp only [supplyTick, hm]
    rfl
  have hn : (supplyTick u w).near = decide (powerNear u w) := by
    simp only [supplyTick, hm]
    rfl
  simp only [decide_eq_true_eq] at hl
  refine ⟨fun h => hl.trans (if_pos h), fun h hn => hl.trans ((if_neg h).trans (if_pos hn)), fun h => ?_, by rw [hn, decide_eq_true_iff]⟩
  exact hl.trans ((if_neg fun hh => h (powerNear_of_high hh)).trans (if_neg h))

/-- Pinned, the broadcast code is the pinned one, raised while KERB is set (R86, R88). -/
theorem supplyTick_pinned {u : Supply} (w : Nat) (hm : u.mode = 1) :
    (supplyTick u w).l = if (supplyTick u w).kerb = true then min 4095 (u.pinl.toNat + 128) else u.pinl.toNat := by
  simp only [supplyTick, hm]
  rfl

/-- A tick of the loop is that of the supply block, but for the choices of the units. -/
theorem exec_tollTick_ticks (s : State) (w : Nat) : ∃ cs gs ls, exec (.tollTick w) s =
    .next { s with cores := cs, groups := gs, supply := { supplyTick s.supply w with links := ls } } := ⟨_, _, _, rfl⟩

/-! ## Samples of the kerb, R85 -/

theorem kerbSample_low {s : State} {ma mv : Nat} (h : ma * mv ≤ 1000000 * s.supply.capw) :
    kerbSample s ma mv = { s with supply := { s.supply with high := 0 } } := if_neg (Nat.not_lt.mpr h)

theorem kerbSample_counts {s : State} {ma mv : Nat} (h : 1000000 * s.supply.capw < ma * mv) (h7 : s.supply.high ≠ 7) :
    kerbSample s ma mv = { s with supply := { s.supply with high := s.supply.high + 1 } } := (if_pos h).trans (if_neg h7)

theorem kerbSample_trips {s : State} {ma mv : Nat} (h : 1000000 * s.supply.capw < ma * mv) (h7 : s.supply.high = 7)
    (ht : s.supply.tripped = false) : kerbSample s ma mv =
      kerbJump { s with supply := { s.supply with high := 0, tripped := true, ktrips := min 65535 (s.supply.ktrips + 1) } } :=
  (if_pos h).trans ((if_pos h7).trans (if_neg (by simp [ht])))

/-- The kerb's jump: KERB and NEAR, the code up in loop mode, and every core at point 0 (R85). -/
theorem kerbJump_spec (s : State) :
    (kerbJump s).supply.kerb = true ∧ (kerbJump s).supply.near = true ∧ (kerbJump s).supply.high = s.supply.high ∧
      (kerbJump s).supply.ktrips = s.supply.ktrips ∧ (s.supply.mode = 0 → (kerbJump s).supply.l = min 4095 (s.supply.l + 128)) ∧
      ∀ c, c < 192 → (getCore (kerbJump s) c).clock.cur = 0 := by
  refine ⟨rfl, rfl, rfl, rfl, fun hm => if_pos (by rw [hm]; rfl), fun c hc => ?_⟩
  rw [kerbJump, getCore_updCores, if_pos hc]

/-! ## TCTL, R87, R88 -/

/-- The supply block after a write of TCTL that sets a mode (R88). -/
def tctlSet (u : Supply) (v : Word) : Supply :=
  { u with mode := v.extractLsb' 30 2, pinl := v.extractLsb' 0 12
           fresh := if v.extractLsb' 30 2 = 2 then u.fresh || u.mode ≠ 2 else false
           base := if v.extractLsb' 30 2 = 2 ∧ u.mode ≠ 2 then u.l else u.base
           snear := if v.extractLsb' 30 2 = 2 ∧ u.mode ≠ 2 then u.near else u.snear }

theorem tctlWrite_sets {s : State} {v : Word} (hs : running s = true) (hm : v.extractLsb' 30 2 ≠ 3) :
    tctlWrite s 0 v = { s with supply := tctlSet s.supply v } := by
  simp only [tctlWrite, hs, hm]
  rfl

theorem tctlSet_starts {u : Supply} {v : Word} (hm : v.extractLsb' 30 2 = 2) (hu : u.mode ≠ 2) : (tctlSet u v).fresh = true :=
  (if_pos hm).trans (by rw [decide_eq_true hu, Bool.or_true])

/-- The three instructions that name a mode write TCTL when the value holds their mode. -/
theorem exec_tollMode_sets {s : State} {v : Word} {i : Instr} (hs : running s = true)
    (hi : (i = .tollModeLoop 0 v ∧ v.extractLsb' 30 2 = 0) ∨ (i = .tollModePinned 0 v ∧ v.extractLsb' 30 2 = 1) ∨
      (i = .tollModeScripted 0 v ∧ v.extractLsb' 30 2 = 2)) :
    exec i s = .next { s with supply := tctlSet s.supply v } := by
  have hw : v.extractLsb' 30 2 ≠ 3 → tctlWrite s 0 v = { s with supply := tctlSet s.supply v } := tctlWrite_sets hs
  rcases hi with ⟨rfl, hm⟩ | ⟨rfl, hm⟩ | ⟨rfl, hm⟩
  · exact congrArg Host.Outcome.next ((if_pos (congrArg BitVec.toNat hm)).trans (hw (by rw [hm]; decide)))
  · exact congrArg Host.Outcome.next ((if_pos (congrArg BitVec.toNat hm)).trans (hw (by rw [hm]; decide)))
  · exact congrArg Host.Outcome.next ((if_pos (congrArg BitVec.toNat hm)).trans (hw (by rw [hm]; decide)))

/-- Settles O52: a tick is that of the supply block in its mode, a sample clears the count, adds to it or trips the kerb, and a write of
TCTL sets the mode that it names. -/
theorem tollSteps : Obligations.TollSteps := by
  refine ⟨fun s w => ?_, fun s ma mv => ⟨fun h => ?_, fun h h7 => ?_, fun h h7 ht => ?_⟩, fun s v i hs hi => ?_⟩
  · intro u high near
    obtain ⟨cs, gs, ls, hex⟩ := exec_tollTick_ticks s w
    obtain ⟨htick, hpwr, hcapw, hmode, hkerb⟩ := supplyTick_fields u w
    exact ⟨_, hex, htick, hpwr, hkerb, supplyTick_loop w, supplyTick_pinned w, hcapw, hmode, rfl, rfl⟩
  · exact congrArg Host.Outcome.next (kerbSample_low h)
  · exact congrArg Host.Outcome.next (kerbSample_counts h h7)
  · obtain ⟨hkerb, hnear, hhigh, htrips, hl, hcores⟩ :=
      kerbJump_spec { s with supply := { s.supply with high := 0, tripped := true, ktrips := min 65535 (s.supply.ktrips + 1) } }
    exact ⟨_, congrArg Host.Outcome.next (kerbSample_trips h h7 ht), hkerb, hnear, hhigh, htrips, hl, hcores⟩
  · exact ⟨_, exec_tollMode_sets hs hi, rfl, rfl, rfl, rfl, tctlSet_starts⟩

end Sys2Proof.Machine
end

section
/-! SUPPORT. The power of regions (R89 to R94): what leaves the supply block and the anchor alone, sensors, phases and feeds, the gating and
waking of a region, and the statement PowerSteps. -/

namespace Sys2Proof.Machine

/-! ## What leaves the supply block and the anchor alone -/

/-- Neither the supply block nor the anchor changes. -/
def PlantFrame (s t : State) : Prop := t.supply = s.supply ∧ t.anchor = s.anchor

theorem PlantFrame.refl (s : State) : PlantFrame s s := ⟨rfl, rfl⟩
theorem PlantFrame.trans {a b c : State} (h : PlantFrame a b) (k : PlantFrame b c) : PlantFrame a c := ⟨k.1.trans h.1, k.2.trans h.2⟩

theorem CauseFrame.plant {s t : State} (h : CauseFrame s t) : PlantFrame s t := by
  unfold CauseFrame at h; rw [h]; exact ⟨rfl, rfl⟩

theorem PlantFrame.region {s t : State} (h : PlantFrame s t) (r : Nat) : getRegion t r = getRegion s r := by
  simp only [getRegion, h.1]

theorem hwRecord_plant (s : State) (d : DWord) : PlantFrame s (hwRecord s d) := (hwRecord_frame s d).cause.plant

theorem holdKey_plant (s : State) (key : Nat) : PlantFrame s (holdKey s key) := by
  refine foldl_rel PlantFrame.refl PlantFrame.trans (fun z c => ?_) (waitCores s key) s
  exact ⟨rfl, rfl⟩

theorem moveHeld_plant (s : State) : PlantFrame s (moveHeld s) :=
  PlantFrame.trans (b := { s with cores := s.cores.map fun e => (e.1, { e.2 with heldTeam := [] }) }) ⟨rfl, rfl⟩
    (foldl_rel PlantFrame.refl PlantFrame.trans holdKey_plant _ _)

theorem goDark_plant (s : State) (c : Nat) : PlantFrame s (goDark s c) := by
  refine (moveHeld_plant (updCore s c fun x => { x with dark := true })).trans
    (foldl_rel PlantFrame.refl PlantFrame.trans (fun z e => ?_) _ _)
  split
  · exact ⟨rfl, rfl⟩
  · exact .refl z

theorem goLight_plant (s : State) (c : Nat) : PlantFrame s (goLight s c) := moveHeld_plant (updCore s c fun x => { x with dark := false })

theorem loseTeam_plant (s : State) (tk : Nat) : PlantFrame s (loseTeam s tk) := by
  unfold loseTeam
  split <;> exact ⟨rfl, rfl⟩

theorem loseGrid_plant (s : State) (r : Nat) (ts : List Nat) (lk : Nat) : PlantFrame s (loseGrid s r ts lk) := (fatal_frame s lk _).plant

/-! ## Regions -/

theorem getRegion_updRegion (s : State) (r : Nat) (f : Region → Region) : getRegion (updRegion s r f) r = f (getRegion s r) :=
  tabGet_tabPut_same _ _ _ _

/-- A record changes no region (R402). -/
theorem getRegion_hwRecord (s : State) (d : DWord) (r : Nat) : getRegion (hwRecord s d) r = getRegion s r := (hwRecord_plant s d).region r

/-- The loss of a region changes the supply block in that region's failure alone (R91, R93). -/
theorem loseRegion_plant (s : State) (r : Nat) : PlantFrame (updRegion s r fun x => { x with failed := true }) (loseRegion s r) := by
  refine (hwRecord_plant _ (BitVec.ofNat 64 r)).trans ?_
  simp only [loseRegion]
  split
  · refine PlantFrame.trans ?_ (goDark_plant _ r)
    refine PlantFrame.trans ?_ (b := List.foldl loseTeam _ _) ⟨rfl, rfl⟩
    exact (foldl_rel PlantFrame.refl PlantFrame.trans (fun z lk => loseGrid_plant z r _ lk) _ _).trans
      (foldl_rel PlantFrame.refl PlantFrame.trans loseTeam_plant _ _)
  · exact ⟨rfl, rfl⟩

theorem getRegion_loseRegion (s : State) (r : Nat) : getRegion (loseRegion s r) r = { getRegion s r with failed := true } :=
  ((loseRegion_plant s r).region r).trans (getRegion_updRegion _ _ _)

theorem loseRegion_dark {s : State} {r : Nat} (hr : r < 192) : (getCore (loseRegion s r) r).dark = true := by
  simp only [loseRegion, hr, if_true]
  exact goDark_dark _ r

theorem losePhase_ends {s : State} {r : Nat} (hf : (getRegion s r).failed = false) (hb : (getRegion s r).bias = true) :
    losePhase s r = loseRegion s r := by
  simp only [losePhase, hf, hb, Bool.false_eq_true, if_false, if_true]

/-- The first loss of a phase biases a region, the second ends it (R91). -/
theorem getRegion_losePhase (s : State) (r : Nat) : getRegion (losePhase s r) r =
    if (getRegion s r).failed = true then getRegion s r
    else if (getRegion s r).bias = true then { getRegion s r with failed := true } else { getRegion s r with bias := true } := by
  simp only [losePhase]
  split
  · rfl
  · split
    · exact getRegion_loseRegion s r
    · rw [getRegion_hwRecord, getRegion_updRegion]

/-! ## Sensors, phases and feeds, R89, R91 -/

section
variable {s : State} {r k p : Nat}

theorem sensorFault_out {mv : Nat} (hr : r < 384) (hm : mv < 300 ∨ 1000 < mv) (hk : k ∉ (getRegion s r).lostSensors) :
    ∃ z, getRegion z r = { getRegion s r with lostSensors := (getRegion s r).lostSensors ++ [k] } ∧ sensorFault s r k mv =
      if Config.regionSensors r ≤ (getRegion s r).lostSensors.length + 1 then losePhase (losePhase z r) r else z := by
  refine ⟨hwRecord (updRegion s r fun x => { x with lostSensors := x.lostSensors ++ [k] }) (BitVec.ofNat 64 r), ?_, ?_⟩
  · rw [getRegion_hwRecord, getRegion_updRegion]
  · exact if_pos (by simp [Config.regions, hr, hm, hk])

/-- A region that has lost two phases has failed, and its sensors are as they were (R89, R91). -/
theorem getRegion_losePhase_twice (s : State) (r : Nat) : (getRegion (losePhase (losePhase s r) r) r).failed = true ∧
    (getRegion (losePhase (losePhase s r) r) r).lostSensors = (getRegion s r).lostSensors := by
  rw [getRegion_losePhase, getRegion_losePhase]
  cases hf : (getRegion s r).failed <;> cases hb : (getRegion s r).bias <;> simp [hf, hb]

theorem exec_sensorFault_excludes {mv : Nat} (hr : r < 384) (hm : mv < 300 ∨ 1000 < mv) (hk : k ∉ (getRegion s r).lostSensors) :
    ∃ t, exec (.sensorFault r k mv) s = .next t ∧ (getRegion t r).lostSensors = (getRegion s r).lostSensors ++ [k] ∧
      (Config.regionSensors r ≤ (getRegion s r).lostSensors.length + 1 → (getRegion t r).failed = true) := by
  obtain ⟨z, hz, heq⟩ := sensorFault_out hr hm hk
  refine ⟨_, congrArg Host.Outcome.next heq, ?_⟩
  split
  · obtain ⟨hfail, hsens⟩ := getRegion_losePhase_twice z r
    exact ⟨hsens.trans (by rw [hz]), fun _ => hfail⟩
  · next hn => exact ⟨by rw [hz], fun h => absurd h hn⟩

/-- The state in which a phase of a region works no more. -/
def phaseLost (s : State) (r p : Nat) : State := updRegion s r fun x => { x with phok := x.phok &&& ~~~(BitVec.ofNat 4 (2 ^ p)) }

theorem getRegion_phaseLost (s : State) (r p : Nat) : getRegion (phaseLost s r p) r =
    { getRegion s r with phok := (getRegion s r).phok &&& ~~~(BitVec.ofNat 4 (2 ^ p)) } := getRegion_updRegion _ _ _

theorem exec_phaseFail_loses (hr : r < 384) (hp : (getRegion s r).phok.getLsbD p = true) :
    exec (.phaseFail r p) s = .next (losePhase (phaseLost s r p) r) :=
  congrArg Host.Outcome.next (if_pos (by simp [Config.regions, hr, hp]))

theorem losePhase_phaseLost (hf : (getRegion s r).failed = false) :
    (getRegion (losePhase (phaseLost s r p) r) r).phok = (getRegion s r).phok &&& ~~~(BitVec.ofNat 4 (2 ^ p)) ∧
      ((getRegion s r).bias = false → (getRegion (losePhase (phaseLost s r p) r) r).bias = true ∧
        (getRegion (losePhase (phaseLost s r p) r) r).failed = false) ∧
      ((getRegion s r).bias = true → (getRegion (losePhase (phaseLost s r p) r) r).failed = true ∧
        (r < 192 → (getCore (losePhase (phaseLost s r p) r) r).dark = true)) := by
  have hg := getRegion_losePhase (phaseLost s r p) r
  simp only [getRegion_phaseLost, hf, Bool.false_eq_true, if_false] at hg
  cases hb : (getRegion s r).bias with
  | false =>
    simp only [hb, Bool.false_eq_true, if_false] at hg
    rw [hg]
    exact ⟨rfl, fun _ => ⟨rfl, rfl⟩, fun h => by cases h⟩
  | true =>
    have hends : losePhase (phaseLost s r p) r = loseRegion (phaseLost s r p) r :=
      losePhase_ends (by rw [getRegion_phaseLost, hf]) (by rw [getRegion_phaseLost, hb])
    simp only [hb, if_true] at hg
    rw [hg]
    exact ⟨rfl, fun h => (by cases h), fun _ => ⟨rfl, fun hlt => by rw [hends]; exact loseRegion_dark hlt⟩⟩

end

/-- A record takes the next place of its function's fatal lane, whether or not its bytes reach memory (R402). -/
theorem putFatal_tail (s : State) (f : Nat) (x : RecF) : (getFunc (putFatal s f x).1 f).ftail = (getFunc s f).ftail + 1 := by
  have key : ∀ z, WriteFrame s z → (getFunc (signal (updFunc z f fun x => { x with ftail := x.ftail + 1 }) f 1) f).ftail =
      (getFunc s f).ftail + 1 := by
    intro z hz
    have hfun : getFunc z f = getFunc s f := by unfold WriteFrame at hz; rw [hz]; rfl
    rw [← hfun]
    exact congrArg Func.ftail (getFunc_setFunc_same z f _)
  simp only [putFatal]
  split
  · exact key _ (sysPut_frame s _ _)
  · exact key _ (.refl s)

theorem dropHw_tail (s : State) : (getFunc (dropHw s) 0).ftail = (getFunc s 0).ftail := by
  rw [dropHw, updFunc_eq, getFunc_setFunc_same]

/-- A hardware-error record that finds a free place takes it (R402, R404). -/
theorem hwRecord_tail {s : State} (d : DWord) (hf : fatalFull s 0 = false) : (getFunc (hwRecord s d) 0).ftail = (getFunc s 0).ftail + 1 := by
  simp only [hwRecord, hf, Bool.false_eq_true, if_false]
  split
  · exact (dropHw_tail _).trans (putFatal_tail _ _ _)
  · exact putFatal_tail _ _ _

/-! ## Gating and waking, R92, R94 -/

section
variable {s : State} {r g : Nat}

/-- The switching off of an idle core's region keeps its GATE, and every core (R92). -/
theorem gateIdle_keeps (s : State) (c : Nat) : (getRegion (gateIdle s c) c).gate = (getRegion s c).gate ∧ (gateIdle s c).cores = s.cores := by
  simp only [gateIdle]
  split
  · exact ⟨(congrArg Region.gate (tabGet_tabPut_same regionReset s.supply.regions c _)).trans rfl, rfl⟩
  · exact ⟨rfl, rfl⟩

theorem exec_regionGate_core (hs : running s = true) (hr : r < 192) (hg : (getRegion s r).gate = false) :
    ∃ t, exec (.regionGate 0 r) s = .next t ∧ (getRegion t r).gate = true ∧ (getCore t r).dark = true := by
  let z := goDark (updRegion s r fun x => { x with gate := true, want := false }) r
  have heq : gateRegion s 0 r = gateIdle z r := by
    have hlt : r < Config.regions := Nat.lt_trans hr (by decide)
    simp [gateRegion, hs, hlt, mayGate, hr, hg, z]
  obtain ⟨hgate, hcores⟩ := gateIdle_keeps z r
  refine ⟨_, congrArg Host.Outcome.next heq, hgate.trans ?_, ?_⟩
  · rw [(goDark_plant _ r).region r, getRegion_updRegion]
  · rw [getCore, hcores]
    exact goDark_dark _ r

theorem exec_regionGate_gated (hg : (getRegion s r).gate = true) : exec (.regionGate 0 r) s = .next s :=
  congrArg Host.Outcome.next (if_pos (by simp [hg]))

theorem exec_regionWake_off (hs : running s = true) (hr : r < 384) (hf : (getRegion s r).failed = false)
    (hg : (getRegion s r).gated = true) (hw : (getRegion s r).waking = false) :
    ∃ t, exec (.regionWake 0 r) s = .next t ∧ getRegion t r = { getRegion s r with gate := false, want := true } := by
  have heq : wakeRegion s 0 r = updRegion s r fun x => { x with gate := false, want := !x.waking } := by
    have hlt : r < Config.regions := hr
    simp [wakeRegion, hs, hlt, hf, hg]
  refine ⟨_, congrArg Host.Outcome.next heq, ?_⟩
  simp only [getRegion_updRegion, hw, Bool.not_false]

theorem exec_wakeGrant_wakes (hfind : ((List.range 384).find? fun q => segmentOf q == g && (getRegion s q).want) = some r)
    (hpeak : segmentPeak s g + Config.regionInrush r ≤ Config.segmentRating g) :
    ∃ t, exec (.wakeGrant g) s = .next t ∧ getRegion t r = { getRegion s r with want := false, gated := false, waking := true, stage := 0 } := by
  have hfind' : ((List.range Config.regions).find? fun q => segmentOf q == g && (getRegion s q).want) = some r := hfind
  have heq : wakeGrant s g = updRegion s r fun x => { x with want := false, gated := false, waking := true, stage := 0 } := by
    simp only [wakeGrant, hfind', hpeak, if_true]
  exact ⟨_, congrArg Host.Outcome.next heq, getRegion_updRegion _ _ _⟩

theorem exec_gateStage_next (hw : (getRegion s r).waking = true) (hst : (getRegion s r).stage < 7) :
    ∃ t, exec (.gateStage r) s = .next t ∧ getRegion t r = { getRegion s r with stage := (getRegion s r).stage + 1 } := by
  have heq : gateStage s r = updRegion s r fun x => { x with stage := x.stage + 1 } := by
    simp only [gateStage, hw, hst, Bool.not_true, Bool.false_eq_true, if_false, if_true]
  exact ⟨_, congrArg Host.Outcome.next heq, getRegion_updRegion _ _ _⟩

theorem goLight_light (s : State) (c : Nat) : (getCore (goLight s c) c).dark = false := by
  refine (moveHeld_dark _ c).trans ?_
  simp

theorem exec_gateStage_last (hw : (getRegion s r).waking = true) (hst : 7 ≤ (getRegion s r).stage) :
    ∃ t, exec (.gateStage r) s = .next t ∧ getRegion t r = { getRegion s r with stage := 8, waking := false } ∧
      (r < 192 → (getRegion s r).gate = false → (getRegion s r).failed = false → (getCore t r).dark = false) := by
  refine ⟨_, rfl, ?_⟩
  have hregion : getRegion (updRegion s r fun x => { x with stage := 8, waking := false }) r =
      { getRegion s r with stage := 8, waking := false } := getRegion_updRegion _ _ _
  simp only [gateStage, hw, Nat.not_lt.mpr hst, Bool.not_true, Bool.false_eq_true, if_false]
  split
  · split
    · next hoff =>
      refine ⟨hregion, fun _ hg hf => ?_⟩
      simp [hg, hf] at hoff
    · exact ⟨((goLight_plant _ r).region r).trans hregion, fun _ _ _ => goLight_light _ r⟩
  · next hr => exact ⟨hregion, fun h => absurd h hr⟩

end

/-- Settles O53: each failure and each event of gating changes the region as its own lemma says, and what it costs besides leaves the supply
block alone. -/
theorem powerSteps : Obligations.PowerSteps := by
  refine ⟨fun s r k p hr => ⟨fun mv hm hk => ?_, fun hp hf => ?_, fun hfull => ?_⟩, fun s r g hs => ⟨?_, ?_, ?_, ?_, ?_, ?_⟩⟩
  · obtain ⟨t, hex, hsens, hfail⟩ := exec_sensorFault_excludes hr hm hk
    exact ⟨t, hex, hsens, fun hle _ => hfail hle⟩
  · exact ⟨_, exec_phaseFail_loses hr hp, losePhase_phaseLost hf⟩
  · exact ⟨_, rfl, hwRecord_tail 0 hfull, (hwRecord_plant s 0).1⟩
  · exact exec_regionGate_core hs
  · exact fun _ => exec_regionGate_gated
  · exact exec_regionWake_off hs
  · exact exec_wakeGrant_wakes
  · exact exec_gateStage_next
  · exact exec_gateStage_last

end Sys2Proof.Machine
end

section
/-! SUPPORT. The anchor (R427 to R434): boot, the release order and the self-test, heartbeats and the watchdog, the mailbox, the restart from
the ROM, and the statement AnchorSteps. -/

namespace Sys2Proof.Machine

/-! ## What leaves the supply block and the anchor alone -/

theorem endAll_plant (s : State) : PlantFrame s (endAll s) := ⟨rfl, rfl⟩

theorem sendFlit_plant {s t : State} {xid line : Nat} (h : sendFlit s xid line = some t) : PlantFrame s t := by
  obtain ⟨-, rfl⟩ | ⟨p, -, -, rfl⟩ := sendFlit_cases h
  · exact .refl _
  · exact ⟨rfl, rfl⟩

theorem drainUnsent_plant (s : State) : PlantFrame s (drainUnsent s) := by
  refine PlantFrame.trans (b := { s with peers := { s.peers with unsent := [] } }) ⟨rfl, rfl⟩
    (foldl_rel PlantFrame.refl PlantFrame.trans (fun z x => ?_) _ _)
  split
  · next ht => exact sendFlit_plant ht
  · exact ⟨rfl, rfl⟩

theorem noteEarly_plant (old s : State) : PlantFrame s (noteEarly old s) := by
  simp only [noteEarly]
  split <;> exact ⟨rfl, rfl⟩

theorem portDown_plant (s : State) (n : Nat) : PlantFrame s (portDown s n) := by
  have hnote := noteEarly_plant s (updPort s n fun p => { p with down := true, sent := [], again := [] })
  refine PlantFrame.trans ?_ (hwRecord_plant _ _)
  refine PlantFrame.trans ?_ (drainUnsent_plant _)
  exact PlantFrame.trans ⟨rfl, rfl⟩ (hnote.trans ⟨rfl, rfl⟩)

theorem giveCore_plant (s : State) (c : Nat) (n : Need) : PlantFrame s (giveCore s c n) := by
  unfold giveCore
  split
  · exact .refl s
  · exact ⟨rfl, rfl⟩

theorem resetCore_plant (s : State) (c : Nat) : PlantFrame s (resetCore s c) := by
  refine PlantFrame.trans ?_ (PlantFrame.trans (giveCore_plant _ c _) ⟨rfl, rfl⟩)
  refine foldl_rel PlantFrame.refl PlantFrame.trans (fun z e => ?_) _ _
  exact PlantFrame.trans (b := endGrid z e.2.launch) ⟨rfl, rfl⟩ (loseTeam_plant _ _)

/-! ## Boot, R94, R427, R428 -/

section
variable {s : State}

/-- At power-up every region is off and waits for its wake (R94). -/
theorem getRegion_powerUp {r : Nat} (hr : r < 384) : getRegion (powerUp s) r =
    { getRegion s r with gated := true, want := true, waking := false, gate := false, stage := 0 } := by
  have hf := tabFind_map_range (fun r => { getRegion s r with gated := true, want := true, waking := false, gate := false, stage := 0 })
    384 r 0
  rw [if_pos ⟨Nat.zero_le r, by omega⟩, ← List.range_eq_range'] at hf
  exact congrArg (Option.getD · regionReset) hf

theorem bootVerify_first (h : s.anchor.state = 0) (hv : slotHolds s s.anchor.sel = true) : bootVerify s = takeBootSlot s s.anchor.sel := by
  simp only [bootVerify, h, hv, if_true]

theorem bootVerify_first_bad (h : s.anchor.state = 0) (hv : slotHolds s s.anchor.sel = false) :
    bootVerify s = { s with anchor := { s.anchor with state := 1 } } := by
  simp only [bootVerify, h, hv, Bool.false_eq_true, if_false]
  rfl

theorem bootVerify_second (h : s.anchor.state = 1) (hv : slotHolds s (1 - s.anchor.sel) = true) :
    bootVerify s = takeBootSlot s (1 - s.anchor.sel) := by simp only [bootVerify, h, hv, if_true]

theorem bootVerify_second_bad (h : s.anchor.state = 1) (hv : slotHolds s (1 - s.anchor.sel) = false) : bootVerify s = enterSafe s 1 := by
  simp only [bootVerify, h, hv, Bool.false_eq_true, if_false]

/-- The safe state keeps no work, answers with no BAR4, and names the first failure (R431, R432). -/
theorem enterSafe_spec (s : State) (n : Nat) : safeState (enterSafe s n) = true ∧ (enterSafe s n).pcie.bar4 = 0 ∧ (enterSafe s n).teams = [] ∧
    (enterSafe s n).launches = [] ∧ (s.anchor.funit = 0 → (enterSafe s n).anchor.funit = n) :=
  ⟨rfl, rfl, rfl, rfl, fun h => if_pos h⟩

/-! ## The release order and the self-test, R429, R430 -/

theorem releaseStep_next (hst : s.anchor.state = 2 ∨ s.anchor.state = 3) (hlt : s.anchor.step < 7) (h1 : s.anchor.step ≠ 1)
    (hd : stepDone s = true) : releaseStep s = updAnchor s fun a =>
      { a with step := a.step + 1, state := if a.step = 0 then 3 else if a.step = 6 then 4 else 2 } := by
  refine (if_neg ?_).trans (if_neg h1)
  have hstate : (s.anchor.state == 2 || s.anchor.state == 3) = true := by simpa using hst
  simp [hstate, hd, hlt]

/-- The state in which the self-test has been judged. -/
def testedIn (s : State) : State := updAnchor { s with fresh := s.fresh + 1 } fun a => { a with tests := selfTests s }

theorem releaseStep_tests (hst : s.anchor.state = 2 ∨ s.anchor.state = 3) (h1 : s.anchor.step = 1) : releaseStep s =
    if (selfTests s).all id then updAnchor (testedIn s) fun a => { a with step := 2, state := 2 }
    else enterSafe (testedIn s) ((selfTests s).idxOf false + 2) := by
  refine (if_neg ?_).trans (if_pos h1)
  have hstate : (s.anchor.state == 2 || s.anchor.state == 3) = true := by simpa using hst
  have hdone : stepDone s = true := by simp only [stepDone, h1]
  simp [hstate, hdone, h1]

theorem selfTests_all : (selfTests s).all id = true ↔ ∀ k, k < 5 → testItem s (k + 2) = true := by
  simp [selfTests]

/-- The first item that fails stands where the results name it. -/
theorem selfTests_first {k : Nat} (hk : k < 5) (hf : testItem s (k + 2) = false) (hj : ∀ j, j < k → testItem s (j + 2) = true) :
    (selfTests s).idxOf false = k := by
  have hlen : (selfTests s).length = 5 := by simp [selfTests]
  refine (List.findIdx_eq (by rw [hlen]; exact hk)).2 ⟨by simp [selfTests, hf], fun j hlt => ?_⟩
  simp [selfTests, hj j hlt]

/-- The self-test keeps its results, and begins the next step or names the first unit that failed (R430, R432). -/
theorem exec_bootReleaseStep_tests (hst : s.anchor.state = 2 ∨ s.anchor.state = 3) (h1 : s.anchor.step = 1) :
    ∃ t, exec .bootReleaseStep s = .next t ∧ t.anchor.tests = (List.range 5).map (fun k => testItem s (k + 2)) ∧
      ((∀ k, k < 5 → testItem s (k + 2) = true) → t.anchor.step = 2 ∧ t.anchor.state = 2) ∧
      ∀ k, k < 5 → testItem s (k + 2) = false → (∀ j, j < k → testItem s (j + 2) = true) →
        safeState t = true ∧ (s.anchor.funit = 0 → t.anchor.funit = k + 2) := by
  refine ⟨_, congrArg Host.Outcome.next (releaseStep_tests hst h1), ?_⟩
  split
  · next hall =>
    exact ⟨rfl, fun _ => ⟨rfl, rfl⟩, fun k hk hf _ => absurd (selfTests_all.1 hall k hk) (by simp [hf])⟩
  · next hall =>
    refine ⟨rfl, fun h => absurd (selfTests_all.2 h) hall, fun k hk hf hj => ?_⟩
    obtain ⟨hsafe, -, -, -, hunit⟩ := enterSafe_spec (testedIn s) ((selfTests s).idxOf false + 2)
    exact ⟨hsafe, fun h0 => (hunit h0).trans (by rw [selfTests_first hk hf hj])⟩

/-- A phase that does not work fails the regulators' item (R430). -/
theorem testItem_regulators {r : Nat} (hr : r < 384) (hp : (getRegion s r).phok ≠ 0xF) : testItem s 4 = false := by
  have hall : ((List.range Config.regions).all fun r => (getRegion s r).phok == 0xF) = false :=
    List.all_eq_false.2 ⟨r, List.mem_range.2 hr, by simpa using hp⟩
  exact (congrArg (Config.selfTest s.fresh 4 && ·) hall).trans (Bool.and_false _)

/-! ## Heartbeats and the watchdog, R434 -/

variable {p : Proc}

theorem beat_notes (hr : released s p = true) (hn : p ∉ s.anchor.ready) :
    beat s p = { s with anchor := { s.anchor with ready := p :: s.anchor.ready } } := if_pos (by simp [hr, hn])

/-- The third reset by the watchdog since power-up leads to the safe state (R434). -/
theorem watchdog_third (hr : released s p = true) (h2 : 2 ≤ s.anchor.resets) :
    watchdog s p = enterSafe (updAnchor s fun a => { a with resets := a.resets + 1 }) 7 :=
  (if_neg (by simp [hr])).trans (if_pos h2)

/-- The state in which the watchdog has reset a processor, before its image is verified again. -/
def procReset (s : State) (p : Proc) : State :=
  let z := updAnchor s fun a => { a with resets := a.resets + 1, ready := a.ready.filter fun q => q != p }
  match p with
  | .management | .frontEnd _ => hwRecord (endAll z) 0
  | .link n => portDown z n
  | .compute n => resetCore z n

/-- The reset of a processor changes the anchor in its count and in what has beaten alone. -/
theorem procReset_anchor (s : State) (p : Proc) : (procReset s p).anchor =
    { s.anchor with resets := s.anchor.resets + 1, ready := s.anchor.ready.filter fun q => q != p } := by
  cases p with
  | management => exact ((endAll_plant _).trans (hwRecord_plant _ 0)).2
  | frontEnd n => exact ((endAll_plant _).trans (hwRecord_plant _ 0)).2
  | link n => exact (portDown_plant _ n).2
  | compute n => exact (resetCore_plant _ n).2

theorem endAll_ends {lk : Nat} {l : Launch} (hm : (lk, l) ∈ (endAll s).launches) (hl : l.stage ≠ .retired) : l.fate ≠ 0 := by
  obtain ⟨e, -, he⟩ := List.mem_map.1 hm
  split at he
  · next hr =>
    subst he
    exact absurd hr hl
  · obtain rfl : endWith 0x07 e.2 = l := congrArg Prod.snd he
    simp only [endWith]
    split
    · next hg => exact fun h0 => by simp [gridEnded, h0] at hg
    · decide

/-- The reset of the management core ends every launch (R434). -/
theorem procReset_management {lk : Nat} {l : Launch} (hm : (lk, l) ∈ (procReset s .management).launches) (hl : l.stage ≠ .retired) :
    l.fate ≠ 0 := by
  let z := endAll (updAnchor s fun a => { a with resets := a.resets + 1, ready := a.ready.filter fun q => q != .management })
  have hrec := hwRecord_frame z 0
  unfold RecordFrame at hrec
  have hlaunches : (hwRecord z 0).launches = z.launches := (congrArg State.launches hrec).trans rfl
  exact endAll_ends (hlaunches ▸ hm) hl

theorem watchdog_resets (hr : released s p = true) (h2 : s.anchor.resets < 2) : watchdog s p =
    if imageHolds (procReset s p) (procReset s p).anchor.slot (procImage p) then procReset s p
    else updAnchor (procReset s p) fun a => { a with dead := p :: a.dead } :=
  (if_neg (by simp [hr])).trans (if_neg (Nat.not_le.mpr h2))

theorem exec_watchdogExpiry_resets (hr : released s p = true) (h2 : s.anchor.resets < 2) :
    ∃ t, exec (.watchdogExpiry p) s = .next t ∧ t.anchor.resets = s.anchor.resets + 1 ∧ t.anchor.state = s.anchor.state ∧
      (p = .management → ∀ lk l, (lk, l) ∈ t.launches → l.stage ≠ .retired → l.fate ≠ 0) := by
  refine ⟨_, congrArg Host.Outcome.next (watchdog_resets hr h2), ?_⟩
  have hends : p = .management → ∀ lk l, (lk, l) ∈ (procReset s p).launches → l.stage ≠ .retired → l.fate ≠ 0 := by
    rintro rfl lk l
    exact procReset_management
  split
  · exact ⟨by rw [procReset_anchor], by rw [procReset_anchor], hends⟩
  · exact ⟨by rw [updAnchor_anchor, procReset_anchor], by rw [updAnchor_anchor, procReset_anchor], hends⟩

end

/-! ## The mailbox, R432, R433 -/

/-- Bytes that have been written from an address on read as written, and every other as before. -/
theorem memRead_memWriteList (m : List (Nat × Byte)) (a c : Nat) (bs : List Byte) :
    memRead (memWriteList m a bs) c = if a ≤ c ∧ c < a + bs.length then bs.getD (c - a) 0 else memRead m c := by
  induction bs generalizing m a with
  | nil => rw [if_neg (by simp only [List.length_nil]; omega)]; rfl
  | cons b bs ih =>
    rw [memWriteList, ih, List.length_cons]
    by_cases hc : c = a
    · subst hc
      rw [if_neg (by omega), if_pos (by omega), memRead_memWrite_same, Nat.sub_self, List.getD_cons_zero]
    · rw [memRead_memWrite_other _ _ _ _ hc]
      by_cases hin : a + 1 ≤ c ∧ c < a + 1 + bs.length
      · rw [if_pos hin, if_pos (by omega), show c - a = c - (a + 1) + 1 by omega, List.getD_cons_succ]
      · rw [if_neg hin, if_neg (by omega)]

/-- A copy of bytes from one memory to another reads as they read there. -/
theorem memRead_copied (m d : List (Nat × Byte)) (a : Nat) {n j : Nat} (hj : j < n) :
    memRead (memWriteList m a (memReadList d 0 n)) (a + j) = memRead d j := by
  rw [memRead_memWriteList, if_pos (by simp [memReadList, hj])]
  simp [memReadList, hj]

section
variable {s : State} {v : Word} {n : Nat}

/-- What the command of an OP does before it is noted as under way. -/
def mbRun (s : State) : Nat → State × BitVec 8
  | 1 => attest s
  | 2 => readlog s
  | 4 => selectSlot s
  | _ => stagePiece s

/-- A command under way: its OP and BUSY stand, and its result is to come (R432). -/
def mbStarted (r : State × BitVec 8) (n : Nat) : State := updAnchor r.1 fun a => { a with mbop := BitVec.ofNat 8 n, mbbusy := true, mbnext := r.2 }

theorem mbStarted_flash (r : State × BitVec 8) (n : Nat) : (mbStarted r n).anchor.flash = r.1.anchor.flash := rfl

/-- OPs whose commands end in the mailbox; REBOOT starts again from the ROM. -/
def mbListed (n : Nat) : Prop := n = 1 ∨ n = 2 ∨ n = 4 ∨ n = 5

theorem mbcmdWrite_starts (hgo : v.getLsbD 31 = true) (hb : s.anchor.mbbusy = false) (hn : mbListed n)
    (hop : v.extractLsb' 0 8 = BitVec.ofNat 8 n) : mbcmdWrite s 0 v = mbStarted (mbRun s n) n := by
  rcases hn with rfl | rfl | rfl | rfl <;> simp only [mbcmdWrite, hgo, hb, hop] <;> rfl

theorem mbOp_starts (hgo : v.getLsbD 31 = true) (hb : s.anchor.mbbusy = false) (hn : mbListed n) (hop : v.extractLsb' 0 8 = BitVec.ofNat 8 n) :
    mbOp n s 0 v = .next (mbStarted (mbRun s n) n) := by
  have hval : (v.extractLsb' 0 8).toNat = n := by
    rw [hop]
    rcases hn with rfl | rfl | rfl | rfl <;> rfl
  exact congrArg Host.Outcome.next ((if_pos hval).trans (mbcmdWrite_starts hgo hb hn hop))

/-- A command of the mailbox changes the anchor alone (R432). -/
theorem mbRun_frame (s : State) (n : Nat) : (mbRun s n).1 = { s with anchor := (mbRun s n).1.anchor } := by
  unfold mbRun
  split
  · simp only [attest]
    split <;> rfl
  · rfl
  · simp only [selectSlot]
    split <;> rfl
  · rfl

theorem attest_early (h : s.anchor.state < 4) : (attest s).2 = 1 := by simp only [attest, h, if_true]

theorem selectSlot_valid (h : (memRead s.anchor.mbdata 0).toNat < 2) :
    (selectSlot s).1.anchor.sel = (memRead s.anchor.mbdata 0).toNat ∧ (selectSlot s).2 = 0 := by
  rw [selectSlot, if_pos h]
  exact ⟨rfl, rfl⟩

theorem selectSlot_invalid (h : 2 ≤ (memRead s.anchor.mbdata 0).toNat) : selectSlot s = (s, 0x02) := if_neg (Nat.not_lt.mpr h)

theorem stagePiece_flash (s : State) : (stagePiece s).1.anchor.flash = memWriteList s.anchor.flash
    (2 ^ 40 * (1 - s.anchor.slot) + s.anchor.stageOff) (memReadList s.anchor.mbdata 0 65536) := by
  simp only [stagePiece, updAnchor_anchor]

theorem stagePiece_copies {j : Nat} (hj : j < 65536) :
    memRead (stagePiece s).1.anchor.flash (2 ^ 40 * (1 - s.anchor.slot) + s.anchor.stageOff + j) = memRead s.anchor.mbdata j := by
  rw [stagePiece_flash]
  exact memRead_copied _ _ _ hj

/-- What the mailbox shows of a command that has started, OP by OP (R432, R433). -/
theorem mbStarted_spec (s : State) (n : Nat) : let a := s.anchor
    let t := mbStarted (mbRun s n) n
    t.anchor.mbbusy = true ∧ t.anchor.mbop = BitVec.ofNat 8 n ∧ t.teams = s.teams ∧ t.mem = s.mem ∧
      (n = 1 → a.state < 4 → t.anchor.mbnext = 1) ∧
      (n = 4 → (memRead a.mbdata 0).toNat < 2 → t.anchor.sel = (memRead a.mbdata 0).toNat ∧ t.anchor.mbnext = 0) ∧
      (n = 4 → 2 ≤ (memRead a.mbdata 0).toNat → t.anchor.sel = a.sel ∧ t.anchor.mbnext = 2) ∧
      (n = 5 → ∀ j, j < 65536 → memRead t.anchor.flash (2 ^ 40 * (1 - a.slot) + a.stageOff + j) = memRead a.mbdata j) := by
  dsimp only
  have hframe := mbRun_frame s n
  refine ⟨rfl, rfl, (congrArg State.teams hframe).trans rfl, (congrArg State.mem hframe).trans rfl, ?_, ?_, ?_, ?_⟩
  · rintro rfl h
    exact attest_early h
  · rintro rfl h
    exact selectSlot_valid h
  · rintro rfl h
    exact ⟨congrArg (fun r => r.1.anchor.sel) (selectSlot_invalid h), congrArg Prod.snd (selectSlot_invalid h)⟩
  · rintro rfl j hj
    have hrun : mbRun s 5 = stagePiece s := rfl
    rw [mbStarted_flash, hrun]
    exact stagePiece_copies hj

theorem exec_mbCommand_starts {i : Instr} (hgo : v.getLsbD 31 = true) (hb : s.anchor.mbbusy = false)
    (hi : (i = .mbAttest 0 v ∧ n = 1) ∨ (i = .mbReadlog 0 v ∧ n = 2) ∨ (i = .mbSelect 0 v ∧ n = 4) ∨ (i = .mbStage 0 v ∧ n = 5))
    (hop : v.extractLsb' 0 8 = BitVec.ofNat 8 n) : exec i s = .next (mbStarted (mbRun s n) n) := by
  rcases hi with ⟨rfl, rfl⟩ | ⟨rfl, rfl⟩ | ⟨rfl, rfl⟩ | ⟨rfl, rfl⟩
  · exact mbOp_starts hgo hb (.inl rfl) hop
  · exact mbOp_starts hgo hb (.inr (.inl rfl)) hop
  · exact mbOp_starts hgo hb (.inr (.inr (.inl rfl))) hop
  · exact mbOp_starts hgo hb (.inr (.inr (.inr rfl))) hop

/-- Device reset and REBOOT start again from the ROM (R428, R433). -/
theorem exec_restarts {i : Instr} (hgo : v.getLsbD 31 = true) (hb : s.anchor.mbbusy = false)
    (hi : i = .deviceReset ∨ (i = .mbReboot 0 v ∧ v.extractLsb' 0 8 = 3)) : ∃ k, exec i s = .next (restart s k) := by
  obtain rfl | ⟨rfl, hop⟩ := hi
  · exact ⟨0, rfl⟩
  · refine ⟨s.anchor.resets, congrArg Host.Outcome.next ((if_pos (congrArg BitVec.toNat hop)).trans ?_)⟩
    simp only [mbcmdWrite, hgo, hb, hop]
    rfl

theorem restart_mem {k x : Nat} (hx : hostBacked x = true) (hm : (x, memRead s.mem x) ∈ s.mem) : (x, memRead s.mem x) ∈ (restart s k).mem :=
  List.mem_filter.2 ⟨hm, hx⟩

theorem mbDone_busy (hb : s.anchor.mbbusy = true) :
    mbDone s = signal (updAnchor s fun a => { a with mbbusy := false, mbres := a.mbnext }) 0 5 := if_pos hb

end

/-- Settles O60: each event of bring-up, of the watchdog and of the mailbox is the equation that its own lemma gives, read field by field. -/
theorem anchorSteps : Obligations.AnchorSteps := by
  refine ⟨fun s p => ⟨fun h hv => ?_, fun h hv => ?_, fun h hv => ?_, fun h hv => ?_, exec_bootReleaseStep_tests, fun r => testItem_regulators,
    fun hst hlt h1 hd => ?_, fun hr hn => ?_, fun hr => ⟨fun h2 => ?_, exec_watchdogExpiry_resets hr⟩⟩,
    fun s v hgo hb => ⟨fun i n hi hop => ?_, fun i hi => ?_, fun u hu => ?_⟩⟩
  · refine ⟨_, congrArg Host.Outcome.next (bootVerify_first h hv), rfl, rfl, rfl, rfl, fun r hr => ?_⟩
    have hregion : getRegion (takeBootSlot s s.anchor.sel) r = getRegion (powerUp s) r := rfl
    rw [hregion, getRegion_powerUp hr]
    exact ⟨rfl, rfl, rfl⟩
  · exact congrArg Host.Outcome.next (bootVerify_first_bad h hv)
  · exact ⟨_, congrArg Host.Outcome.next (bootVerify_second h hv), rfl, rfl, rfl⟩
  · exact ⟨_, congrArg Host.Outcome.next (bootVerify_second_bad h hv), enterSafe_spec s 1⟩
  · exact ⟨_, congrArg Host.Outcome.next (releaseStep_next hst hlt h1 hd), rfl, rfl⟩
  · exact congrArg Host.Outcome.next (beat_notes hr hn)
  · obtain ⟨hsafe, -, -, -, hunit⟩ := enterSafe_spec (updAnchor s fun a => { a with resets := a.resets + 1 }) 7
    exact ⟨_, congrArg Host.Outcome.next (watchdog_third hr h2), hsafe, hunit⟩
  · exact ⟨_, exec_mbCommand_starts hgo hb hi hop, mbStarted_spec s n⟩
  · obtain ⟨k, hex⟩ := exec_restarts hgo hb hi
    exact ⟨_, hex, rfl, rfl, rfl, rfl, rfl, rfl, rfl, rfl, rfl, fun x => restart_mem⟩
  · exact ⟨_, congrArg Host.Outcome.next (mbDone_busy hu), rfl, rfl, rfl⟩

end Sys2Proof.Machine
end

section
/-! SUPPORT. What a word of per-lane results leaves of its group, for either class (R112, R113, R116, R156, R190), and the statement
PredicateResults (R163, R168, R173, R213). -/

namespace Sys2Proof.Machine

/-! ## Words in which every active lane completes -/

/-- The register writes of a word whose active lanes have the results `r`. -/
def laneWrites (c : Ctx) (r : Nat → LaneRes) : List (Tgt × Word) := allWrites ((lanesOf c.active).map fun l => (l, r l))

/-- The flags that its lanes raise. -/
def laneFlags (c : Ctx) (r : Nat → LaneRes) : List (Nat × Flags) := (lanesOf c.active).map fun l => (l, (r l).2)

/-- The group after a word of the short class. -/
def shortGroup (i : Instr) (c : Ctx) (r : Nat → LaneRes) : Group :=
  passOn i c (addFlags (writeRegs c.l.sregs c.g (laneWrites c r)) (orFlags (laneFlags c r))) c.active

/-- The item that a word of the long class leaves outstanding. -/
def longItem (c : Ctx) (r : Nat → LaneRes) : Out :=
  ⟨c.g.nextSeq, c.pc, c.next, c.active, .result (laneWrites c r) ((laneFlags c r).filter fun e => e.2 ≠ 0), (laneWrites c r).map (·.1)⟩

/-- The group after a word of the long class. -/
def longGroup (i : Instr) (c : Ctx) (r : Nat → LaneRes) : Group :=
  passOn i c { c.g with outs := c.g.outs ++ [longItem c r], nextSeq := c.g.nextSeq + 1 } c.active

section
variable {i : Instr} {c : Ctx} {s : State} {r : Nat → LaneRes}

theorem classWord_short (hg : c.g = getGroup s c.gk) (hl : isLong c.g.rat i = false) (hfen : ∀ l ∈ lanesOf c.active, (r l).2 &&& c.g.fen = 0) :
    classWord i c s ((lanesOf c.active).map fun l => (l, r l), []) = setGroup s c.gk (shortGroup i c r) := by
  have harf : arfRaises c.g.fen (fun _ => c.next) (((lanesOf c.active).map fun l => (l, r l)).map fun x => (x.1, x.2.2)) = [] := by
    refine arfRaises_none _ _ _ fun e he => ?_
    simp only [List.map_map, List.mem_map, Function.comp] at he
    obtain ⟨l, hlane, rfl⟩ := he
    exact hfen l hlane
  simp only [classWord, hl, Bool.false_eq_true, if_false, shortWord, updGroup_eq, ← hg, harf, List.append_nil, map_fst_lanes, closeWord_ok]
  simp only [shortGroup, laneWrites, laneFlags, List.map_map, Function.comp_def]

theorem classWord_long (hg : c.g = getGroup s c.gk) (hl : isLong c.g.rat i = true) (hact : c.active ≠ 0) :
    classWord i c s ((lanesOf c.active).map fun l => (l, r l), []) = setGroup s c.gk (longGroup i c r) := by
  have hne : ((lanesOf c.active).map fun l => (l, r l)).isEmpty = false := by
    rw [List.isEmpty_map, List.isEmpty_eq_false_iff]
    exact fun h => hact ((lanesOf_eq_nil _).1 h)
  simp only [classWord, hl, if_true, longWord, hne, Bool.false_eq_true, if_false, updGroup_eq, ← hg, map_fst_lanes, closeWord_ok]
  simp only [longGroup, longItem, pushOut, laneWrites, laneFlags, List.map_map, Function.comp_def]

/-- Passing a word where no marker stands: the word's own marker waits for the outstanding items (R112). -/
theorem passOn_of_unmarked {g : Group} (hm : g.mark = false) (done : Lanes) : passOn i c g done =
    { g with pc := (setPcs g c.lanes c.next).pc, xreg := (postStep i g done).xreg, mark := markOf i && !g.outs.isEmpty } := by
  rw [passOn_frame, hm]
  cases markOf i <;> rfl

theorem passOn_regFrame {g : Group} (hm : c.g.mark = false)
    (hg : g = { c.g with vreg := g.vreg, sreg := g.sreg, pred := g.pred, flg := g.flg, outs := g.outs, swr := g.swr, nextSeq := g.nextSeq }) :
    RegFrame i c c.g (passOn i c g c.active) := by
  have hx : (postStep i g c.active).xreg = (postStep i c.g c.active).xreg := postStep_xreg i c.active (by rw [hg])
  have hmark : g.mark = false := by rw [hg]; exact hm
  rw [RegFrame, passOn_of_unmarked hmark, hx, hg]

theorem shortGroup_regFrame (hm : c.g.mark = false) : RegFrame i c c.g (shortGroup i c r) :=
  passOn_regFrame hm (by rw [writeRegs_frame]; rfl)

theorem shortGroup_goOn : GoOn c c.g (shortGroup i c r) := passOn_goOn i c _ _ _ (by rw [writeRegs_frame]; rfl)

theorem shortGroup_vreg : (shortGroup i c r).vreg = (writeRegs c.l.sregs c.g (laneWrites c r)).vreg := by rw [shortGroup, passOn_frame]; rfl
theorem shortGroup_sreg : (shortGroup i c r).sreg = (writeRegs c.l.sregs c.g (laneWrites c r)).sreg := by rw [shortGroup, passOn_frame]; rfl
theorem shortGroup_pred : (shortGroup i c r).pred = (writeRegs c.l.sregs c.g (laneWrites c r)).pred := by rw [shortGroup, passOn_frame]; rfl

theorem shortGroup_keepsItems : KeepsItems c.g (shortGroup i c r) := by
  rw [shortGroup, passOn_frame]
  exact ⟨by rw [writeRegs_frame]; rfl, writeRegs_items c.l.sregs (laneWrites c r) c.g⟩

theorem shortGroup_flg : (shortGroup i c r).flg = c.g.flg ||| orFlags (laneFlags c r) := by
  rw [shortGroup, passOn_frame, writeRegs_frame]; rfl

/-- FLG accumulates the flags of the lanes (R190). -/
theorem shortGroup_flg_bit (k : Nat) : (shortGroup i c r).flg.getLsbD k = true ↔
    (c.g.flg.getLsbD k = true ∨ ∃ l ∈ lanesOf c.active, (r l).2.getLsbD k = true) := by
  rw [shortGroup_flg, BitVec.getLsbD_or, Bool.or_eq_true, orFlags_bit]
  refine or_congr Iff.rfl ⟨?_, ?_⟩
  · rintro ⟨e, he, hk⟩
    obtain ⟨l, hl, rfl⟩ := List.mem_map.1 he
    exact ⟨l, hl, hk⟩
  · rintro ⟨l, hl, hk⟩
    exact ⟨_, List.mem_map.2 ⟨l, hl, rfl⟩, hk⟩

theorem longGroup_regFrame (hm : c.g.mark = false) : RegFrame i c c.g (longGroup i c r) := passOn_regFrame hm rfl

theorem longGroup_goOn : GoOn c c.g (longGroup i c r) := passOn_goOn i c _ _ _ rfl

theorem longGroup_eq : longGroup i c r = { c.g with
    outs := c.g.outs ++ [longItem c r], nextSeq := c.g.nextSeq + 1, pc := (longGroup i c r).pc, xreg := (longGroup i c r).xreg,
    mark := (longGroup i c r).mark } := by
  rw [longGroup, passOn_frame]

end

/-! ## Predicates after writes -/

theorem pGet_writeReg (sr : Nat) (g : Group) (l n : Nat) (t : Tgt) (w : Word) :
    pGet (writeReg sr g t w) l n = pGet (putReg sr g t w) l n := by simp [pGet]

/-- Writes of other predicates leave a predicate alone, and every write leaves p0 alone (R146). -/
theorem pGet_writeRegs_other (sr : Nat) (ws : List (Tgt × Word)) (g : Group) (l n : Nat) (hn : n < 16)
    (hb : ∀ e ∈ ws, ∀ l' n', e.1 = .p l' n' → n' < 16) (h : ∀ e ∈ ws, ¬ (e.1 = .p l n ∧ n ≠ 0)) :
    pGet (writeRegs sr g ws) l n = pGet g l n := by
  induction ws generalizing g with
  | nil => rfl
  | cons e ws ih =>
    have htail := ih (writeReg sr g e.1 e.2) (fun x hx => hb x (List.mem_cons_of_mem _ hx)) fun x hx => h x (List.mem_cons_of_mem _ hx)
    have hhead : pGet (writeReg sr g e.1 e.2) l n = pGet g l n := by
      rw [pGet_writeReg, pGet_putReg sr g l n e.1 e.2 hn (hb e List.mem_cons_self), if_neg (h e List.mem_cons_self)]
    exact htail.trans hhead

/-- A predicate holds what the writes agree on. -/
theorem pGet_writeRegs_same (sr : Nat) (ws : List (Tgt × Word)) (g : Group) (l n : Nat) (w : Word) (hn : n < 16) (h0 : n ≠ 0)
    (hb : ∀ e ∈ ws, ∀ l' n', e.1 = .p l' n' → n' < 16) (hm : (Tgt.p l n, w) ∈ ws) (hu : ∀ e ∈ ws, e.1 = .p l n → e.2 = w) :
    pGet (writeRegs sr g ws) l n = (w != 0) := by
  induction ws generalizing g with
  | nil => cases hm
  | cons e ws ih =>
    have hb' : ∀ x ∈ ws, ∀ l' n', x.1 = .p l' n' → n' < 16 := fun x hx => hb x (List.mem_cons_of_mem _ hx)
    by_cases hlater : (Tgt.p l n, w) ∈ ws
    · exact ih (writeReg sr g e.1 e.2) hb' hlater fun x hx => hu x (List.mem_cons_of_mem _ hx)
    · obtain rfl : (Tgt.p l n, w) = e := (List.mem_cons.1 hm).resolve_right hlater
      have hno : ∀ x ∈ ws, ¬ (x.1 = .p l n ∧ n ≠ 0) := fun x hx ⟨hxe, _⟩ =>
        hlater (by rw [← hxe, ← hu x (List.mem_cons_of_mem _ hx) hxe]; exact hx)
      have htail := pGet_writeRegs_other sr ws (writeReg sr g (.p l n) w) l n hn hb' hno
      have hhead : pGet (writeReg sr g (.p l n) w) l n = (w != 0) := by
        rw [pGet_writeReg, pGet_putReg sr g l n _ w hn (hb _ List.mem_cons_self), if_pos ⟨rfl, h0⟩]
      exact htail.trans hhead

/-- Writes that name no vector register leave them all alone. -/
theorem writeRegs_vreg_none (sr : Nat) (ws : List (Tgt × Word)) (g : Group) (h : ∀ e ∈ ws, ∀ l n, e.1 ≠ .v l n) :
    (writeRegs sr g ws).vreg = g.vreg := by
  induction ws generalizing g with
  | nil => rfl
  | cons e ws ih =>
    have hhead : (writeReg sr g e.1 e.2).vreg = g.vreg := by
      rw [writeReg_vreg]
      cases he : e.1 with
      | v l n => exact absurd he (h e List.mem_cons_self l n)
      | s n => simp only [putReg]; split <;> rfl
      | p l n => simp only [putReg]; split <;> rfl
    exact (ih (writeReg sr g e.1 e.2) fun x hx => h x (List.mem_cons_of_mem _ hx)).trans hhead

/-- Writes that name no uniform register leave them all alone. -/
theorem writeRegs_sreg_none (sr : Nat) (ws : List (Tgt × Word)) (g : Group) (h : ∀ e ∈ ws, ∀ n, e.1 ≠ .s n) :
    (writeRegs sr g ws).sreg = g.sreg := by
  induction ws generalizing g with
  | nil => rfl
  | cons e ws ih =>
    have hhead : (writeReg sr g e.1 e.2).sreg = g.sreg := by
      rw [writeReg_sreg]
      cases he : e.1 with
      | v l n => rfl
      | s n => exact absurd he (h e List.mem_cons_self n)
      | p l n => simp only [putReg]; split <;> rfl
    exact (ih (writeReg sr g e.1 e.2) fun x hx => h x (List.mem_cons_of_mem _ hx)).trans hhead

/-! ## Words that write one predicate in each active lane -/

/-- A lane's predicate as the word that is written. -/
def predBit (x : Bool) : Word := if x then 1 else 0

theorem predBit_ne_zero (x : Bool) : (predBit x != 0) = x := by cases x <;> rfl

/-- The result of a lane with the predicate value `v`. -/
def predValue (l dest : Nat) (v : Option (Bool × Flags)) : LaneRes :=
  match v with
  | some (x, fl) => ([(.p l dest, predBit x)], fl)
  | none => ([], 0)

theorem mem_predWrites {c : Ctx} {dest : Nat} {v : Nat → Option (Bool × Flags)} {e : Tgt × Word} :
    e ∈ laneWrites c (fun l => predValue l dest (v l)) ↔
      ∃ l x fl, l ∈ lanesOf c.active ∧ v l = some (x, fl) ∧ e = (Tgt.p l dest, predBit x) := by
  rw [laneWrites, mem_allWrites_map]
  constructor
  · rintro ⟨l, hl, he, -⟩
    cases hv : v l with
    | none => rw [hv] at he; cases he
    | some y => rw [hv] at he; exact ⟨l, y.1, y.2, hl, hv, List.mem_singleton.1 he⟩
  · rintro ⟨l, x, fl, hl, hv, rfl⟩
    exact ⟨l, hl, by simp [hv, predValue], fun hu => by cases hu⟩

/-- A lane raises a flag exactly when its value comes with it. -/
theorem predValue_flag {l dest : Nat} {v : Option (Bool × Flags)} {k : Nat} :
    (predValue l dest v).2.getLsbD k = true ↔ ∃ x fl, v = some (x, fl) ∧ fl.getLsbD k = true := by
  cases v with
  | none => simp [predValue]
  | some y =>
    constructor
    · exact fun hk => ⟨y.1, y.2, rfl, hk⟩
    · rintro ⟨x, fl, hy, hk⟩
      cases hy
      exact hk

section
variable {i : Instr} {dest : Nat} {ok : Group → Bool} {val : State → Ctx → Nat → Option (Bool × Flags)}

/-- A word of per-lane predicates does what `WritesPreds` says, when its lanes compute `val`. -/
theorem laneWord_writesPreds (f : Ctx → Nat → Except Nat LaneRes) (hd : dest < 16)
    (hx : ∀ s u, Acts s u i → ok (getGroup s u.gkey) = true →
      exec i s = .next (classWord i (ctxOf s u i) s (evalLanes (ctxOf s u i) (f (ctxOf s u i)))))
    (hf : ∀ s c l x fl, val s c l = some (x, fl) → f c l = .ok (predValue l dest (some (x, fl)))) :
    WritesPreds i ⟨dest, ok, val⟩ := by
  intro s u ha hl hok hv
  dsimp only at hok hv ⊢
  let c := ctxOf s u i
  let r : Nat → LaneRes := fun l => predValue l dest (val s c l)
  have hlane : ∀ l ∈ lanesOf c.active, f c l = .ok (r l) ∧ (r l).2 &&& c.g.fen = 0 := by
    intro l hm
    obtain ⟨x, fl, hval, hfen⟩ := hv l hm
    have hr : r l = predValue l dest (some (x, fl)) := congrArg (predValue l dest) hval
    rw [hr]
    exact ⟨hf s c l x fl hval, hfen⟩
  have hws : ∀ {e}, e ∈ laneWrites c r ↔ ∃ l x fl, l ∈ lanesOf c.active ∧ val s c l = some (x, fl) ∧ e = (Tgt.p l dest, predBit x) := mem_predWrites
  have hb : ∀ e ∈ laneWrites c r, ∀ l' n', e.1 = .p l' n' → n' < 16 := by
    rintro e he l' n' hen
    obtain ⟨l, x, fl, -, -, rfl⟩ := hws.1 he
    cases hen
    exact hd
  have hp : ∀ l n, pGet (shortGroup i c r) l n = pGet (writeRegs c.l.sregs c.g (laneWrites c r)) l n := fun l n => by
    simp only [pGet, shortGroup_pred]
  refine ⟨shortGroup i c r, ?_, shortGroup_regFrame (acts_mark ha), ?_, ?_, shortGroup_goOn, shortGroup_keepsItems, ?_, ?_, fun k => ?_⟩
  · rw [hx s u ha hok, evalLanes_ok _ _ r fun l hm => (hlane l hm).1, classWord_short rfl hl fun l hm => (hlane l hm).2]
    rfl
  · refine shortGroup_vreg.trans (writeRegs_vreg_none _ _ _ fun e he l n hen => ?_)
    obtain ⟨_, _, _, -, -, rfl⟩ := hws.1 he
    cases hen
  · refine shortGroup_sreg.trans (writeRegs_sreg_none _ _ _ fun e he n hen => ?_)
    obtain ⟨_, _, _, -, -, rfl⟩ := hws.1 he
    cases hen
  · intro l hm x fl hval h0
    rw [hp, pGet_writeRegs_same _ _ _ l dest (predBit x) hd h0 hb (hws.2 ⟨l, x, fl, hm, hval, rfl⟩), predBit_ne_zero]
    intro e he hen
    obtain ⟨l', x', fl', -, hval', rfl⟩ := hws.1 he
    cases hen
    cases hval.symm.trans hval'
    rfl
  · intro l n _ hn hnot
    rw [hp, pGet_writeRegs_other _ _ _ l n hn hb]
    · rfl
    · rintro e he ⟨hen, h0⟩
      obtain ⟨l', x, fl, hm, -, rfl⟩ := hws.1 he
      cases hen
      exact hnot ⟨hm, rfl, h0⟩
  · rw [shortGroup_flg_bit]
    refine or_congr Iff.rfl ?_
    simp only [r, predValue_flag]
    exact ⟨fun ⟨l, hm, x, fl, h⟩ => ⟨l, x, fl, hm, h⟩, fun ⟨l, x, fl, hm, h⟩ => ⟨l, hm, x, fl, h⟩⟩

/-- The same word, of the long class, does what `QueuesPreds` says. -/
theorem laneWord_queuesPreds (f : Ctx → Nat → Except Nat LaneRes)
    (hx : ∀ s u, Acts s u i → ok (getGroup s u.gkey) = true →
      exec i s = .next (classWord i (ctxOf s u i) s (evalLanes (ctxOf s u i) (f (ctxOf s u i)))))
    (hf : ∀ s c l x fl, val s c l = some (x, fl) → f c l = .ok (predValue l dest (some (x, fl)))) :
    QueuesPreds i ⟨dest, ok, val⟩ := by
  intro s u ha hl hok hact hv
  dsimp only at hok hv ⊢
  let c := ctxOf s u i
  let r : Nat → LaneRes := fun l => predValue l dest (val s c l)
  have hlane : ∀ l ∈ lanesOf c.active, f c l = .ok (r l) := by
    intro l hm
    obtain ⟨x, fl, hval⟩ := hv l hm
    exact (hf s c l x fl hval).trans (congrArg (fun v => Except.ok (predValue l dest v)) hval.symm)
  have heq := longGroup_eq (i := i) (c := c) (r := r)
  refine ⟨longGroup i c r, longItem c r, ?_, longGroup_regFrame (acts_mark ha), longGroup_goOn, ?_, ?_, ?_, ?_, ?_, rfl, ?_, rfl,
    laneWrites c r, (laneFlags c r).filter fun e => e.2 ≠ 0, rfl, rfl, fun e => mem_predWrites, fun e => ?_⟩
  · rw [hx s u ha hok, evalLanes_ok _ _ r hlane, classWord_long rfl hl hact]
    rfl
  · rw [heq]; rfl
  · rw [heq]; rfl
  · rw [heq]; rfl
  · rw [heq]; rfl
  · rw [heq]; rfl
  · rw [heq]; rfl
  · simp only [laneFlags, List.mem_filter, List.mem_map, decide_eq_true_eq]
    constructor
    · rintro ⟨⟨l, hm, rfl⟩, hne⟩
      obtain ⟨x, fl, hval⟩ := hv l hm
      have hr : (r l).2 = fl := congrArg (fun v => (predValue l dest v).2) hval
      rw [hr] at hne ⊢
      exact ⟨l, x, fl, hm, hval, hne, rfl⟩
    · rintro ⟨l, x, fl, hm, hval, hne, rfl⟩
      have hr : (r l).2 = fl := congrArg (fun v => (predValue l dest v).2) hval
      exact ⟨⟨l, hm, by rw [hr]⟩, hne⟩

/-- A word of per-lane predicates does what both statements about predicate words say, whichever class it has. -/
theorem laneWord_preds (f : Ctx → Nat → Except Nat LaneRes) (hd : dest < 16)
    (hx : ∀ s u, Acts s u i → ok (getGroup s u.gkey) = true →
      exec i s = .next (classWord i (ctxOf s u i) s (evalLanes (ctxOf s u i) (f (ctxOf s u i)))))
    (hf : ∀ s c l x fl, val s c l = some (x, fl) → f c l = .ok (predValue l dest (some (x, fl)))) :
    WritesPreds i ⟨dest, ok, val⟩ ∧ QueuesPreds i ⟨dest, ok, val⟩ :=
  ⟨laneWord_writesPreds f hd hx hf, laneWord_queuesPreds f hx hf⟩

end

/-- A floating-point word in a mode that it accepts evaluates its lanes (R209, R216, R218). -/
theorem floatWord_acts {s : State} {u : Issue} {i : Instr} {ty : FTy} {rnd : Rnd} {noQ : Bool} (f : Ctx → Nat → Except Nat LaneRes)
    (ha : Acts s u i) (hm : floatMode ty rnd noQ (getGroup s u.gkey) = true) :
    floatWord i ty rnd noQ s f = .next (classWord i (ctxOf s u i) s (evalLanes (ctxOf s u i) (f (ctxOf s u i)))) := by
  simp only [floatMode, Bool.and_eq_true, Bool.not_eq_true'] at hm
  obtain ⟨hrm, hq⟩ := hm
  rw [floatWord, issueWord_acts _ ha]
  exact congrArg Host.Outcome.next ((if_neg (by rw [Bool.not_eq_true]; exact hrm)).trans (if_neg (by rw [Bool.not_eq_true]; exact hq)))

theorem fOpnd_of_fVal {c : Ctx} {l x : Nat} {ty : FTy} {a : Spec} (h : fVal c l ty a = some x) : fOpnd c l ty a = .ok x := by
  unfold fVal at h
  cases hr : fOpnd c l ty a with
  | ok y => rw [hr] at h; cases h; rfl
  | error k => rw [hr] at h; cases h

/-! ## The statement -/

/-- What ICMP computes for a lane (R163). -/
def icmpLane (c : Ctx) (l : Nat) (cmp : Cmp) (ty : IntTy) (pd : BitVec 4) (a b : Spec) : Except Nat LaneRes := do
  let x ← readOp c l (iTy ty) a
  let y ← readOp c l (iTy ty) b
  return predRes l pd (cmpInt cmp (readInt ty x) (readInt ty y))

theorem icmp_preds (h : Hdr) (cmp : Cmp) (ty : IntTy) (pd : BitVec 4) (a b : Spec) {op : PredOp} (ho : predOp (.icmp h cmp ty pd a b) = some op) :
    WritesPreds (.icmp h cmp ty pd a b) op ∧ QueuesPreds (.icmp h cmp ty pd a b) op := by
  cases ho
  refine laneWord_preds (fun c l => icmpLane c l cmp ty pd a b) pd.isLt (fun s u ha _ => (exec_icmp s h cmp ty pd a b).trans (laneWord_acts _ ha)) fun s c l x fl hv => ?_
  obtain ⟨xa, hxa, hv⟩ := Option.bind_eq_some_iff.1 hv
  obtain ⟨xb, hxb, hv⟩ := Option.map_eq_some_iff.1 hv
  cases hv
  simp only [icmpLane, readOp_of_opVal hxa, readOp_of_opVal hxb]
  rfl

/-- What FCMP computes for a lane (R213). -/
def fcmpLane (c : Ctx) (l : Nat) (cmp : Cmp) (ty : FTy) (un : Bool) (pd : BitVec 4) (a b : Spec) : Except Nat LaneRes := do
  let x ← fOpnd c l ty a
  let y ← fOpnd c l ty b
  let r := fcmpVal cmp un (tyVal (fAct c ty) x) (tyVal (fAct c ty) y)
  return ((predRes l pd r.1).1, r.2)

theorem fcmp_preds (h : Hdr) (cmp : Cmp) (ty : FTy) (un : Bool) (pd : BitVec 4) (a b : Spec) {op : PredOp}
    (ho : predOp (.fcmp h cmp ty un pd a b) = some op) :
    WritesPreds (.fcmp h cmp ty un pd a b) op ∧ QueuesPreds (.fcmp h cmp ty un pd a b) op := by
  cases ho
  refine laneWord_preds (fun c l => fcmpLane c l cmp ty un pd a b) pd.isLt
    (fun s u ha hm => (exec_fcmp s h cmp ty un pd a b).trans (floatWord_acts _ ha hm)) fun s c l x fl hv => ?_
  obtain ⟨xa, hxa, hv⟩ := Option.bind_eq_some_iff.1 hv
  obtain ⟨xb, hxb, hv⟩ := Option.map_eq_some_iff.1 hv
  simp only [fcmpLane, fOpnd_of_fVal hxa, fOpnd_of_fVal hxb]
  rw [← hv]
  rfl

/-- A word whose lanes always have a predicate and raise no flag. -/
theorem laneWord_plainPreds {i : Instr} {dest : Nat} {val : State → Ctx → Nat → Option (Bool × Flags)} (p : Ctx → Nat → Bool) (hd : dest < 16)
    (hval : val = fun _ c l => some (p c l, 0)) (hx : ∀ s, exec i s = laneWord i s fun c l => .ok (predValue l dest (some (p c l, 0)))) :
    WritesPreds i ⟨dest, anyMode, val⟩ ∧ QueuesPreds i ⟨dest, anyMode, val⟩ := by
  subst hval
  refine laneWord_preds (fun c l => .ok (predValue l dest (some (p c l, 0)))) hd (fun s u ha _ => ?_) fun s c l x fl hv => ?_
  · rw [hx s, laneWord_acts _ ha]
  · cases hv
    rfl

theorem vote_preds (h : Hdr) (mode : VoteMode) (d : Spec) (pa : BitVec 4) {op : PredOp} (ho : predOp (.vote h mode d pa) = some op) :
    WritesPreds (.vote h mode d pa) op ∧ QueuesPreds (.vote h mode d pa) op := by
  cases mode with
  | ballot => cases ho
  | any => cases ho; exact laneWord_plainPreds _ (voteDest d).isLt rfl fun s => exec_vote s h _ d pa
  | all => cases ho; exact laneWord_plainPreds _ (voteDest d).isLt rfl fun s => exec_vote s h _ d pa

/-- Settles O18: the lanes of each word evaluate to the predicate that `predOp` gives, and a word of such lanes writes or queues its predicates. -/
theorem predicateResults : Obligations.PredicateResults := by
  intro i op ho
  cases i with
  | icmp h cmp ty pd a b => exact icmp_preds h cmp ty pd a b ho
  | fcmp h cmp ty un pd a b => exact fcmp_preds h cmp ty un pd a b ho
  | pand h na nb pd pa pb => cases ho; exact laneWord_plainPreds _ pd.isLt rfl fun s => exec_pand s h na nb pd pa pb
  | por h na nb pd pa pb => cases ho; exact laneWord_plainPreds _ pd.isLt rfl fun s => exec_por s h na nb pd pa pb
  | pxor h na nb pd pa pb => cases ho; exact laneWord_plainPreds _ pd.isLt rfl fun s => exec_pxor s h na nb pd pa pb
  | pnot h pd pa => cases ho; exact laneWord_plainPreds _ pd.isLt rfl fun s => exec_pnot s h pd pa
  | pmov h pd pa => cases ho; exact laneWord_plainPreds _ pd.isLt rfl fun s => exec_pmov s h pd pa
  | vote h mode d pa => exact vote_preds h mode d pa ho
  | _ => cases ho

end Sys2Proof.Machine
end

section
/-! SUPPORT. Index registers after writes and post-steps (R99, R100, R147), MOVI with the high bit (R167), and the statement IndexWords. -/

namespace Sys2Proof.Machine

/-! ## Index registers -/

/-- Writing index register `i` of the listed lanes, each with its own value (R169). -/
def xPuts (g : Group) (i : Nat) (ls : List Nat) (w : Nat → Word) : Group := ls.foldl (fun g l => xPut g l i (w l)) g

theorem xGet_xPut (g : Group) (l l' i i' : Nat) (x : Word) (hi : i < 8) (hi' : i' < 8) :
    xGet (xPut g l' i' x) l i = if l = l' ∧ i = i' then x &&& 0x3FFFFFFF#32 else xGet g l i := by
  simp only [xGet, xPut, tabGet_tabPut]
  by_cases h : l = l' ∧ i = i'
  · rw [if_pos h, if_pos (by omega)]
  · rw [if_neg h, if_neg (by omega)]

theorem xGet_xPuts (ls : List Nat) (g : Group) (l i i' : Nat) (w : Nat → Word) (hi : i < 8) (hi' : i' < 8) :
    xGet (xPuts g i' ls w) l i = if l ∈ ls ∧ i = i' then w l &&& 0x3FFFFFFF#32 else xGet g l i := by
  induction ls generalizing g with
  | nil => simp [xPuts]
  | cons a ls ih =>
    have htail : xGet (xPuts g i' (a :: ls) w) l i = _ := ih (xPut g a i' (w a))
    rw [htail, xGet_xPut _ _ _ _ _ _ hi hi']
    by_cases hmem : l ∈ ls ∧ i = i'
    · simp [hmem]
    · by_cases heq : l = a ∧ i = i'
      · obtain ⟨rfl, rfl⟩ := heq
        simp
      · rw [if_neg hmem, if_neg heq, if_neg]
        rintro ⟨hl, rfl⟩
        rcases List.mem_cons.1 hl with rfl | hl
        · exact heq ⟨rfl, rfl⟩
        · exact hmem ⟨hl, rfl⟩

theorem xPuts_frame (ls : List Nat) (g : Group) (i : Nat) (w : Nat → Word) : xPuts g i ls w = { g with xreg := (xPuts g i ls w).xreg } := by
  induction ls generalizing g with
  | nil => rfl
  | cons a ls ih => exact ih (xPut g a i (w a))

theorem xGet_stepIndex (g : Group) (l l' i i' : Nat) (hi : i < 8) (hi' : i' < 8) :
    xGet (stepIndex g l' i') l i =
      if l = l' ∧ i = i' then moveCursor (xGet g l i) ((xGet g l i).extractLsb' 24 4).toInt else xGet g l i := by
  simp only [stepIndex, xGet, tabGet_tabPut]
  by_cases h : l = l' ∧ i = i'
  · obtain ⟨rfl, rfl⟩ := h
    simp
  · rw [if_neg h, if_neg (by omega)]

/-- The post-steps of a register depend on that register alone. -/
theorem xGet_postStep_congr (i : Instr) {g g0 : Group} (m : Lanes) (l k : Nat) (hk : k < 8) (h : xGet g l k = xGet g0 l k) :
    xGet (postStep i g m) l k = xGet (postStep i g0 m) l k := by
  refine List.foldl_rel (r := fun a b => xGet a l k = xGet b l k) h fun l' _ a b hab => ?_
  refine List.foldl_rel (r := fun a b => xGet a l k = xGet b l k) hab fun r _ a b hab => ?_
  rw [xGet_stepIndex _ _ _ _ _ hk r.isLt, xGet_stepIndex _ _ _ _ _ hk r.isLt, hab]

/-- The register that a word writes takes no post-step of it (R100). -/
theorem xGet_postStep_dest {i : Instr} {xd : BitVec 3} (hd : xDest i = some xd) (g : Group) (m : Lanes) (l : Nat) :
    xGet (postStep i g m) l xd.toNat = xGet g l xd.toNat := by
  refine List.foldlRecOn (motive := fun a => xGet a l xd.toNat = xGet g l xd.toNat) _ _ rfl fun a ha l' _ => ?_
  refine List.foldlRecOn (motive := fun a => xGet a l xd.toNat = xGet g l xd.toNat) _ _ ha fun b hb r hr => ?_
  have hne : r ≠ xd := by
    rintro rfl
    simp [hd] at hr
  rw [xGet_stepIndex _ _ _ _ _ xd.isLt r.isLt, if_neg, hb]
  rintro ⟨-, heq⟩
  exact hne (BitVec.eq_of_toNat_eq heq).symm

/-! ## Words that write an index register -/

/-- A fold in which every lane completes lists the lanes' values in order and raises nothing. -/
theorem foldl_completes {α : Type} (F : List (Nat × α) × List Raise → Nat → List (Nat × α) × List Raise) (w : Nat → α) (ls : List Nat)
    (hF : ∀ l ∈ ls, ∀ a, F a l = (a.1 ++ [(l, w l)], a.2)) (a : List (Nat × α) × List Raise) :
    ls.foldl F a = (a.1 ++ ls.map fun l => (l, w l), a.2) := by
  induction ls generalizing a with
  | nil => simp
  | cons x xs ih =>
    rw [List.foldl_cons, hF x List.mem_cons_self, ih fun l hl => hF l (List.mem_cons_of_mem _ hl)]
    simp

/-- The group after a word that writes index register `xd` in its active lanes. -/
def indexGroup (i : Instr) (c : Ctx) (xd : BitVec 3) (w : Nat → Word) : Group :=
  passOn i c (xPuts c.g xd.toNat (lanesOf c.active) w) c.active

theorem indexGroup_frame {i : Instr} {c : Ctx} {xd : BitVec 3} {w : Nat → Word} (hm : c.g.mark = false) : indexGroup i c xd w =
    { c.g with pc := (indexGroup i c xd w).pc, xreg := (indexGroup i c xd w).xreg, mark := markOf i && !(indexGroup i c xd w).outs.isEmpty } := by
  rw [indexGroup, passOn_of_unmarked (by rw [xPuts_frame]; exact hm), xPuts_frame]

theorem indexWord_acts {s : State} {u : Issue} {i : Instr} {xd : BitVec 3} {f : Ctx → Nat → Except Nat Word} {w : Nat → Word} (ha : Acts s u i)
    (hw : ∀ l ∈ lanesOf (ctxOf s u i).active, f (ctxOf s u i) l = .ok (w l)) :
    indexWord i s xd f = .next (setGroup s u.gkey (indexGroup i (ctxOf s u i) xd w)) := by
  let c := ctxOf s u i
  have hput : ((lanesOf c.active).map fun l => (l, w l)).foldl (fun g e => xPut g e.1 xd.toNat e.2) c.g = xPuts c.g xd.toNat (lanesOf c.active) w :=
    List.foldl_map
  have hmask : lanesMask (((lanesOf c.active).map fun l => (l, w l)).map (·.1)) = c.active := by
    rw [List.map_map]
    exact (congrArg lanesMask (List.map_id _)).trans (lanesMask_lanesOf _)
  rw [indexWord, issueWord_acts _ ha, foldl_completes _ w _ fun l hl a => by rw [hw l hl]]
  dsimp only
  rw [List.nil_append, hmask, updGroup_eq]
  exact congrArg Host.Outcome.next ((congrArg (fun g => closeWord i c (setGroup s c.gk g) c.active [] []) hput).trans (closeWord_ok i c s _ c.active))

/-- Such a word does what `WritesIndex` says, when its lanes compute `val`. -/
theorem indexWord_writes {i : Instr} {xd : BitVec 3} {val : Ctx → Nat → Option Word} (f : Ctx → Nat → Except Nat Word)
    (hd : xDest i = some xd) (hx : ∀ s, exec i s = indexWord i s xd f) (hf : ∀ c l x, val c l = some x → f c l = .ok x) :
    WritesIndex i xd val := by
  intro s u ha hv
  let c := ctxOf s u i
  let w : Nat → Word := fun l => (val c l).getD 0
  let g' := indexGroup i c xd w
  have hmark : c.g.mark = false := acts_mark ha
  have hxreg : ∀ l k, xGet g' l k = xGet (postStep i (xPuts c.g xd.toNat (lanesOf c.active) w) c.active) l k := fun l k => by
    simp only [g', indexGroup, passOn_frame]; rfl
  refine ⟨g', ?_, ?_, passOn_goOn i c _ _ _ (by rw [xPuts_frame]; rfl), fun l hl x hval => ?_, fun l k _ hk hnot => ?_⟩
  · rw [hx s]
    refine indexWord_acts ha fun l hl => hf c l _ ?_
    obtain ⟨x, hval⟩ := Option.isSome_iff_exists.1 (hv l hl)
    simp only [w, c, hval, Option.getD_some]
  · exact indexGroup_frame hmark
  · have hw : w l = x := by simp only [w, c, hval, Option.getD_some]
    rw [hxreg, xGet_postStep_dest hd, xGet_xPuts _ _ _ _ _ _ xd.isLt xd.isLt, if_pos ⟨hl, rfl⟩, hw]
  · rw [hxreg]
    refine xGet_postStep_congr i _ l k hk ?_
    exact (xGet_xPuts _ _ _ _ _ _ hk xd.isLt).trans (if_neg hnot)

theorem xset_writes (h : Hdr) (xd : BitVec 3) (a : Spec) :
    WritesIndex (.xset h xd a) xd fun c l => (opVal c l .i32 a).map fun x => BitVec.ofNat 32 x := by
  refine indexWord_writes (fun c l => (readOp c l .i32 a).map fun x => BitVec.ofNat 32 x) rfl (fun s => exec_xset s h xd a) fun c l x hv => ?_
  obtain ⟨y, hy, rfl⟩ := Option.map_eq_some_iff.1 hv
  rw [readOp_of_opVal hy]
  rfl

theorem xstep_writes (h : Hdr) (xd : BitVec 3) (a : Spec) :
    WritesIndex (.xstep h xd a) xd fun c l => (opVal c l .i32 a).map fun x => moveCursor (xGet c.g l xd.toNat) (toSigned 32 x) := by
  refine indexWord_writes (fun c l => (readOp c l .i32 a).map fun x => moveCursor (xGet c.g l xd.toNat) (toSigned 32 x)) rfl
    (fun s => exec_xstep s h xd a) fun c l x hv => ?_
  obtain ⟨y, hy, rfl⟩ := Option.map_eq_some_iff.1 hv
  rw [readOp_of_opVal hy]
  rfl

theorem xmov_writes (h : Hdr) (xd xa : BitVec 3) : WritesIndex (.xmov h xd xa) xd fun c l => some (xGet c.g l xa.toNat) := by
  refine indexWord_writes (fun c l => .ok (xGet c.g l xa.toNat)) rfl (fun s => exec_xmov s h xd xa) fun c l x hv => ?_
  cases hv
  rfl

/-! ## MOVI with the high bit, R167 -/

/-- Only the upper register of the destination pair is written. -/
def hiResult (c : Ctx) (d : Spec) (v : Word) (l : Nat) : LaneRes := ((valWrites c l true d (v.toNat * 2 ^ 32)).drop 1, 0)

theorem mem_hiResult {c : Ctx} {d : Spec} {v : Word} {l : Nat} {e : Tgt × Word} :
    e ∈ (hiResult c d v l).1 ↔
      (∃ r, destReg c l true d = some r ∧ e = (.v l (r + 1), v)) ∨ ∃ n : BitVec 8, d = .s n ∧ e = (.s (n.toNat + 1), v) := by
  cases d with
  | s n => simp [hiResult, valWrites, destReg, vecReg]
  | v n => cases h : destReg c l true (.v n) <;> simp [hiResult, valWrites, h]
  | x p i k => cases h : destReg c l true (.x p i k) <;> simp [hiResult, valWrites, h]
  | imm n => simp [hiResult, valWrites, destReg, vecReg]
  | con n => simp [hiResult, valWrites, destReg, vecReg]

/-- What the word writes in all: the upper registers of its lanes, or the upper uniform register once a lane is active. -/
theorem mem_hiWrites {c : Ctx} {d : Spec} {v : Word} {e : Tgt × Word} :
    e ∈ laneWrites c (hiResult c d v) ↔
      (∃ l r, l ∈ lanesOf c.active ∧ destReg c l true d = some r ∧ e = (.v l (r + 1), v)) ∨
      ∃ n : BitVec 8, d = .s n ∧ c.active ≠ 0 ∧ e = (.s (n.toNat + 1), v) := by
  simp only [laneWrites, mem_allWrites_map, mem_hiResult]
  constructor
  · rintro ⟨l, hl, ⟨r, hr, rfl⟩ | ⟨n, hn, rfl⟩, -⟩
    · exact .inl ⟨l, r, hl, hr, rfl⟩
    · refine .inr ⟨n, hn, fun h0 => ?_, rfl⟩
      rw [h0, (lanesOf_eq_nil 0).2 rfl] at hl
      cases hl
  · rintro (⟨l, r, hl, hr, rfl⟩ | ⟨n, hn, hact, rfl⟩)
    · exact ⟨l, hl, .inl ⟨r, hr, rfl⟩, fun hu => by cases hu⟩
    · obtain ⟨l, hl⟩ := List.exists_mem_of_ne_nil _ fun h => hact ((lanesOf_eq_nil _).1 h)
      obtain ⟨a, t, hat⟩ := List.exists_cons_of_ne_nil (List.ne_nil_of_mem hl)
      exact ⟨a, by rw [hat]; exact List.mem_cons_self, .inr ⟨n, hn, rfl⟩, fun _ => by rw [hat]; rfl⟩

theorem hiWrites_val {c : Ctx} {d : Spec} {v : Word} {e : Tgt × Word} (he : e ∈ laneWrites c (hiResult c d v)) : e.2 = v := by
  rcases mem_hiWrites.1 he with ⟨_, _, -, -, rfl⟩ | ⟨_, -, -, rfl⟩ <;> rfl

theorem hiWrites_v {c : Ctx} {d : Spec} {v : Word} {e : Tgt × Word} (he : e ∈ laneWrites c (hiResult c d v)) {l n : Nat} (hen : e.1 = .v l n) :
    l ∈ lanesOf c.active ∧ ∃ r, destReg c l true d = some r ∧ n = r + 1 := by
  rcases mem_hiWrites.1 he with ⟨l', r, hl, hr, rfl⟩ | ⟨_, -, -, rfl⟩
  · cases hen
    exact ⟨hl, r, hr, rfl⟩
  · cases hen

theorem hiWrites_s {c : Ctx} {d : Spec} {v : Word} {e : Tgt × Word} (he : e ∈ laneWrites c (hiResult c d v)) {n : Nat} (hen : e.1 = .s n) :
    ∃ k : BitVec 8, d = .s k ∧ n = k.toNat + 1 := by
  rcases mem_hiWrites.1 he with ⟨_, _, -, -, rfl⟩ | ⟨k, hk, -, rfl⟩
  · cases hen
  · cases hen
    exact ⟨k, hk, rfl⟩

theorem hiWrites_p {c : Ctx} {d : Spec} {v : Word} {e : Tgt × Word} (he : e ∈ laneWrites c (hiResult c d v)) (l n : Nat) : e.1 ≠ .p l n := by
  rcases mem_hiWrites.1 he with ⟨_, _, -, -, rfl⟩ | ⟨_, -, -, rfl⟩ <;> exact Tgt.noConfusion

theorem orFlags_zero {fs : List (Nat × Flags)} (h : ∀ e ∈ fs, e.2 = 0) : orFlags fs = 0 := by
  refine BitVec.eq_of_getLsbD_eq fun k _ => Bool.eq_iff_iff.2 ?_
  rw [orFlags_bit]
  exact ⟨fun ⟨e, he, hk⟩ => by rwa [h e he] at hk, fun hk => by simp at hk⟩

section
variable {i : Instr} {c : Ctx} {d : Spec} {v : Word}

theorem hiWrites_lt (he : EvenPair true d) : ∀ e ∈ laneWrites c (hiResult c d v), ∀ l n, e.1 = .v l n → n < 256 := by
  rintro e hm l n hen
  obtain ⟨-, r, hr, rfl⟩ := hiWrites_v hm hen
  exact (destReg_lt he hr).2 rfl

theorem hiGroup_vGet (he : EvenPair true d) {l r : Nat} (hl : l ∈ lanesOf c.active) (hr : destReg c l true d = some r) :
    vGet (shortGroup i c (hiResult c d v)) l (r + 1) = v := by
  rw [vGet, shortGroup_vreg]
  exact vGet_writeRegs_same _ _ _ l (r + 1) v ((destReg_lt he hr).2 rfl) (hiWrites_lt he) (mem_hiWrites.2 (.inl ⟨l, r, hl, hr, rfl⟩)) fun e hm _ => hiWrites_val hm

theorem hiGroup_vGet_other (he : EvenPair true d) {l n : Nat} (hn : n < 256)
    (hnot : ¬ (l ∈ lanesOf c.active ∧ ∃ r, destReg c l true d = some r ∧ n = r + 1)) :
    vGet (shortGroup i c (hiResult c d v)) l n = vGet c.g l n := by
  rw [vGet, shortGroup_vreg]
  exact vGet_writeRegs_other _ _ _ l n hn (hiWrites_lt he) fun e hm hen => hnot (hiWrites_v hm hen)

/-- A uniform register that the allocation does not cover discards the write and reads as zero (R146). -/
theorem hiGroup_sGet {n : BitVec 8} (hd : d = .s n) (hact : c.active ≠ 0) :
    sGet c.l.sregs (shortGroup i c (hiResult c d v)) (n.toNat + 1) = if n.toNat + 1 < c.l.sregs then v else 0 := by
  rw [sGet]
  refine ite_congr rfl (fun hlt => ?_) fun _ => rfl
  have hfind := sreg_writeRegs_same c.l.sregs _ c.g _ v hlt (mem_hiWrites.2 (.inr ⟨n, hd, hact, rfl⟩)) fun e hm _ => hiWrites_val hm
  rw [tabGet, shortGroup_sreg, hfind, Option.getD_some]

theorem hiGroup_sreg_other {n : Nat} (hnot : ∀ k : BitVec 8, d = .s k → n ≠ k.toNat + 1) :
    tabFind (shortGroup i c (hiResult c d v)).sreg n = tabFind c.g.sreg n := by
  rw [shortGroup_sreg]
  refine sreg_writeRegs_other _ _ _ n fun e hm hen => ?_
  obtain ⟨k, hk, hn⟩ := hiWrites_s hm hen
  exact hnot k hk hn

theorem hiGroup_pred : (shortGroup i c (hiResult c d v)).pred = c.g.pred :=
  shortGroup_pred.trans (writeRegs_pred_none _ _ _ fun _ hm => hiWrites_p hm)

theorem hiGroup_flg : (shortGroup i c (hiResult c d v)).flg = c.g.flg := by
  have hzero : orFlags (laneFlags c (hiResult c d v)) = 0 := orFlags_zero fun e hm => by
    obtain ⟨l, -, rfl⟩ := List.mem_map.1 hm
    rfl
  rw [shortGroup_flg, hzero]
  exact BitVec.or_zero

end

theorem exec_moviHi_acts {s : State} {u : Issue} {h : Hdr} {d : Spec} {v : Word} (ha : Acts s u (.moviHi h d v))
    (hw : ∀ l, OnLane s u (.moviHi h d v) l → CanWrite (ctxOf s u (.moviHi h d v)) l true d) :
    exec (.moviHi h d v) s =
      .next (setGroup s u.gkey (shortGroup (.moviHi h d v) (ctxOf s u (.moviHi h d v)) (hiResult (ctxOf s u (.moviHi h d v)) d v))) := by
  have hlane : ∀ l ∈ lanesOf (ctxOf s u (.moviHi h d v)).active,
      (do let ws ← writesTo (ctxOf s u (.moviHi h d v)) l true d (v.toNat * 2 ^ 32); return (ws.drop 1, 0) : Except Nat LaneRes) =
        .ok (hiResult (ctxOf s u (.moviHi h d v)) d v l) := fun l hl => by
    rw [writesTo_ok _ (hw l hl)]
    rfl
  rw [exec_moviHi, execMoviHi, laneWord_acts _ ha, evalLanes_ok _ _ _ hlane, classWord_short rfl rfl fun _ _ => BitVec.zero_and]
  rfl

/-- Settles O19: XSET, XSTEP and XMOV put a value into one index register of each lane, which their own post-steps pass over; MOVI with the
high bit keeps the second of the two writes that a pair takes. -/
theorem indexWords : Obligations.IndexWords := by
  refine ⟨⟨xset_writes, xstep_writes, xmov_writes⟩, fun s u h d v ha hw => ?_⟩
  have he : EvenPair true d := evenPair_of_wellFormed (o := rwO kVSX true d) (by simp [opnds]) ha.2.1
  exact ⟨_, exec_moviHi_acts ha hw, shortGroup_regFrame (acts_mark ha), hiGroup_pred, hiGroup_flg, shortGroup_goOn, shortGroup_keepsItems,
    fun l hl r hr => hiGroup_vGet he hl hr, fun n hd hact => hiGroup_sGet hd hact, fun l n _ hn hnot => hiGroup_vGet_other he hn hnot,
    fun n hnot => hiGroup_sreg_other hnot⟩

end Sys2Proof.Machine
end

section
/-! SUPPORT. Rejoin registers (R148): what joining, releasing and leaving them changes; ENROL and REJOIN (R181, R182), EXIT (R137, R184), and the
statements RejoinWords and ExitEndsLanes. -/

namespace Sys2Proof.Machine

/-! ## Words that name no index register and may hold their lanes -/

theorem postStep_none {i : Instr} (hi : postSteps i = []) (g : Group) (m : Lanes) : postStep i g m = g := by
  simp only [postStep, hi, List.eraseDups_nil, List.filter_nil, List.foldl_nil]
  exact List.foldlRecOn (motive := fun x => x = g) _ _ rfl fun _ hx _ _ => hx

theorem closeWord_from (i : Instr) (c : Ctx) (s : State) (done : Lanes) (tgt : List (Nat × DWord)) :
    closeWord i c s done tgt [] = setGroup s c.gk (passTo i c (getGroup s c.gk) done tgt) := by
  have hm : c.lanes &&& ~~~(lanesMask (([] : List Raise).map (·.lane))) = c.lanes := BitVec.and_allOnes
  simp only [closeWord, hm, updGroup_eq, takeCauses_nil, passTo, setMark_setGroup]

/-- Sending the lanes of a set to one address is moving the set. -/
theorem foldl_setPc (g : Group) (m : Lanes) (a : DWord) :
    ((lanesOf m).map fun l => (l, a)).foldl (fun g e => setPc g e.1 e.2) g = setPcs g m a := by
  have hfold : ∀ (ls : List Nat) (g : Group),
      (ls.map fun l => (l, a)).foldl (fun g e => setPc g e.1 e.2) g = { g with pc := ls.foldl (fun t l => tabPut t l a) g.pc } := by
    intro ls
    induction ls with
    | nil => exact fun _ => rfl
    | cons l ls ih => exact fun g => ih (setPc g l a)
  exact hfold (lanesOf m) g

section
variable {i : Instr} {c : Ctx} (done m : Lanes) (a : DWord)

/-- A word that sends a set of lanes to one address and the others on behind it. -/
theorem passTo_set (hm : c.g.mark = false) (hi : postSteps i = []) : passTo i c c.g done ((lanesOf m).map fun l => (l, a)) =
    { c.g with pc := (setPcs (setPcs c.g c.lanes c.next) m a).pc, mark := markOf i && !c.g.outs.isEmpty } := by
  rw [passTo, postStep_none hi, foldl_setPc]
  cases markOf i <;> simp [setPcs, hm]

theorem pcOf_passTo_set (hm : c.g.mark = false) (hi : postSteps i = []) {l : Nat} (hl : l < 32) :
    pcOf (passTo i c c.g done ((lanesOf m).map fun l => (l, a))) l =
      if m.getLsbD l then a else if c.lanes.getLsbD l then c.next else pcOf c.g l := by
  rw [passTo_set done m a hm hi]
  exact (pcOf_setPcs _ m a l hl).trans (by rw [pcOf_setPcs _ _ _ l hl])

end

/-! ## Rejoin registers -/

/-- A group with one rejoin register written. -/
def putJoin (g : Group) (j : Nat) (r : Rejoin) : Group := { g with rejoin := tabPut g.rejoin j r }

theorem jGet_putJoin (g : Group) (j k : Nat) (r : Rejoin) : jGet (putJoin g j r) k = if k = j then r else jGet g k := tabGet_tabPut _ _ _ _ _

@[simp] theorem jGet_putJoin_same (g : Group) (j : Nat) (r : Rejoin) : jGet (putJoin g j r) j = r := (jGet_putJoin g j j r).trans (if_pos rfl)

@[simp] theorem jGet_setPcs (g : Group) (m : Lanes) (a : DWord) (k : Nat) : jGet (setPcs g m a) k = jGet g k := rfl

@[simp] theorem pcOf_putJoin (g : Group) (j : Nat) (r : Rejoin) (l : Nat) : pcOf (putJoin g j r) l = pcOf g l := rfl

section
variable {g : Group} {j : Nat}

theorem releaseJoin_waits (h : (jGet g j).arr ≠ (jGet g j).enr) : releaseJoin g j = g := if_neg fun ⟨_, heq⟩ => h heq

theorem releaseJoin_releases (h0 : (jGet g j).enr ≠ 0) (h : (jGet g j).arr = (jGet g j).enr) :
    releaseJoin g j = setPcs (putJoin g j ⟨0, 0, (jGet g j).jpc⟩) (jGet g j).arr ((jGet g j).jpc + 8) := if_pos ⟨h0, h⟩

/-- A release either happens or not. -/
theorem releaseJoin_cases (g : Group) (j : Nat) :
    releaseJoin g j = g ∨ releaseJoin g j = setPcs (putJoin g j ⟨0, 0, (jGet g j).jpc⟩) (jGet g j).arr ((jGet g j).jpc + 8) := by
  by_cases h : (jGet g j).enr ≠ 0 ∧ (jGet g j).arr = (jGet g j).enr
  · exact .inr (releaseJoin_releases h.1 h.2)
  · exact .inl (if_neg h)

theorem releaseJoin_frame (g : Group) (j : Nat) :
    releaseJoin g j = { g with pc := (releaseJoin g j).pc, rejoin := (releaseJoin g j).rejoin } := by
  rcases releaseJoin_cases g j with h | h
  · rw [h]
  · rw [h]; rfl

theorem jGet_releaseJoin_other {k : Nat} (hk : k ≠ j) : jGet (releaseJoin g j) k = jGet g k := by
  rcases releaseJoin_cases g j with h | h
  · rw [h]
  · rw [h, jGet_setPcs, jGet_putJoin, if_neg hk]

theorem jGet_releaseJoin_same (g : Group) (j : Nat) :
    jGet (releaseJoin g j) j = jGet g j ∨ jGet (releaseJoin g j) j = ⟨0, 0, (jGet g j).jpc⟩ := by
  rcases releaseJoin_cases g j with h | h
  · exact .inl (by rw [h])
  · exact .inr (by rw [h, jGet_setPcs, jGet_putJoin_same])

end

/-! ## ENROL, R181 -/

theorem exec_enrol_joins {s : State} {u : Issue} {h : Hdr} {j : BitVec 3} {ofs : BitVec 24} (ha : Acts s u (.enrol h j ofs))
    (hfree : (jGet (getGroup s u.gkey) j.toNat).enr = 0 ∨ (jGet (getGroup s u.gkey) j.toNat).jpc = u.pc + (ofs.signExtend 64 <<< 3)) :
    exec (.enrol h j ofs) s = .next (passed s u (.enrol h j ofs) (putJoin (getGroup s u.gkey) j.toNat
      ⟨if (jGet (getGroup s u.gkey) j.toNat).enr = 0 then 0 else (jGet (getGroup s u.gkey) j.toNat).arr,
        (jGet (getGroup s u.gkey) j.toNat).enr ||| (ctxOf s u (.enrol h j ofs)).active, u.pc + (ofs.signExtend 64 <<< 3)⟩)) := by
  let i : Instr := .enrol h j ofs
  let c := ctxOf s u i
  let r := jGet c.g j.toNat
  let t := ofsTarget c ofs
  have hclose : ∀ r' : Rejoin, closeWord i c (updGroup s c.gk fun g => { g with rejoin := tabPut g.rejoin j.toNat r' }) c.active [] [] =
      passed s u i (putJoin c.g j.toNat r') := fun r' => closeWord_ok i c s _ c.active
  rw [exec_enrol, execEnrol, issueWord_acts _ ha]
  refine congrArg Host.Outcome.next ?_
  by_cases h0 : r.enr = 0
  · refine (if_pos h0).trans ((hclose ⟨0, c.active, t⟩).trans ?_)
    have hr : (⟨0, c.active, t⟩ : Rejoin) = ⟨if r.enr = 0 then 0 else r.arr, r.enr ||| c.active, t⟩ := by
      rw [if_pos h0, h0]
      exact congrArg (fun e => Rejoin.mk 0 e t) BitVec.zero_or.symm
    rw [hr]
    rfl
  · have hj : r.jpc = t := hfree.resolve_left h0
    refine (if_neg h0).trans ((if_pos hj).trans ((hclose ⟨r.arr, r.enr ||| c.active, r.jpc⟩).trans ?_))
    have hr : (⟨r.arr, r.enr ||| c.active, r.jpc⟩ : Rejoin) = ⟨if r.enr = 0 then 0 else r.arr, r.enr ||| c.active, t⟩ := by
      rw [if_neg h0, hj]
    rw [hr]
    rfl

/-! ## REJOIN, R182 -/

/-- The group once the lanes that arrive at rejoin register `j` stand at the word and the others behind it. -/
def arrivedGroup (i : Instr) (c : Ctx) (j : Nat) : Group :=
  passTo i c c.g c.active ((lanesOf (c.active &&& (jGet c.g j).enr)).map fun l => (l, c.pc))

/-- The same group with the arrivals noted in the register. -/
def notedGroup (i : Instr) (c : Ctx) (j : Nat) : Group :=
  putJoin (arrivedGroup i c j) j ⟨(jGet c.g j).arr ||| (c.active &&& (jGet c.g j).enr), (jGet c.g j).enr, (jGet c.g j).jpc⟩

/-- The group after a REJOIN. -/
def rejoinGroup (i : Instr) (c : Ctx) (j : Nat) : Group :=
  if (jGet c.g j).enr = 0 then arrivedGroup i c j else releaseJoin (notedGroup i c j) j

theorem exec_rejoin_acts {s : State} {u : Issue} {h : Hdr} {j : BitVec 3} (ha : Acts s u (.rejoin h j)) :
    exec (.rejoin h j) s = .next (setGroup s u.gkey (rejoinGroup (.rejoin h j) (ctxOf s u (.rejoin h j)) j.toNat)) := by
  rw [exec_rejoin, execRejoin, issueWord_acts _ ha]
  simp only [closeWord_from, updGroup_eq, getGroup_setGroup_same, setGroup_setGroup, rejoinGroup]
  split <;> rfl

section
variable {i : Instr} {c : Ctx} {j : Nat}

theorem rejoinGroup_free (h0 : (jGet c.g j).enr = 0) : rejoinGroup i c j = arrivedGroup i c j := if_pos h0

theorem rejoinGroup_holds (h0 : (jGet c.g j).enr ≠ 0) (h : (jGet c.g j).arr ||| (c.active &&& (jGet c.g j).enr) ≠ (jGet c.g j).enr) :
    rejoinGroup i c j = notedGroup i c j :=
  (if_neg h0).trans (releaseJoin_waits (by rw [notedGroup, jGet_putJoin_same]; exact h))

theorem rejoinGroup_releases (h0 : (jGet c.g j).enr ≠ 0) (h : (jGet c.g j).arr ||| (c.active &&& (jGet c.g j).enr) = (jGet c.g j).enr) :
    rejoinGroup i c j = setPcs (putJoin (notedGroup i c j) j ⟨0, 0, (jGet c.g j).jpc⟩) (jGet c.g j).enr ((jGet c.g j).jpc + 8) := by
  have hr : jGet (notedGroup i c j) j = ⟨(jGet c.g j).enr, (jGet c.g j).enr, (jGet c.g j).jpc⟩ := by rw [notedGroup, jGet_putJoin_same, h]
  have hrel := releaseJoin_releases (g := notedGroup i c j) (j := j) (by rw [hr]; exact h0) (by rw [hr])
  rw [hr] at hrel
  exact (if_neg h0).trans hrel

variable (hm : c.g.mark = false) (hi : postSteps i = [])
include hm hi

theorem arrivedGroup_frame : arrivedGroup i c j =
    { c.g with pc := (arrivedGroup i c j).pc, mark := markOf i && !c.g.outs.isEmpty } := by rw [arrivedGroup, passTo_set _ _ _ hm hi]

theorem rejoinGroup_frame : rejoinGroup i c j =
    { c.g with pc := (rejoinGroup i c j).pc, rejoin := (rejoinGroup i c j).rejoin, mark := markOf i && !c.g.outs.isEmpty } := by
  by_cases h0 : (jGet c.g j).enr = 0
  · rw [rejoinGroup_free h0, arrivedGroup_frame hm hi]
  · have hr : rejoinGroup i c j = releaseJoin (notedGroup i c j) j := if_neg h0
    rw [hr, releaseJoin_frame, notedGroup, putJoin, arrivedGroup_frame hm hi]

theorem jGet_arrivedGroup (k : Nat) : jGet (arrivedGroup i c j) k = jGet c.g k := by rw [arrivedGroup_frame hm hi]; rfl

theorem pcOf_arrivedGroup {l : Nat} (hl : l < 32) : pcOf (arrivedGroup i c j) l =
    if (c.active &&& (jGet c.g j).enr).getLsbD l then c.pc else if c.lanes.getLsbD l then c.next else pcOf c.g l :=
  pcOf_passTo_set _ _ _ hm hi hl

theorem jGet_rejoinGroup_other {k : Nat} (hk : k ≠ j) : jGet (rejoinGroup i c j) k = jGet c.g k := by
  by_cases h0 : (jGet c.g j).enr = 0
  · rw [rejoinGroup_free h0, jGet_arrivedGroup hm hi]
  · have hr : rejoinGroup i c j = releaseJoin (notedGroup i c j) j := if_neg h0
    rw [hr, jGet_releaseJoin_other hk, notedGroup, jGet_putJoin, if_neg hk, jGet_arrivedGroup hm hi]

/-- Lanes pass the join of a free register. -/
theorem rejoinGroup_goOn (h0 : (jGet c.g j).enr = 0) : GoOn c c.g (rejoinGroup i c j) := fun l hl => by
  rw [rejoinGroup_free h0, pcOf_arrivedGroup hm hi hl, h0]
  exact if_neg (by simp)

/-- A release moves every enrolled lane, those that arrive with the word among them. -/
theorem pcOf_rejoinGroup_releases (h0 : (jGet c.g j).enr ≠ 0) (h : (jGet c.g j).arr ||| (c.active &&& (jGet c.g j).enr) = (jGet c.g j).enr)
    {l : Nat} (hl : l < 32) : pcOf (rejoinGroup i c j) l =
      if (jGet c.g j).enr.getLsbD l then (jGet c.g j).jpc + 8 else if c.lanes.getLsbD l then c.next else pcOf c.g l := by
  rw [rejoinGroup_releases h0 h, pcOf_setPcs _ _ _ l hl, pcOf_putJoin, notedGroup, pcOf_putJoin, pcOf_arrivedGroup hm hi hl]
  refine ite_congr rfl (fun _ => rfl) fun hout => if_neg ?_
  rw [BitVec.getLsbD_and, Bool.and_eq_true]
  exact fun h => hout h.2

end

/-- Settles O22: ENROL writes its register and passes; REJOIN notes the lanes that arrive, and the release test decides whether they are held. -/
theorem rejoinWords : Obligations.RejoinWords := by
  refine ⟨fun s u h j ofs ha hfree => exec_enrol_joins ha hfree, fun s u h j ha => ?_⟩
  have hm : (ctxOf s u (.rejoin h j)).g.mark = false := acts_mark ha
  refine ⟨_, exec_rejoin_acts ha, rejoinGroup_frame hm rfl, fun k hk => jGet_rejoinGroup_other hm rfl hk, fun h0 => ⟨rejoinGroup_goOn hm rfl h0, ?_⟩,
    fun h0 hwait => ⟨?_, fun l hl => ?_⟩, fun h0 hall => ⟨?_, fun l hl => pcOf_rejoinGroup_releases hm rfl h0 hall hl⟩⟩
  · rw [rejoinGroup_free h0, jGet_arrivedGroup hm rfl]
    rfl
  · rw [rejoinGroup_holds h0 hwait]
    exact jGet_putJoin_same _ _ _
  · rw [rejoinGroup_holds h0 hwait]
    exact pcOf_arrivedGroup hm rfl hl
  · rw [rejoinGroup_releases h0 hall, jGet_setPcs]
    exact jGet_putJoin_same _ _ _

/-! ## Leaving rejoin registers, R148 -/

/-- The step of `leaveJoins` for one register. -/
def leaveJoin (m : Lanes) (g : Group) (j : Nat) : Group :=
  match tabFind g.rejoin j with
  | none => g
  | some r => releaseJoin (putJoin g j ⟨r.arr &&& ~~~m, r.enr &&& ~~~m, r.jpc⟩) j

theorem leaveJoins_eq (g : Group) (m : Lanes) : leaveJoins g m = (List.range 8).foldl (leaveJoin m) g := rfl

/-- No lane of a set is enrolled in a rejoin register or stands at it. -/
def HasLeft (m : Lanes) (r : Rejoin) : Prop := r.enr &&& m = 0 ∧ r.arr &&& m = 0

theorem and_not_and (x m : Lanes) : x &&& ~~~m &&& m = 0 := by
  ext k hk
  simp

theorem leaveJoin_frame (m : Lanes) (g : Group) (j : Nat) :
    leaveJoin m g j = { g with pc := (leaveJoin m g j).pc, rejoin := (leaveJoin m g j).rejoin } := by
  unfold leaveJoin
  split
  · rfl
  · rw [releaseJoin_frame]; rfl

theorem leaveJoin_left (m : Lanes) (g : Group) (j : Nat) : HasLeft m (jGet (leaveJoin m g j) j) := by
  unfold leaveJoin
  split
  · next hnone =>
    rw [jGet, tabGet, hnone]
    exact ⟨BitVec.zero_and, BitVec.zero_and⟩
  · next r _ =>
    rcases jGet_releaseJoin_same (putJoin g j ⟨r.arr &&& ~~~m, r.enr &&& ~~~m, r.jpc⟩) j with h | h
    · rw [h, jGet_putJoin_same]
      exact ⟨and_not_and _ m, and_not_and _ m⟩
    · rw [h]
      exact ⟨BitVec.zero_and, BitVec.zero_and⟩

/-- Once left, a register stays left while others are left. -/
theorem leaveJoin_keeps_left {m : Lanes} {g : Group} {k : Nat} (h : HasLeft m (jGet g k)) (j : Nat) : HasLeft m (jGet (leaveJoin m g j) k) := by
  by_cases hk : k = j
  · exact hk ▸ leaveJoin_left m g k
  · unfold leaveJoin
    split
    · exact h
    · rw [jGet_releaseJoin_other hk, jGet_putJoin, if_neg hk]
      exact h

theorem foldl_leaveJoin_left {m : Lanes} (js : List Nat) (g : Group) (k : Nat) (h : HasLeft m (jGet g k) ∨ k ∈ js) :
    HasLeft m (jGet (js.foldl (leaveJoin m) g) k) := by
  induction js generalizing g with
  | nil => exact h.resolve_right List.not_mem_nil
  | cons j js ih =>
    refine ih (leaveJoin m g j) ?_
    rcases h with h | h
    · exact .inl (leaveJoin_keeps_left h j)
    · rcases List.mem_cons.1 h with rfl | h
      · exact .inl (leaveJoin_left m g k)
      · exact .inr h

theorem leaveJoins_left (g : Group) (m : Lanes) {j : Nat} (hj : j < 8) : HasLeft m (jGet (leaveJoins g m) j) := by
  rw [leaveJoins_eq]
  exact foldl_leaveJoin_left _ g j (.inr (List.mem_range.2 hj))

theorem leaveJoins_frame (g : Group) (m : Lanes) : leaveJoins g m = { g with pc := (leaveJoins g m).pc, rejoin := (leaveJoins g m).rejoin } := by
  rw [leaveJoins_eq]
  refine List.foldlRecOn (motive := fun x : Group => x = { g with pc := x.pc, rejoin := x.rejoin }) _ _ rfl fun x hx j _ => ?_
  rw [leaveJoin_frame, hx]

/-! ## EXIT, R184 -/

/-- No result is still to come for a lane that exits; results for uniform registers stay. -/
theorem dropLive_live {g : Group} {m : Lanes} {o : Out} (ho : o ∈ (dropLive g m).outs) {l : Nat} (hl : m.getLsbD l = true) (n : Nat) :
    Tgt.v l n ∉ o.live ∧ Tgt.p l n ∉ o.live := by
  obtain ⟨o', -, rfl⟩ := List.mem_map.1 ho
  exact ⟨fun hv => by simpa [hl] using (List.mem_filter.1 hv).2, fun hp => by simpa [hl] using (List.mem_filter.1 hp).2⟩

theorem dropLive_items (g : Group) (m : Lanes) :
    ((dropLive g m).outs.map fun o => { o with live := [] }) = g.outs.map fun o => { o with live := [] } := List.map_map

theorem endLanes_rejoin (g : Group) (m : Lanes) : (endLanes g m).rejoin = (leaveJoins (dropLive { g with exited := g.exited ||| m } m) m).rejoin := by
  unfold endLanes
  dsimp only
  split <;> rfl

theorem endLanes_frame (g : Group) (m : Lanes) : endLanes g m =
    { g with pc := (endLanes g m).pc, exited := g.exited ||| m, rejoin := (endLanes g m).rejoin, outs := (dropLive g m).outs,
             sstate := if g.live &&& ~~~(g.exited ||| m) = 0 then .spent else g.sstate } := by
  have hleft := leaveJoins_frame (dropLive { g with exited := g.exited ||| m } m) m
  have hlive : (leaveJoins (dropLive { g with exited := g.exited ||| m } m) m).live = g.live := by rw [hleft]; rfl
  have hexited : (leaveJoins (dropLive { g with exited := g.exited ||| m } m) m).exited = g.exited ||| m := by rw [hleft]; rfl
  unfold endLanes
  simp only [hlive, hexited]
  split
  · rw [hleft]; rfl
  · rw [hleft]; rfl

theorem exec_exit_acts {s : State} {u : Issue} {h : Hdr} (ha : Acts s u (.exit h)) : exec (.exit h) s =
    .next (setGroup s u.gkey (passOn (.exit h) (ctxOf s u (.exit h)) (endLanes (getGroup s u.gkey) (ctxOf s u (.exit h)).active)
      (ctxOf s u (.exit h)).active)) := by
  rw [exec_exit, execExit, issueWord_acts _ ha]
  exact congrArg Host.Outcome.next (closeWord_ok _ (ctxOf s u (.exit h)) s _ _)

/-- Settles O25: EXIT ends its lanes with `endLanes` and passes; what is left of rejoin registers and items is what the two steps of `endLanes`
leave. -/
theorem exitEndsLanes : Obligations.ExitEndsLanes := by
  intro s u h ha
  let c := ctxOf s u (.exit h)
  let g := getGroup s u.gkey
  have hpass : passOn (.exit h) c (endLanes g c.active) c.active = _ := passOn_frame _ c _ _
  rw [postStep_none rfl] at hpass
  refine ⟨_, exec_exit_acts ha, ?_, fun j hj => ?_, fun o ho l n hl => ?_, ?_⟩
  · rw [hpass, endLanes_frame]
  · have hj' : jGet (passOn (.exit h) c (endLanes g c.active) c.active) j = jGet (endLanes g c.active) j := by rw [hpass]; rfl
    rw [hj', jGet, endLanes_rejoin]
    exact leaveJoins_left _ c.active hj
  · rw [hpass, endLanes_frame] at ho
    exact dropLive_live ho ((mem_lanesOf _ l).1 hl).2 n
  · rw [hpass, endLanes_frame]
    exact dropLive_items g c.active

end Sys2Proof.Machine
end

section
/-! SUPPORT. Integer and logic words (R156 to R167), cross-lane words (R171 to R176), and the statements IntegerResults, Shifts and
CrossLaneResults. -/

namespace Sys2Proof.Machine

/-! ## Words of one, two and three sources -/

/-- A pair that an accepted word names first stands at an even register (R101). -/
theorem evenPair_first {i : Instr} {wide : Bool} {d : Spec} (ho : (opnds i).head?.map (fun o => (o.wide, o.sp)) = some (wide, d))
    (hw : wellFormed i = true) : EvenPair wide d := by
  obtain ⟨o, hfirst, heq⟩ := Option.map_eq_some_iff.1 ho
  cases heq
  exact evenPair_of_wellFormed (List.mem_of_mem_head? hfirst) hw

section
variable {i : Instr} {wide : Bool} {t t' : Ty} {d e a b : Spec}

theorem unWord_results {f : Nat → Nat} (hx : ∀ s, exec i s = laneWord i s fun c l => unLane c l wide t d a f)
    (he : wellFormed i = true → EvenPair wide d) :
    WritesRegs i ⟨wide, d, anyMode, val1 t a f⟩ ∧ QueuesRegs i ⟨wide, d, anyMode, val1 t a f⟩ := by
  refine laneWord_results (fun _ c l => unLane c l wide t d a f) hx he fun s c l x fl hv hc => ?_
  obtain ⟨xa, hxa, hv⟩ := Option.map_eq_some_iff.1 hv
  cases hv
  simp only [unLane, readOp_of_opVal hxa]
  exact laneValue_ok _ _ hc

theorem binWord_results {f : Ctx → Nat → Nat → Nat → Nat} (hx : ∀ s, exec i s = laneWord i s fun c l => binLane c l wide t t' d a b (f c l))
    (he : wellFormed i = true → EvenPair wide d) :
    WritesRegs i ⟨wide, d, anyMode, fun s c l => val2 t t' a b (f c l) s c l⟩ ∧
      QueuesRegs i ⟨wide, d, anyMode, fun s c l => val2 t t' a b (f c l) s c l⟩ := by
  refine laneWord_results (fun _ c l => binLane c l wide t t' d a b (f c l)) hx he fun s c l x fl hv hc => ?_
  obtain ⟨xa, hxa, hv⟩ := Option.bind_eq_some_iff.1 hv
  obtain ⟨xb, hxb, hv⟩ := Option.map_eq_some_iff.1 hv
  cases hv
  simp only [binLane, readOp_of_opVal hxa, readOp_of_opVal hxb]
  exact laneValue_ok _ _ hc

theorem triWord_results {f : Nat → Nat → Nat → Nat} (hx : ∀ s, exec i s = laneWord i s fun c l => triLane c l wide t t' d e a b f)
    (he : wellFormed i = true → EvenPair wide d) :
    WritesRegs i ⟨wide, d, anyMode, val3 t t' e a b f⟩ ∧ QueuesRegs i ⟨wide, d, anyMode, val3 t t' e a b f⟩ := by
  refine laneWord_results (fun _ c l => triLane c l wide t t' d e a b f) hx he fun s c l x fl hv hc => ?_
  obtain ⟨xe, hxe, hv⟩ := Option.bind_eq_some_iff.1 hv
  obtain ⟨xa, hxa, hv⟩ := Option.bind_eq_some_iff.1 hv
  obtain ⟨xb, hxb, hv⟩ := Option.map_eq_some_iff.1 hv
  cases hv
  simp only [triLane, readOp_of_opVal hxe, readOp_of_opVal hxa, readOp_of_opVal hxb]
  exact laneValue_ok _ _ hc

/-- A word whose lanes always have a value and raise no flag. -/
theorem plainWord_results {v : Ctx → Nat → Nat}
    (hx : ∀ s, exec i s = laneWord i s fun c l => do let ws ← writesTo c l wide d (v c l); return (ws, 0))
    (he : wellFormed i = true → EvenPair wide d) :
    WritesRegs i ⟨wide, d, anyMode, fun _ c l => some (v c l, 0)⟩ ∧ QueuesRegs i ⟨wide, d, anyMode, fun _ c l => some (v c l, 0)⟩ := by
  refine laneWord_results (fun _ c l => do let ws ← writesTo c l wide d (v c l); return (ws, 0)) hx he fun s c l x fl hv hc => ?_
  cases hv
  exact laneValue_ok _ _ hc

end

/-! ## Integer and logic words -/

/-- The destination of IMAC is its first operand in either form (R109). -/
theorem imac_first (h : Hdr) (ty : IntTy) (sat : Bool) (d a b e : Spec) :
    (opnds (.imac h ty sat d a b e)).head?.map (fun o => (o.wide, o.sp)) = some (intWide ty, d) := by
  simp only [opnds]
  split <;> rfl

/-- Settles O13: each word evaluates its lanes to the value that `integerOp` gives it from its one, two or three sources, and a word of such
lanes writes or queues its results. -/
theorem integerResults : Obligations.IntegerResults := by
  intro i op ho
  cases i with
  | iadd | isub | imul | imulh | imin | imax | and | or | xor | andn | shl | shr | sar | bfe | lea | isel | igcd =>
    cases ho
    exact binWord_results (fun _ => rfl) (evenPair_first rfl)
  | iabs | ineg | not | popc | clz | brev | mov =>
    cases ho
    exact unWord_results (fun _ => rfl) (evenPair_first rfl)
  | imac =>
    cases ho
    exact triWord_results (fun _ => rfl) (evenPair_first (imac_first _ _ _ _ _ _ _))
  | bfi =>
    cases ho
    exact triWord_results (fun _ => rfl) (evenPair_first rfl)
  | movi | xget =>
    cases ho
    exact plainWord_results (fun _ => rfl) (evenPair_first rfl)
  | _ => cases ho

/-! ## Shifts, R160 -/

theorem widthOf_cases (ty : IntTy) : widthOf ty = 32 ∨ widthOf ty = 64 := by cases ty <;> simp [widthOf, intWide]

/-- The sign bit of a pattern decides how it reads as two's complement. -/
theorem toSigned_fdiv_width {w : Nat} (hw : w = 32 ∨ w = 64) (x : Nat) :
    (toSigned w x).fdiv ((2 ^ w : Nat) : Int) = if x.testBit (w - 1) = true then -1 else 0 := by
  rw [Int.fdiv_eq_ediv_of_nonneg _ (Int.natCast_nonneg _), Nat.testBit_eq_decide_div_mod_eq]
  rcases hw with rfl | rfl
  · simp only [toSigned, decide_eq_true_eq]
    omega
  · simp only [toSigned, decide_eq_true_eq]
    omega

/-- SAR shifts the signed value down, and from the width on leaves its sign alone. -/
theorem sarRes_eq (ty : IntTy) : sarRes ty = fun x c =>
    (((if c < widthOf ty then toSigned (widthOf ty) x / 2 ^ c else if x.testBit (widthOf ty - 1) = true then -1 else 0) : Int) %
      (2 ^ widthOf ty : Int)).toNat := by
  funext x c
  have hcast : ((2 ^ widthOf ty : Nat) : Int) = (2 : Int) ^ widthOf ty := Int.natCast_pow 2 _
  rw [sarRes, ofInt, hcast]
  split
  · next hlt => rw [Nat.min_eq_left (Nat.le_of_lt hlt), Int.fdiv_eq_ediv_of_nonneg _ (Int.natCast_nonneg _), Int.natCast_pow, Int.cast_ofNat_Int]
  · next hge => rw [Nat.min_eq_right (Nat.le_of_not_lt hge), toSigned_fdiv_width (widthOf_cases ty)]

/-- Settles O9: SHL and SHR compute the stated values as they stand, and SAR does by `sarRes_eq`. -/
theorem shifts : Obligations.Shifts := by
  intro h ty d a b
  have hsar := (integerResults (.sar h ty d a b) _ rfl).1
  rw [sarRes_eq] at hsar
  exact ⟨(integerResults (.shl h ty d a b) _ rfl).1, (integerResults (.shr h ty d a b) _ rfl).1, hsar⟩

/-! ## Cross-lane words -/

theorem bind_of_ok {ε α β : Type} {m : Except ε α} {x : α} (h : m = .ok x) (f : α → Except ε β) : m >>= f = f x := by rw [h]; rfl

theorem laneVal_of_farVal {c : Ctx} {l x : Nat} {t : Ty} {a : Spec} (h : farVal c l t a = some x) : laneVal c t a l = .ok x := by
  obtain ⟨y, hy, rfl⟩ := Option.map_eq_some_iff.1 h
  rw [laneVal, readOp_of_opVal hy]
  rfl

theorem shfl_results (h : Hdr) (mode : ShflMode) (ty : IntTy) (wrel : Bool) (d a b : Spec) {op : RegOp}
    (ho : laneOp (.shfl h mode ty wrel d a b) = some op) :
    WritesRegs (.shfl h mode ty wrel d a b) op ∧ QueuesRegs (.shfl h mode ty wrel d a b) op := by
  cases ho
  refine laneWord_results _ (fun s => exec_shfl s h mode ty wrel d a b) (evenPair_first rfl) fun s c l x fl hv hc => ?_
  obtain ⟨o, hb, hv⟩ := Option.bind_eq_some_iff.1 hv
  obtain ⟨y, hfar, hv⟩ := Option.map_eq_some_iff.1 hv
  cases hv
  rw [bind_of_ok (readOp_of_opVal hb), bind_of_ok (laneVal_of_farVal hfar)]
  exact laneValue_ok _ _ hc

theorem bcast_results (h : Hdr) (ty : IntTy) (d a : Spec) {op : RegOp} (ho : laneOp (.bcast h ty d a) = some op) :
    WritesRegs (.bcast h ty d a) op ∧ QueuesRegs (.bcast h ty d a) op := by
  cases ho
  refine laneWord_results _ (fun s => exec_bcast s h ty d a) (evenPair_first rfl) fun s c l x fl hv hc => ?_
  obtain ⟨y, hfar, hv⟩ := Option.map_eq_some_iff.1 hv
  cases hv
  rw [bind_of_ok (laneVal_of_farVal hfar)]
  exact laneValue_ok _ _ hc

/-- VOTE.BALLOT writes a register; the other modes write a predicate (R173). -/
theorem vote_results (h : Hdr) (mode : VoteMode) (d : Spec) (pa : BitVec 4) {op : RegOp} (ho : laneOp (.vote h mode d pa) = some op) :
    WritesRegs (.vote h mode d pa) op ∧ QueuesRegs (.vote h mode d pa) op := by
  cases mode with
  | ballot =>
    cases ho
    exact plainWord_results (fun _ => rfl) (evenPair_first rfl)
  | any => cases ho
  | all => cases ho

/-- A reduction or scan over the lanes: outside the mode cause, a lane that can read its own operand gets the value (R174 to R177). -/
theorem redWord_results {i : Instr} {ty : Ty} {d a : Spec} {v : Ctx → Nat → Nat × Flags}
    (hx : ∀ s, exec i s = laneWord i s fun c l =>
      if redMode c ty then .error cMOD
      else do
        let _ ← readOp c l ty a
        let ws ← writesTo c l (tyWide ty) d (v c l).1
        return (ws, (v c l).2))
    (he : wellFormed i = true → EvenPair (tyWide ty) d) {op : RegOp}
    (ho : op = ⟨tyWide ty, d, anyMode, fun _ c l => if redMode c ty then none else (opVal c l ty a).map fun _ => v c l⟩) :
    WritesRegs i op ∧ QueuesRegs i op := by
  cases ho
  refine laneWord_results _ hx he fun s c l x fl hv hc => ?_
  split at hv
  · cases hv
  · next hmode =>
    obtain ⟨y, hy, hv⟩ := Option.map_eq_some_iff.1 hv
    rw [if_neg hmode, readOp_of_opVal hy, hv]
    exact laneValue_ok _ _ hc

theorem lanerd_results (h : Hdr) (ty : IntTy) (d a b : Spec) {op : RegOp} (ho : laneOp (.lanerd h ty d a b) = some op) :
    WritesRegs (.lanerd h ty d a b) op ∧ QueuesRegs (.lanerd h ty d a b) op := by
  cases ho
  refine laneWord_results _ (fun s => exec_lanerd s h ty d a b) (evenPair_first rfl) fun s c l x fl hv hc => ?_
  obtain ⟨n, hb, hv⟩ := Option.bind_eq_some_iff.1 hv
  obtain ⟨own, ha, hv⟩ := Option.bind_eq_some_iff.1 hv
  rw [bind_of_ok (readOp_of_opVal hb), bind_of_ok (readOp_of_opVal ha)]
  split at hv
  · next hlt =>
    obtain ⟨y, hfar, hv⟩ := Option.map_eq_some_iff.1 hv
    cases hv
    exact (if_pos hlt).trans ((bind_of_ok (laneVal_of_farVal hfar) _).trans (laneValue_ok _ _ hc))
  · next hge =>
    cases hv
    exact (if_neg hge).trans (laneValue_ok _ _ hc)

/-- Settles O16: each word evaluates its lanes to the value that `laneOp` gives it from the operands of its lanes, and a word of such lanes
writes or queues its results. -/
theorem crossLaneResults : Obligations.CrossLaneResults := by
  intro i op ho
  cases i with
  | shfl h mode ty wrel d a b => exact shfl_results h mode ty wrel d a b ho
  | bcast h ty d a => exact bcast_results h ty d a ho
  | vote h mode d pa => exact vote_results h mode d pa ho
  | redx => cases ho; exact redWord_results (fun _ => rfl) (evenPair_first rfl) rfl
  | scanx => cases ho; exact redWord_results (fun _ => rfl) (evenPair_first rfl) rfl
  | lanerd h ty d a b => exact lanerd_results h ty d a b ho
  | _ => cases ho

end Sys2Proof.Machine
end

section
/-! SUPPORT. Words that write registers and send some of their lanes elsewhere (R100, R111); LOOP (R183), and the statement LoopCounts. -/

namespace Sys2Proof.Machine

/-! ## Words that write registers and send a set of lanes to one address -/

/-- The group once the writes `ws` are made, the lanes of `m` stand at `a`, and the other lanes of the issue behind the word. -/
def sentGroup (i : Instr) (c : Ctx) (ws : List (Tgt × Word)) (m : Lanes) (a : DWord) : Group :=
  passTo i c (writeRegs c.l.sregs c.g ws) c.active ((lanesOf m).map fun l => (l, a))

section
variable {i : Instr} {c : Ctx} {ws : List (Tgt × Word)} {m : Lanes} {a : DWord} (hm : c.g.mark = false) (hi : postSteps i = [])
include hm hi

theorem sentGroup_eq : sentGroup i c ws m a = { writeRegs c.l.sregs c.g ws with
    pc := (setPcs (setPcs c.g c.lanes c.next) m a).pc, mark := markOf i && !(writeRegs c.l.sregs c.g ws).outs.isEmpty } := by
  have hmark : (writeRegs c.l.sregs c.g ws).mark = false := by rw [writeRegs_frame]; exact hm
  have hset := passTo_set (c := { c with g := writeRegs c.l.sregs c.g ws }) c.active m a hmark hi
  have hpc : (setPcs (setPcs (writeRegs c.l.sregs c.g ws) c.lanes c.next) m a).pc = (setPcs (setPcs c.g c.lanes c.next) m a).pc := by
    rw [writeRegs_frame]; rfl
  rw [← hpc]
  exact hset

theorem sentGroup_regFrame : RegFrame i c c.g (sentGroup i c ws m a) := by
  rw [RegFrame, sentGroup_eq hm hi, postStep_none hi, writeRegs_frame]

theorem sentGroup_flg : (sentGroup i c ws m a).flg = c.g.flg := by rw [sentGroup_eq hm hi, writeRegs_frame]

theorem sentGroup_keepsItems : KeepsItems c.g (sentGroup i c ws m a) := by
  rw [sentGroup_eq hm hi]
  exact ⟨by rw [writeRegs_frame], writeRegs_items c.l.sregs ws c.g⟩

theorem sentGroup_vreg : (sentGroup i c ws m a).vreg = (writeRegs c.l.sregs c.g ws).vreg := by rw [sentGroup_eq hm hi]
theorem sentGroup_sreg : (sentGroup i c ws m a).sreg = (writeRegs c.l.sregs c.g ws).sreg := by rw [sentGroup_eq hm hi]
theorem sentGroup_pred : (sentGroup i c ws m a).pred = (writeRegs c.l.sregs c.g ws).pred := by rw [sentGroup_eq hm hi]

theorem pcOf_sentGroup {l : Nat} (hl : l < 32) :
    pcOf (sentGroup i c ws m a) l = if m.getLsbD l then a else if c.lanes.getLsbD l then c.next else pcOf c.g l := by
  rw [sentGroup_eq hm hi]
  exact (pcOf_setPcs _ m a l hl).trans (by rw [pcOf_setPcs _ _ _ l hl])

end

/-! ## LOOP on a uniform register -/

theorem sub_one_ne_zero_iff (x : Word) : x - 1 ≠ 0 ↔ x ≠ 1 := not_congr BitVec.sub_eq_iff_eq_add

theorem sGet_writeReg_same {sr n : Nat} (g : Group) (w : Word) (hn : n < sr) : sGet sr (writeReg sr g (.s n) w) n = w := by
  have hfind : tabFind (writeReg sr g (.s n) w).sreg n = some w := by rw [writeReg_sreg, sreg_putReg, if_pos ⟨rfl, hn⟩]
  rw [sGet, if_pos hn, tabGet, hfind, Option.getD_some]

/-- The lanes that a uniform counter sends back: all of them, unless it reaches zero. -/
def uniBack (c : Ctx) (n : Nat) : Lanes := if sGet c.l.sregs c.g n - 1 ≠ 0 then c.active else 0

theorem goTo_uniBack (c : Ctx) (n : Nat) (a : DWord) :
    (if sGet c.l.sregs c.g n - 1 ≠ 0 then goTo c a else []) = (lanesOf (uniBack c n)).map fun l => (l, a) := by
  unfold uniBack
  split
  · rfl
  · rw [(lanesOf_eq_nil 0).2 rfl]; rfl

theorem getLsbD_uniBack (c : Ctx) (n l : Nat) : (uniBack c n).getLsbD l = true ↔ c.active.getLsbD l = true ∧ sGet c.l.sregs c.g n ≠ 1 := by
  unfold uniBack
  split
  · next h => exact (and_iff_left ((sub_one_ne_zero_iff _).1 h)).symm
  · next h => exact ⟨fun h0 => by simp at h0, fun hone => absurd ((sub_one_ne_zero_iff _).2 hone.2) h⟩

/-- A uniform counter is written once, by the issue as a whole. -/
def uniCount (c : Ctx) (n : Nat) : List (Tgt × Word) := [(.s n, sGet c.l.sregs c.g n - 1)]

theorem exec_loop_uni {s : State} {u : Issue} {h : Hdr} {n : BitVec 8} {ofs : BitVec 24} (ha : ActsOnce s u (.loop h (.s n) ofs))
    (hn : n.toNat < (ctxOf s u (.loop h (.s n) ofs)).l.sregs) :
    let c := ctxOf s u (.loop h (.s n) ofs)
    exec (.loop h (.s n) ofs) s =
      .next (setGroup s u.gkey (sentGroup (.loop h (.s n) ofs) c (uniCount c n.toNat) (uniBack c n.toNat) (ofsTarget c ofs))) := by
  intro c
  let g := writeReg c.l.sregs c.g (.s n.toNat) (sGet c.l.sregs c.g n.toNat - 1)
  have hback : (if sGet c.l.sregs g n.toNat ≠ 0 then goTo c (ofsTarget c ofs) else []) =
      (lanesOf (uniBack c n.toNat)).map fun l => (l, ofsTarget c ofs) := by
    rw [sGet_writeReg_same _ _ hn, goTo_uniBack]
  rw [exec_loop, execLoop, issueWord_acts _ ha.1]
  dsimp only
  rw [if_neg ha.2, updGroup_eq, getGroup_setGroup_same]
  exact congrArg Host.Outcome.next ((closeWord_to _ c s g c.active _).trans
    (congrArg (fun tgt => setGroup s c.gk (passTo (.loop h (.s n) ofs) c g c.active tgt)) hback))

/-! ## LOOP on a vector register -/

/-- What a lane writes of its counter. -/
def loopResult (c : Ctx) (n l : Nat) : LaneRes := ([(.v l n, vGet c.g l n - 1)], 0)

theorem loopLane_ok {c : Ctx} {n : BitVec 8} (hn : n.toNat < c.l.vregs) (l : Nat) :
    (do let x ← readOp c l .n32 (.v n)
        let ws ← writesTo c l false (.v n) (BitVec.ofNat 32 x - 1).toNat
        return (ws, 0) : Except Nat LaneRes) = .ok (loopResult c n.toNat l) := by
  have hreg : vecReg c l false 1 (.v n) = .ok n.toNat := if_pos hn
  have hread : readOp c l .n32 (.v n) = .ok (vGet c.g l n.toNat).toNat := by
    simp only [readOp, tyWide, hreg]; rfl
  have hdest : destReg c l false (.v n) = some n.toNat := by rw [destReg, hreg]
  rw [bind_of_ok hread, BitVec.ofNat_toNat, BitVec.setWidth_eq]
  refine (laneValue_ok _ 0 (.inr ⟨_, hdest⟩)).trans ?_
  simp only [valWrites, hdest, Bool.false_eq_true, if_false, BitVec.ofNat_toNat, BitVec.setWidth_eq, loopResult]

theorem mem_loopWrites {c : Ctx} {n : Nat} {e : Tgt × Word} :
    e ∈ laneWrites c (loopResult c n) ↔ ∃ l ∈ lanesOf c.active, e = (.v l n, vGet c.g l n - 1) := by
  rw [laneWrites, mem_allWrites_map]
  constructor
  · rintro ⟨l, hl, he, -⟩
    exact ⟨l, hl, List.mem_singleton.1 he⟩
  · rintro ⟨l, hl, rfl⟩
    exact ⟨l, hl, List.mem_singleton_self _, fun hu => by cases hu⟩

/-- Decrements leave each register of each lane alone but the counter of an active lane. -/
theorem vGet_loopWrites (c : Ctx) {n l k : Nat} (hn : n < 256) (hl : l < 32) (hk : k < 256) :
    vGet (writeRegs c.l.sregs c.g (laneWrites c (loopResult c n))) l k =
      if c.active.getLsbD l ∧ k = n then vGet c.g l k - 1 else vGet c.g l k := by
  have hb : ∀ e ∈ laneWrites c (loopResult c n), ∀ l' n', e.1 = .v l' n' → n' < 256 := by
    intro e he l' n' hen
    obtain ⟨_, _, rfl⟩ := mem_loopWrites.1 he
    cases hen
    exact hn
  split
  · next h =>
    obtain ⟨hact, rfl⟩ := h
    refine vGet_writeRegs_same _ _ _ l k _ hk hb (mem_loopWrites.2 ⟨l, (mem_lanesOf _ l).2 ⟨hl, hact⟩, rfl⟩) fun e he hen => ?_
    obtain ⟨_, _, rfl⟩ := mem_loopWrites.1 he
    cases hen
    rfl
  · next h =>
    refine vGet_writeRegs_other _ _ _ l k hk hb fun e he hen => ?_
    obtain ⟨l', hl', rfl⟩ := mem_loopWrites.1 he
    cases hen
    exact h ⟨((mem_lanesOf _ l).1 hl').2, rfl⟩

theorem loopWrites_sreg (c : Ctx) (n : Nat) : (writeRegs c.l.sregs c.g (laneWrites c (loopResult c n))).sreg = c.g.sreg :=
  writeRegs_sreg_none _ _ _ fun e he k hen => by
    obtain ⟨_, _, rfl⟩ := mem_loopWrites.1 he
    cases hen

theorem loopWrites_pred (c : Ctx) (n : Nat) : (writeRegs c.l.sregs c.g (laneWrites c (loopResult c n))).pred = c.g.pred :=
  writeRegs_pred_none _ _ _ fun e he l k hen => by
    obtain ⟨_, _, rfl⟩ := mem_loopWrites.1 he
    cases hen

/-- The lanes of a vector counter that go back: those whose own counter does not reach zero. -/
def vecBack (c : Ctx) (n : Nat) : Lanes := lanesMask ((lanesOf c.active).filter fun l => vGet c.g l n - 1 != 0)

theorem getLsbD_vecBack (c : Ctx) (n : Nat) {l : Nat} (hl : l < 32) :
    (vecBack c n).getLsbD l = true ↔ c.active.getLsbD l = true ∧ vGet c.g l n ≠ 1 := by
  have hmem := mem_lanesMask ((lanesOf c.active).filter fun l => vGet c.g l n - 1 != 0) l
  rw [mem_lanesOf, List.mem_filter, mem_lanesOf, bne_iff_ne, sub_one_ne_zero_iff] at hmem
  rw [vecBack]
  simpa only [hl, true_and] using hmem

/-- Filtering a lane set keeps its lanes in order. -/
theorem lanesOf_lanesMask_filter (m : Lanes) (p : Nat → Bool) : lanesOf (lanesMask ((lanesOf m).filter p)) = (lanesOf m).filter p := by
  have hp : (lanesOf m).filter p = (List.range 32).filter fun l => p l && m.getLsbD l := List.filter_filter
  rw [hp]
  refine List.filter_congr fun l hl => Bool.eq_iff_iff.2 ?_
  have hmem := mem_lanesMask ((List.range 32).filter fun l => p l && m.getLsbD l) l
  rw [mem_lanesOf, List.mem_filter] at hmem
  simpa only [List.mem_range.1 hl, hl, true_and] using hmem

theorem exec_loop_vec {s : State} {u : Issue} {h : Hdr} {n : BitVec 8} {ofs : BitVec 24} (ha : ActsOnce s u (.loop h (.v n) ofs))
    (hn : n.toNat < (ctxOf s u (.loop h (.v n) ofs)).l.vregs) :
    let c := ctxOf s u (.loop h (.v n) ofs)
    exec (.loop h (.v n) ofs) s = .next (setGroup s u.gkey (sentGroup (.loop h (.v n) ofs) c (laneWrites c (loopResult c n.toNat))
      (vecBack c n.toNat) (ofsTarget c ofs))) := by
  intro c
  have hback : ((lanesOf c.active).map fun l => (l, loopResult c n.toNat l)).filterMap
      (fun x => if x.2.1.any (fun w => w.2 != 0) then some (x.1, ofsTarget c ofs) else none) =
      (lanesOf (vecBack c n.toNat)).map fun l => (l, ofsTarget c ofs) := by
    rw [vecBack, lanesOf_lanesMask_filter, List.filterMap_map, ← List.filterMap_eq_map, List.filterMap_filter]
    refine congrArg (fun f => List.filterMap f (lanesOf c.active)) (funext fun l => ?_)
    simp [loopResult]
  rw [exec_loop, execLoop, issueWord_acts _ ha.1]
  dsimp only
  rw [evalLanes_ok _ _ (loopResult c n.toNat) fun l _ => loopLane_ok hn l]
  dsimp only
  rw [map_fst_lanes, hback, updGroup_eq]
  exact congrArg Host.Outcome.next (closeWord_to _ c s _ c.active _)

/-- Settles O23: a uniform counter is one write and sends all of the lanes back or none; a vector counter is a write in each lane, which goes
back by its own count. -/
theorem loopCounts : Obligations.LoopCounts := by
  intro s u h d ofs ha
  have hm : (getGroup s u.gkey).mark = false := acts_mark ha.1
  refine ⟨?_, ?_⟩
  · rintro n rfl hn
    refine ⟨_, exec_loop_uni ha hn, sentGroup_regFrame hm rfl, ?_, ?_, sentGroup_flg hm rfl, sentGroup_keepsItems hm rfl, ?_, fun k hk => ?_,
      fun l hl => ?_⟩
    · exact (sentGroup_vreg hm rfl).trans (writeRegs_vreg_none _ _ _ fun e he l k hen => by cases List.mem_singleton.1 he; cases hen)
    · exact (sentGroup_pred hm rfl).trans (writeRegs_pred_none _ _ _ fun e he l k hen => by cases List.mem_singleton.1 he; cases hen)
    · rw [sGet, sentGroup_sreg hm rfl]
      exact sGet_writeReg_same _ _ hn
    · rw [sentGroup_sreg hm rfl]
      refine sreg_writeRegs_other _ _ _ k fun e he hen => ?_
      cases List.mem_singleton.1 he
      cases hen
      exact hk rfl
    · rw [pcOf_sentGroup hm rfl hl]
      simp only [getLsbD_uniBack]
      rfl
  · rintro n rfl hn
    refine ⟨_, exec_loop_vec ha hn, sentGroup_regFrame hm rfl, ?_, ?_, sentGroup_flg hm rfl, sentGroup_keepsItems hm rfl, fun l k hl hk => ?_,
      fun l hl => ?_⟩
    · exact (sentGroup_sreg hm rfl).trans (loopWrites_sreg _ _)
    · exact (sentGroup_pred hm rfl).trans (loopWrites_pred _ _)
    · rw [vGet, sentGroup_vreg hm rfl]
      exact vGet_loopWrites _ n.isLt hl hk
    · rw [pcOf_sentGroup hm rfl hl]
      simp only [getLsbD_vecBack _ _ hl]
      rfl

end Sys2Proof.Machine
end

section
/-! SUPPORT. One cause raised by a set of lanes at one resume address: how the lanes park, and what their delivery does (R391, R392, R394,
R405); TRAP and BKPT (R185), and the statement Traps. -/

namespace Sys2Proof.Machine

/-! ## Lanes that park with one cause -/

/-- Each lane of a set raises the cause `k`, resumes at `a`, and leaves `f` in %fcode. -/
def sameRaises (m : Lanes) (k : Nat) (a : DWord) (f : Word) : List Raise := (lanesOf m).map fun l => ⟨l, k, a, 0, f, 0⟩

/-- The group with the cause noted and the registers of the raising lanes filled, before these leave the rejoin registers (R391, R392). -/
def raisedGroup (g : Group) (m : Lanes) (k : Nat) (a : DWord) (f : Word) : Group :=
  { setPcs g m a with
    cause := g.cause ||| BitVec.ofNat 32 (2 ^ k), epc := (lanesOf m).foldl (fun t l => tabPut t l a) g.epc
    fadr := (lanesOf m).foldl (fun t l => tabPut t l 0) g.fadr, fcode := (lanesOf m).foldl (fun t l => tabPut t l f) g.fcode
    parked := g.parked ||| m }

/-- The group once they have parked. -/
def parkedGroup (g : Group) (m : Lanes) (k : Nat) (a : DWord) (f : Word) : Group := leaveJoins (raisedGroup g m k a f) m

theorem tabGet_foldl_put {α : Type} (d a : α) (ls : List Nat) (t : List (Nat × α)) (l : Nat) :
    tabGet d (ls.foldl (fun t k => tabPut t k a) t) l = if l ∈ ls then a else tabGet d t l := by
  induction ls generalizing t with
  | nil => rfl
  | cons x xs ih =>
    rw [List.foldl_cons, ih, tabGet_tabPut]
    by_cases hx : l ∈ xs
    · rw [if_pos hx, if_pos (List.mem_cons_of_mem _ hx)]
    · simp [hx]

theorem sameRaises_lanes (m : Lanes) (k : Nat) (a : DWord) (f : Word) : lanesMask ((sameRaises m k a f).map (·.lane)) = m := by
  rw [sameRaises, List.map_map]
  exact (congrArg lanesMask (List.map_id _)).trans (lanesMask_lanesOf m)

section
variable {m : Lanes} {k : Nat} {a : DWord} {f : Word}

/-- One lane after another notes the same cause bit. -/
theorem foldl_raise (ls : List Nat) (g : Group) (hne : ls ≠ []) :
    (ls.map fun l => (⟨l, k, a, 0, f, 0⟩ : Raise)).foldl (fun g r => { g with
      cause := g.cause ||| BitVec.ofNat 32 (2 ^ r.cause)
      epc := tabPut g.epc r.lane r.epc
      fadr := tabPut g.fadr r.lane r.fadr
      fcode := tabPut g.fcode r.lane r.fcode
      pc := tabPut g.pc r.lane r.epc }) g =
    { g with cause := g.cause ||| BitVec.ofNat 32 (2 ^ k), epc := ls.foldl (fun t l => tabPut t l a) g.epc
             fadr := ls.foldl (fun t l => tabPut t l 0) g.fadr, fcode := ls.foldl (fun t l => tabPut t l f) g.fcode
             pc := ls.foldl (fun t l => tabPut t l a) g.pc } := by
  induction ls generalizing g with
  | nil => exact absurd rfl hne
  | cons l ls ih =>
    rw [List.map_cons, List.foldl_cons]
    by_cases hnil : ls = []
    · subst hnil; rfl
    · rw [ih _ hnil, BitVec.or_assoc, BitVec.or_self]
      rfl

theorem parkLanes_same (g : Group) (hm : m ≠ 0) : parkLanes g (sameRaises m k a f) = parkedGroup g m k a f := by
  unfold parkLanes
  dsimp only
  rw [sameRaises_lanes, sameRaises, foldl_raise _ _ fun h => hm ((lanesOf_eq_nil m).1 h)]
  rfl

/-! ## Leaving the rejoin registers -/

/-- A release on leaving moves lanes that stay, never those that leave (R148). -/
theorem pcOf_leaveJoin {g : Group} (j : Nat) {l : Nat} (hl : l < 32) (hml : m.getLsbD l = true) : pcOf (leaveJoin m g j) l = pcOf g l := by
  unfold leaveJoin
  split
  · rfl
  · next r _ =>
    rcases releaseJoin_cases (putJoin g j ⟨r.arr &&& ~~~m, r.enr &&& ~~~m, r.jpc⟩) j with h | h
    · rw [h, pcOf_putJoin]
    · rw [h, jGet_putJoin_same, pcOf_setPcs _ _ _ l hl, if_neg (by simp [hml]), pcOf_putJoin, pcOf_putJoin]

theorem pcOf_leaveJoins (g : Group) {l : Nat} (hl : l < 32) (hml : m.getLsbD l = true) : pcOf (leaveJoins g m) l = pcOf g l := by
  rw [leaveJoins_eq]
  exact List.foldlRecOn (motive := fun x => pcOf x l = pcOf g l) _ _ rfl fun x hx j _ => (pcOf_leaveJoin j hl hml).trans hx

/-- With no rejoin register in use there is none to leave. -/
theorem leaveJoins_of_none {g : Group} (m : Lanes) (h : g.rejoin = []) : leaveJoins g m = g := by
  rw [leaveJoins_eq]
  refine List.foldlRecOn (motive := fun x => x = g) _ _ rfl fun x hx j _ => ?_
  rw [hx, leaveJoin, h]
  rfl

theorem parkedGroup_frame (g : Group) : parkedGroup g m k a f =
    { raisedGroup g m k a f with pc := (parkedGroup g m k a f).pc, rejoin := (parkedGroup g m k a f).rejoin } := leaveJoins_frame _ m

/-- What parking changes in a group whose other lanes have moved on. -/
theorem parkedGroup_setPcs_frame (g : Group) (m' : Lanes) (b : DWord) : parkedGroup (setPcs g m' b) m k a f = { g with
    cause := g.cause ||| BitVec.ofNat 32 (2 ^ k), epc := (parkedGroup (setPcs g m' b) m k a f).epc
    fadr := (parkedGroup (setPcs g m' b) m k a f).fadr, fcode := (parkedGroup (setPcs g m' b) m k a f).fcode
    parked := g.parked ||| m, pc := (parkedGroup (setPcs g m' b) m k a f).pc, rejoin := (parkedGroup (setPcs g m' b) m k a f).rejoin } := by
  have hframe := parkedGroup_frame (m := m) (k := k) (a := a) (f := f) (setPcs g m' b)
  generalize parkedGroup (setPcs g m' b) m k a f = p at hframe ⊢
  rw [hframe]
  rfl

/-- The lanes that park stand at their resume address. -/
theorem pcOf_parkedGroup (g : Group) {l : Nat} (hl : l ∈ lanesOf m) : pcOf (parkedGroup g m k a f) l = a := by
  obtain ⟨hlt, hml⟩ := (mem_lanesOf m l).1 hl
  rw [parkedGroup, pcOf_leaveJoins _ hlt hml]
  exact (pcOf_setPcs g m a l hlt).trans (if_pos hml)

theorem pcOf_parkedGroup_other {g : Group} (hj : g.rejoin = []) {l : Nat} (hl : l < 32) (hml : m.getLsbD l = false) :
    pcOf (parkedGroup g m k a f) l = pcOf g l := by
  rw [parkedGroup, leaveJoins_of_none (g := raisedGroup g m k a f) m hj]
  exact (pcOf_setPcs g m a l hl).trans (if_neg (by simp [hml]))

theorem epc_parkedGroup (g : Group) (l : Nat) :
    tabGet 0 (parkedGroup g m k a f).epc l = if l ∈ lanesOf m then a else tabGet 0 g.epc l := by
  rw [parkedGroup_frame]
  exact tabGet_foldl_put _ _ _ _ _

theorem fadr_parkedGroup (g : Group) {l : Nat} (hl : l ∈ lanesOf m) : tabGet 0 (parkedGroup g m k a f).fadr l = 0 := by
  rw [parkedGroup_frame]
  exact (tabGet_foldl_put _ _ _ _ _).trans (if_pos hl)

theorem fcode_parkedGroup (g : Group) {l : Nat} (hl : l ∈ lanesOf m) : tabGet 0 (parkedGroup g m k a f).fcode l = f := by
  rw [parkedGroup_frame]
  exact (tabGet_foldl_put _ _ _ _ _).trans (if_pos hl)

/-! ## The one sub-group -/

/-- Lanes that all stand at one address are one sub-group (R394). -/
theorem byPc_same {g : Group} (hm : m ≠ 0) (hpc : ∀ l ∈ lanesOf m, pcOf g l = a) : byPc g m = [m] := by
  have hall : ∀ l ∈ lanesOf m, lanesMask ((lanesOf m).filter fun k => pcOf g k == pcOf g l) = m := fun l hl => by
    rw [List.filter_eq_self.2 fun k hk => by rw [hpc k hk, hpc l hl, beq_self_eq_true], lanesMask_lanesOf]
  obtain ⟨l, ls, hls⟩ := List.exists_cons_of_ne_nil fun h => hm ((lanesOf_eq_nil m).1 h)
  rw [byPc, List.map_congr_left hall, hls, List.map_cons, List.eraseDups_cons, List.filter_eq_nil_iff.2]
  · rfl
  · intro x hx
    obtain ⟨_, -, rfl⟩ := List.mem_map.1 hx
    simp

theorem subGroups_same {g : Group} (pc : DWord) (s2 : Bool) (hm : m ≠ 0) (hpc : ∀ l ∈ lanesOf m, pcOf g l = a) :
    subGroups g pc s2 (sameRaises m k a f) = [⟨m, pc, k == cTRN, k == cBKP, s2⟩] := by
  have hhere : (sameRaises m k a f).filter (fun r => m.getLsbD r.lane) = sameRaises m k a f := List.filter_eq_self.2 fun r hr => by
    obtain ⟨l, hl, rfl⟩ := List.mem_map.1 hr
    exact ((mem_lanesOf m l).1 hl).2
  obtain ⟨l, ls, hls⟩ := List.exists_cons_of_ne_nil fun h => hm ((lanesOf_eq_nil m).1 h)
  have hall : ∀ j, (sameRaises m k a f).all (fun r => r.cause == j) = (k == j) := fun j => by
    rw [sameRaises, hls, List.all_map]
    cases hkj : k == j <;> simp [hkj]
  rw [subGroups, sameRaises_lanes, byPc_same hm hpc]
  simp only [List.map_cons, List.map_nil, hhere, hall]

/-- Taking one cause: the lanes park, and their one sub-group is delivered. -/
theorem takeCauses_same (s : State) (gk : Nat) (pc : DWord) (s2 : Bool) (hm : m ≠ 0) (hk : k ≠ cHWE) :
    takeCauses s gk pc s2 (sameRaises m k a f) =
      deliver (setGroup s gk (parkedGroup (getGroup s gk) m k a f)) gk m pc (k == cTRN) (k == cBKP) s2 false := by
  have hne : (sameRaises m k a f).isEmpty = false := by
    rw [sameRaises, List.isEmpty_map, List.isEmpty_eq_false_iff]
    exact fun h => hm ((lanesOf_eq_nil m).1 h)
  have hno : (sameRaises m k a f).any (fun r => r.cause == cHWE) = false := List.any_eq_false.2 fun r hr => by
    obtain ⟨l, -, rfl⟩ := List.mem_map.1 hr
    simpa using hk
  have hpark : parkCauses s gk (sameRaises m k a f) = setGroup s gk (parkedGroup (getGroup s gk) m k a f) := by
    simp only [parkCauses, hno, Bool.false_eq_true, if_false, updGroup_eq, parkLanes_same _ hm]
  simp only [takeCauses, hne, Bool.false_eq_true, if_false, hpark, getGroup_setGroup_same,
    subGroups_same pc s2 hm fun l hl => pcOf_parkedGroup _ hl]
  rfl

end

/-! ## Delivery, R394 -/

/-- A group off its signatures: only its items and its marker can differ. -/
def ItemsFrame (g g' : Group) : Prop := g' = { g with outs := g'.outs, mark := g'.mark }

theorem ItemsFrame.pcOf {g g' : Group} (h : ItemsFrame g g') (l : Nat) : Machine.pcOf g' l = Machine.pcOf g l := by rw [h]; rfl

/-- Nothing in any group but items and markers, and no byte of memory or of the plaza, differs. -/
def SignsFrame (s t : State) : Prop := (∀ k, ItemsFrame (getGroup s k) (getGroup t k)) ∧ t.mem = s.mem ∧ t.plaza = s.plaza

theorem SignsFrame.refl (s : State) : SignsFrame s s := ⟨fun _ => rfl, rfl, rfl⟩

theorem SignsFrame.trans {a b c : State} (h : SignsFrame a b) (h' : SignsFrame b c) : SignsFrame a c := by
  obtain ⟨hg, hmem, hplaza⟩ := h
  obtain ⟨hg', hmem', hplaza'⟩ := h'
  refine ⟨fun k => ?_, hmem'.trans hmem, hplaza'.trans hplaza⟩
  have hab := hg k
  have hbc := hg' k
  unfold ItemsFrame at *
  rw [hbc, hab]

theorem SignsFrame.signerLeaves (s : State) (x : Sign) : SignsFrame s (signerLeaves s x) := by
  refine ⟨fun k => ?_, rfl, rfl⟩
  by_cases hk : k = x.gkey
  · rw [Machine.signerLeaves, hk, updGroup_eq, getGroup_setGroup_same]; rfl
  · rw [Machine.signerLeaves, updGroup_eq, getGroup_setGroup_other _ _ _ _ hk]; rfl

theorem SignsFrame.clearSigned (c : Nat) (s : State) (x : Sign) : SignsFrame s (clearSigned c s x) := ⟨fun _ => rfl, rfl, rfl⟩

theorem cancelSigns_signsFrame (s : State) (c : Nat) : SignsFrame s (cancelSigns s c) := by
  rw [cancelSigns_eq]
  dsimp only
  split
  · exact .refl s
  · have hleave := foldl_rel SignsFrame.refl SignsFrame.trans SignsFrame.signerLeaves (s.signs.filter fun x => x.core == c) s
    have hclear := foldl_rel SignsFrame.refl SignsFrame.trans (SignsFrame.clearSigned c) (s.signs.filter fun x => x.core == c)
      ((s.signs.filter fun x => x.core == c).foldl signerLeaves s)
    obtain ⟨hg, hmem, hplaza⟩ := hleave.trans hclear
    exact ⟨hg, hmem, hplaza⟩

theorem setMark_signsFrame (s : State) (gk : Nat) (b : Bool) : SignsFrame s (setMark s gk b) := by
  unfold setMark
  split
  · refine ⟨fun k => ?_, rfl, rfl⟩
    by_cases hk : k = gk
    · rw [hk, updGroup_eq, getGroup_setGroup_same]; rfl
    · rw [updGroup_eq, getGroup_setGroup_other _ _ _ _ hk]; rfl
  · exact .refl s

/-- The group with its lanes in the handler. -/
def handledGroup (g : Group) (m : Lanes) (h : DWord) : Group :=
  setPcs { g with hmask := g.hmask ||| m, parked := g.parked &&& ~~~m, mark := g.mark || !g.outs.isEmpty } m h

section
variable {s : State} {gk : Nat} {m : Lanes} {pc : DWord} {bkp s2 : Bool}

theorem launchOf_setGroup {g : Group} (ht : g.team = (getGroup s gk).team) : launchOf (setGroup s gk g) gk = launchOf s gk := by
  simp only [launchOf, teamOf, getGroup_setGroup_same, ht, getTeam_setGroup, getLaunch_setGroup]

theorem deliver_handled {h : DWord} (hin : m &&& (getGroup s gk).hmask = 0) (hheld : (bkp && (getFunc s (launchOf s gk).func).holdbp) = false)
    (hh : (launchOf s gk).handler = some h) : deliver s gk m pc false bkp s2 false =
      cancelSigns (setGroup s gk (handledGroup (getGroup s gk) m h)) (coreOf (setGroup s gk (handledGroup (getGroup s gk) m h)) gk) := by
  simp only [deliver, hin, ne_eq, not_true_eq_false, if_false, hheld, Bool.false_and, Bool.or_false, Bool.and_false, Bool.false_eq_true, hh]
  rfl

/-- Without a handler, or inside it, a sub-group that is not held ends its grid. -/
theorem deliver_fatal (hheld : (bkp && (getFunc s (launchOf s gk).func).holdbp) = false)
    (hf : (launchOf s gk).handler = none ∨ m &&& (getGroup s gk).hmask ≠ 0) :
    ∃ f, deliver s gk m pc false bkp s2 false = fatal s (teamOf s gk).launch f := by
  by_cases hin : m &&& (getGroup s gk).hmask = 0
  · have hh := hf.resolve_right fun h => h hin
    exact ⟨laneRecord s gk m pc 0x01 0, by
      simp only [deliver, hin, ne_eq, not_true_eq_false, if_false, hheld, Bool.false_and, Bool.or_false, Bool.and_false, Bool.false_eq_true, hh]⟩
  · exact ⟨_, if_pos hin⟩

/-- A fatal fault leaves groups and teams as they are. -/
theorem fatal_groups (s : State) (lk : Nat) (f : RecF) : (fatal s lk f).groups = s.groups ∧ (fatal s lk f).teams = s.teams := by
  have hr := fatalRecord_frame s (getLaunch s lk).func (some lk) f
  unfold RecordFrame at hr
  have hgroups : (fatalRecord s (getLaunch s lk).func (some lk) f).groups = s.groups := by rw [hr]
  have hteams : (fatalRecord s (getLaunch s lk).func (some lk) f).teams = s.teams := by rw [hr]
  exact ⟨hgroups, hteams⟩

/-- It ends a grid that is still listed (R405). -/
theorem getLaunch_fatal {lk : Nat} {l : Launch} (f : RecF) (hl : tabFind s.launches lk = some l) (hs : l.stage ≠ .retired) :
    getLaunch (fatal s lk f) lk = endWith 0x07 l := by
  have hr := fatalRecord_frame s (getLaunch s lk).func (some lk) f
  unfold RecordFrame at hr
  have hfind : tabFind (fatal s lk f).launches lk = some (endWith 0x07 l) := by
    rw [fatal, endGrid_eq]
    dsimp only
    rw [tabFind_map _ (endEntry_key _ lk), congrArg State.launches hr, hl]
    simp [endEntry, hs]
  rw [getLaunch, tabGet, hfind, Option.getD_some]

end

/-! ## TRAP and BKPT -/

section
variable {s : State} {u : Issue} {i : Instr} {k : Nat} {code : BitVec 8}

/-- The group of a TRAP or BKPT once its active lanes have parked. -/
def trappedGroup (s : State) (u : Issue) (i : Instr) (k : Nat) (code : BitVec 8) : Group :=
  parkedGroup (setPcs (getGroup s u.gkey) (u.lanes &&& ~~~(ctxOf s u i).active) (ctxOf s u i).next) (ctxOf s u i).active k (ctxOf s u i).next
    (code.zeroExtend 32)

/-- The word is not held: it is TRAP, or HOLDBP is clear. -/
def NotHeld (s : State) (u : Issue) (k : Nat) : Prop := k = cSWT ∨ (k = cBKP ∧ (getFunc s (launchOf s u.gkey).func).holdbp = false)

theorem codeWord_acts (ha : ActsOnce s u i) (hi : postSteps i = []) (hk : k ≠ cHWE) :
    codeWord i k code s = .next (setMark (deliver (setGroup s u.gkey (trappedGroup s u i k code)) u.gkey (ctxOf s u i).active u.pc
      (k == cTRN) (k == cBKP) false false) u.gkey (markOf i)) := by
  let c := ctxOf s u i
  let rs := sameRaises c.active k c.next (code.zeroExtend 32)
  have hclose : closeWord i c s 0 [] rs = setMark (takeCauses (setGroup s u.gkey
      (setPcs c.g (c.lanes &&& ~~~c.active) c.next)) u.gkey c.pc false rs) u.gkey (markOf i) := by
    simp only [closeWord, rs, sameRaises_lanes, updGroup_eq, postStep_none hi, List.foldl_nil]
    rfl
  rw [codeWord, issueWord_acts _ ha.1]
  refine congrArg Host.Outcome.next (hclose.trans ?_)
  rw [takeCauses_same _ _ _ _ ha.2 hk, setGroup_setGroup, getGroup_setGroup_same]
  rfl

theorem trappedGroup_frame : trappedGroup s u i k code = { getGroup s u.gkey with
    cause := (getGroup s u.gkey).cause ||| BitVec.ofNat 32 (2 ^ k), epc := (trappedGroup s u i k code).epc
    fadr := (trappedGroup s u i k code).fadr, fcode := (trappedGroup s u i k code).fcode
    parked := (getGroup s u.gkey).parked ||| (ctxOf s u i).active, pc := (trappedGroup s u i k code).pc
    rejoin := (trappedGroup s u i k code).rejoin } := parkedGroup_setPcs_frame _ _ _

theorem launchOf_trapped : launchOf (setGroup s u.gkey (trappedGroup s u i k code)) u.gkey = launchOf s u.gkey :=
  launchOf_setGroup (by rw [trappedGroup_frame])

theorem NotHeld.cause {k : Nat} (hk : NotHeld s u k) : k ≠ cHWE ∧ (k == cTRN) = false := by
  rcases hk with rfl | ⟨rfl, -⟩ <;> decide

theorem NotHeld.not_held (hk : NotHeld s u k) :
    (k == cBKP && (getFunc (setGroup s u.gkey (trappedGroup s u i k code))
      (launchOf (setGroup s u.gkey (trappedGroup s u i k code)) u.gkey).func).holdbp) = false := by
  rw [launchOf_trapped, getFunc_setGroup]
  rcases hk with rfl | ⟨rfl, hhold⟩
  · rfl
  · rw [hhold, Bool.and_false]

/-- With a handler, and outside it, the lanes of the word are handed to it. -/
theorem codeWord_handled {h : DWord} (ha : ActsOnce s u i) (hi : postSteps i = []) (hk : NotHeld s u k)
    (hh : (launchOf s u.gkey).handler = some h) (hin : (ctxOf s u i).active &&& (getGroup s u.gkey).hmask = 0) :
    ∃ t, codeWord i k code s = .next t ∧
      ItemsFrame (handledGroup (trappedGroup s u i k code) (ctxOf s u i).active h) (getGroup t u.gkey) ∧ t.mem = s.mem ∧ t.plaza = s.plaza := by
  let s1 := setGroup s u.gkey (trappedGroup s u i k code)
  have hgroup : getGroup s1 u.gkey = trappedGroup s u i k code := getGroup_setGroup_same _ _ _
  have hout : (ctxOf s u i).active &&& (getGroup s1 u.gkey).hmask = 0 := by rw [hgroup, trappedGroup_frame]; exact hin
  have hd := deliver_handled (s := s1) (pc := u.pc) (s2 := false) hout hk.not_held (by rw [launchOf_trapped]; exact hh)
  rw [hgroup] at hd
  refine ⟨_, codeWord_acts ha hi hk.cause.1, ?_⟩
  rw [hk.cause.2, hd]
  obtain ⟨hg, hmem, hplaza⟩ := (cancelSigns_signsFrame _ _).trans (setMark_signsFrame _ u.gkey (markOf i))
  refine ⟨?_, hmem, hplaza⟩
  have hone := hg u.gkey
  rwa [getGroup_setGroup_same] at hone

/-- Without a handler, or inside it, the lanes stay parked and the grid ends. -/
theorem codeWord_fatal {l : Launch} (ha : ActsOnce s u i) (hi : postSteps i = []) (hk : NotHeld s u k)
    (hf : (launchOf s u.gkey).handler = none ∨ (ctxOf s u i).active &&& (getGroup s u.gkey).hmask ≠ 0)
    (hl : tabFind s.launches (teamOf s u.gkey).launch = some l) (hs : l.stage ≠ .retired) :
    ∃ t, codeWord i k code s = .next t ∧ ItemsFrame (trappedGroup s u i k code) (getGroup t u.gkey) ∧
      launchOf t u.gkey = endWith 0x07 l := by
  let s1 := setGroup s u.gkey (trappedGroup s u i k code)
  have hgroup : getGroup s1 u.gkey = trappedGroup s u i k code := getGroup_setGroup_same _ _ _
  have hteam : teamOf s1 u.gkey = teamOf s u.gkey := by rw [teamOf, hgroup, trappedGroup_frame]; rfl
  obtain ⟨f, hd⟩ := deliver_fatal (s := s1) (gk := u.gkey) (m := (ctxOf s u i).active) (pc := u.pc) (s2 := false) hk.not_held
    (by rw [launchOf_trapped, hgroup, trappedGroup_frame]; exact hf)
  obtain ⟨hgroups, hteams⟩ := fatal_groups s1 (teamOf s u.gkey).launch f
  have hlaunch := getLaunch_fatal (s := s1) f hl hs
  rw [hteam] at hd
  refine ⟨_, codeWord_acts ha hi hk.cause.1, ?_⟩
  rw [hk.cause.2, hd]
  let z := fatal s1 (teamOf s u.gkey).launch f
  have hz : getGroup z u.gkey = trappedGroup s u i k code := by rw [getGroup, hgroups]; exact hgroup
  have hmarked : ItemsFrame (getGroup z u.gkey) (getGroup (setMark z u.gkey (markOf i)) u.gkey) := (setMark_signsFrame z _ _).1 _
  refine ⟨hz ▸ hmarked, ?_⟩
  have hlaunchOf : launchOf z u.gkey = endWith 0x07 l := by
    rw [launchOf, teamOf, hz, getTeam, hteams, ← hgroup]
    exact (congrArg (fun t => getLaunch z t.launch) hteam).trans hlaunch
  rw [← hlaunchOf]
  unfold setMark
  split
  · exact launchOf_setGroup rfl
  · rfl

theorem pcOf_trappedGroup {l : Nat} (hl : OnLane s u i l) : pcOf (trappedGroup s u i k code) l = (ctxOf s u i).next := pcOf_parkedGroup _ hl

theorem pcOf_trappedGroup_other (hj : (getGroup s u.gkey).rejoin = []) {l : Nat} (hl : l < 32) (hml : (ctxOf s u i).active.getLsbD l = false) :
    pcOf (trappedGroup s u i k code) l = if u.lanes.getLsbD l then (ctxOf s u i).next else pcOf (getGroup s u.gkey) l := by
  have hstays : (u.lanes &&& ~~~(ctxOf s u i).active).getLsbD l = u.lanes.getLsbD l := by
    rw [BitVec.getLsbD_and, BitVec.getLsbD_not, hml]
    simp [hl]
  rw [trappedGroup, pcOf_parkedGroup_other (by exact hj) hl hml, pcOf_setPcs _ _ _ l hl, hstays]

theorem epc_trappedGroup {l : Nat} (hl : OnLane s u i l) : tabGet 0 (trappedGroup s u i k code).epc l = (ctxOf s u i).next :=
  (epc_parkedGroup _ l).trans (if_pos hl)

theorem epc_trappedGroup_other {l : Nat} (hl : ¬ OnLane s u i l) :
    tabGet 0 (trappedGroup s u i k code).epc l = tabGet 0 (getGroup s u.gkey).epc l := (epc_parkedGroup _ l).trans (if_neg hl)

theorem fadr_trappedGroup {l : Nat} (hl : OnLane s u i l) : tabGet 0 (trappedGroup s u i k code).fadr l = 0 := by
  rw [trappedGroup]
  exact fadr_parkedGroup _ hl

theorem fcode_trappedGroup {l : Nat} (hl : OnLane s u i l) : tabGet 0 (trappedGroup s u i k code).fcode l = code.zeroExtend 32 := by
  rw [trappedGroup]
  exact fcode_parkedGroup _ hl

/-- What TRAP and BKPT change in a group whose lanes they hand to the handler. -/
theorem handled_eq {a : DWord} {g' : Group} (hg : ItemsFrame (handledGroup (trappedGroup s u i k code) (ctxOf s u i).active a) g') :
    g' = { getGroup s u.gkey with
      cause := (getGroup s u.gkey).cause ||| BitVec.ofNat 32 (2 ^ k), hmask := (getGroup s u.gkey).hmask ||| (ctxOf s u i).active
      parked := ((getGroup s u.gkey).parked ||| (ctxOf s u i).active) &&& ~~~(ctxOf s u i).active
      epc := (trappedGroup s u i k code).epc, fadr := (trappedGroup s u i k code).fadr, fcode := (trappedGroup s u i k code).fcode
      pc := (handledGroup (trappedGroup s u i k code) (ctxOf s u i).active a).pc, rejoin := (trappedGroup s u i k code).rejoin
      outs := g'.outs, mark := g'.mark } := by
  have hframe : ∀ g : Group, handledGroup g (ctxOf s u i).active a = { g with
      hmask := g.hmask ||| (ctxOf s u i).active, parked := g.parked &&& ~~~(ctxOf s u i).active
      mark := g.mark || !g.outs.isEmpty, pc := (handledGroup g (ctxOf s u i).active a).pc } := fun _ => rfl
  refine hg.trans ?_
  rw [hframe]
  generalize handledGroup (trappedGroup s u i k code) (ctxOf s u i).active a = g1
  rw [trappedGroup_frame]

/-- The same where the grid ends instead. -/
theorem parked_eq {g' : Group} (hg : ItemsFrame (trappedGroup s u i k code) g') : g' = { getGroup s u.gkey with
    cause := (getGroup s u.gkey).cause ||| BitVec.ofNat 32 (2 ^ k), parked := (getGroup s u.gkey).parked ||| (ctxOf s u i).active
    epc := (trappedGroup s u i k code).epc, fadr := (trappedGroup s u i k code).fadr, fcode := (trappedGroup s u i k code).fcode
    pc := (trappedGroup s u i k code).pc, rejoin := (trappedGroup s u i k code).rejoin, outs := g'.outs, mark := g'.mark } := by
  refine hg.trans ?_
  rw [trappedGroup_frame]

/-- A word whose meaning is to raise the cause `k` with its CODE, which is not held. -/
def RaisesCode (s : State) (u : Issue) (i : Instr) (k : Nat) (code : BitVec 8) : Prop :=
  exec i s = codeWord i k code s ∧ postSteps i = [] ∧ NotHeld s u k

theorem trap_raisesCode (h : Hdr) : RaisesCode s u (.trap h code) cSWT code := ⟨exec_trap s h code, rfl, .inl rfl⟩

theorem bkpt_raisesCode (h : Hdr) (hhold : (getFunc s (launchOf s u.gkey).func).holdbp = false) : RaisesCode s u (.bkpt h code) cBKP code :=
  ⟨exec_bkpt s h code, rfl, .inr ⟨rfl, hhold⟩⟩

end

theorem pcOf_handledGroup (g : Group) (m : Lanes) (h : DWord) {l : Nat} (hl : l < 32) :
    pcOf (handledGroup g m h) l = if m.getLsbD l then h else pcOf g l := pcOf_setPcs _ m h l hl

theorem or_and_not (x m : Lanes) : (x ||| m) &&& ~~~m = x &&& ~~~m := by
  ext k hk
  cases hm : m[k] <;> simp [hm]

/-- Settles O26: the active lanes park with their one cause, as one sub-group; the delivery hands that to the handler, or ends the grid. -/
theorem traps : Obligations.Traps := by
  refine ⟨fun s u i h code k a hi ha hh hin => ?_, fun s u i h code hi ha hf hlisted hs hfate => ?_⟩
  · have hraises : RaisesCode s u i k code := by
      rcases hi with ⟨rfl, rfl⟩ | ⟨rfl, rfl, hhold⟩
      · exact trap_raisesCode h
      · exact bkpt_raisesCode h hhold
    obtain ⟨hex, hpost, hk⟩ := hraises
    obtain ⟨t, ht, hitems, hmem, hplaza⟩ := codeWord_handled (code := code) ha hpost hk hh hin
    refine ⟨t, hex.trans ht, ?_⟩
    have heq := handled_eq hitems
    have hepc : (getGroup t u.gkey).epc = (trappedGroup s u i k code).epc := by rw [heq]
    have hfadr : (getGroup t u.gkey).fadr = (trappedGroup s u i k code).fadr := by rw [heq]
    have hfcode : (getGroup t u.gkey).fcode = (trappedGroup s u i k code).fcode := by rw [heq]
    refine ⟨fun l hl => ⟨?_, ?_, ?_, ?_⟩, by rw [heq], by rw [heq]; exact or_and_not _ _, by rw [heq], fun hj l hl hout => ?_, fun l hout => ?_,
      by rw [heq], by rw [heq], by rw [heq], by rw [heq], by rw [heq], by rw [heq], by rw [heq], hmem, hplaza⟩
    · obtain ⟨hlt, hact⟩ := (mem_lanesOf _ l).1 hl
      rw [hitems.pcOf, pcOf_handledGroup _ _ a hlt, if_pos hact]
    · rw [hepc, epc_trappedGroup hl]
    · rw [hfadr, fadr_trappedGroup hl]
    · rw [hfcode, fcode_trappedGroup hl]
    · have hact : (ctxOf s u i).active.getLsbD l = false := Bool.eq_false_iff.2 fun hact => hout ((mem_lanesOf _ l).2 ⟨hl, hact⟩)
      rw [hitems.pcOf, pcOf_handledGroup _ _ a hl, hact, if_neg Bool.false_ne_true, pcOf_trappedGroup_other hj hl hact]
    · rw [hepc, epc_trappedGroup_other hout]
  · have hraises : ∃ k, RaisesCode s u i k code := by
      rcases hi with rfl | ⟨rfl, hhold⟩
      · exact ⟨_, trap_raisesCode h⟩
      · exact ⟨_, bkpt_raisesCode h hhold⟩
    obtain ⟨k, hex, hpost, hk⟩ := hraises
    obtain ⟨l, hl⟩ := Option.isSome_iff_exists.1 hlisted
    have hlaunch : launchOf s u.gkey = l := by rw [launchOf, getLaunch, tabGet, hl, Option.getD_some]
    rw [hlaunch] at hs hfate
    obtain ⟨t, ht, hitems, hend⟩ := codeWord_fatal (code := code) ha hpost hk hf hl hs
    refine ⟨t, hex.trans ht, ?_⟩
    have heq := parked_eq hitems
    have hepc : (getGroup t u.gkey).epc = (trappedGroup s u i k code).epc := by rw [heq]
    refine ⟨?_, by rw [hend]; rfl, by rw [heq], by rw [heq], fun l hl => ⟨?_, ?_⟩⟩
    · simp [hend, endWith, gridEnded, hfate]
    · rw [hitems.pcOf, pcOf_trappedGroup hl]
    · rw [hepc, epc_trappedGroup hl]

end Sys2Proof.Machine
end

section
/-! SUPPORT. Floating-point words with a register result (R208 to R218), and the statement FloatResults. -/

namespace Sys2Proof.Machine

/-! ## Lanes of one and two sources -/

section
variable {i : Instr} {ty : FTy} {rnd : Rnd} {noQ wide : Bool} {d a b : Spec} {s : State} {c : Ctx} {l x : Nat} {fl : Flags}

theorem fUn_of_fval1 {f : Ty → Nat → Nat × Flags} (hv : fval1 ty a f s c l = some (x, fl)) (hc : CanWrite c l (fWide ty) d) :
    fUn c l ty d a f = .ok (valWrites c l (fWide ty) d x, fl) := by
  obtain ⟨xa, hxa, hv⟩ := Option.map_eq_some_iff.1 hv
  rw [fUn, bind_of_ok (fOpnd_of_fVal hxa), hv]
  exact laneValue_ok x fl hc

theorem fBin_of_fval2 {f : Ty → Nat → Nat → Nat × Flags} (hv : fval2 ty a b f s c l = some (x, fl)) (hc : CanWrite c l (fWide ty) d) :
    fBin c l ty d a b f = .ok (valWrites c l (fWide ty) d x, fl) := by
  obtain ⟨xa, hxa, hv⟩ := Option.bind_eq_some_iff.1 hv
  obtain ⟨xb, hxb, hv⟩ := Option.map_eq_some_iff.1 hv
  rw [fBin, bind_of_ok (fOpnd_of_fVal hxa), bind_of_ok (fOpnd_of_fVal hxb), hv]
  exact laneValue_ok x fl hc

/-! ## Words -/

/-- A floating-point word of per-lane values does what both statements about words of registers say in the modes that it accepts,
whichever class it has (R209, R216, R218). -/
theorem floatWord_results {val : State → Ctx → Nat → Option (Nat × Flags)} (f : Ctx → Nat → Except Nat LaneRes)
    (hx : ∀ s, exec i s = floatWord i ty rnd noQ s f) (he : wellFormed i = true → EvenPair wide d)
    (hf : ∀ s c l x fl, val s c l = some (x, fl) → CanWrite c l wide d → f c l = .ok (valWrites c l wide d x, fl)) :
    WritesRegs i ⟨wide, d, floatMode ty rnd noQ, val⟩ ∧ QueuesRegs i ⟨wide, d, floatMode ty rnd noQ, val⟩ :=
  have hacts : ∀ s u, Acts s u i → floatMode ty rnd noQ (getGroup s u.gkey) = true →
      exec i s = .next (classWord i (ctxOf s u i) s (evalLanes (ctxOf s u i) (f (ctxOf s u i)))) :=
    fun s _ ha hm => (hx s).trans (floatWord_acts f ha hm)
  ⟨laneWord_writes (fun _ => f) (fun s u ha hm _ => hacts s u ha hm) he hf,
    laneWord_queues (fun _ => f) (fun s u ha hm _ => hacts s u ha hm) hf⟩

theorem floatUn_results {f : Ty → Nat → Nat × Flags} (hx : ∀ s, exec i s = floatWord i ty rnd noQ s fun c l => fUn c l ty d a f)
    (he : wellFormed i = true → EvenPair (fWide ty) d) :
    WritesRegs i ⟨fWide ty, d, floatMode ty rnd noQ, fval1 ty a f⟩ ∧ QueuesRegs i ⟨fWide ty, d, floatMode ty rnd noQ, fval1 ty a f⟩ :=
  floatWord_results _ hx he fun _ _ _ _ _ => fUn_of_fval1

theorem floatBin_results {f : Ty → Nat → Nat → Nat × Flags} (hx : ∀ s, exec i s = floatWord i ty rnd noQ s fun c l => fBin c l ty d a b f)
    (he : wellFormed i = true → EvenPair (fWide ty) d) :
    WritesRegs i ⟨fWide ty, d, floatMode ty rnd noQ, fval2 ty a b f⟩ ∧ QueuesRegs i ⟨fWide ty, d, floatMode ty rnd noQ, fval2 ty a b f⟩ :=
  floatWord_results _ hx he fun _ _ _ _ _ => fBin_of_fval2

end

/-- The destination of FMAC is its first operand in either form (R109). -/
theorem fmac_first (h : Hdr) (ty : FTy) (rnd : Rnd) (sat : Bool) (d a b e : Spec) :
    (opnds (.fmac h ty rnd sat d a b e)).head?.map (fun o => (o.wide, o.sp)) = some (fWide ty, d) := by
  simp only [opnds]
  split <;> rfl

/-- FMAC reads its addend, and then computes from its two factors as a word of two sources does (R210). -/
theorem fmac_results (h : Hdr) (ty : FTy) (rnd : Rnd) (sat : Bool) (d a b e : Spec) {op : RegOp}
    (ho : floatOp (.fmac h ty rnd sat d a b e) = some op) :
    WritesRegs (.fmac h ty rnd sat d a b e) op ∧ QueuesRegs (.fmac h ty rnd sat d a b e) op := by
  cases ho
  refine floatWord_results _ (fun s => exec_fmac s h ty rnd sat d a b e) (evenPair_first (fmac_first ..)) fun s c l x fl hv hc => ?_
  obtain ⟨z, hz, hv⟩ := Option.bind_eq_some_iff.1 hv
  rw [bind_of_ok (fOpnd_of_fVal hz)]
  exact fBin_of_fval2 hv hc

/-- FCLASS writes its mask to one register, whatever the width of its source (R214). -/
theorem fclass_results (h : Hdr) (ty : FTy) (d a : Spec) {op : RegOp} (ho : floatOp (.fclass h ty d a) = some op) :
    WritesRegs (.fclass h ty d a) op ∧ QueuesRegs (.fclass h ty d a) op := by
  cases ho
  refine floatWord_results _ (fun s => exec_fclass s h ty d a) (evenPair_first rfl) fun s c l x fl hv hc => ?_
  obtain ⟨xa, hxa, hv⟩ := Option.map_eq_some_iff.1 hv
  cases hv
  rw [bind_of_ok (fOpnd_of_fVal hxa)]
  exact laneValue_ok _ _ hc

/-- Settles O14: each word evaluates its lanes to the value and the flags that `floatOp` gives it from its sources under the acting type, and
in a mode that it accepts a word of such lanes writes or queues its results. -/
theorem floatResults : Obligations.FloatResults := by
  intro i op ho
  cases i with
  | fadd | fsub | fmul | fdiv | fmin | fmax =>
    cases ho
    exact floatBin_results (fun _ => rfl) (evenPair_first rfl)
  | fabs | fneg | frnd | fsqrt =>
    cases ho
    exact floatUn_results (fun _ => rfl) (evenPair_first rfl)
  | fmac h ty rnd sat d a b e => exact fmac_results h ty rnd sat d a b e ho
  | fclass h ty d a => exact fclass_results h ty d a ho
  | _ => cases ho

end Sys2Proof.Machine
end

section
/-! SUPPORT. Signs of floating-point values (R212), conversions and the building and reading of Q32 words (R220 to R226), and the statements
FloatSigns and ConversionResults. -/

namespace Sys2Proof.Machine

/-! ## Words of registers described by other values -/

section
variable {i : Instr} {wide : Bool} {d : Spec} {ok ok' : Group → Bool} {val val' : State → Ctx → Nat → Option (Nat × Flags)}

/-- What a word of registers does holds of any values that agree with its own in the modes that are asked for. -/
theorem registerResults_congr (h : WritesRegs i ⟨wide, d, ok, val⟩ ∧ QueuesRegs i ⟨wide, d, ok, val⟩)
    (hagree : ∀ s u, ok' (getGroup s u.gkey) = true →
      ok (getGroup s u.gkey) = true ∧ val s (ctxOf s u i) = val' s (ctxOf s u i)) :
    WritesRegs i ⟨wide, d, ok', val'⟩ ∧ QueuesRegs i ⟨wide, d, ok', val'⟩ := by
  obtain ⟨hwrites, hqueues⟩ := h
  constructor
  · intro s u ha hclass hok
    obtain ⟨hok, hval⟩ := hagree s u hok
    have hw := hwrites s u ha hclass hok
    simp only [hval] at hw
    exact hw
  · intro s u ha hclass hok
    obtain ⟨hok, hval⟩ := hagree s u hok
    have hq := hqueues s u ha hclass hok
    simp only [hval] at hq
    exact hq

end

/-! ## Sign bits, R212 -/

/-- Outside Q32, a floating-point word acts on the IEEE-style type that it names (R216). -/
theorem fAct_ieee {c : Ctx} {ty : FTy} (h : actsQ32 c.g.rat ty = false) : fAct c ty = fTy ty := by simp [fAct, h]

theorem fTy_ne_q32 {ty : FTy} (h : ty ≠ .q32) : fTy ty ≠ .q32 := by cases ty <;> simp [fTy] at h ⊢

/-- FABS and FNEG accept an IEEE-style type whenever it does not stand for Q32 (R216). -/
theorem floatMode_ieee {ty : FTy} {g : Group} (hty : ty ≠ .q32) (hq : actsQ32 g.rat ty = false) : floatMode ty .rn false g = true := by
  simp [floatMode, hty, hq]

/-- A floating-point source is a code of its acting type (R208). -/
theorem fVal_lt {c : Ctx} {l x : Nat} {ty : FTy} {a : Spec} (h : fVal c l ty a = some x) : x < 2 ^ tyBits (fAct c ty) := by
  have hx := fOpnd_of_fVal h
  unfold fOpnd at hx
  cases hr : readOp c l (fAct c ty) a with
  | ok y => rw [hr] at hx; cases hx; exact Nat.mod_lt _ (Nat.two_pow_pos _)
  | error k => rw [hr] at hx; cases hx

/-- Values computed from one source agree when they do on the codes of the acting type. -/
theorem fval1_congr {s : State} {c : Ctx} {ty : FTy} {a : Spec} {f f' : Ty → Nat → Nat × Flags}
    (h : ∀ x, x < 2 ^ tyBits (fAct c ty) → f (fAct c ty) x = f' (fAct c ty) x) : fval1 ty a f s c = fval1 ty a f' s c := by
  funext l
  exact Option.map_congr fun x hx => h x (fVal_lt hx)

/-- Adding the sign bit modulo the width inverts it. -/
theorem xor_sign_bit {n x : Nat} (hn : 0 < n) (hx : x < 2 ^ n) : x ^^^ 2 ^ (n - 1) = (x + 2 ^ (n - 1)) % 2 ^ n := by
  refine Nat.eq_of_testBit_eq fun i => ?_
  rw [Nat.testBit_xor, Nat.testBit_two_pow, Nat.testBit_mod_two_pow, Nat.add_comm x]
  rcases Nat.lt_trichotomy i (n - 1) with hbelow | rfl | habove
  · have hin : i < n := by omega
    rw [Nat.testBit_two_pow_add_gt hbelow, decide_eq_false (Nat.ne_of_gt hbelow), decide_eq_true hin, Bool.xor_false, Bool.true_and]
  · have hin : n - 1 < n := by omega
    rw [Nat.testBit_two_pow_add_eq, decide_eq_true rfl, decide_eq_true hin, Bool.xor_true, Bool.true_and]
  · have hout : ¬ i < n := by omega
    have hclear : x.testBit i = false :=
      Nat.testBit_lt_two_pow (Nat.lt_of_lt_of_le hx (Nat.pow_le_pow_right Nat.two_pos (Nat.le_of_not_lt hout)))
    rw [hclear, decide_eq_false (Nat.ne_of_lt habove), decide_eq_false hout, Bool.xor_false, Bool.false_and]

theorem tyBits_pos (t : Ty) : 0 < tyBits t := by cases t <;> simp [tyBits]

theorem fabsRes_ieee {t : Ty} (ht : t ≠ .q32) (x : Nat) : fabsRes t x = x % 2 ^ (tyBits t - 1) := if_neg ht

theorem fnegRes_ieee {t : Ty} {x : Nat} (ht : t ≠ .q32) (hx : x < 2 ^ tyBits t) : fnegRes t x = (x + 2 ^ (tyBits t - 1)) % 2 ^ tyBits t :=
  (if_neg ht).trans (xor_sign_bit (tyBits_pos t) hx)

/-- A word of one floating-point source may be described on an IEEE-style type alone, in the modes in which that is its acting type. -/
theorem floatUn_ieee {i : Instr} {ty : FTy} {d a : Spec} {f f' : Ty → Nat → Nat × Flags} (hty : ty ≠ .q32)
    (h : WritesRegs i ⟨fWide ty, d, floatMode ty .rn false, fval1 ty a f⟩ ∧
      QueuesRegs i ⟨fWide ty, d, floatMode ty .rn false, fval1 ty a f⟩)
    (hf : ∀ t x, t ≠ .q32 → x < 2 ^ tyBits t → f t x = f' t x) :
    WritesRegs i ⟨fWide ty, d, fun g => !actsQ32 g.rat ty, fval1 ty a f'⟩ ∧
      QueuesRegs i ⟨fWide ty, d, fun g => !actsQ32 g.rat ty, fval1 ty a f'⟩ := by
  refine registerResults_congr h fun s u hok => ?_
  have hq : actsQ32 (getGroup s u.gkey).rat ty = false := by simpa using hok
  have hact : fAct (ctxOf s u i) ty ≠ .q32 := by
    rw [fAct_ieee (c := ctxOf s u i) hq]
    exact fTy_ne_q32 hty
  exact ⟨floatMode_ieee hty hq, fval1_congr fun x hx => hf _ x hact hx⟩

/-- Settles O10: on an IEEE-style type the values that FABS and FNEG compute are the source with its sign bit cleared or inverted. -/
theorem floatSigns : Obligations.FloatSigns := by
  intro h ty d a hty
  obtain ⟨hw, hq⟩ := floatUn_ieee hty (floatResults (.fabs h ty d a) _ rfl) fun t x ht _ => by rw [fabsRes_ieee ht]
  obtain ⟨hw', hq'⟩ := floatUn_ieee hty (floatResults (.fneg h ty d a) _ rfl) fun t x ht hx => by rw [fnegRes_ieee ht hx]
  exact ⟨hw, hq, hw', hq'⟩

/-! ## Conversion, R220 to R222 -/

/-- A destination of CVT that is a pair stands at an even register (R101). -/
theorem cvt_evenPair (h : Hdr) (dty sty : Ty) (rnd : Rnd) (sat : Bool) (del sel : BitVec 3) (d a : Spec)
    (hw : wellFormed (.cvt h dty sty rnd sat del sel d a) = true) : EvenPair (tyWide dty) d := by
  cases hwide : tyWide dty with
  | false => exact fun _ _ hf => nomatch hf
  | true => exact evenPair_first (by simp [opnds, hwide, wrO]) hw

/-- CVT writes a whole register or pair, or one element of the register as it stands (R221). -/
theorem cvt_results (h : Hdr) (dty sty : Ty) (rnd : Rnd) (sat : Bool) (del sel : BitVec 3) (d a : Spec) {op : RegOp}
    (ho : convOp (.cvt h dty sty rnd sat del sel d a) = some op) :
    WritesRegs (.cvt h dty sty rnd sat del sel d a) op ∧ QueuesRegs (.cvt h dty sty rnd sat del sel d a) op := by
  simp only [convOp] at ho
  split at ho
  · next hnarrow =>
    cases ho
    refine laneWord_results _ (fun s => exec_cvt s h dty sty rnd sat del sel d a) (fun _ _ _ hf => nomatch hf) fun s c l x fl hv hc => ?_
    obtain ⟨y, ha, hv⟩ := Option.bind_eq_some_iff.1 hv
    obtain ⟨w, hd, hv⟩ := Option.map_eq_some_iff.1 hv
    cases hv
    rw [bind_of_ok (readOp_of_opVal ha)]
    exact (if_pos hnarrow).trans ((bind_of_ok (readOp_of_opVal hd) _).trans (laneValue_ok _ _ hc))
  · next hnarrow =>
    cases ho
    refine laneWord_results _ (fun s => exec_cvt s h dty sty rnd sat del sel d a) (cvt_evenPair h dty sty rnd sat del sel d a)
      fun s c l x fl hv hc => ?_
    obtain ⟨y, ha, hv⟩ := Option.map_eq_some_iff.1 hv
    rw [bind_of_ok (readOp_of_opVal ha), hv]
    exact (if_neg hnarrow).trans (laneValue_ok _ _ hc)

/-! ## Q32 words, R223 to R226 -/

section
variable {i : Instr} {wide : Bool} {t : Ty} {d a b : Spec}

/-- A word that computes a value with its flags from one source. -/
theorem flagUn_results {f : Nat → Nat × Flags}
    (hx : ∀ s, exec i s = laneWord i s fun c l => do
      let x ← readOp c l t a
      let ws ← writesTo c l wide d (f x).1
      return (ws, (f x).2))
    (he : wellFormed i = true → EvenPair wide d) :
    WritesRegs i ⟨wide, d, anyMode, fun _ c l => (opVal c l t a).map f⟩ ∧
      QueuesRegs i ⟨wide, d, anyMode, fun _ c l => (opVal c l t a).map f⟩ := by
  refine laneWord_results _ hx he fun s c l x fl hv hc => ?_
  obtain ⟨y, ha, hv⟩ := Option.map_eq_some_iff.1 hv
  rw [bind_of_ok (readOp_of_opVal ha), hv]
  exact laneValue_ok _ _ hc

/-- A word that computes a value with its flags from two sources. -/
theorem flagBin_results {f : Nat → Nat → Nat × Flags}
    (hx : ∀ s, exec i s = laneWord i s fun c l => do
      let x ← readOp c l t a
      let y ← readOp c l t b
      let ws ← writesTo c l wide d (f x y).1
      return (ws, (f x y).2))
    (he : wellFormed i = true → EvenPair wide d) :
    WritesRegs i ⟨wide, d, anyMode, fun _ c l => (opVal c l t a).bind fun x => (opVal c l t b).map fun y => f x y⟩ ∧
      QueuesRegs i ⟨wide, d, anyMode, fun _ c l => (opVal c l t a).bind fun x => (opVal c l t b).map fun y => f x y⟩ := by
  refine laneWord_results _ hx he fun s c l x fl hv hc => ?_
  obtain ⟨y, ha, hv⟩ := Option.bind_eq_some_iff.1 hv
  obtain ⟨z, hb, hv⟩ := Option.map_eq_some_iff.1 hv
  rw [bind_of_ok (readOp_of_opVal ha), bind_of_ok (readOp_of_opVal hb), hv]
  exact laneValue_ok _ _ hc

end

/-- The numerator of a Q32 word in two's complement, with the flag that a NaN raises (R225). -/
def qnumRes (w64 : Bool) (x : Nat) : Nat × Flags :=
  match qPair x with
  | some q => (ofInt (if w64 then 64 else 32) q.1, 0)
  | none => (0, fIV)

/-- The denominator of a Q32 word, with the flag that a NaN raises (R225). -/
def qdenRes (x : Nat) : Nat × Flags :=
  match qPair x with
  | some q => (q.2, 0)
  | none => (0, fIV)

theorem exec_qnum_lanes (h : Hdr) (w64 : Bool) (d a : Spec) (s : State) :
    exec (.qnum h w64 d a) s = laneWord (.qnum h w64 d a) s fun c l => do
      let x ← readOp c l .q32 a
      let ws ← writesTo c l w64 d (qnumRes w64 x).1
      return (ws, (qnumRes w64 x).2) := by
  rw [exec_qnum, execQnum]
  congr 1; funext c l; congr 1; funext x
  cases hp : qPair x with
  | some q => simp [qnumRes, hp]
  | none => simp [qnumRes, hp, ofInt]

theorem exec_qden_lanes (h : Hdr) (w64 : Bool) (d a : Spec) (s : State) :
    exec (.qden h w64 d a) s = laneWord (.qden h w64 d a) s fun c l => do
      let x ← readOp c l .q32 a
      let ws ← writesTo c l w64 d (qdenRes x).1
      return (ws, (qdenRes x).2) := by
  rw [exec_qden, execQden]
  congr 1; funext c l; congr 1; funext x
  cases hp : qPair x with
  | some q => simp [qdenRes, hp]
  | none => simp [qdenRes, hp]

/-- Settles O15: each word evaluates its lanes to the value and the flags that `convOp` gives it from its sources, and a word of such lanes
writes or queues its results. -/
theorem conversionResults : Obligations.ConversionResults := by
  intro i op ho
  cases i with
  | cvt h dty sty rnd sat del sel d a => exact cvt_results h dty sty rnd sat del sel d a ho
  | qmake | qmed =>
    cases ho
    exact flagBin_results (fun _ => rfl) (evenPair_first rfl)
  | qnum h w d a =>
    cases ho
    exact flagUn_results (f := qnumRes w) (exec_qnum_lanes h w d a) (evenPair_first rfl)
  | qden h w d a =>
    cases ho
    exact flagUn_results (f := qdenRes) (exec_qden_lanes h w d a) (evenPair_first rfl)
  | _ => cases ho

end Sys2Proof.Machine
end

section
/-! SUPPORT. The special function queue (R227 to R229), and words that only queue an item (R230, R279, R280, R286, R380, R383); the
statements SfqTakesToken and WaitWords. -/

namespace Sys2Proof.Machine

/-! ## SFQ, R227 to R229 -/

theorem getGroup_countEv (s : State) (c code n k : Nat) : getGroup (countEv s c code n) k = getGroup s k := by
  unfold countEv
  split <;> rfl

theorem writeReg_sfn (sr : Nat) (g : Group) (t : Tgt) (w : Word) : (writeReg sr g t w).sfn = g.sfn := by
  have hframe : (writeRegs sr g [(t, w)]).sfn = g.sfn := by rw [writeRegs_frame]
  exact hframe

/-- The value of a special function with the flags that it raises (R229). -/
def sfqVal (fn : SfqFn) (ty : FTy) (x : Nat) : Nat × Flags :=
  finish (fTy ty) .rn false (sfqRes fn (tyVal (fTy ty) (x % 2 ^ tyBits (fTy ty))))

/-- What SFQ computes for a lane whose operand can be read. -/
def sfqLane (fn : SfqFn) (ty : FTy) (d a : Spec) (c : Ctx) (l : Nat) : LaneRes :=
  valRes c l false d ((opVal c l (fTy ty) a).map (sfqVal fn ty))

/-- The results of an SFQ, which its item holds until they are written. -/
def sfqWrites (fn : SfqFn) (ty : FTy) (d a : Spec) (c : Ctx) : List (Tgt × Word) := laneWrites c (sfqLane fn ty d a c)

/-- The group of an SFQ that has taken its token: the number stands in its uniform register, and the results wait in an item (R228). -/
def tokenTaken (fn : SfqFn) (ty : FTy) (d a : Spec) (n : BitVec 8) (c : Ctx) : Group :=
  pushOut { writeReg c.l.sregs c.g (.s n.toNat) (BitVec.ofNat 32 c.g.sfn.toNat) with sfn := c.g.sfn + 1 } c.pc c.next c.active
    (.sfq fn ty c.g.sfn.toNat (sfqWrites fn ty d a c) ((laneFlags c (sfqLane fn ty d a c)).filter fun e => e.2 ≠ 0))
    ((sfqWrites fn ty d a c).map (·.1))

/-- The lanes of an SFQ all complete, when each can read its operand and write its destination. -/
theorem sfqLanes_ok {fn : SfqFn} {ty : FTy} {d a : Spec} {c : Ctx}
    (hl : ∀ l ∈ lanesOf c.active, (opVal c l (fTy ty) a).isSome ∧ CanWrite c l false d) :
    evalLanes c (fun l => do
      let x ← readOp c l (fTy ty) a
      let ws ← writesTo c l false d (sfqVal fn ty x).1
      return (ws, (sfqVal fn ty x).2)) = ((lanesOf c.active).map fun l => (l, sfqLane fn ty d a c l), []) := by
  refine evalLanes_ok c _ _ fun l hon => ?_
  obtain ⟨hx, hc⟩ := hl l hon
  obtain ⟨x, hx⟩ := Option.isSome_iff_exists.1 hx
  rw [bind_of_ok (readOp_of_opVal hx), sfqLane, hx]
  exact laneValue_ok _ _ hc

/-- Outside RAT, with an active lane and no cause, SFQ takes its token (R218, R228). -/
theorem exec_sfq_takes {s : State} {u : Issue} {h : Hdr} {fn : SfqFn} {ty : FTy} {d a : Spec} {n : BitVec 8} {i : Instr} {c : Ctx}
    (hi : i = .sfq h fn ty d a (.s n)) (hc : c = ctxOf s u i) (ha : ActsOnce s u i) (hrat : c.g.rat = false)
    (hl : ∀ l ∈ lanesOf c.active, (opVal c l (fTy ty) a).isSome ∧ CanWrite c l false d) :
    exec i s = .next (passedIn (countEv s c.core 0x08 1) s u i (tokenTaken fn ty d a n c)) := by
  have hgk : c.gk = u.gkey := by rw [hc]; rfl
  have hg : c.g = getGroup s c.gk := by rw [hc]; rfl
  have hactive : c.active ≠ 0 := hc ▸ ha.2
  have hlanes := sfqLanes_ok (fn := fn) hl
  simp only [sfqVal] at hlanes
  have hex : exec i s = execSfq h fn ty d a (.s n) s := by rw [hi, exec_sfq]
  rw [hex]
  unfold execSfq
  rw [← hi, onceWord_acts _ ha.1 ha.2, ← hc]
  simp only [hrat, Bool.false_eq_true, if_false, hlanes, map_fst_lanes, if_neg hactive, updGroup_eq, getGroup_countEv, closeWord_ok]
  simp only [passedIn, ← hc, ← hgk, ← hg, tokenTaken, writeReg_sfn, sfqWrites, laneWrites, laneFlags, List.map_map, Function.comp_def]

/-- Settles O32: the lanes of an SFQ all complete, so that it takes its token, and a lane's result is among the writes that its item holds. -/
theorem sfqTakesToken : Obligations.SfqTakesToken := by
  intro s u h fn ty d a n ha i g c hrat hl
  refine ⟨_, _, exec_sfq_takes rfl rfl ha hrat hl, fun l x r hon hx hr => ?_⟩
  refine mem_allWrites_map.2 ⟨l, hon, ?_, fun hu => nomatch hu⟩
  have hval : (sfqLane fn ty d a c l).1 = valWrites c l false d (sfqVal fn ty x).1 := by rw [sfqLane, hx]; rfl
  rw [hval]
  exact valWrites_lo _ hr

/-! ## Words that only queue an item -/

/-- A word that only queues an item leaves its group with that item, and its lanes behind the word (R264). -/
theorem exec_queues {s : State} {u : Issue} {i : Instr} {w : Ctx → State → Work} {live : List Tgt} (ha : ActsOnce s u i)
    (hx : exec i s = onceWord i s fun c s =>
      closeWord i c (updGroup s c.gk fun g => pushOut g c.pc c.next c.active (w c s) live) c.active [] []) :
    exec i s = .next (passed s u i (queued s u i (w (ctxOf s u i) s) live)) := by
  obtain ⟨hacts, hactive⟩ := ha
  rw [hx, onceWord_acts _ hacts hactive]
  exact congrArg Host.Outcome.next (closeWord_ok i (ctxOf s u i) s _ _)

section
variable {s : State} {u : Issue} {h : Hdr} {m : Spec} {x : Nat}

theorem exec_sfw_queues (ha : ActsOnce s u (.sfw h m)) (hx : uniVal s u (.sfw h m) .n32 m = some x) :
    exec (.sfw h m) s = .next (passed s u (.sfw h m) (queued s u (.sfw h m) (.sfw (BitVec.ofNat 8 x)) [])) := by
  rw [exec_queues (w := fun c _ => .sfw (BitVec.ofNat 8 (readUni c .n32 m))) ha rfl, readUni_of_opVal hx]

theorem exec_sft_queues {n : BitVec 8} (ha : ActsOnce s u (.sft h (.s n) m)) (hx : uniVal s u (.sft h (.s n) m) .n32 m = some x) :
    exec (.sft h (.s n) m) s = .next (passed s u (.sft h (.s n) m) (queued s u (.sft h (.s n) m)
      (.result [(.s n.toNat, (BitVec.ofNat 8 x &&& ~~~(tokensBusy (getGroup s u.gkey))).setWidth 32)] []) [.s n.toNat])) := by
  rw [exec_queues (live := [.s n.toNat])
    (w := fun c _ => .result [(.s n.toNat, (BitVec.ofNat 8 (readUni c .n32 m) &&& ~~~(tokensBusy c.g)).setWidth 32)] []) ha rfl,
    readUni_of_opVal hx]
  rfl

theorem exec_xwaita_queues (ha : ActsOnce s u (.xwaita h m)) (hx : uniVal s u (.xwaita h m) .i64 m = some x) :
    exec (.xwaita h m) s = .next (passed s u (.xwaita h m) (queued s u (.xwaita h m) (.waitAny (BitVec.ofNat 64 x)) [])) := by
  rw [exec_queues (w := fun c _ => .waitAny (BitVec.ofNat 64 (readUni c .i64 m))) ha rfl, readUni_of_opVal hx]

theorem exec_xwaitl_queues (ha : ActsOnce s u (.xwaitl h m)) (hx : uniVal s u (.xwaitl h m) .i64 m = some x) :
    exec (.xwaitl h m) s = .next (passed s u (.xwaitl h m) (queued s u (.xwaitl h m) (.waitAll (BitVec.ofNat 64 x)) [])) := by
  rw [exec_queues (w := fun c _ => .waitAll (BitVec.ofNat 64 (readUni c .i64 m))) ha rfl, readUni_of_opVal hx]

theorem exec_xfind_queues {n : BitVec 8} (ha : ActsOnce s u (.xfind h (.s n) m)) (hx : uniVal s u (.xfind h (.s n) m) .i64 m = some x) :
    exec (.xfind h (.s n) m) s = .next (passed s u (.xfind h (.s n) m) (queued s u (.xfind h (.s n) m)
      (.result [(.s n.toNat, xfindRes (teamOf s u.gkey).done (teamOf s u.gkey).err (BitVec.ofNat 64 x))] []) [.s n.toNat])) := by
  rw [exec_queues (live := [.s n.toNat])
    (w := fun c s =>
      .result [(.s n.toNat, xfindRes (getTeam s c.g.team).done (getTeam s c.g.team).err (BitVec.ofNat 64 (readUni c .i64 m)))] []) ha rfl,
    readUni_of_opVal hx]
  rfl

end

/-! ## Wait items, R230, R279 -/

/-- Every bit of a mask is set in a word exactly when none is clear. -/
theorem not_and_eq_zero_iff {n : Nat} (x m : BitVec n) : ~~~x &&& m = 0 ↔ x &&& m = m := by
  rw [BitVec.eq_of_getLsbD_eq_iff, BitVec.eq_of_getLsbD_eq_iff]
  refine forall₂_congr fun j hj => ?_
  simp only [BitVec.getLsbD_and, BitVec.getLsbD_not, hj, BitVec.ofNat_eq_ofNat, BitVec.getLsbD_zero]
  cases x.getLsbD j <;> simp

section
variable {s : State} {k : Nat} {o : Out}

theorem settleOut_waitAny {m : DWord} (ho : o.work = .waitAny m) :
    settleOut s k o = if m = 0 ∨ (teamOf s k).done &&& m ≠ 0 then updGroup s k fun g => retire g o.seq else s := by
  simp only [settleOut, ho, Bool.or_eq_true, decide_eq_true_eq]

theorem settleOut_waitAll {m : DWord} (ho : o.work = .waitAll m) :
    settleOut s k o = if (teamOf s k).done &&& m = m then updGroup s k fun g => retire g o.seq else s := by
  simp only [settleOut, ho, not_and_eq_zero_iff]

theorem settleOut_sfw {m : BitVec 8} (ho : o.work = .sfw m) :
    settleOut s k o = if tokensBusy (getGroup s k) &&& m = 0 then updGroup s k fun g => retire g o.seq else s := by
  simp only [settleOut, ho]

end

/-- Settles O33: each word queues its one item with the operand as it stands at issue, and a wait item leaves by the condition on which the end
of a step tests it. -/
theorem waitWords : Obligations.WaitWords := by
  refine ⟨fun s u h => ⟨fun _ _ => exec_sfw_queues, fun _ _ _ => exec_sft_queues, fun _ _ => exec_xwaita_queues, fun _ _ => exec_xwaitl_queues,
    fun _ _ _ => exec_xfind_queues, fun ha => ?_, fun sc ha => ?_, fun ha => ?_⟩,
    fun s k o => ⟨fun _ => settleOut_waitAny, fun _ => settleOut_waitAll, fun _ => settleOut_sfw⟩⟩
  · exact exec_queues (w := fun _ _ => .fenceOpnd) ha rfl
  · exact exec_queues (w := fun _ _ => .fence (decide (sc = .sys))) ha rfl
  · exact exec_queues (w := fun _ _ => .ldone none) ha rfl

end Sys2Proof.Machine
end

section
/-! SUPPORT. XFIND (R280): the lowest tag that is done, the wait of a deterministic launch, and the statement XfindResult. -/

namespace Sys2Proof.Machine

/-! ## The result of XFIND -/

section
variable {done err m : DWord} {k : Nat}

/-- Bit 31 stands above a tag's number. -/
theorem tag_with_err (hk : k < 64) (b : Bool) :
    BitVec.ofNat 32 (k + (if b then 2 ^ 31 else 0)) = BitVec.ofNat 32 k ||| (if b = true then 0x80000000#32 else 0#32) := by
  cases b with
  | false => simp
  | true =>
    have hor : k + 2 ^ 31 = 2 ^ 31 ||| k := by
      rw [Nat.add_comm, ← Nat.mul_one (2 ^ 31), Nat.two_pow_add_eq_or_of_lt (hk.trans (by decide)) 1]
    simp only [if_true, hor, BitVec.ofNat_or]
    exact BitVec.or_comm _ _

/-- The lowest tag of the mask that is done is found, with its ERR bit. -/
theorem xfindRes_lowest (hk : k < 64) (hd : (done &&& m).getLsbD k = true) (hlow : ∀ j, j < k → (done &&& m).getLsbD j = false) :
    xfindRes done err m = BitVec.ofNat 32 k ||| (if err.getLsbD k = true then 0x80000000#32 else 0#32) := by
  have hfind : ((List.range 64).find? fun n => (done &&& m).getLsbD n) = some k :=
    List.find?_range_eq_some.2 ⟨hd, List.mem_range.2 hk, fun j hj => by simp only [hlow j hj, Bool.not_false]⟩
  simp only [xfindRes, hfind]
  exact tag_with_err hk _

/-- No tag of the mask is done. -/
theorem xfindRes_none (h : done &&& m = 0) : xfindRes done err m = 64 := by
  have hfind : ((List.range 64).find? fun n => (done &&& m).getLsbD n) = none :=
    List.find?_eq_none.2 fun n _ => by simp [h]
  simp only [xfindRes, hfind]

end

/-! ## Words that must wait -/

/-- A word that must wait changes nothing. -/
theorem onceWord_waits {s : State} {u : Issue} {i : Instr} {body : Ctx → State → State} (hx : exec i s = onceWord i s body)
    (hc : s.cur = some u) (hw : wellFormed i = true) (hwait : waits s u i = true) : exec i s = .next s := by
  simp only [wellFormed] at hw
  simp [hx, onceWord, issueWord, hc, hw, hwait]

/-- In a deterministic launch XFIND waits until every tag of its mask is done. -/
theorem xfind_waits {s : State} {u : Issue} {h : Hdr} {d m : Spec} (ha : (ctxOf s u (.xfind h d m)).active ≠ 0)
    (hd : (getGroup s u.gkey).det = true)
    (hm : ~~~(teamOf s u.gkey).done &&& BitVec.ofNat 64 (readUni (ctxOf s u (.xfind h d m)) .i64 m) ≠ 0) :
    waits s u (.xfind h d m) = true := by
  have hdet : (ctxOf s u (.xfind h d m)).g.det = true := hd
  unfold waits
  simp only [hdet, ha, hm, ne_eq, not_false_eq_true, decide_true, Bool.and_true, Bool.or_true]

/-- Settles O11: the result is the one at issue; while a tag of the mask is not done, a deterministic launch does not issue the word. -/
theorem xfindResult : Obligations.XfindResult :=
  ⟨fun _ _ _ _ _ _ ha hx => ⟨_, exec_xfind_queues ha hx, fun _ hk hd hlow => xfindRes_lowest hk hd hlow, xfindRes_none⟩,
   fun s _ h d m hc hw ha hd hm => onceWord_waits (exec_xfind s h d m) hc hw (xfind_waits ha hd hm)⟩

end Sys2Proof.Machine
end

section
/-! SUPPORT. Memory words whose requests all find their places (R256 to R271): the requests of the active lanes, the one item that they
queue, and the statements LoadStoreWords and Atomics. -/

namespace Sys2Proof.Machine

/-! ## Requests -/

/-- One lane of a memory word forms its request, or raises its cause. -/
def reqStep (c : Ctx) (f : Nat → Except Nat Req) (r : List Req × List Raise) (l : Nat) : List Req × List Raise :=
  match f l with
  | .ok q => (r.1 ++ [q], r.2)
  | .error k => (r.1, r.2 ++ [⟨l, k, c.pc, 0, 0, 0⟩])

theorem laneReqs_eq (c : Ctx) (f : Nat → Except Nat Req) : laneReqs c f = (lanesOf c.active).foldl (reqStep c f) ([], []) := rfl

theorem reqSteps_iff {c : Ctx} {f : Nat → Except Nat Req} {qs : List Req} (ls : List Nat) (r : List Req × List Raise) :
    ls.foldl (reqStep c f) r = (qs, []) ↔ r.2 = [] ∧ ∃ rs, qs = r.1 ++ rs ∧ ls.map f = rs.map .ok := by
  induction ls generalizing r with
  | nil =>
    refine ⟨fun h => ?_, fun ⟨hr, rs, hq, hm⟩ => ?_⟩
    · rw [List.foldl_nil] at h; subst h; exact ⟨rfl, [], (List.append_nil _).symm, rfl⟩
    · rw [List.map_nil, eq_comm, List.map_eq_nil_iff] at hm
      rw [List.foldl_nil, hq, hm, List.append_nil, ← hr]
  | cons l ls ih =>
    rw [List.foldl_cons, ih]
    cases hf : f l with
    | ok q =>
      have hstep : reqStep c f r l = (r.1 ++ [q], r.2) := by simp only [reqStep, hf]
      rw [hstep]
      refine and_congr_right fun _ => ⟨fun ⟨rs, hq, hm⟩ => ⟨q :: rs, by simp [hq], by simp [hf, hm]⟩, fun ⟨rs, hq, hm⟩ => ?_⟩
      obtain _ | ⟨q', rs'⟩ := rs
      · cases hm
      · simp only [List.map_cons, hf, List.cons.injEq, Except.ok.injEq] at hm
        exact ⟨rs', by simp [hq, hm.1], hm.2⟩
    | error k =>
      have hstep : (reqStep c f r l).2 ≠ [] := by simp [reqStep, hf]
      refine ⟨fun h => absurd h.1 hstep, fun ⟨_, rs, _, hm⟩ => ?_⟩
      obtain _ | ⟨q', rs'⟩ := rs <;> simp [hf] at hm

/-- Every active lane forms its request exactly when none raises a cause. -/
theorem laneReqs_ok {c : Ctx} {f : Nat → Except Nat Req} {qs : List Req} :
    laneReqs c f = (qs, []) ↔ (lanesOf c.active).map f = qs.map .ok := by
  rw [laneReqs_eq, reqSteps_iff]
  simp

/-- The requests that `f` forms are each for one lane. -/
def OneLane (f : Nat → Except Nat Req) : Prop := ∀ l q, f l = .ok q → q.lanes = laneBit l

theorem reqLanes_lanes {f : Nat → Except Nat Req} (hf : OneLane f) {ls : List Nat} {qs : List Req} (h : ls.map f = qs.map .ok) :
    reqLanes qs = lanesMask ls := by
  have key : ∀ (ls : List Nat) (qs : List Req) (m : Lanes), ls.map f = qs.map .ok →
      qs.foldl (fun m q => m ||| q.lanes) m = ls.foldl (fun m l => m ||| BitVec.ofNat 32 (2 ^ l)) m := by
    intro ls
    induction ls with
    | nil => intro qs m h; rw [List.map_nil, eq_comm, List.map_eq_nil_iff] at h; rw [h]; rfl
    | cons l ls ih =>
      intro qs m h
      obtain _ | ⟨q, qs⟩ := qs
      · cases h
      · obtain ⟨hq, ht⟩ := List.cons.inj h
        rw [List.foldl_cons, List.foldl_cons, ih qs _ ht, hf l q hq]
        rfl
  exact key ls qs 0 h

/-- Together, the requests of a word are made for its active lanes. -/
theorem reqLanes_active {c : Ctx} {f : Nat → Except Nat Req} {qs : List Req} (hf : OneLane f) (h : laneReqs c f = (qs, [])) :
    reqLanes qs = c.active := (reqLanes_lanes hf (laneReqs_ok.1 h)).trans (lanesMask_lanesOf _)

theorem resolveReqs_reqs (c : Ctx) (s : State) (kind : AccKind) (n : Nat) (w : Work) (det : DWord → Bool) (qs : List Req) :
    (resolveReqs c s kind n w det qs).2.map (·.1) = qs := by
  have key : ∀ (F : State × List (Req × AccRes) → Req → State × List (Req × AccRes))
      (_ : ∀ r q, (F r q).2.map (·.1) = r.2.map (·.1) ++ [q]) (qs : List Req) (r : State × List (Req × AccRes)),
      (qs.foldl F r).2.map (·.1) = r.2.map (·.1) ++ qs := by
    intro F hF qs
    induction qs with
    | nil => exact fun _ => (List.append_nil _).symm
    | cons q qs ih => intro r; rw [List.foldl_cons, ih, hF, List.append_assoc]; rfl
  refine (key _ (fun r q => ?_) qs (s, [])).trans rfl
  split
  · simp
  · split <;> simp

/-! ## The item -/

section
variable {ps : List (Req × List Loc)}

/-- Requests that have all found their places. -/
def found (ps : List (Req × List Loc)) : List (Req × AccRes) := ps.map fun p => (p.1, .ok p.2)

theorem okReqs_found : okReqs (found ps) = ps := by
  unfold okReqs found
  rw [List.filterMap_map]
  exact List.filterMap_some

theorem badReqs_found (c : Ctx) : badReqs c (found ps) = [] := by
  unfold badReqs found
  rw [List.flatMap_map]
  exact List.flatMap_eq_nil_iff.2 fun _ _ => rfl

theorem waitReqs_found : waitReqs (found ps) = [] := by
  unfold waitReqs found
  rw [List.filterMap_map]
  exact List.filterMap_eq_nil_iff.2 fun _ _ => rfl

theorem kept_found (p : Req × AccRes → Bool) (h : ∀ q ls, p (q, .ok ls) = true) : (found ps).filter p = found ps :=
  List.filter_eq_self.2 fun r hr => by obtain ⟨x, _, rfl⟩ := List.mem_map.1 hr; exact h _ _

theorem dropped_found (p : Req × AccRes → Bool) (h : ∀ q ls, p (q, .ok ls) = false) : (found ps).filter p = [] :=
  List.filter_eq_nil_iff.2 fun r hr => by obtain ⟨x, _, rfl⟩ := List.mem_map.1 hr; simp [h]

theorem accs_found (g : Req × AccRes → Option (List Loc)) (h : ∀ q ls, g (q, .ok ls) = some ls) :
    (found ps).map (fun r => accOfReq r.1 (g r)) = ps.map fun p => accOfReq p.1 (some p.2) := by
  unfold found
  rw [List.map_map]
  exact List.map_congr_left fun p _ => congrArg (accOfReq p.1) (h p.1 p.2)

theorem found_reqs : (found ps).map (·.1) = ps.map (·.1) := by unfold found; rw [List.map_map]; rfl

theorem found_isEmpty (hne : ps ≠ []) : (found ps).isEmpty = false := by
  cases ps with
  | nil => exact absurd rfl hne
  | cons => rfl

/-- A word whose requests have all found their places queues one item with every access, in a deterministic launch, too (R254, R264). -/
theorem memClose_found (i : Instr) (c : Ctx) (s : State) (kind : AccKind) (n : Nat) (mk : List LaneAcc → Work) (live : List Req → List Tgt)
    (hne : ps ≠ []) :
    memClose i c s kind n mk live (found ps) [] = setGroup s c.gk (passOn i c (pushOut (getGroup s c.gk) c.pc c.next (reqLanes (ps.map (·.1)))
      (mk (ps.map fun p => accOfReq p.1 (some p.2))) (live (ps.map (·.1)))) (reqLanes (ps.map (·.1)))) := by
  have hps : ps.isEmpty = false := by simpa using hne
  unfold memClose
  split
  · dsimp only
    rw [kept_found _ fun _ _ => rfl, accs_found _ fun _ _ => rfl]
    simp only [okReqs_found, badReqs_found, waitReqs_found, found_reqs, found_isEmpty hne, List.foldl_nil, List.append_nil]
    exact closeWord_ok i c s _ _
  · simp only [okReqs_found, badReqs_found, waitReqs_found, hps, List.foldl_nil, List.append_nil, List.map_nil]
    exact closeWord_ok i c s _ _

end

/-- A word that is a memory word of requests for its active lanes queues their accesses. -/
theorem memWord_queues {s : State} {u : Issue} {i : Instr} {kind : AccKind} {n : Nat} {mk : List LaneAcc → Work} {live : List Req → List Tgt}
    {det : DWord → Bool} {qs : List Req} (hx : exec i s = .next (memWord i (ctxOf s u i) s kind n mk live det (qs, [])))
    (hl : reqLanes qs = (ctxOf s u i).active) : QueuesAccesses s u i kind n mk live det qs := by
  intro s' ps hne hr
  have hqs : ps.map (·.1) = qs := by
    have h := resolveReqs_reqs (ctxOf s u i) s kind n (mk []) det qs
    rwa [hr, ← found, found_reqs] at h
  rw [hx, memWord, hr, ← found, memClose_found i _ s' kind n mk live hne, hqs, hl]
  rfl

/-! ## LD, ST, LDSC and the atomics -/

theorem oneLane_bind {α : Type} {m : Nat → Except Nat α} {g : α → Nat → Except Nat Req} (h : ∀ x, OneLane (g x)) :
    OneLane fun l => m l >>= fun x => g x l := by
  intro l q hq
  cases hm : m l with
  | ok x => exact h x l q (by simpa [hm, bind, Except.bind] using hq)
  | error k => simp [hm, bind, Except.bind] at hq

theorem oneLane_pure {q : Nat → Req} (h : ∀ l, (q l).lanes = laneBit l) : OneLane fun l => pure (q l) := by
  rintro l _ ⟨⟩
  exact h l

section
variable {c : Ctx} {ty : Ty} {count : Count} {d a b e : Spec} {imm : BitVec 24}

theorem ldReq_oneLane : OneLane (ldReq c ty count d a b imm) :=
  oneLane_bind fun _ => oneLane_bind fun _ => oneLane_pure fun _ => rfl

theorem stReq_oneLane : OneLane (stReq c ty count d a b imm) :=
  oneLane_bind fun _ => oneLane_bind fun _ => oneLane_pure fun _ => rfl

theorem atomReq_oneLane : OneLane (atomReq c ty d a b imm) :=
  oneLane_bind fun _ => oneLane_bind fun _ => oneLane_bind fun _ => oneLane_pure fun _ => rfl

theorem casReq_oneLane : OneLane (casReq c ty d a b e imm) :=
  oneLane_bind fun _ => oneLane_bind fun _ => oneLane_bind fun _ => oneLane_bind fun _ => oneLane_pure fun _ => rfl

theorem redReq_oneLane : OneLane (redReq c ty a b imm) :=
  oneLane_bind fun _ => oneLane_bind fun _ => oneLane_pure fun _ => rfl

theorem reqLanes_one (q : Req) : reqLanes [q] = q.lanes := BitVec.zero_or

end

section
variable {s : State} {u : Issue} {i : Instr} {kind : AccKind} {n : Nat} {qs : List Req} {f : Ctx → Nat → Except Nat Req}
  {mk : Ctx → List Req → List LaneAcc → Work} {live : List Req → List Tgt} {det : DWord → Bool}

/-- A memory word of one access for each active lane. -/
theorem laneAccesses_queue (ha : ActsOnce s u i)
    (hx : exec i s = issueWord i s fun c s => memWord i c s kind n (mk c (laneReqs c (f c)).1) live det (laneReqs c (f c)))
    (hf : OneLane (f (ctxOf s u i))) (hq : laneReqs (ctxOf s u i) (f (ctxOf s u i)) = (qs, [])) :
    QueuesAccesses s u i kind n (mk (ctxOf s u i) qs) live det qs :=
  memWord_queues (by rw [hx, issueWord_acts _ ha.1, hq]) (reqLanes_active hf hq)

end

/-- ATOMA makes the one access of its lowest active lane, with every lane's operand (R270). -/
theorem exec_atoma_queues {s : State} {u : Issue} {h : Hdr} {op : AtomOp} {ty : Ty} {scope : Scope} {d a b : Spec} {imm : BitVec 24} {i : Instr}
    {q : Req} {qs : List Req} (hi : i = .atoma h op ty scope d a b imm) (ha : ActsOnce s u i)
    (hq : laneReqs (ctxOf s u i) (atomReq (ctxOf s u i) ty d a b imm) = (q :: qs, [])) :
    QueuesAccesses s u i .atomic (tyBytes ty)
      (fun acc => .atoma op ty (dstTab (q :: qs)) scope acc ((q :: qs).map fun x => (x.lane, x.data)))
      (fun _ => vecLive (if tyWide ty then 2 else 1) (q :: qs)) (detAtomic scope) [{ q with lanes := (ctxOf s u i).active }] := by
  have hl := reqLanes_active atomReq_oneLane hq
  subst hi
  refine memWord_queues ?_ (reqLanes_one _)
  rw [exec_atoma, execAtoma, onceWord_acts _ ha.1 ha.2, hq]
  dsimp only
  rw [hl]

/-! ## LDK, R262 -/

section
variable {c : Ctx} {ty : Ty} {count : Count} {d a b : Spec} {imm : BitVec 24}

/-- A lane of LDK: its request is for no lane where its address lies in a window. -/
def ldkReq (c : Ctx) (ty : Ty) (count : Count) (d a b : Spec) (imm : BitVec 24) (l : Nat) : Except Nat Req := do
  let va ← memAddr c l a b imm
  let r ← vecReg c l (tyWide ty) (countOf count) d
  if isGlobal va || decide (va.toNat % (countOf count * tyBytes ty) ≠ 0) then return ⟨l, laneBit l, va, 0, 0, r⟩
  else return ⟨l, 0, va, 0, 0, r⟩

theorem ldkReq_of_global {l : Nat} {q : Req} (h : ldReq c ty count d a b imm l = .ok q) (hg : isGlobal q.va = true) :
    ldkReq c ty count d a b imm l = .ok q := by
  simp only [ldReq, ldkReq, bind, Except.bind, pure, Except.pure] at h ⊢
  cases hm : memAddr c l a b imm with
  | error k => simp [hm] at h
  | ok va =>
    cases hr : vecReg c l (tyWide ty) (countOf count) d with
    | error k => simp [hm, hr] at h
    | ok r =>
      simp only [hm, hr, Except.ok.injEq] at h ⊢
      subst h
      simp [hg]

theorem laneReqs_ldk {qs : List Req} (h : laneReqs c (ldReq c ty count d a b imm) = (qs, [])) (hg : ∀ q, q ∈ qs → isGlobal q.va = true) :
    laneReqs c (ldkReq c ty count d a b imm) = (qs, []) := by
  have hmap := laneReqs_ok.1 h
  rw [laneReqs_ok, ← hmap]
  refine List.map_congr_left fun l hl => ?_
  obtain ⟨q, hq, hl⟩ := List.mem_map.1 (hmap ▸ List.mem_map_of_mem (f := ldReq c ty count d a b imm) hl)
  rw [← hl]
  exact ldkReq_of_global hl.symm (hg q hq)

theorem laneBit_ne_zero {l : Nat} (hl : l < 32) : laneBit l ≠ 0 := by
  intro h
  have hbit := congrArg BitVec.toNat h
  rw [laneBit, BitVec.toNat_ofNat, Nat.mod_eq_of_lt (Nat.pow_lt_pow_right (by decide) hl)] at hbit
  exact absurd hbit (Nat.two_pow_pos l).ne'

/-- Each request of a word whose requests are for one lane each is for some lane. -/
theorem lanes_ne_zero {f : Nat → Except Nat Req} {qs : List Req} (hf : OneLane f) (h : laneReqs c f = (qs, [])) {q : Req} (hq : q ∈ qs) :
    q.lanes ≠ 0 := by
  obtain ⟨l, hl, hfl⟩ := List.mem_map.1 (laneReqs_ok.1 h ▸ List.mem_map_of_mem (f := Except.ok (ε := Nat)) hq)
  rw [hf l q hfl]
  exact laneBit_ne_zero ((mem_lanesOf _ _).1 hl).1

end

theorem memClose_nil (i : Instr) (c : Ctx) (s : State) (kind : AccKind) (n : Nat) (mk : List LaneAcc → Work) (live : List Req → List Tgt) :
    memClose i c s kind n mk live [] [] = closeWord i c s 0 [] [] := by
  unfold memClose
  split <;> rfl

/-- Post-steps made before a word is closed are those that closing it makes. -/
theorem passOn_postStep (i : Instr) (c : Ctx) (g : Group) (done : Lanes) : passOn i c (postStep i g done) 0 = passOn i c g done := by
  have hzero : (postStep i (postStep i g done) 0).xreg = (postStep i g done).xreg := rfl
  rw [passOn_frame, passOn_frame, hzero, postStep_frame]
  rfl

theorem memClose_stepped (i : Instr) (c : Ctx) (z : State) (g g' : Group) (m : Lanes) (kind : AccKind) (n : Nat) (mk : List LaneAcc → Work)
    (live : List Req → List Tgt) :
    memClose i { c with g := g' } (updGroup (setGroup z c.gk g) c.gk fun g => postStep i g m) kind n mk live [] [] =
      setGroup z c.gk (passOn i c g m) := by
  rw [memClose_nil, updGroup_eq, getGroup_setGroup_same, setGroup_setGroup]
  exact (closeWord_ok i _ z _ 0).trans (congrArg (setGroup z c.gk) (passOn_postStep i c g m))

/-- LDK reads the words of its global addresses as it issues, and queues them as results. -/
theorem exec_ldk_queues {s s' : State} {u : Issue} {i : Instr} {h : Hdr} {ty : Ty} {count : Count} {d a b : Spec} {imm : BitVec 24}
    {qs : List Req} {ps : List (Req × List Loc)} (hi : i = .ldk h ty count d a b imm) (ha : ActsOnce s u i)
    (hq : laneReqs (ctxOf s u i) (ldReq (ctxOf s u i) ty count d a b imm) = (qs, [])) (hg : ∀ q, q ∈ qs → isGlobal q.va = true) (hne : ps ≠ [])
    (hr : resolveReqs (ctxOf s u i) s .read (countOf count * tyBytes ty) (.ldk ty (regsOf ty count) (dstTab qs) []) (fun _ => false) qs =
      (s', found ps)) :
    let z := ps.foldl (fun z p => ldkFill z (coreOf s u.gkey) p.2) s'
    let ws := ps.flatMap fun p =>
      (regWrites false p.1.lane p.1.dst (loadWords ty (ldkBytes z (coreOf s u.gkey) p.2))).take (regsOf ty count)
    exec i s = .next (passedIn z s u i (pushOut (getGroup z u.gkey) u.pc (ctxOf s u i).next (ctxOf s u i).active (.loaded ws) (ws.map (·.1)))) := by
  have hreqs : laneReqs (ctxOf s u i) (ldkReq (ctxOf s u i) ty count d a b imm) = (qs, []) := laneReqs_ldk hq hg
  have hglob : qs.filter (fun q => q.lanes ≠ 0) = qs := List.filter_eq_self.2 fun q h => by simpa using lanes_ne_zero ldReq_oneLane hq h
  have hwin : qs.filter (fun q => q.lanes = 0) = [] := List.filter_eq_nil_iff.2 fun q h => by simpa using lanes_ne_zero ldReq_oneLane hq h
  have hlanes : reqLanes (ps.map (·.1)) = (ctxOf s u i).active := by
    have h := resolveReqs_reqs (ctxOf s u i) s .read (countOf count * tyBytes ty) (.ldk ty (regsOf ty count) (dstTab qs) []) (fun _ => false) qs
    rw [hr, found_reqs] at h
    rw [h]
    exact reqLanes_active ldReq_oneLane hq
  have hps : ps.isEmpty = false := by simpa using hne
  subst hi
  unfold ldkReq at hreqs
  rw [exec_ldk, execLdk, issueWord_acts _ ha.1]
  dsimp only
  rw [hreqs]
  dsimp only
  rw [hglob, hwin, hr, okReqs_found, hps, hlanes]
  dsimp only
  rw [dropped_found _ fun _ _ => rfl]
  exact congrArg Host.Outcome.next (memClose_stepped _ (ctxOf s u _) _ _ _ _ _ _ _ _)

/-! ## PFX, R263 -/

/-- Only caches, counters, and what is sent to peers and asked of the host change: what looking up an address and filling a line can change. -/
def FillFrame (s t : State) : Prop :=
  t = { s with l2 := t.l2, cores := t.cores, tlb := t.tlb, faults := t.faults, peers := t.peers, pcie := t.pcie }

theorem FillFrame.refl (s : State) : FillFrame s s := rfl
theorem FillFrame.trans {a b c : State} (h : FillFrame a b) (k : FillFrame b c) : FillFrame a c := by
  unfold FillFrame at *; exact k.trans (by rw [h])

theorem FillFrame.getGroup {s t : State} (h : FillFrame s t) (k : Nat) : Machine.getGroup t k = Machine.getGroup s k := by rw [h]; rfl

theorem FillFrame.l2 (s : State) (l : List (Nat × (Bool × Byte))) : FillFrame s { s with l2 := l } := rfl
theorem FillFrame.updCore (s : State) (c : Nat) (f : Core → Core) : FillFrame s (updCore s c f) := rfl

theorem countEv_fill (s : State) (c code n : Nat) : FillFrame s (countEv s c code n) := by
  unfold countEv
  split <;> rfl

theorem sendReq_fill (s : State) (line : Nat) : FillFrame s (sendReq s line) := by
  unfold sendReq
  dsimp only
  split
  · next ht =>
    obtain ⟨-, rfl⟩ | ⟨p, -, -, rfl⟩ := sendFlit_cases ht <;> rfl
  · rfl

theorem noteOut_fill (s : State) (c : Nat) (ls : List Loc) : FillFrame s (noteOut s c ls) := by
  refine FillFrame.trans (b := if s.obs.evsel = 0 then s else countEv s c 0x03 (runsOf (ls.filterMap l2Sector)).length) ?_
    (foldl_rel FillFrame.refl FillFrame.trans sendReq_fill _ _)
  split
  · exact .refl s
  · exact countEv_fill s c _ _

theorem l2Fill_fill (s : State) (pa : Nat) : FillFrame s (l2Fill s pa) := by
  unfold l2Fill
  split
  · exact FillFrame.l2 s _
  · exact .refl s

theorem l1Fill_fill (s : State) (c pa : Nat) : FillFrame s (l1Fill s c pa) := by
  unfold l1Fill
  exact (((l2Fill_fill s pa).trans (countEv_fill _ c 0x01 1)).trans (noteOut_fill _ c [.glob pa 0])).trans (FillFrame.updCore _ c _)

theorem walked_fill (s : State) (f : Nat) (t : List TlbEnt) : FillFrame s (walked s f t) := by
  unfold walked
  split <;> rfl

theorem translate_fill (s : State) (f p va : Nat) : FillFrame s (translate s f p va).1 := by
  unfold translate
  split
  · exact walked_fill s f _
  · split <;> exact walked_fill s f _

theorem walkElem_fill (s : State) (f p : Nat) (k : AccKind) (n va : Nat) : FillFrame s (walkElem s f p k n va).1 := by
  have h : ∀ r, translate s f p (va % 2 ^ 57) = r → FillFrame s r.1 := fun _ hr => hr ▸ translate_fill s f p (va % 2 ^ 57)
  unfold walkElem
  split
  · next ht => exact h _ ht
  · next ht => exact h _ ht
  · next ht => exact h _ ht
  · next ht =>
    split
    · exact h _ ht
    · dsimp only
      split
      · split
        · exact (h _ ht).trans rfl
        · exact h _ ht
      · exact h _ ht

/-- What a lane of PFX asks for changes. -/
def pfxLane (c : Ctx) (scope : Scope) (a b : Spec) (imm : BitVec 24) (s : State) (l : Nat) : State :=
  match memAddr c l a b imm with
  | .error _ => s
  | .ok va =>
    if !isGlobal va then s
    else match walkElem (countEv s c.core 0x04 (if walkBegins s c.l.func c.l.pasid (va.toNat % 2 ^ 57) then 1 else 0))
        c.l.func c.l.pasid .read 1 va.toNat with
      | (s, .at' pa mt) =>
        match paKind pa with
        | .dram _ => if mt = 0 && scope = .core then l1Fill s c.core pa else s
        | .host _ =>
          if mt = 2 then s
          else if mt = 0 && scope = .core then l1Fill s c.core pa
          else (List.range 4).foldl (fun s k => l2Fill s (pa / 256 * 256 + 64 * k)) (noteOut s c.core [.glob pa mt])
        | _ => s
      | (s, _) => s

theorem exec_pfx_eq (h : Hdr) (scope : Scope) (a b : Spec) (imm : BitVec 24) (s : State) : exec (.pfx h scope a b imm) s =
    issueWord (.pfx h scope a b imm) s fun c s =>
      let s := (lanesOf c.active).foldl (pfxLane c scope a b imm) s
      let s := if c.active = 0 then s else updGroup s c.gk fun g => pushOut g c.pc c.next c.active .prefetch []
      closeWord (.pfx h scope a b imm) c s c.active [] [] := rfl

theorem pfxLane_fill (c : Ctx) (scope : Scope) (a b : Spec) (imm : BitVec 24) (s : State) (l : Nat) :
    FillFrame s (pfxLane c scope a b imm s l) := by
  unfold pfxLane
  split
  · exact .refl s
  · next va _ =>
    have h := (countEv_fill s c.core 0x04 (if walkBegins s c.l.func c.l.pasid (va.toNat % 2 ^ 57) then 1 else 0)).trans
      (walkElem_fill _ c.l.func c.l.pasid .read 1 va.toNat)
    split
    · exact .refl s
    · split
      · next hw =>
        rw [hw] at h
        refine h.trans ?_
        split
        · split
          · exact l1Fill_fill _ _ _
          · exact .refl _
        · split
          · exact .refl _
          · split
            · exact l1Fill_fill _ _ _
            · exact (noteOut_fill _ _ _).trans (foldl_rel FillFrame.refl FillFrame.trans (fun s k => l2Fill_fill s _) _ _)
        · exact .refl _
      · next hw =>
        rw [hw] at h
        exact h

/-- PFX changes no memory and queues an item that returns nothing. -/
theorem exec_pfx_queues {s : State} {u : Issue} {i : Instr} {h : Hdr} {scope : Scope} {a b : Spec} {imm : BitVec 24}
    (hi : i = .pfx h scope a b imm) (ha : ActsOnce s u i) :
    ∃ z, FillFrame s z ∧ exec i s = .next (passedIn z s u i (queued s u i .prefetch [])) := by
  subst hi
  let c := ctxOf s u (.pfx h scope a b imm)
  have hz : FillFrame s ((lanesOf c.active).foldl (pfxLane c scope a b imm) s) :=
    foldl_rel FillFrame.refl FillFrame.trans (pfxLane_fill c scope a b imm) _ s
  refine ⟨_, hz, ?_⟩
  rw [exec_pfx_eq, issueWord_acts _ ha.1]
  simp only [ha.2, if_false]
  generalize (lanesOf c.active).foldl (pfxLane c scope a b imm) s = z at hz ⊢
  refine congrArg Host.Outcome.next ((closeWord_ok _ c _ _ _).trans ?_)
  rw [show c.gk = u.gkey from rfl, hz.getGroup]
  rfl

/-- Settles O38: every lane's access is formed and placed, and one item holds them; LDK's words are read at issue, and a prefetch fills
caches only. -/
theorem loadStoreWords : Obligations.LoadStoreWords := by
  refine ⟨fun s u h ty scope count d a b imm => ⟨fun i qs hi ha hq => ?_, fun i qs hi ha hq => ?_, fun i n hi ha => ?_⟩,
    fun s u h a b imm => ⟨fun i ty count d qs s' ps hi ha hq hg hne hr => exec_ldk_queues hi ha hq hg hne hr, fun i scope hi ha => ?_⟩⟩
  · exact laneAccesses_queue (mk := fun _ qs acc => .load ty (regsOf ty count) false (dstTab qs) scope acc)
      (f := fun c => ldReq c ty count d a b imm) ha (by subst hi; rfl) ldReq_oneLane hq
  · exact laneAccesses_queue (mk := fun c qs acc => .store (countOf count * tyBytes ty) scope acc (wideStores c ty count d qs))
      (f := fun c => stReq c ty count d a b imm) ha (by subst hi; rfl) stReq_oneLane hq
  · subst hi
    exact memWord_queues ((exec_ldsc s h ty scope count (.s n) a b imm).trans (onceWord_acts _ ha.1 ha.2)) (reqLanes_one _)
  · obtain ⟨z, hz, hx⟩ := exec_pfx_queues hi ha
    refine ⟨_, hx, getGroup_setGroup_same _ _ _, ?_⟩
    unfold FillFrame at hz
    rw [hz]
    exact ⟨rfl, rfl, rfl⟩

/-- Settles O39: each lane forms its access, and one item carries them all; ATOMA's one access carries every lane's operand. -/
theorem atomics : Obligations.Atomics := by
  intro s u h op ty scope d a b e imm
  refine ⟨fun i qs hi ha hq => ?_, fun i qs hi ha hq => ?_, fun i q qs hi ha hq => exec_atoma_queues hi ha hq, fun i qs hi ha hq => ?_⟩
  · exact laneAccesses_queue (mk := fun _ qs acc => .atom op false ty (dstTab qs) scope acc) (f := fun c => atomReq c ty d a b imm) ha
      (by subst hi; rfl) atomReq_oneLane hq
  · exact laneAccesses_queue (mk := fun _ qs acc => .atom .xch true ty (dstTab qs) scope acc) (f := fun c => casReq c ty d a b e imm) ha
      (by subst hi; rfl) casReq_oneLane hq
  · exact laneAccesses_queue (mk := fun _ _ acc => .red op ty scope acc) (f := fun c => redReq c ty a b imm) ha (by subst hi; rfl)
      redReq_oneLane hq

end Sys2Proof.Machine
end

section
/-! SUPPORT. Copies and transforms (R272 to R278, R281): the checks of a command, the one command that issues, and the statement
CommandWords. -/

namespace Sys2Proof.Machine

section
variable {s t : State} {u : Issue} {i : Instr} {dst src out : DWord} {len tag : Nat} {kind : CmdKind}

/-- A word that issues a command leaves it with its engine and an item for it; to a frozen context it issues none. -/
theorem closeWord_pushCmd (huid : t.uid = s.uid) (hg : getGroup t u.gkey = getGroup s u.gkey)
    (hf : (teamOf t u.gkey).frozen = (teamOf s u.gkey).frozen) :
    closeWord i (ctxOf s u i) (pushCmd t (ctxOf s u i) dst src len tag kind []) (ctxOf s u i).active [] [] =
      if (teamOf s u.gkey).frozen = true then passedIn t s u i (getGroup s u.gkey)
      else passedIn (withCmd t (newCmd s u i dst src len tag kind [])) s u i (queued s u i (.engine s.uid) []) := by
  have hgk : (ctxOf s u i).gk = u.gkey := rfl
  simp only [pushCmd, hgk, hf, huid]
  split
  · rw [closeWord_from, hgk, hg]
    rfl
  · refine (closeWord_ok i (ctxOf s u i) _ _ _).trans ?_
    rw [hgk]
    simp only [withCmd, huid]
    rw [show getGroup { t with uid := s.uid + 1, cmds := _ } u.gkey = getGroup t u.gkey from rfl, hg]
    rfl

/-- Clearing a tag changes no team's freezing. -/
theorem teamOf_tagBegins : (teamOf (tagBegins s (getGroup s u.gkey).team tag) u.gkey).frozen = (teamOf s u.gkey).frozen := by
  simp only [teamOf, tagBegins, updTeam_eq, getGroup_setTeam, getTeam_setTeam_same]

/-- A copy whose addresses and tag are in order begins its tag and issues its command. -/
theorem copyWord_issues (hc : engineCheck s u.gkey ([(dst, len), (src, len)] ++ if out = 0 then [] else [(out, 4)]) = none)
    (ho : out.toNat % 4 = 0) (ht : tag ≤ 63) :
    copyWord i (ctxOf s u i) s dst src len tag out kind =
      if (teamOf s u.gkey).frozen = true then passedIn (tagBegins s (getGroup s u.gkey).team tag) s u i (getGroup s u.gkey)
      else passedIn (withCmd (tagBegins s (getGroup s u.gkey).team tag) (newCmd s u i dst src len tag kind [])) s u i
        (queued s u i (.engine s.uid) []) := by
  have hc' : engineCheck s (ctxOf s u i).gk ([(dst, len), (src, len)] ++ if out = 0 then [] else [(out, 4)]) = none := hc
  simp only [copyWord, hc', ho, ne_eq, not_true_eq_false, if_false, Nat.not_lt.2 ht]
  exact closeWord_pushCmd (t := tagBegins s (getGroup s u.gkey).team tag) rfl rfl teamOf_tagBegins

theorem ofNat_eq_zero_iff {n : Nat} (h : n < 2 ^ 64) : (BitVec.ofNat 64 n : DWord) = 0 ↔ n = 0 := by
  rw [BitVec.ofNat_eq_ofNat, ← BitVec.toNat_inj, BitVec.toNat_ofNat, BitVec.toNat_ofNat, Nat.mod_eq_of_lt h]

end

section
variable {s : State} {u : Issue} {i : Instr} {h : Hdr} {d a r bo : Spec} {dv av rv bv : Nat}

/-- A transform whose addresses, record and object are in order issues its command. -/
theorem xformWord_issues {dec : Bool} (hd : uniVal s u i .n64 d = some dv) (ha : uniVal s u i .n64 a = some av)
    (hr : uniVal s u i .n64 r = some rv) (hb : uniVal s u i .n64 bo = some bv) (hlt : rv < 2 ^ 64) (h64 : rv % 64 = 0)
    (ho : (objPlace s u.gkey (BitVec.ofNat 64 bv)).isSome)
    (hc : engineCheck s u.gkey [(BitVec.ofNat 64 dv, 1), (BitVec.ofNat 64 av, 1), (BitVec.ofNat 64 rv, 64)] = none) :
    xformWord i (ctxOf s u i) s dec d a r bo =
      if (teamOf s u.gkey).frozen = true then passed s u i (getGroup s u.gkey)
      else passedIn (withCmd s (newCmd s u i (BitVec.ofNat 64 dv) (BitVec.ofNat 64 av) 0 0
        (.xform dec (BitVec.ofNat 64 rv) (BitVec.ofNat 64 bv)) [])) s u i (queued s u i (.engine s.uid) []) := by
  have hgk : (ctxOf s u i).gk = u.gkey := rfl
  have halign : (BitVec.ofNat 64 rv : DWord).toNat % 64 = 0 := by rw [BitVec.toNat_ofNat, Nat.mod_eq_of_lt hlt, h64]
  have hobj : (objPlace s u.gkey (BitVec.ofNat 64 bv)).isNone = false := by
    simpa [← Option.not_isSome] using ho
  simp only [xformWord, readUni_of_opVal hd, readUni_of_opVal ha, readUni_of_opVal hr, readUni_of_opVal hb, hgk, hc, halign, hobj,
    ne_eq, not_true_eq_false, if_false, Bool.false_eq_true]
  exact closeWord_pushCmd rfl rfl rfl

theorem exec_xform_issues {dec : Bool} (hi : i = (if dec then .xformDec h d a r bo else .xform h d a r bo)) (hacts : ActsOnce s u i) :
    exec i s = .next (xformWord i (ctxOf s u i) s dec d a r bo) := by
  cases dec with
  | false =>
    rw [if_neg Bool.false_ne_true] at hi
    subst hi
    exact (exec_xform s h d a r bo).trans (onceWord_acts _ hacts.1 hacts.2)
  | true =>
    rw [if_pos rfl] at hi
    subst hi
    exact (exec_xformDec s h d a r bo).trans (onceWord_acts _ hacts.1 hacts.2)

end

/-- Settles O36: the checks pass, so the tag begins and the command issues. -/
theorem commandWords : Obligations.CommandWords := by
  refine ⟨fun s u h lay d a len tag dv av lv tv => ⟨?_, ?_, ?_⟩,
    fun s u h d a r bo dec i dv av rv bv hi hacts hd ha hr hb hlt h64 ho hc => ?_⟩
  · rintro i rfl hacts hd ha hl ht hc htag
    rw [exec_xcopy, execXcopy, onceWord_acts _ hacts.1 hacts.2, readUni_of_opVal hd, readUni_of_opVal ha, readUni_of_opVal hl, readUni_of_opVal ht]
    exact congrArg Host.Outcome.next (copyWord_issues hc rfl htag)
  · rintro i out ov cont pt rfl hacts hd ha hl ht ho h4 hlt hc htag
    rw [exec_xcopyCrc, execXcopyCrc, onceWord_acts _ hacts.1 hacts.2, readUni_of_opVal hd, readUni_of_opVal ha, readUni_of_opVal hl,
      readUni_of_opVal ht, readUni_of_opVal ho]
    have halign : (BitVec.ofNat 64 ov : DWord).toNat % 4 = 0 := by rw [BitVec.toNat_ofNat, Nat.mod_eq_of_lt hlt, h4]
    exact congrArg Host.Outcome.next (copyWord_issues (by simpa only [ofNat_eq_zero_iff hlt] using hc) halign htag)
  · rintro i ex ev cont pt rfl hacts hd ha hl ht he hc htag
    rw [exec_xcopyChk, execXcopyChk, onceWord_acts _ hacts.1 hacts.2, readUni_of_opVal hd, readUni_of_opVal ha, readUni_of_opVal hl,
      readUni_of_opVal ht, readUni_of_opVal he]
    exact congrArg Host.Outcome.next (copyWord_issues hc rfl htag)
  · rw [exec_xform_issues hi hacts, xformWord_issues hd ha hr hb hlt h64 ho hc]

end Sys2Proof.Machine
end

section
/-! SUPPORT. A load of host memory under memory type 2 (R269): the bytes that the host's completion brings, and the access violation in its lane
when there is none. -/

namespace Sys2Proof.Machine

/-! ## Places at the host -/

theorem paKind_host {pa : Nat} (h : hostBacked pa = true) : paKind pa = .host (pa % 2 ^ 54) := by
  have hk : pa / 2 ^ 54 % 4 = 1 := by simpa [hostBacked] using h
  simp only [paKind, hk]

/-- Bytes of the host under memory type 2 are read at the host, and nothing else happens there. -/
theorem readLocs_host (s : State) (c : Nat) (sc : Scope) (ps : List Nat) (hb : ∀ p ∈ ps, hostBacked p = true) :
    readLocs s c sc (ps.map fun p => .glob p 2) = (s, ps.map (memRead s.mem)) := by
  induction ps with
  | nil => rfl
  | cons p ps ih =>
    have hp : readLoc s c sc (.glob p 2) = (s, memRead s.mem p) := by
      simp only [readLoc, readGlob, paKind_host (hb p (by simp)), if_true]
    simp only [List.map_cons, readLocs, hp, ih fun q hq => hb q (List.mem_cons_of_mem _ hq)]

/-- The four bytes of a word of host memory under memory type 2. -/
def hostWord (pa : Nat) : List Loc := (List.range 4).map fun j => .glob (pa + j) 2

/-- The access of a lane to such a word. -/
def hostAcc (l pa : Nat) (va : DWord) : LaneAcc := ⟨l, va, some (hostWord pa), 0, 0⟩

/-- The load of such a word into a register of one lane. -/
def hostLoad (l r pa : Nat) (va : DWord) (sc : Scope) : Work := .load .n32 1 false [(l, r)] sc [hostAcc l pa va]

section
variable {s : State} {k l r pa : Nat} {va : DWord} {sc : Scope} {o : Out}

theorem noteL2_hostWord (s : State) (c : Nat) : noteL2 s c sc (hostWord pa) = noteOut s c (hostWord pa) := by
  simp [noteL2, hostWord, List.range_succ]

theorem doorOf_hostWord (h0 : hostBacked pa = true) : doorOf (hostWord pa) = none := by
  have hd : doorOf (hostWord pa) = match paKind pa with | .door o => some o | _ => none := rfl
  rw [hd, paKind_host h0]

theorem readBytes_hostWord (s : State) (func c : Nat) (hb : ∀ j, j < 4 → hostBacked (pa + j) = true) :
    readBytes s func c sc (hostWord pa) =
      (noteOut s c (hostWord pa), (List.range 4).map fun j => memRead s.mem (pa + j)) := by
  have hplaces : hostWord pa = ((List.range 4).map fun j => pa + j).map fun p => Loc.glob p 2 := by rw [List.map_map]; rfl
  have hall : ∀ p ∈ (List.range 4).map fun j => pa + j, hostBacked p = true := fun p hp => by
    obtain ⟨j, hj, rfl⟩ := List.mem_map.1 hp
    exact hb j (List.mem_range.1 hj)
  have hmem : (noteOut s c (hostWord pa)).mem = s.mem := by
    have h := noteOut_fill s c (hostWord pa)
    unfold FillFrame at h
    rw [h]
  have h0 : hostBacked pa = true := hb 0 (by omega)
  simp only [readBytes, doorOf_hostWord h0, noteL2_hostWord]
  generalize noteOut s c (hostWord pa) = z at hmem ⊢
  rw [hplaces, readLocs_host z c sc _ hall, hmem, List.map_map]
  rfl

/-! ## The item -/

theorem takeLate_none (s : State) (gk : Nat) (pc : DWord) : takeLate s gk pc false [] = s := by simp [takeLate, takeCauses]

theorem firstFar_hostLoad (ho : o.work = hostLoad l r pa va sc) (h0 : hostBacked pa = true) : firstFar o = some (hostAcc l pa va) := by
  have hfar : farAccs o.work = [hostAcc l pa va].filter fun _ => hostBacked pa && (true || decide (sc = .sys)) := by rw [ho]; rfl
  rw [firstFar, hfar, h0]
  rfl

theorem farPort_hostAcc (s : State) (k l pa : Nat) (va : DWord) : farPort s k (hostAcc l pa va) = 0 := by
  have h : farPort s k (hostAcc l pa va) = hostPort s (launchOf s k).func 2 pa := rfl
  simp [h, hostPort]

theorem awaitsAck_hostLoad (ho : o.work = hostLoad l r pa va sc) : awaitsAck s k o = false := by rw [awaitsAck, ho]; rfl

/-- The host's answer to the load goes to its one access. -/
theorem hostAnswer_hostLoad {seq : Nat} (hf : findOut s k seq = some o) (ho : o.work = hostLoad l r pa va sc) (h0 : hostBacked pa = true)
    (hm : mayPerform (getGroup s k) o = true) (hup : portUp s 0 = true) (ok : Bool) :
    hostAnswer s (.lane k seq) ok = if ok then farDone s k o (hostAcc l pa va) else farFails s k o (hostAcc l pa va) := by
  simp only [hostAnswer, hf, awaitsAck_hostLoad ho, firstFar_hostLoad ho h0, hm, farPort_hostAcc, hup]
  cases ok <;> rfl

/-- No access of it can be lost: a place at the host lies in no region and no window. -/
theorem lostAccs_hostLoad (ho : o.work = hostLoad l r pa va sc) (hb : ∀ j, j < 4 → hostBacked (pa + j) = true)
    (hs : (k, o.seq, l) ∉ s.struck) : lostAccs s k o = [] := by
  have hstruck : struckAccs s k o = [] := by
    simp [struckAccs, ho, hostLoad, hostAcc, hs]
  have hcut : ∀ x ∈ hostWord pa, locCut s x = false := fun x hx => by
    obtain ⟨j, hj, rfl⟩ := List.mem_map.1 hx
    simp [locCut, paKind_host (hb j (List.mem_range.1 hj))]
  have hlost : ∀ x ∈ hostWord pa, locLost s x = none := fun x hx => by
    obtain ⟨j, -, rfl⟩ := List.mem_map.1 hx
    simp [locLost]
  simpa [lostAccs, hstruck, ho, hostLoad, workAccs, hostAcc] using ⟨fun _ => hcut, fun _ => hlost⟩

theorem noteOps_hostLoad (ho : o.work = hostLoad l r pa va sc) (s : State) : noteOps s k o = s := by
  have hw : objWords o = [] := by
    simp [objWords, touches, ho, hostLoad, hostAcc, hostWord, accLanes, shared, List.range_succ]
  rw [noteOps, hw]
  rfl

/-- The word that the load brings. -/
def hostValue (m : List (Nat × Byte)) (pa : Nat) : Word := BitVec.ofNat 32 (leNat ((List.range 4).map fun j => memRead m (pa + j)))

theorem loadWords_n32 {bs : List Byte} (h : bs.length = 4) : loadWords .n32 bs = [BitVec.ofNat 32 (leNat bs)] := by
  simp [loadWords, tyBytes, h, List.take_of_length_le h.le]

theorem performWork_hostLoad (ho : o.work = hostLoad l r pa va sc) (hb : ∀ j, j < 4 → hostBacked (pa + j) = true) :
    FillFrame s (performWork s k o).1 ∧ (performWork s k o).2 = [(.v l r, hostValue s.mem pa)] := by
  have hr := readBytes_hostWord (sc := sc) s (launchOf s k).func (itemCore s k o) hb
  simp only [performWork, ho, hostLoad, hostAcc, List.foldl_cons, List.foldl_nil, hr]
  rw [loadWords_n32 (by simp)]
  exact ⟨noteOut_fill _ _ _, by simp [regWrites, tabGet, tabFind, hostValue]⟩

/-- The load as it is performed: its register is written, where nothing has overtaken it, and it leaves the count. -/
theorem performItem_hostLoad (ho : o.work = hostLoad l r pa va sc) (hb : ∀ j, j < 4 → hostBacked (pa + j) = true)
    (hs : (k, o.seq, l) ∉ s.struck) : ∃ x, performItem s k o =
      setGroup x k (retire (landRegs (launchOf s k).sregs o.seq o.live (getGroup s k) [(.v l r, hostValue s.mem pa)]) o.seq) := by
  have hitem : performItem s k o = performWith s k o fun g => retire g o.seq := by unfold performItem; rw [ho]; rfl
  have hlost := lostAccs_hostLoad ho hb hs
  rw [hitem]
  unfold performWith
  simp only [hlost, List.isEmpty_nil, if_true, noteOps_hostLoad ho, updGroup_eq]
  obtain ⟨hfill, hwords⟩ := performWork_hostLoad (s := if inReplay s (teamOf s k).launch then setActs s true else s) (k := k) ho hb
  have hmem : (if inReplay s (teamOf s k).launch then setActs s true else s).mem = s.mem := by split <;> rfl
  have hgroup := hfill.getGroup k
  rw [hwords, hmem]
  generalize performWork (if inReplay s (teamOf s k).launch then setActs s true else s) k o = q at hgroup ⊢
  refine ⟨if inReplay s (teamOf s k).launch then setActs q.1 s.obs.racts else q.1, ?_⟩
  have hsame : getGroup (if inReplay s (teamOf s k).launch then setActs q.1 s.obs.racts else q.1) k = getGroup s k := by
    split
    · next h => rw [if_pos h] at hgroup; exact hgroup
    · next h => rw [if_neg h] at hgroup; exact hgroup
  rw [hsame]
  exact takeLate_none _ k o.pc

/-! ## The completion -/

/-- Once the host has answered, the register holds the word that it brings, and every other vector register what it held. -/
theorem farDone_hostLoad (ho : o.work = hostLoad l r pa va sc) (hb : ∀ j, j < 4 → hostBacked (pa + j) = true)
    (hs : (k, o.seq, l) ∉ s.struck) (hr : r < 256) (hlive : Tgt.v l r ∈ o.live) {l' r' : Nat} (hr' : r' < 256) :
    vGet (getGroup (farDone s k o (hostAcc l pa va)) k) l' r' =
      if l' = l ∧ r' = r then hostValue s.mem pa else vGet (getGroup s k) l' r' := by
  have hdone : farDone s k o (hostAcc l pa va) = performItem s k o := by
    have hrest : (dropAccs o fun x => decide (x.lane ≤ (hostAcc l pa va).lane)).work = .load .n32 1 false [(l, r)] sc [] := by
      simp [dropAccs, ho, hostLoad, mapAccs]
    simp [farDone, hrest, workAccs]
  obtain ⟨x, hx⟩ := performItem_hostLoad ho hb hs
  rw [hdone, hx, getGroup_setGroup_same, landRegs, List.foldl_cons, List.foldl_nil, if_pos (List.contains_iff_mem.2 hlive)]
  exact vGet_putReg_v (launchOf s k).sregs _ _ _ _ _ _ hr' hr

end

/-! ## One lane that takes a cause after its issue -/

section
variable {s : State} {gk : Nat} {g : Group} {x : Raise} {pc h : DWord}

theorem mem_lanesOf_single {l : Nat} (hl : l < 32) (l' : Nat) : l' ∈ lanesOf (lanesMask [l]) ↔ l' = l := by
  rw [mem_lanesMask, List.mem_singleton]
  exact and_iff_right_of_imp fun e => e ▸ hl

theorem getLsbD_single {l : Nat} (hl : l < 32) : (lanesMask [l]).getLsbD l = true :=
  ((mem_lanesOf _ _).1 ((mem_lanesOf_single hl l).2 rfl)).2

theorem single_ne_zero {l : Nat} (hl : l < 32) : lanesMask [l] ≠ 0 := fun h => by
  have := getLsbD_single hl
  rw [h] at this
  simp at this

theorem single_and_eq_zero {l : Nat} {m : Lanes} (hl : l < 32) (hm : m.getLsbD l = false) : lanesMask [l] &&& m = 0 :=
  (lanesOf_eq_nil _).1 <| List.eq_nil_iff_forall_not_mem.2 fun l' hl' => by
    obtain ⟨hlt, hbit⟩ := (mem_lanesOf _ _).1 hl'
    rw [BitVec.getLsbD_and, Bool.and_eq_true] at hbit
    have he := (mem_lanesOf_single hl l').1 ((mem_lanesOf _ _).2 ⟨hlt, hbit.1⟩)
    rw [he, hm] at hbit
    exact absurd hbit.2 Bool.false_ne_true

/-- What parking with one cause changes in the group of its lane (R391, R392). -/
theorem parkLanes_one_frame (g : Group) (x : Raise) : parkLanes g [x] = { g with
    cause := g.cause ||| BitVec.ofNat 32 (2 ^ x.cause), epc := tabPut g.epc x.lane x.epc, fadr := tabPut g.fadr x.lane x.fadr
    fcode := tabPut g.fcode x.lane x.fcode, parked := g.parked ||| lanesMask [x.lane]
    pc := (parkLanes g [x]).pc, rejoin := (parkLanes g [x]).rejoin } := leaveJoins_frame _ _

/-- The lane stands at its resume address. -/
theorem pcOf_parkLanes_one (g : Group) (hl : x.lane < 32) : pcOf (parkLanes g [x]) x.lane = x.epc :=
  (pcOf_leaveJoins _ hl (getLsbD_single hl)).trans (tabGet_tabPut_same _ _ _ _)

theorem subGroups_one (pc : DWord) (s2 : Bool) (hl : x.lane < 32) (hpc : pcOf g x.lane = x.epc) :
    subGroups g pc s2 [x] = [⟨lanesMask [x.lane], pc, x.cause == cTRN, x.cause == cBKP, s2⟩] := by
  have hby : byPc g (lanesMask [x.lane]) = [lanesMask [x.lane]] :=
    byPc_same (single_ne_zero hl) fun l hm => (mem_lanesOf_single hl l).1 hm ▸ hpc
  simp only [subGroups, List.map_cons, List.map_nil, hby, List.filter_cons, List.filter_nil, getLsbD_single hl, if_true, List.all_cons,
    List.all_nil, Bool.and_true]

/-- One lane of a resident group takes a cause that no failed region and no hold is behind: it parks, and is delivered. -/
theorem takeLate_one (hslot : (getGroup s gk).slot.isSome = true) (hl : x.lane < 32) (hk : x.cause ≠ cHWE) (pc : DWord) (s2 : Bool) :
    takeLate s gk pc s2 [x] = deliver (setGroup s gk (parkLanes (getGroup s gk) [x])) gk (lanesMask [x.lane]) pc (x.cause == cTRN)
      (x.cause == cBKP) s2 false := by
  have hpark : parkCauses s gk [x] = setGroup s gk (parkLanes (getGroup s gk) [x]) := by
    simp [parkCauses, hk]
  simp only [takeLate, hslot, Bool.true_or, if_true, takeCauses, List.isEmpty_cons, Bool.false_eq_true, if_false, hpark,
    getGroup_setGroup_same, subGroups_one pc s2 hl (pcOf_parkLanes_one _ hl)]
  rfl

/-- A sub-group that is handed to the handler: nothing else of its group changes but items and marker, which signs that end can change. -/
theorem deliver_handled_items {m : Lanes} {bkp s2 : Bool} (hin : m &&& (getGroup s gk).hmask = 0)
    (hheld : (bkp && (getFunc s (launchOf s gk).func).holdbp) = false) (hh : (launchOf s gk).handler = some h) :
    ItemsFrame (handledGroup (getGroup s gk) m h) (getGroup (deliver s gk m pc false bkp s2 false) gk) := by
  rw [deliver_handled hin hheld hh]
  have hsigns := (cancelSigns_signsFrame (setGroup s gk (handledGroup (getGroup s gk) m h))
    (coreOf (setGroup s gk (handledGroup (getGroup s gk) m h)) gk)).1 gk
  rwa [getGroup_setGroup_same] at hsigns

theorem ItemsFrame.of_handled {g' : Group} {m : Lanes} (hi : ItemsFrame (handledGroup g m h) g') :
    g'.cause = g.cause ∧ g'.epc = g.epc ∧ g'.fadr = g.fadr ∧ g'.vreg = g.vreg := by
  rw [hi]
  exact ⟨rfl, rfl, rfl, rfl⟩

/-- The group after a lane's access violation has been handed to the handler. -/
theorem takeLate_violation (hslot : (getGroup s gk).slot.isSome = true) (hl : x.lane < 32) (hk : x.cause = cACV)
    (hh : (launchOf s gk).handler = some h) (hin : (getGroup s gk).hmask.getLsbD x.lane = false) :
    ItemsFrame (handledGroup (parkLanes (getGroup s gk) [x]) (lanesMask [x.lane]) h) (getGroup (takeLate s gk pc false [x]) gk) := by
  have hframe := parkLanes_one_frame (getGroup s gk) x
  have hnot : lanesMask [x.lane] &&& (parkLanes (getGroup s gk) [x]).hmask = 0 := by
    rw [hframe]; exact single_and_eq_zero hl hin
  have hlaunch : launchOf (setGroup s gk (parkLanes (getGroup s gk) [x])) gk = launchOf s gk := launchOf_setGroup (by rw [hframe])
  rw [takeLate_one hslot hl (by rw [hk]; decide), hk]
  have hitems := deliver_handled_items (s := setGroup s gk (parkLanes (getGroup s gk) [x])) (gk := gk) (m := lanesMask [x.lane]) (pc := pc)
    (bkp := false) (s2 := false) (by rw [getGroup_setGroup_same]; exact hnot) rfl (hlaunch ▸ hh)
  rwa [getGroup_setGroup_same] at hitems

end

section
variable {s : State} {k l r pa : Nat} {va a : DWord} {sc : Scope} {o : Out}

/-- Without a completion the item leaves the count, and its lane takes the access violation at its address. -/
theorem farFails_hostLoad (ho : o.work = hostLoad l r pa va sc) (hx : (getGroup s k).exited.getLsbD l = false) :
    farFails s k o (hostAcc l pa va) =
      takeLate (setGroup s k (retire (getGroup s k) o.seq)) k o.pc false [⟨l, cACV, o.pc, va, 0, 0⟩] := by
  have hrest : (dropAccs o fun x => x == hostAcc l pa va).work = .load .n32 1 false [(l, r)] sc [] := by
    simp [dropAccs, ho, hostLoad, mapAccs]
  have hraise : accRaises (retire (getGroup s k) o.seq) o [(hostAcc l pa va, cACV, 0)] = [⟨l, cACV, o.pc, va, 0, 0⟩] := by
    simp [accRaises, accLanes, ho, hostLoad, shared, hostAcc, retire, hx, cACV, cHWE]
  simp only [farFails, hrest, workAccs, List.isEmpty_nil, if_true, updGroup_eq, getGroup_setGroup_same, hraise]

/-- What the violation leaves in the group: the cause, the lane at the handler, and where it resumes and what failed. -/
theorem farFails_group (ho : o.work = hostLoad l r pa va sc) (hl : l < 32) (hh : (launchOf s k).handler = some a)
    (hslot : (getGroup s k).slot.isSome = true) (hin : (getGroup s k).hmask.getLsbD l = false)
    (hx : (getGroup s k).exited.getLsbD l = false) :
    let g := getGroup (farFails s k o (hostAcc l pa va)) k
    g.cause = (getGroup s k).cause ||| 32 ∧ pcOf g l = a ∧ tabGet 0 g.epc l = o.pc ∧ tabGet 0 g.fadr l = va ∧
      g.vreg = (getGroup s k).vreg := by
  have hlaunch : launchOf (setGroup s k (retire (getGroup s k) o.seq)) k = launchOf s k := launchOf_setGroup rfl
  have hitems := takeLate_violation (s := setGroup s k (retire (getGroup s k) o.seq)) (gk := k) (x := ⟨l, cACV, o.pc, va, 0, 0⟩)
    (pc := o.pc) (h := a) (by rw [getGroup_setGroup_same]; exact hslot) hl rfl (hlaunch ▸ hh) (by rw [getGroup_setGroup_same]; exact hin)
  rw [← farFails_hostLoad ho hx, getGroup_setGroup_same] at hitems
  intro g
  have hpc : pcOf g l = a := (hitems.pcOf l).trans ((pcOf_handledGroup _ _ _ hl).trans (if_pos (getLsbD_single hl)))
  have hframe := parkLanes_one_frame (retire (getGroup s k) o.seq) ⟨l, cACV, o.pc, va, 0, 0⟩
  generalize parkLanes (retire (getGroup s k) o.seq) [⟨l, cACV, o.pc, va, 0, 0⟩] = p at hitems hframe
  obtain ⟨hcause, hepc, hfadr, hvreg⟩ := hitems.of_handled
  rw [hcause, hpc, hepc, hfadr, hvreg, hframe]
  exact ⟨rfl, rfl, tabGet_tabPut_same _ _ _ _, tabGet_tabPut_same _ _ _ _, rfl⟩

end

end Sys2Proof.Machine
end

section
/-! SUPPORT. The PCIe ports (R296, R297, R429): what answers a configuration request and what it sets, a port's training, and a port that goes
down. -/

namespace Sys2Proof.Machine

variable {s u : State} {p : Nat}

/-- A port's answer to a configuration request goes out behind those before it. -/
def cfgAnswer (s : State) (p : Nat) (a : CfgReply) : State :=
  { s with pcie := { s.pcie with cfgReply := s.pcie.cfgReply ++ [(p, a)] } }

theorem configRequest_retry (hp : p < 2) (hup : portUp s p = true) (h4 : s.anchor.state ≠ 4) (h5 : s.anchor.state ≠ 5) (r : CfgReq) :
    configRequest s ⟨p, r⟩ = cfgAnswer s p .retry := by
  simp [configRequest, cfgAnswer, hup, hp, h4, h5]

theorem configRequest_read (hp : p < 2) (hup : portUp s p = true) (h4 : s.anchor.state = 4) (f : Nat) :
    configRequest s ⟨p, .read f⟩ = cfgAnswer s p (configRead s p f) := by
  simp [configRequest, cfgAnswer, hup, hp, h4]

/-- What a request sets on port 0 is set, and the answer says so. -/
theorem configRequest_taken {r : CfgReq} (hup : portUp s 0 = true) (h4 : s.anchor.state = 4) (hset : configSet s r = some u) :
    configRequest s ⟨0, r⟩ = cfgAnswer u 0 .taken := by
  cases r with
  | read f => cases hset
  | _ => simp [configRequest, cfgAnswer, hup, h4, hset]

theorem safeState_of_running (h4 : s.anchor.state = 4) : safeState s = false := by simp [safeState, h4]

/-! ## What the ports show, R297 -/

theorem configRead_upper (f : Nat) : configRead s 1 f = if f = 0 then .present true [] else .absent := by simp [configRead]

theorem configRead_physical (h4 : s.anchor.state = 4) :
    configRead s 0 0 = .present false [(0, 2 ^ 26), (2, 2 ^ 23), (4, s.pcie.bar4)] := by
  simp [configRead, safeState_of_running h4]

theorem configRead_virtual {f : Nat} (h0 : f ≠ 0) :
    configRead s 0 f = if f ≤ s.pcie.numVfs then .present false [(0, 2 ^ 20), (2, 2 ^ 23)] else .absent := by
  simp [configRead, h0]

/-! ## What the host sets, R296, R297 -/

theorem configSet_numVfs {n : Nat} (h4 : s.anchor.state = 4) (hn : n ≤ 63) :
    configSet s (.numVfs n) = some { s with pcie := { s.pcie with numVfs := n } } := by
  simp [configSet, safeState_of_running h4, hn]

theorem configSet_bar4 {n : Nat} (h4 : s.anchor.state = 4) (hlo : 30 ≤ n) (hhi : n ≤ 39) :
    configSet s (.bar4 n) = some { s with pcie := { s.pcie with bar4 := 2 ^ n } } := by
  simp [configSet, safeState_of_running h4, hlo, hhi]

theorem configSet_pri {f : Nat} {on : Bool} (hf : f ≤ s.pcie.numVfs) :
    configSet s (.pri f on) = some (setFunc s f { getFunc s f with pri := on }) := by
  simp [configSet, hf, updFunc]

theorem configSet_ats {f : Nat} {on : Bool} (hf : f ≤ s.pcie.numVfs) : configSet s (.ats f on) = some (setAts s f on) := by
  simp [configSet, hf]

/-- Without a waiting element nothing walks again. -/
theorem walkEach_nil (s : State) (after : Elem → Option Nat) : walkEach s [] after = s := rfl

/-- With no element that waits, switching ATS drops the function's translations and sets its bit. -/
theorem setAts_no_elems (he : s.elems = []) (f : Nat) (on : Bool) :
    (getFunc (setAts s f on) f).ats = on ∧ (setAts s f on).mem = s.mem := by
  simp [setAts, he, sortBy, walkEach_nil, updFunc, getFunc, setFunc]

/-! ## Training and loss of a port, R296, R429 -/

theorem linkTrain_trains {rate width : Nat} (hp : p < 2) (hlo : 1 ≤ rate) (hhi : rate ≤ 7) (hw : width ∈ [1, 2, 4, 8, 16])
    (h : p = 0 ∨ s.anchor.state = 4) :
    linkTrain s p rate width = updPcie s p fun x => { x with up := true, rate := rate, width := width } := by
  have hr : (p == 0 || running s) = true := by simpa [running] using h
  have hc := List.contains_iff_mem.mpr hw
  simp only [linkTrain, hp, hlo, hhi, hc, hr, decide_true, Bool.and_true, if_true]

@[simp] theorem getPcie_updPcie_same (f : PciePort → PciePort) :
    tabGet pcieReset (updPcie s p f).pcie.ports p = f (tabGet pcieReset s.pcie.ports p) := by simp [updPcie, tabUpd]

theorem portUp_updPcie_other {q : Nat} (f : PciePort → PciePort) (h : q ≠ p) : portUp (updPcie s p f) q = portUp s q := by
  simp [portUp, updPcie, tabUpd, tabGet_tabPut_other _ _ _ _ _ h]

end Sys2Proof.Machine
end

section
/-! SUPPORT. Filters of sectors (R361, R362): a sector that was added to a filter is in it, whatever was added besides. -/

namespace Sys2Proof.Machine

theorem rotL11_lt (v n : Nat) : rotL11 v n < 2 ^ 11 := Nat.mod_lt _ (by decide)

/-- The bits that `rev11` has set from the low `n` of its argument lie at the top. -/
theorem rev11_low_le (v : Nat) : ∀ n, n ≤ 11 →
    (List.range n).foldl (fun a i => a + (v / 2 ^ i % 2) * 2 ^ (10 - i)) 0 + 2 ^ (11 - n) ≤ 2 ^ 11 := by
  intro n
  induction n with
  | zero => intro _; simp
  | succ n ih =>
    intro hn
    have hbit : v / 2 ^ n % 2 * 2 ^ (10 - n) ≤ 1 * 2 ^ (10 - n) := Nat.mul_le_mul_right _ (by omega)
    have hpow : 2 ^ (11 - n) = 2 * 2 ^ (10 - n) := by rw [show 11 - n = (10 - n) + 1 by omega, Nat.pow_succ, Nat.mul_comm]
    have := ih (by omega)
    rw [List.range_succ, List.foldl_append, List.foldl_cons, List.foldl_nil, show 11 - (n + 1) = 10 - n by omega]
    omega

theorem rev11_lt (v : Nat) : rev11 v < 2 ^ 11 := by
  have := rev11_low_le v 11 (by omega)
  unfold rev11
  omega

theorem bitsOf_lt {x m l : Nat} (h : m + 1 - l ≤ 11) : bitsOf x m l < 2 ^ 11 :=
  Nat.lt_of_lt_of_le (Nat.mod_lt _ (Nat.two_pow_pos _)) (Nat.pow_le_pow_right (by decide) h)

/-- Each hash is a place in a filter of 2,048 bits. -/
theorem hashBits_lt (pa : Nat) : (hashBits pa).1 < 2 ^ 11 ∧ (hashBits pa).2.1 < 2 ^ 11 ∧ (hashBits pa).2.2 < 2 ^ 11 := by
  have h0 : bitsOf (pa / 64) 10 0 < 2 ^ 11 := bitsOf_lt (by decide)
  have h1 : bitsOf (pa / 64) 21 11 < 2 ^ 11 := bitsOf_lt (by decide)
  have h2 : bitsOf (pa / 64) 32 22 < 2 ^ 11 := bitsOf_lt (by decide)
  have h3 : bitsOf (pa / 64) 43 33 < 2 ^ 11 := bitsOf_lt (by decide)
  have h4 : bitsOf (pa / 64) 49 44 < 2 ^ 11 := bitsOf_lt (by decide)
  exact ⟨Nat.xor_lt_two_pow (Nat.xor_lt_two_pow (Nat.xor_lt_two_pow (Nat.xor_lt_two_pow h0 h1) h2) h3) h4,
    Nat.xor_lt_two_pow (Nat.xor_lt_two_pow (Nat.xor_lt_two_pow (Nat.xor_lt_two_pow (rotL11_lt _ _) (rotL11_lt _ _)) h2)
      (rotL11_lt _ _)) h4,
    Nat.xor_lt_two_pow (Nat.xor_lt_two_pow (Nat.xor_lt_two_pow (Nat.xor_lt_two_pow (rev11_lt _) h1) (rotL11_lt _ _)) h3)
      (rotL11_lt _ _)⟩

/-- A filter with more bits has every sector that the one with fewer has. -/
theorem filtHas_mono {f g : BitVec 2048} {pa : Nat} (hsub : ∀ i, f.getLsbD i = true → g.getLsbD i = true) (h : filtHas f pa = true) :
    filtHas g pa = true := by
  simp only [filtHas, Bool.and_eq_true] at h ⊢
  exact ⟨⟨hsub _ h.1.1, hsub _ h.1.2⟩, hsub _ h.2⟩

theorem filtHas_or_right {f g : BitVec 2048} {pa : Nat} (h : filtHas g pa = true) : filtHas (f ||| g) pa = true :=
  filtHas_mono (fun i hi => by simp [hi]) h

/-- The bytes of one sector match alike. -/
theorem filtHas_sector (f : BitVec 2048) {a b : Nat} (h : a / 64 = b / 64) : filtHas f a = filtHas f b := by
  simp only [filtHas, hashBits, h]

theorem getLsbD_ofNat_two_pow {i : Nat} (h : i < 2 ^ 11) : (BitVec.ofNat 2048 (2 ^ i)).getLsbD i = true := by
  simp only [BitVec.getLsbD_ofNat, Nat.testBit_two_pow_self, Bool.and_true, decide_eq_true_eq]
  exact h

theorem filtHas_filtAdd_same (f : BitVec 2048) (pa : Nat) : filtHas (filtAdd f pa) pa = true := by
  obtain ⟨h1, h2, h3⟩ := hashBits_lt pa
  simp only [filtHas, filtAdd, BitVec.getLsbD_or, getLsbD_ofNat_two_pow h1, getLsbD_ofNat_two_pow h2, getLsbD_ofNat_two_pow h3,
    Bool.true_or, Bool.or_true, Bool.and_self]

theorem getLsbD_filtAdd {f : BitVec 2048} {pa i : Nat} (h : f.getLsbD i = true) : (filtAdd f pa).getLsbD i = true := by
  simp only [filtAdd, BitVec.getLsbD_or, h, Bool.true_or]

theorem getLsbD_foldl_filtAdd {f : BitVec 2048} {i : Nat} (ps : List Nat) (h : f.getLsbD i = true) :
    (ps.foldl filtAdd f).getLsbD i = true := by
  induction ps generalizing f with
  | nil => exact h
  | cons p ps ih => exact ih (getLsbD_filtAdd h)

/-- Every sector of a list is in the filter that the list was added to. -/
theorem filtHas_foldl_filtAdd {f : BitVec 2048} {ps : List Nat} {pa : Nat} (h : pa ∈ ps) : filtHas (ps.foldl filtAdd f) pa = true := by
  induction ps generalizing f with
  | nil => cases h
  | cons p ps ih =>
    rcases List.mem_cons.1 h with rfl | h
    · exact filtHas_mono (fun _ hi => getLsbD_foldl_filtAdd ps hi) (filtHas_filtAdd_same f pa)
    · exact ih h

/-- The first bytes of the sectors that a range of bytes touches. -/
def sectorsOf (off n : Nat) : List Nat := (List.range ((off % 64 + n + 63) / 64)).map fun i => off / 64 * 64 + 64 * i

theorem sectorStart_mem {off n a : Nat} (hlo : off / 64 ≤ a / 64) (hhi : a < off + n) : a / 64 * 64 ∈ sectorsOf off n :=
  List.mem_map.2 ⟨a / 64 - off / 64, List.mem_range.2 (by omega), by omega⟩

/-- A filter that took the sectors of a range matches each byte of them. -/
theorem filtHas_sectorsOf {off n a : Nat} (hlo : off / 64 ≤ a / 64) (hhi : a < off + n) :
    filtHas ((sectorsOf off n).foldl filtAdd 0) a = true :=
  (filtHas_sector _ (by omega)).trans (filtHas_foldl_filtAdd (sectorStart_mem hlo hhi))

end Sys2Proof.Machine
end

section
/-! SUPPORT. Writes from outside the cores (R297, R305, R364, R365): the bytes they change at L2, what they leave alone, and the filters that
record their sectors; and host accesses through BAR4. -/

namespace Sys2Proof.Machine

variable {s : State} {off n : Nat} {bs : List Byte}

/-! ## Bytes at L2 -/

theorem l2Byte_l2Put (s : State) (a c : Nat) (b : Byte) : l2Byte (l2Put s a b) c = if c = a then b else l2Byte s c := by
  by_cases h : c = a
  · subst h; simp only [l2Byte, l2Put_l2, tabFind_tabPut_same, if_true]
  · simp only [l2Byte, l2Put_l2, l2Put_mem, tabFind_tabPut_other _ _ _ _ h, h, if_false]

/-- The bytes of a list, put at L2 one after another. -/
def l2Puts (s : State) (off : Nat) (bs : List Byte) (n : Nat) : State :=
  (List.range n).foldl (fun s i => l2Put s (off + i) (bs.getD i 0)) s

theorem l2Puts_succ (s : State) (off : Nat) (bs : List Byte) (n : Nat) :
    l2Puts s off bs (n + 1) = l2Put (l2Puts s off bs n) (off + n) (bs.getD n 0) := by
  simp only [l2Puts, List.range_succ, List.foldl_append, List.foldl_cons, List.foldl_nil]

theorem l2Byte_l2Puts_same (s : State) (off : Nat) (bs : List Byte) {j n : Nat} (hj : j < n) :
    l2Byte (l2Puts s off bs n) (off + j) = bs.getD j 0 := by
  induction n with
  | zero => omega
  | succ n ih =>
    rw [l2Puts_succ, l2Byte_l2Put]
    split
    · next h => rw [show j = n by omega]
    · exact ih (by omega)

theorem l2Byte_l2Puts_other (s : State) (off : Nat) (bs : List Byte) {a n : Nat} (h : ¬ (off ≤ a ∧ a < off + n)) :
    l2Byte (l2Puts s off bs n) a = l2Byte s a := by
  induction n with
  | zero => rfl
  | succ n ih => rw [l2Puts_succ, l2Byte_l2Put, if_neg (by omega), ih (by omega)]

theorem l2Puts_frame (s : State) (off : Nat) (bs : List Byte) (n : Nat) :
    l2Puts s off bs n = { s with l2 := (l2Puts s off bs n).l2, obs := (l2Puts s off bs n).obs } :=
  foldl_rel (fr := fun a b => b = { a with l2 := b.l2, obs := b.obs }) (fun _ => rfl) (fun h k => k.trans (by rw [h]))
    (fun s i => l2Put_frame s _ _) _ s

/-! ## Filters -/

/-- A core's ACQF takes the sectors of a write from outside, unless an acquire of this cycle does (R364). -/
theorem acqf_acqAddAll {c : Nat} (hc : c < 192) (hnow : acqNow s c = none) (ps : List Nat) :
    (getCore (acqAddAll s ps) c).acqf = (getCore s c).acqf ||| ps.foldl filtAdd 0 := by
  rw [getCore_acqAddAll s ps c hc, hnow]
  rfl

/-- The only acquire in progress, when it took its core's ACQF in this cycle, takes the sectors instead (R365). -/
theorem acqs_acqAddAll {x : Acquire} (hx : s.acqs = [x]) (hcyc : x.cyc = s.now) (ps : List Nat) :
    (acqAddAll s ps).acqs = [{ x with filt := x.filt ||| ps.foldl filtAdd 0 }] := by
  have hnow : acqNow s x.core = some x.id := by simp [acqNow, hx, hcyc]
  simp only [acqAddAll, acqRecord, hx, List.map_cons, List.map_nil, hnow, Bool.true_and, beq_self_eq_true, if_true]

/-! ## Writes from outside -/

theorem outsideWrite_eq (s : State) (off : Nat) (bs : List Byte) :
    outsideWrite s off bs = l2Puts (acqAddAll s (sectorsOf off bs.length)) off bs bs.length := rfl

theorem l2Byte_outsideWrite_same {j : Nat} (hj : j < bs.length) : l2Byte (outsideWrite s off bs) (off + j) = bs.getD j 0 :=
  l2Byte_l2Puts_same _ off bs hj

theorem l2Byte_outsideWrite_other {a : Nat} (h : ¬ (off ≤ a ∧ a < off + bs.length)) : l2Byte (outsideWrite s off bs) a = l2Byte s a := by
  rw [outsideWrite_eq, l2Byte_l2Puts_other _ off bs h, acqAddAll_frame]
  rfl

theorem outsideWrite_frame (s : State) (off : Nat) (bs : List Byte) : outsideWrite s off bs = { s with
    l2 := (outsideWrite s off bs).l2, obs := (outsideWrite s off bs).obs, cores := (acqAddAll s (sectorsOf off bs.length)).cores
    acqs := (acqAddAll s (sectorsOf off bs.length)).acqs } := by
  rw [outsideWrite_eq, l2Puts_frame, acqAddAll_frame]

theorem filtHas_acqf_outsideWrite {c a : Nat} (hc : c < 192) (hnow : acqNow s c = none) (hlo : off / 64 ≤ a / 64) (hhi : a < off + bs.length) :
    filtHas (getCore (outsideWrite s off bs) c).acqf a = true := by
  have hcore : getCore (outsideWrite s off bs) c = getCore (acqAddAll s (sectorsOf off bs.length)) c := by
    rw [outsideWrite_frame]; rfl
  rw [hcore, acqf_acqAddAll hc hnow]
  exact filtHas_or_right (filtHas_sectorsOf hlo hhi)

theorem filtHas_acquire_outsideWrite {x : Acquire} {a : Nat} (hx : s.acqs = [x]) (hcyc : x.cyc = s.now) (hlo : off / 64 ≤ a / 64)
    (hhi : a < off + bs.length) : ∃ y, (outsideWrite s off bs).acqs = [y] ∧ y.id = x.id ∧ filtHas y.filt a = true := by
  have hacqs : (outsideWrite s off bs).acqs = (acqAddAll s (sectorsOf off bs.length)).acqs := by rw [outsideWrite_frame]
  exact ⟨_, hacqs.trans (acqs_acqAddAll hx hcyc _), rfl, filtHas_or_right (filtHas_sectorsOf hlo hhi)⟩

/-! ## BAR4, R297 -/

theorem beyondDram_iff (off n : Nat) : beyondDram off n = true ↔ Config.dramBytes ≤ off ∨ Config.dramBytes < off + n := by
  simp [beyondDram]

theorem beyondDram_local (hlo : off < Config.dramBytes) (hhi : off + n ≤ Config.dramBytes) : beyondDram off n = false := by
  rw [← Bool.not_eq_true, beyondDram_iff]
  omega

theorem bar4Write_local (hr : running s = true) (hb : off < s.pcie.bar4) (hd : beyondDram off bs.length = false)
    (hl : rangeLost s off bs.length = false) : bar4Write s off bs = outsideWrite s off bs := by
  simp [bar4Write, hr, hb, hd, hl]

theorem bar4Write_beyond (hr : running s = true) (hb : off < s.pcie.bar4) (hd : beyondDram off bs.length = true) :
    bar4Write s off bs = { s with pcie := { s.pcie with urs := s.pcie.urs + 1 } } := by
  simp [bar4Write, hr, hb, hd]

theorem bar4Read_local (hr : running s = true) (hb : off < s.pcie.bar4) (hd : beyondDram off n = false) (hl : rangeLost s off n = false) :
    bar4Read s off n = { s with pcie := { s.pcie with
      reads := s.pcie.reads ++ [(off, some ((List.range n).map fun j => l2Byte s (off + j)))] } } := by
  simp [bar4Read, hr, hb, hd, hl]

theorem bar4Read_beyond (hr : running s = true) (hb : off < s.pcie.bar4) (hd : beyondDram off n = true) :
    bar4Read s off n = { s with pcie := { s.pcie with urs := s.pcie.urs + 1, reads := s.pcie.reads ++ [(off, none)] } } := by
  simp [bar4Read, hr, hb, hd]

end Sys2Proof.Machine
end

section
/-! SUPPORT. Peers (R304 to R306): a request at a port, the flits that a port takes and those that draw a NAK, and a port that goes down. -/

namespace Sys2Proof.Machine

variable {s t : State} {port src xid : Nat} {f : Flit} {b : FlitBody}

/-! ## Requests of peers, R305 -/

theorem peerInbound_frozen (hf : (getPort s port).frozen = true) (r : PeerReq) : peerInbound s port src r = s := by
  simp [peerInbound, hf]

/-- An open port takes a request that is admitted, and freezes on any other. -/
theorem peerInbound_open (hf : (getPort s port).frozen = false) (hd : (getPort s port).down = false) (hr : released s (.link port) = true)
    (r : PeerReq) : peerInbound s port src r =
      if peerAdmits s src r then peerPerform s port src r
      else fatalRecord (updPort s port fun p => { p with frozen := true }) 0 none
        ⟨0, 0, 0, 0, 0, 0, 0, BitVec.ofNat 64 (port % 32 + src % 4096 * 2 ^ 16), 0, 0x06⟩ := by
  simp only [peerInbound, hf, hd, hr, Bool.not_true, Bool.or_self, Bool.false_eq_true, if_false]

/-- Without an injection an admitted write is one from outside the cores. -/
theorem peerPerform_write {off : Nat} {bs : List Byte} (hl : rangeLost s off bs.length = false) (hv : s.peers.vlinj.getLsbD 63 = false) :
    peerPerform s port src (.write off bs) = outsideWrite s off bs := by
  simp only [peerPerform, reqRange, hl, injected, hv, Bool.false_and, Bool.false_eq_true, if_false]

theorem RecordFrame.getPort {s t : State} (h : RecordFrame s t) (m : Nat) : getPort t m = Machine.getPort s m := by
  unfold RecordFrame at h; rw [h]; rfl

/-- A request that is not admitted freezes its port; teams and the plaza stay. -/
theorem peerInbound_refused (hf : (getPort s port).frozen = false) (hd : (getPort s port).down = false)
    (hr : released s (.link port) = true) {r : PeerReq} (ha : peerAdmits s src r = false) :
    getPort (peerInbound s port src r) port = { getPort s port with frozen := true } ∧ (peerInbound s port src r).teams = s.teams ∧
      (peerInbound s port src r).plaza = s.plaza := by
  rw [peerInbound_open hf hd hr, ha, if_neg Bool.false_ne_true]
  have hfr := fatalRecord_frame (updPort s port fun p => { p with frozen := true }) 0 none
    ⟨0, 0, 0, 0, 0, 0, 0, BitVec.ofNat 64 (port % 32 + src % 4096 * 2 ^ 16), 0, 0x06⟩
  refine ⟨(hfr.getPort port).trans (getPort_updPort_same _ _ _), ?_⟩
  unfold RecordFrame at hfr
  rw [hfr]
  exact ⟨rfl, rfl⟩

/-! ## A port that goes down, R306 -/

/-- Ports number and keep flits; nothing else of a port changes, and no transaction identifier is taken. -/
def SendFrame (s t : State) : Prop :=
  t.peers.seen = s.peers.seen ∧ ∀ m, getPort t m = { getPort s m with outSeq := (getPort t m).outSeq, sent := (getPort t m).sent }

theorem SendFrame.refl (s : State) : SendFrame s s := ⟨rfl, fun _ => rfl⟩

theorem SendFrame.trans {a b c : State} (h : SendFrame a b) (k : SendFrame b c) : SendFrame a c :=
  ⟨k.1.trans h.1, fun m => (k.2 m).trans (by rw [h.2 m])⟩

theorem SendFrame.of_ports (hseen : t.peers.seen = s.peers.seen) (hports : t.peers.ports = s.peers.ports) : SendFrame s t := by
  refine ⟨hseen, fun m => ?_⟩
  have h : getPort t m = getPort s m := by simp only [getPort, hports]
  rw [h]

theorem sendFlit_sendFrame {xid line : Nat} (h : sendFlit s xid line = some t) : SendFrame s t := by
  obtain ⟨-, rfl⟩ | ⟨p, -, -, rfl⟩ := sendFlit_cases h
  · exact .refl _
  · refine ⟨rfl, fun m => ?_⟩
    by_cases hm : m = p
    · subst hm; simp only [getPort_updPort_same]
    · simp only [getPort_updPort_other _ _ _ _ hm]

theorem drainUnsent_sendFrame (s : State) : SendFrame s (drainUnsent s) := by
  refine SendFrame.trans (b := { s with peers := { s.peers with unsent := [] } }) (.of_ports rfl rfl)
    (foldl_rel SendFrame.refl SendFrame.trans (fun z x => ?_) _ _)
  split
  · next ht => exact sendFlit_sendFrame ht
  · exact .of_ports rfl rfl

theorem noteEarly_sendFrame (old s : State) : SendFrame s (noteEarly old s) := by
  simp only [noteEarly]
  split <;> exact .of_ports rfl rfl

theorem RecordFrame.sendFrame (h : RecordFrame s t) : SendFrame s t := by
  unfold RecordFrame at h; rw [h]; exact .of_ports rfl rfl

/-- The port is down with nothing to send again; for the rest requests are sent on other ports and a record is written. -/
theorem portDown_sendFrame (s : State) (port : Nat) :
    SendFrame (updPort s port fun p => { p with down := true, sent := [], again := [] }) (portDown s port) := by
  refine (noteEarly_sendFrame s _).trans ?_
  refine SendFrame.trans ?_ (hwRecord_frame _ _).sendFrame
  exact SendFrame.trans (.of_ports rfl rfl) (drainUnsent_sendFrame _)

theorem portDown_seen (s : State) (port : Nat) : (portDown s port).peers.seen = s.peers.seen := (portDown_sendFrame s port).1

theorem getPort_portDown (s : State) (port : Nat) : getPort (portDown s port) port = { getPort s port with
    down := true, again := [], outSeq := (getPort (portDown s port) port).outSeq, sent := (getPort (portDown s port) port).sent } := by
  have h := (portDown_sendFrame s port).2 port
  rw [getPort_updPort_same] at h
  exact h

/-! ## Flits, R306 -/

/-- A port that has taken the flit in sequence, and its acknowledgement. -/
def flitTaken (ack : BitVec 12) (p : LinkPort) : LinkPort := ackTaken { p with expSeq := p.expSeq + 1, fails := 0, nak := none } ack

/-- A flit in sequence with a good CRC is taken; with no request that waits for room nothing is sent. -/
theorem flitReceive_taken (hd : (getPort s port).down = false) (hr : released s (.link port) = true) (hu : s.peers.unsent = [])
    (hc : f.crc = flitCrc f) (hq : f.seq = (getPort s port).expSeq) :
    flitReceive s port f = flitBody (updPort s port (flitTaken f.ack)) port f.body := by
  have hsent : drainUnsent (updPort s port (flitTaken f.ack)) = updPort s port (flitTaken f.ack) := drainUnsent_none _ hu
  simp only [flitReceive, hd, hr, hq, ← hc, Bool.not_true, Bool.or_self, Bool.false_eq_true, if_false, beq_self_eq_true, Bool.and_self,
    if_true]
  exact congrArg (fun z => flitBody z port f.body) hsent

theorem flitBody_seen {r : PeerReq} (h : (src, xid) ∈ s.peers.seen) : flitBody s port (.req src xid r) = s := by
  simp [flitBody, h]

theorem flitBody_new {r : PeerReq} (h : (src, xid) ∉ s.peers.seen) : flitBody s port (.req src xid r) =
    peerInbound { s with peers := { s.peers with seen := s.peers.seen ++ [(src, xid)] } } port src r := by
  simp [flitBody, h]

/-- The port when a NAK has named a flit of it. -/
def nakNoted (n : BitVec 12) (p : LinkPort) : LinkPort :=
  { p with nakd := some n, tries := if p.nakd = some n then p.tries + 1 else 1
           sent := p.sent.filter fun x => seqBy n x.seq, again := p.sent.filter fun x => seqBy n x.seq }

/-- The flit that a NAK names has failed as a first sending and 16 replays. -/
def nakLast (n : BitVec 12) (p : LinkPort) : Prop := p.nakd = some n ∧ 16 ≤ p.tries

theorem nakNoted_tries (n : BitVec 12) (p : LinkPort) : 16 < (nakNoted n p).tries ↔ nakLast n p := by
  unfold nakNoted nakLast
  dsimp only
  split
  · next h => simp only [h, true_and]; omega
  · next h => simp [h]

theorem nakTaken_last {n : BitVec 12} (h : nakLast n (getPort s port)) :
    nakTaken s port n = portDown (updPort s port (nakNoted n)) port := if_pos ((nakNoted_tries n _).2 h)

theorem nakTaken_again {n : BitVec 12} (h : ¬ nakLast n (getPort s port)) (hu : s.peers.unsent = []) :
    nakTaken s port n = updPort s port (nakNoted n) :=
  (if_neg (mt (nakNoted_tries n _).1 h)).trans (drainUnsent_none _ hu)

/-- A flit out of sequence draws a NAK for the number expected, and does not count as failed. -/
theorem flitReceive_ahead (hd : (getPort s port).down = false) (hr : released s (.link port) = true)
    (hc : f.crc = flitCrc f) (hq : f.seq ≠ (getPort s port).expSeq) (hn : (getPort s port).fails ≤ 16) :
    flitReceive s port f = updPort s port fun p => { p with fails := (getPort s port).fails, nak := some p.expSeq } := by
  have hn' : ¬ 16 < (getPort s port).fails := by omega
  simp only [flitReceive, hd, hr, ← hc, bne_self_eq_false, beq_eq_false_iff_ne.mpr hq, hn', Bool.not_true, Bool.or_self, Bool.and_false,
    Bool.false_eq_true, if_false]

/-- A flit with a bad CRC draws a NAK and counts as failed; the seventeenth failure takes the port down. -/
theorem flitReceive_failed (hd : (getPort s port).down = false) (hr : released s (.link port) = true) (hc : f.crc ≠ flitCrc f) :
    flitReceive s port f =
      if 16 < (getPort s port).fails + 1 then
        portDown (updPort s port fun p => { p with fails := (getPort s port).fails + 1, nak := some p.expSeq }) port
      else updPort s port fun p => { p with fails := (getPort s port).fails + 1, nak := some p.expSeq } := by
  simp only [flitReceive, hd, hr, beq_eq_false_iff_ne.mpr hc, bne_iff_ne.mpr hc, Bool.not_true, Bool.or_self, Bool.false_and,
    Bool.false_eq_true, if_false, if_true]

theorem exec_flitReceive_failed (hd : (getPort s port).down = false) (hr : released s (.link port) = true) (hc : f.crc ≠ flitCrc f) :
    ∃ t, exec (.flitReceive port f) s = .next t ∧ (getPort t port).nak = some (getPort s port).expSeq ∧
      (getPort t port).fails = (getPort s port).fails + 1 ∧ (getPort t port).expSeq = (getPort s port).expSeq ∧
      (getPort t port).down = decide (16 ≤ (getPort s port).fails) ∧ t.peers.seen = s.peers.seen := by
  refine ⟨_, congrArg Host.Outcome.next (flitReceive_failed hd hr hc), ?_⟩
  split
  · next h =>
    rw [getPort_portDown, portDown_seen, getPort_updPort_same]
    exact ⟨rfl, rfl, rfl, (decide_eq_true (by omega)).symm, rfl⟩
  · next h =>
    rw [getPort_updPort_same]
    exact ⟨rfl, rfl, rfl, hd.trans (decide_eq_false (by omega)).symm, rfl⟩

/-- What a NAK does to the port that sent the flit. -/
theorem nakTaken_port {n : BitVec 12} (hd : (getPort s port).down = false) (hu : s.peers.unsent = []) :
    (getPort (nakTaken s port n) port).nakd = some n ∧
      ((getPort (nakTaken s port n) port).down = true ↔ nakLast n (getPort s port)) ∧
      (¬ nakLast n (getPort s port) → (nakTaken s port n).mem = s.mem ∧
        ∀ x, x ∈ (getPort (nakTaken s port n) port).sent ↔ x ∈ (getPort s port).sent ∧ seqBy n x.seq = true) := by
  by_cases h : nakLast n (getPort s port)
  · rw [nakTaken_last h, getPort_portDown, getPort_updPort_same]
    exact ⟨rfl, iff_of_true rfl h, fun hno => absurd h hno⟩
  · rw [nakTaken_again h hu, getPort_updPort_same]
    exact ⟨rfl, iff_of_false (by simp [nakNoted, hd]) h, fun _ => ⟨rfl, fun x => List.mem_filter⟩⟩

end Sys2Proof.Machine
end

section
/-! SUPPORT. The statement HostAndPeers. -/

namespace Sys2Proof.Machine

/-- Settles O55, one instruction after another: each step is evaluated to the write from outside, the answer, the performed load, the delivered
violation or the changed port that it makes, and what is asked of these was proved above. -/
theorem hostAndPeers : Obligations.HostAndPeers := by
  refine ⟨?_, ?_, ?_, ?_⟩
  · intro s off n bs hr hb
    refine ⟨fun hlo hhi hl => ?_, fun hlo hhi hl => ?_, fun hd => ?_, fun hd => ?_⟩
    · refine ⟨_, congrArg Host.Outcome.next (bar4Write_local hr hb (beyondDram_local hlo hhi) hl), fun j hj => l2Byte_outsideWrite_same hj,
        fun a ha => l2Byte_outsideWrite_other ha, by rw [outsideWrite_frame], by rw [outsideWrite_frame], fun c a hc ha hend => ?_⟩
      exact ⟨fun hnow => filtHas_acqf_outsideWrite hc hnow ha hend, fun x hx _ hcyc => filtHas_acquire_outsideWrite hx hcyc ha hend⟩
    · exact congrArg Host.Outcome.next (bar4Read_local hr hb (beyondDram_local hlo hhi) hl)
    · exact congrArg Host.Outcome.next (bar4Write_beyond hr hb ((beyondDram_iff _ _).2 hd))
    · exact ⟨_, congrArg Host.Outcome.next (bar4Read_beyond hr hb ((beyondDram_iff _ _).2 hd)), rfl, rfl⟩
  · intro s k seq o l pa r va a sc hfind (ho : o.work = hostLoad l r pa va sc) hb hup hm hl hr hlive hs
    have hanswer := hostAnswer_hostLoad hfind ho (hb 0 (by omega)) hm hup
    refine ⟨⟨_, congrArg Host.Outcome.next (hanswer true), ?_, fun l' r' hr' hne => ?_⟩, fun i st hi hh hslot hin hx => ?_⟩
    · exact (farDone_hostLoad ho hb hs hr hlive hr).trans (if_pos ⟨rfl, rfl⟩)
    · exact (farDone_hostLoad ho hb hs hr hlive hr').trans (if_neg hne)
    · have hexec : exec i s = .next (hostAnswer s (.lane k seq) false) := by
        rcases hi with ⟨rfl, hst⟩ | rfl
        · rw [exec_hostCompletion, execHostCompletion, decide_eq_false hst]
        · rfl
      exact ⟨_, hexec.trans (congrArg Host.Outcome.next (hanswer false)), farFails_group ho hl hh hslot hin hx⟩
  · intro s p rate width hp answers
    refine ⟨fun hup h4 h5 r => congrArg Host.Outcome.next (configRequest_retry hp hup h4 h5 r), fun hup h4 => ⟨?_, ?_⟩, ?_, ?_⟩
    · rintro rfl
      have hread : ∀ f, answers (.read f) s (if f = 0 then .present true [] else .absent) := fun f =>
        congrArg Host.Outcome.next ((configRequest_read hp hup h4 f).trans (congrArg _ (configRead_upper f)))
      exact ⟨hread 0, fun f hf => by simpa only [hf, if_false] using hread f⟩
    · rintro rfl
      have hread : ∀ {f a}, configRead s 0 f = a → answers (.read f) s a := fun ha =>
        congrArg Host.Outcome.next ((configRequest_read hp hup h4 _).trans (congrArg _ ha))
      have htaken : ∀ {r u}, configSet s r = some u → answers r u .taken := fun hset =>
        congrArg Host.Outcome.next (configRequest_taken hup h4 hset)
      refine ⟨hread (configRead_physical h4), fun f h0 hf => hread ((configRead_virtual h0).trans (if_pos hf)),
        fun f hf => hread ((configRead_virtual (by omega)).trans (if_neg (by omega))), fun n hn => htaken (configSet_numVfs h4 hn),
        fun n hlo hhi => htaken (configSet_bar4 h4 hlo hhi), fun f on hf => ⟨fun he => ?_, htaken (configSet_pri hf)⟩⟩
      exact ⟨_, htaken (configSet_ats hf), setAts_no_elems he f on⟩
    · intro hlo hhi hw h
      refine ⟨_, congrArg Host.Outcome.next (linkTrain_trains hp hlo hhi hw h), ?_, ?_, ?_⟩ <;> simp [portUp]
    · exact ⟨_, congrArg Host.Outcome.next (if_pos hp), congrArg _ (getPcie_updPcie_same _), fun q hq => portUp_updPcie_other _ hq⟩
  · intro s port src off xid bs r f _ hd hr hu p p'
    have hport : getPort (updPort s port (flitTaken f.ack)) port = p' := getPort_updPort_same _ _ _
    have hdown : p'.down = false := (ackTaken_down _ _).trans hd
    refine ⟨fun hf ha hl hv => ?_, fun hf ha => ?_, fun hf => ?_, fun hc hq hb => ⟨fun hs => ?_, fun hs => ?_⟩, fun n hc hq hb => ?_,
      fun hc hq hn => ?_, fun hc => exec_flitReceive_failed hd hr hc⟩
    · refine ⟨_, congrArg Host.Outcome.next ((peerInbound_open hf hd hr _).trans ((if_pos ha).trans (peerPerform_write hl hv))),
        fun j hj => l2Byte_outsideWrite_same hj, fun a h => l2Byte_outsideWrite_other h, ?_, ?_⟩ <;> rw [outsideWrite_frame]
    · exact ⟨_, rfl, peerInbound_refused hf hd hr ha⟩
    · exact congrArg Host.Outcome.next (peerInbound_frozen hf _)
    · have h := flitReceive_taken hd hr hu hc hq
      rw [hb] at h
      exact ⟨_, congrArg Host.Outcome.next (h.trans (flitBody_seen hs)), hport, rfl, rfl, rfl⟩
    · have h := flitReceive_taken hd hr hu hc hq
      rw [hb] at h
      exact ⟨_, congrArg Host.Outcome.next (h.trans (flitBody_new hs)), hport, rfl, rfl, rfl⟩
    · have h := flitReceive_taken hd hr hu hc hq
      rw [hb] at h
      obtain ⟨hnak, hlast, hagain⟩ := nakTaken_port (n := n) (hport ▸ hdown) (show (updPort s port (flitTaken f.ack)).peers.unsent = [] from hu)
      rw [hport] at hlast hagain
      have hdownIff := hlast.trans (decide_eq_true_iff (p := p'.nakd = some n ∧ 16 ≤ p'.tries)).symm
      exact ⟨_, congrArg Host.Outcome.next h, hnak, Bool.eq_iff_iff.2 hdownIff, hagain⟩
    · exact ⟨_, congrArg Host.Outcome.next (flitReceive_ahead hd hr hc hq hn), getPort_updPort_same _ _ _, rfl, rfl⟩

end Sys2Proof.Machine
end

section
/-! SUPPORT. Words that act once (R371) and settings of a group (R78, R83, R400): what such a word leaves behind when it completes, and the
statement GroupSettings. -/

namespace Sys2Proof.Machine

/-! ## Words that act once -/

section
variable {s : State} {u : Issue} {i : Instr}

/-- A word that acts once does what its body says. -/
theorem exec_once {body : Ctx → State → State} (ha : ActsOnce s u i) (hx : exec i s = onceWord i s body) :
    exec i s = .next (body (ctxOf s u i) s) := hx.trans (onceWord_acts body ha.1 ha.2)

/-- A word that completes in its active lanes leaves the state that it has made, its lanes behind it. -/
theorem closeWord_passedIn (t : State) : closeWord i (ctxOf s u i) t (ctxOf s u i).active [] [] = passedIn t s u i (getGroup t u.gkey) :=
  closeWord_from i (ctxOf s u i) t _ []

/-- The same when the body has set the group. -/
theorem closeWord_setGroup (t : State) (g : Group) :
    closeWord i (ctxOf s u i) (setGroup t u.gkey g) (ctxOf s u i).active [] [] = passedIn t s u i g := closeWord_ok i (ctxOf s u i) t g _

/-- A word whose body is to change its group. -/
theorem exec_changes {f : Ctx → Group → Group} (ha : ActsOnce s u i)
    (hx : exec i s = onceWord i s fun c s => closeWord i c (updGroup s c.gk (f c)) c.active [] []) :
    exec i s = .next (passed s u i (f (ctxOf s u i) (getGroup s u.gkey))) :=
  (exec_once ha hx).trans (congrArg Host.Outcome.next (closeWord_setGroup s _))

end

/-! ## Settings of a group -/

section
variable {s : State} {u : Issue} {h : Hdr} {a : Spec} {x : Nat}

theorem exec_cclr_clears (ha : ActsOnce s u (.cclr h a)) (hx : uniVal s u (.cclr h a) .n32 a = some x) :
    exec (.cclr h a) s = .next (passed s u (.cclr h a) { getGroup s u.gkey with
      cause := (getGroup s u.gkey).cause &&& ~~~(BitVec.ofNat 32 x) }) := by
  rw [exec_changes (f := fun c g => { g with cause := g.cause &&& ~~~(BitVec.ofNat 32 (readUni c .n32 a)) }) ha rfl, readUni_of_opVal hx]

theorem toSigned_eq_toInt (w x : Nat) : toSigned w x = (BitVec.ofNat w x).toInt := by
  rw [toSigned, BitVec.toInt_eq_toNat_cond, BitVec.toNat_ofNat]
  cases w with
  | zero => simp [Nat.mod_one]
  | succ w => exact if_congr (by rw [Nat.pow_succ]; simp; omega) rfl rfl

/-- A toll setting in its range (R83). -/
def tollClamped (abs : Bool) (v : Int) : Int := if abs then max 0 (min 4095 v) else max (-256) (min 255 v)

theorem exec_tollset_sets {abs : Bool} (ha : ActsOnce s u (.tollset h abs a)) (hx : uniVal s u (.tollset h abs a) .i32 a = some x) :
    exec (.tollset h abs a) s = .next (passed s u (.tollset h abs a) { getGroup s u.gkey with
      tabs := abs, tval := tollClamped abs (BitVec.ofNat 32 x).toInt }) := by
  rw [exec_changes (f := fun c g => { g with tabs := abs, tval := tollClamped abs (toSigned 32 (readUni c .i32 a)) }) ha rfl,
    readUni_of_opVal hx, toSigned_eq_toInt]

end

/-- Settles O30: each word changes its group as its body says, and its lanes go on. -/
theorem groupSettings : Obligations.GroupSettings := by
  refine fun s u h => ⟨fun m x => exec_cclr_clears, fun a x => exec_tollset_sets, fun a x => exec_tollset_sets, fun ha => ?_⟩
  exact exec_changes (f := fun _ g => { g with tabs := false, tval := 0 }) ha rfl

end Sys2Proof.Machine
end

section
/-! SUPPORT. Tile registers (R337, R338) and accumulators (R339 to R343): what a write of an element or of a tile leaves of an accumulator, and the
statements TileMaps and AccumulatorZero. -/

namespace Sys2Proof.Machine

/-! ## Tile registers -/

section
variable {s : State} {u : Issue} {h : Hdr} {i : Instr} {td : BitVec 4}

/-- TMAP writes the map of its operands (R337). -/
theorem exec_tmap_writes {fmt : Ty} {swz : BitVec 3} {smode src : BitVec 2} {base shape stride sptr : Spec}
    (hi : i = .tmap h fmt swz smode src td base shape stride sptr) (ha : ActsOnce s u i) : exec i s =
      .next (passed s u i (putMap (getGroup s u.gkey) td.toNat (tmapVal (ctxOf s u i) fmt swz smode src base shape stride sptr))) :=
  exec_changes (f := fun c g => putMap g td.toNat (tmapVal c fmt swz smode src base shape stride sptr)) ha (by rw [hi]; rfl)

/-- TMSET writes the map with one field group changed (R338). -/
theorem exec_tmset_writes {fld : TmField} {a : Spec} (hi : i = .tmset h fld td a) (ha : ActsOnce s u i) : exec i s =
      .next (passed s u i (putMap (getGroup s u.gkey) td.toNat (tmsetVal (ctxOf s u i) (tGet (getGroup s u.gkey) td.toNat) fld a))) :=
  exec_changes (f := fun c g => putMap g td.toNat (tmsetVal c (tGet g td.toNat) fld a)) ha (by rw [hi]; rfl)

theorem hdrX_ctxOf {fmt : Ty} {swz : BitVec 3} {smode src : BitVec 2} {base shape stride sptr : Spec}
    (hi : i = .tmap h fmt swz smode src td base shape stride sptr) : hdrX (ctxOf s u i).h = hdrX h := by rw [hi]; rfl

end

/-- Settles O40: TMAP's map is that of its operands, in the long form with the stride and pointer they give, in the short form with dense rows;
TMSET's is the old one with the fields of its group. -/
theorem tileMaps : Obligations.TileMaps := by
  refine fun s u h td => ⟨fun i fmt swz smode src base shape stride sptr bv sv hi ha hb hs => ⟨fun rv pv hx hr hp => ?_, fun hx => ?_⟩,
    fun i fld a x hi ha hx => ⟨_, exec_tmset_writes hi ha, ?_⟩⟩
  · rw [exec_tmap_writes hi ha, tmapVal, hdrX_ctxOf hi, hx]
    simp only [if_true, readUni_of_opVal hb, readUni_of_opVal hs, readUni_of_opVal hr, readUni_of_opVal hp, shapeCols, shapeRows]
  · rw [exec_tmap_writes hi ha, tmapVal, hdrX_ctxOf hi, hx]
    simp only [Bool.false_eq_true, if_false, readUni_of_opVal hb, readUni_of_opVal hs, shapeCols, shapeRows, denseStride, BitVec.toNat_ofNat]
  · have hread := readUni_of_opVal hx
    cases fld <;> simp only [reduceCtorEq, or_self, or_true, or_false, if_true, if_false] at hread <;>
      simp [tmsetVal, hread, shapeCols, shapeRows]

/-! ## Accumulators -/

theorem aGet_aSet {g : Group} {a b e n : Nat} (x : DWord) (he : e < 256) (hn : n < 256) :
    aGet (aSet g a e x) b n = if b = a ∧ n = e then x else aGet g b n := by
  have hkey : 256 * b + n = 256 * a + e ↔ b = a ∧ n = e := by omega
  simp only [aGet, aSet, tabGet_tabPut, hkey]

/-- The first `k` elements of a tile written. -/
theorem aGet_putElems (g : Group) (ad : Nat) (f : Nat → DWord) {k a e : Nat} (hk : k ≤ 256) (he : e < 256) :
    aGet ((List.range k).foldl (fun g e => aSet g ad e (f e)) g) a e = if a = ad ∧ e < k then f e else aGet g a e := by
  induction k with
  | zero => simp
  | succ k ih =>
    rw [List.range_succ, List.foldl_append, List.foldl_cons, List.foldl_nil, aGet_aSet _ (by omega) he, ih (by omega)]
    by_cases hek : e = k
    · subst hek; by_cases ha : a = ad <;> simp [ha]
    · have hlt : e < k + 1 ↔ e < k := by omega
      simp [hek, hlt]

/-- A tile that is written holds its new elements, and no other tile changes. -/
theorem aGet_putTile (g : Group) (ad : Nat) (xs : List DWord) {a e : Nat} (he : e < 256) :
    aGet (putTile g ad xs) a e = if a = ad then xs.getD e 0 else aGet g a e := by
  rw [putTile, aGet_putElems g ad (fun e => xs.getD e 0) (Nat.le_refl _) he]
  simp [he]

/-- A tile of zeros. -/
theorem aGet_putTile_zero (g : Group) (ad : Nat) {e : Nat} (he : e < 256) : aGet (putTile g ad (List.replicate 256 0)) ad e = 0 := by
  rw [aGet_putTile _ _ _ he, if_pos rfl, List.getD_eq_getElem?_getD, List.getElem?_replicate, if_pos he, Option.getD_some]

theorem putTile_frame (g : Group) (ad : Nat) (xs : List DWord) : putTile g ad xs = { g with acc := (putTile g ad xs).acc } := by
  rw [putTile]
  exact List.foldlRecOn (motive := fun x : Group => x = { g with acc := x.acc }) _ _ rfl fun x hx e _ => by rw [hx]; rfl

/-- ACCZ writes a tile of zeros, and its item has done its work (R340). -/
theorem exec_accz_zeroes {s : State} {u : Issue} {h : Hdr} {ad : BitVec 6} (ha : ActsOnce s u (.accz h ad))
    (hacc : ad.toNat < (launchOf s u.gkey).accs) : exec (.accz h ad) s = .next (passed s u (.accz h ad)
      (pushOut (putTile (getGroup s u.gkey) ad.toNat (List.replicate 256 0)) u.pc (ctxOf s u (.accz h ad)).next
        (ctxOf s u (.accz h ad)).active (.result [] []) [])) := by
  have hin : ¬ (ctxOf s u (.accz h ad)).l.accs ≤ ad.toNat := Nat.not_le.2 hacc
  rw [exec_accz, execAccz, onceWord_acts _ ha.1 ha.2, if_neg hin, pushDone, updGroup_eq, updGroup_eq, setGroup_setGroup, getGroup_setGroup_same]
  exact congrArg Host.Outcome.next (closeWord_setGroup s _)

/-- The all-zero code of an IEEE-style format is +0. -/
theorem fmtVal_zero (f : Fmt) : ∃ n, 0 < n ∧ fmtVal f 0 = .fin false 0 n := by
  have hmag : (fmtMag f 0).1 = 0 ∧ 0 < (fmtMag f 0).2 := by
    simp only [fmtMag, Nat.zero_div, Nat.zero_mod, if_true, scale2]
    split
    · exact ⟨Nat.zero_mul _, Nat.one_pos⟩
    · exact ⟨rfl, Nat.two_pow_pos _⟩
  refine ⟨_, hmag.2, ?_⟩
  simp [fmtVal, hmag.1]

/-- Settles O41: the tile that ACCZ writes holds zeros, and zero bits are the value 0 of either type. -/
theorem accumulatorZero : Obligations.AccumulatorZero := by
  refine ⟨fun s u h ad ha hacc => ⟨_, exec_accz_zeroes ha hacc, putTile_frame _ _ _, fun e he => aGet_putTile_zero _ _ he, fun a e he hne => ?_⟩,
    fmtVal_zero fmt64, rfl⟩
  rw [aGet_putTile _ _ _ he, if_neg hne]

end Sys2Proof.Machine
end

section
/-! SUPPORT. Words that raise one cause in all their active lanes (R391, R394); the return from the handler (R400), special registers
(R393, R397, R398), and the statements HandlerReturn and SpecialReads. -/

namespace Sys2Proof.Machine

/-! ## One cause in all active lanes -/

section
variable {s : State} {u : Issue} {i : Instr} {k : Nat} {a : DWord}

/-- The group of a word whose active lanes have parked with one cause, to resume at the word. -/
def causedGroup (s : State) (u : Issue) (i : Instr) (k : Nat) : Group :=
  parkedGroup (setPcs (getGroup s u.gkey) (u.lanes &&& ~~~(ctxOf s u i).active) (ctxOf s u i).next) (ctxOf s u i).active k u.pc 0

/-- The state of a word that raises the cause `k` in its active lanes, and completes in none. -/
def causedIn (s : State) (u : Issue) (i : Instr) (k : Nat) : State :=
  closeWord i (ctxOf s u i) s 0 [] (sameRaises (ctxOf s u i).active k u.pc 0)

theorem causedGroup_frame : causedGroup s u i k = { getGroup s u.gkey with
    cause := (getGroup s u.gkey).cause ||| BitVec.ofNat 32 (2 ^ k), epc := (causedGroup s u i k).epc, fadr := (causedGroup s u i k).fadr
    fcode := (causedGroup s u i k).fcode, parked := (getGroup s u.gkey).parked ||| (ctxOf s u i).active
    pc := (causedGroup s u i k).pc, rejoin := (causedGroup s u i k).rejoin } := parkedGroup_setPcs_frame _ _ _

theorem causedIn_eq (hact : (ctxOf s u i).active ≠ 0) (hi : postSteps i = []) (hk : k ≠ cHWE) : causedIn s u i k =
    setMark (deliver (setGroup s u.gkey (causedGroup s u i k)) u.gkey (ctxOf s u i).active u.pc (k == cTRN) (k == cBKP) false false)
      u.gkey (markOf i) := by
  have hclose : causedIn s u i k = setMark (takeCauses (setGroup s u.gkey (setPcs (getGroup s u.gkey) (u.lanes &&& ~~~(ctxOf s u i).active)
      (ctxOf s u i).next)) u.gkey u.pc false (sameRaises (ctxOf s u i).active k u.pc 0)) u.gkey (markOf i) := by
    simp only [causedIn, closeWord, sameRaises_lanes, updGroup_eq, postStep_none hi, List.foldl_nil]
    rfl
  rw [hclose, takeCauses_same _ _ _ _ hact hk, setGroup_setGroup, getGroup_setGroup_same]
  rfl

/-- With a handler, and outside it, the lanes of a cause that is never held are handed to it. -/
theorem causedIn_handled (hact : (ctxOf s u i).active ≠ 0) (hi : postSteps i = []) (hk : k ∉ [cHWE, cTRN, cBKP])
    (hh : (launchOf s u.gkey).handler = some a) (hin : (ctxOf s u i).active &&& (getGroup s u.gkey).hmask = 0) :
    ItemsFrame (handledGroup (causedGroup s u i k) (ctxOf s u i).active a) (getGroup (causedIn s u i k) u.gkey) := by
  simp only [List.mem_cons, List.not_mem_nil, or_false, not_or] at hk
  obtain ⟨hhwe, htrn, hbkp⟩ := hk
  have hlaunch : launchOf (setGroup s u.gkey (causedGroup s u i k)) u.gkey = launchOf s u.gkey :=
    launchOf_setGroup (by rw [causedGroup_frame])
  have hitems := deliver_handled_items (s := setGroup s u.gkey (causedGroup s u i k)) (gk := u.gkey) (m := (ctxOf s u i).active)
    (pc := u.pc) (bkp := false) (s2 := false) (by rw [getGroup_setGroup_same, causedGroup_frame]; exact hin) rfl (hlaunch ▸ hh)
  rw [getGroup_setGroup_same] at hitems
  rw [causedIn_eq hact hi hhwe, beq_false_of_ne htrn, beq_false_of_ne hbkp]
  exact Eq.trans ((setMark_signsFrame _ u.gkey (markOf i)).1 u.gkey) (by rw [hitems])

/-- What the handler finds: the cause, its lanes at the handler, and where they resume. -/
theorem causedIn_handler_finds (hact : (ctxOf s u i).active ≠ 0) (hi : postSteps i = []) (hk : k ∉ [cHWE, cTRN, cBKP])
    (hh : (launchOf s u.gkey).handler = some a) (hin : (ctxOf s u i).active &&& (getGroup s u.gkey).hmask = 0) :
    (getGroup (causedIn s u i k) u.gkey).cause = (getGroup s u.gkey).cause ||| BitVec.ofNat 32 (2 ^ k) ∧
    ∀ l, OnLane s u i l → pcOf (getGroup (causedIn s u i k) u.gkey) l = a ∧ tabGet 0 (getGroup (causedIn s u i k) u.gkey).epc l = u.pc ∧
      (getGroup (causedIn s u i k) u.gkey).hmask.getLsbD l = true := by
  have hitems := causedIn_handled hact hi hk hh hin
  obtain ⟨hcause, hepc, -⟩ := hitems.of_handled
  have hhmask : (getGroup (causedIn s u i k) u.gkey).hmask = (causedGroup s u i k).hmask ||| (ctxOf s u i).active := by rw [hitems]; rfl
  refine ⟨by rw [hcause, causedGroup_frame], fun l hl => ?_⟩
  obtain ⟨hlt, hbit⟩ := (mem_lanesOf _ l).1 hl
  refine ⟨?_, ?_, ?_⟩
  · rw [hitems.pcOf, pcOf_handledGroup _ _ a hlt, if_pos hbit]
  · rw [hepc]
    exact (epc_parkedGroup _ l).trans (if_pos hl)
  · rw [hhmask, BitVec.getLsbD_or, hbit, Bool.or_true]

end

/-! ## TRET, R400 -/

theorem returnLanes_frame (g : Group) (m : Lanes) : returnLanes g m = { g with pc := (returnLanes g m).pc, hmask := g.hmask &&& ~~~m } := by
  rw [returnLanes]
  exact List.foldlRecOn (motive := fun x : Group => x = { g with pc := x.pc, hmask := g.hmask &&& ~~~m }) _ _ rfl
    fun x hx l _ => by rw [hx]; rfl

/-- The lanes of a list go each to its %epc. -/
theorem pcOf_foldl_epc (ls : List Nat) (g : Group) (l : Nat) :
    pcOf (ls.foldl (fun g l => setPc g l (tabGet 0 g.epc l)) g) l = if l ∈ ls then tabGet 0 g.epc l else pcOf g l := by
  induction ls generalizing g with
  | nil => rfl
  | cons x xs ih =>
    have hset : pcOf (setPc g x (tabGet 0 g.epc x)) l = if l = x then tabGet 0 g.epc x else pcOf g l := tabGet_tabPut _ _ _ _ _
    rw [List.foldl_cons, ih, hset]
    by_cases hx : l = x
    · subst hx; simp [setPc]
    · simp [hx, setPc]

theorem pcOf_returnLanes (g : Group) (m : Lanes) {l : Nat} (hl : l < 32) :
    pcOf (returnLanes g m) l = if (m &&& g.hmask).getLsbD l then tabGet 0 g.epc l else pcOf g l := by
  rw [returnLanes, pcOf_foldl_epc]
  exact if_congr ((mem_lanesOf _ l).trans (and_iff_right hl)) rfl rfl

/-- No lane returns. -/
theorem returnLanes_zero (g : Group) : returnLanes g 0 = g := by
  have hnone : lanesOf (0 &&& g.hmask) = [] := (lanesOf_eq_nil _).2 (BitVec.zero_and)
  have hall : g.hmask &&& ~~~(0 : Lanes) = g.hmask := BitVec.and_allOnes
  rw [returnLanes, hnone, hall, List.foldl_nil]

theorem and_eq_self_of_outside {x m : Lanes} (h : x &&& ~~~m = 0) : x &&& m = x := by
  have hsplit : x &&& m ||| x &&& ~~~m = x := by
    ext j hj
    cases hm : m[j] <;> simp [hm]
  rw [h] at hsplit
  simpa using hsplit

section
variable {s : State} {u : Issue} {h : Hdr}

theorem exec_tret_acts (ha : Acts s u (.tret h)) : exec (.tret h) s = .next (updGroup (closeWord (.tret h) (ctxOf s u (.tret h)) s
    ((ctxOf s u (.tret h)).active &&& (getGroup s u.gkey).hmask) []
    (sameRaises ((ctxOf s u (.tret h)).active &&& ~~~(getGroup s u.gkey).hmask) cILL u.pc 0)) u.gkey
    fun g => returnLanes g ((ctxOf s u (.tret h)).active &&& (getGroup s u.gkey).hmask)) :=
  (exec_tret s h).trans (issueWord_acts _ ha)

/-- With all of the active lanes in the handler, all return. -/
theorem exec_tret_returns (ha : Acts s u (.tret h)) (hin : (ctxOf s u (.tret h)).active &&& ~~~(getGroup s u.gkey).hmask = 0) :
    exec (.tret h) s = .next (setGroup s u.gkey (returnLanes
      (passOn (.tret h) (ctxOf s u (.tret h)) (getGroup s u.gkey) (ctxOf s u (.tret h)).active) (ctxOf s u (.tret h)).active)) := by
  have hnone : sameRaises 0 cILL u.pc 0 = [] := rfl
  rw [exec_tret_acts ha, hin, hnone, and_eq_self_of_outside hin, closeWord_passedIn, updGroup_eq, passedIn, getGroup_setGroup_same,
    setGroup_setGroup]

/-- With none of them there, all raise the illegal-instruction cause. -/
theorem exec_tret_raises (ha : Acts s u (.tret h)) (hout : (ctxOf s u (.tret h)).active &&& (getGroup s u.gkey).hmask = 0) :
    exec (.tret h) s = .next (setGroup (causedIn s u (.tret h) cILL) u.gkey (getGroup (causedIn s u (.tret h) cILL) u.gkey)) := by
  have hall : (ctxOf s u (.tret h)).active &&& ~~~(getGroup s u.gkey).hmask = (ctxOf s u (.tret h)).active :=
    and_eq_self_of_outside (by rw [BitVec.not_not]; exact hout)
  rw [exec_tret_acts ha, hall, hout, updGroup_eq, returnLanes_zero]
  rfl

end

/-- Settles O27: where all the active lanes are in the handler they go to their %epc; where none is, each takes the cause and its handler. -/
theorem handlerReturn : Obligations.HandlerReturn := by
  refine ⟨fun s u h ha hin => ⟨_, exec_tret_returns ha hin, ?_, fun l hl => ?_⟩, fun s u h a ha hout hh => ⟨_, exec_tret_raises ha.1 hout, ?_⟩⟩
  · rw [returnLanes_frame, passOn_of_unmarked (acts_mark ha), postStep_none rfl]
  · have hpass : pcOf (passOn (.tret h) (ctxOf s u (.tret h)) (getGroup s u.gkey) (ctxOf s u (.tret h)).active) l =
        if u.lanes.getLsbD l then (ctxOf s u (.tret h)).next else pcOf (getGroup s u.gkey) l := passOn_goOn _ _ _ _ _ rfl l hl
    rw [pcOf_returnLanes _ _ hl, hpass, passOn_frame, and_eq_self_of_outside hin]
  · rw [getGroup_setGroup_same]
    exact causedIn_handler_finds ha.2 rfl (by decide) hh hout

/-! ## Special registers -/

/-- SRD is a short word whose lanes all complete with the register's value. -/
theorem exec_srd_short {s : State} {u : Issue} {h : Hdr} {n : BitVec 10} {d : Spec} (ha : Acts s u (.srd h n d))
    (hw : ∀ l, OnLane s u (.srd h n d) l → CanWrite (ctxOf s u (.srd h n d)) l (srnWide n) d) :
    exec (.srd h n d) s = .next (shortWord (.srd h n d) (ctxOf s u (.srd h n d)) (if n = 0x020 then { s with fresh := s.fresh + 1 } else s)
      ((lanesOf (ctxOf s u (.srd h n d)).active).map fun l =>
        (l, valRes (ctxOf s u (.srd h n d)) l (srnWide n) d (some (srnRead s u.gkey l n.toNat, 0))), [])) := by
  rw [exec_srd, execSrd, issueWord_acts _ ha]
  refine congrArg (fun r => Host.Outcome.next (shortWord _ _ _ r)) (evalLanes_ok _ _ _ fun l hl => ?_)
  rw [writesTo_ok _ (hw l hl)]
  rfl

theorem modeWord_eq (g : Group) :
    modeWord g = g.fen.toNat + g.rat.toNat * 2 ^ 8 + g.flg.toNat * 2 ^ 16 + g.sfn.toNat * 2 ^ 21 + g.det.toNat * 2 ^ 24 := by
  have hbit : ∀ (b : Bool) (x : Nat), (if b then x else 0) = b.toNat * x := fun b x => by cases b <;> simp
  simp only [modeWord, hbit]
  omega

/-- Settles O28: SRD's lanes all complete with the register's value and no flag; the registers of the group read its fields. -/
theorem specialReads : Obligations.SpecialReads := by
  refine ⟨fun s u h n d ha hw => ?_, fun s k l => ⟨rfl, rfl, rfl, rfl, modeWord_eq _, rfl, rfl, rfl, rfl, rfl, rfl, rfl, fun hd => if_pos hd⟩⟩
  have hgroup : (ctxOf s u (.srd h n d)).g = getGroup (if n = 0x020 then { s with fresh := s.fresh + 1 } else s) u.gkey := by split <;> rfl
  obtain ⟨g', hex, hframe, hpred, hgo, hitems, hvec, huni, hother, -, hflg⟩ := shortWord_writes (i := .srd h n d) (c := ctxOf s u (.srd h n d))
    (v := fun l => some (srnRead s u.gkey l n.toNat, 0)) hgroup (acts_mark ha)
    (evenPair_of_wellFormed (o := wrO kVS (srnWide n) d) (List.mem_singleton_self _) ha.2.1) fun l hl => ⟨hw l hl, _, _, rfl, BitVec.zero_and⟩
  refine ⟨g', (exec_srd_short ha hw).trans (congrArg _ hex), hframe, hpred, BitVec.eq_of_getLsbD_eq fun j _ => ?_, hgo, hitems,
    fun l hl r hr => hvec l hl _ _ rfl r hr, fun m hd l t hl => huni m hd l t hl _ _ rfl, hother⟩
  refine Bool.eq_iff_iff.2 ((hflg j).trans (or_iff_left ?_))
  rintro ⟨l, -, x, fl, hx, hbit⟩
  cases hx
  simp at hbit

end Sys2Proof.Machine
end

section
/-! SUPPORT. Barriers and barrier objects (R372 to R379): words that hold their lanes, words on an object, the record of an arrival, and the
statement BarrierWords. -/

namespace Sys2Proof.Machine

/-! ## Words that hold their lanes or act on an object -/

section
variable {s : State} {u : Issue} {h : Hdr} {i : Instr} {a n : Spec} {x y : Nat} {p : Nat × Nat}

/-- A word that holds its issued lanes with an item leaves them at the word (R330, R372). -/
theorem closeWord_holdsAt (t : State) (w : Work) :
    closeWord i (ctxOf s u i) (updGroup t u.gkey fun g => pushOut g u.pc (ctxOf s u i).next u.lanes w []) 0
      ((lanesOf u.lanes).map fun l => (l, u.pc)) [] = holdsAt s t u i w := closeWord_to i (ctxOf s u i) t _ 0 _

/-- BAR queues its arrival and holds its lanes (R372). -/
theorem exec_bar_holds (ha : ActsOnce s u (.bar h n)) (hn : uniVal s u (.bar h n) .n32 n = some x) (hx : x ≤ 7) :
    exec (.bar h n) s = .next (holdsAt s s u (.bar h n) (.bar x false (lenOf (.bar h n)))) := by
  rw [exec_bar, execBar, onceWord_acts _ ha.1 ha.2, readUni_of_opVal hn, if_neg (Nat.not_lt.2 hx)]
  exact congrArg Host.Outcome.next (closeWord_holdsAt s _)

theorem onObject_place {s' : State} {c : Ctx} {f : Nat × Nat → State} (hb : opVal c 0 .n64 a = some x)
    (hp : objPlace s' c.gk (BitVec.ofNat 64 x) = some p) : onObject i c s' a f = f p := by
  simp only [onObject, readUni_of_opVal hb, hp]

/-- A word on an object whose address is in order queues its one item. -/
theorem exec_queues_onObject {w : Ctx → Nat × Nat → Work} {live : Ctx → List Tgt} (ha : ActsOnce s u i)
    (hb : uniVal s u i .n64 a = some x) (hp : objPlace s u.gkey (BitVec.ofNat 64 x) = some p) {f : Ctx → State → Nat × Nat → State}
    (hx : exec i s = onceWord i s fun c s => onObject i c s a (f c s))
    (hf : f (ctxOf s u i) s p = closeWord i (ctxOf s u i) (updGroup s u.gkey fun g =>
      pushOut g u.pc (ctxOf s u i).next (ctxOf s u i).active (w (ctxOf s u i) p) (live (ctxOf s u i))) (ctxOf s u i).active [] []) :
    exec i s = .next (passed s u i (queued s u i (w (ctxOf s u i) p) (live (ctxOf s u i)))) := by
  rw [exec_once ha hx, onObject_place hb hp, hf]
  exact congrArg Host.Outcome.next (closeWord_setGroup s _)

theorem exec_boinit_queues (ha : ActsOnce s u (.boinit h a n)) (hb : uniVal s u (.boinit h a n) .n64 a = some x)
    (hn : uniVal s u (.boinit h a n) .n32 n = some y) (hp : objPlace s u.gkey (BitVec.ofNat 64 x) = some p) (hy : y < 2 ^ 24) :
    exec (.boinit h a n) s = .next (passed s u (.boinit h a n) (queued s u (.boinit h a n) (.boinit p y) [])) :=
  exec_queues_onObject (w := fun _ p => .boinit p y) (live := fun _ => []) ha hb hp (exec_boinit s h a n)
    (by rw [readUni_of_opVal hn, if_neg (Nat.not_le.2 hy)]; rfl)

theorem exec_boarr_queues {d : BitVec 8} (ha : ActsOnce s u (.boarr h (.s d) a n)) (hb : uniVal s u (.boarr h (.s d) a n) .n64 a = some x)
    (hn : uniVal s u (.boarr h (.s d) a n) .n32 n = some y) (hp : objPlace s u.gkey (BitVec.ofNat 64 x) = some p) (hy : y < 2 ^ 24) :
    exec (.boarr h (.s d) a n) s =
      .next (passed s u (.boarr h (.s d) a n) (queued s u (.boarr h (.s d) a n) (.boarr p y d.toNat) [.s d.toNat])) :=
  exec_queues_onObject (w := fun _ p => .boarr p y d.toNat) (live := fun _ => [.s d.toNat]) ha hb hp (exec_boarr s h (.s d) a n)
    (by rw [readUni_of_opVal hn, if_neg (Nat.not_le.2 hy)]; rfl)

theorem exec_bowait_queues (ha : ActsOnce s u (.bowait h a n)) (hb : uniVal s u (.bowait h a n) .n64 a = some x)
    (hn : uniVal s u (.bowait h a n) .n32 n = some y) (hp : objPlace s u.gkey (BitVec.ofNat 64 x) = some p) :
    exec (.bowait h a n) s = .next (passed s u (.bowait h a n) (queued s u (.bowait h a n) (.bowait p (y % 65536) false) [])) :=
  exec_queues_onObject (w := fun _ p => .bowait p (y % 65536) false) (live := fun _ => []) ha hb hp (exec_bowait s h a n)
    (by rw [readUni_of_opVal hn]; rfl)

theorem exec_botest_queues {pd : BitVec 4} (ha : ActsOnce s u (.botest h pd a n)) (hb : uniVal s u (.botest h pd a n) .n64 a = some x)
    (hn : uniVal s u (.botest h pd a n) .n32 n = some y) (hp : objPlace s u.gkey (BitVec.ofNat 64 x) = some p) :
    exec (.botest h pd a n) s = .next (passed s u (.botest h pd a n) (queued s u (.botest h pd a n)
      (.botest p (y % 65536) pd.toNat (getGroup s u.gkey).det)
      ((lanesOf (ctxOf s u (.botest h pd a n)).active).map fun l => Tgt.p l pd.toNat))) :=
  exec_queues_onObject (w := fun c p => .botest p (y % 65536) pd.toNat c.g.det) (live := fun c => (lanesOf c.active).map fun l => Tgt.p l pd.toNat)
    ha hb hp (exec_botest s h pd a n) (by rw [readUni_of_opVal hn]; rfl)

end

/-! ## The record of an arrival, R372 -/

theorem find?_unique {α : Type} {l : List α} {p : α → Bool} {o : α} (ho : o ∈ l) (hp : p o = true) (hu : ∀ x, x ∈ l → p x = true → x = o) :
    l.find? p = some o := by
  obtain ⟨x, hx⟩ := Option.isSome_iff_exists.1 (List.find?_isSome.2 ⟨o, ho, hp⟩)
  rw [hx, hu x (List.mem_of_find?_eq_some hx) (List.find?_some hx)]

/-- A group's number among those that have arrived. -/
def arrived (gi : Nat) (l : List Nat) : List Nat := if l.contains gi then l else l ++ [gi]

theorem mem_arrived {gi j : Nat} {l : List Nat} : j ∈ arrived gi l ↔ j = gi ∨ j ∈ l := by
  rw [arrived]
  split
  · next hc => exact ⟨.inr, fun h => h.elim (fun e => e ▸ List.contains_iff_mem.1 hc) id⟩
  · rw [List.mem_append, List.mem_singleton, or_comm]

/-- The group with its arrival recorded. -/
def recordedGroup (g : Group) (o : Out) (n len : Nat) : Group :=
  { g with outs := g.outs.map fun x => if x.seq = o.seq then { x with work := .bar n true len } else x }

/-- The state with the arrival of a group's item at barrier `n` recorded. -/
def arrivalRecorded (s : State) (k n len : Nat) (o : Out) : State :=
  updTeam (setGroup s k (recordedGroup (getGroup s k) o n len)) (getGroup s k).team fun t =>
    { t with bars := tabUpd [] t.bars n (arrived (getGroup s k).gidx) }

theorem exec_barArrivalRecord_records {s : State} {k n len : Nat} {o : Out} (ho : o ∈ (getGroup s k).outs) (hw : o.work = .bar n false len)
    (hu : ∀ p n' len', p ∈ (getGroup s k).outs → p.work = .bar n' false len' → p = o) (hr : barReady s k o.seq = true)
    (hp : parkedElem s k = false) : exec (.barArrivalRecord k) s = .next (arrivalRecorded s k n len o) := by
  rw [exec_barArrivalRecord, execBarArrivalRecord, find?_unique ho (by rw [hw]; rfl) fun p hp hbar => ?_]
  · simp only [hw, hr, hp, Bool.not_false, Bool.and_self, if_true]
    rfl
  · split at hbar
    · next n' r len' hwork =>
      rw [Bool.not_eq_true'] at hbar
      exact hu p n' len' hp (hbar ▸ hwork)
    · exact absurd hbar Bool.false_ne_true

/-- Settles O34: the one item of an arrival is found and recorded; BAR holds its lanes; each word on an object queues its access. -/
theorem barrierWords : Obligations.BarrierWords := by
  refine ⟨fun s k n len o ho hw hu hr hp => ⟨_, exec_barArrivalRecord_records ho hw hu hr hp, ?_⟩,
    fun s u h => ⟨fun n x => exec_bar_holds, fun bo n x y p => exec_boinit_queues, fun d bo n x y p => exec_boarr_queues,
      fun bo n x y p => exec_bowait_queues, fun pd bo n x y p => exec_botest_queues⟩⟩
  have hbars : tabGet [] (getTeam (arrivalRecorded s k n len o) (getGroup s k).team).bars n =
      arrived (getGroup s k).gidx (tabGet [] (getTeam s (getGroup s k).team).bars n) := by
    rw [arrivalRecorded, updTeam_eq, getTeam_setTeam_same]
    exact tabGet_tabPut_same _ _ _ _
  have hgroup : getGroup (arrivalRecorded s k n len o) k = recordedGroup (getGroup s k) o n len := getGroup_setGroup_same _ _ _
  rw [hbars, hgroup]
  exact ⟨mem_arrived.2 (.inl rfl), fun gi hgi => mem_arrived.1 hgi, rfl, rfl⟩

end Sys2Proof.Machine
end

section
/-! SUPPORT. The trace ring (R419): a record that fits goes to its slots and the tail moves, any other is dropped and counted; the statement
TraceWords. -/

namespace Sys2Proof.Machine

/-! ## Records of the ring -/

/-- The place of the slot that stands `k` behind the tail of a function's trace ring. -/
def traceSlot (s : State) (fn k : Nat) : Option Nat :=
  recPlace s fn ((getFunc s fn).trcbase.toNat / 4096 * 4096 + 64 * (((getFunc s fn).trctail.toNat + k) % 2 ^ (getFunc s fn).trclog.toNat))

/-- A record of `n` slots fits: the ring has the room, and each slot can be written. -/
def TraceFits (s : State) (fn n : Nat) : Prop :=
  ((getFunc s fn).trctail - (getFunc s fn).trchead).toNat + n ≤ 2 ^ (getFunc s fn).trclog.toNat ∧ ∀ k, k < n → (traceSlot s fn k).isSome

/-- One slot of a record goes to its place. -/
def slotWritten (p : Nat → Option Nat) (bs : List Byte) (s : State) (k : Nat) : State :=
  match p k with
  | some pa => sysPut s pa ((bs.drop (64 * k)).take 64)
  | none => s

/-- The slots of a record at their places. -/
def slotsWritten (s : State) (p : Nat → Option Nat) (n : Nat) (bs : List Byte) : State := (List.range n).foldl (slotWritten p bs) s

/-- A record is dropped and counted. -/
def traceDropped (s : State) (fn : Nat) : State := setFunc s fn { getFunc s fn with trcdrop := (getFunc s fn).trcdrop + 1 }

/-- The tail of the ring moves behind a record of `n` slots. -/
def tailMoved (s : State) (fn n : Nat) (seq : Word) : State :=
  { setFunc s fn { getFunc s fn with trctail := (getFunc s fn).trctail + BitVec.ofNat 32 n } with
    obs := { s.obs with trseq := tabPut s.obs.trseq fn (seq + 1) } }

theorem traceWrite_eq (s : State) (fn : Nat) (mk : Word → List Byte) : traceWrite s fn mk =
    let bs := mk (tabGet 0 s.obs.trseq fn)
    let n := bs.length / 64
    let pl := (List.range n).map (traceSlot s fn)
    if 2 ^ (getFunc s fn).trclog.toNat < ((getFunc s fn).trctail - (getFunc s fn).trchead).toNat + n then traceDropped s fn
    else if pl.any (·.isNone) then traceDropped s fn
    else tailMoved (slotsWritten s (fun k => pl.getD k none) n bs) fn n (tabGet 0 s.obs.trseq fn) := rfl

section
variable {s : State} {fn n : Nat} {mk : Word → List Byte}

theorem any_isNone_iff {p : Nat → Option Nat} : ((List.range n).map p).any (·.isNone) = false ↔ ∀ k, k < n → (p k).isSome := by
  simp [List.any_eq_false, Option.isSome_iff_ne_none]

theorem traceWrite_drops (hn : (mk (tabGet 0 s.obs.trseq fn)).length / 64 = n) (h : ¬ TraceFits s fn n) :
    traceWrite s fn mk = traceDropped s fn := by
  simp only [traceWrite_eq, hn]
  split
  · rfl
  · next hroom =>
    refine if_pos (Bool.not_eq_false _ ▸ fun hall => h ⟨Nat.not_lt.1 hroom, any_isNone_iff.1 hall⟩)

theorem slotsWritten_congr {p q : Nat → Option Nat} (bs : List Byte) (h : ∀ k, k < n → p k = q k) :
    slotsWritten s p n bs = slotsWritten s q n bs :=
  List.foldl_ext _ _ _ fun z k hk => by rw [slotWritten, slotWritten, h k (List.mem_range.1 hk)]

theorem traceWrite_puts (hn : (mk (tabGet 0 s.obs.trseq fn)).length / 64 = n) (h : TraceFits s fn n) : traceWrite s fn mk =
    tailMoved (slotsWritten s (traceSlot s fn) n (mk (tabGet 0 s.obs.trseq fn))) fn n (tabGet 0 s.obs.trseq fn) := by
  obtain ⟨hroom, hplaces⟩ := h
  simp only [traceWrite_eq, hn]
  rw [if_neg (Nat.not_lt.2 hroom), any_isNone_iff.2 hplaces, if_neg Bool.false_ne_true]
  have hget : ∀ k, k < n → ((List.range n).map (traceSlot s fn)).getD k none = traceSlot s fn k := fun k hk => by
    simp [hk]
  rw [slotsWritten_congr _ hget]

theorem slotsWritten_frame (p : Nat → Option Nat) (bs : List Byte) : WriteFrame s (slotsWritten s p n bs) := by
  refine foldl_rel WriteFrame.refl WriteFrame.trans (fun z k => ?_) _ _
  rw [slotWritten]
  split
  · exact sysPut_frame _ _ _
  · exact .refl z

/-- A record of one slot stands at its place. -/
theorem sysByte_slotsWritten_one {p : Nat → Option Nat} {bs : List Byte} {pa j : Nat} (hp : p 0 = some pa) (hlen : bs.length = 64) (hj : j < 64) :
    sysByte (slotsWritten s p 1 bs) (pa + j) = bs.getD j 0 := by
  have hone : slotsWritten s p 1 bs = sysPut s pa bs := by
    have htake : (bs.drop 0).take 64 = bs := List.take_of_length_le (Nat.le_of_eq hlen)
    simp only [slotsWritten, List.range_one, List.foldl_cons, List.foldl_nil, slotWritten, hp, Nat.mul_zero, htake]
  rw [hone, sysByte_sysPut s pa bs (hlen ▸ hj)]

/-- What moving the tail changes of its function, and what it leaves. -/
theorem getFunc_tailMoved {z : State} {seq : Word} : getFunc (tailMoved z fn n seq) fn =
    { getFunc z fn with trctail := (getFunc z fn).trctail + BitVec.ofNat 32 n } := getFunc_setFunc_same _ _ _

end

theorem traceBytes_length (time pc label : DWord) (team group lanes value : Nat) (kind func : Nat) (seq : Word) :
    (traceBytes time pc label team group lanes value kind func seq).length = 64 := by
  simp only [traceBytes, List.length_append, leBytes_length]

theorem sampleBytes_length (s : State) (core : Nat) : (sampleBytes s core).length = 192 := by
  simp [sampleBytes, leBytes_length]

/-! ## PMARK and SMPL -/

/-- The record of a mark or sample: what follows its first slot is `more`. -/
def wordRecord (s : State) (c : Ctx) (kind value : Nat) (more : List Byte) (seq : Word) : List Byte :=
  traceBytes (Config.clockAt s.fresh) c.pc c.l.label (teamOf s c.gk).task c.g.gidx c.active.toNat value kind c.l.func seq ++ more

section
variable {s : State} {u : Issue} {i : Instr} {kind x n : Nat} {more : List Byte}

/-- The state with the record of an issuing word's mark or sample. -/
def marked (s : State) (u : Issue) (i : Instr) (kind x : Nat) (more : List Byte) : State := traceWord s (ctxOf s u i) kind x more

/-- The bytes of that record. -/
def markedBytes (s : State) (u : Issue) (i : Instr) (kind x : Nat) (more : List Byte) : List Byte :=
  wordRecord s (ctxOf s u i) kind x more (tabGet 0 s.obs.trseq (launchOf s u.gkey).func)

theorem markedBytes_slots (hlen : more.length + 64 = 64 * n) : (markedBytes s u i kind x more).length / 64 = n := by
  rw [markedBytes, wordRecord, List.length_append, traceBytes_length]
  omega

theorem marked_drops (hlen : more.length + 64 = 64 * n) (h : ¬ TraceFits s (launchOf s u.gkey).func n) :
    marked s u i kind x more = traceDropped { s with fresh := s.fresh + 1 } (launchOf s u.gkey).func :=
  traceWrite_drops (s := { s with fresh := s.fresh + 1 }) (mk := wordRecord s (ctxOf s u i) kind x more) (markedBytes_slots hlen) h

theorem marked_puts (hlen : more.length + 64 = 64 * n) (h : TraceFits s (launchOf s u.gkey).func n) : marked s u i kind x more =
    tailMoved (slotsWritten { s with fresh := s.fresh + 1 } (traceSlot s (launchOf s u.gkey).func) n (markedBytes s u i kind x more))
      (launchOf s u.gkey).func n (tabGet 0 s.obs.trseq (launchOf s u.gkey).func) :=
  traceWrite_puts (s := { s with fresh := s.fresh + 1 }) (mk := wordRecord s (ctxOf s u i) kind x more) (markedBytes_slots hlen) h

/-- A record leaves groups, teams and launches as they are, and draws one time stamp. -/
theorem marked_leaves (hlen : more.length + 64 = 64 * n) : (marked s u i kind x more).groups = s.groups ∧
    (marked s u i kind x more).teams = s.teams ∧ (marked s u i kind x more).launches = s.launches ∧
    (marked s u i kind x more).fresh = s.fresh + 1 := by
  by_cases h : TraceFits s (launchOf s u.gkey).func n
  · have hframe : WriteFrame { s with fresh := s.fresh + 1 } (slotsWritten { s with fresh := s.fresh + 1 }
        (traceSlot s (launchOf s u.gkey).func) n (markedBytes s u i kind x more)) := slotsWritten_frame _ _
    rw [marked_puts hlen h]
    generalize slotsWritten _ _ _ _ = z at hframe
    rw [show z = _ from hframe]
    exact ⟨rfl, rfl, rfl, rfl⟩
  · rw [marked_drops hlen h]
    exact ⟨rfl, rfl, rfl, rfl⟩

/-- The function's ring after a record that fits. -/
theorem getFunc_marked (hlen : more.length + 64 = 64 * n) (h : TraceFits s (launchOf s u.gkey).func n) :
    getFunc (marked s u i kind x more) (launchOf s u.gkey).func = { getFunc s (launchOf s u.gkey).func with
      trctail := (getFunc s (launchOf s u.gkey).func).trctail + BitVec.ofNat 32 n } := by
  have hframe : WriteFrame { s with fresh := s.fresh + 1 } (slotsWritten { s with fresh := s.fresh + 1 }
      (traceSlot s (launchOf s u.gkey).func) n (markedBytes s u i kind x more)) := slotsWritten_frame _ _
  rw [marked_puts hlen h, getFunc_tailMoved]
  generalize slotsWritten _ _ _ _ = z at hframe
  rw [show z = _ from hframe]
  rfl

/-- PMARK and SMPL complete with their record (R418). -/
theorem exec_trace_marks {h : Hdr} {a : Spec} (hi : i = .pmark h a ∨ i = .smpl h a) (ha : ActsOnce s u i) (hx : uniVal s u i .n32 a = some x) :
    ∃ kind more, exec i s = .next (passedIn (marked s u i kind x more) s u i (getGroup (marked s u i kind x more) u.gkey)) ∧
      more.length + 64 = 64 * (if i = .pmark h a then 1 else 4) ∧ (i = .pmark h a → kind = 0x01 ∧ more = []) := by
  rcases hi with rfl | rfl
  · refine ⟨0x01, [], ?_, by rw [if_pos rfl]; rfl, fun _ => ⟨rfl, rfl⟩⟩
    rw [exec_pmark, execPmark, onceWord_acts _ ha.1 ha.2, readUni_of_opVal hx, closeWord_passedIn]
    rfl
  · refine ⟨0x02, sampleBytes s (coreOf s u.gkey), ?_, by rw [sampleBytes_length, if_neg (by simp)], fun h => by cases h⟩
    rw [exec_smpl, execSmpl, onceWord_acts _ ha.1 ha.2, readUni_of_opVal hx, closeWord_passedIn]
    rfl

end

/-- Settles O31: the word completes, and its record goes to the ring or is dropped as the room and the slots decide. -/
theorem traceWords : Obligations.TraceWords := by
  intro s u i h a x hi ha hx n fn f place fits
  obtain ⟨kind, more, hex, hlen, hmark⟩ := exec_trace_marks hi ha hx
  obtain ⟨hgroups, hteams, hlaunches, hfresh⟩ := marked_leaves (s := s) (u := u) (i := i) (kind := kind) (x := x) hlen
  have hgroup : getGroup (marked s u i kind x more) u.gkey = getGroup s u.gkey := by rw [getGroup, hgroups]; rfl
  refine ⟨_, hex, ?_, hfresh, hteams, hlaunches, fun hnot => ?_, fun hfits => ?_⟩
  · rw [passedIn, getGroup_setGroup_same, hgroup]
  · have hz : marked s u i kind x more = _ := marked_drops hlen hnot
    have hfunc : getFunc (marked s u i kind x more) fn = { f with trcdrop := f.trcdrop + 1 } := by rw [hz]; exact getFunc_setFunc_same _ _ _
    refine ⟨?_, ?_, by rw [hz]; rfl, by rw [hz]; rfl⟩
    · rw [passedIn, getFunc_setGroup, hfunc]
    · rw [passedIn, getFunc_setGroup, hfunc]
  · have hfunc : getFunc (marked s u i kind x more) fn = _ := getFunc_marked hlen hfits
    refine ⟨?_, ?_, fun pa hpa hpm j hj => ?_⟩
    · rw [passedIn, getFunc_setGroup, hfunc]
    · rw [passedIn, getFunc_setGroup, hfunc]
    · obtain ⟨rfl, rfl⟩ := hmark hpm
      have hn : n = 1 := if_pos hpm
      have hz : marked s u i 0x01 x [] = _ := marked_puts hlen hfits
      have hbyte : sysByte (marked s u i 0x01 x []) (pa + j) = (markedBytes s u i 0x01 x []).getD j 0 := by
        rw [hz]
        rw [show (if i = .pmark h a then 1 else 4) = 1 from hn]
        exact sysByte_slotsWritten_one hpa (by rw [markedBytes, wordRecord, List.append_nil, traceBytes_length]) hj
      refine hbyte.trans ?_
      rw [markedBytes, wordRecord, List.append_nil]
      rfl

end Sys2Proof.Machine
end

section
/-! SUPPORT. Counters, the histogram engine and the passes of a replay (R417, R420 to R424): what writes and records leave of a replay's
notes, the end of a pass, and the statement ObservationEvents. -/

namespace Sys2Proof.Machine

/-! ## What writes leave of a replay's notes -/

/-- The same launch is under replay, and no bit of RPLSTAT has cleared. -/
def NotesKept (s t : State) : Prop :=
  t.obs.rlaunch = s.obs.rlaunch ∧ ∀ j, s.obs.rplstat.getLsbD j = true → t.obs.rplstat.getLsbD j = true

theorem NotesKept.refl (s : State) : NotesKept s s := ⟨rfl, fun _ => id⟩

theorem NotesKept.trans {a b c : State} (h : NotesKept a b) (k : NotesKept b c) : NotesKept a c :=
  ⟨k.1.trans h.1, fun j hj => k.2 j (h.2 j hj)⟩

theorem NotesKept.of_obs {s t : State} (h : t.obs = s.obs) : NotesKept s t := by
  unfold NotesKept
  rw [h]
  exact ⟨rfl, fun _ => id⟩

theorem noteWrite_notesKept (s : State) (key : Nat) (o : Bool) : NotesKept s (noteWrite s key o) := by
  unfold noteWrite
  split
  · exact .refl s
  · split
    · exact ⟨rfl, fun j hj => by rw [BitVec.getLsbD_or, hj, Bool.true_or]⟩
    · split
      · exact .refl s
      · exact ⟨rfl, fun _ => id⟩

theorem sysPut_notesKept (s : State) (pa : Nat) (bs : List Byte) : NotesKept s (sysPut s pa bs) := by
  have hbyte : ∀ (z : State) (a : Nat) (b : Byte), NotesKept z (sysPutByte z a b) := fun z a b => by
    unfold sysPutByte
    split
    · exact (noteWrite_notesKept z a true).trans (.of_obs rfl)
    · exact (noteWrite_notesKept z a (hostBacked a)).trans (.of_obs rfl)
  rw [sysPut_eq]
  exact (NotesKept.of_obs (by rw [acqAddAll_frame])).trans (foldl_rel NotesKept.refl NotesKept.trans (fun z _ => hbyte z _ _) _ _)

theorem RetireFrame.notesKept {s t : State} (h : RetireFrame s t) : NotesKept s t := .of_obs (by unfold RetireFrame at h; rw [h])

/-- What follows the bytes of a fatal record touches neither notes nor waiting records. -/
theorem recordTail_leaves (z : State) (f : Nat) (g : Func → Func) :
    (signal (updFunc z f g) f 1).obs = z.obs ∧ (signal (updFunc z f g) f 1).recs = z.recs := ⟨rfl, rfl⟩

theorem putFatal_notesKept (s : State) (f : Nat) (x : RecF) : NotesKept s (putFatal s f x).1 := by
  simp only [putFatal]
  refine NotesKept.trans ?_ (.of_obs (recordTail_leaves _ f _).1)
  split
  · exact sysPut_notesKept s _ _
  · exact .refl s

theorem hwRecord_notesKept (s : State) (d : DWord) : NotesKept s (hwRecord s d) := by
  unfold hwRecord
  split
  · exact .of_obs rfl
  · dsimp only
    split
    · exact (putFatal_notesKept s 0 _).trans (.of_obs rfl)
    · exact putFatal_notesKept s 0 _

theorem fatalRecord_notesKept (s : State) (f : Nat) (lk : Option Nat) (x : RecF) : NotesKept s (fatalRecord s f lk x) := by
  unfold fatalRecord
  split
  · exact .of_obs rfl
  · dsimp only
    split
    · exact (putFatal_notesKept s f x).trans (hwRecord_notesKept _ _)
    · exact putFatal_notesKept s f x

/-! ## Records that find a free place -/

theorem WriteFrame.recs_eq {s t : State} (h : WriteFrame s t) : t.recs = s.recs := by
  unfold WriteFrame at h
  rw [h]

theorem putFatal_recs (s : State) (f : Nat) (x : RecF) : (putFatal s f x).1.recs = s.recs := by
  simp only [putFatal]
  refine (recordTail_leaves _ f _).2.trans ?_
  split
  · exact (sysPut_frame s _ _).recs_eq
  · rfl

theorem hwRecord_recs (s : State) (d : DWord) : (hwRecord s d).recs = s.recs := by
  unfold hwRecord
  split
  · rfl
  · dsimp only
    split
    · exact putFatal_recs s 0 _
    · exact putFatal_recs s 0 _

/-- With a free place and none waiting, a fatal record does not wait (R404). -/
theorem fatalRecord_recs {s : State} {f : Nat} (lk : Option Nat) (x : RecF) (hfull : fatalFull s f = false) (hr : s.recs = []) :
    (fatalRecord s f lk x).recs = [] := by
  simp only [fatalRecord, hfull, hr, List.any_nil, Bool.or_self, Bool.false_eq_true, if_false]
  split
  · exact (hwRecord_recs _ _).trans ((putFatal_recs s f x).trans hr)
  · exact (putFatal_recs s f x).trans hr

/-! ## What a pass leaves before its end is decided -/

/-- Memory, caches, a replay's notes and the trace registers of functions change; records and fatal lanes do not. -/
def PassFrame (s t : State) : Prop :=
  t = { s with fresh := t.fresh, mem := t.mem, l2 := t.l2, cores := t.cores, acqs := t.acqs, obs := t.obs, funcs := t.funcs } ∧
    (∀ f, fatalFull t f = fatalFull s f) ∧ NotesKept s t

theorem PassFrame.trans {a b c : State} (h : PassFrame a b) (k : PassFrame b c) : PassFrame a c := by
  obtain ⟨hs, hf, hn⟩ := h
  obtain ⟨hs', hf', hn'⟩ := k
  exact ⟨hs'.trans (by rw [hs]), fun f => (hf' f).trans (hf f), hn.trans hn'⟩

theorem PassFrame.refl (s : State) : PassFrame s s := ⟨rfl, fun _ => rfl, .refl s⟩

theorem WriteFrame.passFrame {s t : State} (h : WriteFrame s t) (hn : NotesKept s t) : PassFrame s t := by
  unfold WriteFrame at h
  exact ⟨by rw [h], fun f => by rw [h]; rfl, hn⟩

theorem sysPut_passFrame (s : State) (pa : Nat) (bs : List Byte) : PassFrame s (sysPut s pa bs) :=
  (sysPut_frame s pa bs).passFrame (sysPut_notesKept s pa bs)

theorem setStat_passFrame (s : State) (m : Word) : PassFrame s (setStat s (· ||| m)) :=
  ⟨rfl, fun _ => rfl, rfl, fun j hj => by
    have hor : (setStat s (· ||| m)).obs.rplstat = s.obs.rplstat ||| m := rfl
    rw [hor, BitVec.getLsbD_or, hj, Bool.true_or]⟩

/-- Trace registers are no part of a fatal lane. -/
theorem fatalFull_setFunc (s : State) (fn f : Nat) (x : Func) (ht : x.ftail = (getFunc s fn).ftail) (hh : x.fhead = (getFunc s fn).fhead) :
    fatalFull (setFunc s fn x) f = fatalFull s f := by
  by_cases hf : f = fn
  · rw [hf, fatalFull, getFunc_setFunc_same, ht, hh, fatalFull]
  · rw [fatalFull, getFunc_setFunc_other _ _ _ _ hf, fatalFull]

theorem traceDropped_passFrame (z : State) (fn : Nat) : PassFrame z (traceDropped z fn) :=
  ⟨rfl, fun f => fatalFull_setFunc z fn f _ rfl rfl, .of_obs rfl⟩

theorem tailMoved_passFrame (z : State) (fn n : Nat) (seq : Word) : PassFrame z (tailMoved z fn n seq) :=
  ⟨rfl, fun f => fatalFull_setFunc z fn f _ rfl rfl, rfl, fun _ => id⟩

theorem slotsWritten_passFrame (s : State) (p : Nat → Option Nat) (n : Nat) (bs : List Byte) : PassFrame s (slotsWritten s p n bs) := by
  refine foldl_rel PassFrame.refl PassFrame.trans (fun z k => ?_) _ s
  rw [slotWritten]
  split
  · exact sysPut_passFrame _ _ _
  · exact .refl z

theorem traceWrite_passFrame (s : State) (fn : Nat) (mk : Word → List Byte) : PassFrame s (traceWrite s fn mk) := by
  by_cases h : TraceFits s fn ((mk (tabGet 0 s.obs.trseq fn)).length / 64)
  · rw [traceWrite_puts rfl h]
    exact (slotsWritten_passFrame _ _ _ _).trans (tailMoved_passFrame _ _ _ _)
  · rw [traceWrite_drops rfl h]
    exact traceDropped_passFrame _ _

theorem stamped_passFrame (s : State) : PassFrame s { s with fresh := s.fresh + 1 } := ⟨rfl, fun _ => rfl, .of_obs rfl⟩

theorem passRecord_passFrame (s : State) (l : Launch) : PassFrame s (passRecord s l) := by
  unfold passRecord
  exact (stamped_passFrame s).trans (traceWrite_passFrame _ _ _)

theorem writeSaved_passFrame (s : State) : PassFrame s (writeSaved s) := by
  refine foldl_rel PassFrame.refl PassFrame.trans (fun z k => ?_) _ s
  split
  · split
    · exact sysPut_passFrame _ _ _
    · exact .refl z
  · exact .refl z

/-! ## The end of a pass, R423, R424 -/

/-- The saved pages do not fit where they are saved. -/
def savedFull (s : State) : Bool := decide (s.obs.rplslen.toNat < 4096 * s.obs.rpages.length)

/-- The pass has written its record and its saved pages, and noted in RPLSTAT what it found. -/
def passReported (s : State) (lk : Nat) : State :=
  let z := passRecord s (getLaunch s lk)
  let z := if s.obs.rpass ≠ 1 && s.obs.rsigs != s.obs.rfirst then setStat z (· ||| 2) else z
  if savedFull s then setStat z (· ||| 4) else z

/-- The pass is noted in RPLSTAT. -/
def passNoted (s : State) (lk : Nat) : State :=
  let z := writeSaved (passReported s lk)
  { z with obs := { z.obs with
      rplstat := ((passReported s lk).obs.rplstat &&& 0xFFFFF0FF#32) ||| BitVec.ofNat 32 (s.obs.rpass % 16 * 2 ^ 8)
      rfirst := if s.obs.rpass = 1 then s.obs.rsigs else s.obs.rfirst, rsigs := [] } }

/-- The replay is over. -/
def replayEnded (z : State) : State :=
  { z with obs := { z.obs with rplstat := z.obs.rplstat ||| 1, rlaunch := none, rrec := none, rpages := [], rmem := [], rplaza := [] } }

/-- The next pass of a replay begins with its launch as it was, the events of its own RPLEV, and the event counters clear. -/
def passBegun (z : State) (lk pass : Nat) (ev : DWord) (r : Launch) : State :=
  updCores (setLaunch { z with obs := { z.obs with rpass := pass, evsel := ev } } lk r)
    fun _ x => { x with cnt := x.cnt.filter fun e => decide (e.1 < 16) }

/-- The pass that follows one that is noted. -/
def nextPass (s : State) (lk : Nat) : State :=
  passBegun (restorePages (passNoted s lk)) lk (s.obs.rpass + 1) (tabGet 0 s.obs.rplev s.obs.rpass) (s.obs.rrec.getD (getLaunch s lk))

theorem passEnd_eq (s : State) (lk : Nat) : passEnd s lk =
    if savedFull s || decide (s.obs.rnpass ≤ s.obs.rpass) then
      retireLaunch (replayEnded (passNoted s lk)) lk (getLaunch s lk).fate.toNat true
    else if (getLaunch s lk).pri = 7 then urgentPreempt (nextPass s lk) else nextPass s lk := by
  unfold passEnd nextPass passNoted passReported savedFull
  generalize hrec : passRecord s (getLaunch s lk) = z
  generalize hfull : decide (s.obs.rplslen.toNat < 4096 * s.obs.rpages.length) = full
  dsimp only
  rw [hrec, hfull]
  generalize writeSaved _ = y
  generalize restorePages _ = w
  rfl

section
variable {z : State} {lk pass : Nat} {ev : DWord} {r : Launch}

theorem passBegun_obs : (passBegun z lk pass ev r).obs = { z.obs with rpass := pass, evsel := ev } := rfl

theorem passBegun_launch : getLaunch (passBegun z lk pass ev r) lk = r := getLaunch_setLaunch_same _ _ _

theorem urgentPreempt_keeps : (urgentPreempt z).obs = z.obs ∧ ∀ k, getLaunch (urgentPreempt z) k = getLaunch z k := ⟨rfl, fun _ => rfl⟩

end

theorem passReported_passFrame (s : State) (lk : Nat) : PassFrame s (passReported s lk) := by
  have hstat : ∀ (b : Bool) (m : Word) (z : State), PassFrame z (if b then setStat z (· ||| m) else z) := fun b m z => by
    cases b
    · exact .refl z
    · exact setStat_passFrame z m
  exact ((passRecord_passFrame s _).trans (hstat _ 2 _)).trans (hstat _ 4 _)

section
variable {s : State} {lk : Nat}

/-- Records, fatal lanes, launches and the launch under replay are still as they were. -/
theorem passNoted_leaves : (passNoted s lk).recs = s.recs ∧ (∀ f, fatalFull (passNoted s lk) f = fatalFull s f) ∧
    (passNoted s lk).launches = s.launches ∧ (passNoted s lk).obs.rlaunch = s.obs.rlaunch := by
  have h : PassFrame s (writeSaved (passReported s lk)) := (passReported_passFrame s lk).trans (writeSaved_passFrame _)
  rw [passNoted]
  generalize writeSaved (passReported s lk) = z at h
  obtain ⟨hframe, hfull, hlaunch, -⟩ := h
  refine ⟨?_, hfull, ?_, hlaunch⟩
  · rw [hframe]
  · rw [hframe]

/-- A launch whose end finds a free place for any record leaves the device (R26, R29). -/
theorem retireLaunch_unlisted (status : Nat) (hfull : fatalFull s (getLaunch s lk).func = false) (hr : s.recs = []) :
    tabFind (retireLaunch s lk status true).launches lk = none := by
  simp only [retireLaunch]
  split
  · exact dropLaunch_unlisted _ _
  · refine (congrArg (fun z : State => tabFind z.launches lk) (if_neg ?_)).trans (dropLaunch_unlisted _ _)
    have hrecs : ∀ z : State, z.recs = s.recs → fatalFull z (getLaunch s lk).func = fatalFull s (getLaunch s lk).func →
        ∀ x, recWaits (fatalRecord z (getLaunch s lk).func (some lk) x) lk = false := fun z hz hf x => by
      rw [recWaits, fatalRecord_recs _ _ (hf.trans hfull) (hz.trans hr)]
      rfl
    rw [Bool.not_eq_true]
    split
    · exact hrecs s rfl rfl _
    · exact hrecs { s with fresh := s.fresh + 1 } rfl rfl _

theorem actsFor_notesKept (s : State) (lk : Nat) {f : State → State} (hf : ∀ z, NotesKept z (f z)) : NotesKept s (actsFor s lk f) := by
  rcases actsFor_cases s lk f with h | h
  · rw [h]
    exact hf s
  · rw [h]
    exact (hf (setActs s true))

theorem closeLaunch_notesKept (s : State) (lk : Nat) : NotesKept s (closeLaunch s lk) := by
  unfold closeLaunch
  split
  · exact .of_obs rfl
  · exact (noteFailed_frame _ _ _ _).notesKept.trans (dropLaunch_frame _ _).notesKept

theorem retired_notesKept {z y : State} {lk : Nat} (h : NotesKept z y) (label : DWord) (p : Prop) [Decidable p] :
    NotesKept z (dropLaunch (if p then noteFailed y label 11 lk else y) lk) := by
  refine h.trans (NotesKept.trans ?_ (dropLaunch_frame _ _).notesKept)
  split
  · exact (noteFailed_frame _ _ _ _).notesKept
  · exact .refl y

theorem retireLaunch_notesKept (s : State) (lk status : Nat) (w : Bool) : NotesKept s (retireLaunch s lk status w) := by
  have hstamp : NotesKept s (if (getLaunch s lk).det then s else { s with fresh := s.fresh + 1 }) := by
    split
    · exact .refl s
    · exact .of_obs rfl
  simp only [retireLaunch]
  refine hstamp.trans ?_
  generalize (if (getLaunch s lk).det then s else { s with fresh := s.fresh + 1 }) = z
  split
  · refine retired_notesKept (actsFor_notesKept z lk ?_) _ _
    exact fun y => sysPut_notesKept y _ _
  · exact (fatalRecord_notesKept z _ _ _).trans (closeLaunch_notesKept _ _)

/-- After the last pass the replay is over, and its launch has retired. -/
theorem passEnd_last (hlast : s.obs.rnpass ≤ s.obs.rpass) (hr : s.recs = [])
    (hfull : fatalFull s (getLaunch s lk).func = false) :
    (passEnd s lk).obs.rlaunch = none ∧ (passEnd s lk).obs.rplstat.getLsbD 0 = true ∧ tabFind (passEnd s lk).launches lk = none := by
  obtain ⟨hrecs, hlane, hlaunches, -⟩ := passNoted_leaves (s := s) (lk := lk)
  have hend : passEnd s lk = retireLaunch (replayEnded (passNoted s lk)) lk (getLaunch s lk).fate.toNat true := by
    rw [passEnd_eq, decide_eq_true hlast, Bool.or_true, if_pos rfl]
  obtain ⟨hnone, hstat⟩ := retireLaunch_notesKept (replayEnded (passNoted s lk)) lk (getLaunch s lk).fate.toNat true
  have hl : getLaunch (replayEnded (passNoted s lk)) lk = getLaunch s lk := congrArg (fun t => tabGet launchReset t lk) hlaunches
  rw [hend]
  refine ⟨hnone, hstat 0 ?_, retireLaunch_unlisted _ (by rw [hl]; exact (hlane _).trans hfull) (hrecs.trans hr)⟩
  have hor : (replayEnded (passNoted s lk)).obs.rplstat = (passNoted s lk).obs.rplstat ||| 1 := rfl
  rw [hor, BitVec.getLsbD_or]
  simp

end

theorem foldl_obs {α : Type} {f : State → α → State} (hf : ∀ z x, (f z x).obs = z.obs) (l : List α) (s : State) :
    (l.foldl f s).obs = s.obs :=
  foldl_rel (fr := fun z y => y.obs = z.obs) (fun _ => rfl) (fun h k => Eq.trans k h) hf l s

theorem updCore_obs (s : State) (c : Nat) (f : Core → Core) : (updCore s c f).obs = s.obs := rfl

theorem l1WriteBack_obs (s : State) (c : Nat) (p : Nat → Bool) : (l1WriteBack s c p).obs = s.obs := by
  have hdrop : ∀ (z : State) (a : Nat), (relDrop z c a).obs = z.obs := fun z a => by
    unfold relDrop
    split <;> rfl
  have hcount : ∀ (z : State) (code n : Nat), (countEv z c code n).obs = z.obs := fun z code n => by
    unfold countEv
    split <;> rfl
  unfold l1WriteBack
  refine (hcount _ _ _).trans ((updCore_obs _ _ _).trans (foldl_obs (fun z e => ?_) _ _))
  exact hdrop _ _

theorem l2WriteBack_obs (s : State) (p : Nat → Bool) : (l2WriteBack s p).obs = s.obs := rfl

theorem restorePages_obs (s : State) : (restorePages s).obs = s.obs := by
  unfold restorePages
  refine (foldl_obs (fun z p => ?_) _ _).trans ((l2WriteBack_obs _ _).trans (foldl_obs (fun z c => ?_) _ s))
  · refine (foldl_obs (fun y k => ?_) _ _).trans ?_
    · dsimp only
      split <;> rfl
    · split
      · rw [acqAddAll_frame]
      · rfl
  · exact (updCore_obs _ _ _).trans (l1WriteBack_obs z c _)

/-- An earlier pass is followed by the next, over its launch as it was saved (R424; log entry 48). -/
theorem passEnd_next {s : State} {lk : Nat} {r : Launch} (hlen : 4096 * s.obs.rpages.length ≤ s.obs.rplslen.toNat)
    (hpass : s.obs.rpass < s.obs.rnpass) (hr : s.obs.rrec = some r) :
    (passEnd s lk).obs.rlaunch = s.obs.rlaunch ∧ (passEnd s lk).obs.rpass = s.obs.rpass + 1 ∧ getLaunch (passEnd s lk) lk = r ∧
      (passEnd s lk).obs.evsel = tabGet 0 s.obs.rplev s.obs.rpass := by
  have hfull : savedFull s = false := decide_eq_false (Nat.not_lt.2 hlen)
  have hend : passEnd s lk = nextPass s lk ∨ passEnd s lk = urgentPreempt (nextPass s lk) := by
    rw [passEnd_eq, hfull, decide_eq_false (Nat.not_le.2 hpass), Bool.or_self, if_neg Bool.false_ne_true]
    split
    · exact .inr rfl
    · exact .inl rfl
  have hrun : (nextPass s lk).obs.rlaunch = s.obs.rlaunch := by
    rw [nextPass, passBegun_obs, restorePages_obs]
    exact passNoted_leaves.2.2.2
  have hlaunch : getLaunch (nextPass s lk) lk = r := by rw [nextPass, passBegun_launch, hr, Option.getD_some]
  have hobs : (passEnd s lk).obs = (nextPass s lk).obs := by rcases hend with h | h <;> rw [h]; exact urgentPreempt_keeps.1
  have hsame : getLaunch (passEnd s lk) lk = getLaunch (nextPass s lk) lk := by
    rcases hend with h | h <;> rw [h]; exact urgentPreempt_keeps.2 lk
  rw [hobs, hsame]
  exact ⟨hrun, by rw [nextPass, passBegun_obs], hlaunch, by rw [nextPass, passBegun_obs]⟩

/-! ## Counters and the histogram engine -/

theorem counterOf_cntclrWrite {s : State} {v : Word} (hv : v.getLsbD 0 = true) (c n : Nat) : counterOf (cntclrWrite s 0 v) c n = 0 := by
  have hclear : cntclrWrite s 0 v = { s with cores := s.cores.map fun e => (e.1, { e.2 with cnt := [] }) } := by
    simp only [cntclrWrite, hv, decide_true, Bool.and_self, if_true]
  rw [counterOf, hclear, getCore_mapCores s (fun x => { x with cnt := [] }) rfl]
  rfl

/-- A histogram that the sink has room for empties the bins, moves the tail and signals its vector (R421). -/
theorem histExport_exports {s : State} (hreq : s.obs.hreq = true) (hroom : (s.obs.hstail - s.obs.hshead).toNat < s.obs.hslen.toNat) :
    ∃ z, WriteFrame s z ∧ histExport s = signal { z with fresh := z.fresh + 2, obs := { z.obs with
      hreq := false, bins := [], hsat := false, hstart := Config.clockAt (s.fresh + 1), hstail := s.obs.hstail + 1 } } 0 3 := by
  simp only [histExport, hreq, decide_eq_false (Nat.not_le.2 hroom), Bool.not_true, Bool.or_self, Bool.false_eq_true, if_false]
  refine ⟨_, ?_, rfl⟩
  refine foldl_rel WriteFrame.refl WriteFrame.trans (fun z k => ?_) _ _
  split
  · exact sysPut_frame _ _ _
  · exact .refl z

/-- Settles O59: a clear empties every core's counters; a histogram goes out once it has room; a pass ends the replay when it is the last, and is
followed by the next otherwise. -/
theorem observationEvents : Obligations.ObservationEvents := by
  intro s v hs
  refine ⟨fun hv => ⟨_, congrArg Host.Outcome.next (openWrite_open _ hs (Nat.zero_le _)), counterOf_cntclrWrite hv, ?_⟩,
    fun hv => ⟨_, congrArg Host.Outcome.next (openWrite_open _ hs (Nat.zero_le _)), ?_, rfl⟩,
    fun hp => congrArg Host.Outcome.next (if_neg hp), fun hreq hroom => ?_, fun lk hlk hdone hlen => ?_⟩
  · unfold cntclrWrite
    split <;> rfl
  · have hset : (hctlWrite s 0 v).obs.hreq = (s.obs.hreq || v.getLsbD 30) := rfl
    rw [hset, hv, Bool.or_true]
  · obtain ⟨z, hz, hex⟩ := histExport_exports hreq hroom
    have hpcie : z.pcie = s.pcie := by unfold WriteFrame at hz; rw [hz]
    refine ⟨_, congrArg Host.Outcome.next hex, rfl, rfl, rfl, ?_⟩
    rw [← hpcie]
    rfl
  · have hex : exec .replayPassEnd s = .next (passEnd s lk) := by
      rw [exec_replayPassEnd, execReplayPassEnd, hlk]
      exact congrArg Host.Outcome.next (if_pos hdone)
    refine ⟨fun hlast hr hfull => ⟨_, hex, passEnd_last hlast hr hfull⟩, fun r hpass hr => ⟨_, hex, ?_⟩⟩
    rw [← hlk]
    exact passEnd_next hlen hpass hr

end Sys2Proof.Machine
end

section
/-! SUPPORT. Words that move accumulator elements (R339 to R343): what ACCWR's lanes leave of an accumulator, transfers none of whose bytes stops, and
the statement AccumulatorWords. -/

namespace Sys2Proof.Machine

/-! ## Elements written by lanes -/

/-- A group with one element of a tile written for each lane of a list. -/
def elemsWritten (g : Group) (ad : Nat) (v : Nat → Nat × Nat × Flags) (ls : List Nat) : Group :=
  ls.foldl (fun g l => aSet g ad (v l).1 (BitVec.ofNat 64 (v l).2.1)) g

theorem elemsWritten_cons (g : Group) (ad : Nat) (v : Nat → Nat × Nat × Flags) (l : Nat) (ls : List Nat) :
    elemsWritten g ad v (l :: ls) = elemsWritten (aSet g ad (v l).1 (BitVec.ofNat 64 (v l).2.1)) ad v ls := rfl

theorem elemsWritten_frame (g : Group) (ad : Nat) (v : Nat → Nat × Nat × Flags) (ls : List Nat) :
    elemsWritten g ad v ls = { g with acc := (elemsWritten g ad v ls).acc } :=
  List.foldlRecOn (motive := fun x : Group => x = { g with acc := x.acc }) _ _ rfl fun x hx l _ => by rw [hx]; rfl

section
variable {ad : Nat} {v : Nat → Nat × Nat × Flags}

/-- An element that no lane names stays. -/
theorem aGet_elemsWritten_other {b n : Nat} (hn : n < 256) {ls : List Nat} (hv : ∀ l ∈ ls, (v l).1 < 256 ∧ (b = ad → n ≠ (v l).1)) (g : Group) :
    aGet (elemsWritten g ad v ls) b n = aGet g b n := by
  induction ls generalizing g with
  | nil => rfl
  | cons l ls ih =>
    obtain ⟨hlt, hne⟩ := hv l (by simp)
    rw [elemsWritten_cons, ih fun k hk => hv k (List.mem_cons_of_mem _ hk), aGet_aSet _ hlt hn, if_neg fun h => hne h.1 h.2]

/-- The element that a lane names holds that lane's value, when every lane names its own. -/
theorem aGet_elemsWritten {l : Nat} {ls : List Nat} (hl : l ∈ ls) (hv : ∀ k ∈ ls, (v k).1 < 256)
    (hinj : ∀ j ∈ ls, ∀ k ∈ ls, (v j).1 = (v k).1 → j = k) (g : Group) :
    aGet (elemsWritten g ad v ls) ad (v l).1 = BitVec.ofNat 64 (v l).2.1 := by
  induction ls generalizing g with
  | nil => cases hl
  | cons k ls ih =>
    rw [elemsWritten_cons]
    by_cases hin : l ∈ ls
    · exact ih hin (fun j hj => hv j (List.mem_cons_of_mem _ hj))
        (fun i hi j hj => hinj i (List.mem_cons_of_mem _ hi) j (List.mem_cons_of_mem _ hj)) _
    · obtain rfl : l = k := (List.mem_cons.1 hl).resolve_right hin
      rw [aGet_elemsWritten_other (hv l hl) fun j hj => ⟨hv j (List.mem_cons_of_mem _ hj), fun _ he => hin
        (hinj l hl j (List.mem_cons_of_mem _ hj) he ▸ hj)⟩, aGet_aSet _ (hv l hl) (hv l hl), if_pos ⟨rfl, rfl⟩]

end

/-! ## ACCWR, R343 -/

/-- What ACCWR computes for a lane: the element, its value and the flags. -/
def accwrLane (c : Ctx) (ty : Ty) (ad : Nat) (a e : Spec) (l : Nat) : Except Nat (Nat × Nat × Flags) :=
  if c.l.accs ≤ ad then .error cBND
  else do
    let x ← accElem c l e
    let y ← readOp c l ty a
    return (x, accwrRes ty y)

/-- The same where a lane's operands can be read. -/
def accwrVal (c : Ctx) (ty : Ty) (a e : Spec) (l : Nat) : Nat × Nat × Flags :=
  ((opVal c l .n32 e).getD 0 * 32 + l, accwrRes ty ((opVal c l ty a).getD 0))

/-- One lane of ACCWR writes its element or raises its cause. -/
def accwrPut (c : Ctx) (ad : Nat) (f : Nat → Except Nat (Nat × Nat × Flags)) (r : State × Lanes × List (Nat × Flags) × List Raise) (l : Nat) :
    State × Lanes × List (Nat × Flags) × List Raise :=
  match f l with
  | .ok v => (updGroup r.1 c.gk fun g => aSet g ad v.1 (BitVec.ofNat 64 v.2.1), r.2.1 ||| laneBit l,
      (if v.2.2 = 0 then r.2.2.1 else r.2.2.1 ++ [(l, v.2.2)]), r.2.2.2)
  | .error k => (r.1, r.2.1, r.2.2.1, r.2.2.2 ++ [⟨l, k, c.pc, 0, 0, 0⟩])

theorem exec_accwr_eq (h : Hdr) (ty : Ty) (ad : BitVec 6) (a e : Spec) (s : State) :
    exec (.accwr h ty ad a e) s = issueWord (.accwr h ty ad a e) s fun c s =>
      let r := (lanesOf c.active).foldl (accwrPut c ad.toNat (accwrLane c ty ad.toNat a e)) (s, 0, [], [])
      closeWord (.accwr h ty ad a e) c (if r.2.1 = 0 then r.1
        else updGroup r.1 c.gk fun g => pushOut g c.pc c.next r.2.1 (.result [] r.2.2.1) []) r.2.1 [] r.2.2.2 := rfl

/-- When every lane of a list completes, each has written its element and none raises a cause. -/
theorem foldl_accwrPut {c : Ctx} {ad : Nat} {f : Nat → Except Nat (Nat × Nat × Flags)} {v : Nat → Nat × Nat × Flags} {ls : List Nat}
    (hf : ∀ l ∈ ls, f l = .ok (v l)) (s : State) (m : Lanes) (fs : List (Nat × Flags)) (rs : List Raise) :
    ∃ t fs', ls.foldl (accwrPut c ad f) (s, m, fs, rs) = (t, ls.foldl (fun m l => m ||| laneBit l) m, fs', rs) ∧
      ∀ k, updGroup t c.gk k = setGroup s c.gk (k (elemsWritten (getGroup s c.gk) ad v ls)) := by
  induction ls generalizing s m fs with
  | nil => exact ⟨s, fs, rfl, fun _ => rfl⟩
  | cons l ls ih =>
    obtain ⟨t, fs', hfold, hgroup⟩ := ih (fun k hk => hf k (List.mem_cons_of_mem _ hk))
      (updGroup s c.gk fun g => aSet g ad (v l).1 (BitVec.ofNat 64 (v l).2.1)) (m ||| laneBit l) (if (v l).2.2 = 0 then fs else fs ++ [(l, (v l).2.2)])
    refine ⟨t, fs', ?_, fun k => ?_⟩
    · rw [List.foldl_cons, accwrPut, hf l (by simp)]
      exact hfold
    · rw [hgroup, updGroup_eq, setGroup_setGroup, getGroup_setGroup_same, elemsWritten_cons]

section
variable {s : State} {u : Issue} {h : Hdr} {ty : Ty} {ad : BitVec 6} {a e : Spec}

/-- What each lane of a word writes, when its operands can be read and name an element of the tile. -/
theorem accwrLane_ok {c : Ctx} {l : Nat} (hacc : ad.toNat < c.l.accs) (hl : l < 32) (ha : (opVal c l ty a).isSome)
    (he : ∃ x, opVal c l .n32 e = some x ∧ x < 8) : accwrLane c ty ad.toNat a e l = .ok (accwrVal c ty a e l) := by
  obtain ⟨y, hy⟩ := Option.isSome_iff_exists.1 ha
  obtain ⟨x, hx, hlt⟩ := he
  rw [accwrLane, if_neg (Nat.not_le.2 hacc), accElem_ok hx (by omega), accwrVal, hx, hy]
  simp only [readOp_of_opVal hy]
  rfl

/-- ACCWR writes an element for each active lane, and its item has done its work. -/
theorem exec_accwr_writes (ho : ActsOnce s u (.accwr h ty ad a e)) (hacc : ad.toNat < (launchOf s u.gkey).accs)
    (hv : ∀ l, OnLane s u (.accwr h ty ad a e) l → (opVal (ctxOf s u (.accwr h ty ad a e)) l ty a).isSome ∧
      ∃ x, opVal (ctxOf s u (.accwr h ty ad a e)) l .n32 e = some x ∧ x < 8) :
    let c := ctxOf s u (.accwr h ty ad a e)
    ∃ fs, exec (.accwr h ty ad a e) s = .next (passed s u (.accwr h ty ad a e) (pushOut
      (elemsWritten (getGroup s u.gkey) ad.toNat (accwrVal c ty a e) (lanesOf c.active)) u.pc c.next c.active (.result [] fs) [])) := by
  intro c
  obtain ⟨t, fs, hfold, hgroup⟩ := foldl_accwrPut (c := c) (ad := ad.toNat) (v := accwrVal c ty a e) (ls := lanesOf c.active)
    (fun l hl => accwrLane_ok hacc ((mem_lanesOf _ _).1 hl).1 (hv l hl).1 (hv l hl).2) s 0 [] []
  have hmask : (lanesOf c.active).foldl (fun m l => m ||| laneBit l) 0 = c.active := lanesMask_lanesOf c.active
  refine ⟨fs, ?_⟩
  rw [exec_accwr_eq, issueWord_acts _ ho.1]
  dsimp only
  rw [hfold, hmask]
  dsimp only
  rw [if_neg ho.2, hgroup]
  exact congrArg Host.Outcome.next (closeWord_setGroup s _)

theorem accwrVal_lt {c : Ctx} {l : Nat} (hv : ∃ x, opVal c l .n32 e = some x ∧ x < 8) (hl : l ∈ lanesOf c.active) :
    (accwrVal c ty a e l).1 < 256 := by
  obtain ⟨z, hz, hlt⟩ := hv
  have := ((mem_lanesOf _ _).1 hl).1
  simp only [accwrVal, hz, Option.getD_some]
  omega

/-- ACCWR's elements are those of the lanes, and no other tile changes. -/
theorem aGet_accwr {c : Ctx} (hv : ∀ l, l ∈ lanesOf c.active → ∃ x, opVal c l .n32 e = some x ∧ x < 8) (g : Group) {l x y : Nat}
    (hl : l ∈ lanesOf c.active) (hx : opVal c l .n32 e = some x) (hy : opVal c l ty a = some y) :
    aGet (elemsWritten g ad.toNat (accwrVal c ty a e) (lanesOf c.active)) ad.toNat (32 * x + l) = BitVec.ofNat 64 (accwrRes ty y).1 := by
  have hval : accwrVal c ty a e l = (32 * x + l, accwrRes ty y) := by rw [accwrVal, hx, hy, Nat.mul_comm]; rfl
  have hown : ∀ j ∈ lanesOf c.active, ∀ k ∈ lanesOf c.active, (accwrVal c ty a e j).1 = (accwrVal c ty a e k).1 → j = k := fun j hj k hk => by
    have := ((mem_lanesOf _ _).1 hj).1
    have := ((mem_lanesOf _ _).1 hk).1
    simp only [accwrVal]
    omega
  have := aGet_elemsWritten (ad := ad.toNat) hl (fun k hk => accwrVal_lt (hv k hk) hk) hown g
  rwa [hval] at this

end

/-! ## ACCLD and ACCST, R341, R342 -/

section
variable {s : State} {u : Issue} {h : Hdr} {i : Instr} {ad : BitVec 6} {tm : BitVec 4} {org : Spec} {x : Nat} {ty : Ty} {t : TileReg}

/-- A transfer's accumulator exists, and its map is in order. -/
theorem transfer_ok {accs : Nat} (hacc : ad.toNat < accs) (hmap : mapOk t true = true) : (accs ≤ ad.toNat || !mapOk t true) = false := by
  rw [decide_eq_false (Nat.not_le.2 hacc), hmap]
  rfl

/-- ACCLD whose bytes all translate fills its accumulator from them, and its item has done its work (R341). -/
theorem exec_accld_fills {r : State × List (DWord × Byte) × List Stop} (hi : i = .accld h ad tm org) (ha : ActsOnce s u i)
    (ht : t = tGet (getGroup s u.gkey) tm.toNat) (hacc : ad.toNat < (launchOf s u.gkey).accs) (hmap : mapOk t true = true) (hty : tileFmt t = some ty) (hx : uniVal s u i .n32 org = some x)
    (hr : r = fetchSome (flushGroup s u.gkey) u.gkey ((lanesOf (ctxOf s u i).active).headD 0) (coreOf s u.gkey) (tagCheck t)
      (tileWindow t ty (BitVec.ofNat 32 x))) (hstop : r.2.2 = []) :
    exec i s = .next (passedIn r.1 s u i (pushOut (putTile (getGroup r.1 u.gkey) ad.toNat (tileVals t ty (BitVec.ofNat 32 x) r.2.1)) u.pc
      (ctxOf s u i).next (ctxOf s u i).active (.loaded []) [])) := by
  have htile : tGet (ctxOf s u i).g tm.toNat = t := ht.symm
  have hacc' : ad.toNat < (ctxOf s u i).l.accs := hacc
  have hr' : fetchSome (flushGroup s (ctxOf s u i).gk) (ctxOf s u i).gk ((lanesOf (ctxOf s u i).active).headD 0) (ctxOf s u i).core (tagCheck t)
      (tileWindow t ty (BitVec.ofNat 32 x)) = r := hr.symm
  subst hi
  rw [exec_accld, execAccld, onceWord_acts _ ha.1 ha.2]
  dsimp only
  rw [htile, transfer_ok hacc' hmap, if_neg Bool.false_ne_true, hty, readUni_of_opVal hx]
  dsimp only
  rw [hr', hstop]
  exact congrArg Host.Outcome.next (closeWord_setGroup r.1 _)

/-- ACCST whose bytes all translate writes the codes of its accumulator, and its item has done its work (R342). -/
theorem exec_accst_writes {rnd : Rnd} {sat : Bool} {b : List (DWord × Nat × Nat)} {w : State × List Stop} (hi : i = .accst h rnd sat tm ad org)
    (ha : ActsOnce s u i) (ht : t = tGet (getGroup s u.gkey) tm.toNat) (hacc : ad.toNat < (launchOf s u.gkey).accs) (hmap : mapOk t true = true)
    (hty : tileFmt t = some ty) (hx : uniVal s u i .n32 org = some x)
    (hb : b = accstBytes (ctxOf s u i) t ty rnd sat ad.toNat (BitVec.ofNat 32 x))
    (hw : w = writeStops (flushGroup s u.gkey) u.gkey ((lanesOf (ctxOf s u i).active).headD 0) b) (hstop : w.2 = []) :
    let z := accstWrite w.1 u.gkey ((lanesOf (ctxOf s u i).active).headD 0) b t.swz
    exec i s = .next (passedIn z s u i (pushOut (getGroup z u.gkey) u.pc (ctxOf s u i).next (ctxOf s u i).active (.result [] []) [])) := by
  have htile : tGet (ctxOf s u i).g tm.toNat = t := ht.symm
  have hacc' : ad.toNat < (ctxOf s u i).l.accs := hacc
  have hw' : writeStops (flushGroup s (ctxOf s u i).gk) (ctxOf s u i).gk ((lanesOf (ctxOf s u i).active).headD 0) b = w := hw.symm
  subst hi
  rw [exec_accst, execAccst, onceWord_acts _ ha.1 ha.2]
  dsimp only
  rw [htile, transfer_ok hacc' hmap, if_neg Bool.false_ne_true, hty, readUni_of_opVal hx]
  dsimp only
  rw [← hb, hw', hstop]
  exact congrArg Host.Outcome.next (closeWord_setGroup (accstWrite w.1 u.gkey ((lanesOf (ctxOf s u _).active).headD 0) b t.swz) _)

end

/-- Settles O42: ACCWR's lanes each write their own element; a transfer with no stop fills its accumulator, or writes its codes. -/
theorem accumulatorWords : Obligations.AccumulatorWords := by
  refine ⟨fun s u h ty ad a e ha hacc hv => ?_, fun s u h ad tm org x ty hacc hmap hty =>
    ⟨fun i r hi ha hx hr hstop => exec_accld_fills hi ha rfl hacc hmap hty hx hr hstop,
      fun i rnd sat b w hi ha hx hb hw hstop => exec_accst_writes hi ha rfl hacc hmap hty hx hb hw hstop⟩⟩
  obtain ⟨fs, hex⟩ := exec_accwr_writes ha hacc hv
  refine ⟨_, fs, hex, elemsWritten_frame _ _ _ _, fun l x y hl => aGet_accwr (fun k hk => (hv k hk).2) _ hl, fun b n hn hb => ?_⟩
  refine aGet_elemsWritten_other hn (fun l hl => ⟨?_, fun h => absurd h hb⟩) _
  exact accwrVal_lt (hv l hl).2 hl

end Sys2Proof.Machine
end

section
/-! SUPPORT. Releases and acquires of a phase (R360, R361, R365, R381): their beginning at PHREL, PHACQ and PHSYNC, their end, and the statement
PhaseWords. -/

namespace Sys2Proof.Machine

/-! ## The beginning of a release or an acquire -/

section
variable {s : State} {u : Issue} {i : Instr} {h : Hdr} {sc : Scope} {c : Nat} {cs : List Nat}

/-- A core with no release of this cycle begins one of its own (R360). -/
theorem releaseAsk_begins (hnone : s.rels.find? (fun r => r.core == c && r.cyc == s.now) = none) :
    ∃ r, releaseAsk s c sc cs = ({ setCore s c { getCore s c with sigf := 0 } with uid := s.uid + 1, rels := s.rels ++ [r] }, s.uid) ∧
      r.id = s.uid ∧ r.core = c ∧ r.scope = sc ∧ r.sig = (getCore s c).sigf ∧ r.cores = cs ∧ r.cyc = s.now ∧
      ∀ a b, (a, b) ∈ r.bytes ↔ (a, (true, b)) ∈ (getCore s c).l1 := by
  refine ⟨⟨s.uid, c, sc, ((getCore s c).l1.filter fun e => e.2.1).map fun e => (e.1, e.2.2), [], (getCore s c).sigf, cs, s.now⟩,
    by simp only [releaseAsk, hnone]; rfl, rfl, rfl, rfl, rfl, rfl, rfl, fun a b => ?_⟩
  simp only [List.mem_map, List.mem_filter, Prod.mk.injEq]
  constructor
  · rintro ⟨⟨a', d, b'⟩, ⟨hmem, hd⟩, rfl, rfl⟩
    rwa [show d = true from hd] at hmem
  · exact fun hmem => ⟨_, ⟨hmem, rfl⟩, rfl, rfl⟩

/-- A release of this cycle is shared: no release takes anything more (R381). -/
theorem releaseAsk_shares {r : Release} (hsome : s.rels.find? (fun r => r.core == c && r.cyc == s.now) = some r) :
    (releaseAsk s c sc cs).1 = { s with rels := (releaseAsk s c sc cs).1.rels } ∧ (releaseAsk s c sc cs).2 = r.id ∧
      ∀ q, q ∈ (releaseAsk s c sc cs).1.rels → ∃ p, p ∈ s.rels ∧ q = { p with scope := q.scope, cores := q.cores } ∧
        ∀ d, d ∈ p.cores ∨ (p.id = r.id ∧ d ∈ cs) → d ∈ q.cores := by
  simp only [releaseAsk, hsome]
  refine ⟨trivial, trivial, fun q hq => ?_⟩
  obtain ⟨p, hp, rfl⟩ := List.mem_map.1 hq
  refine ⟨p, hp, ?_⟩
  split
  · exact ⟨rfl, fun d hd => List.mem_append.2 (hd.imp_right And.right)⟩
  · next hid => exact ⟨rfl, fun d hd => hd.resolve_right fun hr => hid (beq_iff_eq.2 hr.1)⟩

theorem getGroup_releaseAsk (k : Nat) : getGroup (releaseAsk s c sc cs).1 k = getGroup s k := by
  have hframe : AskFrame s (releaseAsk s c sc cs).1 := (releaseAsk_spec s c sc cs).1
  rw [show (releaseAsk s c sc cs).1 = _ from hframe]
  rfl

/-- A word that asks for a release queues its completion (R360, R381). -/
theorem exec_asks_release {w : Nat → Work} (ha : ActsOnce s u i) (hi : (i = .phrel h sc ∧ w = fun id => .release sc id) ∨
    (i = .phsync h sc ∧ w = fun id => .phsync sc id false)) (hdet : (getGroup s u.gkey).det = false) :
    let r := releaseAsk s (coreOf s u.gkey) sc (scopeCores s u.gkey sc)
    exec i s = .next (passedIn r.1 s u i (queued s u i (w r.2) [])) := by
  intro r
  have hdet' : (ctxOf s u i).g.det = false := hdet
  have hbody : exec i s = .next (closeWord i (ctxOf s u i) (updGroup r.1 u.gkey fun g =>
      pushOut g u.pc (ctxOf s u i).next (ctxOf s u i).active (w r.2) []) (ctxOf s u i).active [] []) := by
    rcases hi with ⟨rfl, rfl⟩ | ⟨rfl, rfl⟩
    · rw [exec_phrel, execPhrel, onceWord_acts _ ha.1 ha.2, hdet', if_neg Bool.false_ne_true]
      rfl
    · rw [exec_phsync, execPhsync, onceWord_acts _ ha.1 ha.2, hdet', if_neg Bool.false_ne_true]
      rfl
  rw [hbody, updGroup_eq, closeWord_setGroup, queued, getGroup_releaseAsk]

/-- PHACQ takes ACQF and queues its completion (R361). -/
theorem exec_phacq_takes (ha : ActsOnce s u (.phacq h sc)) (hdet : (getGroup s u.gkey).det = false) : exec (.phacq h sc) s =
    .next (passedIn (acquireTake { s with uid := s.uid + 1 } s.uid (coreOf s u.gkey) none) s u (.phacq h sc)
      (queued s u (.phacq h sc) (.acquire s.uid) [])) := by
  have hdet' : (ctxOf s u (.phacq h sc)).g.det = false := hdet
  rw [exec_phacq, execPhacq, onceWord_acts _ ha.1 ha.2, hdet', if_neg Bool.false_ne_true]
  exact congrArg Host.Outcome.next (closeWord_setGroup (acquireTake { s with uid := s.uid + 1 } s.uid (coreOf s u.gkey) none) _)

/-! ## In a deterministic launch, R369 -/

theorem cancelSigns_phases (s : State) (c : Nat) : (cancelSigns s c).rels = s.rels ∧ (cancelSigns s c).acqs = s.acqs := by
  rw [cancelSigns_eq]
  dsimp only
  split
  · exact ⟨rfl, rfl⟩
  · have hfold := fun (l : List Sign) (f : State → Sign → State) (hf : ∀ z x, (f z x).rels = z.rels ∧ (f z x).acqs = z.acqs) (z : State) =>
      foldl_rel (fr := fun a b => b.rels = a.rels ∧ b.acqs = a.acqs) (fun _ => ⟨rfl, rfl⟩)
        (fun h k => ⟨k.1.trans h.1, k.2.trans h.2⟩) hf l z
    have hleave := hfold (s.signs.filter fun x => x.core == c) signerLeaves (fun _ _ => ⟨rfl, rfl⟩) s
    have hclear := hfold (s.signs.filter fun x => x.core == c) (clearSigned c) (fun _ _ => ⟨rfl, rfl⟩)
      ((s.signs.filter fun x => x.core == c).foldl signerLeaves s)
    exact ⟨hclear.1.trans hleave.1, hclear.2.trans hleave.2⟩

/-- A cause that goes to the handler begins and ends no release and no acquire. -/
theorem causedIn_phases {k : Nat} {a : DWord} (hact : (ctxOf s u i).active ≠ 0) (hi : postSteps i = []) (hk : k ∉ [cHWE, cTRN, cBKP])
    (hh : (launchOf s u.gkey).handler = some a) (hin : (ctxOf s u i).active &&& (getGroup s u.gkey).hmask = 0) :
    (causedIn s u i k).rels = s.rels ∧ (causedIn s u i k).acqs = s.acqs := by
  simp only [List.mem_cons, List.not_mem_nil, or_false, not_or] at hk
  obtain ⟨hhwe, htrn, hbkp⟩ := hk
  have hlaunch : launchOf (setGroup s u.gkey (causedGroup s u i k)) u.gkey = launchOf s u.gkey :=
    launchOf_setGroup (by rw [causedGroup_frame])
  have hmark : ∀ (z : State) (b : Bool), (setMark z u.gkey b).rels = z.rels ∧ (setMark z u.gkey b).acqs = z.acqs := fun z b => by
    unfold setMark
    split <;> exact ⟨rfl, rfl⟩
  rw [causedIn_eq hact hi hhwe, beq_false_of_ne htrn, beq_false_of_ne hbkp,
    deliver_handled (h := a) (by rw [getGroup_setGroup_same, causedGroup_frame]; exact hin) rfl (hlaunch ▸ hh)]
  obtain ⟨hrels, hacqs⟩ := hmark (cancelSigns (setGroup (setGroup s u.gkey (causedGroup s u i k)) u.gkey (handledGroup
    (getGroup (setGroup s u.gkey (causedGroup s u i k)) u.gkey) (ctxOf s u i).active a)) _) (markOf i)
  obtain ⟨hrels', hacqs'⟩ := cancelSigns_phases (setGroup (setGroup s u.gkey (causedGroup s u i k)) u.gkey (handledGroup
    (getGroup (setGroup s u.gkey (causedGroup s u i k)) u.gkey) (ctxOf s u i).active a)) _
  exact ⟨hrels.trans hrels', hacqs.trans hacqs'⟩

/-- All three raise the determinism cause in a deterministic launch (R369, R381). -/
theorem exec_phase_det (ha : ActsOnce s u i) (hi : i = .phrel h sc ∨ i = .phacq h sc ∨ i = .phsync h sc) (hdet : (getGroup s u.gkey).det = true) :
    exec i s = .next (causedIn s u i cDET) ∧ postSteps i = [] := by
  have hdet' : (ctxOf s u i).g.det = true := hdet
  rcases hi with rfl | rfl | rfl
  · rw [exec_phrel, execPhrel, onceWord_acts _ ha.1 ha.2, hdet', if_pos rfl]
    exact ⟨rfl, rfl⟩
  · rw [exec_phacq, execPhacq, onceWord_acts _ ha.1 ha.2, hdet', if_pos rfl]
    exact ⟨rfl, rfl⟩
  · rw [exec_phsync, execPhsync, onceWord_acts _ ha.1 ha.2, hdet', if_pos rfl]
    exact ⟨rfl, rfl⟩

end

/-! ## The end of a release, R360 -/

theorem countEv_frame (s : State) (c code n : Nat) : countEv s c code n = { s with cores := (countEv s c code n).cores } := by
  unfold countEv
  split <;> rfl

/-- A count changes no core's caches and filters. -/
theorem getCore_countEv (s : State) (c code n d : Nat) :
    getCore (countEv s c code n) d = { getCore s d with cnt := (getCore (countEv s c code n) d).cnt } := by
  unfold countEv
  split
  · rfl
  · rw [getCore_updCore]
    split
    · next hd =>
      subst hd
      split <;> rfl
    · rfl

/-- A release's bytes at L2. -/
def bytesAtL2 (s : State) (bs : List (Nat × Byte)) : State := bs.foldl (fun s e => { s with l2 := tabPut s.l2 e.1 (true, e.2) }) s

section
variable {s : State} {a : Nat} {b : Byte}

theorem bytesAtL2_frame (s : State) (bs : List (Nat × Byte)) : bytesAtL2 s bs = { s with l2 := (bytesAtL2 s bs).l2 } :=
  foldl_rel (fr := fun a b => b = { a with l2 := b.l2 }) (fun _ => rfl) (fun h k => k.trans (by rw [h])) (fun _ _ => rfl) bs s

theorem l2Byte_byteAtL2 (s : State) (e : Nat × Byte) (a : Nat) :
    l2Byte { s with l2 := tabPut s.l2 e.1 (true, e.2) } a = if a = e.1 then e.2 else l2Byte s a := by
  by_cases h : a = e.1
  · subst h; simp only [l2Byte, tabFind_tabPut_same, if_true]
  · simp only [l2Byte, tabFind_tabPut_other _ _ _ _ h, h, if_false]

/-- An address that holds the only value that its bytes name, or that is not named and holds it already, holds it afterwards. -/
theorem l2Byte_bytesAtL2_of {bs : List (Nat × Byte)} (hone : ∀ b', (a, b') ∈ bs → b' = b) (hold : l2Byte s a = b ∨ (a, b) ∈ bs) :
    l2Byte (bytesAtL2 s bs) a = b := by
  induction bs generalizing s with
  | nil => exact hold.resolve_right (by simp)
  | cons e bs ih =>
    refine ih (s := { s with l2 := tabPut s.l2 e.1 (true, e.2) }) (fun b' hb => hone b' (List.mem_cons_of_mem _ hb)) ?_
    rw [l2Byte_byteAtL2]
    by_cases hae : a = e.1
    · rw [if_pos hae]
      exact .inl (hone e.2 (by simp [hae]))
    · rw [if_neg hae]
      refine hold.imp_right fun hmem => (List.mem_cons.1 hmem).resolve_left fun he => hae (by rw [← he])

end

section
variable {s : State} {r : Release} {id k c d n : Nat} {o : Out}

/-- The core of a release, its bytes clean but for those stored again. -/
def cleaned (r : Release) (x : Core) : Core :=
  { x with l1 := x.l1.map fun e => if e.2.1 && !r.again.contains e.1 && r.bytes.any (fun b => b.1 == e.1) then (e.1, (false, e.2.2)) else e }

theorem releaseBytes_eq (s : State) (r : Release) : releaseBytes s r =
    countEv (updCore (bytesAtL2 s r.bytes) r.core (cleaned r)) r.core 0x02 (linesOf (r.bytes.map (·.1))) := rfl

theorem releaseBytes_frame (s : State) (r : Release) :
    releaseBytes s r = { s with l2 := (bytesAtL2 s r.bytes).l2, cores := (releaseBytes s r).cores } := by
  rw [releaseBytes_eq, countEv_frame, bytesAtL2_frame]
  rfl

/-- A release is no longer in progress. -/
def notInProgress (s : State) (r : Release) : State := { s with rels := s.rels.filter fun q => q.id != r.id }

/-- What the end of a release is below .sys. -/
theorem releaseFinish_eq (hsys : r.scope ≠ .sys) : releaseFinish s r =
    if r.sig = 0 then releaseBytes (notInProgress s r) r
    else acqRecord (releaseBytes (notInProgress s r) r) (fun c => c != r.core && r.cores.contains c) r.sig := by
  rw [releaseFinish]
  simp only [hsys, if_false]
  rfl

/-- It leaves the release, its bytes at L2, the L1 of its core and filters. -/
theorem releaseFinish_frame (hsys : r.scope ≠ .sys) : releaseFinish s r = { notInProgress s r with
    l2 := (bytesAtL2 (notInProgress s r) r.bytes).l2, cores := (releaseFinish s r).cores, acqs := (releaseFinish s r).acqs } := by
  have hframe := releaseBytes_frame (notInProgress s r) r
  rw [releaseFinish_eq hsys]
  generalize releaseBytes (notInProgress s r) r = z at hframe
  generalize (bytesAtL2 (notInProgress s r) r.bytes).l2 = m at hframe
  split
  · rw [hframe]
  · rw [hframe]; rfl

theorem l2Byte_releaseFinish (hsys : r.scope ≠ .sys) (a : Nat) :
    l2Byte (releaseFinish s r) a = l2Byte (bytesAtL2 (notInProgress s r) r.bytes) a := by
  rw [releaseFinish_frame hsys, bytesAtL2_frame]
  rfl

/-- The filters of a release's other cores take its signature (R360, R364). -/
theorem acqf_releaseFinish (hsys : r.scope ≠ .sys) (hd : d ∈ r.cores) (hne : d ≠ r.core) (hlt : d < 192) (hnow : acqNow s d = none)
    (hn : r.sig.getLsbD n = true) : (getCore (releaseFinish s r) d).acqf.getLsbD n = true := by
  have hsig : r.sig ≠ 0 := fun h => by rw [h] at hn; simp at hn
  have hnow' : acqNow (releaseBytes (notInProgress s r) r) d = none := by
    rw [releaseBytes_frame]; exact hnow
  have hin : (d != r.core && r.cores.contains d) = true := by simp [hne, hd]
  rw [releaseFinish_eq hsys, if_neg hsig]
  generalize releaseBytes _ r = z at hnow'
  have hcore : getCore (acqRecord z (fun c => c != r.core && r.cores.contains c) r.sig) d =
      getCore (updCores z fun c x => if (c != r.core && r.cores.contains c) && (acqNow z c).isNone then { x with acqf := x.acqf ||| r.sig } else x) d :=
    rfl
  rw [hcore, getCore_updCores, if_pos hlt, hin, hnow']
  simp [BitVec.getLsbD_or, hn]

/-! ## Items that an end lets go -/

theorem retire_retire (g : Group) (n : Nat) : retire (retire g n) n = retire g n := by
  simp only [retire, List.filter_filter, Bool.and_self, Bool.and_assoc]

/-- An item that occurs in a list of asking ones is let go once for all. -/
theorem foldl_releaseOver {sc : Scope} (hsc : sc ≠ .sys) (hw : o.work = .release sc id) {l : List (Nat × Out)} (hl : ∀ x ∈ l, x = (k, o))
    (hne : l ≠ []) (z : State) : l.foldl (fun s x => releaseOver s x.1 x.2) z = updGroup z k fun g => retire g o.seq := by
  have hover : ∀ y, releaseOver y k o = updGroup y k fun g => retire g o.seq := fun y => by
    simp only [releaseOver, hw, hsc, decide_false, Bool.false_and, Bool.false_eq_true, if_false]
  induction l generalizing z with
  | nil => exact absurd rfl hne
  | cons x l ih =>
    obtain rfl := hl x (by simp)
    rw [List.foldl_cons, hover]
    by_cases hnil : l = []
    · rw [hnil, List.foldl_nil]
    · rw [ih (fun y hy => hl y (List.mem_cons_of_mem _ hy)) hnil, updGroup_eq, updGroup_eq, getGroup_setGroup_same,
        setGroup_setGroup, retire_retire]

/-- No release before the first of a core, which is found by its own number, is of that core. -/
theorem takeWhile_other {l : List Release} (hid : l.find? (fun r => r.id == id) = some r) (hc : l.find? (fun r => r.core == c) = some r) :
    (l.takeWhile fun x => x.id != id).any (fun x => x.core == c) = false := by
  induction l with
  | nil => rfl
  | cons x l ih =>
    by_cases hx : x.id = id
    · simp [hx]
    · have hcore : x.core ≠ c := fun h => by
        rw [List.find?_cons_of_pos (by simp [h])] at hc
        obtain rfl := Option.some.inj hc
        exact hx (by simpa using List.find?_some hid)
      rw [List.find?_cons_of_neg (by simp [hx])] at hid
      rw [List.find?_cons_of_neg (by simp [hcore])] at hc
      simp [hx, hcore, ih hid hc]

/-- A release that began in an earlier cycle, the first of its core, ends, and the item of the only word that asked for it goes (R360). -/
theorem exec_releaseComplete_ends {sc : Scope} (ho : o ∈ (getGroup s k).outs) (hg : s.groups = [(k, getGroup s k)])
    (hid : s.rels.find? (fun r => r.id == id) = some r) (hc : s.rels.find? (fun r => r.core == c) = some r) (hcyc : r.cyc < s.now)
    (hscope : r.scope = sc) (hsc : sc ≠ .sys) (hw : o.work = .release sc id)
    (hone : ∀ p, p ∈ (getGroup s k).outs → ∀ sc', p.work = .release sc' id → p = o)
    (hsync : ∀ p sc', p ∈ (getGroup s k).outs → p.work ≠ .phsync sc' id false) :
    exec (.releaseComplete id) s = .next (updGroup (releaseFinish s r) k fun g => retire g o.seq) := by
  have hcore : r.core = c := by simpa using List.find?_some hc
  have hgroups : (releaseFinish s r).groups = [(k, getGroup s k)] := by rw [releaseFinish_frame (hscope ▸ hsc)]; exact hg
  have hwait : (decide (s.now ≤ r.cyc) || (s.rels.takeWhile fun x => x.id != id).any (fun x => x.core == r.core)) = false := by
    rw [hcore, takeWhile_other hid hc, decide_eq_false (Nat.not_le.2 hcyc)]
    rfl
  have hask : asksRelease id o = true := by simp [asksRelease, hw]
  have hall : ∀ p, p ∈ (getGroup s k).outs → asksRelease id p = true → p = o := fun p hp hasks => by
    rw [asksRelease] at hasks
    split at hasks
    · next sc' i hwork => exact hone p hp sc' (by rw [hwork, beq_iff_eq.1 hasks])
    · next sc' i b hwork =>
      rw [Bool.and_eq_true, beq_iff_eq, Bool.not_eq_true'] at hasks
      exact absurd (by rw [hwork, hasks.1, hasks.2]) (hsync p sc' hp)
    · exact absurd hasks Bool.false_ne_true
  rw [exec_releaseComplete, execReleaseComplete, hid]
  dsimp only
  rw [hwait, if_neg Bool.false_ne_true, releaseItem, hgroups, List.flatMap_cons, List.flatMap_nil, List.append_nil]
  refine congrArg Host.Outcome.next (foldl_releaseOver hsc hw (fun x hx => ?_) (fun hnil => ?_) _)
  · obtain ⟨p, hp, rfl⟩ := List.mem_map.1 hx
    obtain ⟨hmem, hasks⟩ := List.mem_filter.1 hp
    rw [hall p hmem hasks]
  · have : o ∈ (getGroup s k).outs.filter (asksRelease id) := List.mem_filter.2 ⟨ho, hask⟩
    rw [List.map_eq_nil_iff.1 hnil] at this
    cases this

/-! ## The end of an acquire, R361 -/

theorem acquireDrop_eq (s : State) (c : Nat) (f : BitVec 2048) : ∃ n, acquireDrop s c f =
    countEv (updCore s c fun x => { x with l1 := x.l1.filter fun e => e.2.1 || !filtHas f e.1 }) c 0x09 n := ⟨_, rfl⟩

theorem acquireDrop_frame (s : State) (c : Nat) (f : BitVec 2048) : acquireDrop s c f = { s with cores := (acquireDrop s c f).cores } := by
  obtain ⟨n, h⟩ := acquireDrop_eq s c f
  rw [h, countEv_frame]
  rfl

/-- Of its core's L1 an acquire leaves the dirty bytes and those that its filter does not match. -/
theorem l1_acquireDrop (s : State) (c : Nat) (f : BitVec 2048) :
    (getCore (acquireDrop s c f) c).l1 = (getCore s c).l1.filter fun e => e.2.1 || !filtHas f e.1 := by
  obtain ⟨n, h⟩ := acquireDrop_eq s c f
  rw [h, getCore_countEv, getCore_updCore, if_pos rfl]

/-- The only acquire in progress, which began in an earlier cycle, ends, and the item of the only word that asked for it goes (R361, R365). -/
theorem exec_acquireComplete_ends {f : BitVec 2048} {z : Nat} {w : Option Nat} (ho : o ∈ (getGroup s k).outs)
    (hg : s.groups = [(k, getGroup s k)]) (hacq : s.acqs = [⟨id, c, f, z, w⟩]) (hz : z < s.now) (hw : o.work = .acquire id)
    (hone : ∀ p, p ∈ (getGroup s k).outs → p ≠ o →
      p.work ≠ .acquire id ∧ (∀ sc, p.work ≠ .phsync sc id true) ∧ p.work ≠ .ldone (some id)) :
    exec (.acquireComplete id) s = .next (updGroup (acquireDrop { s with acqs := [] } c f) k fun g => retire g o.seq) := by
  have hgroups : (acquireDrop { s with acqs := [] } c f).groups = [(k, getGroup s k)] := by rw [acquireDrop_frame]; exact hg
  have hwait : (decide (s.now ≤ z) || (List.takeWhile (fun x : Acquire => x.id != id) [⟨id, c, f, z, w⟩]).any (fun x => x.core == c)) = false := by
    rw [decide_eq_false (Nat.not_le.2 hz)]
    simp
  rw [exec_acquireComplete, execAcquireComplete, hacq, List.find?_cons_of_pos (by simp)]
  dsimp only
  rw [hwait, if_neg Bool.false_ne_true, List.filter_cons_of_neg (by simp), List.filter_nil, itemOf, hgroups, List.findSome?_cons,
    find?_unique ho (by rw [hw]; simp) fun p hp hasks => ?_]
  · rfl
  · by_contra hne
    obtain ⟨hacquire, hphsync, hldone⟩ := hone p hp hne
    split at hasks
    · next i hwork => exact hacquire (by rw [hwork, beq_iff_eq.1 hasks])
    · next sc i q hwork =>
      rw [Bool.and_eq_true, beq_iff_eq] at hasks
      exact hphsync sc (by rw [hwork, hasks.1, hasks.2])
    · next i hwork => exact hldone (by rw [hwork, beq_iff_eq.1 hasks])
    · exact absurd hasks Bool.false_ne_true

theorem outs_retired {z : State} (hgroup : getGroup z k = getGroup s k) (n : Nat) :
    (getGroup (updGroup z k fun g => retire g n) k).outs = (getGroup s k).outs.filter fun p => p.seq != n := by
  rw [updGroup_eq, getGroup_setGroup_same, hgroup, retire]

/-- What the end of a release leaves. -/
theorem releaseComplete_leaves (hid : s.rels.find? (fun r => r.id == id) = some r) (hcore : r.core = c) (hsys : r.scope ≠ .sys) :
    let t := updGroup (releaseFinish s r) k fun g => retire g o.seq
    (getGroup t k).outs = (getGroup s k).outs.filter (fun p => p.seq != o.seq) ∧ (∀ q, q ∈ t.rels ↔ q ∈ s.rels ∧ q.id ≠ id) ∧
      (∀ a b, (a, b) ∈ r.bytes → (∀ b', (a, b') ∈ r.bytes → b' = b) → l2Byte t a = b) ∧
      (∀ a, (∀ b, (a, b) ∉ r.bytes) → l2Byte t a = l2Byte s a) ∧
      ∀ d n, d ∈ r.cores → d ≠ c → d < 192 → acqNow s d = none → r.sig.getLsbD n = true → (getCore t d).acqf.getLsbD n = true := by
  intro t
  have hrid : r.id = id := by simpa using List.find?_some hid
  have hgroup : getGroup (releaseFinish s r) k = getGroup s k := by rw [releaseFinish_frame hsys]; rfl
  have hrels : t.rels = s.rels.filter fun q => q.id != r.id := congrArg State.rels (releaseFinish_frame hsys)
  have hbyte : ∀ a, l2Byte t a = l2Byte (bytesAtL2 (notInProgress s r) r.bytes) a := l2Byte_releaseFinish hsys
  refine ⟨outs_retired hgroup _, fun q => ?_, fun a b hb hone => ?_, fun a hnone => ?_, fun d n hd hne hlt hnow hn => ?_⟩
  · rw [hrels, List.mem_filter, hrid]
    simp
  · rw [hbyte, l2Byte_bytesAtL2_of hone (.inr hb)]
  · exact (hbyte a).trans (l2Byte_bytesAtL2_of (fun b' hb => absurd hb (hnone b')) (.inl rfl))
  · exact acqf_releaseFinish hsys hd (hcore ▸ hne) hlt hnow hn

/-- What the end of an acquire leaves. -/
theorem acquireComplete_leaves (s : State) (k c : Nat) (o : Out) (f : BitVec 2048) (a : Nat) :
    let t := updGroup (acquireDrop { s with acqs := [] } c f) k fun g => retire g o.seq
    (getGroup t k).outs = (getGroup s k).outs.filter (fun p => p.seq != o.seq) ∧ t.acqs = [] ∧
      (∀ b, (a, (false, b)) ∈ (getCore t c).l1 → filtHas f a = false) ∧
      (∀ b, (a, (true, b)) ∈ (getCore t c).l1 ↔ (a, (true, b)) ∈ (getCore s c).l1) := by
  intro t
  have hgroup : getGroup (acquireDrop { s with acqs := [] } c f) k = getGroup s k := by rw [acquireDrop_frame]; rfl
  have hl1 : (getCore t c).l1 = (getCore s c).l1.filter fun e => e.2.1 || !filtHas f e.1 := l1_acquireDrop { s with acqs := [] } c f
  refine ⟨outs_retired hgroup _, congrArg State.acqs (acquireDrop_frame { s with acqs := [] } c f), ?_, ?_⟩
  · intro b hb
    rw [hl1, List.mem_filter] at hb
    simpa using hb.2
  · intro b
    rw [hl1, List.mem_filter]
    simp

end

/-- What the beginning of a release or acquire leaves of the cores. -/
theorem getCore_taken {s t : State} {c : Nat} {x : Core} (ht : t.cores = (setCore s c x).cores) :
    getCore t c = x ∧ ∀ d, d ≠ c → getCore t d = getCore s d := by
  have hcore : ∀ d, getCore t d = getCore (setCore s c x) d := fun d => congrArg (fun l => tabGet coreReset l d) ht
  exact ⟨(hcore c).trans (getCore_setCore_same _ _ _), fun d hd => (hcore d).trans (getCore_setCore_other _ _ _ _ hd)⟩

/-- Settles O35: the words ask for a release or take ACQF, but raise the determinism cause in a deterministic launch; an end does what its beginning
took, and only in a later cycle. -/
theorem phaseWords : Obligations.PhaseWords := by
  refine ⟨fun s u h sc => ⟨fun hdet => ⟨fun i w hi ha => ⟨fun hnone => ?_, fun r hsome => ?_⟩, fun ha => ?_⟩, fun i a hi hdet ha hh hin => ?_⟩,
    fun s id k c o ho => ⟨?_, ?_, fun r hr hcyc => ?_, fun a ha hcyc => ?_⟩⟩
  · obtain ⟨r, hr, hfields⟩ := releaseAsk_begins (sc := sc) (cs := scopeCores s u.gkey sc) hnone
    obtain ⟨hcore, hother⟩ := getCore_taken (s := s) (t := (releaseAsk s (coreOf s u.gkey) sc (scopeCores s u.gkey sc)).1) (by rw [hr])
    refine ⟨_, r, (exec_asks_release ha hi hdet).trans ?_, ?_, hcore, hother, hfields⟩
    · rw [hr]
    · rw [hr]; rfl
  · obtain ⟨hframe, hid, hrels⟩ := releaseAsk_shares (sc := sc) (cs := scopeCores s u.gkey sc) hsome
    exact ⟨_, (exec_asks_release ha hi hdet).trans (by rw [hid]), hframe, hrels⟩
  · obtain ⟨hcore, hother⟩ := getCore_taken (s := s)
      (t := acquireTake { s with uid := s.uid + 1 } s.uid (coreOf s u.gkey) none) (c := coreOf s u.gkey) rfl
    exact ⟨_, exec_phacq_takes ha hdet, rfl, hcore, hother⟩
  · obtain ⟨hex, hi⟩ := exec_phase_det ha hi hdet
    obtain ⟨hrels, hacqs⟩ := causedIn_phases (k := cDET) ha.2 hi (by decide) hh hin
    obtain ⟨hcause, hlanes⟩ := causedIn_handler_finds (k := cDET) ha.2 hi (by decide) hh hin
    exact ⟨_, hex, hrels, hacqs, hcause, fun l hl => ⟨(hlanes l hl).1, (hlanes l hl).2.1⟩⟩
  · intro r sc hg hid hc hcyc hscope hsc hw hone hsync
    exact ⟨_, exec_releaseComplete_ends ho hg hid hc hcyc hscope hsc hw hone hsync,
      releaseComplete_leaves hid (by simpa using List.find?_some hc) (hscope ▸ hsc)⟩
  · intro a f z w hg hacq hz hw hone
    exact ⟨_, exec_acquireComplete_ends ho hg hacq hz hw hone, acquireComplete_leaves s k c o f a⟩
  · rw [exec_releaseComplete, execReleaseComplete, hr]
    simp only [decide_eq_true hcyc, Bool.true_or, if_true]
  · rw [exec_acquireComplete, execAcquireComplete, ha]
    simp only [decide_eq_true hcyc, Bool.true_or, if_true]

end Sys2Proof.Machine
end

section
/-! SUPPORT. Barrier objects as engines change them (R375, R377), the walk of a job card (R350 to R355), declarations of convergence registers
(R329, R348), and the statement DeclarationsAndJobs. -/

namespace Sys2Proof.Machine

/-! ## The word of a barrier object -/

/-- A number is read back from its low bytes. -/
theorem leNat_range (n x : Nat) : leNat ((List.range n).map fun i => BitVec.ofNat 8 (x / 2 ^ (8 * i))) = x % 2 ^ (8 * n) := by
  induction n generalizing x with
  | zero => simp [leNat, Nat.mod_one]
  | succ n ih =>
    have htail : (List.range n).map ((fun i => BitVec.ofNat 8 (x / 2 ^ (8 * i))) ∘ Nat.succ) =
        (List.range n).map fun i => BitVec.ofNat 8 (x / 256 / 2 ^ (8 * i)) := List.map_congr_left fun i _ => by
      have hpow : 2 ^ (8 * (i + 1)) = 256 * 2 ^ (8 * i) := by rw [Nat.mul_add, Nat.pow_add, Nat.mul_comm]
      simp only [Function.comp, Nat.succ_eq_add_one, hpow, Nat.div_div_eq_div_mul]
    have hpow : 2 ^ (8 * (n + 1)) = 256 * 2 ^ (8 * n) := by rw [Nat.mul_add, Nat.pow_add, Nat.mul_comm]
    rw [List.range_succ_eq_map, List.map_cons, List.map_map, leNat, htail, ih, hpow, Nat.mod_mul, BitVec.toNat_ofNat]
    simp

section
variable {s : State} {p : Nat × Nat}

/-- An object's team is there, so that its scratchpad can be written. -/
theorem scrByte_scrPut {t o c : Nat} (b : Byte) (ht : (tabFind s.teams t).isSome) :
    scrByte (scrPut s t o b) t c = (if c = o then b else scrByte s t c) ∧ (tabFind (scrPut s t o b).teams t).isSome := by
  obtain ⟨x, hx⟩ := Option.isSome_iff_exists.1 ht
  have hfind : tabFind (scrPut s t o b).teams t = some { x with scr := memWrite x.scr o b, tags := tabErase x.tags (o / 1024) } := by
    rw [scrPut, hx]
    exact tabFind_tabPut_same _ _ _
  refine ⟨?_, by rw [hfind]; rfl⟩
  rw [scrByte, scrByte, hfind, hx]
  by_cases hc : c = o
  · rw [if_pos hc, hc]; exact memRead_memWrite_same _ _ _
  · rw [if_neg hc]; exact memRead_memWrite_other _ _ _ _ hc

/-- The first `n` bytes of a word, put into a scratchpad. -/
def wordPut (s : State) (p : Nat × Nat) (x n : Nat) : State :=
  (List.range n).foldl (fun s i => scrPut s p.1 (p.2 + i) (BitVec.ofNat 8 (x / 2 ^ (8 * i)))) s

theorem scrByte_wordPut (x : Nat) {n i : Nat} (ht : (tabFind s.teams p.1).isSome) :
    (i < n → scrByte (wordPut s p x n) p.1 (p.2 + i) = BitVec.ofNat 8 (x / 2 ^ (8 * i))) ∧ (tabFind (wordPut s p x n).teams p.1).isSome := by
  induction n with
  | zero => exact ⟨fun h => absurd h (Nat.not_lt_zero _), ht⟩
  | succ n ih =>
    have hstep : wordPut s p x (n + 1) = scrPut (wordPut s p x n) p.1 (p.2 + n) (BitVec.ofNat 8 (x / 2 ^ (8 * n))) := by
      simp only [wordPut, List.range_succ, List.foldl_append, List.foldl_cons, List.foldl_nil]
    obtain ⟨hbyte, hteam⟩ := scrByte_scrPut (s := wordPut s p x n) (o := p.2 + n) (c := p.2 + i) (BitVec.ofNat 8 (x / 2 ^ (8 * n))) ih.2
    rw [hstep]
    refine ⟨fun hi => ?_, hteam⟩
    rw [hbyte]
    by_cases hin : i = n
    · rw [if_pos (by rw [hin]), hin]
    · rw [if_neg (by omega), ih.1 (by omega)]

theorem testWaits_frame (s : State) (ls : List Loc) : testWaits s ls = { s with groups := (testWaits s ls).groups } := by
  unfold testWaits
  split <;> rfl

theorem wordPut_frame (s : State) (p : Nat × Nat) (x n : Nat) : wordPut s p x n = { s with teams := (wordPut s p x n).teams } :=
  foldl_rel (fr := fun a b => b = { a with teams := b.teams }) (fun _ => rfl) (fun h k => k.trans (by rw [h]))
    (fun z i => by unfold scrPut; split <;> rfl) _ s

theorem scrByte_testWaits (s : State) (ls : List Loc) (t o : Nat) : scrByte (testWaits s ls) t o = scrByte s t o := by
  rw [testWaits_frame]
  rfl

theorem objWrite_eq (s : State) (p : Nat × Nat) (x : Nat) : objWrite s p x = testWaits (wordPut s p x 8) [.scr p.1 p.2] := rfl

/-- Writing an object's word changes a scratchpad and the items that wait for it. -/
theorem objWrite_frame (s : State) (p : Nat × Nat) (x : Nat) :
    objWrite s p x = { s with teams := (objWrite s p x).teams, groups := (objWrite s p x).groups } := by
  rw [objWrite_eq, testWaits_frame, wordPut_frame]

theorem objWrite_keeps (s : State) (p : Nat × Nat) (x : Nat) : (objWrite s p x).mats = s.mats ∧ (objWrite s p x).mem = s.mem := by
  rw [objWrite_frame]
  exact ⟨rfl, rfl⟩

/-- An object's word reads as what was written. -/
theorem objRead_objWrite {x : Nat} (ht : (tabFind s.teams p.1).isSome) (hx : x < 2 ^ 64) : objRead (objWrite s p x) p = x := by
  have hbytes : (List.range 8).map (fun i => scrByte (objWrite s p x) p.1 (p.2 + i)) =
      (List.range 8).map fun i => BitVec.ofNat 8 (x / 2 ^ (8 * i)) := List.map_congr_left fun i hi => by
    rw [objWrite_eq, scrByte_testWaits]
    exact (scrByte_wordPut x ht).1 (List.mem_range.1 hi)
  rw [objRead, hbytes, leNat_range]
  exact Nat.mod_eq_of_lt hx

theorem objWord_lt (gen count arr : Nat) : objWord gen count arr < 2 ^ 64 := by
  simp only [objWord]
  omega

/-- An arrival of an engine is a word of the object. -/
theorem objArrive_one_lt (x : Nat) : objArrive x 1 < 2 ^ 64 := by
  simp only [objArrive, Nat.one_ne_zero, if_false]
  split <;> exact objWord_lt _ _ _

end

/-! ## Matrix operations in the list -/

section
variable {s : State} {m n : MatOp} {id : Nat}

theorem findMat_id (h : findMat s id = some m) : m.id = id := by simpa using List.find?_some h

/-- An operation that is put back stands where it stood. -/
theorem findMat_putMat (h : findMat s id = some m) (hn : n.id = id) : findMat (putMat s n) id = some n := by
  have hsame : ((fun x : MatOp => x.id == id) ∘ fun x : MatOp => if x.id == n.id then n else x) = fun x => x.id == id := by
    funext x
    simp only [Function.comp, hn]
    split
    · next hx => simp [hn, hx]
    · rfl
  have hfind : s.mats.find? (fun x => x.id == id) = some m := h
  rw [findMat, putMat, List.find?_map, hsame, hfind, Option.map_some, if_pos (beq_iff_eq.2 ((findMat_id h).trans hn.symm))]

theorem findMat_of_filtered {t : State} (h : t.mats = s.mats.filter fun x => x.id != id) : findMat t id = none := by
  rw [findMat, h]
  simp [List.find?_eq_none]

end

/-! ## The walk of a card, R353 to R355 -/

section
variable {s : State} {id : Nat} {m : MatOp} {sg : Signer} {card : List Byte}

/-- What a job's operation needs to begin: its coordinates, accumulator and maps in range (R353, R354). -/
def JobFits (s : State) (m : MatOp) (sg : Signer) (card : List Byte) : Prop :=
  let p := jobAt card m.idx
  let d := p.2.2.2 - (cardBits card 13 8 : Int)
  (0 ≤ p.1 ∧ p.1 ≤ 4095) ∧ (0 ≤ p.2.1 ∧ p.2.1 ≤ 4095) ∧ (0 ≤ p.2.2.1 ∧ p.2.2.1 ≤ 4095) ∧
    (0 ≤ (sg.acc : Int) + d ∧ (sg.acc : Int) + d < ((launchOf s sg.gkey).accs : Int)) ∧ mmaValid m.ta m.tb m.flt p.2.2.1 m.klen = true

/-- A job's operation as it begins. -/
def jobBegun (m : MatOp) (card : List Byte) : MatOp :=
  let p := jobAt card m.idx
  let d := p.2.2.2 - (cardBits card 13 8 : Int)
  { m with arow := p.1, brow := p.2.1, koff := p.2.2.1, k := 0, started := true,
           zeroed := if m.zeroed.contains d then m.zeroed else m.zeroed ++ [d] }

theorem jobBegun_id : (jobBegun m card).id = m.id := rfl

/-- The accumulator of a job's operation is told to be zeroed, and has not been written yet. -/
def zeroesFirst (m : MatOp) (card : List Byte) : Bool :=
  decide (cardBits card 96 96 = 1) && !m.zeroed.contains ((jobAt card m.idx).2.2.2 - (cardBits card 13 8 : Int))

theorem zeroesFirst_of (hone : cardBits card 96 96 = 1) (hnew : (jobAt card m.idx).2.2.2 - (cardBits card 13 8 : Int) ∉ m.zeroed) :
    zeroesFirst m card = true := by simp [zeroesFirst, hone, hnew]

theorem zeroesFirst_true (hz : zeroesFirst m card = true) :
    cardBits card 96 96 ≠ 0 ∧ ¬ (jobAt card m.idx).2.2.2 - (cardBits card 13 8 : Int) ∈ m.zeroed := by
  simp only [zeroesFirst, Bool.and_eq_true, decide_eq_true_eq, Bool.not_eq_true', List.contains_eq_mem, decide_eq_false_iff_not] at hz
  obtain ⟨hone, hnew⟩ := hz
  exact ⟨by rw [hone]; decide, hnew⟩

/-- A job's operation of one signer begins, on a zeroed accumulator where it is told to. -/
theorem jobStart_begins (hsg : m.signers = [sg]) (hfit : JobFits s m sg card) :
    (zeroesFirst m card = true → jobStart s m card =
      putMat (updGroup s sg.gkey fun g => putTile g (curAcc m sg) (List.replicate 256 0)) (jobBegun m card)) ∧
    (zeroesFirst m card = false → jobStart s m card = putMat s (jobBegun m card)) := by
  obtain ⟨⟨h1, h1'⟩, ⟨h2, h2'⟩, ⟨h3, h3'⟩, ⟨h4, h4'⟩, hvalid⟩ := hfit
  have hacc : (m.signers.all fun sg => decide (0 ≤ (sg.acc : Int) + ((jobAt card m.idx).2.2.2 - (cardBits card 13 8 : Int))) &&
      decide ((sg.acc : Int) + ((jobAt card m.idx).2.2.2 - (cardBits card 13 8 : Int)) < ((launchOf s sg.gkey).accs : Int))) = true := by
    simp [hsg, h4, h4']
  have hzero : m.signers.foldl (fun s sg => updGroup s sg.gkey fun g => putTile g (curAcc m sg) (List.replicate 256 0)) s =
      updGroup s sg.gkey fun g => putTile g (curAcc m sg) (List.replicate 256 0) := by rw [hsg, List.foldl_cons, List.foldl_nil]
  have hstart : jobStart s m card = putMat (if zeroesFirst m card then
      m.signers.foldl (fun s sg => updGroup s sg.gkey fun g => putTile g (curAcc m sg) (List.replicate 256 0)) s else s) (jobBegun m card) := by
    simp only [jobStart, hacc, h1, h1', h2, h2', h3, h3', hvalid, decide_true, Bool.and_self, Bool.not_true, Bool.false_eq_true, if_false,
      zeroesFirst, jobBegun, Bool.not_eq_true', Bool.and_eq_true, decide_eq_true_eq]
  rw [hstart, hzero]
  exact ⟨fun hz => by rw [if_pos hz], fun hz => by rw [hz, if_neg Bool.false_ne_true]⟩

theorem curAcc_job (hjob : m.job = some card) :
    curAcc m sg = ((sg.acc : Int) + ((jobAt card m.idx).2.2.2 - (cardBits card 13 8 : Int))).toNat := by
  simp only [curAcc, hjob, Int.add_sub_assoc]

theorem exec_jobOperation_begins (hm : findMat s id = some m) (hjob : m.job = some card) (hstart : m.started = false)
    (hidx : m.idx < jobTotal card) (hbehind : behind s m = false) (hres : (getTeam s m.team).place = .resident) :
    exec (.jobOperation id) s = .next (jobStart s m card) := by
  rw [exec_jobOperation, execJobOperation, hm]
  simp only [hjob, hstart, hidx, hbehind, hres, decide_true, Bool.not_false, Bool.and_self, beq_self_eq_true, if_true]

/-- A walk that has ended arrives at its one signer's object (R355). -/
theorem exec_jobWalkEnd_arrives {p : Nat × Nat} (hm : findMat s id = some m) (hsg : m.signers = [sg]) (hjob : m.job = some card)
    (hstart : m.started = false) (hidx : jobTotal card ≤ m.idx) (hp : objPlace s sg.gkey sg.bo = some p) (hturn : engineTurn s p = true) :
    exec (.jobWalkEnd id) s = .next (engineArrive { s with mats := s.mats.filter fun x => x.id != id } p) := by
  have hplace : objPlace { s with mats := s.mats.filter fun x => x.id != id } sg.gkey sg.bo = some p := hp
  rw [exec_jobWalkEnd, execJobWalkEnd, hm]
  simp only [hjob, hstart, hidx, hsg, List.all_cons, List.all_nil, boTurn, hp, hturn, decide_true, Bool.not_false, Bool.and_self, if_true,
    List.foldl_cons, List.foldl_nil, hplace]

end

/-! ## CDECL, R348 -/

section
variable {s : State} {u : Issue} {h : Hdr} {i : Instr}

/-- CDECL declares a register that no group has signed (R329, R348). -/
theorem exec_cdecl_declares {kd : BitVec 3} {grp slices : Spec} {gv sv : Nat} (hi : i = .cdecl h kd grp slices) (ha : ActsOnce s u i)
    (hg : uniVal s u i .n32 grp = some gv) (hs : uniVal s u i .n32 slices = some sv) (hsl : sv % 16 = 0 ∨ sv % 16 = 15)
    (hfree : (getConv s (getGroup s u.gkey).team (coreOf s u.gkey) kd.toNat).signed = 0) :
    exec i s = .next (passedIn (setConv s (getGroup s u.gkey).team (coreOf s u.gkey) kd.toNat
        { getConv s (getGroup s u.gkey).team (coreOf s u.gkey) kd.toNat with
          slices := BitVec.ofNat 4 sv, decl := decide (sv % 16 = 15), grp := BitVec.ofNat 32 gv &&& 0x7F7F7F7F#32 }) s u i
      (queued s u i (.result [] []) [])) := by
  have hval : ∀ n : Nat, n < 16 → (BitVec.ofNat 4 sv = BitVec.ofNat 4 n ↔ sv % 16 = n) := fun n hn => by
    rw [← BitVec.toNat_inj, BitVec.toNat_ofNat, BitVec.toNat_ofNat, Nat.mod_eq_of_lt (show n < 2 ^ 4 from hn)]
  have hslices : ¬ (BitVec.ofNat 4 sv ≠ 0 ∧ BitVec.ofNat 4 sv ≠ 0xF) := fun ⟨hz, hf⟩ =>
    hsl.elim (fun h => hz ((hval 0 (by decide)).2 h)) (fun h => hf ((hval 15 (by decide)).2 h))
  have hdecl : decide (BitVec.ofNat 4 sv = 0xF) = decide (sv % 16 = 15) := decide_eq_decide.2 (hval 15 (by decide))
  have hfree' : (getConv s (ctxOf s u i).g.team (ctxOf s u i).core kd.toNat).signed = 0 := hfree
  subst hi
  rw [exec_cdecl, execCdecl, onceWord_acts _ ha.1 ha.2]
  dsimp only
  rw [readUni_of_opVal hs, readUni_of_opVal hg, if_neg hslices, hdecl, if_pos hfree', hfree]
  exact congrArg Host.Outcome.next (closeWord_setGroup (setConv s _ _ _ _) _)

/-! ## JOB, R350 -/

/-- A word that signs is held until the joint issue (R330). -/
theorem signWord_holds (z : State) (k acc shape : Nat) (flt : Bool) (a b : TileReg) (org : DWord) (klen : Nat) (job : Option (List Byte × DWord)) :
    signWord i (ctxOf s u i) z k acc shape flt a b org klen job = holdsAt s { z with uid := z.uid + 1, signs := z.signs ++
      [⟨z.uid, u.gkey, coreOf s u.gkey, k, (ctxOf s u i).active, sliceOf (getGroup s u.gkey), acc, shape, flt, a, b, org, klen, (ctxOf s u i).next,
        u.pc, job, (getGroup s u.gkey).nextSeq, false⟩] } u i (.fuse z.uid) := closeWord_holdsAt _ (.fuse z.uid)

/-- The command that a JOB hands over while its card cannot be read. -/
def cardCmd (s : State) (u : Issue) (i : Instr) (z : State) (a o : DWord) : Cmd :=
  ⟨z.uid, (getGroup s u.gkey).team, u.gkey, coreOf s u.gkey, (getGroup s u.gkey).nextSeq, (ctxOf s u i).active, u.pc, 0, 0, 0, 0, .job a o none,
    false, [], 0, (List.range 16).map fun t => tGet (getGroup s u.gkey) t, none⟩

theorem holdCard_holds {z : State} (a o : DWord) (hrun : (teamOf z u.gkey).frozen = false) : holdCard i (ctxOf s u i) z a o =
    holdsAt s { z with uid := z.uid + 1, cmds := z.cmds ++ [cardCmd s u i z a o] } u i (.card z.uid) := by
  have hrun' : (teamOf z (ctxOf s u i).gk).frozen = false := hrun
  rw [holdCard]
  dsimp only
  rw [hrun', if_neg Bool.false_ne_true]
  exact closeWord_holdsAt _ (.card z.uid)

/-- A quad JOB begins its walk (R334, R350). -/
theorem readCard_quad {z : State} (o : DWord) {bs : List Byte} (hquad : cardBits bs 15 14 = 0) (hrun : (teamOf z u.gkey).frozen = false) :
    readCard i (ctxOf s u i) z o bs = acceptJob (passedIn { z with uid := z.uid + 1 } s u i (getGroup z u.gkey))
      (jobOp z.uid (getGroup s u.gkey).team (coreOf s u.gkey) u.pc bs (tGet (getGroup s u.gkey) (cardBits bs 3 0))
        (tGet (getGroup s u.gkey) (cardBits bs 7 4)) [⟨u.gkey, (ctxOf s u i).active, 0, cardBits bs 13 8, (getGroup s u.gkey).nextSeq, o, u.pc⟩]) bs := by
  have hrun' : (teamOf z (ctxOf s u i).gk).frozen = false := hrun
  rw [readCard, if_pos hquad]
  dsimp only
  rw [hrun', if_neg Bool.false_ne_true, closeWord_passedIn]
  rfl

theorem acceptJob_accepts {z : State} {m : MatOp} {card : List Byte} (hok : cardOk card = true) :
    acceptJob z m card = { z with mats := z.mats ++ [m] } := if_pos hok

/-- A JOB whose operands are in order reads its card (R350). -/
theorem exec_job_reads {card bo : Spec} {cv bv : Nat} (hi : i = .job h card bo) (ha : ActsOnce s u i) (hc : uniVal s u i .n64 card = some cv)
    (hb : uniVal s u i .n64 bo = some bv) (hlt : cv < 2 ^ 64) (hal : cv % 64 = 0) (hbad : engineBad s u.gkey (BitVec.ofNat 64 cv) 64 = none)
    (hp : (objPlace s u.gkey (BitVec.ofNat 64 bv)).isSome) {z : State} {r : Except Stop (List Byte)}
    (hf : fetchBytes (flushGroup s u.gkey) u.gkey ((lanesOf (ctxOf s u i).active).headD 0) (coreOf s u.gkey) none
      (rangeAddrs (BitVec.ofNat 64 cv) 64) = (z, r)) :
    exec i s = .next (match r with
      | .ok bs => readCard i (ctxOf s u i) z (BitVec.ofNat 64 bv) bs
      | .error _ => holdCard i (ctxOf s u i) z (BitVec.ofNat 64 cv) (BitVec.ofNat 64 bv)) := by
  have hal' : ¬ (BitVec.ofNat 64 cv).toNat % 64 ≠ 0 := by rw [BitVec.toNat_ofNat, Nat.mod_eq_of_lt hlt, hal]; simp
  have hbad' : engineBad s (ctxOf s u i).gk (BitVec.ofNat 64 cv) 64 = none := hbad
  have hp' : ¬ (objPlace s (ctxOf s u i).gk (BitVec.ofNat 64 bv)).isNone = true := by
    rw [Option.isNone_iff_eq_none, ← Option.not_isSome_iff_eq_none, not_not]; exact hp
  have hf' : fetchBytes (flushGroup s (ctxOf s u i).gk) (ctxOf s u i).gk ((lanesOf (ctxOf s u i).active).headD 0) (ctxOf s u i).core none
      (rangeAddrs (BitVec.ofNat 64 cv) 64) = (z, r) := hf
  subst hi
  rw [exec_job, execJob, onceWord_acts _ ha.1 ha.2]
  dsimp only
  rw [readUni_of_opVal hc, readUni_of_opVal hb, if_neg hal', hbad']
  dsimp only
  rw [if_neg hp', hf']
  cases r <;> rfl

end

/-- Settles O44: a walk's operation begins and its end arrives at an object that no group's operation has changed; CDECL sets a register's fields;
JOB reads its card or waits for it. -/
theorem declarationsAndJobs : Obligations.DeclarationsAndJobs := by
  refine ⟨fun s id m sg card hm hsg hjob hstart => ⟨fun hidx hbehind hres => ?_, fun p hidx hp hteam hturn => ?_⟩,
    fun s u h => ⟨fun i kd grp slices gv sv => exec_cdecl_declares, fun i card bo cv bv bs z hi ha hc hb hlt hal hbad hp =>
      ⟨fun e hf hrun => ?_, fun hf => ⟨fun hquad hrun => ?_, fun hfused => ?_⟩⟩⟩⟩
  · intro p d h1 h1' h2 h2' h3 h3' h4 h4' hvalid
    obtain ⟨hfresh, hold⟩ := jobStart_begins (s := s) (card := card) hsg ⟨⟨h1, h1'⟩, ⟨h2, h2'⟩, ⟨h3, h3'⟩, ⟨h4, h4'⟩, hvalid⟩
    have hn : (jobBegun m card).id = id := jobBegun_id.trans (findMat_id hm)
    have hex := exec_jobOperation_begins hm hjob hstart hidx hbehind hres
    cases hz : zeroesFirst m card with
    | true =>
      refine ⟨_, jobBegun m card, hex.trans (congrArg Host.Outcome.next (hfresh hz)), findMat_putMat hm hn, rfl, rfl, rfl, rfl, rfl,
        fun _ _ e he => ?_, fun hnot => absurd hnot (not_or.2 (zeroesFirst_true hz))⟩
      have hgroup : getGroup (putMat (updGroup s sg.gkey fun g => putTile g (curAcc m sg) (List.replicate 256 0)) (jobBegun m card)) sg.gkey =
          putTile (getGroup s sg.gkey) (curAcc m sg) (List.replicate 256 0) := getGroup_setGroup_same _ _ _
      rw [hgroup, curAcc_job hjob, aGet_putTile_zero _ _ he]
    | false =>
      refine ⟨_, jobBegun m card, hex.trans (congrArg Host.Outcome.next (hold hz)), findMat_putMat hm hn, rfl, rfl, rfl, rfl, rfl,
        fun hone hnew => absurd hz (Bool.not_eq_false _ ▸ zeroesFirst_of hone hnew), fun _ => rfl⟩
  · obtain ⟨hmats, hmem⟩ := objWrite_keeps { s with mats := s.mats.filter fun x => x.id != id } p (objArrive (objRead s p) 1)
    refine ⟨_, exec_jobWalkEnd_arrives hm hsg hjob hstart hidx hp hturn, ?_, objRead_objWrite hteam (objArrive_one_lt _), hmem⟩
    exact findMat_of_filtered hmats
  · exact ⟨_, (exec_job_reads hi ha hc hb hlt hal hbad hp hf).trans (congrArg Host.Outcome.next (holdCard_holds _ _ hrun)), rfl, rfl, rfl, rfl, rfl⟩
  · have hex := (exec_job_reads hi ha hc hb hlt hal hbad hp hf).trans (congrArg Host.Outcome.next (readCard_quad _ hquad hrun))
    exact ⟨hex, fun hok => ⟨_, _, hex.trans (congrArg Host.Outcome.next (acceptJob_accepts hok)), rfl, rfl, rfl, rfl⟩⟩
  · have hex := (exec_job_reads hi ha hc hb hlt hal hbad hp hf).trans
      (congrArg Host.Outcome.next ((if_neg hfused).trans (signWord_holds _ _ _ _ _ _ _ _ _ _)))
    exact ⟨_, hex, rfl, rfl, rfl, rfl, rfl, rfl⟩

end Sys2Proof.Machine
end

section
/-! SUPPORT. Words of the matrix engine (R330, R345 to R349) and the last step of an operation (R321, R346); the statement MatrixWords. -/

namespace Sys2Proof.Machine

/-! ## The last step of an operation -/

section
variable {s z : State} {id : Nat} {m n : MatOp} {sg : Signer} {xs : List DWord}

theorem curAcc_noJob (hjob : m.job = none) : curAcc m sg = sg.acc := by simp only [curAcc, hjob]

/-- The results of a unit of an operation with one signer. -/
theorem unitAll_one {k0 k1 : Nat} (hsg : m.signers = [sg]) (hjob : m.job = none) (hunit : unitResult s m sg k0 k1 = (z, n, .ok xs)) :
    unitAll s m k0 k1 = (z, n, [(sg, xs)], []) := by
  have hown : ({ sg with acc := curAcc m sg } : Signer) = sg := by rw [curAcc_noJob hjob]
  rw [unitAll, hsg, List.foldl_cons, List.foldl_nil]
  dsimp only
  rw [hown, hunit]
  rfl

/-- The state after the last step of an operation with one signer: its accumulator written, its item and the operation gone. -/
def mmaEnded (z : State) (n : MatOp) (sg : Signer) (xs : List DWord) : State :=
  updGroup { updGroup (countEv z n.core 0x06 1) sg.gkey (fun g => putTile g sg.acc xs) with mats := z.mats.filter fun x => x.id != n.id }
    sg.gkey fun g => retire g sg.seq

theorem getGroup_withMats (t : State) (l : List MatOp) (k : Nat) : getGroup { t with mats := l } k = getGroup t k := rfl

theorem matStepDone_last {unit k1 : Nat} (hsg : n.signers = [sg]) (hjob : n.job = none) (hlast : n.klen ≤ n.k + unit) :
    matStepDone z n [(sg, xs)] unit k1 = mmaEnded z n sg xs := by
  have hmats : (countEv z n.core 0x06 1).mats = z.mats := by rw [countEv_frame]
  rw [matStepDone, mmaEnded, ← hmats]
  dsimp only
  rw [if_neg (Nat.not_lt.2 hlast), hjob, hsg, List.foldl_cons, List.foldl_nil, List.foldl_cons, List.foldl_nil, curAcc_noJob hjob]
  rfl

/-- An operation's last step is taken at once when no store is half applied and its lines can be pinned (R287, R321, R323). -/
theorem exec_mmaStep_ends (hm : findMat s id = some m) (hsg : m.signers = [sg]) (hmay : mayStep s m = true) (hjob : m.job = none)
    (hmixed : mixed (flushGroup s sg.gkey) sg.gkey (newChunks m (unitRange m).1 (unitRange m).2) = false)
    (hunit : unitResult (flushGroup s sg.gkey) m sg (unitRange m).1 (unitRange m).2 = (z, n, .ok xs))
    (hn : n.signers = [sg] ∧ n.job = none ∧ n.klen ≤ n.k + unitOf m.ta m.tb) (hpin : (pinned (putMat z n) m.core).length ≤ 1024) :
    exec (.mmaStep id) s = .next (mmaEnded z n sg xs) := by
  obtain ⟨hnsg, hnjob, hnlast⟩ := hn
  have hflush : m.signers.foldl (fun s sg => flushGroup s sg.gkey) s = flushGroup s sg.gkey := by rw [hsg, List.foldl_cons, List.foldl_nil]
  have hany : (m.signers.any fun x => mixed (flushGroup s sg.gkey) x.gkey (newChunks m (unitRange m).1 (unitRange m).2)) = false := by
    rw [hsg, List.any_cons, List.any_nil, hmixed]
    rfl
  rw [exec_mmaStep, execMmaStep, hm]
  dsimp only
  rw [if_pos hmay, matStep, hflush]
  dsimp only
  rw [hany, if_neg Bool.false_ne_true, unitAll_one hsg hjob hunit]
  dsimp only
  rw [if_neg (Nat.not_lt.2 hpin), matStepDone_last hnsg hnjob hnlast]

theorem aGet_retire (g : Group) (k a e : Nat) : aGet (retire g k) a e = aGet g a e := rfl

/-- What the last step leaves: its accumulator holds the results, no other changes, and neither item nor operation is left. -/
theorem mmaEnded_leaves (hid : n.id = id) :
    findMat (mmaEnded z n sg xs) id = none ∧
    (∀ e, e < 256 → aGet (getGroup (mmaEnded z n sg xs) sg.gkey) sg.acc e = xs.getD e 0) ∧
    (∀ a e, e < 256 → a ≠ sg.acc → aGet (getGroup (mmaEnded z n sg xs) sg.gkey) a e = aGet (getGroup z sg.gkey) a e) ∧
    ∀ o, o ∈ (getGroup (mmaEnded z n sg xs) sg.gkey).outs → o.seq ≠ sg.seq := by
  have hcount : getGroup (countEv z n.core 0x06 1) sg.gkey = getGroup z sg.gkey := by rw [countEv_frame]; rfl
  have hgroup : getGroup (mmaEnded z n sg xs) sg.gkey = retire (putTile (getGroup z sg.gkey) sg.acc xs) sg.seq := by
    rw [mmaEnded, updGroup_eq, getGroup_setGroup_same, getGroup_withMats, updGroup_eq, getGroup_setGroup_same, hcount]
  rw [hgroup]
  refine ⟨findMat_of_filtered (s := z) (by rw [← hid]; rfl), fun e he => ?_, fun a e he hne => ?_, fun o ho => ?_⟩
  · rw [aGet_retire, aGet_putTile _ _ _ he, if_pos rfl]
  · rw [aGet_retire, aGet_putTile _ _ _ he, if_neg hne]
  · simpa using (List.mem_filter.1 ho).2

end

/-! ## MMA words -/

section
variable {s : State} {u : Issue} {h : Hdr} {i : Instr} {flt : Bool} {ad : BitVec 6} {ta tb : BitVec 4} {kc : BitVec 3} {org : Spec}
  {klen : BitVec 13} {x : Nat}

/-- A quad MMA starts its operation with what it has read (R345). -/
theorem exec_mmaQuad_starts {z : State} {o : DWord} (hi : i = .mmaQuad h flt ad ta tb org klen) (ha : ActsOnce s u i)
    (hx : uniVal s u i .i64 org = some x) (ho : o = BitVec.ofNat 64 x) (hacc : ad.toNat < (launchOf s u.gkey).accs)
    (hvalid : mmaValid (tGet (getGroup s u.gkey) ta.toNat) (tGet (getGroup s u.gkey) tb.toNat) flt ((o.extractLsb' 32 13).toNat : Int)
      klen.toNat = true) (hz : z = flushGroup s u.gkey) :
    exec i s = .next (startMma (passedIn { z with uid := z.uid + 1 } s u i
        (pushOut (getGroup z u.gkey) u.pc (ctxOf s u i).next (ctxOf s u i).active (.mma z.uid) []))
      ⟨z.uid, (getGroup s u.gkey).team, coreOf s u.gkey, u.pc, 0, flt, tGet (getGroup s u.gkey) ta.toNat, tGet (getGroup s u.gkey) tb.toNat,
        ((o.extractLsb' 0 13).toNat : Int), ((o.extractLsb' 16 13).toNat : Int), ((o.extractLsb' 32 13).toNat : Int), klen.toNat, 0,
        [⟨u.gkey, (ctxOf s u i).active, 0, ad.toNat, (getGroup s u.gkey).nextSeq, 0, u.pc⟩], none, 0, [], false, 0, false, [], []⟩) := by
  have hok : (decide ((ctxOf s u i).l.accs ≤ ad.toNat) || !mmaValid (tGet (ctxOf s u i).g ta.toNat) (tGet (ctxOf s u i).g tb.toNat) flt
      (orgK o) klen.toNat) = false :=
    Bool.or_eq_false_iff.2 ⟨decide_eq_false (Nat.not_le.2 hacc), (congrArg (!·) hvalid).trans rfl⟩
  have hz' : flushGroup s (ctxOf s u i).gk = z := hz.symm
  subst hi
  rw [exec_mmaQuad, execMmaQuad, onceWord_acts _ ha.1 ha.2]
  dsimp only
  rw [readUni_of_opVal hx, ← ho, hok, if_neg Bool.false_ne_true, hz']
  exact congrArg (fun t => Host.Outcome.next (startMma t _)) (closeWord_setGroup { z with uid := z.uid + 1 } _)

/-- An operation whose operands lie in windows enters the array as it is (R347). -/
theorem startMma_windows {t : State} {m : MatOp} {sg : Signer} (hsg : m.signers = [sg]) (ha : isGlobal m.ta.base = false)
    (hb : isGlobal m.tb.base = false) : startMma t m = { t with mats := t.mats ++ [m] } := by
  have hpages : partPages m sg = [] := by simp [partPages, ha, hb]
  have hstops : partStops t m sg = (t, []) := by rw [partStops, hpages]; rfl
  rw [startMma, hsg, List.foldl_cons, List.foldl_nil]
  dsimp only
  rw [hstops]
  rfl

/-- A fused MMA signs and is held (R330, R349). -/
theorem exec_fused_holds {n : Nat} (hi : (i = .mmaWide h flt ad ta tb kc org klen ∧ n = 1) ∨ (i = .mmaSquare h flt ad ta tb kc org klen ∧ n = 2) ∨
    (i = .mmaTall h flt ad ta tb kc org klen ∧ n = 3)) (ha : ActsOnce s u i) (hx : uniVal s u i .i64 org = some x) :
    exec i s = .next (holdsAt s { s with uid := s.uid + 1, signs := s.signs ++ [⟨s.uid, u.gkey, coreOf s u.gkey, kc.toNat, (ctxOf s u i).active,
        sliceOf (getGroup s u.gkey), ad.toNat, n, flt, tGet (getGroup s u.gkey) ta.toNat, tGet (getGroup s u.gkey) tb.toNat, BitVec.ofNat 64 x,
        klen.toNat, (ctxOf s u i).next, u.pc, none, (getGroup s u.gkey).nextSeq, false⟩] } u i (.fuse s.uid)) := by
  have hfused : exec i s = .next (fusedWord i n flt ad ta tb kc org klen (ctxOf s u i) s) := by
    rcases hi with ⟨rfl, rfl⟩ | ⟨rfl, rfl⟩ | ⟨rfl, rfl⟩ <;> exact exec_once ha rfl
  rw [hfused, fusedWord, readUni_of_opVal hx, signWord_holds]
  rfl

end

/-- Settles O43: the last step of an operation of one signer writes its tile and ends it; a quad MMA starts an operation, a fused one signs. -/
theorem matrixWords : Obligations.MatrixWords := by
  refine ⟨fun s id m sg z xs ch tg hm hsg hmay hjob hlast hmixed hunit hpin => ?_, fun s u h flt ad ta tb kc org klen x =>
    ⟨fun i z hi ha hx hacc hvalid hz => ?_, fun i n hi ha hx => exec_fused_holds hi ha hx⟩⟩
  · have hid : ({ m with chunks := ch, tags := tg } : MatOp).id = id := findMat_id (m := m) hm
    exact ⟨_, exec_mmaStep_ends (n := { m with chunks := ch, tags := tg }) hm hsg hmay hjob hmixed hunit ⟨hsg, hjob, hlast⟩ hpin,
      mmaEnded_leaves hid⟩
  · exact ⟨_, _, exec_mmaQuad_starts hi ha hx rfl hacc hvalid hz, rfl, rfl, fun hga hgb => startMma_windows rfl hga hgb⟩

end Sys2Proof.Machine
end

section
/-! SUPPORT. Replies to held sub-groups and record heads (R404): what a reply leaves of its group and its grid, and a record that waited for a
free slot. -/

namespace Sys2Proof.Machine

/-! ## Replies to held sub-groups -/

section
variable {s : State} {k f func : Nat} {v : Word} {h : Held} {a : DWord}

/-- Without causes that wait, lanes that go on raise none. -/
theorem dueCauses_none {s : State} {k : Nat} (h : (getGroup s k).due = []) (m : Lanes) : dueCauses s k m = s := by
  simp only [dueCauses, h, List.filter_nil, List.isEmpty_nil, if_true]

/-- A group without one of its held sub-groups. -/
def withoutHeld (g : Group) (h : Held) : Group := { g with held := g.held.filter fun x => x != h }

theorem launchOf_dropHeld (s : State) (k : Nat) (h : Held) : launchOf (setGroup s k (withoutHeld (getGroup s k) h)) k = launchOf s k :=
  launchOf_setGroup rfl

/-- A write of RPLREP that names a held sub-group on a core replies to it. -/
theorem rplrep_replies (hs : running s = true) (hf : func ≤ s.pcie.numVfs) (hfn : func = 0 ∨ func = f)
    (hat : heldAt s f (v.extractLsb' 0 10).toNat (v.extractLsb' 10 8) = some (k, h)) (hs2 : h.s2 = false ∨ func = 0)
    (hslot : (getGroup s k).slot.isSome) {n : Nat} (hact : (v.extractLsb' 30 2).toNat = n) (hn : n < 3) :
    rplrepAct n s func f v = .next (applyReply s k h (v.extractLsb' 30 2)) := by
  have hown : (!(func == 0 || func == f) || decide (v.extractLsb' 30 2 = 3)) = false := by
    have hthree : v.extractLsb' 30 2 ≠ 3 := fun h => by rw [h] at hact; exact absurd hact (by simp; omega)
    rw [decide_eq_false hthree]
    rcases hfn with rfl | rfl <;> simp
  have hstage : (h.s2 && func != 0) = false := by rcases hs2 with h | h <;> simp [h]
  rw [rplrepAct, if_pos hact, openWrite_open _ hs hf]
  simp only [rplrepWrite, hown, Bool.false_eq_true, if_false, hat, hstage, hslot, if_true]

/-- RESUME of a sub-group without elements lets its lanes go on (R404). -/
theorem applyReply_resumes (hend : gridEnded (launchOf s k) = false) (hdue : (getGroup s k).due = []) (hel : h.elems = []) {act : BitVec 2}
    (hact : act.toNat = 0) : applyReply s k h act = setGroup s k (unpark (withoutHeld (getGroup s k) h) h.lanes) := by
  have hgone : dropHeld s k h = setGroup s k (withoutHeld (getGroup s k) h) := rfl
  simp only [applyReply, hend, Bool.false_eq_true, if_false, hact, hgone, resumeHeld, hel, List.isEmpty_nil, if_true, updGroup_eq,
    getGroup_setGroup_same, setGroup_setGroup]
  exact dueCauses_none (by rw [getGroup_setGroup_same]; exact hdue) _

/-- A delivery that holds nothing, outside the handler, hands its lanes to it. -/
theorem deliver_noHold {m : Lanes} {pc : DWord} {trn bkp s2 : Bool} (hin : m &&& (getGroup s k).hmask = 0) (hh : (launchOf s k).handler = some a) :
    deliver s k m pc trn bkp s2 true =
      cancelSigns (setGroup s k (handledGroup (getGroup s k) m a)) (coreOf (setGroup s k (handledGroup (getGroup s k) m a)) k) := by
  simp only [deliver, hin, ne_eq, not_true_eq_false, if_false, Bool.not_true, Bool.false_and, Bool.false_eq_true, hh]
  rfl

/-- DELIVER hands the lanes to the handler (R404). -/
theorem applyReply_delivers (hend : gridEnded (launchOf s k) = false) (hdue : (getGroup s k).due = []) (hh : (launchOf s k).handler = some a)
    (hin : h.lanes &&& (getGroup s k).hmask = 0) {act : BitVec 2} (hact : act.toNat = 1) :
    ItemsFrame (handledGroup (withoutHeld (getGroup s k) h) h.lanes a) (getGroup (applyReply s k h act) k) := by
  let z := setGroup s k (withoutHeld (getGroup s k) h)
  have hz : getGroup z k = withoutHeld (getGroup s k) h := getGroup_setGroup_same _ _ _
  have hdel := deliver_noHold (s := z) (k := k) (m := h.lanes) (pc := h.pc) (trn := h.trn) (bkp := !h.trn) (s2 := h.s2) (a := a)
    (by rw [hz]; exact hin) (by rw [launchOf_dropHeld]; exact hh)
  have hitems : ItemsFrame (handledGroup (withoutHeld (getGroup s k) h) h.lanes a)
      (getGroup (deliver z k h.lanes h.pc h.trn (!h.trn) h.s2 true) k) := by
    rw [hdel, hz]
    have hsigns := (cancelSigns_signsFrame (setGroup z k (handledGroup (withoutHeld (getGroup s k) h) h.lanes a))
      (coreOf (setGroup z k (handledGroup (withoutHeld (getGroup s k) h) h.lanes a)) k)).1 k
    rwa [getGroup_setGroup_same] at hsigns
  have hreply : applyReply s k h act = dueCauses (deliver z k h.lanes h.pc h.trn (!h.trn) h.s2 true) k h.lanes := by
    simp only [applyReply, hend, Bool.false_eq_true, if_false, hact]
    rfl
  rw [hreply, dueCauses_none (by rw [hitems]; exact hdue)]
  exact hitems

/-- KILL ends the grid (R404, R405). -/
theorem applyReply_kills (hend : gridEnded (launchOf s k) = false) (hl : (tabFind s.launches (teamOf s k).launch).isSome)
    (hst : (launchOf s k).stage ≠ .retired) {act : BitVec 2} (hact : act.toNat = 2) : (launchOf (applyReply s k h act) k).fate = 0x07 := by
  obtain ⟨l, hl⟩ := Option.isSome_iff_exists.1 hl
  have hlaunch : launchOf s k = l := by rw [launchOf, getLaunch, tabGet, hl, Option.getD_some]
  let z := setGroup s k (withoutHeld (getGroup s k) h)
  have hteam : ∀ (f : RecF), teamOf (fatal z (teamOf z k).launch f) k = teamOf s k := fun f => by
    obtain ⟨hg, ht⟩ := fatal_groups z (teamOf z k).launch f
    have hgroup : getGroup (fatal z (teamOf z k).launch f) k = withoutHeld (getGroup s k) h :=
      (congrArg (fun t => tabGet groupReset t k) hg).trans (getGroup_setGroup_same _ _ _)
    rw [teamOf, hgroup]
    exact congrArg (fun t => tabGet teamReset t (getGroup s k).team) ht
  have hsame : (teamOf z k).launch = (teamOf s k).launch := by rw [teamOf, getGroup_setGroup_same]; rfl
  have hreply : ∃ f, applyReply s k h act = fatal z (teamOf z k).launch f := by
    refine ⟨laneRecord z k h.lanes h.pc 0x01 0, ?_⟩
    simp only [applyReply, hend, Bool.false_eq_true, if_false, hact]
    rfl
  obtain ⟨f, hf⟩ := hreply
  rw [hf, launchOf, hteam, ← hsame, getLaunch_fatal (l := l) f (by rw [hsame]; exact hl) (hlaunch ▸ hst), endWith, ← hlaunch, hend]
  rfl

end

/-! ## Record heads -/

section
variable {s : State} {f : Nat} {x : Func}

/-- A function's place for a record depends on its stage-2 root and its ATS alone. -/
theorem recPlace_setFunc (hroot : x.s2root = (getFunc s f).s2root) (hats : x.ats = (getFunc s f).ats) (ipa : Nat) :
    recPlace (setFunc s f x) f ipa = recPlace s f ipa := by
  have hwalk : stage2 (setFunc s f x) f (setFunc s f x).tlb ipa = stage2 s f s.tlb ipa := by
    simp only [stage2, getFunc_setFunc_same, hroot]
    rfl
  have hreach : ∀ pa, ownReach (setFunc s f x) f 0 pa = ownReach s f 0 pa := fun pa => by
    simp only [ownReach, hostUp, hostPort, atsHeld, getFunc_setFunc_same, hats]
    rfl
  simp only [recPlace, s2Place, hwalk, hreach]

/-- A function once a fatal record of its has been written. -/
theorem getFunc_putFatal (s : State) (f : Nat) (b : RecF) :
    getFunc (putFatal s f b).1 f = { getFunc s f with ftail := (getFunc s f).ftail + 1 } := by
  have key : ∀ z, WriteFrame s z → getFunc (signal (updFunc z f fun x => { x with ftail := x.ftail + 1 }) f 1) f =
      { getFunc s f with ftail := (getFunc s f).ftail + 1 } := fun z hz => by
    have hfun : getFunc z f = getFunc s f := by unfold WriteFrame at hz; rw [hz]; rfl
    rw [← hfun]
    exact getFunc_setFunc_same z f _
  simp only [putFatal]
  split
  · exact key _ (sysPut_frame s _ _)
  · exact key _ (.refl s)

theorem serveRecs_none (hr : s.recs = []) : serveRecs s = s := by simp only [serveRecs, hr, List.filter_nil, List.foldl_nil]

/-- The only record that waits, a fatal one, is written when its lane has a free slot that can be written (R404). -/
theorem serveRecs_fatal {r : WaitRec} (hr : s.recs = [r]) (hfn : r.func = f) (hheld : r.held = none) (hfree : fatalFull s f = false)
    (hplace : (recPlace s f ((getFunc s f).recbase.toNat / 4096 * 4096 + 64 * ((getFunc s f).ftail.toNat % 64))).isSome) :
    (serveRecs s).recs = [] ∧ getFunc (serveRecs s) f = { getFunc s f with ftail := (getFunc s f).ftail + 1 } := by
  have hserved : serveRec s r = (putFatal { s with recs := [] } f r.body).1 := by
    have hfound : (putFatal { s with recs := [] } f r.body).2 = false := Option.isNone_eq_false_iff.2 hplace
    simp only [serveRec, hheld, hfn, hfree, hr, Bool.false_eq_true, if_false, List.erase_cons_head, hfound]
  have hrecs : (putFatal { s with recs := [] } f r.body).1.recs = [] := putFatal_recs _ _ _
  have hserve : serveRecs s = (putFatal { s with recs := [] } f r.body).1 := by
    simp only [serveRecs, hr, List.filter_cons, hheld, Option.isNone_none, if_true, List.filter_nil, List.foldl_cons, List.foldl_nil, hserved,
      hrecs]
  rw [hserve]
  exact ⟨hrecs, getFunc_putFatal _ _ _⟩

/-- A write of a head by its function, or by the physical one, moves it (R404). -/
theorem exec_recordHeadWrite_moves {func : Nat} {v : Word} (hs : running s = true) (hf : func ≤ s.pcie.numVfs) (hfn : func = 0 ∨ func = f)
    (replayable : Bool) : exec (.recordHeadWrite func f replayable v) s = .next (serveRecs (setFunc s f
      (if replayable then { getFunc s f with rhead := v } else { getFunc s f with fhead := v }))) := by
  have hown : (!(func == 0 || func == f)) = false := by rcases hfn with rfl | rfl <;> simp
  rw [exec_recordHeadWrite, execRecordHeadWrite, openWrite_open _ hs hf, recHeadWrite, hown, if_neg Bool.false_ne_true]
  rfl

end

end Sys2Proof.Machine
end

section
/-! SUPPORT. Teams that are marked to leave (R406, R407), pre-emption on request (R406), FREEZE and THAW (R410, R411, R413), and the function-level
reset. -/

namespace Sys2Proof.Machine

/-! ## Teams marked to leave -/

section
variable {s : State} {k f : Nat} {x : Team} {v : Word}

theorem getTeam_of_tabFind (h : tabFind s.teams k = some x) : getTeam s k = x := by rw [getTeam, tabGet, h, Option.getD_some]

/-- A listed team comes and goes with itself. -/
theorem mem_mates (h : tabFind s.teams k = some x) : k ∈ mates s k := by
  have hteam := getTeam_of_tabFind h
  simp only [mates, hteam]
  split
  · exact List.mem_map.2 ⟨(k, x), List.mem_filter.2 ⟨mem_of_tabFind h, by simp⟩, rfl⟩
  · exact List.mem_singleton.2 rfl

/-- A resident team that a request names is marked to leave. -/
theorem tabFind_markLeaving {p : Nat → Team → Bool} (h : tabFind s.teams k = some x) (hres : x.place = .resident) (hp : p k x = true) :
    tabFind (markLeaving s p).teams k = some { x with leaving := true } := by
  have hks : ((s.teams.filter fun e => e.2.place == .resident && p e.1 e.2).flatMap fun e => mates s e.1).contains k = true :=
    List.contains_iff_mem.2 (List.mem_flatMap.2 ⟨(k, x), List.mem_filter.2 ⟨mem_of_tabFind h, by simp [hres, hp]⟩, mem_mates h⟩)
  have hmap := tabFind_map (fun e : Nat × Team => if ((s.teams.filter fun e => e.2.place == .resident && p e.1 e.2).flatMap fun e =>
    mates s e.1).contains e.1 && e.2.place == .resident then (e.1, { e.2 with leaving := true }) else e) (fun e => by split <;> rfl) s.teams k
  rw [markLeaving]
  refine hmap.trans ?_
  rw [h, Option.map_some]
  exact congrArg (fun e : Nat × Team => some e.2) (if_pos (by rw [hks, hres]; rfl))

theorem getFunc_freezer (s : State) (fr : Freezer) (f : Nat) : getFunc { s with freezer := fr } f = getFunc s f := rfl

/-! ## FPRE, R406 -/

/-- A GO of FPRE takes HOLD, and marks the function's resident teams below priority 7. -/
theorem fpreWrite_marks (hgo : v.getLsbD 31 = true) (hfn : (v.extractLsb' 0 6).toNat = f) :
    (getFunc (fpreWrite s 0 v) f).hold = v.getLsbD 29 ∧ (fpreWrite s 0 v).groups = s.groups ∧ (fpreWrite s 0 v).mem = s.mem ∧
      ∀ k x, tabFind s.teams k = some x → x.place = .resident → (getLaunch s x.launch).func = f → (getLaunch s x.launch).pri < 7 →
        tabFind (fpreWrite s 0 v).teams k = some { x with leaving := true } := by
  let y : State := updFunc { s with freezer := { s.freezer with fpre := v.extractLsb' 0 6, fhold := v.getLsbD 29 } } f fun x =>
    { x with hold := v.getLsbD 29 }
  let z := markLeaving y fun _ t => funcTeam y f t && decide ((getLaunch y t.launch).pri < 7)
  have hz : fpreWrite s 0 v = { z with freezer := { z.freezer with fbusy := stillLeaving z f, fjob := f } } := by
    simp only [fpreWrite, ne_eq, not_true_eq_false, if_false, hgo, hfn, if_true]
    rfl
  have hfunc : getFunc (fpreWrite s 0 v) f = getFunc y f := by rw [hz]; exact getFunc_freezer _ _ _
  have hteams : (fpreWrite s 0 v).teams = z.teams := by rw [hz]
  refine ⟨?_, by rw [hz]; rfl, by rw [hz]; rfl, fun k x hk hres hx hpri => ?_⟩
  · rw [hfunc]
    exact congrArg Func.hold (getFunc_setFunc_same _ f _)
  · have hlaunch : getLaunch y x.launch = getLaunch s x.launch := rfl
    rw [hteams]
    refine tabFind_markLeaving (s := y) hk hres ?_
    simp only [funcTeam, hlaunch, hx, beq_self_eq_true, hpri, decide_true, Bool.and_self]

/-! ## FREEZE and THAW, R410 to R413 -/

/-- An operation of a function has started. -/
def frzStarted (s : State) (v : Word) (op f : Nat) : State :=
  { s with freezer := { s.freezer with
      op := v.extractLsb' 28 2, func := v.extractLsb' 16 6, busy := true, phase := op + 1, job := f, hostFail := false, frees := none } }

theorem frzctlWrite_starts {op : Nat} (hgo : v.getLsbD 31 = true) (hfn : (v.extractLsb' 16 6).toNat = f) (hidle : s.freezer.busy = false)
    (hop : (v.extractLsb' 28 2).toNat = op) (hlt : op < 2) : frzctlWrite s 0 v =
      if v.extractLsb' 28 2 = 0 then markLeaving (updFunc (frzStarted s v op f) f fun x => { x with freezing := true }) fun _ t =>
        funcTeam (updFunc (frzStarted s v op f) f fun x => { x with freezing := true }) f t
      else frzStarted s v op f := by
  simp only [frzctlWrite, ne_eq, not_true_eq_false, if_false, hgo, hidle, hop, Nat.not_le.2 hlt, decide_false, Bool.not_true, Bool.or_self,
    Bool.false_eq_true, hfn]
  rfl

/-- FREEZE marks every resident team of its function to leave (R411; log entry 62). -/
theorem frzctlWrite_freezes (hgo : v.getLsbD 31 = true) (hfn : (v.extractLsb' 16 6).toNat = f) (hidle : s.freezer.busy = false)
    (hop : v.extractLsb' 28 2 = 0) : ((frzctlWrite s 0 v).freezer.busy = true ∧ (frzctlWrite s 0 v).freezer.job = f ∧
      (frzctlWrite s 0 v).freezer.phase = 1) ∧ (getFunc (frzctlWrite s 0 v) f).freezing = true ∧
      ∀ k x, tabFind s.teams k = some x → x.place = .resident → (getLaunch s x.launch).func = f →
        tabFind (frzctlWrite s 0 v).teams k = some { x with leaving := true } := by
  rw [frzctlWrite_starts (op := 0) hgo hfn hidle (congrArg BitVec.toNat hop) (by decide), if_pos hop]
  refine ⟨⟨rfl, rfl, rfl⟩, congrArg Func.freezing (getFunc_setFunc_same _ f _), fun k x hk hres hx => tabFind_markLeaving hk hres ?_⟩
  exact beq_iff_eq.2 hx

/-- The end of an operation with a status. -/
def frzEnded (z : State) (st : BitVec 8) : State :=
  signal { z with freezer := { z.freezer with busy := false, phase := 0, status := st, hostFail := false, frees := none } } 0 4

theorem frzDone_thaw (hp : s.freezer.phase = 2) : frzDone s = frzEnded (thawEnd s s.freezer.job).1 (thawEnd s s.freezer.job).2 := by
  have hne : ¬ s.freezer.phase = 1 := by rw [hp]; decide
  rw [frzDone]
  exact (if_neg hne).trans (if_pos hp)

theorem frzDone_releases (hp : s.freezer.phase = 1) (hsp : allSpilled s s.freezer.job = true) (hfr : s.freezer.frees = none) :
    frzDone s = { (releaseAll s (List.range Config.cores) .sys).1 with freezer := { (releaseAll s (List.range Config.cores) .sys).1.freezer with
      frees := some (releaseAll s (List.range Config.cores) .sys).2 } } := by
  simp only [frzDone, hp, hsp, hfr, if_true, Bool.not_true, Bool.false_eq_true, if_false]

theorem frzDone_freezes {ids : List Nat} (hp : s.freezer.phase = 1) (hsp : allSpilled s s.freezer.job = true) (hfr : s.freezer.frees = some ids)
    (hover : relsOver s ids = true) : frzDone s = frzEnded (freezeEnd s s.freezer.job).1 (freezeEnd s s.freezer.job).2 := by
  simp only [frzDone, hp, hsp, hfr, hover, if_true, Bool.not_true, Bool.false_eq_true, if_false]
  rfl

/-- A launch of a function whose FREEZE has ended with 0. -/
def frozenEntry (f : Nat) (e : Nat × Launch) : Nat × Launch := if e.2.func == f then (e.1, { e.2 with frozen := some f }) else e

/-- A page-request slot of a function is cleared. -/
def slotCleared (f : Nat) (s : State) (i : Nat) : State := setSlot s f i { getSlot s f i with valid := false, waiters := 0 }

theorem slotCleared_launches (f : Nat) (s : State) (i : Nat) : (slotCleared f s i).launches = s.launches := rfl

theorem foldl_launches {α : Type} {g : State → α → State} (hg : ∀ z x, (g z x).launches = z.launches) (l : List α) (s : State) :
    (l.foldl g s).launches = s.launches :=
  foldl_rel (fr := fun z y => y.launches = z.launches) (fun _ => rfl) (fun h k => Eq.trans k h) hg l s

theorem clearSlots_launches (s : State) (f : Nat) : (clearSlots s f).launches = s.launches := by
  have hfold : ((List.range 64).foldl (slotCleared f) s).launches = s.launches := foldl_launches (slotCleared_launches f) _ s
  have hclear : ∀ y : State, ({ y with elems := y.elems.map fun e => if e.func == f then { e with slot := none } else e } : State).launches =
      y.launches := fun _ => rfl
  exact (hclear _).trans hfold

theorem WriteFrame.launches_eq {s t : State} (h : WriteFrame s t) : t.launches = s.launches := by
  unfold WriteFrame at h
  rw [h]

/-- A FREEZE that ends with 0: the image has been written, and the function's launches are frozen. -/
def imageWritten (y : State) (f n : Nat) (d : List Byte) : State × BitVec 8 :=
  ({ y with
      launches := y.launches.map (frozenEntry f)
      recs := y.recs.filter fun w => !(w.func == f && w.held.isSome)
      freezer := { y.freezer with len := BitVec.ofNat 64 n, dig := digestWords d } }, 0)

theorem freezeEnd_cases (s : State) (f : Nat) : (freezeEnd s f).2 ≠ 0 ∨
    ∃ y n d, y.launches = s.launches ∧ freezeEnd s f = imageWritten y f n d := by
  have hlaunches := clearSlots_launches s f
  rw [freezeEnd]
  generalize clearSlots s f = z at hlaunches ⊢
  dsimp only
  split
  · exact .inl (show (7 : BitVec 8) ≠ 0 by decide)
  · split
    · exact .inl (show (2 : BitVec 8) ≠ 0 by decide)
    · split
      · exact .inl (show (1 : BitVec 8) ≠ 0 by decide)
      · have hput : ∀ pa bs, (sysPut { z with fresh := z.fresh + 1 } pa bs).launches = z.launches := fun pa bs =>
          (sysPut_frame { z with fresh := z.fresh + 1 } pa bs).launches_eq
        generalize hy : sysPut _ _ _ = y
        exact .inr ⟨y, _, _, (hy ▸ hput _ _).trans hlaunches, rfl⟩

/-- A FREEZE that ends with 0 leaves its function's launches frozen (R411). -/
theorem freezeEnd_freezes (h : (freezeEnd s f).2 = 0) : (freezeEnd s f).1.launches = s.launches.map (frozenEntry f) := by
  rcases freezeEnd_cases s f with hne | ⟨y, n, d, hy, hend⟩
  · exact absurd h hne
  · rw [hend, ← hy]
    rfl

theorem getLaunch_frozen {t : State} {lk : Nat} {l : Launch} (ht : t.launches = s.launches.map (frozenEntry f)) (hl : tabFind s.launches lk = some l)
    (hf : l.func = f) : (getLaunch t lk).frozen = some f := by
  have hfind : tabFind t.launches lk = some { l with frozen := some f } := by
    rw [ht, tabFind_map _ (fun e => by unfold frozenEntry; split <;> rfl), hl]
    simp [frozenEntry, hf]
  rw [getLaunch, tabGet, hfind, Option.getD_some]

/-! ## The function-level reset -/

/-- A function-level reset discards the frozen launches of its function. -/
theorem flr_discards (s : State) (f : Nat) : (getFunc (flr s f) f).freezing = false ∧
    ∀ lk l, (lk, l) ∈ (flr s f).launches → l.func = f → l.frozen = none := by
  refine ⟨congrArg Func.freezing (tabGet_tabPut_same _ _ _ _), fun lk l hl hf => ?_⟩
  have hkeep : (!(l.func == f && l.frozen.isSome)) = true := (List.mem_filter.1 hl).2
  simpa [hf] using hkeep

end

end Sys2Proof.Machine
end

section
/-! SUPPORT. Precise stops and their resumption (R422), and the statement RecordsAndFreezing. -/

namespace Sys2Proof.Machine

section
variable {s : State} {k n tid : Nat} {x : Team} {v old : DWord} {i j : Instr}

/-! ## The kind of a stop -/

theorem kindOf_eq (old v : DWord) :
    kindOf old v = (if v.extractLsb' 61 2 = 3 then old.extractLsb' 61 2 else v.extractLsb' 61 2).toNat := by
  have hthree : (v.extractLsb' 61 2).toNat = 3 ↔ v.extractLsb' 61 2 = 3 := (BitVec.toNat_inj (y := 3#2)).trans Iff.rfl
  simp only [kindOf, hthree]
  split <;> rfl

/-- The words of a kind are a stop and a resumption of it. -/
def StopsOfKind (v : DWord) (i j : Instr) (n : Nat) : Prop :=
  (i = .stopLaunch 0 v ∧ j = .resumeLaunch 0 v ∧ n = 0) ∨ (i = .stopTeam 0 v ∧ j = .resumeTeam 0 v ∧ n = 1) ∨
    (i = .stopThread 0 v ∧ j = .resumeThread 0 v ∧ n = 2)

theorem exec_stop_writes (hs : running s = true) (hi : StopsOfKind v i j n) (hk : kindOf s.freezer.stop v = n) :
    exec i s = .next (stopWrite s 0 v) := by
  have hof : ofKind n 0 s.freezer.stop v s (stopWrite s 0 v) = .next (stopWrite s 0 v) := by
    rw [ofKind, if_pos hk, openWrite_open _ hs (Nat.zero_le _)]
  rcases hi with ⟨rfl, rfl, rfl⟩ | ⟨rfl, rfl, rfl⟩ | ⟨rfl, rfl, rfl⟩
  · rw [exec_stopLaunch]; exact hof
  · rw [exec_stopTeam]; exact hof
  · rw [exec_stopThread]; exact hof

theorem exec_resume_writes (hs : running s = true) (hi : StopsOfKind v i j n) (hk : kindOf s.freezer.rsm v = n) :
    exec j s = .next (resumeWrite s 0 v) := by
  have hof : ofKind n 0 s.freezer.rsm v s (resumeWrite s 0 v) = .next (resumeWrite s 0 v) := by
    rw [ofKind, if_pos hk, openWrite_open _ hs (Nat.zero_le _)]
  rcases hi with ⟨rfl, rfl, rfl⟩ | ⟨rfl, rfl, rfl⟩ | ⟨rfl, rfl, rfl⟩
  · rw [exec_resumeLaunch]; exact hof
  · rw [exec_resumeTeam]; exact hof
  · rw [exec_resumeThread]; exact hof

/-! ## A stop -/

/-- A team that a stop names, with the thread that its record is to name. -/
def stoppedTeam (tid : Nat) (x : Team) : Team := { x with stopped := true, stopTid := some tid }

theorem stoppedTeam_twice (tid : Nat) (x : Team) : stoppedTeam tid (stoppedTeam tid x) = stoppedTeam tid x := rfl

/-- The teams of a list, stopped. -/
def teamsStopped (tid : Nat) (s : State) (ks : List Nat) : State := ks.foldl (fun s k => updTeam s k (stoppedTeam tid)) s

theorem tabFind_updTeam (s : State) (j k : Nat) (f : Team → Team) (h : tabFind s.teams k = some x) :
    tabFind (updTeam s j f).teams k = some (if k = j then f x else x) := by
  by_cases hkj : k = j
  · subst hkj
    rw [if_pos rfl, updTeam_eq, getTeam_of_tabFind h]
    exact tabFind_tabPut_same _ _ _
  · rw [if_neg hkj, updTeam_eq]
    exact (tabFind_tabPut_other _ _ _ _ hkj).trans h

/-- A team of the list, or one that is stopped already, is stopped. -/
theorem tabFind_teamsStopped {y : Team} {ks : List Nat} (h : tabFind s.teams k = some y) (hy : y = x ∨ y = stoppedTeam tid x)
    (hin : k ∈ ks ∨ y = stoppedTeam tid x) : tabFind (teamsStopped tid s ks).teams k = some (stoppedTeam tid x) := by
  have hstop : stoppedTeam tid y = stoppedTeam tid x := by rcases hy with rfl | rfl <;> rfl
  induction ks generalizing s y with
  | nil => rw [← hin.resolve_left (by simp)]; exact h
  | cons j ks ih =>
    refine ih (tabFind_updTeam s j k _ h) ?_ ?_ ?_
    · split
      · exact .inr hstop
      · exact hy
    · by_cases hkj : k = j
      · rw [if_pos hkj]; exact .inr hstop
      · rw [if_neg hkj]
        exact hin.imp_left fun hmem => (List.mem_cons.1 hmem).resolve_left hkj
    · split
      · exact (stoppedTeam_twice tid y).trans hstop
      · exact hstop

theorem teamsStopped_launches (tid : Nat) (s : State) (ks : List Nat) : (teamsStopped tid s ks).launches = s.launches :=
  foldl_launches (g := fun s k => updTeam s k (stoppedTeam tid)) (fun _ _ => rfl) ks s

theorem teamsStopped_freezer (tid : Nat) (s : State) (ks : List Nat) : (teamsStopped tid s ks).freezer = s.freezer :=
  foldl_rel (fr := fun z y => y.freezer = z.freezer) (f := fun s k => updTeam s k (stoppedTeam tid)) (fun _ => rfl) (fun h k => k.trans h)
    (fun _ _ => rfl) ks s

/-- A launch that a stop of its whole keeps off, when it is accepted. -/
def heldEntry (label : DWord) (e : Nat × Launch) : Nat × Launch :=
  if e.2.label == label && e.2.stage == .accepted then (e.1, { e.2 with held := true }) else e

/-- The teams that a GO of a kind stops. -/
def stopList (s : State) (n : Nat) (v : DWord) : List Nat :=
  (s.teams.filter fun e => stopNames s n v e.2 && !e.2.stopped && e.2.place != .reserved).map (·.1)

/-- A team off its cores has its stop record at once. -/
def offRecorded (s : State) (k : Nat) : State := if (getTeam s k).place == .resident then s else dueStop s k

/-- The state in which a write of STOPCTL has set KIND and TEAM. -/
def withStop (s : State) (w : DWord) : State := { s with freezer := { s.freezer with stop := w } }

/-- The launches of a kind's GO: a whole launch is held. -/
def launchesHeld (n : Nat) (s : State) : State := if n = 0 then { s with launches := s.launches.map (heldEntry s.freezer.slabel) } else s

/-- The thread that the records of a GO's teams name. -/
def stopThreadOf (n : Nat) (s : State) : Nat := if n = 2 then s.freezer.stid.toNat else 0

theorem stopThreadOf_eq (n : Nat) (s : State) : stopThreadOf n s = if n = 2 then s.freezer.stid.toNat else 0 := rfl

theorem stopThreadOf_withStop (n : Nat) (s : State) (w : DWord) : stopThreadOf n (withStop s w) = stopThreadOf n s := by
  have hstid : (withStop s w).freezer.stid = s.freezer.stid := rfl
  rw [stopThreadOf, hstid, stopThreadOf]

/-- The list of teams that a GO names stops: they leave their cores, or have their records. -/
def stopGo (s : State) (n tid : Nat) (ks : List Nat) : State :=
  ks.foldl offRecorded (markLeaving (launchesHeld n (teamsStopped tid s ks)) fun k _ => ks.contains k)

theorem stopWrite_go (hgo : v.getLsbD 63 = true) (hk : kindOf s.freezer.stop v = n) : stopWrite s 0 v =
    stopGo (withStop s (kindWord s.freezer.stop v)) n
      (stopThreadOf n (withStop s (kindWord s.freezer.stop v))) (stopList (withStop s (kindWord s.freezer.stop v)) n v) := by
  have hnot : ¬ (0 : Nat) ≠ 0 := fun h => h rfl
  subst hk
  unfold stopWrite
  extract_lets kind fr y ks tid stopped held left
  rw [if_neg hnot, hgo, Bool.not_true, if_neg Bool.false_ne_true]
  have hks : ks = stopList y kind v := rfl
  have hstopped : stopped = teamsStopped tid y ks := rfl
  have hheld : held = launchesHeld kind stopped := rfl
  have hleft : left = markLeaving held fun k _ => ks.contains k := rfl
  have hy : y = withStop s (kindWord s.freezer.stop v) := rfl
  have hkind : kind = kindOf s.freezer.stop v := rfl
  have htid : tid = stopThreadOf kind y := rfl
  clear_value left held stopped tid ks y fr kind
  rw [← hkind, ← hy, ← htid, ← hks, stopGo, ← hstopped, ← hheld, ← hleft]
  rfl

/-- A record of a stop leaves teams, but the one it names, and launches as they are. -/
theorem dueStop_keeps (s : State) (j : Nat) (hne : k ≠ j) :
    tabFind (dueStop s j).teams k = tabFind s.teams k ∧ (dueStop s j).launches = s.launches := by
  unfold dueStop
  split
  · next tid _ =>
    have hframe : RecordFrame { s with fresh := s.fresh + 1 } (stopRecord s j tid) := traceWrite_frame _ _ _
    have hteams : (stopRecord s j tid).teams = s.teams := by unfold RecordFrame at hframe; rw [hframe]
    have hlaunches : (stopRecord s j tid).launches = s.launches := by unfold RecordFrame at hframe; rw [hframe]
    refine ⟨?_, hlaunches⟩
    rw [updTeam_eq, ← hteams]
    exact tabFind_tabPut_other _ _ _ _ hne
  · exact ⟨rfl, rfl⟩

/-- A resident team keeps what it has while others have their stop records. -/
theorem offRecorded_keeps {y : Team} (ks : List Nat) (h : tabFind s.teams k = some y) (hres : y.place = .resident) :
    tabFind (ks.foldl offRecorded s).teams k = some y ∧ (ks.foldl offRecorded s).launches = s.launches := by
  induction ks generalizing s with
  | nil => exact ⟨h, rfl⟩
  | cons j ks ih =>
    have hstep : tabFind (offRecorded s j).teams k = some y ∧ (offRecorded s j).launches = s.launches := by
      unfold offRecorded
      split
      · exact ⟨h, rfl⟩
      · next hj =>
        obtain ⟨hteam, hl⟩ := dueStop_keeps s j (k := k) fun hkj => hj (by rw [← hkj, getTeam_of_tabFind h, hres]; rfl)
        exact ⟨hteam.trans h, hl⟩
    obtain ⟨hteam, hl⟩ := ih hstep.1
    exact ⟨hteam, hl.trans hstep.2⟩

theorem launchesHeld_teams (n : Nat) (s : State) : (launchesHeld n s).teams = s.teams := by
  unfold launchesHeld
  split <;> rfl

/-- A resident team that a GO names is stopped and leaves, and the launches are those that the GO leaves. -/
theorem stopGo_stops {ks : List Nat} (h : tabFind s.teams k = some x) (hres : x.place = .resident) (hin : k ∈ ks) :
    getTeam (stopGo s n tid ks) k = { stoppedTeam tid x with leaving := true } ∧
      (stopGo s n tid ks).launches = (launchesHeld n (teamsStopped tid s ks)).launches := by
  have hstop : tabFind (launchesHeld n (teamsStopped tid s ks)).teams k = some (stoppedTeam tid x) := by
    rw [launchesHeld_teams]
    exact tabFind_teamsStopped h (.inl rfl) (.inl hin)
  have hleave := tabFind_markLeaving (p := fun k _ => ks.contains k) hstop hres (List.contains_iff_mem.2 hin)
  obtain ⟨hteam, hlaunches⟩ := offRecorded_keeps ks hleave hres
  exact ⟨getTeam_of_tabFind hteam, hlaunches⟩

/-- A GO that stops a whole launch holds it, when it is accepted. -/
theorem stopGo_holds {ks : List Nat} {t : State} {lk : Nat} {l : Launch} (ht : t.launches = (launchesHeld 0 (teamsStopped tid s ks)).launches)
    (hl : tabFind s.launches lk = some l) (hlabel : l.label = s.freezer.slabel) (hst : l.stage = .accepted) : (getLaunch t lk).held = true := by
  have hlaunches : t.launches = s.launches.map (heldEntry s.freezer.slabel) := by
    rw [ht, launchesHeld, if_pos rfl]
    dsimp only
    rw [teamsStopped_launches, teamsStopped_freezer]
  have hfind : tabFind t.launches lk = some { l with held := true } := by
    rw [hlaunches, tabFind_map _ (fun e => by unfold heldEntry; split <;> rfl), hl]
    simp [heldEntry, hlabel, hst]
  rw [getLaunch, tabGet, hfind, Option.getD_some]

theorem stopNames_named (hlabel : (getLaunch s x.launch).label = s.freezer.slabel) (htask : n = 0 ∨ x.task = (v.extractLsb' 0 32).toNat) :
    stopNames s n v x = true := by
  rw [stopNames, hlabel, beq_self_eq_true, Bool.true_and]
  rcases htask with rfl | htask
  · rfl
  · rw [decide_eq_true htask, Bool.or_true]

theorem stopNames_withStop (s : State) (n : Nat) (v w : DWord) (x : Team) : stopNames (withStop s w) n v x = stopNames s n v x := by
  have hlabel : (withStop s w).freezer.slabel = s.freezer.slabel := rfl
  have hlaunch : getLaunch (withStop s w) x.launch = getLaunch s x.launch := rfl
  rw [stopNames, stopNames, hlabel, hlaunch]

/-- A GO stops a resident team that it names, takes it off its cores, and with kind 0 holds the launches with the label. -/
theorem stopGo_named (w : DWord) (h : tabFind s.teams k = some x) (hnames : stopNames s n v x = true) (hres : x.place = .resident)
    (hon : x.stopped = false) : getTeam (stopGo (withStop s w) n (stopThreadOf n (withStop s w)) (stopList (withStop s w) n v)) k =
        { stoppedTeam (stopThreadOf n s) x with leaving := true } ∧
      (n = 0 → ∀ lk l, tabFind s.launches lk = some l → l.label = s.freezer.slabel → l.stage = .accepted →
        (getLaunch (stopGo (withStop s w) n (stopThreadOf n (withStop s w)) (stopList (withStop s w) n v)) lk).held = true) := by
  have hin : k ∈ stopList (withStop s w) n v := by
    refine List.mem_map.2 ⟨(k, x), List.mem_filter.2 ⟨mem_of_tabFind h, ?_⟩, rfl⟩
    rw [stopNames_withStop, hnames, hon, hres]
    rfl
  obtain ⟨hteam, hlaunches⟩ := stopGo_stops (s := withStop s w) (n := n) (tid := stopThreadOf n (withStop s w)) h hres hin
  refine ⟨by rw [hteam, stopThreadOf_withStop], fun hn lk l hl hll hst => ?_⟩
  subst hn
  exact stopGo_holds (s := withStop s w) hlaunches hl hll hst

/-- A write of STOPCTL with GO stops a resident team that it names (R422). -/
theorem stopWrite_stops (hgo : v.getLsbD 63 = true) (hk : kindOf s.freezer.stop v = n) (h : tabFind s.teams k = some x)
    (hlabel : (getLaunch s x.launch).label = s.freezer.slabel) (htask : n = 0 ∨ x.task = (v.extractLsb' 0 32).toNat)
    (hres : x.place = .resident) (hon : x.stopped = false) :
    getTeam (stopWrite s 0 v) k = { stoppedTeam (stopThreadOf n s) x with leaving := true } ∧
      (n = 0 → ∀ lk l, tabFind s.launches lk = some l → l.label = s.freezer.slabel → l.stage = .accepted →
        (getLaunch (stopWrite s 0 v) lk).held = true) := by
  rw [stopWrite_go hgo hk]
  exact stopGo_named _ h (stopNames_named hlabel htask) hres hon

/-! ## A resumption -/

/-- The state in which a write of RSMCTL has set KIND and TEAM. -/
def withRsm (s : State) (w : DWord) : State := { s with freezer := { s.freezer with rsm := w } }

/-- A team that a GO of RSMCTL names may be placed again. -/
def resumedEntry (s : State) (n : Nat) (v : DWord) (e : Nat × Team) : Nat × Team :=
  if stopNames s n v e.2 then (e.1, { e.2 with stopped := false }) else e

/-- A launch with the label may place its teams again. -/
def freedEntry (label : DWord) (e : Nat × Launch) : Nat × Launch := if e.2.label == label then (e.1, { e.2 with held := false }) else e

/-- A GO of RSMCTL: the teams that it names, and with kind 0 the launches, go on. -/
def resumeGo (s : State) (n : Nat) (v : DWord) : State :=
  let y : State := { s with teams := s.teams.map (resumedEntry s n v) }
  if n = 0 then { y with launches := y.launches.map (freedEntry y.freezer.slabel) } else y

theorem resumeWrite_go (hgo : v.getLsbD 63 = true) (hk : kindOf s.freezer.rsm v = n) :
    resumeWrite s 0 v = resumeGo (withRsm s (kindWord s.freezer.rsm v)) n v := by
  have hnot : ¬ (0 : Nat) ≠ 0 := fun h => h rfl
  subst hk
  unfold resumeWrite
  extract_lets kind fr y resumed
  rw [if_neg hnot, hgo, Bool.not_true, if_neg Bool.false_ne_true]
  rfl

theorem stopNames_withRsm (s : State) (n : Nat) (v w : DWord) (x : Team) : stopNames (withRsm s w) n v x = stopNames s n v x := by
  have hlabel : (withRsm s w).freezer.slabel = s.freezer.slabel := rfl
  have hlaunch : getLaunch (withRsm s w) x.launch = getLaunch s x.launch := rfl
  rw [stopNames, stopNames, hlabel, hlaunch]

theorem resumeGo_teams (s : State) (n : Nat) (v w : DWord) :
    (resumeGo (withRsm s w) n v).teams = s.teams.map (resumedEntry (withRsm s w) n v) := by
  unfold resumeGo
  dsimp only
  split <;> rfl

theorem resumeGo_launches (s : State) (v w : DWord) :
    (resumeGo (withRsm s w) 0 v).launches = s.launches.map (freedEntry s.freezer.slabel) := rfl

/-- A GO of RSMCTL lets a team that it names go on, and with kind 0 the launches with the label. -/
theorem resumeGo_named (w : DWord) (h : tabFind s.teams k = some x) (hnames : stopNames s n v x = true) :
    getTeam (resumeGo (withRsm s w) n v) k = { x with stopped := false } ∧ (n = 0 → ∀ lk l, tabFind s.launches lk = some l →
      l.label = s.freezer.slabel → (getLaunch (resumeGo (withRsm s w) n v) lk).held = false) := by
  have hentry : resumedEntry (withRsm s w) n v (k, x) = (k, { x with stopped := false }) :=
    if_pos ((stopNames_withRsm s n v w x).trans hnames)
  have hfind : tabFind (resumeGo (withRsm s w) n v).teams k = some { x with stopped := false } := by
    rw [resumeGo_teams, tabFind_map _ (fun e => by unfold resumedEntry; split <;> rfl), h, Option.map_some, hentry]
  refine ⟨getTeam_of_tabFind hfind, fun hn lk l hl hll => ?_⟩
  subst hn
  have hlaunch : tabFind (resumeGo (withRsm s w) 0 v).launches lk = some { l with held := false } := by
    rw [resumeGo_launches, tabFind_map _ (fun e => by unfold freedEntry; split <;> rfl), hl]
    simp [freedEntry, hll]
  rw [getLaunch, tabGet, hlaunch, Option.getD_some]

/-- A write of RSMCTL with GO lets a team that it names go on (R422). -/
theorem resumeWrite_resumes (hgo : v.getLsbD 63 = true) (hk : kindOf s.freezer.rsm v = n) (h : tabFind s.teams k = some x)
    (hlabel : (getLaunch s x.launch).label = s.freezer.slabel) (htask : n = 0 ∨ x.task = (v.extractLsb' 0 32).toNat) :
    getTeam (resumeWrite s 0 v) k = { x with stopped := false } ∧ (n = 0 → ∀ lk l, tabFind s.launches lk = some l →
      l.label = s.freezer.slabel → (getLaunch (resumeWrite s 0 v) lk).held = false) := by
  rw [resumeWrite_go hgo hk]
  exact resumeGo_named _ h (stopNames_named hlabel htask)

end

/-! ## The statement's clauses -/

section
variable {s : State} {f func k : Nat} {v : Word} {h : Held} {a : DWord}

/-- What DELIVER leaves of the group of a held sub-group (R404). -/
theorem applyReply_handled (hend : gridEnded (launchOf s k) = false) (hdue : (getGroup s k).due = []) (hh : (launchOf s k).handler = some a)
    (hin : h.lanes &&& (getGroup s k).hmask = 0) {act : BitVec 2} (hact : act.toNat = 1) :
    (getGroup (applyReply s k h act) k).hmask = (getGroup s k).hmask ||| h.lanes ∧
      (getGroup (applyReply s k h act) k).parked = (getGroup s k).parked &&& ~~~h.lanes ∧ h ∉ (getGroup (applyReply s k h act) k).held ∧
      ∀ l, l ∈ lanesOf h.lanes → pcOf (getGroup (applyReply s k h act) k) l = a := by
  have hitems := applyReply_delivers hend hdue hh hin hact
  refine ⟨by rw [hitems]; rfl, by rw [hitems]; rfl, ?_, fun l hl => ?_⟩
  · have hheld : (getGroup (applyReply s k h act) k).held = (getGroup s k).held.filter fun x => x != h := by rw [hitems]; rfl
    rw [hheld]
    simp
  · obtain ⟨hlt, hbit⟩ := (mem_lanesOf _ l).1 hl
    rw [hitems.pcOf, pcOf_handledGroup _ _ a hlt, if_pos hbit]

/-- A record that waited is written when FHEAD moves (R404). -/
theorem serveRecs_moved {r : WaitRec} (hr : s.recs = [r]) (hfn : r.func = f) (hheld : r.held = none) (hfree : (getFunc s f).ftail - v ≠ 64#32)
    (hplace : (recPlace s f ((getFunc s f).recbase.toNat / 4096 * 4096 + 64 * ((getFunc s f).ftail.toNat % 64))).isSome) :
    (serveRecs (setFunc s f { getFunc s f with fhead := v })).recs = [] ∧
      getFunc (serveRecs (setFunc s f { getFunc s f with fhead := v })) f = { getFunc s f with fhead := v, ftail := (getFunc s f).ftail + 1 } := by
  have hmoved : getFunc (setFunc s f { getFunc s f with fhead := v }) f = { getFunc s f with fhead := v } := getFunc_setFunc_same s f _
  have hfull : fatalFull (setFunc s f { getFunc s f with fhead := v }) f = false := by
    rw [fatalFull, hmoved]
    exact beq_eq_false_iff_ne.2 hfree
  have hfound : (recPlace (setFunc s f { getFunc s f with fhead := v }) f
      ((getFunc (setFunc s f { getFunc s f with fhead := v }) f).recbase.toNat / 4096 * 4096 +
        64 * ((getFunc (setFunc s f { getFunc s f with fhead := v }) f).ftail.toNat % 64))).isSome := by
    rw [hmoved, recPlace_setFunc (x := { getFunc s f with fhead := v }) rfl rfl]
    exact hplace
  obtain ⟨hrecs, hfunc⟩ := serveRecs_fatal (s := setFunc s f { getFunc s f with fhead := v }) hr hfn hheld hfull hfound
  exact ⟨hrecs, by rw [hfunc, hmoved]⟩

/-- A GO of FPRE, with HOLD or without, acts. -/
theorem exec_fpre_writes {i : Instr} (hs : running s = true)
    (hi : (i = .fprePreempt 0 v ∧ v.getLsbD 29 = false) ∨ (i = .fprePreemptHold 0 v ∧ v.getLsbD 29 = true)) :
    exec i s = .next (fpreWrite s 0 v) := by
  rcases hi with ⟨rfl, hhold⟩ | ⟨rfl, hhold⟩
  · rw [exec_fprePreempt, execFprePreempt, hhold, if_neg Bool.false_ne_true, openWrite_open _ hs (Nat.zero_le _)]
  · rw [exec_fprePreemptHold, execFprePreemptHold, if_pos hhold, openWrite_open _ hs (Nat.zero_le _)]

theorem exec_freeze_writes (hs : running s = true) (hop : v.extractLsb' 28 2 = 0) : exec (.freeze 0 v) s = .next (frzctlWrite s 0 v) := by
  rw [exec_freeze, execFreeze, if_pos hop, openWrite_open _ hs (Nat.zero_le _)]

/-- A GO of THAW starts it (R413). -/
theorem exec_thaw_starts (hs : running s = true) (hgo : v.getLsbD 31 = true) (hfn : (v.extractLsb' 16 6).toNat = f)
    (hidle : s.freezer.busy = false) (hop : v.extractLsb' 28 2 = 1) : exec (.thaw 0 v) s = .next (frzStarted s v 1 f) := by
  have hne : ¬ v.extractLsb' 28 2 = 0 := by rw [hop]; decide
  rw [exec_thaw, execThaw, if_pos hop, openWrite_open _ hs (Nat.zero_le _),
    frzctlWrite_starts (op := 1) hgo hfn hidle (congrArg BitVec.toNat hop) (by decide), if_neg hne]

theorem exec_freezeThawEnd_done (s : State) : exec .freezeThawEnd s = .next (frzDone s) := rfl

/-- A THAW into a function that holds contexts ends with 0x05 (R413; log entry 64). -/
theorem frzDone_busy (hp : s.freezer.phase = 2) (hb : funcBusy s s.freezer.job = true) : frzDone s = frzEnded s 0x05 := by
  have hthaw : thawEnd s s.freezer.job = (s, 0x05) := by rw [thawEnd, if_pos hb]
  rw [frzDone_thaw hp, hthaw]

/-- The releases of a FREEZE are asked for, and noted. -/
def frzAsked (r : State × List Nat) : State := { r.1 with freezer := { r.1.freezer with frees := some r.2 } }

theorem frzAsked_leaves {r : State × List Nat} (hframe : AskFrame s r.1) :
    (frzAsked r).freezer = { s.freezer with frees := some r.2 } ∧ (frzAsked r).launches = s.launches ∧ (frzAsked r).rels = r.1.rels := by
  refine ⟨?_, ?_, rfl⟩ <;>
    · unfold AskFrame at hframe
      rw [frzAsked, hframe]

/-- A FREEZE whose teams are spilled begins a release on every core (R411). -/
theorem frzDone_asks (hp : s.freezer.phase = 1) (hsp : allSpilled s s.freezer.job = true) (hfr : s.freezer.frees = none) :
    ∃ ids, (frzDone s).freezer = { s.freezer with frees := some ids } ∧ (frzDone s).launches = s.launches ∧
      ∀ c, c < 192 → ∃ r, r ∈ (frzDone s).rels ∧ r.core = c ∧ r.id ∈ ids := by
  have hcores : Config.cores = 192 := by rw [Config.cores]
  have hask : frzDone s = frzAsked (releaseAll s (List.range Config.cores) .sys) := frzDone_releases hp hsp hfr
  obtain ⟨hframe, hall⟩ := releaseAll_spec s (List.range Config.cores) .sys
  obtain ⟨hfreezer, hlaunches, hrels⟩ := frzAsked_leaves hframe
  rw [hask, hrels]
  exact ⟨_, hfreezer, hlaunches, fun c hc => hall c (List.mem_range.2 (by rw [hcores]; exact hc))⟩

/-- A FREEZE whose releases are over ends with its launches frozen, when its status is 0 (R411). -/
theorem frzDone_frozen {ids : List Nat} (hp : s.freezer.phase = 1) (hsp : allSpilled s s.freezer.job = true) (hfr : s.freezer.frees = some ids)
    (hover : relsOver s ids = true) (hzero : (freezeEnd s s.freezer.job).2 = 0) :
    (frzDone s).freezer.busy = false ∧ (frzDone s).freezer.status = 0 ∧
      (frzDone s).launches = s.launches.map (frozenEntry s.freezer.job) := by
  have hlaunches : ∀ z st, (frzEnded z st).launches = z.launches := fun _ _ => rfl
  rw [frzDone_freezes hp hsp hfr hover, hzero]
  exact ⟨rfl, rfl, (hlaunches _ _).trans (freezeEnd_freezes hzero)⟩

end

/-- Settles O58: a reply or a head write acts on its function alone, FREEZE and THAW end by their phase, and a stop marks the teams it names. -/
theorem recordsAndFreezing : Obligations.RecordsAndFreezing := by
  refine ⟨fun s f func k v h hs hf hfn hat hs2 hslot hend hdue => ⟨fun hact hel => ?_, fun a hact hh hin => ?_, fun hact hl hst => ?_⟩,
    fun s f func v hs => ⟨fun hf hfn hr => ?_, fun r hf hfn hr hrf hheld hfree hplace => ?_, fun i hgo hfv hi => ?_⟩,
    fun s f v hs => ⟨fun hgo hfv hidle => ⟨fun hop => ?_, fun hop => ?_⟩, fun hp hb => ?_, fun hp hsp hfr => ?_,
      fun ids hp hsp hfr hover hzero => ?_, ⟨_, rfl, flr_discards s f⟩⟩,
    fun s v i j k n x hs hgo hi hx hlabel htask => ⟨fun hk hres hon => ?_, fun hk => ?_⟩⟩
  · have hzero : (v.extractLsb' 30 2).toNat = 0 := congrArg BitVec.toNat hact
    refine ⟨_, rplrep_replies hs hf hfn hat hs2 hslot hzero (by decide), ?_⟩
    rw [applyReply_resumes hend hdue hel hzero, getGroup_setGroup_same]
    rfl
  · have hone : (v.extractLsb' 30 2).toNat = 1 := congrArg BitVec.toNat hact
    exact ⟨_, rplrep_replies hs hf hfn hat hs2 hslot hone (by decide), applyReply_handled hend hdue hh hin hone⟩
  · have htwo : (v.extractLsb' 30 2).toNat = 2 := congrArg BitVec.toNat hact
    exact ⟨_, rplrep_replies hs hf hfn hat hs2 hslot htwo (by decide), applyReply_kills hend hl hst htwo⟩
  · exact ⟨(exec_recordHeadWrite_moves hs hf hfn false).trans (congrArg Host.Outcome.next (serveRecs_none hr)),
      (exec_recordHeadWrite_moves hs hf hfn true).trans (congrArg Host.Outcome.next (serveRecs_none hr))⟩
  · obtain ⟨hrecs, hfunc⟩ := serveRecs_moved hr hrf hheld hfree hplace
    exact ⟨_, exec_recordHeadWrite_moves hs hf hfn false, hrecs, congrArg Func.ftail hfunc, congrArg Func.fhead hfunc⟩
  · exact ⟨_, exec_fpre_writes hs hi, fpreWrite_marks hgo hfv⟩
  · obtain ⟨⟨hbusy, hjob, hphase⟩, hrest⟩ := frzctlWrite_freezes hgo hfv hidle hop
    exact ⟨_, exec_freeze_writes hs hop, hbusy, hjob, hphase, hrest⟩
  · exact ⟨_, exec_thaw_starts hs hgo hfv hidle hop, rfl, rfl, rfl, rfl⟩
  · exact (exec_freezeThawEnd_done s).trans (congrArg Host.Outcome.next (frzDone_busy hp hb))
  · obtain ⟨ids, hrest⟩ := frzDone_asks hp hsp hfr
    exact ⟨_, ids, exec_freezeThawEnd_done s, hrest⟩
  · obtain ⟨hbusy, hstatus, hlaunches⟩ := frzDone_frozen hp hsp hfr hover hzero
    exact ⟨_, exec_freezeThawEnd_done s, hbusy, hstatus, fun lk l hl hlf => getLaunch_frozen hlaunches hl hlf⟩
  · have hkind := (kindOf_eq s.freezer.stop v).trans hk
    obtain ⟨hteam, hheld⟩ := stopWrite_stops hgo hkind hx hlabel htask hres hon
    exact ⟨_, exec_stop_writes hs hi hkind, congrArg Team.stopped hteam, congrArg Team.leaving hteam,
      (congrArg Team.stopTid hteam).trans (congrArg some (stopThreadOf_eq n s)), hheld⟩
  · have hkind := (kindOf_eq s.freezer.rsm v).trans hk
    exact ⟨_, exec_resume_writes hs hi hkind, resumeWrite_resumes hgo hkind hx hlabel htask⟩

end Sys2Proof.Machine
end
